-- ==== Sys2Proof/Word.lean ====
section
/-!
DEFINITION. The words of the HF-310: line characters, audio samples, array words and moments of the
part's timebase. Nothing here is the spec's choice but the widths.
-/

namespace Sys2Proof

/-- A value of one line character or one array byte (01 R1, 11). -/
abbrev Byte := BitVec 8

/-- The 16 data bits of an array word (09 R162). -/
abbrev DataWord := BitVec 16

/-- A 16-bit signed audio sample (07 R120). -/
abbrev Sample := BitVec 16

/-- A moment or a duration of the part's timebase, in units of 1/14,400,000 s: the coarsest unit in
which the character time of R1, the sample period of R120 and the 20 µs of R22 are whole (log 4). -/
abbrev Moment := Nat

end Sys2Proof
end

