-- ==== Sys2Proof/Syntax.lean ====
section
/-!
DEFINITION. The commands of the part: one constructor for each row of spec/opcode_table.json, with the
operands the surroundings give with it. A request or report row carries no operand: its fields stand in
the frame at the head of the receive queue (01 R10, log 6).
-/

namespace Sys2Proof

/-- A character as the receiver takes it: the data bits, the parity bit and the stop bit as read (01 R1). -/
structure LineChar where
  data : Byte
  parity : Bool
  stop : Bool
  deriving DecidableEq, Repr

/-- The levels of the straps when they are sampled (02 R21): ADDR2 to ADDR0 as a number, and CAL. -/
structure Straps where
  addr : BitVec 3
  cal : Bool
  deriving DecidableEq, Repr

/-- How a word of the array reads (09 R162, R164). A word with a single-bit error has its corrected value and the
data bit that reads wrong, or none where the error is in a check bit; an uncorrectable one has a value "as read". -/
inductive ArrayWord
  | erased
  | good (v : DataWord)
  | corrected (v : DataWord) (wrong : Option (Fin 16))
  | uncorrectable (v : DataWord)
  deriving DecidableEq, Repr

/-- A word of the array that has come to read otherwise than it was left: a bit error, or what a
program or erase cut off by the failure of both supplies left there (09 R163, 10 R197, log 12). -/
structure Upset where
  row : Nat
  word : Nat
  reads : ArrayWord
  deriving DecidableEq, Repr

/-- How far a cold start gets: to its end, or only into its first step because main power is being
lost (10 R188, R197, log 8). -/
inductive StartExtent
  | whole
  | cut
  deriving DecidableEq, Repr

/-- The commands, one per row of spec/opcode_table.json. -/
inductive Instr
  /-- RX_FRAME_COMPLETE (R5), with the CHECK character. -/
  | rxFrameComplete (check : LineChar)
  /-- BREAK (R19), with the time the line stays dominant past 20 CT. -/
  | lineBreak (past : Nat)
  /-- TX_ATTEMPT_START (R12). -/
  | txAttemptStart
  /-- ATTEMPT_LOST (R13). -/
  | attemptLost
  /-- TX_SUCCESS (R15). -/
  | txSuccess
  /-- SILENCE_TIMEOUT (R8) of the entry of an address. -/
  | silenceTimeout (addr : Nat)
  /-- STATION_REMOVAL (R9) of the entry of an address. -/
  | stationRemoval (addr : Nat)
  /-- ANNOUNCE_TIMER (R18). -/
  | announceTimer
  /-- ANNOUNCE (R6). -/
  | announce
  /-- PULSE_EDGE (R22). -/
  | pulseEdge
  /-- FARE_TICK (R24). -/
  | fareTick
  /-- WATCH_FIRES (R89) of the watch of a panel's address. -/
  | watchFires (panel : Nat)
  /-- CLOCK_SECOND (R27). -/
  | clockSecond
  /-- TIME_SET (R28). -/
  | timeSet
  /-- BAND (R31). -/
  | band
  /-- ASSIST_INPUT_CHANGE (R33), with the new level. -/
  | assistInputChange (high : Bool)
  /-- ASSIST_PRESS (R91). -/
  | assistPress
  /-- POWER_GOOD_CHANGE (R34), with the new level. -/
  | powerGoodChange (high : Bool)
  /-- POWER_LOSS (R188). -/
  | powerLoss
  /-- RETAIN_ENTRY_COMPLETE (R188). -/
  | retainEntryComplete
  /-- BACKUP_SUPPLY_FAIL (R186), with what a cut-off operation leaves in the array. -/
  | backupSupplyFail (left : List Upset)
  /-- WAKE (R190): the straps, by how much lost content has changed the sum of retention memory
  (0: none is lost), and the bit errors that came into the array. -/
  | wake (straps : Straps) (lost : DataWord) (upsets : List Upset)
  /-- COLD_START (R193): the straps, how far it gets, and the bit errors that came into the array. -/
  | coldStart (straps : Straps) (extent : StartExtent) (upsets : List Upset)
  /-- TARIFF_BEGIN (R42). -/
  | tariffBegin
  /-- TARIFF_ERASE_COMPLETE (R42). -/
  | tariffEraseComplete
  /-- TARIFF_PART (R43). -/
  | tariffPart
  /-- TARIFF_PART_PROGRAM_COMPLETE (R43). -/
  | tariffPartProgramComplete
  /-- TARIFF_MARK_PROGRAM_COMPLETE (R43). -/
  | tariffMarkProgramComplete
  /-- TARIFF_COMMIT (R44). -/
  | tariffCommit
  /-- TARIFF_COMMIT_PROGRAM_COMPLETE (R44), with the bit errors that came into the array between the
  program and the read. -/
  | tariffCommitProgramComplete (upsets : List Upset)
  /-- SHIFT_OPEN (R146). -/
  | shiftOpen
  /-- SHIFT_CLOSE (R148). -/
  | shiftClose
  /-- DUTY (R79). -/
  | duty
  /-- BOOK (R80). -/
  | book
  /-- HIRE (R55). -/
  | hire
  /-- HOLD (R57). -/
  | hold
  /-- RESUME (R58). -/
  | resume
  /-- VOID (R59). -/
  | void
  /-- EXTRA (R60). -/
  | extra
  /-- FLAT (R61). -/
  | flat
  /-- PAY_CLAIM (R99). -/
  | payClaim
  /-- CLAIM_DEADLINE (R100) of the leg in a slot. -/
  | claimDeadline (slot : Fin 4)
  /-- PAY_START (R104). -/
  | payStart
  /-- PAY_RESULT (R105). -/
  | payResult
  /-- PAY_CANCEL (R108). -/
  | payCancel
  /-- ATTEMPT_DEADLINE (R109) of the leg in a slot. -/
  | attemptDeadline (slot : Fin 4)
  /-- CASH (R115). -/
  | cash
  /-- TIP (R114). -/
  | tip
  /-- SIGN_RESEND_TIMER (R85). -/
  | signResendTimer
  /-- SIGN_STATE (R86). -/
  | signState
  /-- SEAT (R88). -/
  | seat
  /-- ASSIST_REPEAT_TIMER (R92). -/
  | assistRepeatTimer
  /-- ASSIST_ACK (R92). -/
  | assistAck
  /-- ASSIST_CLEAR (R93). -/
  | assistClear
  /-- SAMPLE_PERIOD (R121), with the input samples of MIC0 to MIC3. -/
  | samplePeriod (m0 m1 m2 m3 : Sample)
  /-- CALL (R126). -/
  | call
  /-- RING_TIMER (R129). -/
  | ringTimer
  /-- HOLD_BOUNDARY (R133). -/
  | holdBoundary
  /-- ANSWER (R130). -/
  | answer
  /-- END_CALL (R131). -/
  | endCall
  /-- TALK (R135). -/
  | talk
  /-- PRIVACY (R136). -/
  | privacy
  /-- PRINT_CREDIT (R159). -/
  | printCredit
  /-- JOURNAL_READ (R174). -/
  | journalRead
  /-- JOURNAL_CREDIT (R175). -/
  | journalCredit
  /-- JOURNAL_RELEASE (R179). -/
  | journalRelease
  /-- JOURNAL_PROGRAM_COMPLETE (R170). -/
  | journalProgramComplete
  /-- JOURNAL_ERASE_COMPLETE (R171). -/
  | journalEraseComplete
  /-- FAULT_ACK (R184). -/
  | faultAck
  /-- LINE_CHARACTER (R4), with the character. -/
  | lineCharacter (c : LineChar)
  /-- RECEIVER_IDLE_GAP (R4). -/
  | receiverIdleGap
  /-- FARE_SHOW_SEND_INTERVAL (R16) of a slot. -/
  | fareShowSendInterval (slot : Fin 4)
  /-- PULSE_INPUT_CHANGE (R22), with the new level. -/
  | pulseInputChange (high : Bool)
  /-- DISCARDED_KIND_FRAME (R10). -/
  | discardedKindFrame
  deriving DecidableEq, Repr

end Sys2Proof
end

