-- ==== Sys2Proof/Machine/Records.lean ====
section
/-!
DEFINITION. The data the blocks of the part hold: the records, entries, queue elements and notices the
chapters name, as plain data.
-/

namespace Sys2Proof.Machine

/-! ### Fixed numbers of like things -/

/-- Four like things, indexed 0–3: leg slots, bands, speakers. -/
structure Four (α : Type) where
  s0 : α
  s1 : α
  s2 : α
  s3 : α
  deriving DecidableEq, Repr

def Four.get {α : Type} (f : Four α) (i : Fin 4) : α :=
  match i with
  | 0 => f.s0
  | 1 => f.s1
  | 2 => f.s2
  | 3 => f.s3

def Four.set {α : Type} (f : Four α) (i : Fin 4) (x : α) : Four α :=
  match i with
  | 0 => { f with s0 := x }
  | 1 => { f with s1 := x }
  | 2 => { f with s2 := x }
  | 3 => { f with s3 := x }

def Four.toList {α : Type} (f : Four α) : List α := [f.s0, f.s1, f.s2, f.s3]

def Four.map {α β : Type} (g : α → β) (f : Four α) : Four β := ⟨g f.s0, g f.s1, g f.s2, g f.s3⟩

def Four.all {α : Type} (x : α) : Four α := ⟨x, x, x, x⟩

/-- A rear audio port (07 R120). -/
inductive Port
  | a1
  | a2
  | a3
  deriving DecidableEq, Repr

/-- The rear ports, lowest first. -/
def Port.list : List Port := [.a1, .a2, .a3]

/-- A port's number, 1–3, which is also the index of its speaker (07 R120, 11.3). -/
def Port.index : Port → Fin 4
  | .a1 => 1
  | .a2 => 2
  | .a3 => 3

/-- Three like things, one for each rear port. -/
structure Three (α : Type) where
  a1 : α
  a2 : α
  a3 : α
  deriving DecidableEq, Repr

def Three.get {α : Type} (f : Three α) : Port → α
  | .a1 => f.a1
  | .a2 => f.a2
  | .a3 => f.a3

def Three.set {α : Type} (f : Three α) (p : Port) (x : α) : Three α :=
  match p with
  | .a1 => { f with a1 := x }
  | .a2 => { f with a2 := x }
  | .a3 => { f with a3 := x }

/-! ### Names -/

/-- The roles of stations, in the order of their codes (01 R4, 11). -/
inductive Role
  | console
  | panel
  | sign
  | printer
  | fleet
  | calibrator
  | meter
  deriving DecidableEq, Repr

/-- The refusal codes, in the order of their codes (01 R11, 11). -/
inductive RefusalCode
  | state
  | noShift
  | noTariff
  | noSlot
  | unknownLeg
  | range
  | claimed
  | notHolder
  | limit
  | journalFull
  | notAllowed
  | absent
  | busy
  | tooLate
  deriving DecidableEq, Repr

/-- The request and report kinds of R10. -/
inductive ReqKind
  | announce
  | shiftOpen
  | shiftClose
  | duty
  | book
  | hire
  | hold
  | resume
  | void
  | extra
  | flat
  | band
  | cash
  | tip
  | faultAck
  | talk
  | answer
  | endCall
  | privacy
  | call
  | seat
  | payClaim
  | payStart
  | payResult
  | payCancel
  | signState
  | timeSet
  | assistAck
  | assistClear
  | journalRead
  | journalCredit
  | journalRelease
  | printCredit
  | tariffBegin
  | tariffPart
  | tariffCommit
  deriving DecidableEq, Repr

/-- The sixteen faults (10 R182), in index order. -/
inductive FaultName
  | lineContention
  | rxOverrun
  | txOverrun
  | addressClash
  | stationTableFull
  | pulseOverrun
  | unmetered
  | journalCorrected
  | journalDamaged
  | printLost
  | retentionLost
  | clockUnset
  | signLost
  | lampFault
  | assist
  | journalNearFull
  deriving DecidableEq, Repr

/-! ### Time -/

/-- A date and a time of day to the second (02 R27). -/
structure DateTime where
  year : Nat
  month : Nat
  day : Nat
  hour : Nat
  minute : Nat
  second : Nat
  deriving DecidableEq, Repr

/-- The moment the clock is loaded with at a cold start (02 R27). -/
def DateTime.epoch : DateTime := ⟨2000, 1, 1, 0, 0, 0⟩

/-! ### The line -/

/-- What the receiver is doing (01 R4). In FRAME it holds the characters so far, LEAD first, and whether
the LEAD was the part's own transmission. -/
inductive Receiver
  | skip
  | ready
  | frame (own : Bool) (chars : List Byte)
  deriving DecidableEq, Repr

/-- A frame in the receive queue (01 R5), with whether its sender's entry was ABSENT on acceptance,
which the outcome table of R6 reads (log 14). -/
structure QFrame where
  src : Nat
  kind : Byte
  payload : List Byte
  fromAbsent : Bool
  deriving DecidableEq, Repr

/-- An entry of the station table (01 section 1.4). `silenceFrom` is the moment its silence timer last
restarted. -/
structure Station where
  addr : Nat
  role : Role
  port : Option Port
  present : Bool
  silenceFrom : Moment
  deriving DecidableEq, Repr

/-! ### The tariff set (03 R36–R38) -/

/-- Which edges of PULSE are counted (02 R22). -/
inductive EdgeMode
  | rising
  | falling
  | both
  deriving DecidableEq, Repr, Inhabited

/-- The GENERAL section (03 R36). -/
structure General where
  K : Nat
  mode : EdgeMode
  cp : Nat
  sharing : Bool
  watch : Bool
  mask : BitVec 16
  deriving DecidableEq, Repr, Inhabited

/-- A BAND section (03 R37). -/
structure BandRates where
  double : Bool
  F : Nat
  N : Nat
  U : Nat
  Ds : Nat
  Ts : Nat
  f2 : Nat
  f3 : Nat
  f4 : Nat
  deriving DecidableEq, Repr, Inhabited

/-- A SWITCH section (03 R38): bit 0 of `days` is Monday. -/
structure SwitchPoint where
  days : BitVec 7
  minute : Nat
  band : Nat
  deriving DecidableEq, Repr

/-- An EXTRA section (03 R38). -/
structure ExtraKind where
  amount : Nat
  max : Nat
  automatic : Bool
  deriving DecidableEq, Repr

/-- A committed tariff set (03 section 3.1): GENERAL, the present bands, the present switch points in
index order, and the extras and zones by index. -/
structure TariffSet where
  general : General
  bands : Four (Option BandRates)
  switches : List SwitchPoint
  extras : List (Option ExtraKind)
  zones : List (Option Nat)
  deriving DecidableEq, Repr

/-- The calibration window (03 R40). -/
inductive Window
  | closed
  | opened
  | erasing
  | loading
  | writing
  deriving DecidableEq, Repr

/-! ### Legs (04 R51, 06 R95) -/

inductive ShareMode
  | solo
  | shared
  deriving DecidableEq, Repr

/-- The states of a slot that is not FREE (04 R49). -/
inductive LegPhase
  | opened
  | held
  | paying
  | closing
  deriving DecidableEq, Repr

/-- Metered, or flat with its zone (04 R51). -/
inductive LegKind
  | metered
  | flat (zone : Nat)
  deriving DecidableEq, Repr

inductive TenderKind
  | cash
  | card (attempt : Nat) (reference : List Byte)
  deriving DecidableEq, Repr

/-- One payment applied to a leg (06 R95). -/
structure Tender where
  kind : TenderKind
  amount : Nat
  deriving DecidableEq, Repr

/-- The states of an attempt (06 R102); an IN_FLIGHT attempt has its deadline. -/
inductive AttemptState
  | inFlight (deadline : Moment)
  | approved
  | declined
  | cancelled
  | indeterminate
  | approvedLate
  deriving DecidableEq, Repr

/-- One card payment try (06 R95). -/
structure Attempt where
  number : Nat
  starter : Nat
  requested : Nat
  state : AttemptState
  deriving DecidableEq, Repr

/-- The claim on a leg (06 R95, R100): its holder's identity, which is an address and a role (R99), and its deadline,
which runs while the leg is HELD. -/
structure Claim where
  holder : Nat
  role : Role
  deadline : Option Moment
  deriving DecidableEq, Repr

/-- The record of a leg: its state, the fare part FARE owns and the settlement part PAY owns. -/
structure Leg where
  phase : LegPhase
  number : Nat
  panel : Option Nat
  share : ShareMode
  openTime : DateTime
  booking : Option (List Byte)
  openBand : Fin 4
  regBand : Fin 4
  kind : LegKind
  reg : Nat
  steps : Nat
  farePart : Nat
  extraCounts : List Nat
  extrasTotal : Nat
  ceiling : Bool
  voided : Bool
  interrupted : Bool
  hiredPulses : Nat
  hiredTicks : Nat
  sharedTicks : Nat
  tip : Option Nat
  tenders : List Tender
  attempts : List Attempt
  claim : Option Claim
  deriving DecidableEq, Repr

/-- A leg's total (04 R53). -/
def Leg.total (l : Leg) : Nat := l.farePart + l.extrasTotal

/-- The sum of a leg's tenders. -/
def Leg.paid (l : Leg) : Nat := (l.tenders.map (·.amount)).sum

/-- A leg's due (06 R95): total plus tip less the tenders. -/
def Leg.due (l : Leg) : Nat := l.total + l.tip.getD 0 - l.paid

/-- An occupied slot's leg is OPEN, HELD or PAYING (04 R49). -/
def Leg.occupied (l : Leg) : Bool := l.phase != .closing

/-! ### Cab state (05) -/

inductive Duty
  | noShift
  | vacant
  | offDuty
  | booked
  | hired
  deriving DecidableEq, Repr

inductive Pattern
  | dark
  | offDuty
  | vacant
  | booked
  | hired
  | share1
  | share2
  | share3
  deriving DecidableEq, Repr, Inhabited

inductive Confirm
  | confirmed
  | waiting
  | lost
  deriving DecidableEq, Repr

/-- The sign record (05 R84). A lamp flag is set for FAILED. -/
structure SignRecord where
  pattern : Pattern
  flag : Bool
  seq : Nat
  front : Bool
  rear : Bool
  side : Bool
  confirm : Confirm
  resends : Nat
  deriving DecidableEq, Repr

inductive AckState
  | unacked
  | acked
  deriving DecidableEq, Repr

/-- The watch record of a panel (05 R88). -/
structure Watch where
  addr : Nat
  occupied : Bool
  count : Nat
  fired : Bool
  deriving DecidableEq, Repr

/-! ### Intercom (07) -/

inductive CallPhase
  | idle
  | queued
  | ringing
  | linked
  | releasing
  deriving DecidableEq, Repr

inductive Reason
  | none
  | ended
  | timedOut
  | absent
  deriving DecidableEq, Repr

/-- The call state of a rear port (07 R125), with its grant moment (R128) and the hold boundaries
counted for the grant (R133). -/
structure CallRec where
  phase : CallPhase
  reason : Reason
  grantAt : Moment
  boundaries : Nat
  deriving DecidableEq, Repr

/-- An entry of the call queue (07 R127). `arrival` numbers the joinings in their order (log 24). -/
structure QEntry where
  port : Port
  addr : Nat
  urgent : Bool
  arrival : Nat
  deriving DecidableEq, Repr

inductive TalkTarget
  | one (p : Port)
  | all
  deriving DecidableEq, Repr

/-- The driver's talk state (07 R135). -/
inductive Talk
  | up
  | down (t : TalkTarget)
  deriving DecidableEq, Repr

inductive PromptKind
  | ring
  | fare
  | paid
  | declined
  | timeout
  deriving DecidableEq, Repr

/-- An entry of the prompt queue (07 R138): SPK k is in the destination set when `dests.get k`. -/
structure Prompt where
  kind : PromptKind
  dests : Four Bool
  deriving DecidableEq, Repr

/-- The prompt player (07 R139). -/
inductive Player
  | idle
  | playing (kind : PromptKind) (dests : Four Bool) (segment left phase : Nat)
  deriving DecidableEq, Repr

/-- The actual gains into one destination (07 section 7.2): from MIC0 to MIC3 and from PROMPT. -/
structure Gains where
  mic : Four Nat
  prompt : Nat
  deriving DecidableEq, Repr

/-! ### Journal records (09 R168, 11.5) -/

structure OpenRecord where
  shift : Nat
  driver : Nat
  openTime : DateTime
  odometer : Nat
  deriving DecidableEq, Repr

/-- The LEG record (04 R70). -/
structure LegRecord where
  shift : Nat
  number : Nat
  panel : Option Nat
  share : ShareMode
  openBand : Fin 4
  regBand : Fin 4
  kind : LegKind
  ceiling : Bool
  voided : Bool
  interrupted : Bool
  openTime : DateTime
  closeTime : DateTime
  booking : Option (List Byte)
  steps : Nat
  farePart : Nat
  extrasTotal : Nat
  total : Nat
  tip : Option Nat
  extraCounts : List Nat
  distance : Nat
  hiredTime : Nat
  sharedTime : Nat
  tenders : List Tender
  deriving DecidableEq, Repr

inductive EventBody
  | clockSet (before after : DateTime)
  | signLost (pattern : Pattern) (seq : Nat)
  | unmetered (panel : Nat)
  | assist (presses : Nat)
  | lateApproval (leg attempt amount : Nat)
  | powerInterruption (duration : Nat)
  deriving DecidableEq, Repr

structure EventRecord where
  shift : Nat
  time : DateTime
  body : EventBody
  deriving DecidableEq, Repr

/-- The totals of Table 8-1 (08 R144), in index order. -/
structure Totals where
  legsClosed : Nat
  legsVoided : Nat
  sharedLegs : Nat
  fare : Nat
  extras : Nat
  tips : Nat
  card : Nat
  cash : Nat
  lateCount : Nat
  lateSum : Nat
  hiredMetres : Nat
  unhiredMetres : Nat
  hiredSeconds : Nat
  sharedSeconds : Nat
  unresolved : Nat
  interruptions : Nat
  signFaults : Nat
  unmetered : Nat
  assists : Nat
  notJournalled : Nat
  moneyHeld : Nat
  deriving DecidableEq, Repr

def Totals.zero : Totals := ⟨0, 0, 0, 0, 0, 0, 0, 0, 0, 0, 0, 0, 0, 0, 0, 0, 0, 0, 0, 0, 0⟩

structure CloseRecord where
  shift : Nat
  abandoned : Bool
  driver : Nat
  openTime : DateTime
  closeTime : DateTime
  odoOpen : Nat
  odoClose : Nat
  totals : Totals
  deriving DecidableEq, Repr

inductive Record
  | shiftOpen (r : OpenRecord)
  | leg (r : LegRecord)
  | event (r : EventRecord)
  | shiftClose (r : CloseRecord)
  deriving DecidableEq, Repr

/-- A record standing in the append queue with its row sequence number (09 R165, R168). -/
structure Queued where
  seq : Nat
  record : Record
  deriving DecidableEq, Repr

/-! ### Shift accounts (08) -/

/-- An entry of the unresolved attempt list (08 R153). -/
structure Unresolved where
  leg : Nat
  attempt : Nat
  requested : Nat
  station : Nat
  deriving DecidableEq, Repr

/-- An entry of the late approval list (08 R154). -/
structure Late where
  leg : Nat
  attempt : Nat
  amount : Nat
  reference : List Byte
  deriving DecidableEq, Repr

inductive ShiftState
  | none
  | opened
  | closed
  deriving DecidableEq, Repr

/-- The shift record (08 R144). -/
structure ShiftRecord where
  state : ShiftState
  number : Nat
  driver : Nat
  openTime : DateTime
  odoOpen : Nat
  closeTime : Option DateTime
  odoClose : Option Nat
  totals : Totals
  hiredPulses : Nat
  unhiredPulses : Nat
  hiredTicks : Nat
  sharedTicks : Nat
  pushedOut : Nat
  deriving DecidableEq, Repr

/-- No shift record: state NONE (08 R144, R161). -/
def ShiftRecord.none : ShiftRecord :=
  ⟨.none, 0, 0, DateTime.epoch, 0, Option.none, Option.none, Totals.zero, 0, 0, 0, 0, 0⟩

/-- A print job (08 R156): the copy of the record it prints. A receipt also keeps its zone's fare as it
stood when the job was placed (log 22). -/
inductive JobBody
  | receipt (r : LegRecord) (zoneFare : Nat)
  | report (r : CloseRecord) (unresolved : List Unresolved) (late : List Late)
  deriving DecidableEq, Repr

/-- A print job with the number of its items already sent; it is in print when that is above 0. -/
structure Job where
  body : JobBody
  pos : Nat
  deriving DecidableEq, Repr

/-! ### Journal store (09) -/

/-- A sector map entry (09 R166). -/
structure SectorEntry where
  erased : Bool
  range : Option (Nat × Nat)
  eraseFlag : Bool
  deriving DecidableEq, Repr

inductive DirState
  | opened
  | closed
  | abandoned
  | read
  | released
  deriving DecidableEq, Repr

/-- A shift directory entry (09 R172). -/
structure DirEntry where
  shift : Nat
  first : Nat
  last : Option Nat
  state : DirState
  deriving DecidableEq, Repr

/-- The read-out cursor (09 R174), with the row kept for its four frames and whether it read DAMAGED
(R176), and whether the row's read still waits for the array (R162). -/
structure Cursor where
  shift : Nat
  station : Nat
  index : Nat
  quarter : Nat
  sent : Nat
  fromZero : Bool
  row : Option (List Byte × Bool)
  readWaits : Bool
  deriving DecidableEq, Repr

/-- A program or erase of the array (09 R163): the journal's, or one of the tariff store's with the
address its answer goes to. -/
inductive ArrayOp
  | journalProgram (row : Nat)
  | journalErase (sector : Nat)
  | tariffErase (sector : Nat) (asker : Nat)
  | tariffPart (row : Nat) (content : List Byte) (asker : Nat)
  | tariffMark (row : Nat) (asker : Nat)
  | tariffCommit (row count sum : Nat) (asker : Nat)
  deriving DecidableEq, Repr

/-! ### Notices (01 R16) -/

inductive Answer
  | accepted (values : List Byte)
  | refused (code : RefusalCode)
  deriving DecidableEq, Repr

/-- A reply of class 1 (01 R11). -/
structure Reply where
  asker : Nat
  kind : Byte
  answer : Answer
  deriving DecidableEq, Repr

structure AssistNotice where
  latch : Bool
  presses : Nat
  time : DateTime
  deriving DecidableEq, Repr

structure SignSet where
  pattern : Pattern
  flag : Bool
  seq : Nat
  deriving DecidableEq, Repr

/-- PAY_OFFER (06 R98). -/
structure Offer where
  leg : Nat
  total : Nat
  tip : Nat
  due : Nat
  next : Nat
  tenders : Nat
  holder : Nat
  deriving DecidableEq, Repr

/-- CALL_STATE (07 R125). -/
structure CallNotice where
  panel : Nat
  phase : CallPhase
  reason : Reason
  urgent : Bool
  place : Nat
  deriving DecidableEq, Repr

/-- FARE_SHOW (04 R74); `phase` none is FREE. -/
structure FareShow where
  leg : Nat
  phase : Option LegPhase
  fare : Nat
  extras : Nat
  total : Nat
  due : Nat
  band : Nat
  ceiling : Bool
  flat : Bool
  deriving DecidableEq, Repr

inductive BookOutcome
  | taken
  | cancelled
  | replaced
  deriving DecidableEq, Repr

/-- The item kinds of FLEET_NOTICE (11.3). -/
inductive FleetKind
  | booking
  | clockApplied
  | shiftClosed
  | lateApproval
  deriving DecidableEq, Repr

/-- A FLEET_NOTICE item (11.3). -/
inductive FleetItem
  | booking (reference : List Byte) (outcome : BookOutcome) (leg : Nat)
  | clockApplied (time : DateTime)
  | shiftClosed (shift driver : Nat) (closeTime : DateTime) (fare extras tips card cash : Nat)
  | lateApproval (shift leg attempt amount : Nat) (reference : List Byte)
  deriving DecidableEq, Repr

def FleetItem.kind : FleetItem → FleetKind
  | .booking .. => .booking
  | .clockApplied .. => .clockApplied
  | .shiftClosed .. => .shiftClosed
  | .lateApproval .. => .lateApproval

/-- A frame of the read-out (09 R176, R177). -/
inductive ReadFrame
  | row (shift index quarter : Nat) (damaged : Bool) (bytes : List Byte)
  | fin (shift sent : Nat) (openFlag : Bool)
  deriving DecidableEq, Repr

/-- A print item (08 R157, 11.4). -/
structure PrintItem where
  code : Nat
  index : Nat
  value : List Byte
  deriving DecidableEq, Repr

/-- What the transmitter can hold (01 section 1.6): a slot, the head of class 1, or an item of class 6. -/
inductive Notice
  | assist
  | reply
  | sign
  | offer (slot : Fin 4)
  | call (port : Port)
  | fare (slot : Fin 4)
  | fleet (kind : FleetKind)
  | journal
  | print
  | announce
  deriving DecidableEq, Repr

/-! ### The array (09 R162) -/

/-- The 64 words of a row. -/
abbrev Row := List ArrayWord

/-- The array: (row number, row) for every row that is not all erased, row numbers strictly rising. -/
abbrev Memory := List (Nat × Row)

/-! ### Power (10) -/

inductive Power
  | off
  | starting
  | active
  | entering
  | retain
  deriving DecidableEq, Repr

inductive Detector
  | armed
  | timing
  | down
  deriving DecidableEq, Repr

/-- Retention memory (10 R187): what each owner keeps in it, the retention check word apart. -/
structure Retained where
  odometer : Nat
  clock : DateTime
  clockSet : Bool
  pendingTime : Option DateTime
  manualBand : Option (Fin 4)
  slots : Four (Option Leg)
  lastLeg : Nat
  duty : Duty
  share : Option ShareMode
  booking : Option (List Byte)
  latch : Bool
  presses : Nat
  wakeMark : Bool
  sign : SignRecord
  privacy : Bool
  forced : Bool
  shift : ShiftRecord
  lastShift : Nat
  unresolved : List Unresolved
  late : List Late
  jobs : List Job
  append : List Queued
  writePos : Nat
  waitsErase : Bool
  nextSeq : Nat
  sectors : List SectorEntry
  directory : List DirEntry
  faults : BitVec 16
  coldFlag : Bool
  time : Moment
  retainAt : Moment
  deriving DecidableEq, Repr

end Sys2Proof.Machine
end

