-- ==== Sys2Proof/Config.lean ====
section
/-!
DEFINITION. What the part fixes but the spec gives no value for. Every constant here is a FREE VALUE: it has
no body, so nothing can be proved of it, and every statement holds whatever it is.
-/

namespace Sys2Proof.Config

open Sys2Proof.Machine

/-- The words of retention memory other than the check word (10 R187): the spec names what retention
memory holds and not how it lies in words (log 9). -/
opaque retentionWords : Retained → List DataWord

/-- The word PWR writes so that the wake after an abandoned cold start fails the check (10 R188), for
the n-th such entry: the spec asks only that it differs from the sum (log 10). -/
opaque spoiledCheck : Nat → DataWord

/-- What the 16 data bits of a word in the erased state read as (09 R164), log 13. -/
opaque erasedValue : DataWord

/-- K where it is read while no tariff is committed (log 16). -/
opaque absentK : Nat

/-- A band's rates where they are read and the committed tariff holds none (log 16). -/
opaque absentBand : Fin 4 → BandRates

/-- Cp where it is read while no tariff is committed (log 16). -/
opaque absentCp : Nat

/-- The pattern of a HIRED cab that the sign table has no row for, by share mode, occupied count and Cp (05 R83, log 50). -/
opaque unlistedPattern : Option ShareMode → Nat → Nat → Pattern

/-- A zone's fare where it is read and the committed tariff holds none (log 16). -/
opaque absentZoneFare : Nat → Nat

end Sys2Proof.Config
end

