-- ==== Sys2Proof/Machine/State.lean ====
section
/-!
DEFINITION. The state of the part, block by block, the state after reset, and the reasons a step can stop.
-/

namespace Sys2Proof.Machine

/-- LIF's transmitter (01 section 1.6). `sending` is the frame of the attempt under way, character by character (R1,
R12). `renewed` is set when the held notice's content was placed anew
or withdrawn after the attempt under way began (01 R15, 08 R159, 09 R178). -/
@[ext] structure Transmitter where
  held : Option Notice
  contention : Nat
  sending : Option (List LineChar)
  renewed : Bool
  deriving DecidableEq, Repr

/-- LIF (01). `lineFree` is the moment the line was last busy; `announceDue` the announce timer's next. -/
@[ext] structure Lif where
  address : Nat
  rx : Receiver
  queue : List QFrame
  lineFree : Moment
  tx : Transmitter
  stations : List Station
  announceDue : Moment
  deriving DecidableEq, Repr

/-- NSC: the ten classes (01 R16), the last sends of class 5, the last-sent slots of classes 3, 4, 5. -/
@[ext] structure Nsc where
  assist : Option AssistNotice
  replies : List Reply
  sign : Option SignSet
  offers : Four (Option Offer)
  calls : Three (Option CallNotice)
  fares : Four (Option FareShow)
  fareSent : Four (Option Moment)
  fleet : List FleetItem
  journal : Option ReadFrame
  print : Option PrintItem
  announce : Bool
  lastOffer : Fin 4
  lastCall : Port
  lastFare : Fin 4
  deriving DecidableEq, Repr

/-- ODO (02). Timers stand as the moment of their next expiry. -/
@[ext] structure Odo where
  addrStrap : BitVec 3
  calStrap : Bool
  pulseLevel : Bool
  pulseQualified : Bool
  pulseFrom : Option Moment
  pulseCount : Nat
  lastTaken : Nat
  tickDue : Moment
  window : List Nat
  moving : Bool
  odometer : Nat
  clock : DateTime
  clockSet : Bool
  secondDue : Moment
  pendingTime : Option DateTime
  manualBand : Option (Fin 4)
  vehicleBand : Fin 4
  assistLevel : Bool
  detector : Detector
  assistFrom : Moment
  powerGood : Bool
  powerFrom : Moment
  deriving DecidableEq, Repr

/-- TAR (03): the committed set, the calibration window, and the rows written by the present load. -/
@[ext] structure Tar where
  committed : Option TariffSet
  window : Window
  written : Nat
  deriving DecidableEq, Repr

/-- The leg table, which FARE and PAY share (04 R49, 06 R95), and the last leg number (R52). -/
@[ext] structure Fare where
  slots : Four (Option Leg)
  lastLeg : Nat
  deriving DecidableEq, Repr

/-- CAB (05). `pressTime` is the clock at the latest press (R91). -/
@[ext] structure Cab where
  duty : Duty
  share : Option ShareMode
  booking : Option (List Byte)
  latch : Bool
  presses : Nat
  pressTime : DateTime
  wakeMark : Bool
  ack : Option AckState
  repeatDue : Option Moment
  sign : SignRecord
  signDue : Option Moment
  watches : List Watch
  deriving DecidableEq, Repr

/-- ICM (07). `gains.get d` are the actual gains into SPK d. -/
@[ext] structure Icm where
  calls : Three CallRec
  queue : List QEntry
  arrivals : Nat
  talk : Talk
  privacy : Bool
  forced : Bool
  gains : Four Gains
  out : Four Sample
  prompts : List Prompt
  player : Player
  promptSample : Sample
  ringDue : Option Moment
  holdDue : Moment
  sampleDue : Moment
  deriving DecidableEq, Repr

/-- ACC (08). -/
@[ext] structure Acc where
  shift : ShiftRecord
  lastShift : Nat
  unresolved : List Unresolved
  late : List Late
  jobs : List Job
  credit : Nat
  deriving DecidableEq, Repr

/-- JNL (09) and the array's operation in flight and those waiting, in due order (R162). `sectors` has
the entries of sectors 2–127; `writePos` is a row number of the array, 32–2,047; `waitsErase` is set while the head's
program waits by the first case of R165 (log 44). -/
@[ext] structure Jnl where
  inFlight : Option ArrayOp
  waiting : List ArrayOp
  append : List Queued
  writePos : Nat
  waitsErase : Bool
  nextSeq : Nat
  sectors : List SectorEntry
  directory : List DirEntry
  cursor : Option Cursor
  credit : Nat
  deriving DecidableEq, Repr

/-- FLT (10 R182, R185): the latched faults, bit i the fault of index i, and the cold-start flag. -/
@[ext] structure Flt where
  latched : BitVec 16
  coldFlag : Bool
  deriving DecidableEq, Repr

/-- PWR (10 R186, R187). `abandoned` is set while a RETAIN entry that abandons a cold start is under
way (R188). -/
@[ext] structure Pwr where
  state : Power
  retainAt : Moment
  check : DataWord
  abandoned : Bool
  deriving DecidableEq, Repr

/-- The whole part, with the queue of commands that wait. `time` is the part's timebase (10 R187), and
`free` counts the free values drawn (log 10). -/
@[ext]
structure State where
  pending : List Instr
  free : Nat
  time : Moment
  array : Memory
  lif : Lif
  nsc : Nsc
  odo : Odo
  tar : Tar
  fare : Fare
  cab : Cab
  icm : Icm
  acc : Acc
  jnl : Jnl
  flt : Flt
  pwr : Pwr
  deriving DecidableEq, Repr

/-- Why the part's model stops. -/
inductive Fault
  /-- Raised by the commands that carry array upsets when one names a row or a word the array does not
  have (09 R162). Safe: the hardware has no such word, so no step of it is cut short. -/
  | outsideArray (row word : Nat)
  deriving DecidableEq, Repr

/-- Why a command has no meaning. -/
inductive Refusal
  /-- Raised by no arm of `exec`: every row of the opcode table has its meaning. Safe. -/
  | notModelled (mnemonic : String)
  deriving DecidableEq, Repr

/-- What a command answers. -/
abbrev Out := Host.Outcome State Fault Refusal

/-! ### Reset (log 1, log 2): the start tables R20, R35, R48, R77, R94, R119, R143, R161, R181, R198, for a
cold start that found the array erased and the straps open. -/

/-- A free transmitter with contention count 0 (01 R20). -/
def Transmitter.free : Transmitter := ⟨none, 0, none, false⟩

/-- Empty classes (01 R20). -/
def Nsc.empty : Nsc where
  assist := none
  replies := []
  sign := none
  offers := Four.all none
  calls := ⟨none, none, none⟩
  fares := Four.all none
  fareSent := Four.all none
  fleet := []
  journal := none
  print := none
  announce := false
  lastOffer := 3
  lastCall := .a3
  lastFare := 3

/-- An idle port (07 R143). -/
def CallRec.idle : CallRec := ⟨.idle, .none, 0, 0⟩

/-- The gains all 0 (07 R143). -/
def Gains.zero : Gains := ⟨Four.all 0, 0⟩

/-- The sign record after a cold start (05 R94). -/
def SignRecord.cold : SignRecord := ⟨.dark, false, 0, false, false, false, .waiting, 0⟩

/-- A sector whose rows are all FREE (09 R166). -/
def SectorEntry.free : SectorEntry := ⟨true, none, false⟩

def State.reset : State where
  pending := []
  free := 0
  time := 0
  array := []
  lif :=
    { address := 1, rx := .skip, queue := [], lineFree := 33000, tx := Transmitter.free
      stations := [], announceDue := 28800000 }
  nsc := { Nsc.empty with sign := some ⟨.dark, false, 0⟩, announce := true }
  odo :=
    { addrStrap := 0, calStrap := false, pulseLevel := false, pulseQualified := false
      pulseFrom := none, pulseCount := 0, lastTaken := 0, tickDue := 1440000
      window := [0, 0, 0, 0, 0, 0, 0, 0, 0, 0], moving := false, odometer := 0
      clock := DateTime.epoch, clockSet := false, secondDue := 14400000, pendingTime := none
      manualBand := none, vehicleBand := 0, assistLevel := true, detector := .armed
      assistFrom := 0, powerGood := true, powerFrom := 0 }
  tar := { committed := none, window := .closed, written := 0 }
  fare := { slots := Four.all none, lastLeg := 0 }
  cab :=
    { duty := .noShift, share := none, booking := none, latch := false, presses := 0
      pressTime := DateTime.epoch, wakeMark := false, ack := none, repeatDue := none
      sign := SignRecord.cold, signDue := some 14400000, watches := [] }
  icm :=
    { calls := ⟨CallRec.idle, CallRec.idle, CallRec.idle⟩, queue := [], arrivals := 0, talk := .up
      privacy := true, forced := false, gains := Four.all Gains.zero, out := Four.all 0
      prompts := [], player := .idle, promptSample := 0, ringDue := none, holdDue := 216000000
      sampleDue := 900 }
  acc := { shift := ShiftRecord.none, lastShift := 0, unresolved := [], late := [], jobs := [], credit := 0 }
  jnl :=
    { inFlight := none, waiting := [], append := [], writePos := 32, waitsErase := false
      nextSeq := 1
      sectors := List.replicate 126 SectorEntry.free, directory := [], cursor := none, credit := 0 }
  flt := { latched := 0x400#16, coldFlag := true }
  pwr := { state := .active, retainAt := 0, check := 0, abandoned := false }

end Sys2Proof.Machine
end

