-- ==== Sys2Proof/Machine/Ops.lean ====
section
/-!
DEFINITION. The named operations the blocks share: durations, byte order, codes, the fault set's raising,
placing notices in the classes of NSC, and reading and changing legs and stations.
-/

namespace Sys2Proof.Machine

/-! ### Durations, in the timebase's units (log 4) -/

/-- One character time: 11 bits at 115,200 bit/s (01 R1). -/
def charTime : Moment := 1375

def microseconds (n : Nat) : Moment := n * 72 / 5

def milliseconds (n : Nat) : Moment := n * 14400

def seconds (n : Nat) : Moment := n * 14400000

/-- One sample period, 1/16,000 s (07 R120). -/
def samplePeriod : Moment := 900

/-- The event falls at the moment m, or later (log 4). -/
def passTo (m : Moment) (s : State) : State := { s with time := max s.time m }

/-! ### Numbers -/

/-- A sum that stays at its maximum once there. -/
def satAdd (most a b : Nat) : Nat := min most (a + b)

/-- The low n bytes of a value, least significant first (11). -/
def le : Nat → Nat → List Byte
  | 0, _ => []
  | n + 1, v => BitVec.ofNat 8 v :: le n (v / 256)

/-- The value of bytes, least significant first (11). -/
def ofLE : List Byte → Nat
  | [] => 0
  | b :: bs => b.toNat + 256 * ofLE bs

/-- The n bytes of a payload or row from position i, as a value. -/
def field (bytes : List Byte) (i n : Nat) : Nat := ofLE ((bytes.drop i).take n)

/-- A flag byte (11). -/
def flagByte (b : Bool) : Byte := if b then 1 else 0

/-- Exactly n bytes: the first n of a list, with zeros where it is shorter. -/
def padded (n : Nat) (bytes : List Byte) : List Byte := (bytes ++ List.replicate n 0).take n

/-- The five low bits in the other order (01 R2). -/
def mirror5 (a : Nat) : Nat :=
  (a % 2) * 16 + (a / 2 % 2) * 8 + (a / 4 % 2) * 4 + (a / 8 % 2) * 2 + a / 16 % 2

/-! ### Codes (11) -/

def Role.code : Role → Nat
  | .console => 1
  | .panel => 2
  | .sign => 3
  | .printer => 4
  | .fleet => 5
  | .calibrator => 6
  | .meter => 7

def Role.ofCode : Nat → Option Role
  | 1 => some .console
  | 2 => some .panel
  | 3 => some .sign
  | 4 => some .printer
  | 5 => some .fleet
  | 6 => some .calibrator
  | 7 => some .meter
  | _ => none

def Port.ofNumber : Nat → Option Port
  | 1 => some .a1
  | 2 => some .a2
  | 3 => some .a3
  | _ => none

def Port.number : Port → Nat
  | .a1 => 1
  | .a2 => 2
  | .a3 => 3

def RefusalCode.code : RefusalCode → Nat
  | .state => 1
  | .noShift => 2
  | .noTariff => 3
  | .noSlot => 4
  | .unknownLeg => 5
  | .range => 6
  | .claimed => 7
  | .notHolder => 8
  | .limit => 9
  | .journalFull => 10
  | .notAllowed => 11
  | .absent => 12
  | .busy => 13
  | .tooLate => 14

def Duty.code : Duty → Nat
  | .noShift => 0
  | .vacant => 1
  | .offDuty => 2
  | .booked => 3
  | .hired => 4

def LegPhase.code : LegPhase → Nat
  | .opened => 1
  | .held => 2
  | .paying => 3
  | .closing => 4

def Pattern.code : Pattern → Nat
  | .dark => 0
  | .offDuty => 1
  | .vacant => 2
  | .booked => 3
  | .hired => 4
  | .share1 => 5
  | .share2 => 6
  | .share3 => 7

def Pattern.ofCode : Nat → Option Pattern
  | 0 => some .dark
  | 1 => some .offDuty
  | 2 => some .vacant
  | 3 => some .booked
  | 4 => some .hired
  | 5 => some .share1
  | 6 => some .share2
  | 7 => some .share3
  | _ => none

def CallPhase.code : CallPhase → Nat
  | .idle => 0
  | .queued => 1
  | .ringing => 2
  | .linked => 3
  | .releasing => 4

def Reason.code : Reason → Nat
  | .none => 0
  | .ended => 1
  | .timedOut => 2
  | .absent => 3

def ShareMode.code : ShareMode → Nat
  | .solo => 1
  | .shared => 2

/-- The kind codes of the requests and reports (11.1). -/
def ReqKind.code : ReqKind → Byte
  | .announce => 0x01
  | .shiftOpen => 0x10
  | .shiftClose => 0x11
  | .duty => 0x12
  | .book => 0x13
  | .hire => 0x14
  | .hold => 0x15
  | .resume => 0x16
  | .void => 0x17
  | .extra => 0x18
  | .flat => 0x19
  | .band => 0x1A
  | .cash => 0x1B
  | .tip => 0x1C
  | .faultAck => 0x1D
  | .talk => 0x20
  | .answer => 0x21
  | .endCall => 0x22
  | .privacy => 0x23
  | .call => 0x24
  | .seat => 0x25
  | .payClaim => 0x30
  | .payStart => 0x31
  | .payResult => 0x32
  | .payCancel => 0x33
  | .signState => 0x38
  | .timeSet => 0x40
  | .assistAck => 0x41
  | .assistClear => 0x42
  | .journalRead => 0x43
  | .journalCredit => 0x44
  | .journalRelease => 0x45
  | .printCredit => 0x46
  | .tariffBegin => 0x50
  | .tariffPart => 0x51
  | .tariffCommit => 0x52

def ReqKind.list : List ReqKind :=
  [.announce, .shiftOpen, .shiftClose, .duty, .book, .hire, .hold, .resume, .void, .extra, .flat, .band,
   .cash, .tip, .faultAck, .talk, .answer, .endCall, .privacy, .call, .seat, .payClaim, .payStart,
   .payResult, .payCancel, .signState, .timeSet, .assistAck, .assistClear, .journalRead,
   .journalCredit, .journalRelease, .printCredit, .tariffBegin, .tariffPart, .tariffCommit]

/-- The request or report kind a code names, if it names one (01 R10, check 1). -/
def ReqKind.ofCode (b : Byte) : Option ReqKind := ReqKind.list.find? (fun k => k.code == b)

def FaultName.index : FaultName → Nat
  | .lineContention => 0
  | .rxOverrun => 1
  | .txOverrun => 2
  | .addressClash => 3
  | .stationTableFull => 4
  | .pulseOverrun => 5
  | .unmetered => 6
  | .journalCorrected => 7
  | .journalDamaged => 8
  | .printLost => 9
  | .retentionLost => 10
  | .clockUnset => 11
  | .signLost => 12
  | .lampFault => 13
  | .assist => 14
  | .journalNearFull => 15

/-- A date and time on the line and in a row: six bytes (11). -/
def timeBytes (t : DateTime) : List Byte :=
  le 1 (t.year - 2000) ++ le 1 t.month ++ le 1 t.day ++ le 1 t.hour ++ le 1 t.minute ++ le 1 t.second

/-- The date and time in six bytes from position i. -/
def timeAt (bytes : List Byte) (i : Nat) : DateTime :=
  ⟨2000 + field bytes i 1, field bytes (i + 1) 1, field bytes (i + 2) 1, field bytes (i + 3) 1,
   field bytes (i + 4) 1, field bytes (i + 5) 1⟩

/-! ### The fault set (10 R182) -/

/-- Raises a latched fault. -/
def raise (f : FaultName) (s : State) : State :=
  { s with flt.latched := s.flt.latched ||| BitVec.ofNat 16 (2 ^ f.index) }

def raiseIf (c : Bool) (f : FaultName) (s : State) : State := if c then raise f s else s

/-! ### Placing and withdrawing notices (01 R16) -/

/-- The owner touched the content of a notice: if the transmitter holds it, the attempt under way no
longer sends its latest content. -/
def renew (n : Notice) (s : State) : State :=
  if s.lif.tx.held = some n then { s with lif.tx.renewed := true } else s

def placeAssist (c : AssistNotice) (s : State) : State := renew .assist { s with nsc.assist := some c }

def withdrawAssist (s : State) : State := renew .assist { s with nsc.assist := none }

/-- A reply joins class 1, or is dropped with TX_OVERRUN when 6 wait (01 R16). -/
def placeReply (r : Reply) (s : State) : State :=
  if s.nsc.replies.length < 6 then { s with nsc.replies := s.nsc.replies ++ [r] } else raise .txOverrun s

def accept (q : QFrame) (values : List Byte) (s : State) : State :=
  placeReply ⟨q.src, q.kind, .accepted values⟩ s

def refuse (q : QFrame) (c : RefusalCode) (s : State) : State :=
  placeReply ⟨q.src, q.kind, .refused c⟩ s

def placeOffer (i : Fin 4) (o : Offer) (s : State) : State :=
  renew (.offer i) { s with nsc.offers := s.nsc.offers.set i (some o) }

def withdrawOffer (i : Fin 4) (s : State) : State :=
  renew (.offer i) { s with nsc.offers := s.nsc.offers.set i none }

def placeFareShow (i : Fin 4) (f : FareShow) (s : State) : State :=
  renew (.fare i) { s with nsc.fares := s.nsc.fares.set i (some f) }

def placeCallNotice (p : Port) (c : CallNotice) (s : State) : State :=
  renew (.call p) { s with nsc.calls := s.nsc.calls.set p (some c) }

/-- CAB places SIGN_SET with the sign record's content (05 R84). -/
def placeSign (s : State) : State :=
  renew .sign { s with nsc.sign := some ⟨s.cab.sign.pattern, s.cab.sign.flag, s.cab.sign.seq⟩ }

/-- An item joins class 6, or replaces in place a pending item of its kind (01 R16). -/
def placeItem (it : FleetItem) (s : State) : State :=
  if s.nsc.fleet.any (fun x => x.kind = it.kind) then
    renew (.fleet it.kind)
      { s with nsc.fleet := s.nsc.fleet.map (fun x => if x.kind = it.kind then it else x) }
  else { s with nsc.fleet := s.nsc.fleet ++ [it] }

def placeReadFrame (f : ReadFrame) (s : State) : State := renew .journal { s with nsc.journal := some f }

def withdrawReadFrame (s : State) : State := renew .journal { s with nsc.journal := none }

def placePrint (it : PrintItem) (s : State) : State := renew .print { s with nsc.print := some it }

def withdrawPrint (s : State) : State := renew .print { s with nsc.print := none }

def placeAnnounce (s : State) : State := renew .announce { s with nsc.announce := true }

/-! ### Stations (01 section 1.4) -/

def stationOf (s : State) (a : Nat) : Option Station := s.lif.stations.find? (fun e => e.addr = a)

/-- Changes the entry of an address. -/
def updateStation (a : Nat) (f : Station → Station) (s : State) : State :=
  { s with lif.stations := s.lif.stations.map (fun e => if e.addr = a then f e else e) }

/-- A PRESENT entry of a role with the lowest address (01 R16). -/
def lowestPresent (s : State) (r : Role) : Option Nat :=
  (s.lif.stations.filter (fun e => e.present && e.role = r)).foldl
    (fun best e => match best with
      | none => some e.addr
      | some b => some (min b e.addr)) none

/-- The PRESENT panel entry that holds a rear port (01 R7). -/
def panelOn (s : State) (p : Port) : Option Station :=
  s.lif.stations.find? (fun e => e.present && e.role = .panel && e.port = some p)

/-- A rear port is bound while a PRESENT panel entry holds it (01 R7, 07 R120). -/
def bound (s : State) (p : Port) : Bool := (panelOn s p).isSome

/-! ### Sending conditions, and letting go (01 R14, R16) -/

/-- The least time between two sends of a FARE_SHOW slot (R16). -/
def fareShowInterval : Moment := milliseconds 500

/-- The sending condition of each notice (R16). -/
def sendable (s : State) : Notice → Bool
  | .assist => s.nsc.assist.isSome
  | .reply => !s.nsc.replies.isEmpty
  | .sign => s.nsc.sign.isSome
  | .offer i => (s.nsc.offers.get i).isSome
  | .call p => (s.nsc.calls.get p).isSome
  | .fare i => (s.nsc.fares.get i).isSome && (match s.nsc.fareSent.get i with
      | none => true
      | some t => decide (t + fareShowInterval ≤ s.time))
  | .fleet k => s.nsc.fleet.any (fun x => decide (x.kind = k)) && (lowestPresent s .fleet).isSome
  | .journal => s.nsc.journal.isSome && s.jnl.cursor.isSome && decide (1 ≤ s.jnl.credit)
  | .print => s.nsc.print.isSome && (lowestPresent s .printer).isSome && decide (1 ≤ s.acc.credit)
  | .announce => s.nsc.announce

/-- The transmitter becomes free with contention count 0. -/
def freeTransmitter (s : State) : State := { s with lif.tx := Transmitter.free }

/-- The notice held between attempts is let go when it has become empty or unsendable (R14). -/
def letGo (s : State) : State :=
  match s.lif.tx.held, s.lif.tx.sending with
  | some n, none => if sendable s n then s else freeTransmitter s
  | _, _ => s

/-! ### Legs (04 R49, R50) -/

def legAt (s : State) (i : Fin 4) : Option Leg := s.fare.slots.get i

def setLeg (i : Fin 4) (l : Leg) (s : State) : State :=
  { s with fare.slots := s.fare.slots.set i (some l) }

def clearLeg (i : Fin 4) (s : State) : State := { s with fare.slots := s.fare.slots.set i none }

/-- Changes the leg in a slot, if the slot is not FREE. -/
def updateLeg (i : Fin 4) (f : Leg → Leg) (s : State) : State :=
  match legAt s i with
  | none => s
  | some l => setLeg i (f l) s

/-- The slots, lowest first. -/
def allSlots : List (Fin 4) := [0, 1, 2, 3]

/-- The slot that is not FREE and holds a leg number (04 R50). -/
def findLeg (s : State) (number : Nat) : Option (Fin 4) :=
  allSlots.find? (fun i => match legAt s i with
    | none => false
    | some l => l.number == number)

def slotOccupied (s : State) (i : Fin 4) : Bool :=
  match legAt s i with
  | none => false
  | some l => l.occupied

/-- The number of occupied slots (04 R49). -/
def occupied (s : State) : Nat := (allSlots.filter (slotOccupied s)).length

def allFree (s : State) : Bool := allSlots.all (fun i => (legAt s i).isNone)

/-- An occupied leg for which a test holds. -/
def anyOccupied (s : State) (test : Leg → Bool) : Bool :=
  allSlots.any (fun i => match legAt s i with
    | none => false
    | some l => l.occupied && test l)

/-- A shift is open exactly while the shift record's state is OPEN (08 R144). -/
def shiftIsOpen (s : State) : Bool := s.acc.shift.state = .opened

/-- The number of the open shift, or 0 (08 R144). -/
def openShift (s : State) : Nat := if shiftIsOpen s then s.acc.shift.number else 0

/-! ### The committed tariff as its users read it (03 R46, log 16) -/

def tariffK (s : State) : Nat :=
  match s.tar.committed with
  | some t => t.general.K
  | none => Config.absentK

def tariffCp (s : State) : Nat :=
  match s.tar.committed with
  | some t => t.general.cp
  | none => Config.absentCp

/-- The rates of a band in a tariff, or none. -/
def ratesIn (t : Option TariffSet) (b : Fin 4) : BandRates :=
  match t with
  | some set => (set.bands.get b).getD (Config.absentBand b)
  | none => Config.absentBand b

def bandRates (s : State) (b : Fin 4) : BandRates := ratesIn s.tar.committed b

/-- The sharing in force (03 R36). -/
def sharingInForce (s : State) : Bool :=
  match s.tar.committed with
  | some t => t.general.sharing && decide (2 ≤ t.general.cp)
  | none => false

def extraKind (s : State) (k : Nat) : Option ExtraKind :=
  match s.tar.committed with
  | some t => t.extras.getD k none
  | none => none

def zoneFare (s : State) (z : Nat) : Option Nat :=
  match s.tar.committed with
  | some t => t.zones.getD z none
  | none => none

/-- The bands ODO sees as present: the committed ones, or band 0 alone (03 R46). -/
def bandPresent (s : State) (b : Fin 4) : Bool :=
  match s.tar.committed with
  | some t => (t.bands.get b).isSome
  | none => b == 0

/-! ### Answers of commands -/

/-- A command that acts only while the part is ACTIVE; in another power state its event does not
occur, and nothing changes (10 R186, log 3). -/
def whenActive (f : State → State) (s : State) : Out :=
  .next (if s.pwr.state = .active then f s else s)

end Sys2Proof.Machine
end

