-- ==== Sys2Proof/WellFormed.lean ====
section
/-!
DEFINITION. Which commands name things the part has: station addresses 1–30 (01 R2), and rows and words of
the array (09 R162). The other operands are in range by their types.
-/

namespace Sys2Proof

/-- A station address is 1–30 (01 R2). -/
def addressOk (a : Nat) : Bool := decide (1 ≤ a ∧ a ≤ 30)

/-- An upset names one of the 2,048 rows and one of its 64 words (09 R162). -/
def Upset.inArray (u : Upset) : Bool := decide (u.row < 2048 ∧ u.word < 64)

/-- The array upsets a command carries, if it is one that carries them (log 12). -/
def Instr.upsets : Instr → List Upset
  | .backupSupplyFail l => l
  | .wake _ _ l => l
  | .coldStart _ _ l => l
  | .tariffCommitProgramComplete l => l
  | _ => []

/-- The check of a command's operands. -/
def Instr.wellFormed : Instr → Bool
  | .silenceTimeout a => addressOk a
  | .stationRemoval a => addressOk a
  | .watchFires a => addressOk a
  | i => i.upsets.all Upset.inArray

end Sys2Proof
end

