-- ==== Sys2Proof/Machine/Array.lean ====
section
/-!
DEFINITION. The array (09 section 9.1): reading, programming and erasing rows, and the classes of a read
(R164). An unlisted row reads as 64 erased words; the list is kept in one canonical form.
-/

namespace Sys2Proof.Machine

/-- A row in the erased state, what an unlisted row reads as (09 R163, log 40). -/
def erasedRow : Row := List.replicate 64 .erased

/-- The words of a row of the array. -/
def rowAt (m : Memory) (r : Nat) : Row :=
  match m.find? (fun e => e.1 = r) with
  | some e => e.2
  | none => erasedRow

/-- The array with the words of one row changed; a row that becomes all erased leaves the list. -/
def putRow : Memory → Nat → Row → Memory
  | [], r, x => if x = erasedRow then [] else [(r, x)]
  | (q, y) :: m, r, x =>
    if q < r then (q, y) :: putRow m r x
    else if q = r then (if x = erasedRow then m else (r, x) :: m)
    else (if x = erasedRow then (q, y) :: m else (r, x) :: (q, y) :: m)

/-- A sector erase returns all 16 rows of the sector to the erased state (09 R163). -/
def eraseRows (m : Memory) (sector : Nat) : Memory := m.filter (fun e => e.1 / 16 != sector)

/-- One word of one row changed; a word the row does not have changes nothing. -/
def putWord (m : Memory) (r w : Nat) (x : ArrayWord) : Memory := putRow m r ((rowAt m r).set w x)

/-- A program of a row (09 R163); a row number the array does not have writes nothing. -/
def programRow (m : Memory) (r : Nat) (x : Row) : Memory := if r < 2048 then putRow m r x else m

/-- The program of a superseded mark: word 63 of a row (03 R43, 11 R200). -/
def programMark (m : Memory) (r : Nat) : Memory := if r < 2048 then putWord m r 63 (.good 0) else m

/-- Row numbers rise strictly from a bound. -/
def risingFrom : Nat → Memory → Bool
  | _, [] => true
  | b, (r, _) :: m => decide (b ≤ r) && risingFrom (r + 1) m

/-- The canonical form: rows of the array, strictly rising, of 64 words, none all erased. -/
def Memory.wf (m : Memory) : Bool :=
  risingFrom 0 m && m.all (fun e => decide (e.1 < 2048) && (e.2.length == 64) && decide (e.2 ≠ erasedRow))

/-- The array with the upsets that a command brings (log 12). -/
def withUpsets (m : Memory) (us : List Upset) : Memory :=
  us.foldl (fun m u => putWord m u.row u.word u.reads) m

/-- The first upset that names a row or word the array does not have. -/
def badUpset (us : List Upset) : Option Upset := us.find? (fun u => !u.inArray)

/-! ### Reading (09 R164) -/

/-- The 16 data bits of a word, a single-bit error corrected. -/
def wordValue : ArrayWord → DataWord
  | .erased => Config.erasedValue
  | .good v => v
  | .corrected v _ => v
  | .uncorrectable v => v

/-- The 16 data bits of a word as read, with no correction. -/
def wordAsRead : ArrayWord → DataWord
  | .corrected v (some b) => v ^^^ BitVec.ofNat 16 (2 ^ b.val)
  | w => wordValue w

def rowWord (x : Row) (w : Nat) : ArrayWord := x.getD w .erased

/-- The 128 bytes of a row's corrected words: word w at bytes 2w and 2w + 1 (11 R200). -/
def rowBytes (x : Row) : List Byte := x.flatMap (fun w => le 2 (wordValue w).toNat)

/-- The 128 bytes of a row's words as read. -/
def bytesAsRead (x : Row) : List Byte := x.flatMap (fun w => le 2 (wordAsRead w).toNat)

/-- The row kinds a header can name (11 R200). -/
def headerShiftOpen : DataWord := 0x5A01
def headerLeg : DataWord := 0x5A02
def headerEvent : DataWord := 0x5A03
def headerShiftClose : DataWord := 0x5A04
def headerPart : DataWord := 0x5A10
def headerCommit : DataWord := 0x5A11

/-- The header as read, if it is not erased and not uncorrectable. -/
def readableHeader (x : Row) : Option DataWord :=
  match rowWord x 0 with
  | .good v => some v
  | .corrected v _ => some v
  | _ => none

def namesKind (v : DataWord) : Bool :=
  v == headerShiftOpen || v == headerLeg || v == headerEvent || v == headerShiftClose || v == headerPart
    || v == headerCommit

def wordErased : ArrayWord → Bool
  | .erased => true
  | _ => false

def wordBad : ArrayWord → Bool
  | .erased => true
  | .uncorrectable _ => true
  | _ => false

def wordCorrected : ArrayWord → Bool
  | .corrected .. => true
  | _ => false

inductive RowClass
  | free
  | void
  | damaged
  | corrected
  | good
  deriving DecidableEq, Repr

/-- The class of a row: the first line of the table of R164 that applies. Word 63 of a PART row takes no
part (R164, R200). -/
def classify (x : Row) : RowClass :=
  let judged := if readableHeader x = some headerPart then x.take 63 else x
  if x.all wordErased then .free
  else if wordErased (rowWord x 0) then .void
  else if judged.any wordBad || !((readableHeader x).any namesKind) then .damaged
  else if judged.any wordCorrected then .corrected
  else .good

def RowClass.readable : RowClass → Bool
  | .corrected => true
  | .good => true
  | _ => false

def readable (x : Row) : Bool := (classify x).readable

/-- A row's content (R164, R176): of a DAMAGED row its words as read, of any other the corrected words. -/
def contentBytes (x : Row) : List Byte := if classify x = .damaged then bytesAsRead x else rowBytes x

/-- The faults a read that classifies a row raises (09 R164). -/
def raiseRead (c : RowClass) (s : State) : State :=
  match c with
  | .corrected => raise .journalCorrected s
  | .damaged => raise .journalDamaged s
  | _ => s

/-! ### Programming (11 R200) -/

/-- The 64 words of a row programmed from its bytes; bytes not given are 0. -/
def rowOfBytes (bytes : List Byte) : Row :=
  (List.range 64).map (fun w => .good (BitVec.ofNat 16 (field bytes (2 * w) 2)))

/-- A PART row's own program leaves word 63, the superseded mark, erased. -/
def partRowOfBytes (bytes : List Byte) : Row := (rowOfBytes bytes).set 63 .erased

/-- The tariff area is rows 0–31, the ring rows 32–2,047 (03 section 3.2, 09 R165). -/
def ringRow (r : Nat) : Bool := decide (32 ≤ r ∧ r < 2048)

/-- The next row in ring order (09 R165). -/
def nextRow (r : Nat) : Nat := if 2047 ≤ r then 32 else r + 1

/-- The next sector in ring order: from 127 to 2 (09 R165). -/
def nextSector (c : Nat) : Nat := if 127 ≤ c then 2 else c + 1

end Sys2Proof.Machine
end

