-- ==== Sys2Proof/Machine/Layouts.lean ====
section
/-!
DEFINITION. Byte layouts (11): the payloads of the part's frames, the rows of journal records and of the
tariff area, and the items of print jobs (08 R157, R158).
-/

namespace Sys2Proof.Machine

/-! ### Frames -/

/-- LEAD of an address (01 R2). -/
def leadOf (a : Nat) : Byte := BitVec.ofNat 8 (0xA0 + mirror5 a)

/-- One step of the sum with end-around carry (01 R3). -/
def carrySum (sum : Nat) (c : Byte) : Nat :=
  let t := sum + c.toNat
  if t > 255 then t - 256 + 1 else t

/-- CHECK over the characters before it (01 R3). -/
def checkOf (chars : List Byte) : Byte := BitVec.ofNat 8 (255 - chars.foldl carrySum 0)

/-- A whole frame: LEAD, DEST, KIND, LEN, payload, CHECK (01 R2). -/
def buildFrame (sender dest : Nat) (kind : Byte) (payload : List Byte) : List Byte :=
  let body := [leadOf sender, BitVec.ofNat 8 dest, kind, BitVec.ofNat 8 payload.length] ++ payload
  body ++ [checkOf body]

def answerPayload (r : Reply) : List Byte :=
  match r.answer with
  | .accepted values => r.kind :: values
  | .refused c => [r.kind, BitVec.ofNat 8 c.code]

def answerKind (r : Reply) : Byte :=
  match r.answer with
  | .accepted _ => 0x80
  | .refused _ => 0x81

def slotByte (i : Fin 4) : Byte := BitVec.ofNat 8 i.val

def fareShowPayload (i : Fin 4) (f : FareShow) : List Byte :=
  slotByte i :: le 2 f.leg ++ le 1 (match f.phase with
    | some p => p.code
    | none => 0) ++ le 4 f.fare ++ le 4 f.extras ++ le 4 f.total ++ le 4 f.due ++ le 1 f.band
    ++ le 1 (f.ceiling.toNat + 2 * f.flat.toNat)

def offerPayload (i : Fin 4) (o : Offer) : List Byte :=
  slotByte i :: le 2 o.leg ++ le 4 o.total ++ le 4 o.tip ++ le 4 o.due ++ le 1 o.next ++ le 1 o.tenders
    ++ le 1 o.holder

def signPayload (c : SignSet) : List Byte := le 1 c.pattern.code ++ [flagByte c.flag] ++ le 1 c.seq

def callPayload (p : Port) (c : CallNotice) : List Byte :=
  le 1 p.number ++ le 1 c.panel ++ le 1 c.phase.code ++ le 1 c.reason.code
    ++ le 1 (if c.urgent then 2 else 1) ++ le 1 c.place

def assistPayload (c : AssistNotice) : List Byte := flagByte c.latch :: le 1 c.presses ++ timeBytes c.time

def BookOutcome.code : BookOutcome → Nat
  | .taken => 1
  | .cancelled => 2
  | .replaced => 3

def fleetPayload : FleetItem → List Byte
  | .booking r o leg => le 1 1 ++ padded 8 r ++ le 1 o.code ++ le 2 leg
  | .clockApplied t => le 1 2 ++ timeBytes t
  | .shiftClosed n d t fare extras tips card cash =>
    le 1 3 ++ le 2 n ++ le 4 d ++ timeBytes t ++ le 4 fare ++ le 4 extras ++ le 4 tips ++ le 4 card
      ++ le 4 cash
  | .lateApproval n leg a amount r => le 1 4 ++ le 2 n ++ le 2 leg ++ le 1 a ++ le 4 amount ++ padded 6 r

def readPayload : ReadFrame → List Byte
  | .row n i q d bytes => le 2 n ++ le 2 i ++ le 1 q ++ [flagByte d] ++ padded 32 bytes
  | .fin n sent f => le 2 n ++ le 2 sent ++ [flagByte f]

def readKind : ReadFrame → Byte
  | .row .. => 0x88
  | .fin .. => 0x89

def printPayload (it : PrintItem) : List Byte :=
  le 1 it.code ++ le 1 it.index ++ le 1 it.value.length ++ it.value

/-! ### Journal rows (11.5) -/

def tenderBytes (t : Tender) : List Byte :=
  match t.kind with
  | .cash => le 1 1 ++ le 1 0 ++ le 4 t.amount ++ padded 6 []
  | .card a r => le 1 2 ++ le 1 a ++ le 4 t.amount ++ padded 6 r

def LegKind.code : LegKind → Nat
  | .metered => 1
  | .flat _ => 2

def LegKind.zoneByte : LegKind → Byte
  | .metered => 0xFF
  | .flat z => BitVec.ofNat 8 z

/-- The sizes of the totals in the SHIFT_CLOSE row (11.5), in index order. -/
def totalSizes : List Nat := [2, 2, 2, 4, 4, 4, 4, 4, 2, 4, 4, 4, 4, 4, 2, 2, 2, 2, 2, 2, 1]

/-- The totals in index order (08 Table 8-1). -/
def Totals.list (t : Totals) : List Nat :=
  [t.legsClosed, t.legsVoided, t.sharedLegs, t.fare, t.extras, t.tips, t.card, t.cash, t.lateCount,
   t.lateSum, t.hiredMetres, t.unhiredMetres, t.hiredSeconds, t.sharedSeconds, t.unresolved,
   t.interruptions, t.signFaults, t.unmetered, t.assists, t.notJournalled, t.moneyHeld]

def eventType : EventBody → Nat
  | .clockSet .. => 1
  | .signLost .. => 2
  | .unmetered _ => 3
  | .assist _ => 4
  | .lateApproval .. => 5
  | .powerInterruption _ => 6

def eventValues : EventBody → List Byte
  | .clockSet before after => timeBytes before ++ timeBytes after
  | .signLost p n => le 1 p.code ++ le 1 n
  | .unmetered a => le 1 a
  | .assist n => le 1 n
  | .lateApproval leg a amount => le 2 leg ++ le 1 a ++ le 1 0 ++ le 4 amount
  | .powerInterruption d => le 4 d

def headerOf : Record → DataWord
  | .shiftOpen _ => headerShiftOpen
  | .leg _ => headerLeg
  | .event _ => headerEvent
  | .shiftClose _ => headerShiftClose

/-- The bytes of a record from byte 6 on. -/
def recordBytes : Record → List Byte
  | .shiftOpen r => le 2 r.shift ++ le 4 r.driver ++ timeBytes r.openTime ++ le 4 r.odometer
  | .leg r =>
    le 2 r.shift ++ le 2 r.number ++ le 1 (r.panel.getD 0) ++ le 1 r.share.code ++ le 1 r.openBand.val
      ++ le 1 r.regBand.val ++ le 1 r.kind.code ++ [r.kind.zoneByte]
      ++ le 1 (r.ceiling.toNat + 2 * r.voided.toNat + 4 * r.interrupted.toNat + 8 * r.booking.isSome.toNat)
      ++ le 1 r.tenders.length ++ timeBytes r.openTime ++ timeBytes r.closeTime
      ++ padded 8 (r.booking.getD []) ++ le 2 r.steps ++ le 4 r.farePart ++ le 4 r.extrasTotal
      ++ le 4 r.total ++ le 4 (r.tip.getD 0) ++ padded 8 (r.extraCounts.map (BitVec.ofNat 8))
      ++ le 4 r.distance ++ le 4 r.hiredTime ++ le 4 r.sharedTime ++ r.tenders.flatMap tenderBytes
  | .event r => le 2 r.shift ++ le 1 (eventType r.body) ++ le 1 0 ++ timeBytes r.time ++ eventValues r.body
  | .shiftClose r =>
    le 2 r.shift ++ le 1 (if r.abandoned then 2 else 1) ++ le 1 0 ++ le 4 r.driver ++ timeBytes r.openTime
      ++ timeBytes r.closeTime ++ le 4 r.odoOpen ++ le 4 r.odoClose
      ++ (totalSizes.zip r.totals.list).flatMap (fun p => le p.1 p.2)

/-- The row a record's program writes (09 R163, 11 R200). -/
def rowOfRecord (q : Queued) : Row :=
  rowOfBytes (le 2 (headerOf q.record).toNat ++ le 4 q.seq ++ recordBytes q.record)

/-- The PART row of a TARIFF_PART payload: section, index and fields from byte 6 (11.5). -/
def rowOfPart (row : Nat) (content : List Byte) : Row :=
  partRowOfBytes (le 2 headerPart.toNat ++ le 2 row ++ le 2 0 ++ content)

def rowOfCommit (row count sum : Nat) : Row :=
  rowOfBytes (le 2 headerCommit.toNat ++ le 2 row ++ le 2 0 ++ le 1 count ++ le 1 0 ++ le 4 sum)

/-! ### Print items (08 R157, R158, 11.4) -/

def receiptItems (r : LegRecord) (zoneFare : Nat) : List PrintItem :=
  let body : List PrintItem :=
    [⟨1, 1, le 2 r.number⟩, ⟨2, 0, le 2 r.shift⟩, ⟨3, 0, timeBytes r.openTime⟩, ⟨4, 0, timeBytes r.closeTime⟩]
    ++ (match r.booking with
      | some b => [⟨5, 0, padded 8 b⟩]
      | none => [])
    ++ [⟨6, r.openBand.val, le 1 r.regBand.val⟩]
    ++ (match r.kind with
      | .flat z => [⟨7, z, le 4 zoneFare⟩]
      | .metered => [])
    ++ [⟨8, 0, le 4 r.distance⟩, ⟨9, 0, le 4 r.hiredTime⟩, ⟨10, 0, le 4 r.farePart⟩]
    ++ (((List.range r.extraCounts.length).zip r.extraCounts).filter (fun e => decide (0 < e.2))).map
        (fun e => ⟨11, e.1, le 1 e.2⟩)
    ++ [⟨12, 0, le 4 r.extrasTotal⟩, ⟨13, 0, le 4 r.total⟩, ⟨14, 0, le 4 (r.tip.getD 0)⟩]
    ++ r.tenders.map (fun t => ⟨15, (match t.kind with
        | .cash => 0
        | .card .. => 1), le 4 t.amount⟩)
    ++ [⟨16, 0, le 1 (r.ceiling.toNat + 2 * r.interrupted.toNat)⟩]
  body ++ [⟨17, 1, le 2 (body.length + 1)⟩]

def reportItems (r : CloseRecord) (us : List Unresolved) (ls : List Late) : List PrintItem :=
  let body : List PrintItem :=
    [⟨1, 2, le 2 r.shift⟩, ⟨18, 0, le 4 r.driver⟩, ⟨3, 0, timeBytes r.openTime⟩, ⟨4, 0, timeBytes r.closeTime⟩,
     ⟨19, 0, le 4 r.odoOpen⟩, ⟨19, 1, le 4 r.odoClose⟩]
    ++ ((List.range 21).zip (totalSizes.zip r.totals.list)).map (fun e => ⟨20, e.1, le e.2.1 e.2.2⟩)
    ++ us.map (fun u => ⟨21, u.attempt, le 2 u.leg ++ le 4 u.requested ++ le 1 u.station⟩)
    ++ ls.map (fun l => ⟨22, l.attempt, le 2 l.leg ++ le 4 l.amount⟩)
  body ++ [⟨17, 2, le 2 (body.length + 1)⟩]

def jobItems : JobBody → List PrintItem
  | .receipt r z => receiptItems r z
  | .report r us ls => reportItems r us ls

end Sys2Proof.Machine
end

