-- ==== Sys2Proof/Machine/Journal.lean ====
section
/-!
DEFINITION. The journal store's shared operations (09): the sector map and free rows, the append queue and
its claims, the array's one operation at a time, erase-ahead, the directory's freeing, and the read-out walk.
-/

namespace Sys2Proof.Machine

/-! ### The sector map and the free rows (R166, R167) -/

def sectorEntry (s : State) (c : Nat) : SectorEntry := s.jnl.sectors.getD (c - 2) SectorEntry.free

def setSector (c : Nat) (e : SectorEntry) (s : State) : State :=
  { s with jnl.sectors := s.jnl.sectors.set (c - 2) e }

def sectorErased (s : State) (c : Nat) : Bool := (sectorEntry s c).erased

/-- A directory entry's sequence range meets a sector's range (R166, R172). -/
def meets (d : DirEntry) (range : Nat × Nat) : Bool :=
  decide (d.first ≤ range.2) && (match d.last with
    | none => true
    | some last => decide (range.1 ≤ last))

/-- An IN_USE sector is reclaimable when no entry in a state other than RELEASED meets its range; one whose
range is absent is reclaimable (R166). -/
def reclaimable (s : State) (c : Nat) : Bool :=
  !sectorErased s c && (match (sectorEntry s c).range with
    | none => true
    | some r => !(s.jnl.directory.any (fun d => decide (d.state ≠ .released) && meets d r)))

def rowFree (s : State) (r : Nat) : Bool := decide (classify (rowAt s.array r) = .free)

/-- The FREE rows of the write position's sector at and after the write position. -/
def freeHere (s : State) : Nat :=
  let w := s.jnl.writePos
  ((List.range 16).filter (fun i => decide (w % 16 ≤ i) && rowFree s (w / 16 * 16 + i))).length

/-- 16 rows for each following sector while a test holds, for at most n sectors. -/
def runRows (s : State) (test : Nat → Bool) : Nat → Nat → Nat
  | 0, _ => 0
  | n + 1, c => if test c then 16 + runRows s test n (nextSector c) else 0

/-- The free rows before the append queue's records are taken off (R167, 1–3). The write position cannot pass its own
sector while it stands at row 0 of one still held, so the count stops there (log 32). -/
def grossFreeRows (s : State) : Nat :=
  let w := s.jnl.writePos
  let usable := fun c => sectorErased s c || reclaimable s c
  let beyond := runRows s usable 125 (nextSector (w / 16))
  if w % 16 = 0 && !usable (w / 16) then freeHere s
  else if w % 16 = 0 && !sectorErased s (w / 16) then 16 + beyond
  else freeHere s + beyond

/-- The free rows (R167). -/
def freeRows (s : State) : Nat := grossFreeRows s - s.jnl.append.length

/-! ### The array's one operation at a time (R162, 03 R41) -/

/-- An operation starts. The erase of a TARIFF_BEGIN is answered when it starts (03 R42). -/
def startOp (op : ArrayOp) (s : State) : State :=
  let s := { s with jnl.inFlight := some op }
  match op with
  | .tariffErase 0 asker => placeReply ⟨asker, ReqKind.tariffBegin.code, .accepted []⟩ s
  | _ => s

/-- An operation becomes due: it starts if the array is free and nothing waits before it; in ENTERING no
operation starts (10 R188). -/
def requestOp (op : ArrayOp) (s : State) : State :=
  if s.pwr.state = .active ∧ s.jnl.inFlight = none ∧ s.jnl.waiting = [] then startOp op s
  else { s with jnl.waiting := s.jnl.waiting ++ [op] }

def isJournalProgram : ArrayOp → Bool
  | .journalProgram _ => true
  | _ => false

def isJournalErase : ArrayOp → Bool
  | .journalErase _ => true
  | _ => false

def opPending (test : ArrayOp → Bool) (s : State) : Bool :=
  s.jnl.inFlight.any test || s.jnl.waiting.any test

/-! ### The write position (R165, R170) -/

/-- The next FREE row after w in its sector. -/
def nextFreeInSector (s : State) (w : Nat) : Option Nat :=
  ((List.range 16).map (fun i => w / 16 * 16 + i)).find? (fun r => decide (w < r) && rowFree s r)

/-- What JNL finds at the write position (R165): a program is due (case 2), or waits at a sector that is neither
ERASED nor reclaimable (case 1), or waits at a reclaimable sector for its erase (case 3). -/
inductive Found
  | due
  | held
  | waits
  deriving DecidableEq, Repr

/-- JNL looks at the row at the write position (R165): where the write position comes to stand, and what is found
there. -/
def look (s : State) : Nat → Nat → Nat × Found
  | 0, w => (w, .waits)
  | n + 1, w =>
    let first := w % 16 = 0 && !sectorErased s (w / 16)
    if first && !reclaimable s (w / 16) then (w, .held)
    else if rowFree s w then (w, .due)
    else if first then (w, .waits)
    else match nextFreeInSector s w with
      | some r => look s n r
      | none => look s n (nextSector (w / 16) * 16)

/-- The head's program becomes due when the row at the write position is FREE (R170). One that waits by the first
case of R165 waits until the sector's erase completes, whatever the sector becomes before (log 44). -/
def programDue (s : State) : State :=
  if s.jnl.append.isEmpty || opPending isJournalProgram s || s.jnl.waitsErase then s
  else
    let l := look s 260 s.jnl.writePos
    let s := { s with jnl.writePos := l.1, jnl.waitsErase := decide (l.2 = .held) }
    if l.2 = .due then requestOp (.journalProgram l.1) s else s

/-! ### Erase-ahead (R171) -/

/-- The rows of the ERASED sectors in unbroken ring order from c, and the sector after them. -/
def erasedRun (s : State) : Nat → Nat → Nat × Nat
  | 0, c => (0, c)
  | n + 1, c =>
    if sectorErased s c then
      let r := erasedRun s n (nextSector c)
      (16 + r.1, r.2)
    else (0, c)

def erasedRowsAhead (s : State) : Nat :=
  freeHere s + (erasedRun s 125 (nextSector (s.jnl.writePos / 16))).1 - s.jnl.append.length

/-- The next sector of erase-ahead: the write position's own when it is row 0 of one not ERASED. -/
def aheadSector (s : State) : Nat :=
  let c := s.jnl.writePos / 16
  if s.jnl.writePos % 16 = 0 && !sectorErased s c then c else (erasedRun s 125 (nextSector c)).2

/-- A journal program that is due goes into a row of a sector. -/
def programsInto (c : Nat) : ArrayOp → Bool
  | .journalProgram r => r / 16 == c
  | _ => false

/-- Erase-ahead (R171). A sector that a due program goes into is not erased, since it is to hold a row of a
shift that is not RELEASED (log 32). -/
def eraseAhead (s : State) : State :=
  let c := aheadSector s
  if erasedRowsAhead s < 32 ∧ reclaimable s c ∧ ¬ opPending isJournalErase s
      ∧ ¬ opPending (programsInto c) s then
    requestOp (.journalErase c) (setSector c { sectorEntry s c with eraseFlag := true } s)
  else s

/-! ### Claims (R168, R169) -/

/-- The directory entry of a shift whose SHIFT_OPEN row has been claimed (R173). -/
def newEntries : Record → Nat → List DirEntry
  | .shiftOpen o, n => [⟨o.shift, n, none, .opened⟩]
  | _, _ => []

/-- A record enters the append queue with the next sequence number; a SHIFT_OPEN makes its entry (R173). -/
def enqueueRecord (r : Record) (s : State) : State :=
  { s with jnl.append := s.jnl.append ++ [⟨s.jnl.nextSeq, r⟩], jnl.nextSeq := s.jnl.nextSeq + 1
           jnl.directory := s.jnl.directory ++ newEntries r s.jnl.nextSeq }

/-- A record's row is claimed (R168, R169), and its program may be due at once. -/
def claim (r : Record) (s : State) : State := eraseAhead (programDue (enqueueRecord r s))

def isLegRecord : Record → Bool
  | .leg _ => true
  | _ => false

/-- The free rows an EVENT needs (R169): the occupied count plus 2 for ASSIST, plus 3 for any other. -/
def eventNeeds (s : State) (b : EventBody) : Nat :=
  occupied s + (match b with
    | .assist _ => 2
    | _ => 3)

def eventGranted (s : State) (b : EventBody) : Bool :=
  decide (eventNeeds s b ≤ freeRows s)
    && decide ((s.jnl.append.filter (fun q => !isLegRecord q.record)).length ≤ 1)

/-- Changes the totals of the shift record, if it is OPEN (08 R152). -/
def countShift (f : Totals → Totals) (s : State) : State :=
  if shiftIsOpen s then { s with acc.shift.totals := f s.acc.shift.totals } else s

/-- A block asks for an EVENT row: claimed, or declined and counted (R169). -/
def claimEvent (time : DateTime) (b : EventBody) (s : State) : State :=
  if eventGranted s b then claim (.event ⟨openShift s, time, b⟩) s
  else countShift (fun t => { t with notJournalled := satAdd 65535 t.notJournalled 1 }) s

/-- A block asks for an EVENT row while a shift is open; with none open, no row is asked for. -/
def claimEventIfOpen (time : DateTime) (b : EventBody) (s : State) : State :=
  if shiftIsOpen s then claimEvent time b s else s

/-! ### The directory (R173) -/

/-- RELEASED entries that no IN_USE sector's range meets are freed. -/
def freeEntries (s : State) : State :=
  let used := s.jnl.sectors.filter (fun e => !e.erased)
  { s with jnl.directory := s.jnl.directory.filter (fun d =>
      decide (d.state ≠ .released) || used.any (fun e => e.range.any (meets d))) }

/-- JNL's answer to check 4 of SHIFT_OPEN (R173): a place is free and no entry stands OPEN. -/
def directoryFree (s : State) : Bool :=
  decide (s.jnl.directory.length < 16) && s.jnl.directory.all (fun d => decide (d.state ≠ .opened))

/-! ### The rows of a shift (R174) -/

def rowSeq (x : Row) : Nat := field (rowBytes x) 2 4

def rowShift (x : Row) : Nat := field (rowBytes x) 6 2

/-- The ring's listed rows in ring order, from the write position round to it; rows not listed are FREE. DESIGN CHOICE
(log 49): every walk ends at the write position, of a shift no readable row follows too. -/
def ringList (s : State) : List (Nat × Row) :=
  s.array.filter (fun e => decide (s.jnl.writePos ≤ e.1))
    ++ s.array.filter (fun e => decide (32 ≤ e.1 ∧ e.1 < s.jnl.writePos))

/-- The walk goes on to before the first readable row beyond the shift's last, over FREE and VOID rows. -/
def walkOn (last : Option Nat) : List (Nat × Row) → List Nat
  | [] => []
  | (r, x) :: rest =>
    match classify x with
    | .free => walkOn last rest
    | .void => walkOn last rest
    | .damaged => r :: walkOn last rest
    | _ => if last.any (fun l => decide (l < rowSeq x)) then [] else r :: walkOn last rest

/-- The walk's start: the first readable row at or after the shift's first, with the DAMAGED rows between it
and the readable row before it. -/
def walkFrom (first : Nat) (last : Option Nat) : List Nat → List (Nat × Row) → List Nat
  | damaged, [] => damaged
  | damaged, (r, x) :: rest =>
    match classify x with
    | .free => walkFrom first last damaged rest
    | .void => walkFrom first last damaged rest
    | .damaged => walkFrom first last (damaged ++ [r]) rest
    | _ =>
      if first ≤ rowSeq x then damaged ++ walkOn last ((r, x) :: rest)
      else walkFrom first last [] rest

/-- The row numbers of a shift's rows, in walk order (R174). A shift with no readable row at or after its
first has none. -/
def shiftRows (s : State) (d : DirEntry) : List Nat :=
  if (ringList s).any (fun e => readable e.2 && decide (d.first ≤ rowSeq e.2)) then
    walkFrom d.first d.last [] (ringList s)
  else []

def dirEntry (s : State) (shift : Nat) : Option DirEntry := s.jnl.directory.find? (fun d => d.shift = shift)

/-- Changes the directory entry of a shift. -/
def updateEntry (shift : Nat) (f : DirEntry → DirEntry) (s : State) : State :=
  { s with jnl.directory := s.jnl.directory.map (fun d => if d.shift = shift then f d else d) }

/-! ### Read-out (R176, R177, R178) -/

def frameOfRow (c : Cursor) (row : List Byte × Bool) : ReadFrame :=
  .row c.shift c.index c.quarter row.2 ((row.1.drop (32 * c.quarter)).take 32)

/-- JOURNAL_END is placed (R177), with the shift, the count of rows sent and whether the entry is OPEN. -/
def placeEnd (c : Cursor) (s : State) : State :=
  placeReadFrame (.fin c.shift c.sent ((dirEntry s c.shift).any (fun d => decide (d.state = .opened))))
    { s with jnl.cursor := some { c with row := none, readWaits := false } }

/-- The read of the cursor's row is made: its class raises its fault, its bytes are kept, and the frame of
the cursor's quarter is placed (R176). DESIGN CHOICE (log 52): the row is the one the cursor's index names among the
shift's rows as they stand now; where an erase has left it none, the walk has no further row (R177). -/
def makeRead (s : State) : State :=
  match s.jnl.cursor with
  | none => s
  | some c =>
    match (dirEntry s c.shift).bind (fun d => (shiftRows s d)[c.index]?) with
    | none => placeEnd c s
    | some r =>
      let x := rowAt s.array r
      let kept := (contentBytes x, decide (classify x = .damaged))
      let c := { c with row := some kept, readWaits := false }
      placeReadFrame (frameOfRow c kept)
        (raiseRead (classify x) { s with jnl.cursor := some c })

/-- JNL comes to the row of the cursor's index: it reads it, at once or when the array is free (R162), or
places JOURNAL_END when the walk has no further row (R177). -/
def placeRow (s : State) : State :=
  match s.jnl.cursor with
  | none => s
  | some c =>
    if c.index < ((dirEntry s c.shift).map (shiftRows s)).elim 0 List.length then
      let s := withdrawReadFrame { s with jnl.cursor := some { c with row := none, readWaits := true } }
      if s.jnl.inFlight = none then makeRead s else s
    else placeEnd c s

/-- The cursor is cleared and the class 7 slot emptied (R178). -/
def clearCursor (s : State) : State := withdrawReadFrame { s with jnl.cursor := none }

/-- The operation in flight has completed, and every read that waited for the array is made (R162). In
ENTERING nothing more is read or started (10 R188). -/
def completeOp (s : State) : State :=
  let s := { s with jnl.inFlight := none }
  if s.pwr.state = .active ∧ s.jnl.cursor.any (fun c => c.readWaits) then makeRead s else s

/-- The array takes the operation that became due first, if none is in flight (R162, 10 R188). -/
def startNext (s : State) : State :=
  if s.pwr.state = .active ∧ s.jnl.inFlight = none then
    match s.jnl.waiting with
    | [] => s
    | op :: rest => startOp op { s with jnl.waiting := rest }
  else s

end Sys2Proof.Machine
end

