-- ==== Sys2Proof/Machine/Accounts.lean ====
section
/-!
DEFINITION. The shift accounts' shared operations (08): counts and money totals, the fare tick's counts, the
unresolved and late lists, print jobs and their items.
-/

namespace Sys2Proof.Machine

/-- The largest value of a 32-bit count. -/
def max32 : Nat := 4294967295

/-- The largest money total (Table 8-1). -/
def maxMoney : Nat := 999999999

/-! ### Feeding the totals (R149, R150, R151) -/

/-- The five money totals move as a group (R150): all five are added, or none and money held is set. -/
def addMoney (fare extras tip card cash : Nat) (t : Totals) : Totals :=
  if t.fare + fare ≤ maxMoney ∧ t.extras + extras ≤ maxMoney ∧ t.tips + tip ≤ maxMoney
      ∧ t.card + card ≤ maxMoney ∧ t.cash + cash ≤ maxMoney then
    { t with fare := t.fare + fare, extras := t.extras + extras, tips := t.tips + tip
             card := t.card + card, cash := t.cash + cash }
  else { t with moneyHeld := 1 }

def isCard (t : Tender) : Bool :=
  match t.kind with
  | .card .. => true
  | .cash => false

def cardSum (ts : List Tender) : Nat := ((ts.filter isCard).map (·.amount)).sum

def cashSum (ts : List Tender) : Nat := ((ts.filter (fun t => !isCard t)).map (·.amount)).sum

/-- The counts a closed leg raises (R149), by its VOIDED flag and its share mode at open. -/
def addLegCounts (voided shared : Bool) (t : Totals) : Totals :=
  if voided then { t with legsVoided := satAdd 9999 t.legsVoided 1 }
  else { t with legsClosed := satAdd 9999 t.legsClosed 1, sharedLegs := satAdd 9999 t.sharedLegs shared.toNat }

/-- A closed leg's counts and money (R149, R150). -/
def addLeg (r : LegRecord) (t : Totals) : Totals :=
  let t := addLegCounts r.voided (decide (r.share = .shared)) t
  if r.voided then t
  else addMoney r.farePart r.extrasTotal (r.tip.getD 0) (cardSum r.tenders) (cashSum r.tenders) t

/-- The tick's counts (R151), by the occupied count as it stands when ACC takes the tick. -/
def accountTick (p : Nat) (s : State) : State :=
  if shiftIsOpen s then
    let n := occupied s
    let r := s.acc.shift
    { s with acc.shift :=
        if n = 0 then { r with unhiredPulses := satAdd max32 r.unhiredPulses p }
        else { r with hiredPulses := satAdd max32 r.hiredPulses p, hiredTicks := satAdd max32 r.hiredTicks 1
                      sharedTicks := satAdd max32 r.sharedTicks (if 2 ≤ n then 1 else 0) } }
  else s

/-- Whole metres of a count of pulses (R151, 04 R70). -/
def metresOf (s : State) (pulses : Nat) : Nat := pulses * 1000 / tariffK s

/-- The totals of a SHIFT_CLOSE record (R148, R151): metres, seconds and unresolved attempts are formed. -/
def finalTotals (s : State) : Totals :=
  let r := s.acc.shift
  { r.totals with
    hiredMetres := min max32 (metresOf s r.hiredPulses)
    unhiredMetres := min max32 (metresOf s r.unhiredPulses)
    hiredSeconds := r.hiredTicks / 10
    sharedSeconds := r.sharedTicks / 10
    unresolved := satAdd 65535 r.pushedOut s.acc.unresolved.length }

/-! ### The unresolved attempt list (R153) -/

/-- An entry joins the list; a full list pushes out its oldest, which is counted. -/
def joinUnresolved (u : Unresolved) (s : State) : State :=
  if s.acc.unresolved.length < 8 then { s with acc.unresolved := s.acc.unresolved ++ [u] }
  else { s with acc.unresolved := s.acc.unresolved.tail ++ [u]
                acc.shift.pushedOut := satAdd 65535 s.acc.shift.pushedOut 1 }

def sameAttempt (leg attempt : Nat) (u : Unresolved) : Bool := u.leg == leg && u.attempt == attempt

/-- The entry of an attempt leaves the list. -/
def dropUnresolved (leg attempt : Nat) (s : State) : State :=
  { s with acc.unresolved := s.acc.unresolved.filter (fun u => !sameAttempt leg attempt u) }

def findUnresolved (s : State) (leg attempt : Nat) : Option Unresolved :=
  s.acc.unresolved.find? (sameAttempt leg attempt)

/-! ### The late approval list (R154, R155) -/

/-- A late approval is entered: kept if the list has room, counted and summed, and told to the fleet. -/
def enterLate (l : Late) (s : State) : State :=
  let t := s.acc.shift.totals
  let s := { s with
    acc.late := if s.acc.late.length < 8 then s.acc.late ++ [l] else s.acc.late
    acc.shift.totals := { t with lateCount := satAdd 65535 t.lateCount 1
                                 lateSum := satAdd maxMoney t.lateSum l.amount } }
  placeItem (.lateApproval s.acc.shift.number l.leg l.attempt l.amount l.reference) s

/-! ### Printing (R156, R159, R160) -/

/-- The next item of the head job. -/
def headItem (s : State) : Option PrintItem :=
  match s.acc.jobs with
  | [] => none
  | j :: _ => (jobItems j.body)[j.pos]?

/-- The class 8 slot holds the next item of the head job, or nothing while the queue is empty (R159). -/
def refreshPrint (s : State) : State :=
  match headItem s with
  | some it => placePrint it s
  | none => withdrawPrint s

def isReceipt (j : Job) : Bool :=
  match j.body with
  | .receipt .. => true
  | .report .. => false

/-- A new job joins the end (R156); the first of an empty queue is the head. -/
def joinJobs (b : JobBody) (s : State) : State :=
  let first := s.acc.jobs.isEmpty
  let s := { s with acc.jobs := s.acc.jobs ++ [⟨b, 0⟩] }
  if first then refreshPrint s else s

/-- A new RECEIPT (R156): dropped when 4 jobs stand. -/
def placeReceipt (r : LegRecord) (zoneFare : Nat) (s : State) : State :=
  if s.acc.jobs.length < 4 then joinJobs (.receipt r zoneFare) s else raise .printLost s

/-- The place of the job a SHIFT_REPORT pushes out of a full queue (R156): the oldest waiting RECEIPT, else
the oldest waiting SHIFT_REPORT. A job of which an item was sent is in print and never leaves so. -/
def victim (jobs : List Job) : Option Nat :=
  match jobs.findIdx? (fun j => decide (j.pos = 0) && isReceipt j) with
  | some i => some i
  | none => jobs.findIdx? (fun j => decide (j.pos = 0))

/-- A new SHIFT_REPORT (R156). Where the head leaves a full queue its item is withdrawn, which a transmitter that holds
it between attempts lets go (01 R14), and the new head's is placed. -/
def placeReport (b : JobBody) (s : State) : State :=
  if s.acc.jobs.length < 4 then joinJobs b s
  else
    let s := raise .printLost s
    match victim s.acc.jobs with
    | none => s
    | some i =>
      let s := { s with acc.jobs := s.acc.jobs.eraseIdx i ++ [⟨b, 0⟩] }
      if i = 0 then refreshPrint (letGo (withdrawPrint s)) else s

/-- The head job returns to its first item and is no longer in print (R160, R161). -/
def rewindHead (s : State) : State :=
  match s.acc.jobs with
  | [] => s
  | j :: rest => { s with acc.jobs := { j with pos := 0 } :: rest }

/-- A PRINTER entry became ABSENT or was removed (R160). -/
def printerPause (s : State) : State :=
  let s := rewindHead { s with acc.credit := 0 }
  if s.acc.jobs.isEmpty then s else refreshPrint s

/-- A print item was sent (R159): the credit falls by 1, the head advances, and a job whose END was sent
leaves. A stale send advances nothing. -/
def printSent (stale : Bool) (s : State) : State :=
  let s := { s with acc.credit := s.acc.credit - 1 }
  if stale then s
  else
    match s.acc.jobs with
    | [] => s
    | j :: rest =>
      refreshPrint { s with acc.jobs :=
        if j.pos + 1 < (jobItems j.body).length then { j with pos := j.pos + 1 } :: rest else rest }

/-- The zone fare a receipt prints (log 22). -/
def receiptZoneFare (s : State) (k : LegKind) : Nat :=
  match k with
  | .metered => 0
  | .flat z => (zoneFare s z).getD (Config.absentZoneFare z)

/-- A slot entered CLOSING (R149): the leg's values are added, and a leg not voided gets its receipt. -/
def accountLeg (r : LegRecord) (s : State) : State :=
  let s := { s with acc.shift.totals := addLeg r s.acc.shift.totals }
  if r.voided then s else placeReceipt r (receiptZoneFare s r.kind) s

end Sys2Proof.Machine
end

