-- ==== Sys2Proof/Machine/Stations.lean ====
section
/-!
DEFINITION. References to station entries and the removal of entries (01 R9).
-/

namespace Sys2Proof.Machine

/-- The claim on a leg is held from an address (06 R101): what the references of R9 and a holder's absence look at. Who
holds it is the matter of `Leg.heldBy`, which compares the role as well. -/
def claimHeldBy (l : Leg) (a : Nat) : Bool := l.claim.any (fun c => c.holder = a)

/-- A reference names an address: a leg's panel binding, a claim, or a call queue entry (01 R9). Bindings and
claims kept through RETAIN count (04 R77, 06 R118). -/
def referenced (s : State) (a : Nat) : Bool :=
  allSlots.any (fun i => match legAt s i with
    | none => false
    | some l => decide (l.panel = some a) || claimHeldBy l a)
  || s.icm.queue.any (fun e => e.addr = a)

/-- An entry leaves the table (R9): its place, its binding, its role and its watch record go, and print jobs
pause if it was a printer (05 R90, 08 R160). -/
def removeEntry (a : Nat) (s : State) : State :=
  match stationOf s a with
  | none => s
  | some e =>
    let s := { s with lif.stations := s.lif.stations.filter (fun x => decide (x.addr ≠ a))
                      cab.watches := s.cab.watches.filter (fun w => decide (w.addr ≠ a)) }
    if e.role = .printer then printerPause s else s

/-- The silence timer's moment of removal: 36 s from its latest restart (R9). -/
def removalMoment (e : Station) : Moment := e.silenceFrom + seconds 36

/-- A block tells LIF that a reference has ended: an ABSENT entry past 36 s that nothing names any more is
removed at once (R9). -/
def endReference (a : Nat) (s : State) : State :=
  match stationOf s a with
  | none => s
  | some e =>
    if !e.present ∧ removalMoment e ≤ s.time ∧ !referenced s a then removeEntry a s else s

end Sys2Proof.Machine
end

