-- ==== Sys2Proof/Machine/Intercom.lean ====
section
/-!
DEFINITION. The partition intercom (07): targets and ramps, mixing, calls and the arbiter, prompts and their
player, and the operations other blocks' events bring.
-/

namespace Sys2Proof.Machine

/-! ### Call states -/

def callRec (s : State) (p : Port) : CallRec := s.icm.calls.get p

def callPhase (s : State) (p : Port) : CallPhase := (callRec s p).phase

def CallPhase.granted : CallPhase → Bool
  | .ringing => true
  | .linked => true
  | .releasing => true
  | _ => false

/-- The granted port, if any (R125). -/
def grantedPort (s : State) : Option Port := Port.list.find? (fun p => (callPhase s p).granted)

def ringingPort (s : State) : Option Port := Port.list.find? (fun p => callPhase s p = .ringing)

/-! ### Targets (R122, R135, R142) -/

/-- The rear port of a speaker or microphone index; A0 has none. -/
def portOfIndex (i : Fin 4) : Option Port :=
  match i with
  | 0 => none
  | 1 => some .a1
  | 2 => some .a2
  | 3 => some .a3

/-- A0 is always bound (R120). -/
def boundIndex (s : State) (i : Fin 4) : Bool := (portOfIndex i).all (bound s)

def talksTo (s : State) (p : Port) : Bool :=
  match s.icm.talk with
  | .up => false
  | .down .all => true
  | .down (.one q) => decide (q = p)

/-- The call target of a microphone into a speaker (R122). -/
def callTarget (s : State) (mic spk : Fin 4) : Nat :=
  match portOfIndex mic, portOfIndex spk with
  | some p, none => if bound s p && decide (callPhase s p = .linked) then 4096 else 0
  | none, some p => if bound s p && (decide (callPhase s p = .linked) || talksTo s p) then 4096 else 0
  | none, none => 0
  | some _, some _ => 0

/-- The prompt player plays into a speaker. -/
def playsInto (s : State) (spk : Fin 4) : Bool :=
  match s.icm.player with
  | .idle => false
  | .playing _ d _ _ _ => d.get spk

/-- The target of a microphone's cell: a quarter of its call target under a prompt (R142). -/
def micTarget (s : State) (mic spk : Fin 4) : Nat :=
  if playsInto s spk then callTarget s mic spk / 4 else callTarget s mic spk

/-- The target of PROMPT into a speaker (R142); 0 into an unbound rear port (R122). -/
def promptTarget (s : State) (spk : Fin 4) : Nat := if playsInto s spk && boundIndex s spk then 2048 else 0

/-- One ramp step (R123). -/
def rampStep (actual target : Nat) : Nat :=
  if actual + 32 < target then actual + 32
  else if target + 32 < actual then actual - 32
  else target

/-- Step 3 of a sample period: every actual gain moves one ramp step (R121, R123). -/
def rampGains (s : State) (spk : Fin 4) : Gains :=
  let g := s.icm.gains.get spk
  { mic := ⟨rampStep (g.mic.get 0) (micTarget s 0 spk), rampStep (g.mic.get 1) (micTarget s 1 spk),
            rampStep (g.mic.get 2) (micTarget s 2 spk), rampStep (g.mic.get 3) (micTarget s 3 spk)⟩
    prompt := rampStep g.prompt (promptTarget s spk) }

/-! ### Mixing (R124) -/

/-- Saturation to a 16-bit sample. -/
def saturate (v : Int) : Sample :=
  BitVec.ofInt 16 (if v < -32768 then -32768 else if 32767 < v then 32767 else v)

/-- The exact sum of the five products (R124, 2). -/
def mixSum (g : Gains) (mics : Four Sample) (prompt : Sample) : Int :=
  (mics.get 0).toInt * g.mic.get 0 + (mics.get 1).toInt * g.mic.get 1 + (mics.get 2).toInt * g.mic.get 2
    + (mics.get 3).toInt * g.mic.get 3 + prompt.toInt * g.prompt

/-- One output sample: the sum divided by 4,096 toward minus infinity, saturated (R124). -/
def mix (g : Gains) (mics : Four Sample) (prompt : Sample) : Sample :=
  saturate (Int.fdiv (mixSum g mics prompt) 4096)

/-! ### CALL_STATE and the queue (R125, R127) -/

/-- A port's place in the call queue, 1–3, or 0 (R125). -/
def placeIn (q : List QEntry) (p : Port) : Nat :=
  match q.findIdx? (fun e => e.port = p) with
  | some i => i + 1
  | none => 0

def callNotice (s : State) (p : Port) : CallNotice :=
  let c := callRec s p
  { panel := ((panelOn s p).map (·.addr)).getD 0
    phase := c.phase
    reason := c.reason
    urgent := decide (c.phase = .queued) && s.icm.queue.any (fun e => decide (e.port = p) && e.urgent)
    place := if c.phase = .queued then placeIn s.icm.queue p else 0 }

/-- ICM places CALL_STATE for a port (R125). -/
def noticeCall (p : Port) (s : State) : State := placeCallNotice p (callNotice s p) s

/-- CALL_STATE for every queued port whose place is not the one it had (R125). -/
def noticeMoved (before : List QEntry) (s : State) : State :=
  s.icm.queue.foldl (fun s e =>
    if placeIn before e.port = placeIn s.icm.queue e.port then s else noticeCall e.port s) s

def setCall (p : Port) (c : CallRec) (s : State) : State := { s with icm.calls := s.icm.calls.set p c }

/-- A port's call state and reason change, and CALL_STATE is placed. -/
def enterPhase (p : Port) (ph : CallPhase) (r : Reason) (s : State) : State :=
  noticeCall p (setCall p { callRec s p with phase := ph, reason := r } s)

/-- The queue's order: URGENT before NORMAL, then by arrival (R127). -/
def QEntry.before (a b : QEntry) : Bool :=
  if a.urgent = b.urgent then decide (a.arrival < b.arrival) else a.urgent

def insertEntry (e : QEntry) : List QEntry → List QEntry
  | [] => [e]
  | x :: xs => if e.before x then e :: x :: xs else x :: insertEntry e xs

/-- A port's entry leaves the call queue; those behind it move up, and LIF is told that the reference has
ended (R127). -/
def leaveQueue (p : Port) (s : State) : State :=
  match s.icm.queue.find? (fun e => e.port = p) with
  | none => s
  | some e =>
    let before := s.icm.queue
    endReference e.addr
      (noticeMoved before { s with icm.queue := before.filter (fun x => decide (x.port ≠ p)) })

/-! ### Prompts (R138–R141) -/

/-- The destination set of one speaker. -/
def onlySpk (i : Fin 4) : Four Bool := (Four.all false).set i true

/-- A prompt is asked for (R138): dropped when 8 entries stand, or when it is a second waiting RING. -/
def askPrompt (k : PromptKind) (spk : Fin 4) (s : State) : State :=
  if 8 ≤ s.icm.prompts.length then s
  else if k = .ring ∧ s.icm.prompts.any (fun e => decide (e.kind = PromptKind.ring)) then s
  else { s with icm.prompts := s.icm.prompts ++ [⟨k, onlySpk spk⟩] }

/-- The phase increment of a tone (R141), for the tone frequencies of R140; silence has none. -/
def toneIncrement : Nat → Nat
  | 440 => 1802
  | 520 => 2130
  | 660 => 2703
  | 880 => 3604
  | 1000 => 4096
  | 1320 => 5407
  | _ => 0

/-- The segments of a prompt kind: frequency in Hz, 0 for silence, and length in samples (R140). -/
def segments : PromptKind → List (Nat × Nat)
  | .ring => [(1000, 3200), (0, 1600), (1000, 3200)]
  | .fare => [(880, 2400), (660, 4000)]
  | .paid => [(660, 1920), (880, 1920), (1320, 3200)]
  | .declined => [(440, 6400)]
  | .timeout => [(520, 2400), (0, 1600), (520, 2400)]

/-- The first quarter of the sine table: 16,000 × sin(2πi/256) rounded, i = 0–64 (R141). -/
def sineQuarter : List Nat :=
  [0, 393, 785, 1177, 1568, 1959, 2348, 2735, 3121, 3506, 3888, 4267, 4645, 5019, 5390, 5758, 6123,
   6484, 6841, 7194, 7542, 7886, 8226, 8560, 8889, 9213, 9531, 9844, 10150, 10451, 10745, 11033,
   11314, 11588, 11855, 12115, 12368, 12614, 12851, 13081, 13304, 13518, 13724, 13921, 14111, 14292,
   14464, 14627, 14782, 14928, 15065, 15192, 15311, 15420, 15521, 15611, 15693, 15764, 15827, 15880,
   15923, 15957, 15981, 15995, 16000]

/-- Table entry i, i = 0–255 (R141), from the quarter by the symmetry of the sine. -/
def sineEntry (i : Nat) : Int :=
  if i ≤ 64 then (sineQuarter.getD i 0 : Int)
  else if i ≤ 128 then (sineQuarter.getD (128 - i) 0 : Int)
  else if i ≤ 192 then -(sineQuarter.getD (i - 128) 0 : Int)
  else -(sineQuarter.getD (256 - i) 0 : Int)

/-- PROMPT's sample at a phase of a segment (R141). -/
def toneSample (freq phase : Nat) : Sample := if freq = 0 then 0 else BitVec.ofInt 16 (sineEntry (phase / 256))

def segmentAt (k : PromptKind) (i : Nat) : Nat × Nat := (segments k).getD i (0, 0)

/-- The player gives one sample and moves on by one (R141). After a segment's last sample the next begins
with phase 0; after the last segment's, no sample is left. -/
def giveSample (k : PromptKind) (d : Four Bool) (seg left phase : Nat) (s : State) : State :=
  let f := (segmentAt k seg).1
  let phase' := (phase + toneIncrement f) % 65536
  let player :=
    if left - 1 = 0 ∧ seg + 1 < (segments k).length then .playing k d (seg + 1) (segmentAt k (seg + 1)).2 0
    else .playing k d seg (left - 1) phase'
  { s with icm.player := player, icm.promptSample := toneSample f phase }

/-- The destination set without the rear speakers whose port is unbound (R139). -/
def boundDests (s : State) (d : Four Bool) : Four Bool :=
  ⟨d.s0, d.s1 && bound s .a1, d.s2 && bound s .a2, d.s3 && bound s .a3⟩

def noDest (d : Four Bool) : Bool := !(d.s0 || d.s1 || d.s2 || d.s3)

/-- The player takes the first entry that has a destination left and plays it from its first segment; those before it
are discarded (R139). -/
def startPlay (s : State) : List Prompt → State
  | [] => { s with icm.prompts := [] }
  | e :: rest =>
    let d := boundDests s e.dests
    if noDest d then startPlay s rest
    else { s with icm.prompts := rest, icm.player := .playing e.kind d 0 (segmentAt e.kind 0).2 0 }

/-- The play ends: IDLE, and PROMPT's sample is 0; the next play starts at the same step (R139). -/
def nextPlay (s : State) : State :=
  startPlay { s with icm.player := .idle, icm.promptSample := 0 } s.icm.prompts

/-- Step 4 of a sample period (R121, R139): a play starts or goes on, and the player moves on by one sample. A step
that starts a play gives its first sample (log 17). -/
def playStep (s : State) : State :=
  let s := match s.icm.player with
    | .idle => startPlay s s.icm.prompts
    | .playing _ _ _ left _ => if left = 0 then nextPlay s else s
  match s.icm.player with
  | .idle => s
  | .playing k d seg left phase => giveSample k d seg left phase s

/-! ### Ringing, granting and releasing (R128–R134) -/

/-- The actions of leaving RINGING (R129): the ring timer stops, a waiting RING goes, a playing RING ends and the next
play starts (R139, log 18). -/
def leaveRinging (s : State) : State :=
  let s := { s with icm.ringDue := none, icm.prompts := s.icm.prompts.filter (fun e => decide (e.kind ≠ PromptKind.ring)) }
  match s.icm.player with
  | .playing .ring _ _ _ _ => nextPlay s
  | _ => s

/-- The arbiter (R128): with no port granted, the head of the queue is granted, RINGING or LINKED. -/
def arbitrate (s : State) : State :=
  match grantedPort s, s.icm.queue with
  | none, e :: rest =>
    let before := s.icm.queue
    let ph : CallPhase := if s.icm.privacy then .ringing else .linked
    let s := { s with icm.queue := rest }
    let s := setCall e.port { callRec s e.port with grantAt := s.time, boundaries := 0 } s
    let s := noticeMoved before (enterPhase e.port ph .none s)
    let s := endReference e.addr s
    if ph = .ringing then askPrompt .ring 0 { s with icm.ringDue := some (s.time + seconds 3) } else s
  | _, _ => s

/-- A RINGING or LINKED port becomes RELEASING (R125), with the actions of leaving RINGING if it rang. -/
def release (p : Port) (r : Reason) (s : State) : State :=
  let rang := callPhase s p = .ringing
  let s := enterPhase p .releasing r s
  if rang then leaveRinging s else s

/-- A RINGING port becomes LINKED (R130, R136); it keeps its grant moment. -/
def link (p : Port) (s : State) : State := leaveRinging (enterPhase p .linked .none s)

/-- The call of a rear port that has become unbound (R134). -/
def unboundCall (p : Port) (s : State) : State :=
  match callPhase s p with
  | .queued => leaveQueue p (enterPhase p .idle .absent s)
  | .ringing => release p .absent s
  | .linked => release p .absent s
  | _ => s

/-- A talk state whose target is a port that has become unbound becomes UP (R134). -/
def endTalkTo (p : Port) (s : State) : State :=
  if s.icm.talk = .down (.one p) then { s with icm.talk := .up } else s

/-- LIF tells ICM that a rear port has become unbound (R134). -/
def portUnbound (p : Port) (s : State) : State := endTalkTo p (unboundCall p s)

/-- The look at the end of step 3 (R132): a RELEASING port whose microphone's actual gain into SPK0 is 0
becomes IDLE, and the arbiter may grant again. -/
def lookReleased (s : State) : State :=
  match Port.list.find? (fun p => decide (callPhase s p = .releasing)
      && decide (((s.icm.gains.get 0).mic.get p.index) = 0)) with
  | none => s
  | some p => arbitrate (enterPhase p .idle (callRec s p).reason s)

/-- The condition of R137 as CAB tells it: forcing begins or ends, and the flag becomes ON where it begins. -/
def setForcing (c : Bool) (s : State) : State :=
  { s with icm.forced := c, icm.privacy := s.icm.privacy || (c && !s.icm.forced) }

/-! ### Time-driven events -/

/-- SAMPLE_PERIOD (R121). -/
def samplePeriodBody (mics : Four Sample) (s : State) : State :=
  let at' := s.icm.sampleDue
  let s := passTo at' { s with icm.sampleDue := at' + samplePeriod }
  let out : Four Sample :=
    ⟨mix (s.icm.gains.get 0) mics s.icm.promptSample, mix (s.icm.gains.get 1) mics s.icm.promptSample,
     mix (s.icm.gains.get 2) mics s.icm.promptSample, mix (s.icm.gains.get 3) mics s.icm.promptSample⟩
  let gains : Four Gains := ⟨rampGains s 0, rampGains s 1, rampGains s 2, rampGains s 3⟩
  playStep (lookReleased { s with icm.out := out, icm.gains := gains })

def execSamplePeriod (m0 m1 m2 m3 : Sample) (s : State) : Out :=
  whenActive (fun s => letGo (samplePeriodBody ⟨m0, m1, m2, m3⟩ s)) s

/-- RING_TIMER (R129). -/
def ringTimerBody (s : State) : State :=
  match ringingPort s, s.icm.ringDue with
  | some _, some due =>
    let s := passTo due s
    askPrompt .ring 0 { s with icm.ringDue := some (s.time + seconds 3) }
  | _, _ => s

def execRingTimer (s : State) : Out := whenActive ringTimerBody s

/-- A boundary for one port (R133): counted if it falls later than the grant moment; at the eighth the grant
is released TIMED_OUT. -/
def boundaryFor (boundary : Moment) (s : State) (p : Port) : State :=
  let c := callRec s p
  if (c.phase = .ringing ∨ c.phase = .linked) ∧ c.grantAt < boundary then
    let s := setCall p { c with boundaries := c.boundaries + 1 } s
    if c.boundaries + 1 < 8 then s
    else
      let s := askPrompt .timeout p.index (enterPhase p .releasing .timedOut s)
      if c.phase = .ringing then leaveRinging s else s
  else s

/-- HOLD_BOUNDARY (R133). -/
def holdBoundaryBody (s : State) : State :=
  let boundary := s.icm.holdDue
  let s := passTo boundary { s with icm.holdDue := boundary + seconds 15 }
  Port.list.foldl (boundaryFor boundary) s

def execHoldBoundary (s : State) : Out := whenActive holdBoundaryBody s

end Sys2Proof.Machine
end

