-- ==== Sys2Proof/Machine/Notices.lean ====
section
/-!
DEFINITION. The notice scheduler's choice (01 R17): the order in which the notices are asked for.
-/

namespace Sys2Proof.Machine

/-- Round robin over four slots: from the slot after the last-sent one to it (R17). -/
def roundFour (last : Fin 4) : List (Fin 4) := [last + 1, last + 2, last + 3, last]

/-- Round robin over the rear ports (R17). -/
def roundPorts : Port → List Port
  | .a1 => [.a2, .a3, .a1]
  | .a2 => [.a3, .a1, .a2]
  | .a3 => [.a1, .a2, .a3]

/-- Every notice in the order NSC asks for it (R17). -/
def askingOrder (s : State) : List Notice :=
  [.assist, .reply, .sign] ++ (roundFour s.nsc.lastOffer).map .offer ++ (roundPorts s.nsc.lastCall).map .call
    ++ (roundFour s.nsc.lastFare).map .fare ++ s.nsc.fleet.map (fun x => .fleet x.kind)
    ++ [.journal, .print, .announce]

/-- NSC's choice (R17). -/
def chooseNotice (s : State) : Option Notice := (askingOrder s).find? (sendable s)

end Sys2Proof.Machine
end

