-- ==== Sys2Proof/Machine/Cab.lean ====
section
/-!
DEFINITION. The cab state unit's shared operations (05): the sign function and the sign record, occupancy and
booking, the seat watches, and what a press of the assist switch does.
-/

namespace Sys2Proof.Machine

/-! ### The roof sign (R83–R87) -/

/-- The pattern of a SHARED hire (R83), by the occupied count and Cp: HIRED at Cp, SHARE_k with k places left. DESIGN
CHOICE (log 50): with more than 3 left, or more legs than Cp, the table has no row and the pattern is a free value. -/
def sharedPattern (n cp : Nat) : Pattern :=
  if n = cp then .hired
  else if n + 1 = cp then .share1
  else if n + 2 = cp then .share2
  else if n + 3 = cp then .share3
  else Config.unlistedPattern (some .shared) n cp

/-- The sign table (R83), of the duty state, the share mode, the occupied count and Cp. A HIRED cab of no share mode,
which R81 rules out, has no row either (log 50). -/
def signPattern (duty : Duty) (share : Option ShareMode) (n cp : Nat) : Pattern :=
  match duty with
  | .noShift => .dark
  | .offDuty => .offDuty
  | .vacant => .vacant
  | .booked => .booked
  | .hired => match share with
    | some .solo => .hired
    | some .shared => sharedPattern n cp
    | none => Config.unlistedPattern none n cp

/-- The pattern the sign must show now (R83). -/
def commandedPattern (s : State) : Pattern := signPattern s.cab.duty s.cab.share (occupied s) (tariffCp s)

def signWait : Moment := seconds 1
def signLostWait : Moment := seconds 5

/-- The re-send timer restarts with its interval for the confirm state; in CONFIRMED it does not run (R85). -/
def restartSignTimer (s : State) : State :=
  { s with cab.signDue := match s.cab.sign.confirm with
      | .confirmed => none
      | .waiting => some (s.time + signWait)
      | .lost => some (s.time + signLostWait) }

/-- The pattern and the assist flag are recomputed at a change of an input (R83, R84). -/
def recomputeSign (s : State) : State :=
  let g := s.cab.sign
  let p := commandedPattern s
  if p = g.pattern ∧ s.cab.latch = g.flag then s
  else
    let g := { g with pattern := p, flag := s.cab.latch, seq := (g.seq + 1) % 256 }
    let g := if g.confirm = .lost then g else { g with confirm := .waiting, resends := 0 }
    placeSign (restartSignTimer { s with cab.sign := g })

/-- The entry into LOST (R85): while a shift is open, the sign-fault count and an EVENT row. -/
def enterLost (s : State) : State :=
  let s := { s with cab.sign.confirm := .lost }
  if shiftIsOpen s then
    claimEvent s.odo.clock (.signLost s.cab.sign.pattern s.cab.sign.seq)
      (countShift (fun t => { t with signFaults := satAdd 65535 t.signFaults 1 }) s)
  else s

/-- LIF tells CAB that a SIGN entry has become ABSENT (R87). -/
def signAbsent (s : State) : State :=
  if s.cab.sign.confirm = .lost then s else restartSignTimer (enterLost s)

/-- LIF tells CAB that a SIGN entry has become PRESENT or was created (R87). -/
def signPresent (s : State) : State := restartSignTimer (placeSign s)

/-! ### Occupancy and booking (R80, R81) -/

/-- The condition that forces privacy (R81, 07 R137). -/
def sharedHire (s : State) : Bool := decide (s.cab.duty = .hired) && decide (s.cab.share = some .shared)

/-- A booking ends (R80): the BOOKING item of class 6 carries the reference and its outcome. -/
def bookingItem (reference : List Byte) (o : BookOutcome) (leg : Nat) (s : State) : State :=
  placeItem (.booking reference o leg) s

/-- The duty state moves, which is an input change of the sign (R78). -/
def moveDuty (d : Duty) (s : State) : State := recomputeSign { s with cab.duty := d }

/-- The duty state and share mode by the reported count (R81). -/
def occupancyDuty (before : Nat) (share : Option ShareMode) (s : State) : State :=
  if occupied s = 0 then { s with cab.duty := .vacant, cab.share := none }
  else if before = 0 then { s with cab.duty := .hired, cab.share := share }
  else s

/-- FARE reports the occupied count (R81), having reported `before`; `share` is the new leg's share mode. -/
def occupancyReport (before : Nat) (share : Option ShareMode) (s : State) : State :=
  let s := occupancyDuty before share s
  recomputeSign (setForcing (sharedHire s) s)

/-! ### The unmetered seat watch (R88–R90) -/

def watchEnabled (s : State) : Bool := s.tar.committed.any (fun t => t.general.watch)

/-- A panel has cover (R89). -/
def covered (s : State) (a : Nat) : Bool :=
  anyOccupied s (fun l => decide (l.share = .solo) || decide (l.panel = some a))

/-- The effect of a tick on one watch (R89). -/
def Watch.tick (cover moving : Bool) (w : Watch) : Watch :=
  if !w.occupied then w
  else if cover then { w with count := 0, fired := false }
  else if !moving || w.fired then w
  else { w with count := w.count + 1, fired := decide (600 ≤ w.count + 1) }

/-- The actions of a watch that fires (R89). -/
def watchFired (a : Nat) (s : State) : State :=
  let s := raise .unmetered s
  if shiftIsOpen s then
    claimEvent s.odo.clock (.unmetered a)
      (countShift (fun t => { t with unmetered := satAdd 65535 t.unmetered 1 }) s)
  else s

/-- One watch record at the tick: only with the watch enabled and its entry PRESENT (R89). -/
def advanceWatch (s : State) (w : Watch) : Watch :=
  if (stationOf s w.addr).any (fun e => e.present) then w.tick (covered s w.addr) s.odo.moving else w

/-- CAB takes the fare tick: every watch advances, and those that fire act in the list's order (log 23). -/
def watchTick (s : State) : State :=
  if !watchEnabled s then s
  else
    let old := s.cab.watches
    let new := old.map (advanceWatch s)
    let fired := ((old.zip new).filter (fun p => !p.1.fired && p.2.fired)).map (fun p => p.1.addr)
    fired.foldl (fun s a => watchFired a s) { s with cab.watches := new }

def watchHasFired (s : State) (a : Nat) : Bool := s.cab.watches.any (fun w => decide (w.addr = a) && w.fired)

/-- Changes the watch record of a panel. -/
def updateWatch (a : Nat) (f : Watch → Watch) (s : State) : State :=
  { s with cab.watches := s.cab.watches.map (fun w => if w.addr = a then f w else w) }

/-- A watch at rest with an EMPTY seat (R88, R90). -/
def Watch.empty (a : Nat) : Watch := ⟨a, false, 0, false⟩

/-- TAR hands CAB its values (R90): with the watch disabled every record is kept at rest. -/
def restWatches (s : State) : State :=
  if watchEnabled s then s
  else { s with cab.watches := s.cab.watches.map (fun w => { w with count := 0, fired := false }) }

/-! ### The assist latch (R91–R93) -/

def assistRepeat : Moment := seconds 10

/-- CAB places ASSIST_NOTICE with the values that stand (R91). -/
def noticeAssist (s : State) : State := placeAssist ⟨s.cab.latch, s.cab.presses, s.cab.pressTime⟩ s

/-- The acknowledgment state becomes UNACKED and the repeat timer restarts (R91, 10 R191). -/
def unack (s : State) : State :=
  { s with cab.ack := some .unacked, cab.repeatDue := some (s.time + assistRepeat) }

/-- What a press does beyond the latch (R91): sign, notice, accounts. DESIGN CHOICE (log 28): the EVENT row carries the
clock as it stands now, which for a press taken in RETAIN is the clock at the wake. -/
def pressEffects (s : State) : State :=
  let s := noticeAssist (unack (recomputeSign s))
  if shiftIsOpen s then
    claimEvent s.odo.clock (.assist s.cab.presses)
      (countShift (fun t => { t with assists := satAdd 65535 t.assists 1 }) s)
  else s

/-- A press while ACTIVE (R91). -/
def press (s : State) : State :=
  pressEffects { s with cab.latch := true, cab.pressTime := s.odo.clock
                        cab.presses := if s.cab.latch then satAdd 255 s.cab.presses 1 else 1 }

/-- A press in RETAIN, taken into retention memory (10 R189). -/
def retainPress (s : State) : State :=
  { s with cab.latch := true, cab.presses := satAdd 255 s.cab.presses 1, cab.pressTime := s.odo.clock
           cab.wakeMark := true }

end Sys2Proof.Machine
end

