-- ==== Sys2Proof/Machine/Operands.lean ====
section
/-!
DEFINITION. How a request or report is taken (01 R10, R11) and its fields read (11 R199): the role permission
table, the allowed lengths, the checks of LIF in order, and the search for a leg.
-/

namespace Sys2Proof.Machine

/-- The kinds that are reports: they draw no answer (R10). -/
def isReport : ReqKind → Bool
  | .announce => true
  | .seat => true
  | .signState => true
  | .call => true
  | .journalCredit => true
  | .printCredit => true
  | _ => false

/-- The role permission table (R10). -/
def mayEach : Role → List ReqKind
  | .console =>
    [.announce, .shiftOpen, .shiftClose, .duty, .book, .hire, .hold, .resume, .void, .extra, .flat, .band, .cash,
     .tip, .faultAck, .talk, .answer, .endCall, .privacy, .payClaim, .payStart, .payResult, .payCancel]
  | .panel => [.announce, .call, .seat, .payClaim, .payStart, .payResult, .payCancel]
  | .sign => [.announce, .signState]
  | .fleet =>
    [.announce, .timeSet, .book, .assistAck, .assistClear, .journalRead, .journalCredit, .journalRelease]
  | .printer => [.announce, .printCredit]
  | .calibrator => [.announce, .tariffBegin, .tariffPart, .tariffCommit]
  | .meter => [.announce]

def mayRole (r : Role) (k : ReqKind) : Bool := (mayEach r).contains k

/-- The LEN values a kind may have (R199, 11.2). -/
def lengths : ReqKind → List Nat
  | .announce => [2, 9]
  | .shiftOpen => [4]
  | .shiftClose => [0]
  | .answer => [0]
  | .endCall => [0]
  | .assistAck => [0]
  | .assistClear => [0]
  | .tariffBegin => [0]
  | .tariffCommit => [0]
  | .duty => [1]
  | .book => [1, 9]
  | .hire => [3]
  | .hold => [2]
  | .resume => [2]
  | .void => [2]
  | .payClaim => [2]
  | .payCancel => [2]
  | .extra => [3]
  | .flat => [3]
  | .band => [1]
  | .cash => [6]
  | .tip => [6]
  | .faultAck => [1]
  | .talk => [2]
  | .privacy => [1]
  | .call => [1]
  | .seat => [1]
  | .payStart => [11]
  | .payResult => [14]
  | .signState => [3]
  | .timeSet => [6]
  | .journalRead => [2, 4]
  | .journalCredit => [1]
  | .printCredit => [1]
  | .journalRelease => [2]
  | .tariffPart => [6, 8, 10, 20]

/-- A check of LIF fails: a request is refused, a report is discarded (R10). -/
def lifRefuses (k : ReqKind) (q : QFrame) (c : RefusalCode) (s : State) : State :=
  if isReport k then s else refuse q c s

/-- LIF takes the frame at the head of the receive queue, makes its checks in order and hands it on with the
sender's entry (R10). With another kind at the head, or none, the command changes nothing (log 6). -/
def taken (k : ReqKind) (act : QFrame → Station → State → State) (s : State) : State :=
  match s.lif.queue with
  | [] => s
  | q :: rest =>
    if ReqKind.ofCode q.kind = some k then
      let s := { s with lif.queue := rest }
      match stationOf s q.src with
      | none => lifRefuses k q .notAllowed s
      | some e =>
        if !mayRole e.role k then lifRefuses k q .notAllowed s
        else if !(lengths k).contains q.payload.length then lifRefuses k q .range s
        else act q e s
    else s

/-- A request or report as a command: taken while ACTIVE. The notice the transmitter holds is let go if the
request has made it unsendable (R14). -/
def takes (k : ReqKind) (act : QFrame → Station → State → State) (s : State) : Out :=
  whenActive (fun s => letGo (taken k act s)) s

/-- A field of a frame's payload, n bytes from position i, least significant first (11). -/
def QFrame.at (q : QFrame) (i n : Nat) : Nat := field q.payload i n

/-- The leg number of a request is its first field (11.2). -/
def QFrame.leg (q : QFrame) : Nat := q.at 0 2

/-- The search of R50: a number no slot holds is refused with UNKNOWN_LEG. -/
def withLeg (q : QFrame) (act : Fin 4 → Leg → State → State) (s : State) : State :=
  match findLeg s q.leg with
  | none => refuse q .unknownLeg s
  | some i => match legAt s i with
    | none => refuse q .unknownLeg s
    | some l => act i l s

/-! ### Values of ACCEPTED (R199) -/

def legValue (l : Leg) : List Byte := le 2 l.number
def money (v : Nat) : List Byte := le 4 v
def slotValue (i : Fin 4) : List Byte := le 1 i.val

end Sys2Proof.Machine
end

