-- ==== Sys2Proof/Machine/Flags.lean ====
section
/-!
DEFINITION. The fault set (10.1–10.3): live faults, the whole set, the mask and the warning, the causes of
latched faults, and FAULT_ACK.
-/

namespace Sys2Proof.Machine

def FaultName.ofIndex : Nat → Option FaultName
  | 0 => some .lineContention
  | 1 => some .rxOverrun
  | 2 => some .txOverrun
  | 3 => some .addressClash
  | 4 => some .stationTableFull
  | 5 => some .pulseOverrun
  | 6 => some .unmetered
  | 7 => some .journalCorrected
  | 8 => some .journalDamaged
  | 9 => some .printLost
  | 10 => some .retentionLost
  | 11 => some .clockUnset
  | 12 => some .signLost
  | 13 => some .lampFault
  | 14 => some .assist
  | 15 => some .journalNearFull
  | _ => none

/-- A live fault's condition (R182); a latched fault has none. -/
def liveHolds (s : State) : FaultName → Bool
  | .clockUnset => !s.odo.clockSet
  | .signLost => decide (s.cab.sign.confirm = .lost)
  | .lampFault => s.cab.sign.front || s.cab.sign.rear || s.cab.sign.side
  | .assist => s.cab.latch
  | .journalNearFull => decide (freeRows s < 128)
  | _ => false

def isLive (f : FaultName) : Bool := decide (11 ≤ f.index)

/-- A fault is set: latched, or live with its condition holding (R182). -/
def faultSet (s : State) (f : FaultName) : Bool :=
  if isLive f then liveHolds s f else s.flt.latched.getLsbD f.index

/-- Bit i of the fault set. -/
def faultBit (s : State) (i : Nat) : Bool := (FaultName.ofIndex i).any (faultSet s)

/-- The fault set as 16 bits, bit i for the fault of index i (11). -/
def faultWord (s : State) : BitVec 16 :=
  BitVec.ofNat 16 (((List.range 16).map (fun i => if faultBit s i then 2 ^ i else 0)).sum)

/-- The mask TAR hands FLT: all sixteen flags while no tariff is committed (R185, 03 R46). -/
def faultMask (s : State) : BitVec 16 :=
  match s.tar.committed with
  | some t => t.general.mask
  | none => BitVec.allOnes 16

/-- The warning (R185). -/
def warning (s : State) : Bool := decide (faultWord s &&& faultMask s ≠ 0)

/-- A latched fault's cause holds at the acknowledgment (R183). -/
def causeHolds (s : State) : FaultName → Bool
  | .rxOverrun => decide (8 ≤ s.lif.queue.length)
  | .txOverrun => decide (6 ≤ s.nsc.replies.length)
  | .stationTableFull => decide (12 ≤ s.lif.stations.length)
  | .pulseOverrun => decide (255 < s.odo.lastTaken)
  | .unmetered => s.cab.watches.any (fun w => w.fired)
  | .printLost => decide (4 ≤ s.acc.jobs.length)
  | _ => false

/-- An acknowledgment of a fault: a latched fault whose cause does not hold clears (R184). -/
def acknowledge (f : FaultName) (s : State) : State :=
  if isLive f || causeHolds s f then s
  else { s with flt.latched := s.flt.latched &&& ~~~ BitVec.ofNat 16 (2 ^ f.index) }

/-- FAULT_ACK (R184). -/
def faultAckBody (q : QFrame) (_ : Station) (s : State) : State :=
  match FaultName.ofIndex (q.at 0 1) with
  | none => refuse q .range s
  | some f =>
    let s := acknowledge f { s with flt.coldFlag := false }
    accept q (le 1 f.index ++ [flagByte (faultSet s f)] ++ le 2 (faultWord s).toNat) s

def execFaultAck (s : State) : Out := takes .faultAck faultAckBody s

end Sys2Proof.Machine
end

