-- ==== Sys2Proof/Machine/Clock.lean ====
section
/-!
DEFINITION. The time-of-day clock and the vehicle band (02 R27–R32): the calendar, time sets, the automatic band,
and the commands CLOCK_SECOND, TIME_SET and BAND. Also the retention check word, which the clock's seconds
amend (10 R187).
-/

namespace Sys2Proof.Machine

/-! ### The calendar (R27) -/

def daysIn (year month : Nat) : Nat :=
  if month = 2 then (if year % 4 = 0 then 29 else 28)
  else if month = 4 ∨ month = 6 ∨ month = 9 ∨ month = 11 then 30
  else 31

/-- The ranges of R27. -/
def DateTime.ok (t : DateTime) : Bool :=
  decide (2000 ≤ t.year ∧ t.year ≤ 2099 ∧ 1 ≤ t.month ∧ t.month ≤ 12 ∧ 1 ≤ t.day ∧ t.day ≤ daysIn t.year t.month
    ∧ t.hour ≤ 23 ∧ t.minute ≤ 59 ∧ t.second ≤ 59)

/-- One second later; from the end of 2099 to the start of 2000 (R27). -/
def DateTime.next (t : DateTime) : DateTime :=
  if t.second < 59 then { t with second := t.second + 1 }
  else if t.minute < 59 then { t with minute := t.minute + 1, second := 0 }
  else if t.hour < 23 then { t with hour := t.hour + 1, minute := 0, second := 0 }
  else if t.day < daysIn t.year t.month then { t with day := t.day + 1, hour := 0, minute := 0, second := 0 }
  else if t.month < 12 then ⟨t.year, t.month + 1, 1, 0, 0, 0⟩
  else if t.year < 2099 then ⟨t.year + 1, 1, 1, 0, 0, 0⟩
  else DateTime.epoch

/-- The days of the months before the first n months are over. -/
def daysBefore (year : Nat) : Nat → Nat
  | 0 => 0
  | n + 1 => daysBefore year n + daysIn year (n + 1)

/-- The days since 2000-01-01. -/
def DateTime.dayNumber (t : DateTime) : Nat :=
  (t.year - 2000) * 365 + (t.year - 2000 + 3) / 4 + daysBefore t.year (t.month - 1) + (t.day - 1)

/-- The weekday, Monday 0 to Sunday 6: 2000-01-01 is a Saturday (R27, R30). -/
def DateTime.weekday (t : DateTime) : Nat := (5 + t.dayNumber) % 7

/-- The minute of the week (R30). -/
def DateTime.minuteOfWeek (t : DateTime) : Nat := t.weekday * 1440 + t.hour * 60 + t.minute

/-! ### The bands (R30, R32) -/

/-- The backward distance of a moment of the week from now, in minutes (R30). -/
def backward (now moment : Nat) : Nat := if moment ≤ now then now - moment else now + 10080 - moment

/-- The moments of a switch point in the week, with its band. -/
def SwitchPoint.moments (p : SwitchPoint) : List (Nat × Nat) :=
  ((List.range 7).filter (fun d => p.days.getLsbD d)).map (fun d => (d * 1440 + p.minute, p.band))

/-- The band of the moment at the smallest backward distance; of two the first, which is of the lower index. -/
def nearestBand (now : Nat) (ms : List (Nat × Nat)) : Nat :=
  (ms.foldl (fun (best : Nat × Nat) m =>
    if backward now m.1 < best.1 then (backward now m.1, m.2) else best) (10080, 0)).2

/-- A band number as one of the four bands. -/
def bandOf (n : Nat) : Fin 4 := ⟨n % 4, Nat.mod_lt n (by decide)⟩

/-- The automatic band (R30). -/
def automaticBand (s : State) : Fin 4 :=
  match s.tar.committed with
  | none => 0
  | some t =>
    if s.odo.clockSet then bandOf (nearestBand s.odo.clock.minuteOfWeek (t.switches.flatMap SwitchPoint.moments))
    else 0

/-- The evaluation of the vehicle band (R32). -/
def evaluateBand (s : State) : State :=
  { s with odo.vehicleBand := s.odo.manualBand.getD (automaticBand s) }

/-! ### Time sets (R28, R29) -/

/-- A time set is applied (R28): the clock, its timer, the set flag, and while a shift is open an EVENT row. -/
def applyTime (t : DateTime) (s : State) : State :=
  let before := s.odo.clock
  let s := { s with odo.clock := t, odo.secondDue := s.time + seconds 1, odo.clockSet := true
                    odo.pendingTime := none }
  claimEventIfOpen t (.clockSet before t) s

/-- FARE tells ODO that a slot has become FREE (R29). -/
def applyPending (s : State) : State :=
  match s.odo.pendingTime with
  | some t => if allFree s then placeItem (.clockApplied t) (applyTime t s) else s
  | none => s

/-- TIME_SET (R28). -/
def timeSetBody (q : QFrame) (_ : Station) (s : State) : State :=
  let t := timeAt q.payload 0
  if !t.ok then refuse q .range s
  else if allFree s then accept q (le 1 1) (applyTime t s)
  else accept q (le 1 2) { s with odo.pendingTime := some t }

def execTimeSet (s : State) : Out := takes .timeSet timeSetBody s

/-- BAND (R31). -/
def bandBody (q : QFrame) (_ : Station) (s : State) : State :=
  let n := q.at 0 1
  if !shiftIsOpen s then refuse q .noShift s
  else if n = 255 then accept q [] { s with odo.manualBand := none }
  else if 3 < n then refuse q .range s
  else if !bandPresent s (bandOf n) then refuse q .range s
  else accept q [] { s with odo.manualBand := some (bandOf n) }

def execBand (s : State) : Out := takes .band bandBody s

/-! ### Retention memory (10 R187) -/

/-- What retention memory holds. -/
def retained (s : State) : Retained where
  odometer := s.odo.odometer
  clock := s.odo.clock
  clockSet := s.odo.clockSet
  pendingTime := s.odo.pendingTime
  manualBand := s.odo.manualBand
  slots := s.fare.slots
  lastLeg := s.fare.lastLeg
  duty := s.cab.duty
  share := s.cab.share
  booking := s.cab.booking
  latch := s.cab.latch
  presses := s.cab.presses
  wakeMark := s.cab.wakeMark
  sign := s.cab.sign
  privacy := s.icm.privacy
  forced := s.icm.forced
  shift := s.acc.shift
  lastShift := s.acc.lastShift
  unresolved := s.acc.unresolved
  late := s.acc.late
  jobs := s.acc.jobs
  append := s.jnl.append
  writePos := s.jnl.writePos
  waitsErase := s.jnl.waitsErase
  nextSeq := s.jnl.nextSeq
  sectors := s.jnl.sectors
  directory := s.jnl.directory
  faults := s.flt.latched
  coldFlag := s.flt.coldFlag
  time := s.time
  retainAt := s.pwr.retainAt

/-- The 16-bit wrapping sum of the words of retention memory other than the check word (10 R187). -/
def retentionSum (s : State) : DataWord := (Config.retentionWords (retained s)).foldl (· + ·) 0

/-- A change in RETAIN, with the check word amended by the difference in the words changed (10 R187). -/
def amending (f : State → State) (s : State) : State :=
  let t := f s
  if s.pwr.state = .retain then { t with pwr.check := t.pwr.check + (retentionSum t - retentionSum s) } else t

/-! ### The clock's second (R27) -/

/-- The clock runs in ACTIVE, and through RETAIN entry and RETAIN (R27, 10 R189). -/
def clockRuns (p : Power) : Bool :=
  match p with
  | .active => true
  | .entering => true
  | .retain => true
  | _ => false

/-- CLOCK_SECOND (R27, R29). -/
def clockSecondBody (s : State) : State :=
  let due := s.odo.secondDue
  passTo due { s with odo.secondDue := due + seconds 1, odo.clock := s.odo.clock.next
                      odo.pendingTime := s.odo.pendingTime.map DateTime.next }

def execClockSecond (s : State) : Out :=
  .next (if clockRuns s.pwr.state then amending clockSecondBody s else s)

end Sys2Proof.Machine
end

