-- ==== Sys2Proof/Machine/Fare.lean ====
section
/-!
DEFINITION. The fare engine's shared operations (04): derived constants, the ceiling, steps, the fare tick, the
offer and the prompt port of a leg, closing a leg and freeing its slot.
-/

namespace Sys2Proof.Machine

/-! ### Derived constants (03 R45) -/

def BandRates.S (K : Nat) (r : BandRates) : Nat := K * r.Ds * 10 * r.Ts
def BandRates.aD (r : BandRates) : Nat := 10000 * r.Ts
def BandRates.aT (K : Nat) (r : BandRates) : Nat := K * r.Ds
def BandRates.T (K : Nat) (r : BandRates) : Nat := r.S K * 1000

/-- The share of a leg in per mille, by the number of occupied slots (R63). -/
def BandRates.share (r : BandRates) : Nat → Nat
  | 0 => 1000
  | 1 => 1000
  | 2 => r.f2
  | 3 => r.f3
  | _ => r.f4

/-- The contribution of a tick (R64). -/
def contribution (K : Nat) (r : BandRates) (p : Nat) : Nat :=
  if r.double then p * r.aD + r.aT K else max (p * r.aD) (r.aT K)

/-! ### Money and the ceiling (R53) -/

def ceilingTotal : Nat := 9999999

def Leg.room (l : Leg) : Nat := ceilingTotal - l.total

/-- Money carried by a step: at most the room is added; CEILING is set when less is added than carried. -/
def Leg.addFare (v : Nat) (l : Leg) : Leg :=
  { l with farePart := l.farePart + min v l.room, ceiling := l.ceiling || decide (l.room < v) }

/-- The amount of an extra, in the same way. -/
def Leg.addExtra (v : Nat) (l : Leg) : Leg :=
  { l with extrasTotal := l.extrasTotal + min v l.room, ceiling := l.ceiling || decide (l.room < v) }

/-- FLAT's fare part (R61): the zone's fare, or what the ceiling leaves beside the extras. -/
def Leg.convert (zone fare : Nat) (l : Leg) : Leg :=
  { l with kind := .flat zone, reg := 0, farePart := min fare (ceilingTotal - l.extrasTotal)
           ceiling := l.ceiling || decide (ceilingTotal - l.extrasTotal < fare) }

/-! ### Steps and accrual (R65–R68) -/

/-- One step (R67). -/
def Leg.step (t : Option TariffSet) (l : Leg) : Leg :=
  let l' := { l with steps := min 65535 (l.steps + 1) }
  if l.steps + 1 ≤ (ratesIn t l.openBand).N then l' else l'.addFare (ratesIn t l.regBand).U

/-- Whole steps, each in turn. -/
def Leg.stepN (t : Option TariffSet) : Nat → Leg → Leg
  | 0, l => l
  | n + 1, l => Leg.stepN t n (l.step t)

/-- The rescale of a register to a band (R65). -/
def Leg.rescale (s : State) (v : Fin 4) (l : Leg) : Leg :=
  { l with reg := l.reg * (bandRates s v).S (tariffK s) / (bandRates s l.regBand).S (tariffK s), regBand := v }

def Leg.isMetered (l : Leg) : Bool := decide (l.kind = .metered)

/-- Steps 2 to 4 of R62 for one leg: rescale and accrual of an OPEN metered leg. -/
def Leg.accrue (s : State) (n p : Nat) (l : Leg) : Leg :=
  if l.phase = .opened ∧ l.isMetered then
    let v := s.odo.vehicleBand
    let l := if l.regBand = v then l else l.rescale s v
    let gained := l.reg + contribution (tariffK s) (bandRates s v) p * (bandRates s l.regBand).share n
    let T := (bandRates s l.regBand).T (tariffK s)
    Leg.stepN s.tar.committed (gained / T) { l with reg := gained % T }
  else l

/-- Step 5 of R62 for one leg: the counters of an occupied leg (R68). -/
def Leg.count (n p : Nat) (l : Leg) : Leg :=
  if l.occupied then
    { l with
      hiredPulses := if l.phase = .opened then satAdd max32 l.hiredPulses p else l.hiredPulses
      hiredTicks := satAdd max32 l.hiredTicks 1
      sharedTicks := if 2 ≤ n then satAdd max32 l.sharedTicks 1 else l.sharedTicks }
  else l

/-! ### FARE_SHOW (R74, R75) -/

def isFlat (l : Leg) : Bool := !l.isMetered

def showOf (l : Leg) : FareShow :=
  ⟨l.number, some l.phase, l.farePart, l.extrasTotal, l.total, l.due, l.regBand.val, l.ceiling, isFlat l⟩

def showFree (l : Leg) : FareShow := ⟨l.number, none, 0, 0, 0, 0, l.regBand.val, false, false⟩

/-- FARE places a FARE_SHOW for a slot with its leg's values (R74). -/
def showLeg (i : Fin 4) (s : State) : State :=
  match legAt s i with
  | none => s
  | some l => placeFareShow i (showOf l) s

/-- FARE takes the fare tick (R62). -/
def fareTick (p : Nat) (s : State) : State :=
  let n := occupied s
  let t := { s with fare.slots := s.fare.slots.map (Option.map (fun l => (l.accrue s n p).count n p)) }
  allSlots.foldl (fun u i =>
    if (legAt s i).map showOf = (legAt t i).map showOf then u else showLeg i u) t

/-! ### The settlement part as FARE needs it (06 R97, R98) -/

/-- The next attempt number in an offer, 0 when 8 attempts are held (06 R95). -/
def Leg.nextShown (l : Leg) : Nat := if l.attempts.length < 8 then l.attempts.length + 1 else 0

def offerOf (l : Leg) : Offer :=
  ⟨l.number, l.total, l.tip.getD 0, l.due, l.nextShown, l.tenders.length, (l.claim.map (·.holder)).getD 0⟩

/-- PAY places a PAY_OFFER for a slot (06 R98). -/
def offerLeg (i : Fin 4) (s : State) : State :=
  match legAt s i with
  | none => s
  | some l => placeOffer i (offerOf l) s

/-- The speaker of a leg's prompt port (06 R97). -/
def promptSpeaker (s : State) (l : Leg) : Fin 4 :=
  match l.panel.bind (stationOf s) with
  | none => 0
  | some e => if e.present then (e.port.map Port.index).getD 0 else 0

/-- A leg's claim becomes absent, and LIF is told that its reference has ended (06 R100, R101). -/
def endClaim (i : Fin 4) (s : State) : State :=
  match legAt s i with
  | none => s
  | some l => match l.claim with
    | none => s
    | some c => endReference c.holder (setLeg i { l with claim := none } s)

/-! ### Closing (R69–R71) -/

/-- The LEG record built at close (R70). -/
def legRecord (s : State) (l : Leg) : LegRecord where
  shift := openShift s
  number := l.number
  panel := l.panel
  share := l.share
  openBand := l.openBand
  regBand := l.regBand
  kind := l.kind
  ceiling := l.ceiling
  voided := l.voided
  interrupted := l.interrupted
  openTime := l.openTime
  closeTime := s.odo.clock
  booking := l.booking
  steps := l.steps
  farePart := l.farePart
  extrasTotal := l.extrasTotal
  total := l.total
  tip := l.tip
  extraCounts := l.extraCounts
  distance := metresOf s l.hiredPulses
  hiredTime := l.hiredTicks / 10
  sharedTime := l.sharedTicks / 10
  tenders := l.tenders

/-- A leg enters CLOSING (R69). -/
def closeLeg (i : Fin 4) (l : Leg) (s : State) : State :=
  let before := occupied s
  let r := legRecord s l
  let s := setLeg i { l with phase := .closing } s
  showLeg i (occupancyReport before none (claim (.leg r) (accountLeg r s)))

/-- LIF is told that a leg's panel binding has ended (R71). -/
def endPanelReference (l : Leg) (s : State) : State :=
  match l.panel with
  | some a => endReference a s
  | none => s

/-- LIF is told that a leg's claim has ended (06 R101). -/
def endClaimReference (l : Leg) (s : State) : State :=
  match l.claim with
  | some c => endReference c.holder s
  | none => s

/-- A CLOSING slot becomes FREE (R71). PAY's settlement part goes with it, and a claim on it would end (06
R95, R101). -/
def freeSlot (i : Fin 4) (l : Leg) (s : State) : State :=
  placeFareShow i (showFree l) (applyPending (endClaimReference l (endPanelReference l (clearLeg i s))))

/-- JNL reports the LEG row of a leg number programmed (R71): its CLOSING slot becomes FREE. -/
def legProgrammed (number : Nat) (s : State) : State :=
  match findLeg s number with
  | none => s
  | some i => match legAt s i with
    | none => s
    | some l => if l.phase = .closing then freeSlot i l s else s

end Sys2Proof.Machine
end

