-- ==== Sys2Proof/Machine/Hire.lean ====
section
/-!
DEFINITION. The leg requests of FARE (04.3–04.5): HIRE, HOLD, RESUME, VOID, EXTRA and FLAT.
-/

namespace Sys2Proof.Machine

/-! ### HIRE (R54–R56) -/

/-- Check 4 of R54. -/
def occupancyForbids (shared : Bool) (s : State) : Bool :=
  anyOccupied s (fun l => decide (l.share = .solo))
    || (decide (1 ≤ occupied s) && decide (s.cab.share = some .shared) && !shared)
    || decide (tariffCp s ≤ occupied s)

def lowestFree (s : State) : Option (Fin 4) := allSlots.find? (fun i => (legAt s i).isNone)

/-- Check 6 of R54: the address names a PRESENT panel. -/
def presentPanel (s : State) (a : Nat) : Bool :=
  (stationOf s a).any (fun e => e.present && decide (e.role = .panel))

/-- The panel a HIRE names, 0 for none (11). -/
def QFrame.hirePanel (q : QFrame) : Option Nat := if q.at 0 1 = 0 then none else some (q.at 0 1)

/-- The zone a HIRE names, 0xFF for none (11). -/
def QFrame.hireZone (q : QFrame) : Option Nat := if q.at 2 1 = 255 then none else some (q.at 2 1)

def QFrame.hireShared (q : QFrame) : Bool := decide (q.at 1 1 = 1)

/-- The checks of a HIRE, in order (R54). A share byte that codes no flag is out of range at check 3 (log 25). -/
def hireRefusal (q : QFrame) (s : State) : Option RefusalCode :=
  if !shiftIsOpen s then some .noShift
  else if s.cab.duty = .offDuty then some .state
  else if 1 < q.at 1 1 ∨ (q.hireShared ∧ !sharingInForce s) then some .range
  else if occupancyForbids q.hireShared s then some .noSlot
  else if (lowestFree s).isNone then some .noSlot
  else if q.hirePanel.any (fun a => !presentPanel s a) then some .absent
  else if q.hirePanel.any (fun a => anyOccupied s (fun l => decide (l.panel = some a))) then some .state
  else if q.hireZone.any (fun z => decide (5 < z) || (zoneFare s z).isNone) then some .range
  else if freeRows s < occupied s + 2 then some .journalFull
  else if 9999 ≤ s.fare.lastLeg then some .limit
  else none

/-- The automatic extras of R55, kinds 0–7 in order. -/
def withAutomatics (s : State) (l : Leg) : Leg :=
  (List.range 8).foldl (fun l k => match extraKind s k with
    | none => l
    | some x => if x.automatic then Leg.addExtra x.amount { l with extraCounts := l.extraCounts.set k 1 } else l) l

/-- The fare part at open: the flag fall of the open band or the zone's fare; at most the ceiling (log 29). -/
def openFare (s : State) (zone : Option Nat) : Nat :=
  min ceilingTotal (match zone with
    | none => (bandRates s s.odo.vehicleBand).F
    | some z => (zoneFare s z).getD (Config.absentZoneFare z))

/-- The record of the leg a HIRE opens (R55). -/
def newLeg (q : QFrame) (s : State) : Leg :=
  withAutomatics s
    { phase := .opened
      number := s.fare.lastLeg + 1
      panel := q.hirePanel
      share := if q.hireShared then .shared else .solo
      openTime := s.odo.clock
      booking := s.cab.booking
      openBand := s.odo.vehicleBand
      regBand := s.odo.vehicleBand
      kind := match q.hireZone with
        | none => .metered
        | some z => .flat z
      reg := 0
      steps := 0
      farePart := openFare s q.hireZone
      extraCounts := List.replicate 8 0
      extrasTotal := 0
      ceiling := false
      voided := false
      interrupted := false
      hiredPulses := 0
      hiredTicks := 0
      sharedTicks := 0
      tip := none
      tenders := []
      attempts := []
      claim := none }

/-- The BOOKING item of a leg that took the booking with it (05 R80, R81). -/
def bookingTaken (l : Leg) (s : State) : State :=
  match l.booking with
  | some r => bookingItem r .taken l.number s
  | none => s

/-- A HIRE that passed its checks opens its leg in a slot (R55, R56). -/
def openLeg (q : QFrame) (i : Fin 4) (s : State) : State :=
  let l := newLeg q s
  let before := occupied s
  let s := setLeg i l { s with fare.lastLeg := l.number, cab.booking := none }
  let s := occupancyReport before (some l.share) s
  let s := bookingTaken l s
  accept q (legValue l ++ slotValue i) (showLeg i s)

def hireBody (q : QFrame) (_ : Station) (s : State) : State :=
  match hireRefusal q s, lowestFree s with
  | some c, _ => refuse q c s
  | none, some i => openLeg q i s
  | none, none => refuse q .noSlot s

/-- HIRE (R54, R55). -/
def execHire (s : State) : Out := takes .hire hireBody s

/-! ### HOLD and RESUME (R57, R58) -/

def holdBody (q : QFrame) (_ : Station) (s : State) : State :=
  withLeg q (fun i l s =>
    if l.phase ≠ .opened then refuse q .state s
    else
      let s := setLeg i { l with phase := .held } s
      accept q [] (showLeg i (askPrompt .fare (promptSpeaker s l) (offerLeg i s)))) s

/-- HOLD (R57). -/
def execHold (s : State) : Out := takes .hold holdBody s

def resumeBody (q : QFrame) (_ : Station) (s : State) : State :=
  withLeg q (fun i l s =>
    if l.phase ≠ .held then refuse q .state s
    else if !l.tenders.isEmpty then refuse q .state s
    else if l.claim.isSome then refuse q .state s
    else
      let l := if l.isMetered ∧ l.regBand ≠ s.odo.vehicleBand then l.rescale s s.odo.vehicleBand else l
      accept q [] (showLeg i (withdrawOffer i (setLeg i { l with phase := .opened } s)))) s

/-- RESUME (R58). -/
def execResume (s : State) : Out := takes .resume resumeBody s

/-! ### VOID (R59) -/

/-- The automatic count of an extra kind (R59). -/
def automaticCount (s : State) (k : Nat) : Nat := if (extraKind s k).any (fun x => x.automatic) then 1 else 0

/-- An extra count stands above its automatic count (R59). -/
def extrasAbove (s : State) (l : Leg) : Bool :=
  (List.range 8).any (fun k => decide (automaticCount s k < l.extraCounts.getD k 0))

/-- A void leg is left with nothing: R51 names VOID among the events that change the register (log 43). -/
def voidBody (q : QFrame) (_ : Station) (s : State) : State :=
  withLeg q (fun i l s =>
    if l.phase ≠ .opened then refuse q .state s
    else if 0 < l.steps then refuse q .state s
    else if extrasAbove s l then refuse q .state s
    else
      let l := { l with farePart := 0, extrasTotal := 0, reg := 0, voided := true, tip := l.tip.map (fun _ => 0) }
      accept q [] (closeLeg i l s)) s

/-- VOID (R59). -/
def execVoid (s : State) : Out := takes .void voidBody s

/-! ### EXTRA and FLAT (R60, R61) -/

/-- The states in which EXTRA and FLAT are refused. -/
def Leg.fareFixed (l : Leg) : Bool :=
  decide (l.phase = .paying) || decide (l.phase = .closing)
    || (decide (l.phase = .held) && !l.tenders.isEmpty)

/-- FARE changed a leg's total: FARE_SHOW, and while HELD a new offer (R73, 06 R117). -/
def totalChanged (i : Fin 4) (l : Leg) (s : State) : State :=
  let s := showLeg i (setLeg i l s)
  if l.phase = .held then offerLeg i s else s

def extraBody (q : QFrame) (_ : Station) (s : State) : State :=
  withLeg q (fun i l s =>
    if l.fareFixed then refuse q .state s
    else
      let k := q.at 2 1
      match (if k < 8 then extraKind s k else none) with
      | none => refuse q .range s
      | some x =>
        let n := l.extraCounts.getD k 0
        if n < x.max then
          accept q (legValue l ++ le 1 k ++ le 1 (n + 1))
            (totalChanged i (Leg.addExtra x.amount { l with extraCounts := l.extraCounts.set k (n + 1) }) s)
        else accept q (legValue l ++ le 1 k ++ le 1 n) s) s

/-- EXTRA (R60). -/
def execExtra (s : State) : Out := takes .extra extraBody s

def flatBody (q : QFrame) (_ : Station) (s : State) : State :=
  withLeg q (fun i l s =>
    if l.fareFixed then refuse q .state s
    else
      let z := q.at 2 1
      match (if z < 6 then zoneFare s z else none) with
      | none => refuse q .range s
      | some f => accept q [] (totalChanged i (l.convert z f) s)) s

/-- FLAT (R61). -/
def execFlat (s : State) : Out := takes .flat flatBody s

end Sys2Proof.Machine
end

