-- ==== Sys2Proof/Machine/Pay.lean ====
section
/-!
DEFINITION. Settlement (06): claims, card attempts and their deadlines, late results, cash, tips and the
settlement of a leg.
-/

namespace Sys2Proof.Machine

def claimTime : Moment := seconds 60
def attemptTime : Moment := seconds 90

/-- The station of an address and a role holds the leg's claim: the two are its identity as holder (R99). -/
def Leg.heldBy (l : Leg) (a : Nat) (r : Role) : Bool := l.claim.any (fun c => decide (c.holder = a ∧ c.role = r))

/-! ### PAY_CLAIM and its deadline (R99, R100) -/

def payClaimBody (q : QFrame) (e : Station) (s : State) : State :=
  withLeg q (fun i l s =>
    if l.phase ≠ .held then refuse q .state s
    else if l.claim.isSome ∧ !l.heldBy q.src e.role then refuse q .claimed s
    else
      let fresh := l.claim.isNone
      let s := setLeg i { l with claim := some ⟨q.src, e.role, some (s.time + claimTime)⟩ } s
      accept q (legValue l ++ le 4 60) (if fresh then offerLeg i s else s)) s

/-- PAY_CLAIM (R99). -/
def execPayClaim (s : State) : Out := takes .payClaim payClaimBody s

/-- A claim on a HELD leg is released, and a PAY_OFFER with no holder is placed (R100). -/
def releaseClaim (i : Fin 4) (s : State) : State := offerLeg i (endClaim i s)

/-- The deadline of the claim on the leg in a slot, while it runs (R100). -/
def claimDue (s : State) (i : Fin 4) : Option Moment :=
  (legAt s i).bind (fun l => if l.phase = .held then l.claim.bind (·.deadline) else none)

def claimDeadlineBody (i : Fin 4) (s : State) : State :=
  match claimDue s i with
  | none => s
  | some due => releaseClaim i (passTo due s)

/-- CLAIM_DEADLINE (R100). -/
def execClaimDeadline (i : Fin 4) (s : State) : Out := whenActive (fun s => letGo (claimDeadlineBody i s)) s

/-- LIF tells PAY that an entry has become ABSENT (R101): its claims on HELD legs are released. -/
def holderAbsent (a : Nat) (s : State) : State :=
  allSlots.foldl (fun s i => match legAt s i with
    | none => s
    | some l => if l.phase = .held ∧ claimHeldBy l a then releaseClaim i s else s) s

/-! ### PAY_START (R103, R104) -/

/-- The tip field: NONE, or a tip (11). -/
def QFrame.startTip (q : QFrame) : Option Nat := if q.at 3 4 = 4294967295 then none else some (q.at 3 4)

/-- The due with the request's tip taken in (R103). -/
def dueWithTip (l : Leg) (tip : Option Nat) : Nat :=
  match tip with
  | some t => if l.tenders.isEmpty then l.total + t else l.due
  | none => l.due

/-- The checks of a PAY_START from a station of role r, in order (R103). -/
def startRefusal (q : QFrame) (r : Role) (l : Leg) : Option RefusalCode :=
  let due := dueWithTip l q.startTip
  if !l.heldBy q.src r then some .notHolder
  else if l.phase ≠ .held then some .state
  else if q.at 2 1 ≠ l.attempts.length + 1 then some .range
  else if 8 ≤ l.attempts.length then some .limit
  else if q.startTip.any (fun t => decide (99999 < t)) then some .range
  else if !l.tenders.isEmpty ∧ q.startTip.any (fun t => decide (t ≠ l.tip.getD 0)) then some .state
  else if q.at 7 4 = 0 ∨ due < q.at 7 4 then some .range
  else if 3 ≤ l.tenders.length ∧ q.at 7 4 ≠ due then some .limit
  else none

/-- The leg once the attempt has started (R104): the tip, the attempt, the claim without a deadline. -/
def startedLeg (q : QFrame) (now : Moment) (l : Leg) : Leg :=
  { l with
    phase := .paying
    tip := if l.tenders.isEmpty then q.startTip.orElse (fun _ => l.tip) else l.tip
    attempts := l.attempts ++ [⟨q.at 2 1, q.src, q.at 7 4, .inFlight (now + attemptTime)⟩]
    claim := l.claim.map (fun c => { c with deadline := none }) }

/-- What an accepted PAY_START answers (R104, 6): the leg, the attempt, the amount, the tip and the due. DESIGN CHOICE
(log 53): an absent tip is answered as 0. -/
def startValues (q : QFrame) (l : Leg) : List Byte :=
  legValue l ++ le 1 (q.at 2 1) ++ money (q.at 7 4) ++ money (l.tip.getD 0) ++ money l.due

def payStartBody (q : QFrame) (e : Station) (s : State) : State :=
  withLeg q (fun i l s =>
    match startRefusal q e.role l with
    | some c => refuse q c s
    | none =>
      let l := startedLeg q s.time l
      let s := withdrawOffer i (showLeg i (setLeg i l s))
      accept q (startValues q l) s) s

/-- PAY_START (R103, R104). -/
def execPayStart (s : State) : Out := takes .payStart payStartBody s

/-! ### The ends of an attempt -/

/-- The state of one attempt of a leg changes. -/
def Leg.setAttempt (n : Nat) (st : AttemptState) (l : Leg) : Leg :=
  { l with attempts := l.attempts.map (fun a => if a.number = n then { a with state := st } else a) }

def Leg.findAttempt (l : Leg) (n : Nat) : Option Attempt := l.attempts.find? (fun a => a.number = n)

/-- The leg's attempt in flight, with its deadline (R102). -/
def Leg.flying (l : Leg) : Option (Attempt × Moment) :=
  l.attempts.findSome? (fun a => match a.state with
    | .inFlight d => some (a, d)
    | _ => none)

/-- The leg returned to HELD with its claim's new deadline (R100, R106, R107). -/
def Leg.backToHeld (now : Moment) (l : Leg) : Leg :=
  { l with phase := .held, claim := l.claim.map (fun c => { c with deadline := some (now + claimTime) }) }

/-- A leg is settled (R116): the claim ends, the offer is withdrawn, FARE closes the leg, PAID is asked for. -/
def settle (i : Fin 4) (s : State) : State :=
  let s := withdrawOffer i (endClaim i s)
  match legAt s i with
  | none => s
  | some l =>
    let s := closeLeg i l s
    askPrompt .paid (promptSpeaker s l) s

/-- A CARD tender of an attempt joins the tenders. -/
def Leg.cardTender (n amount : Nat) (reference : List Byte) (l : Leg) : Leg :=
  { l with tenders := l.tenders ++ [⟨.card n reference, amount⟩] }

/-- The due of the leg in a slot. -/
def dueAt (s : State) (i : Fin 4) : Nat := ((legAt s i).map Leg.due).getD 0

/-- The values of an answered result: leg, attempt, tender amount, due, settled flag (R106, R107). -/
def resultValues (leg attempt amount due : Nat) (settled : Bool) : List Byte :=
  le 2 leg ++ le 1 attempt ++ money amount ++ money due ++ [flagByte settled]

/-- An approval for the attempt in flight (R106). -/
def cardApproval (q : QFrame) (i : Fin 4) (l : Leg) (a : Attempt) (approved : Nat) (reference : List Byte)
    (s : State) : State :=
  if 3 ≤ l.tenders.length ∧ approved < a.requested then refuse q .limit s
  else
    let amount := min approved a.requested
    let l := (l.cardTender a.number amount reference).setAttempt a.number .approved
    let s := showLeg i (setLeg i l s)
    if l.due = 0 then accept q (resultValues l.number a.number amount 0 true) (settle i s)
    else
      let s := showLeg i (setLeg i (l.backToHeld s.time) s)
      accept q (resultValues l.number a.number amount l.due false) (offerLeg i s)

/-- A decline or cancel of the attempt in flight (R107), without its answer. -/
def cardDecline (i : Fin 4) (l : Leg) (a : Attempt) (outcome : AttemptState) (s : State) : State :=
  let s := askPrompt .declined (promptSpeaker s l) s
  offerLeg i (showLeg i (setLeg i ((l.setAttempt a.number outcome).backToHeld s.time) s))

/-! ### Late results (R110–R113) -/

/-- A late approval is listed (R112), and answered TOO_LATE. -/
def listLate (q : QFrame) (leg attempt amount : Nat) (reference : List Byte) (s : State) : State :=
  let s := dropUnresolved leg attempt (enterLate ⟨leg, attempt, amount, reference⟩ s)
  refuse q .tooLate (claimEventIfOpen s.odo.clock (.lateApproval leg attempt amount) s)

/-- The values of an applied late approval: tender amount, due, settled flag (R111). -/
def appliedValues (amount due : Nat) : List Byte := money amount ++ money due ++ [flagByte (decide (due = 0))]

/-- A late approval applied to a HELD leg (R111, first row). -/
def applyLate (q : QFrame) (i : Fin 4) (l : Leg) (a : Attempt) (amount : Nat) (reference : List Byte)
    (s : State) : State :=
  let l := (l.cardTender a.number amount reference).setAttempt a.number .approvedLate
  let s := showLeg i (dropUnresolved l.number a.number (setLeg i l s))
  let answer := appliedValues amount l.due
  if l.due = 0 then accept q answer (settle i s) else accept q answer (offerLeg i s)

/-- A late approval for an INDETERMINATE attempt of a leg in the table (R111). -/
def lateApproval (q : QFrame) (i : Fin 4) (l : Leg) (a : Attempt) (approved : Nat) (reference : List Byte)
    (s : State) : State :=
  let amount := min approved a.requested
  let listed :=
    listLate q l.number a.number amount reference (setLeg i (l.setAttempt a.number .approvedLate) s)
  match l.phase with
  | .held =>
    if amount ≤ l.due ∧ (l.tenders.length < 3 ∨ amount = l.due) then applyLate q i l a amount reference s
    else listed
  | .paying => refuse q .busy s
  | .opened => refuse q .state s
  | .closing => listed

/-- The answer to a late decline: leg, attempt and a tender amount of 0 (R113). -/
def lateDeclineValues (leg attempt : Nat) : List Byte := le 2 leg ++ le 1 attempt ++ money 0

/-! ### PAY_RESULT (R105) -/

inductive ResultOutcome
  | approved
  | declined
  | cancelled
  deriving DecidableEq, Repr

def ResultOutcome.ofCode : Nat → Option ResultOutcome
  | 1 => some .approved
  | 2 => some .declined
  | 3 => some .cancelled
  | _ => none

/-- The outcome of a PAY_RESULT, if it passes check 1 of R105. -/
def QFrame.result (q : QFrame) : Option ResultOutcome :=
  match ResultOutcome.ofCode (q.at 3 1) with
  | some .approved => if q.at 4 4 = 0 then none else some .approved
  | o => o

/-- The state an attempt takes from a result that is no approval. -/
def ResultOutcome.attempt : ResultOutcome → AttemptState
  | .cancelled => .cancelled
  | _ => .declined

/-- The reference of an approval (11.2). -/
def QFrame.reference (q : QFrame) : List Byte := (q.payload.drop 8).take 6

/-- A result from a station of role r for an attempt of a leg in the table (R105). DESIGN CHOICE (log 51): the station that
started an INDETERMINATE attempt is known by its address alone. -/
def resultOnLeg (q : QFrame) (r : Role) (i : Fin 4) (l : Leg) (a : Attempt) (s : State) : State :=
  match q.result with
  | none => refuse q .range s
  | some o => match a.state with
    | .inFlight _ =>
      if !l.heldBy q.src r then refuse q .notHolder s
      else if o = .approved then cardApproval q i l a (q.at 4 4) q.reference s
      else
        accept q (resultValues l.number a.number 0 l.due false) (cardDecline i l a o.attempt s)
    | .indeterminate =>
      if a.starter ≠ q.src then refuse q .notHolder s
      else if o = .approved then lateApproval q i l a (q.at 4 4) q.reference s
      else
        accept q (lateDeclineValues l.number a.number)
          (dropUnresolved l.number a.number (setLeg i (l.setAttempt a.number o.attempt) s))
    | _ => refuse q .state s

/-- A result for a leg that no slot holds (R110): its unresolved entry is looked for. -/
def resultOnClosed (q : QFrame) (s : State) : State :=
  match findUnresolved s q.leg (q.at 2 1) with
  | none => refuse q .unknownLeg s
  | some u => match q.result with
    | none => refuse q .range s
    | some o =>
      if u.station ≠ q.src then refuse q .notHolder s
      else if o = .approved then listLate q u.leg u.attempt (min (q.at 4 4) u.requested) q.reference s
      else accept q (lateDeclineValues u.leg u.attempt) (dropUnresolved u.leg u.attempt s)

def payResultBody (q : QFrame) (e : Station) (s : State) : State :=
  match findLeg s q.leg with
  | none => resultOnClosed q s
  | some i => match legAt s i with
    | none => resultOnClosed q s
    | some l => match l.findAttempt (q.at 2 1) with
      | none => refuse q .unknownLeg s
      | some a => resultOnLeg q e.role i l a s

/-- PAY_RESULT (R105). -/
def execPayResult (s : State) : Out := takes .payResult payResultBody s

/-! ### PAY_CANCEL (R108) -/

def payCancelBody (q : QFrame) (e : Station) (s : State) : State :=
  withLeg q (fun i l s =>
    if l.phase ≠ .held ∧ l.phase ≠ .paying then refuse q .state s
    else if !l.heldBy q.src e.role then refuse q .notHolder s
    else if l.phase = .held then accept q (legValue l) (releaseClaim i s)
    else match l.flying with
      | none => accept q (legValue l) s
      | some (a, _) => accept q (legValue l) (cardDecline i l a .cancelled s)) s

/-- PAY_CANCEL (R108). -/
def execPayCancel (s : State) : Out := takes .payCancel payCancelBody s

/-! ### The attempt deadline (R109) -/

/-- Steps 1 to 4 of R109: INDETERMINATE, HELD, the claim released, the unresolved entry handed to ACC. -/
def runOut (i : Fin 4) (l : Leg) (a : Attempt) (s : State) : State :=
  let s := setLeg i { l.setAttempt a.number .indeterminate with phase := .held } s
  joinUnresolved ⟨l.number, a.number, a.requested, a.starter⟩ (endClaim i (showLeg i s))

/-- The attempt in flight of the leg in a slot, with its deadline. -/
def flyingAt (s : State) (i : Fin 4) : Option (Leg × Attempt × Moment) :=
  (legAt s i).bind (fun l => if l.phase = .paying then l.flying.map (fun f => (l, f)) else none)

def attemptDeadlineBody (i : Fin 4) (s : State) : State :=
  match flyingAt s i with
  | none => s
  | some (l, a, due) =>
    let s := runOut i l a (passTo due s)
    offerLeg i (askPrompt .timeout (promptSpeaker s l) s)

/-- ATTEMPT_DEADLINE (R109). -/
def execAttemptDeadline (i : Fin 4) (s : State) : Out := whenActive (fun s => letGo (attemptDeadlineBody i s)) s

/-! ### CASH and TIP (R114, R115) -/

/-- The checks of a CASH, in order (R114). -/
def cashRefusal (received : Nat) (l : Leg) : Option RefusalCode :=
  if l.phase ≠ .held then some .state
  else if 99999999 < received ∨ (received = 0 ∧ 0 < l.due) then some .range
  else if 3 ≤ l.tenders.length ∧ received < l.due then some .limit
  else none

/-- The leg with a CASH tender of an amount; none is made of an amount of 0 (R115). -/
def Leg.cashTender (amount : Nat) (l : Leg) : Leg :=
  if amount = 0 then l else { l with tenders := l.tenders ++ [⟨.cash, amount⟩] }

def cashBody (q : QFrame) (_ : Station) (s : State) : State :=
  withLeg q (fun i l s =>
    let received := q.at 2 4
    match cashRefusal received l with
    | some c => refuse q c s
    | none =>
      let amount := min received l.due
      let l' := l.cashTender amount
      let s := setLeg i l' s
      let s := endClaim i (if amount = 0 then s else showLeg i s)
      let answer := legValue l ++ money amount ++ money (received - amount) ++ money l'.due
        ++ [flagByte (decide (l'.due = 0))]
      accept q answer (if l'.due = 0 then settle i s else offerLeg i s)) s

/-- CASH (R114, R115). -/
def execCash (s : State) : Out := takes .cash cashBody s

def tipBody (q : QFrame) (_ : Station) (s : State) : State :=
  withLeg q (fun i l s =>
    if l.phase ≠ .held ∨ !l.tenders.isEmpty then refuse q .state s
    else if 99999 < q.at 2 4 then refuse q .range s
    else
      let l := { l with tip := some (q.at 2 4) }
      accept q (legValue l ++ money (q.at 2 4) ++ money l.due) (offerLeg i (showLeg i (setLeg i l s)))) s

/-- TIP (R114). -/
def execTip (s : State) : Out := takes .tip tipBody s

end Sys2Proof.Machine
end

