-- ==== Sys2Proof/Machine/Calls.lean ====
section
/-!
DEFINITION. The intercom's requests and reports (07.3–07.5): CALL, ANSWER, END_CALL, TALK and PRIVACY.
-/

namespace Sys2Proof.Machine

/-! ### CALL (R126–R128) -/

/-- A port joins the call queue, and the arbiter may grant it at once (R126, R127). -/
def joinCalls (p : Port) (a : Nat) (urgent : Bool) (s : State) : State :=
  let before := s.icm.queue
  let s := { s with icm.queue := insertEntry ⟨p, a, urgent, s.icm.arrivals⟩ before
                    icm.arrivals := s.icm.arrivals + 1 }
  arbitrate (noticeMoved (before ++ [⟨p, a, urgent, 0⟩]) (enterPhase p .queued .none s))

/-- A queued entry is raised to URGENT and takes its place by its arrival (R126, R127). -/
def raiseUrgent (p : Port) (s : State) : State :=
  match s.icm.queue.find? (fun e => e.port = p) with
  | none => s
  | some e =>
    if e.urgent then s
    else
      let before := s.icm.queue
      let raised : QEntry := { e with urgent := true }
      let s := { s with icm.queue := insertEntry raised (before.filter (fun x => decide (x.port ≠ p))) }
      noticeMoved before (noticeCall p s)

def callBody (q : QFrame) (e : Station) (s : State) : State :=
  match (if e.present then e.port else none), q.at 0 1 with
  | some p, 1 => if callPhase s p = .idle then joinCalls p q.src false s else s
  | some p, 2 => match callPhase s p with
    | .idle => joinCalls p q.src true s
    | .queued => raiseUrgent p s
    | _ => s
  | some p, 3 => match callPhase s p with
    | .queued => leaveQueue p (enterPhase p .idle .ended s)
    | .ringing => release p .ended s
    | .linked => release p .ended s
    | _ => s
  | _, _ => s

/-- CALL (R126). -/
def execCall (s : State) : Out := takes .call callBody s

/-! ### ANSWER and END_CALL (R130, R131) -/

def answerBody (q : QFrame) (_ : Station) (s : State) : State :=
  match ringingPort s with
  | none => refuse q .state s
  | some p => accept q (le 1 p.number) (link p s)

/-- ANSWER (R130). -/
def execAnswer (s : State) : Out := takes .answer answerBody s

def endCallBody (q : QFrame) (_ : Station) (s : State) : State :=
  match grantedPort s with
  | none => refuse q .state s
  | some p =>
    let s := if callPhase s p = .releasing then s else release p .ended s
    accept q (le 1 p.number ++ le 1 (callPhase s p).code) s

/-- END_CALL (R131). -/
def execEndCall (s : State) : Out := takes .endCall endCallBody s

/-! ### TALK and PRIVACY (R135–R137) -/

/-- The target of a TALK DOWN (11.2). -/
def talkTarget : Nat → Option TalkTarget
  | 1 => some (.one .a1)
  | 2 => some (.one .a2)
  | 3 => some (.one .a3)
  | 4 => some .all
  | _ => none

def talkBody (q : QFrame) (_ : Station) (s : State) : State :=
  match q.at 0 1 with
  | 1 => match talkTarget (q.at 1 1) with
    | none => refuse q .range s
    | some .all => accept q [1, 4] { s with icm.talk := .down .all }
    | some (.one p) =>
      if bound s p then accept q [1, BitVec.ofNat 8 p.number] { s with icm.talk := .down (.one p) }
      else refuse q .absent s
  | 2 => accept q [2, 0] { s with icm.talk := .up }
  | _ => refuse q .range s

/-- TALK (R135); the coding of its answer is log 20. -/
def execTalk (s : State) : Out := takes .talk talkBody s

def privacyBody (q : QFrame) (_ : Station) (s : State) : State :=
  match q.at 0 1 with
  | 1 => accept q [1, flagByte s.icm.forced] { s with icm.privacy := true }
  | 2 =>
    if s.icm.forced then refuse q .state s
    else
      let s := { s with icm.privacy := false }
      accept q [0, 0] (match ringingPort s with
        | some p => link p s
        | none => s)
  | _ => refuse q .range s

/-- PRIVACY (R136). -/
def execPrivacy (s : State) : Out := takes .privacy privacyBody s

end Sys2Proof.Machine
end

