-- ==== Sys2Proof/Machine/Tariff.lean ====
section
/-!
DEFINITION. The tariff store (03): sections and their ranges, the tariff area and its read, the calibration window,
and the commands that load and commit a set.
-/

namespace Sys2Proof.Machine

/-! ### Sections (R36–R38, 11.5) -/

def inRange (lo hi v : Nat) : Bool := decide (lo ≤ v ∧ v ≤ hi)

/-- A section code with its indices and the LEN of its TARIFF_PART (R199). -/
def sectionForm : Nat → Option (Nat × Nat)
  | 1 => some (1, 10)
  | 2 => some (4, 20)
  | 3 => some (8, 6)
  | 4 => some (8, 8)
  | 5 => some (6, 6)
  | _ => none

/-- The fields of a section are in range (R36, R37, R38), read from position i. -/
def fieldsOk (code : Nat) (b : List Byte) (i : Nat) : Bool :=
  match code with
  | 1 =>
    inRange 1000 20000 (field b i 2) && inRange 1 3 (field b (i + 2) 1) && inRange 1 4 (field b (i + 3) 1)
      && inRange 0 1 (field b (i + 4) 1) && inRange 0 1 (field b (i + 5) 1)
  | 2 =>
    inRange 1 2 (field b i 1) && inRange 0 99999 (field b (i + 1) 4) && inRange 0 50 (field b (i + 5) 1)
      && inRange 1 9999 (field b (i + 6) 2) && inRange 10 500 (field b (i + 8) 2)
      && inRange 5 300 (field b (i + 10) 2) && inRange 1 1000 (field b (i + 12) 2)
      && inRange 1 1000 (field b (i + 14) 2) && inRange 1 1000 (field b (i + 16) 2)
  | 3 => inRange 1 127 (field b i 1) && inRange 0 1439 (field b (i + 1) 2) && inRange 0 3 (field b (i + 3) 1)
  | 4 => inRange 0 99999 (field b i 4) && inRange 1 99 (field b (i + 4) 1) && inRange 0 1 (field b (i + 5) 1)
  | 5 => inRange 1 999999 (field b i 4)
  | _ => false

/-- The fields of a section as a PART row holds them, from byte 8 (11.5). -/
def generalOf (b : List Byte) : General where
  K := field b 8 2
  mode := match field b 10 1 with
    | 2 => .falling
    | 3 => .both
    | _ => .rising
  cp := field b 11 1
  sharing := decide (field b 12 1 = 1)
  watch := decide (field b 13 1 = 1)
  mask := BitVec.ofNat 16 (field b 14 2)

def ratesOf (b : List Byte) : BandRates where
  double := decide (field b 8 1 = 2)
  F := field b 9 4
  N := field b 13 1
  U := field b 14 2
  Ds := field b 16 2
  Ts := field b 18 2
  f2 := field b 20 2
  f3 := field b 22 2
  f4 := field b 24 2

def switchOf (b : List Byte) : SwitchPoint :=
  ⟨BitVec.ofNat 7 (field b 8 1), field b 9 2, field b 11 1⟩

def extraOf (b : List Byte) : ExtraKind := ⟨field b 8 4, field b 12 1, decide (field b 13 1 = 1)⟩

def zoneOf (b : List Byte) : Nat := field b 8 4

/-! ### The tariff area and its live rows (R39) -/

/-- The listed rows of the area, rows 0–31; a row not listed is FREE. -/
def areaRows (m : Memory) : List (Nat × Row) := m.filter (fun e => decide (e.1 < 32))

def isPart (x : Row) : Bool := readable x && decide (readableHeader x = some headerPart)
def isCommit (x : Row) : Bool := readable x && decide (readableHeader x = some headerCommit)

/-- The superseded mark: any reading of word 63 but erased (11 R200). -/
def marked (x : Row) : Bool := !wordErased (rowWord x 63)

/-- The section and index of a PART row (11.5). -/
def sectionOf (x : Row) : Nat × Nat := (field (rowBytes x) 6 1, field (rowBytes x) 7 1)

/-- A readable part row with no superseded mark. -/
def livePart (x : Row) : Bool := isPart x && !marked x

/-- The live rows among rows in row order: of each section and index the unmarked part row at the highest row
number (R39). -/
def liveRows : List (Nat × Row) → List (Nat × Row)
  | [] => []
  | (r, x) :: rest =>
    if livePart x && !(rest.any (fun e => livePart e.2 && decide (sectionOf e.2 = sectionOf x))) then
      (r, x) :: liveRows rest
    else liveRows rest

/-- The content words of a row, words 3–62 (11 R200). -/
def contentSum (x : Row) : Nat := (((x.drop 3).take 60).map (fun w => (wordValue w).toNat)).sum

/-- The content sum of rows: a 32-bit wrapping sum (R39). -/
def contentSums (rows : List (Nat × Row)) : Nat := (rows.map (fun e => contentSum e.2)).sum % 4294967296

/-- The bytes of the live row of a section and index, if there is one. -/
def sectionRow (live : List (Nat × Row)) (code index : Nat) : Option (List Byte) :=
  (live.find? (fun e => decide (sectionOf e.2 = (code, index)))).map (fun e => rowBytes e.2)

/-- The sections of a kind, by index. -/
def sectionRows (live : List (Nat × Row)) (code count : Nat) : List (Option (List Byte)) :=
  (List.range count).map (sectionRow live code)

/-- The set the live rows make; none without GENERAL (R36). -/
def setOf (live : List (Nat × Row)) : Option TariffSet :=
  (sectionRow live 1 0).map (fun g =>
    { general := generalOf g
      bands := ⟨(sectionRow live 2 0).map ratesOf, (sectionRow live 2 1).map ratesOf,
                (sectionRow live 2 2).map ratesOf, (sectionRow live 2 3).map ratesOf⟩
      switches := (sectionRows live 3 8).filterMap (Option.map switchOf)
      extras := (sectionRows live 4 8).map (Option.map extraOf)
      zones := (sectionRows live 5 6).map (Option.map zoneOf) })

/-- Every row before a row of the area is readable (R39, R47). -/
def readableBefore (m : Memory) (row : Nat) : Bool := (List.range row).all (fun r => readable (rowAt m r))

/-- The decision of R39: the committed set of the area, or none (log 31). -/
def committedIn (m : Memory) : Option TariffSet :=
  let rows := areaRows m
  (rows.find? (fun e => isCommit e.2)).bind (fun c =>
    let before := rows.filter (fun e => decide (e.1 < c.1))
    let live := liveRows before
    let b := rowBytes c.2
    if !readableBefore m c.1 then none
    else if live.length ≠ field b 6 1 ∨ !inRange 2 31 live.length then none
    else if contentSums live ≠ field b 8 4 then none
    else setOf live)

/-- The faults of reading rows: each raises by its class (R39, 09 R164). -/
def raiseReads (rows : List (Nat × Row)) (s : State) : State :=
  rows.foldl (fun s e => raiseRead (classify e.2) s) s

/-- TAR hands its users the set, or the no-tariff values: CAB's watches and the sign's Cp follow (R46). The
other users read the committed set where they need it. -/
def handOver (t : Option TariffSet) (s : State) : State :=
  recomputeSign (restWatches { s with tar.committed := t })

/-- TAR reads the tariff area (R39). -/
def readTariff (s : State) : State := handOver (committedIn s.array) (raiseReads (areaRows s.array) s)

/-- The window at a start (R40). -/
def startWindow (s : State) : Window := if s.odo.calStrap && !shiftIsOpen s then .opened else .closed

/-! ### The checks before a request's own (R41) -/

def windowRefusal (begun : Bool) (s : State) : Option RefusalCode :=
  match s.tar.window with
  | .closed => some .state
  | .erasing => some .busy
  | .writing => some .busy
  | .opened => if begun then none else some .state
  | .loading => none

/-! ### TARIFF_BEGIN (R42) -/

def tariffBeginBody (q : QFrame) (_ : Station) (s : State) : State :=
  match windowRefusal true s with
  | some c => refuse q c s
  | none =>
    requestOp (.tariffErase 0 q.src) (handOver none { s with tar.window := .erasing, tar.written := 0 })

/-- TARIFF_BEGIN (R42); its ACCEPTED is placed when the erase starts. -/
def execTariffBegin (s : State) : Out := takes .tariffBegin tariffBeginBody s

/-- A completion of an array operation: it comes in ACTIVE, and in ENTERING for the operation that was in flight at
the loss (10 R188). -/
def whenPowered (f : State → State) (s : State) : Out :=
  .next (if s.pwr.state = .active ∨ s.pwr.state = .entering then f s else s)

/-- TARIFF_ERASE_COMPLETE (R42): sector 1 follows sector 0, in ENTERING at once (R47, log 19). -/
def tariffEraseBody (s : State) : State :=
  match s.jnl.inFlight with
  | some (.tariffErase c asker) =>
    let s := completeOp { s with array := eraseRows s.array c }
    if c = 0 then
      if s.pwr.state = .active then startNext (requestOp (.tariffErase 1 asker) s)
      else { s with jnl.inFlight := some (.tariffErase 1 asker) }
    else startNext { s with tar.window := .loading, tar.written := 0 }
  | _ => s

def execTariffEraseComplete (s : State) : Out := whenPowered tariffEraseBody s

/-! ### TARIFF_PART (R43) -/

def partRefusal (q : QFrame) (s : State) : Option RefusalCode :=
  match windowRefusal false s with
  | some c => some c
  | none => match sectionForm (q.at 0 1) with
    | none => some .range
    | some (indices, len) =>
      if indices ≤ q.at 1 1 ∨ q.payload.length ≠ len then some .range
      else if !fieldsOk (q.at 0 1) q.payload 2 then some .range
      else if 31 ≤ s.tar.written then some .limit
      else none

def tariffPartBody (q : QFrame) (_ : Station) (s : State) : State :=
  match partRefusal q s with
  | some c => refuse q c s
  | none => requestOp (.tariffPart s.tar.written q.payload q.src) { s with tar.window := .writing }

/-- TARIFF_PART (R43). -/
def execTariffPart (s : State) : Out := takes .tariffPart tariffPartBody s

/-- The part row that a new row replaces: the live row of its section and index before it (R43). -/
def replacedRow (m : Memory) (row : Nat) : Option Nat :=
  ((liveRows ((areaRows m).filter (fun e => decide (e.1 < row)))).find?
    (fun e => decide (sectionOf e.2 = sectionOf (rowAt m row)))).map (·.1)

/-- The answer of a load's write: the window returns to LOADING and ACCEPTED is placed (R43). -/
def partWritten (asker : Nat) (s : State) : State :=
  placeReply ⟨asker, ReqKind.tariffPart.code, .accepted []⟩ { s with tar.window := .loading }

/-- TARIFF_PART_PROGRAM_COMPLETE (R43): the mark of a replaced row is programmed next. -/
def tariffPartProgramBody (s : State) : State :=
  match s.jnl.inFlight with
  | some (.tariffPart row content asker) =>
    let s := completeOp { s with array := programRow s.array row (rowOfPart row content)
                                 tar.written := s.tar.written + 1 }
    startNext (match replacedRow s.array row with
      | some r => requestOp (.tariffMark r asker) s
      | none => partWritten asker s)
  | _ => s

def execTariffPartProgramComplete (s : State) : Out := whenPowered tariffPartProgramBody s

/-- TARIFF_MARK_PROGRAM_COMPLETE (R43, 11 R200). -/
def tariffMarkBody (s : State) : State :=
  match s.jnl.inFlight with
  | some (.tariffMark row asker) =>
    startNext (partWritten asker (completeOp { s with array := programMark s.array row }))
  | _ => s

def execTariffMarkProgramComplete (s : State) : Out := whenPowered tariffMarkBody s

/-! ### TARIFF_COMMIT (R44) -/

/-- A band's shares are ordered (R37). -/
def BandRates.ordered (r : BandRates) : Bool := decide (r.f3 ≤ r.f2 ∧ r.f4 ≤ r.f3)

def bandIn (t : TariffSet) (b : Nat) : Bool := (t.bands.get (bandOf b)).isSome

/-- The rows written in this load (R44). -/
def loadRows (s : State) : List (Nat × Row) := (areaRows s.array).filter (fun e => decide (e.1 < s.tar.written))

/-- The four checks of R44, in order. -/
def commitOk (s : State) : Bool :=
  match setOf (liveRows (loadRows s)) with
  | none => false
  | some t =>
    t.bands.s0.isSome && t.switches.all (fun p => bandIn t p.band)
      && t.bands.toList.all (fun r => r.all BandRates.ordered)

def tariffCommitBody (q : QFrame) (_ : Station) (s : State) : State :=
  match windowRefusal false s with
  | some c => refuse q c s
  | none =>
    if commitOk s then
      let live := liveRows (loadRows s)
      requestOp (.tariffCommit s.tar.written live.length (contentSums live) q.src) { s with tar.window := .writing }
    else refuse q .range s

/-- TARIFF_COMMIT (R44). -/
def execTariffCommit (s : State) : Out := takes .tariffCommit tariffCommitBody s

/-- TARIFF_COMMIT_PROGRAM_COMPLETE (R44). In ENTERING only the row is written (R47). -/
def tariffCommitProgramBody (us : List Upset) (s : State) : State :=
  match s.jnl.inFlight with
  | some (.tariffCommit row count sum asker) =>
    let s := completeOp { s with array := withUpsets (programRow s.array row (rowOfCommit row count sum)) us
                                 tar.written := s.tar.written + 1 }
    if s.pwr.state = .active then
      let s := readTariff s
      let answer : Answer := if s.tar.committed.isSome then .accepted [] else .refused .range
      startNext (placeReply ⟨asker, ReqKind.tariffCommit.code, answer⟩ { s with tar.window := .closed })
    else s
  | _ => s

/-- A command that brings array upsets stops where one names a row or word the array does not have (log 12). -/
def withArray (us : List Upset) (o : Out) : Out :=
  match badUpset us with
  | some u => .fault (.outsideArray u.row u.word)
  | none => o

def execTariffCommitProgramComplete (us : List Upset) (s : State) : Out :=
  withArray us (whenPowered (tariffCommitProgramBody us) s)

end Sys2Proof.Machine
end

