-- ==== Sys2Proof/Machine/Odo.lean ====
section
/-!
DEFINITION. The direct lines and the fare tick (02): the pulse input and its counter, the tick handed to FARE, ACC
and CAB, the assist detector, the POWER_GOOD level, and CAB's own requests and timers (05).
-/

namespace Sys2Proof.Machine

/-! ### The pulse input (R22, R23) -/

def pulseHold : Moment := microseconds 20

/-- The detection mode in force: RISING while no tariff is committed (R22). -/
def edgeMode (s : State) : EdgeMode :=
  match s.tar.committed with
  | some t => t.general.mode
  | none => .rising

/-- The mode counts an edge to a level (R22). -/
def EdgeMode.counts (m : EdgeMode) (high : Bool) : Bool :=
  match m with
  | .rising => high
  | .falling => !high
  | .both => true

/-- A change of the raw level: while ACTIVE the qualification of a new level starts, or is ended by the return to
the old one (R22). -/
def pulseInputBody (high : Bool) (s : State) : State :=
  if high = s.odo.pulseLevel then s
  else
    let s := { s with odo.pulseLevel := high }
    if s.pwr.state = .active then
      { s with odo.pulseFrom := if high = s.odo.pulseQualified then none else some s.time }
    else s

/-- PULSE_INPUT_CHANGE (R22). -/
def execPulseInputChange (high : Bool) (s : State) : Out := .next (pulseInputBody high s)

/-- The new level has held for 20 µs: it is taken, and its edge is counted by the mode (R22, R23). -/
def pulseEdgeBody (s : State) : State :=
  match s.odo.pulseFrom with
  | none => s
  | some from' =>
    let high := s.odo.pulseLevel
    passTo (from' + pulseHold)
      { s with odo.pulseQualified := high, odo.pulseFrom := none
               odo.pulseCount :=
                 if (edgeMode s).counts high then min 65535 (s.odo.pulseCount + 1) else s.odo.pulseCount }

/-- PULSE_EDGE (R22). -/
def execPulseEdge (s : State) : Out := whenActive pulseEdgeBody s

/-! ### The fare tick (R23–R26) -/

def tickTime : Moment := milliseconds 100

/-- The moving test (R25): false with no committed tariff. -/
def movingNow (s : State) : Bool :=
  match s.tar.committed with
  | some t => decide (5 * t.general.K ≤ 3600 * s.odo.window.sum)
  | none => false

/-- p of a tick (R23). -/
def clampPulses (taken : Nat) : Nat := min 255 taken

/-- ODO's part of a fare tick (R24, steps 1 to 4). -/
def odoTick (s : State) : State :=
  let taken := s.odo.pulseCount
  let p := clampPulses taken
  let s := raiseIf (decide (255 < taken)) .pulseOverrun s
  let s := { s with odo.lastTaken := taken, odo.pulseCount := 0
                    odo.window := s.odo.window.tail ++ [p]
                    odo.odometer := (s.odo.odometer + p) % 4294967296 }
  evaluateBand { s with odo.moving := movingNow s }

/-- The whole fare tick: ODO, then FARE, ACC and CAB (R24). -/
def tickBody (s : State) : State :=
  let due := s.odo.tickDue
  let p := clampPulses s.odo.pulseCount
  watchTick (accountTick p (fareTick p (odoTick (passTo due { s with odo.tickDue := due + tickTime }))))

/-- FARE_TICK (R24). -/
def execFareTick (s : State) : Out := whenActive tickBody s

/-- The tick, if it is one at which a panel's watch fires (05 R89, log 7). -/
def watchFiresBody (panel : Nat) (s : State) : State :=
  if !watchHasFired s panel && watchHasFired (tickBody s) panel then tickBody s else s

/-- WATCH_FIRES (05 R89). -/
def execWatchFires (panel : Nat) (s : State) : Out := whenActive (watchFiresBody panel) s

/-! ### The assist input (R33) -/

def pressTime : Moment := milliseconds 200

/-- The assist detector runs while ACTIVE, through RETAIN entry and in RETAIN (R33, log 27). -/
def detectorRuns (p : Power) : Bool := clockRuns p

/-- The detector takes its state from a sample of the input (R33). -/
def sampleAssist (s : State) : State :=
  { s with odo.detector := if s.odo.assistLevel then .armed else .down }

/-- The level changes; the detector follows R33's table where it runs. -/
def assistInputBody (high : Bool) (s : State) : State :=
  if high = s.odo.assistLevel then s
  else
    let s := { s with odo.assistLevel := high }
    if detectorRuns s.pwr.state then
      if high then { s with odo.detector := .armed }
      else if s.odo.detector = .armed then { s with odo.detector := .timing, odo.assistFrom := s.time }
      else s
    else s

/-- ASSIST_INPUT_CHANGE (R33). -/
def execAssistInputChange (high : Bool) (s : State) : Out := .next (assistInputBody high s)

/-- The input has been low for 200 ms: a press, acted on while ACTIVE, and marked in RETAIN (R33, 10 R189). -/
def assistPressBody (s : State) : State :=
  let s := passTo (s.odo.assistFrom + pressTime) { s with odo.detector := .down }
  if s.pwr.state = .active then press s else retainPress s

/-- ASSIST_PRESS (05 R91, 10 R189). -/
def execAssistPress (s : State) : Out :=
  .next (if detectorRuns s.pwr.state ∧ s.odo.detector = .timing then amending assistPressBody s else s)

/-! ### The POWER_GOOD level (R34) -/

/-- A change of the level starts its measurement anew (R34). -/
def powerGoodBody (high : Bool) (s : State) : State :=
  if high = s.odo.powerGood then s else { s with odo.powerGood := high, odo.powerFrom := s.time }

/-- POWER_GOOD_CHANGE (R34). -/
def execPowerGoodChange (high : Bool) (s : State) : Out := .next (powerGoodBody high s)

/-! ### Duty and booking (05 R79, R80) -/

def bookingEnds (o : BookOutcome) (s : State) : State :=
  match s.cab.booking with
  | some r => bookingItem r o 0 { s with cab.booking := none }
  | none => s

def dutyRefusal (wanted : Nat) (s : State) : Option RefusalCode :=
  if !shiftIsOpen s then some .noShift
  else if wanted ≠ 1 ∧ wanted ≠ 2 then some .range
  else if s.cab.duty = .hired then some .state
  else if s.cab.duty = .booked ∧ wanted = 2 then some .state
  else none

/-- The effect of an accepted DUTY by the duty state it finds (05 R79). -/
def dutyEffect (wanted : Nat) (s : State) : State :=
  match s.cab.duty with
  | .vacant => if wanted = 2 then moveDuty .offDuty s else s
  | .offDuty => if wanted = 1 then moveDuty .vacant s else s
  | .booked => moveDuty .vacant (bookingEnds .cancelled s)
  | _ => s

def dutyBody (q : QFrame) (_ : Station) (s : State) : State :=
  match dutyRefusal (q.at 0 1) s with
  | some c => refuse q c s
  | none =>
    let s := dutyEffect (q.at 0 1) s
    accept q (le 1 s.cab.duty.code) s

/-- DUTY (05 R79). -/
def execDuty (s : State) : Out := takes .duty dutyBody s

inductive BookAction
  | set (reference : List Byte)
  | cancel
  deriving DecidableEq, Repr

/-- The action of a BOOK; where it and LEN disagree it is out of range (11 R199). -/
def QFrame.bookAction (q : QFrame) : Option BookAction :=
  match q.at 0 1, q.payload.length with
  | 1, 9 => some (.set (q.payload.drop 1))
  | 2, 1 => some .cancel
  | _, _ => none

def bookBody (q : QFrame) (_ : Station) (s : State) : State :=
  if !shiftIsOpen s then refuse q .noShift s
  else match q.bookAction with
    | none => refuse q .range s
    | some (.set r) =>
      if s.cab.duty = .offDuty ∨ s.cab.duty = .hired then refuse q .state s
      else
        let s := bookingEnds .replaced s
        accept q [] (moveDuty .booked { s with cab.booking := some r })
    | some .cancel =>
      if s.cab.duty ≠ .booked then refuse q .state s
      else accept q [] (moveDuty .vacant (bookingEnds .cancelled s))

/-- BOOK (05 R80). -/
def execBook (s : State) : Out := takes .book bookBody s

/-! ### Sign, seat and assist reports and timers (05 R85–R93) -/

def signResendBody (s : State) : State :=
  match s.cab.signDue with
  | none => s
  | some due =>
    let s := passTo due s
    match s.cab.sign.confirm with
    | .confirmed => s
    | .lost => restartSignTimer (placeSign s)
    | .waiting =>
      if s.cab.sign.resends < 3 then
        restartSignTimer (placeSign { s with cab.sign.resends := s.cab.sign.resends + 1 })
      else restartSignTimer (placeSign (enterLost s))

/-- SIGN_RESEND_TIMER (05 R85). -/
def execSignResendTimer (s : State) : Out := whenActive signResendBody s

/-- The distance d of a report's sequence number (05 R86). -/
def signDistance (held reported : Nat) : Nat := (held + 256 - reported) % 256

/-- A report with valid values: lamp health, then the row of R86's table that applies. -/
def signReport (shown : Pattern) (seq lamps : Nat) (s : State) : State :=
  let g := { s.cab.sign with
    front := decide (lamps % 2 = 1), rear := decide (lamps / 2 % 2 = 1), side := decide (lamps / 4 % 2 = 1) }
  let d := signDistance g.seq seq
  if d = 0 ∧ shown = g.pattern then
    restartSignTimer { s with cab.sign := { g with confirm := .confirmed, resends := 0 } }
  else if 1 ≤ d ∧ d ≤ 127 then { s with cab.sign := g }
  else if g.confirm = .confirmed then
    restartSignTimer (placeSign { s with cab.sign := { g with confirm := .waiting, resends := 0 } })
  else { s with cab.sign := g }

def signStateBody (q : QFrame) (_ : Station) (s : State) : State :=
  match Pattern.ofCode (q.at 0 1) with
  | none => s
  | some p => if q.at 2 1 < 8 then signReport p (q.at 1 1) (q.at 2 1) s else s

/-- SIGN_STATE (05 R86). -/
def execSignState (s : State) : Out := takes .signState signStateBody s

def seatBody (q : QFrame) (_ : Station) (s : State) : State :=
  match q.at 0 1 with
  | 1 => updateWatch q.src (fun w => { w with occupied := true }) s
  | 2 => updateWatch q.src (fun w => Watch.empty w.addr) s
  | _ => s

/-- SEAT (05 R88). -/
def execSeat (s : State) : Out := takes .seat seatBody s

def assistRepeatBody (s : State) : State :=
  match s.cab.repeatDue with
  | none => s
  | some due =>
    let s := passTo due s
    if s.cab.latch ∧ s.cab.ack = some .unacked then
      noticeAssist { s with cab.repeatDue := some (s.time + assistRepeat) }
    else s

/-- ASSIST_REPEAT_TIMER (05 R92). -/
def execAssistRepeatTimer (s : State) : Out := whenActive assistRepeatBody s

def assistAckBody (q : QFrame) (_ : Station) (s : State) : State :=
  if !s.cab.latch then refuse q .state s
  else if s.cab.ack = some .acked then accept q [] s
  else accept q [] (withdrawAssist { s with cab.ack := some .acked, cab.repeatDue := none })

/-- ASSIST_ACK (05 R92). -/
def execAssistAck (s : State) : Out := takes .assistAck assistAckBody s

def assistClearBody (q : QFrame) (_ : Station) (s : State) : State :=
  if !s.cab.latch then refuse q .state s
  else
    let s := { s with cab.latch := false, cab.presses := 0, cab.ack := none, cab.repeatDue := none }
    accept q [] (recomputeSign (withdrawAssist s))

/-- ASSIST_CLEAR (05 R93). -/
def execAssistClear (s : State) : Out := takes .assistClear assistClearBody s

end Sys2Proof.Machine
end

