-- ==== Sys2Proof/Machine/Shift.lean ====
section
/-!
DEFINITION. The shift requests and printer credit (08): SHIFT_OPEN, SHIFT_CLOSE and PRINT_CREDIT.
-/

namespace Sys2Proof.Machine

/-- The checks of a SHIFT_OPEN, in order (R145). -/
def openRefusal (driver : Nat) (s : State) : Option RefusalCode :=
  if s.tar.committed.isNone then some .noTariff
  else if shiftIsOpen s then some .state
  else if !inRange 1 999999 driver then some .range
  else if !directoryFree s ∨ freeRows s < 2 then some .journalFull
  else none

/-- The number after a shift number (R146). -/
def nextShift (n : Nat) : Nat := if 65535 ≤ n then 1 else n + 1

/-- An accepted SHIFT_OPEN (R146, steps 1 to 5). -/
def openShiftBody (driver : Nat) (s : State) : State :=
  let n := nextShift s.acc.lastShift
  let r : ShiftRecord := { ShiftRecord.none with
    state := .opened, number := n, driver := driver, openTime := s.odo.clock, odoOpen := s.odo.odometer }
  let s := { s with acc.shift := r, acc.lastShift := n, acc.unresolved := [], acc.late := [] }
  let s := claim (.shiftOpen ⟨n, driver, s.odo.clock, s.odo.odometer⟩) s
  let s := { s with
    tar.window := if s.tar.window = .opened then .closed else s.tar.window
    fare.lastLeg := 0 }
  moveDuty .vacant s

def shiftOpenBody (q : QFrame) (_ : Station) (s : State) : State :=
  match openRefusal (q.at 0 4) s with
  | some c => refuse q c s
  | none =>
    let s := openShiftBody (q.at 0 4) s
    accept q (le 2 s.acc.shift.number) s

/-- SHIFT_OPEN (R145, R146). -/
def execShiftOpen (s : State) : Out := takes .shiftOpen shiftOpenBody s

/-- CAB permits the close (05 R82). -/
def closePermitted (s : State) : Bool :=
  (decide (s.cab.duty = .vacant) || decide (s.cab.duty = .offDuty)) && !s.cab.latch

/-- The checks of a SHIFT_CLOSE, in order (R147). -/
def closeRefusal (s : State) : Option RefusalCode :=
  if !shiftIsOpen s then some .noShift
  else if !allFree s then some .state
  else if !closePermitted s then some .state
  else none

/-- The SHIFT_CLOSE record of a closed shift record (R148). -/
def closeRecord (r : ShiftRecord) : CloseRecord :=
  ⟨r.number, false, r.driver, r.openTime, r.closeTime.getD r.openTime, r.odoOpen, r.odoClose.getD r.odoOpen, r.totals⟩

/-- The shift record with its final values, CLOSED (R148, steps 1 and 2). -/
def closedShift (s : State) : ShiftRecord :=
  { s.acc.shift with
    state := .closed, closeTime := some s.odo.clock, odoClose := some s.odo.odometer, totals := finalTotals s }

/-- An accepted SHIFT_CLOSE (R148, steps 1 to 6). -/
def closeShiftBody (s : State) : State :=
  let r := closedShift s
  let c := closeRecord r
  let s := claim (.shiftClose c) { s with acc.shift := r }
  let s := placeReport (.report c s.acc.unresolved s.acc.late) s
  let t := r.totals
  let s := placeItem (.shiftClosed r.number r.driver s.odo.clock t.fare t.extras t.tips t.card t.cash) s
  moveDuty .noShift { s with odo.manualBand := none }

def shiftCloseBody (q : QFrame) (_ : Station) (s : State) : State :=
  match closeRefusal s with
  | some c => refuse q c s
  | none =>
    let s := closeShiftBody s
    accept q (le 2 s.acc.shift.number) s

/-- SHIFT_CLOSE (R147, R148). -/
def execShiftClose (s : State) : Out := takes .shiftClose shiftCloseBody s

/-- A credit with a count of 1–16 added, at most 32 (R159, 09 R175). -/
def addCredit (credit count : Nat) : Nat := min 32 (credit + count)

def printCreditBody (q : QFrame) (_ : Station) (s : State) : State :=
  if inRange 1 16 (q.at 0 1) then { s with acc.credit := addCredit s.acc.credit (q.at 0 1) } else s

/-- PRINT_CREDIT (R159). -/
def execPrintCredit (s : State) : Out := takes .printCredit printCreditBody s

end Sys2Proof.Machine
end

