-- ==== Sys2Proof/Machine/Readout.lean ====
section
/-!
DEFINITION. The journal's commands (09): read-out, credit and release, and the completions of the journal's
programs and erases.
-/

namespace Sys2Proof.Machine

/-! ### JOURNAL_READ (R174) -/

/-- The starting row index of a JOURNAL_READ, where it gives one (11.2). -/
def QFrame.startRow (q : QFrame) : Option Nat := if q.payload.length = 4 then some (q.at 2 2) else none

/-- The number of rows a shift has in the array (R174). -/
def rowCount (s : State) (d : DirEntry) : Nat := (shiftRows s d).length

def readRefusal (q : QFrame) (d : DirEntry) (s : State) : Option RefusalCode :=
  if d.state = .released then some .state
  else if q.startRow.any (fun i => decide (2015 < i) || decide (rowCount s d < i)) then some .range
  else none

def journalReadBody (q : QFrame) (_ : Station) (s : State) : State :=
  match dirEntry s (q.at 0 2) with
  | none => refuse q .range s
  | some d => match readRefusal q d s with
    | some c => refuse q c s
    | none =>
      let start := q.startRow.getD 0
      let rows := rowCount s d
      let s := withdrawReadFrame { s with
        jnl.cursor := some ⟨d.shift, q.src, start, 0, 0, decide (start = 0), none, false⟩, jnl.credit := 0 }
      placeRow (accept q (le 2 d.shift ++ le 2 rows ++ le 2 start ++ [flagByte (decide (d.state = .opened))]) s)

/-- JOURNAL_READ (R174). -/
def execJournalRead (s : State) : Out := takes .journalRead journalReadBody s

/-- JOURNAL_CREDIT (R175). -/
def journalCreditBody (q : QFrame) (_ : Station) (s : State) : State :=
  if inRange 1 16 (q.at 0 1) ∧ s.jnl.cursor.any (fun c => decide (c.station = q.src)) then
    { s with jnl.credit := addCredit s.jnl.credit (q.at 0 1) }
  else s

def execJournalCredit (s : State) : Out := takes .journalCredit journalCreditBody s

/-! ### JOURNAL_RELEASE (R179) -/

def journalReleaseBody (q : QFrame) (_ : Station) (s : State) : State :=
  match dirEntry s (q.at 0 2) with
  | none => refuse q .range s
  | some d =>
    if d.state ≠ .read then refuse q .state s
    else if s.jnl.cursor.any (fun c => decide (c.shift = d.shift)) then refuse q .busy s
    else
      let s := updateEntry d.shift (fun d => { d with state := .released }) s
      freeEntries (eraseAhead (accept q (le 2 d.shift) s))

/-- JOURNAL_RELEASE (R179). -/
def execJournalRelease (s : State) : Out := takes .journalRelease journalReleaseBody s

/-! ### A read-out frame was sent (R176, R177) -/

/-- JOURNAL_END was sent: a complete read from index 0 marks a closed entry READ; the cursor clears. -/
def endSent (c : Cursor) (openFlag : Bool) (s : State) : State :=
  clearCursor (updateEntry c.shift (fun d =>
    if (d.state = .closed ∨ d.state = .abandoned) ∧ openFlag = false ∧ c.fromZero then { d with state := .read }
    else d) s)

/-- A JOURNAL_ROW was sent: the quarter or the row advances (R176). -/
def rowSent (c : Cursor) (s : State) : State :=
  match c.row with
  | some row =>
    if c.quarter < 3 then
      let c := { c with quarter := c.quarter + 1 }
      placeReadFrame (frameOfRow c row) { s with jnl.cursor := some c }
    else
      let next : Cursor := { c with quarter := 0, index := c.index + 1, sent := c.sent + 1, row := none }
      placeRow { s with jnl.cursor := some next }
  | none => s

/-- JNL is told of the send of the frame that stood in class 7. -/
def readFrameSent (s : State) : State :=
  match s.jnl.cursor, s.nsc.journal with
  | some c, some f =>
    let s := { s with jnl.credit := s.jnl.credit - 1 }
    match f with
    | .fin _ _ o => endSent c o s
    | .row .. => rowSent c s
  | _, _ => s

/-! ### Completions (R166, R170, R171) -/

/-- A range widened to take in a sequence number. -/
def widen (range : Option (Nat × Nat)) (n : Nat) : Option (Nat × Nat) :=
  match range with
  | none => some (n, n)
  | some (lo, hi) => some (min lo n, max hi n)

/-- What JNL does by the kind of the programmed record (R170). -/
def programmed (q : Queued) (s : State) : State :=
  match q.record with
  | .leg r => legProgrammed r.number s
  | .shiftClose r =>
    updateEntry r.shift (fun d =>
      if d.state = .opened then
        { d with last := some q.seq, state := if r.abandoned then .abandoned else .closed }
      else d) s
  | _ => s

/-- The program of the append queue's head has completed (R170). -/
def journalProgramBody (s : State) : State :=
  match s.jnl.inFlight, s.jnl.append with
  | some (.journalProgram row), q :: rest =>
    let e := sectorEntry s (row / 16)
    let s := setSector (row / 16) { e with erased := false, range := widen e.range q.seq }
      { s with array := programRow s.array row (rowOfRecord q), jnl.append := rest, jnl.writePos := nextRow row }
    startNext (eraseAhead (programmed q (programDue (completeOp s))))
  | _, _ => s

/-- JOURNAL_PROGRAM_COMPLETE (R170). -/
def execJournalProgramComplete (s : State) : Out := whenPowered (fun s => letGo (journalProgramBody s)) s

/-- JOURNAL_ERASE_COMPLETE (R171). -/
def journalEraseBody (s : State) : State :=
  match s.jnl.inFlight with
  | some (.journalErase c) =>
    let s := completeOp (setSector c SectorEntry.free { s with
      array := eraseRows s.array c
      jnl.waitsErase := s.jnl.waitsErase && !decide (c = s.jnl.writePos / 16) })
    startNext (freeEntries (eraseAhead (programDue s)))
  | _ => s

def execJournalEraseComplete (s : State) : Out := whenPowered journalEraseBody s

end Sys2Proof.Machine
end

