-- ==== Sys2Proof/Machine/Line.lean ====
section
/-!
DEFINITION. The cab line interface (01): the receiver, the receive queue, the station table, the transmitter and
the break.
-/

namespace Sys2Proof.Machine

/-! ### Characters (R1, R4) -/

/-- The number of 1 bits of a character's data. -/
def onesOf (b : Byte) : Nat := ((List.range 8).filter (fun i => b.getLsbD i)).length

/-- A parity or stop-bit error (R1). -/
def charBad (c : LineChar) : Bool := decide ((onesOf c.data + c.parity.toNat) % 2 = 0) || !c.stop

/-- A character as the part sends it (R1): odd parity, and a stop bit of 1. -/
def sentChar (b : Byte) : LineChar := ⟨b, decide (onesOf b % 2 = 0), true⟩

/-- The 11 bits of a character in the order they stand on the line (R1): start, data from the least significant,
parity, stop. -/
def charBits (c : LineChar) : List Bool :=
  false :: (List.range 8).map (fun i => c.data.getLsbD i) ++ [c.parity, c.stop]

/-- The address a LEAD names (R2), if it is a LEAD of an address 1–30. -/
def leadAddress (b : Byte) : Option Nat :=
  let a := mirror5 (b.toNat % 32)
  if b.toNat / 32 = 5 ∧ 1 ≤ a ∧ a ≤ 30 then some a else none

/-- The moment a character ends: one CT after the line was last busy, or now if that is later (log 4). -/
def hearChar (s : State) : State :=
  let s := passTo (s.lif.lineFree + charTime) s
  { s with lif.lineFree := s.time }

/-- The frame in reception wants its CHECK next (R4). -/
def wantsCheck (chars : List Byte) : Bool :=
  decide (4 ≤ chars.length) && decide (chars.length = 4 + (chars.getD 3 0).toNat)

/-- What a character makes of the receiver, CHECK apart (R4). -/
def receive (sending : Bool) (c : LineChar) : Receiver → Receiver
  | .skip => .skip
  | .ready => if charBad c || (leadAddress c.data).isNone then .skip else .frame sending [c.data]
  | .frame own chars =>
    if charBad c then .skip
    else if chars.length = 3 ∧ 48 < c.data.toNat then .skip
    else .frame own (chars ++ [c.data])

/-- The character is the CHECK that completes a frame: that is RX_FRAME_COMPLETE. -/
def completesFrame (c : LineChar) (r : Receiver) : Bool :=
  match r with
  | .frame _ chars => wantsCheck chars && !charBad c
  | _ => false

def lineCharacterBody (c : LineChar) (s : State) : State :=
  if completesFrame c s.lif.rx then s
  else hearChar { s with lif.rx := receive s.lif.tx.sending.isSome c s.lif.rx }

/-- LINE_CHARACTER (R4). -/
def execLineCharacter (c : LineChar) (s : State) : Out := whenActive (lineCharacterBody c) s

/-- The line may stay idle within a frame for at most 2 CT (R2, R4). -/
def gapTime : Moment := 2 * charTime

/-- RECEIVER_IDLE_GAP (R4): more than 2 CT idle; SKIP becomes READY, a frame in progress is discarded. -/
def idleGapBody (s : State) : State :=
  match s.lif.rx with
  | .ready => s
  | _ => passTo (s.lif.lineFree + gapTime + 1) { s with lif.rx := .ready }

def execReceiverIdleGap (s : State) : Out := whenActive idleGapBody s

/-! ### A complete frame (R5, R8) -/

/-- An ABSENT entry becomes PRESENT again: the owning blocks are told (R8). -/
def becomePresent (e : Station) (s : State) : State := if e.role = .sign then signPresent s else s

/-- A received frame refreshes the presence of its sender's entry (R5, R8). DESIGN CHOICE (log 54): a port that is bound
again with this while its release ramp still runs stays RELEASING until the look of R132 (R134). -/
def refreshPresence (a : Nat) (s : State) : State :=
  match stationOf s a with
  | none => s
  | some e =>
    let s := updateStation a (fun e => { e with present := true, silenceFrom := s.time }) s
    if e.present then s else becomePresent e s

/-- The receive queue's capacity (R5). -/
def queueSize : Nat := 8

def enqueue (q : QFrame) (s : State) : State :=
  if s.lif.queue.length < queueSize then { s with lif.queue := s.lif.queue ++ [q] } else raise .rxOverrun s

/-- A frame of another station with a good check for the part (R5, cases 2 and 3). -/
def acceptFrame (a : Nat) (chars : List Byte) (s : State) : State :=
  if a = s.lif.address then raise .addressClash s
  else
    let absent := (stationOf s a).any (fun e => !e.present)
    enqueue ⟨a, chars.getD 2 0, chars.drop 4, absent⟩ (refreshPresence a s)

/-- The judgement of R5 on a complete frame. -/
def judgeFrame (own : Bool) (chars : List Byte) (check : Byte) (s : State) : State :=
  let dest := (chars.getD 1 0).toNat
  if check ≠ checkOf chars ∨ (dest ≠ s.lif.address ∧ dest ≠ 31) then s
  else if own then s
  else match leadAddress (chars.getD 0 0) with
    | none => s
    | some a => acceptFrame a chars s

def rxFrameCompleteBody (c : LineChar) (s : State) : State :=
  match s.lif.rx with
  | .frame own chars =>
    if completesFrame c s.lif.rx then judgeFrame own chars c.data (hearChar { s with lif.rx := .skip }) else s
  | _ => s

/-- RX_FRAME_COMPLETE (R5). -/
def execRxFrameComplete (c : LineChar) (s : State) : Out := whenActive (rxFrameCompleteBody c) s

/-- DISCARDED_KIND_FRAME (R10, check 1): a kind that is no request or report is discarded. -/
def discardBody (s : State) : State :=
  match s.lif.queue with
  | [] => s
  | q :: rest => if (ReqKind.ofCode q.kind).isNone then { s with lif.queue := rest } else s

def execDiscardedKindFrame (s : State) : Out := whenActive discardBody s

/-! ### ANNOUNCE (R6, R7) -/

/-- Another PRESENT panel entry holds a port. -/
def heldElsewhere (s : State) (p : Port) (a : Nat) : Bool :=
  s.lif.stations.any (fun e => decide (e.addr ≠ a) && e.present && decide (e.port = some p))

/-- The port is bound to an entry; an ABSENT entry that held it loses its binding (R7). DESIGN CHOICE (log 54): the port's
call state stands, RELEASING included (R134). -/
def takePort (p : Port) (a : Nat) (s : State) : State :=
  { s with lif.stations := s.lif.stations.map (fun e =>
      if e.addr = a then { e with port := some p }
      else if e.port = some p then { e with port := none }
      else e) }

/-- The binding of a panel's announced port (R7). -/
def bindPort (a : Nat) (named : Option Port) (s : State) : State :=
  match stationOf s a with
  | none => s
  | some e => match e.port, named with
    | none, none => s
    | none, some p => if heldElsewhere s p a then raise .addressClash s else takePort p a s
    | some _, none => s
    | some held, some p => if held = p then s else raise .addressClash s

/-- The port of an ANNOUNCE: 1–3, else none; only a panel's counts (11.2). -/
def announcedPort (r : Role) (q : QFrame) : Option Port := if r = .panel then Port.ofNumber (q.at 1 1) else none

def bindIfPanel (r : Role) (q : QFrame) (s : State) : State :=
  if r = .panel then bindPort q.src (announcedPort r q) s else s

/-- The port of an entry that has become ABSENT or gone becomes unbound (R8). -/
def unbindPort (e : Station) (s : State) : State :=
  match e.port with
  | some p => portUnbound p s
  | none => s

/-- A new entry, PRESENT with its silence timer restarted, and a panel's watch record (R6, 05 R88). -/
def addEntry (r : Role) (a : Nat) (s : State) : State :=
  { s with lif.stations := s.lif.stations ++ [⟨a, r, none, true, s.time⟩]
           cab.watches := s.cab.watches ++ (if r = .panel then [Watch.empty a] else []) }

/-- A new entry is created and the blocks are told (R6, R7, 05 R87). -/
def createEntry (r : Role) (q : QFrame) (s : State) : State :=
  let s := addEntry r q.src s
  bindIfPanel r q (if r = .sign then signPresent s else s)

/-- The station table's capacity (01 section 1.4). -/
def tableSize : Nat := 12

/-- An entry gives way to one of another role (R6, R9): it is removed, and its port becomes unbound. -/
def replaceEntry (e : Station) (r : Role) (q : QFrame) (s : State) : State :=
  let s := removeEntry e.addr s
  createEntry r q (unbindPort e s)

/-- The outcome table of R6; "ABSENT" is the entry's presence when the frame was accepted (log 14). -/
def announced (r : Role) (q : QFrame) (s : State) : State :=
  match stationOf s q.src with
  | none => if s.lif.stations.length < tableSize then createEntry r q s else raise .stationTableFull s
  | some e =>
    if e.role = r then bindIfPanel r q s
    else if (q.fromAbsent || !e.present) && !referenced s e.addr then replaceEntry e r q s
    else raise .addressClash s

def announceBody (s : State) : State :=
  match s.lif.queue with
  | [] => s
  | q :: rest =>
    if ReqKind.ofCode q.kind = some .announce then
      let s := { s with lif.queue := rest }
      if !(lengths .announce).contains q.payload.length then s
      else match Role.ofCode (q.at 0 1) with
        | none => s
        | some r => announced r q s
    else s

/-- ANNOUNCE (R6). -/
def execAnnounce (s : State) : Out := whenActive (fun s => letGo (announceBody s)) s

/-! ### Silence and removal (R8, R9) -/

/-- CAB is told that an entry has become ABSENT (R8, 05 R87, R90). -/
def tellCabAbsent (e : Station) (s : State) : State :=
  match e.role with
  | .sign => signAbsent s
  | .panel => updateWatch e.addr (fun w => Watch.empty w.addr) s
  | _ => s

/-- The read-out of a station that has become ABSENT ends, and the journal credit is 0 (09 R175, R178). -/
def readerAbsent (a : Nat) (s : State) : State :=
  if s.jnl.cursor.any (fun c => decide (c.station = a)) then clearCursor { s with jnl.credit := 0 } else s

/-- ACC and JNL are told that an entry has become ABSENT (R8). -/
def tellCreditAbsent (e : Station) (s : State) : State :=
  match e.role with
  | .printer => printerPause s
  | .fleet => readerAbsent e.addr s
  | _ => s

/-- The blocks are told that an entry has become ABSENT (R8). -/
def tellAbsent (e : Station) (s : State) : State :=
  tellCreditAbsent e (holderAbsent e.addr (unbindPort e (tellCabAbsent e s)))

def silenceTime : Moment := seconds 6

def silenceBody (a : Nat) (s : State) : State :=
  match stationOf s a with
  | none => s
  | some e =>
    if e.present then
      let s := passTo (e.silenceFrom + silenceTime) s
      letGo (tellAbsent e (updateStation a (fun e => { e with present := false }) s))
    else s

/-- SILENCE_TIMEOUT (R8). -/
def execSilenceTimeout (a : Nat) (s : State) : Out := whenActive (silenceBody a) s

/-- STATION_REMOVAL (R9): an ABSENT entry that nothing names, at 36 s of silence. -/
def removalBody (a : Nat) (s : State) : State :=
  match stationOf s a with
  | none => s
  | some e =>
    if e.present ∨ referenced s a then s else letGo (removeEntry a (passTo (removalMoment e) s))

def execStationRemoval (a : Nat) (s : State) : Out := whenActive (removalBody a) s

/-! ### Frames the part sends (R12, R16, 11.3) -/

def announcePayload (s : State) : List Byte :=
  [7, 0] ++ le 2 (faultWord s).toNat ++ [flagByte (warning s)] ++ le 1 s.cab.duty.code ++ le 2 (openShift s)
    ++ [flagByte s.flt.coldFlag]

/-- The destination, kind and payload of a notice's content as it stands, if it has content and a destination. -/
def contentOf (s : State) : Notice → Option (Nat × Byte × List Byte)
  | .assist => s.nsc.assist.map (fun c => (31, 0x87, assistPayload c))
  | .reply => s.nsc.replies.head?.map (fun r => (r.asker, answerKind r, answerPayload r))
  | .sign => s.nsc.sign.map (fun c => (31, 0x84, signPayload c))
  | .offer i => (s.nsc.offers.get i).map (fun o => (31, 0x83, offerPayload i o))
  | .call p => (s.nsc.calls.get p).map (fun c => (31, 0x85, callPayload p c))
  | .fare i => (s.nsc.fares.get i).map (fun f => (31, 0x82, fareShowPayload i f))
  | .fleet k => (s.nsc.fleet.find? (fun x => decide (x.kind = k))).bind (fun it =>
      (lowestPresent s .fleet).map (fun a => (a, 0x86, fleetPayload it)))
  | .journal => s.nsc.journal.bind (fun f => s.jnl.cursor.map (fun c => (c.station, readKind f, readPayload f)))
  | .print => s.nsc.print.bind (fun it =>
      (lowestPresent s .printer).map (fun a => (a, 0x8A, printPayload it)))
  | .announce => if s.nsc.announce then some (31, 0x01, announcePayload s) else none

/-- The frame built from a notice's content at the start of an attempt (R12). -/
def frameFor (s : State) (n : Notice) : Option (List LineChar) :=
  (contentOf s n).map (fun c => (buildFrame s.lif.address c.1 c.2.1 c.2.2).map sentChar)

/-! ### The transmitter (R12–R15) -/

/-- The access gap (R12). -/
def accessGap (s : State) : Moment :=
  if s.lif.tx.contention = 0 then 4 * charTime else (4 + 2 * s.lif.address) * charTime

/-- The gap is met: an attempt begins with the notice held, or with NSC's choice (R12). The line has then been
idle for more than 2 CT, so the receiver is READY (R4, log 30). -/
def beginAttempt (s : State) : State :=
  match s.lif.tx.held.orElse (fun _ => chooseNotice s) with
  | none => s
  | some n => match frameFor s n with
    | none => freeTransmitter s
    | some f =>
      { s with lif.rx := .ready
               lif.tx := { s.lif.tx with held := some n, sending := some f, renewed := false } }

def txAttemptBody (s : State) : State :=
  if s.lif.tx.sending.isSome then s
  else
    let t := passTo (s.lif.lineFree + accessGap s) s
    if t.lif.tx.held.isNone ∧ (chooseNotice t).isNone then s else beginAttempt t

/-- TX_ATTEMPT_START (R12). -/
def execTxAttemptStart (s : State) : Out := whenActive txAttemptBody s

/-- A FARE_SHOW slot has come to 500 ms after its last send: a free transmitter asks again, if the line has been
idle for the gap (R12, R16). -/
def fareIntervalBody (i : Fin 4) (s : State) : State :=
  match s.nsc.fareSent.get i, s.nsc.fares.get i with
  | some t, some _ =>
    let s := passTo (t + fareShowInterval) s
    if s.lif.tx.held.isNone ∧ s.lif.tx.sending.isNone ∧ s.lif.lineFree + accessGap s ≤ s.time then beginAttempt s
    else s
  | _, _ => s

/-- FARE_SHOW_SEND_INTERVAL (R16). -/
def execFareShowSendInterval (i : Fin 4) (s : State) : Out := whenActive (fareIntervalBody i) s

/-- The dropping of a frame after 16 losses empties what the transmitter held; classes 7 and 8 offer their frame
again (R14). -/
def dropNotice (n : Notice) (s : State) : State :=
  match n with
  | .assist => { s with nsc.assist := none }
  | .reply => { s with nsc.replies := s.nsc.replies.tail }
  | .sign => { s with nsc.sign := none }
  | .offer i => { s with nsc.offers := s.nsc.offers.set i none }
  | .call p => { s with nsc.calls := s.nsc.calls.set p none }
  | .fare i => { s with nsc.fares := s.nsc.fares.set i none }
  | .fleet k => { s with nsc.fleet := s.nsc.fleet.filter (fun x => decide (x.kind ≠ k)) }
  | .journal => s
  | .print => s
  | .announce => { s with nsc.announce := false }

/-- The number of losses at which a frame is dropped (R14). -/
def mostLosses : Nat := 16

/-- A frame in reception that began as the part's own goes on as another station's (R13, R5 case 2, log 33). -/
def loseOwn : Receiver → Receiver
  | .frame _ chars => .frame false chars
  | r => r

def attemptLostBody (s : State) : State :=
  match s.lif.tx.held, s.lif.tx.sending with
  | some n, some _ =>
    let k := s.lif.tx.contention + 1
    let s := { s with lif.rx := loseOwn s.lif.rx
                      lif.tx := { s.lif.tx with sending := none, contention := k } }
    if mostLosses ≤ k then raise .lineContention (freeTransmitter (dropNotice n s)) else letGo s
  | _, _ => s

/-- ATTEMPT_LOST (R13, R14). -/
def execAttemptLost (s : State) : Out := whenActive attemptLostBody s

/-- What NSC does for the notice sent (R15). `renewed` says that its content was placed anew or withdrawn after
the attempt began. -/
def noticeSent (n : Notice) (renewed : Bool) (s : State) : State :=
  match n with
  | .assist => if renewed then s else { s with nsc.assist := none }
  | .reply => { s with nsc.replies := s.nsc.replies.tail }
  | .sign => if renewed then s else { s with nsc.sign := none }
  | .offer i =>
    let s := { s with nsc.lastOffer := i }
    if renewed then s else { s with nsc.offers := s.nsc.offers.set i none }
  | .call p =>
    let s := { s with nsc.lastCall := p }
    if renewed then s else { s with nsc.calls := s.nsc.calls.set p none }
  | .fare i =>
    let s := { s with nsc.lastFare := i, nsc.fareSent := s.nsc.fareSent.set i (some s.time) }
    if renewed then s else { s with nsc.fares := s.nsc.fares.set i none }
  | .fleet k => if renewed then s else { s with nsc.fleet := s.nsc.fleet.filter (fun x => decide (x.kind ≠ k)) }
  | .journal => if renewed then s else readFrameSent s
  | .print => printSent renewed s
  | .announce => if renewed then s else { s with nsc.announce := false }

def txSuccessBody (s : State) : State :=
  match s.lif.tx.held, s.lif.tx.sending with
  | some n, some _ =>
    let renewed := s.lif.tx.renewed
    noticeSent n renewed (freeTransmitter { s with lif.lineFree := s.time })
  | _, _ => s

/-- TX_SUCCESS (R15). -/
def execTxSuccess (s : State) : Out := whenActive txSuccessBody s

/-! ### The announce timer and the break (R18, R19) -/

def announceTime : Moment := seconds 2

def announceTimerBody (s : State) : State :=
  let due := s.lif.announceDue
  placeAnnounce (passTo due { s with lif.announceDue := due + announceTime })

/-- ANNOUNCE_TIMER (R18). -/
def execAnnounceTimer (s : State) : Out := whenActive announceTimerBody s

def breakTime : Moment := 20 * charTime

/-- What a break does to the line's state (R19); `past` is how long it goes on past its recognition. -/
def breakBody (past : Nat) (s : State) : State :=
  let s := passTo (s.lif.lineFree + breakTime) s
  let s := { s with lif.queue := [], lif.rx := .skip, lif.tx := Transmitter.free
                    lif.stations := s.lif.stations.map (fun e => { e with silenceFrom := s.time })
                    lif.announceDue := s.time + announceTime, lif.lineFree := s.time + past }
  placeAnnounce s

/-- BREAK (R19). -/
def execBreak (past : Nat) (s : State) : Out := whenActive (breakBody past) s

end Sys2Proof.Machine
end

