-- ==== Sys2Proof/Machine/Scan.lean ====
section
/-!
DEFINITION. What a cold start finds in the array (10.7): the scan, the sector map, the write position, the
odometer, the directory, and the ABANDONED close record.
-/

namespace Sys2Proof.Machine

/-! ### The scan (R193) -/

/-- The listed rows of the ring, rising; rows not listed read FREE. -/
def ringRows (m : Memory) : List (Nat × Row) := m.filter (fun e => ringRow e.1)

/-- The readable rows of the ring, rising, with their sequence numbers. -/
def readableSeqs (m : Memory) : List (Nat × Nat) :=
  ((ringRows m).filter (fun e => readable e.2)).map (fun e => (e.1, rowSeq e.2))

/-- The sequence numbers of the nearest readable rows before and after a row in ring order (09 R166, log 37). -/
def neighbours (seqs : List (Nat × Nat)) (r : Nat) : List Nat :=
  let before := (seqs.filter (fun e => decide (e.1 < r))).getLast?.orElse (fun _ => seqs.getLast?)
  let after := (seqs.find? (fun e => decide (r < e.1))).orElse (fun _ => seqs.head?)
  (before.toList ++ after.toList).map (·.2)

/-- The sequence numbers a row brings into its sector's range (09 R166). -/
def rangeSeqs (seqs : List (Nat × Nat)) (e : Nat × Row) : List Nat :=
  match classify e.2 with
  | .damaged => neighbours seqs e.1
  | .good => [rowSeq e.2]
  | .corrected => [rowSeq e.2]
  | _ => []

/-- The map entry the scan gives a sector (09 R166). -/
def scannedSector (m : Memory) (c : Nat) : SectorEntry :=
  let rows := m.filter (fun e => e.1 / 16 == c)
  if rows.all (fun e => decide (classify e.2 = .free)) then SectorEntry.free
  else ⟨false, (rows.flatMap (rangeSeqs (readableSeqs m))).foldl widen none, false⟩

def scannedSectors (m : Memory) : List SectorEntry := (List.range 126).map (fun i => scannedSector m (i + 2))

/-- The row of the highest sequence number among rows, with it. -/
def highest (seqs : List (Nat × Nat)) : Option (Nat × Nat) :=
  seqs.foldl (fun best e => match best with
    | none => some e
    | some b => if b.2 < e.2 then some e else some b) none

/-- The write position and the next sequence number (R193, step 4). -/
def scannedPosition (m : Memory) : Nat × Nat :=
  match highest (readableSeqs m) with
  | none => (32, 1)
  | some (r, n) => (nextRow r, n + 1)

def hasHeader (h : DataWord) (x : Row) : Bool := readable x && decide (readableHeader x = some h)

/-- The odometer reading of a SHIFT_OPEN or SHIFT_CLOSE row (11.5). -/
def odometerIn (x : Row) : Nat :=
  if hasHeader headerShiftOpen x then field (rowBytes x) 18 4 else field (rowBytes x) 30 4

/-- The odometer as the journal's records give it, or 0 (02 R26). -/
def scannedOdometer (m : Memory) : Nat :=
  let rows := (ringRows m).filter (fun e => hasHeader headerShiftOpen e.2 || hasHeader headerShiftClose e.2)
  match highest (rows.map (fun e => (e.1, rowSeq e.2))) with
  | none => 0
  | some (r, _) => odometerIn (rowAt m r)

/-! ### The directory (R194) -/

/-- The readable rows of a shift. -/
def rowsOf (rows : List (Nat × Row)) (n : Nat) : List (Nat × Row) :=
  rows.filter (fun e => decide (rowShift e.2 = n))

def lowestSeq (rows : List (Nat × Row)) : Nat :=
  match rows.map (fun e => rowSeq e.2) with
  | [] => 0
  | n :: ns => ns.foldl min n

/-- Inserts a shift, with its lowest sequence number, in rising order. -/
def insertShift (x : Nat × Nat) : List (Nat × Nat) → List (Nat × Nat)
  | [] => [x]
  | y :: ys => if x.2 < y.2 then x :: y :: ys else y :: insertShift x ys

/-- The shift numbers the rows carry, in the order of their lowest sequence numbers (R194). -/
def shiftOrder (rows : List (Nat × Row)) : List Nat :=
  (((rows.map (fun e => rowShift e.2)).eraseDups.map (fun n => (n, lowestSeq (rowsOf rows n)))).foldl
    (fun l x => insertShift x l) []).map (·.1)

/-- A shift's first row sequence (R194). -/
def firstSeq (rows : List (Nat × Row)) (n : Nat) : Nat :=
  match (rowsOf rows n).find? (fun e => hasHeader headerShiftOpen e.2) with
  | some e => rowSeq e.2
  | none => lowestSeq (rowsOf rows n)

/-- The entry of a shift, with the next shift in the order, if there is one (R194). -/
def scannedEntry (rows : List (Nat × Row)) (n : Nat) (next : Option Nat) : DirEntry :=
  match (rowsOf rows n).find? (fun e => hasHeader headerShiftClose e.2) with
  | some e =>
    ⟨n, firstSeq rows n, some (rowSeq e.2), if field (rowBytes e.2) 8 1 = 1 then .closed else .abandoned⟩
  | none => match next with
    | some m => ⟨n, firstSeq rows n, some (firstSeq rows m - 1), .abandoned⟩
    | none => ⟨n, firstSeq rows n, none, .opened⟩

def scannedEntries (rows : List (Nat × Row)) : List Nat → List DirEntry
  | [] => []
  | n :: ns => scannedEntry rows n ns.head? :: scannedEntries rows ns

/-- The rebuilt directory: of more than 16 shifts those with the highest first row sequences (R194). -/
def scannedDirectory (m : Memory) : List DirEntry :=
  let rows := (ringRows m).filter (fun e => readable e.2)
  let all := scannedEntries rows (shiftOrder rows)
  all.filter (fun d => decide ((all.filter (fun x => decide (d.first < x.first))).length < 16))

/-! ### The ABANDONED close record (R195) -/

/-- Rows from one row to another in ring order, both of them included (log 36). -/
def ringSpan (m : Memory) (first last : Nat) : List (Nat × Row) :=
  let rows := ringRows m
  if first ≤ last then rows.filter (fun e => decide (first ≤ e.1 ∧ e.1 ≤ last))
  else rows.filter (fun e => decide (first ≤ e.1)) ++ rows.filter (fun e => decide (e.1 ≤ last))

/-- A date and time as a number that rises with it. -/
def DateTime.key (t : DateTime) : Nat :=
  ((((t.year * 16 + t.month) * 32 + t.day) * 32 + t.hour) * 64 + t.minute) * 64 + t.second

/-- The time by which a row stands for the close time (R195). -/
def rowTime (x : Row) : Option DateTime :=
  if hasHeader headerLeg x then some (timeAt (rowBytes x) 24)
  else if hasHeader headerEvent x then some (timeAt (rowBytes x) 10)
  else if hasHeader headerShiftOpen x then some (timeAt (rowBytes x) 12)
  else none

/-- The times a row carries, for the earliest time in the span (R195). -/
def rowTimes (x : Row) : List DateTime :=
  (if hasHeader headerLeg x then [timeAt (rowBytes x) 18] else []) ++ (rowTime x).toList

def earliest (ts : List DateTime) : DateTime :=
  match ts with
  | [] => DateTime.epoch
  | t :: ts => ts.foldl (fun b t => if t.key < b.key then t else b) t

/-- The close time (R195): of the row of the highest sequence number that carries a time. -/
def spanCloseTime (rows : List (Nat × Row)) : DateTime :=
  let timed := rows.filter (fun e => readable e.2 && (rowTime e.2).isSome)
  (((highest (timed.map (fun e => (e.1, rowSeq e.2)))).bind (fun h =>
    timed.find? (fun e => decide (e.1 = h.1)))).bind (fun e => rowTime e.2)).getD DateTime.epoch

/-- The sum of the tenders of a kind in a LEG row: 1 CASH, 2 CARD (11.5). -/
def tenderSum (b : List Byte) (kind : Nat) : Nat :=
  ((List.range (min 4 (field b 17 1))).map (fun i =>
    if field b (76 + 12 * i) 1 = kind then field b (76 + 12 * i + 2) 4 else 0)).sum

/-- What a LEG row adds to the totals (R195, 08 R149, R150). -/
def addLegRow (t : Totals) (b : List Byte) : Totals :=
  let voided := decide (field b 16 1 / 2 % 2 = 1)
  let t := { t with
    hiredMetres := satAdd max32 t.hiredMetres (field b 64 4)
    hiredSeconds := satAdd 429496729 t.hiredSeconds (field b 68 4)
    sharedSeconds := satAdd 429496729 t.sharedSeconds (field b 72 4) }
  let t := addLegCounts voided (decide (field b 11 1 = 2)) t
  if voided then t
  else addMoney (field b 40 4) (field b 44 4) (field b 52 4) (tenderSum b 2) (tenderSum b 1) t

/-- What an EVENT row adds to the totals, by its type (R195). -/
def addEventRow (t : Totals) (b : List Byte) : Totals :=
  match field b 8 1 with
  | 2 => { t with signFaults := satAdd 65535 t.signFaults 1 }
  | 3 => { t with unmetered := satAdd 65535 t.unmetered 1 }
  | 4 => { t with assists := satAdd 65535 t.assists 1 }
  | 5 => { t with lateCount := satAdd 65535 t.lateCount 1
                  lateSum := satAdd maxMoney t.lateSum (field b 20 4) }
  | 6 => { t with interruptions := satAdd 65535 t.interruptions 1 }
  | _ => t

/-- What a row of the span adds to the totals of the record for a shift (R195). -/
def addSpanRow (n : Nat) (t : Totals) (x : Row) : Totals :=
  match classify x with
  | .free => t
  | .void => { t with notJournalled := satAdd 65535 t.notJournalled 1 }
  | .damaged => { t with notJournalled := satAdd 65535 t.notJournalled 1 }
  | _ =>
    if rowShift x ≠ n then t
    else if hasHeader headerLeg x then addLegRow t (rowBytes x)
    else if hasHeader headerEvent x then addEventRow t (rowBytes x)
    else t

/-- The row of a sequence number. -/
def rowOfSeq (m : Memory) (n : Nat) : Nat :=
  (((readableSeqs m).find? (fun e => decide (e.2 = n))).map (·.1)).getD 32

/-- The SHIFT_CLOSE record of reason ABANDONED for an OPEN entry (R195). -/
def abandonedClose (m : Memory) (d : DirEntry) (writePos odometer : Nat) : CloseRecord :=
  let span := ringSpan m (rowOfSeq m d.first) writePos
  let mine := span.filter (fun e => readable e.2 && decide (rowShift e.2 = d.shift))
  let head := (mine.find? (fun e => hasHeader headerShiftOpen e.2)).map (fun e => rowBytes e.2)
  { shift := d.shift
    abandoned := true
    driver := (head.map (fun b => field b 8 4)).getD 0
    openTime := (head.map (fun b => timeAt b 12)).getD (earliest (mine.flatMap (fun e => rowTimes e.2)))
    closeTime := spanCloseTime mine
    odoOpen := (head.map (fun b => field b 18 4)).getD 0
    odoClose := odometer
    totals := (span.map (·.2)).foldl (addSpanRow d.shift) Totals.zero }

/-- The append queue and next sequence number after the ABANDONED row's claim, if a shift stands OPEN (R195). -/
def abandonedAppend (m : Memory) (dir : List DirEntry) (writePos odometer nextSeq : Nat) : List Queued × Nat :=
  match dir.find? (fun d => decide (d.state = .opened)) with
  | some d => ([⟨nextSeq, .shiftClose (abandonedClose m d writePos odometer)⟩], nextSeq + 1)
  | none => ([], nextSeq)

end Sys2Proof.Machine
end

