-- ==== Sys2Proof/Machine/Power.lean ====
section
/-!
DEFINITION. The power unit (10.4–10.7): the loss of main power, RETAIN entry, the failure of the backup supply, wake,
the resume procedure and the cold start.
-/

namespace Sys2Proof.Machine

def lossTime : Moment := milliseconds 20
def wakeTime : Moment := milliseconds 100

/-! ### Loss and RETAIN entry (R188) -/

/-- The part stops taking events (R188). -/
def stopEvents (s : State) : State :=
  { s with lif.queue := [], lif.rx := .skip, lif.tx := { s.lif.tx with sending := none }
           odo.pulseCount := 0, odo.pulseFrom := none
           cab.signDue := none, cab.repeatDue := none, icm.ringDue := none }

/-- A power loss begins RETAIN entry; in STARTING it abandons the cold start (R188, R197). -/
def powerLossBody (s : State) : State :=
  let starting := decide (s.pwr.state = .starting)
  let s := passTo (s.odo.powerFrom + lossTime) s
  sampleAssist (stopEvents { s with pwr.state := .entering, pwr.abandoned := starting })

/-- POWER_LOSS (R188). -/
def execPowerLoss (s : State) : Out :=
  .next (if (s.pwr.state = .active ∨ s.pwr.state = .starting) ∧ s.odo.powerGood = false then powerLossBody s
    else s)

/-- A check word that differs from a sum (R188, log 10). -/
def failingCheck (n : Nat) (sum : DataWord) : DataWord :=
  if Config.spoiledCheck n = sum then Config.spoiledCheck n + 1 else Config.spoiledCheck n

/-- The check word is written, and the state becomes RETAIN; the wake is measured from here (R186, R188). -/
def retainEntryBody (s : State) : State :=
  let s := { s with jnl.waiting := [], pwr.retainAt := s.time, pwr.state := .retain, odo.powerFrom := s.time }
  let sum := retentionSum s
  if s.pwr.abandoned then { s with pwr.check := failingCheck s.free sum, free := s.free + 1 }
  else { s with pwr.check := sum }

/-- RETAIN_ENTRY_COMPLETE (R188): only once the operation in flight has completed. -/
def execRetainEntryComplete (s : State) : Out :=
  .next (if s.pwr.state = .entering ∧ s.jnl.inFlight = none then retainEntryBody s else s)

/-! ### OFF (R186, R197) -/

/-- An operation works on a row. -/
def worksOn (op : ArrayOp) (row : Nat) : Bool :=
  match op with
  | .journalProgram r => row == r
  | .journalErase c => row / 16 == c
  | .tariffErase c _ => row / 16 == c
  | .tariffPart r _ _ => row == r
  | .tariffMark r _ => row == r
  | .tariffCommit r _ _ _ => row == r

/-- What a cut-off operation leaves: only rows it works on change (R197, log 12). -/
def cutOff (s : State) (left : List Upset) : Memory :=
  withUpsets s.array (left.filter (fun u => s.jnl.inFlight.any (fun op => worksOn op u.row)))

/-- The part with both supplies gone: only the array and the levels of the inputs stand (R186, log 11). -/
def offState (left : List Upset) (s : State) : State :=
  let r := State.reset
  { r with
    pending := s.pending
    free := s.free
    array := cutOff s left
    odo := { r.odo with pulseLevel := s.odo.pulseLevel, assistLevel := s.odo.assistLevel
                        powerGood := s.odo.powerGood }
    pwr := { r.pwr with state := .off } }

/-- BACKUP_SUPPLY_FAIL (R186, R197). -/
def execBackupSupplyFail (left : List Upset) (s : State) : Out :=
  withArray left (.next (if s.pwr.state = .entering ∨ s.pwr.state = .retain then offState left s else s))

/-! ### The resume procedure (R191, R192) -/

/-- The straps and the assist input are sampled (02 R21, R33). -/
def sampleInputs (straps : Straps) (s : State) : State :=
  sampleAssist { s with odo.addrStrap := straps.addr, odo.calStrap := straps.cal
                        lif.address := straps.addr.toNat + 1 }

/-- Step 2: the tariff read and the window. -/
def resumeTariff (s : State) : State :=
  let s := { raiseReads (areaRows s.array) s with tar.committed := committedIn s.array }
  { s with tar.window := startWindow s, tar.written := 0 }

/-- Step 3: the line, and with the table the watches (01 R20, 05 R94). DESIGN CHOICE (log 45): the idle time of the line
is measured from the wake. -/
def resumeLine (s : State) : State :=
  { s with lif.stations := [], lif.queue := [], lif.tx := Transmitter.free, lif.rx := .skip, lif.lineFree := s.time
           cab.watches := [] }

/-- Step 4: the intercom (07 R143). DESIGN CHOICE (log 47): the four output samples stay as they were. -/
def resumeIntercom (s : State) : State :=
  { s with icm.calls := ⟨CallRec.idle, CallRec.idle, CallRec.idle⟩, icm.queue := [], icm.talk := .up
           icm.gains := Four.all Gains.zero, icm.prompts := [], icm.player := .idle, icm.promptSample := 0
           icm.ringDue := none }

/-- Step 5 for one slot (06 R118). -/
def resumeSlot (s : State) (i : Fin 4) : State :=
  match legAt s i with
  | none => s
  | some l =>
    if l.phase = .held then setLeg i { l with claim := none } s
    else match flyingAt s i with
      | some (l, a, due) => if due ≤ s.time then runOut i l a s else s
      | none => s

/-- Step 6 for one leg (04 R76). -/
def Leg.interrupt (l : Leg) : Leg := if l.occupied then { l with interrupted := true } else l

/-- Steps 5 and 6. DESIGN CHOICE (log 23): attempts that ran out in RETAIN join the unresolved list in slot order. -/
def resumeLegs (s : State) : State :=
  let s := allSlots.foldl resumeSlot s
  { s with fare.slots := s.fare.slots.map (Option.map Leg.interrupt) }

/-- The sector whose erase flag stands, if there is one (09 R166). -/
def flaggedSector (s : State) : Option Nat := (s.jnl.sectors.findIdx? (fun e => e.eraseFlag)).map (· + 2)

/-- Step 7: the journal; a waiting erase becomes due again (09 R180), but not of a sector that the due program goes
into (log 32). -/
def resumeJournal (s : State) : State :=
  let s := programDue { s with jnl.cursor := none, jnl.credit := 0 }
  match flaggedSector s with
  | some c =>
    if opPending (programsInto c) s then setSector c { sectorEntry s c with eraseFlag := false } s
    else requestOp (.journalErase c) s
  | none => s

/-- Step 8: the accounts (08 R161). -/
def resumeAccounts (s : State) : State := rewindHead { s with acc.credit := 0 }

/-- Step 9: the sign and the assist acknowledgment (05 R94). -/
def resumeSign (s : State) : State :=
  { s with cab.sign := { s.cab.sign with
             pattern := commandedPattern s, flag := s.cab.latch, seq := (s.cab.sign.seq + 1) % 256
             confirm := .waiting, resends := 0 }
           cab.ack := if s.cab.latch then some .unacked else none }

def placeOffers (s : State) : State :=
  allSlots.foldl (fun s i => match legAt s i with
    | none => s
    | some l => if l.phase = .held then offerLeg i s else s) s

def placeShows (s : State) : State :=
  allSlots.foldl (fun s i => if slotOccupied s i then showLeg i s else s) s

/-- Step 10: the classes are emptied, then filled. -/
def resumeNotices (s : State) : State :=
  let s := placeShows (placeOffers (placeSign (placeAnnounce { s with nsc := Nsc.empty })))
  refreshPrint (if s.cab.latch then noticeAssist s else s)

/-- Step 11: the timers, and the erase-ahead conditions. DESIGN CHOICE: the first sample period begins a whole period
after the wake (log 46), and the value taken at the latest fare tick stays as it was (log 48). -/
def resumeTimers (s : State) : State :=
  let now := s.time
  eraseAhead (evaluateBand { s with
    odo.tickDue := now + tickTime
    odo.window := List.replicate 10 0
    odo.moving := false
    odo.pulseCount := 0
    odo.pulseFrom := none
    odo.pulseQualified := s.odo.pulseLevel
    odo.powerFrom := now
    lif.announceDue := now + announceTime
    cab.signDue := some (now + signWait)
    cab.repeatDue := if s.cab.latch then some (now + assistRepeat) else none
    icm.holdDue := now + seconds 15
    icm.sampleDue := now + samplePeriod })

/-- The duration of RETAIN in whole seconds (R190). -/
def retainSeconds (s : State) : Nat := min max32 ((s.time - s.pwr.retainAt) / seconds 1)

/-- Step 12: the interruption and a press taken in RETAIN (R192). -/
def interruption (s : State) : State :=
  let s := countShift (fun t => { t with interruptions := satAdd 65535 t.interruptions 1 }) s
  let s := claimEventIfOpen s.odo.clock (.powerInterruption (retainSeconds s)) s
  if s.cab.wakeMark then pressEffects { s with cab.wakeMark := false } else s

/-- Steps 1 to 11 of the resume procedure (R191). -/
def resumed (s : State) : State :=
  let s := { s with pwr.state := .active, pwr.abandoned := false }
  let s := resumeLegs (resumeIntercom (resumeLine (resumeTariff s)))
  resumeTimers (resumeNotices (resumeSign (resumeAccounts (resumeJournal s))))

/-- The resume procedure, one event (R191). -/
def resumeProcedure (s : State) : State := interruption (resumed s)

/-- The check of R190, with retention memory changed by `lost` in its sum. -/
def checkPasses (lost : DataWord) (s : State) : Bool := decide (retentionSum s + lost = s.pwr.check)

/-- A wake: the retention check decides between the resume procedure and a cold start (R190). -/
def wakeBody (straps : Straps) (lost : DataWord) (us : List Upset) (s : State) : State :=
  let s := amending (passTo (s.odo.powerFrom + wakeTime)) s
  let t := sampleInputs straps { s with array := withUpsets s.array us }
  if checkPasses lost s then resumeProcedure t
  else { t with pwr.state := .starting, odo.powerFrom := t.time }

/-- WAKE (R190). -/
def execWake (straps : Straps) (lost : DataWord) (us : List Upset) (s : State) : Out :=
  withArray us (.next (if s.pwr.state = .retain ∧ s.odo.powerGood = true then wakeBody straps lost us s else s))

/-! ### The cold start (R193, R196) -/

/-- Step 1 of R193, in STARTING. -/
def startInputs (straps : Straps) (us : List Upset) (s : State) : State :=
  sampleInputs straps { s with
    array := withUpsets s.array us, flt.latched := 0, flt.coldFlag := true, pwr.state := .starting }

/-- The break the part sends (01 R19). -/
def ownBreak : Moment := 24 * charTime

/-- What the scan and the rebuild give JNL (R193 to R195). -/
def scannedJnl (m : Memory) : Jnl :=
  let pos := scannedPosition m
  let dir := scannedDirectory m
  let app := abandonedAppend m dir pos.1 (scannedOdometer m) pos.2
  { State.reset.jnl with
    append := app.1, writePos := pos.1, nextSeq := app.2, sectors := scannedSectors m, directory := dir }

/-- The state the procedure leaves before ACTIVE work begins: every block's cold-start values (R196). DESIGN CHOICE (log
46): the first sample period begins a whole period after the start. -/
def coldValues (s : State) : State :=
  let r := State.reset
  let now := s.time
  { r with
    pending := s.pending
    free := s.free
    time := now
    array := s.array
    lif := { r.lif with address := s.lif.address, lineFree := now + ownBreak, announceDue := now + announceTime }
    odo := { s.odo with
      pulseQualified := s.odo.pulseLevel, pulseFrom := none, pulseCount := 0, lastTaken := 0
      tickDue := now + tickTime, window := List.replicate 10 0, moving := false
      odometer := scannedOdometer s.array, clock := DateTime.epoch, clockSet := false
      secondDue := now + seconds 1, pendingTime := none, manualBand := none, vehicleBand := 0 }
    tar := { committed := committedIn s.array, window := if s.odo.calStrap then .opened else .closed, written := 0 }
    cab := { r.cab with signDue := some (now + signWait) }
    icm := { r.icm with holdDue := now + seconds 15, sampleDue := now + samplePeriod }
    acc := { r.acc with lastShift := ((scannedDirectory s.array).getLast?.map (·.shift)).getD 0 }
    jnl := scannedJnl s.array
    flt := s.flt }

/-- The procedure after step 1: the reads' faults, RETENTION_LOST, the cold-start values, and JNL's work once the
state is ACTIVE (R193 to R196). -/
def coldProcedure (s : State) : State :=
  let s := raise .retentionLost (raiseReads (ringRows s.array) (raiseReads (areaRows s.array) s))
  eraseAhead (programDue (coldValues s))

/-- A cold start, to its end or only into its first step (R193, log 8). -/
def coldStartBody (straps : Straps) (extent : StartExtent) (us : List Upset) (s : State) : State :=
  let s :=
    if s.pwr.state = .off then
      let s := passTo (s.odo.powerFrom + wakeTime) s
      { s with odo.powerFrom := s.time }
    else s
  let s := startInputs straps us s
  match extent with
  | .whole => coldProcedure s
  | .cut => s

/-- COLD_START (R193). -/
def execColdStart (straps : Straps) (extent : StartExtent) (us : List Upset) (s : State) : Out :=
  withArray us (.next
    (if (s.pwr.state = .off ∧ s.odo.powerGood = true) ∨ s.pwr.state = .starting then
      coldStartBody straps extent us s
    else s))

end Sys2Proof.Machine
end

