-- ==== Sys2Proof/Machine/Dispatch.lean ====
section
/-!
DEFINITION. The meaning of every command: one arm for each row of spec/opcode_table.json.
-/

namespace Sys2Proof.Machine

def exec (i : Instr) (s : State) : Host.Outcome State Fault Refusal :=
  match i with
  | .rxFrameComplete check => Sys2Proof.Machine.execRxFrameComplete check s
  | .lineBreak past => Sys2Proof.Machine.execBreak past s
  | .txAttemptStart => Sys2Proof.Machine.execTxAttemptStart s
  | .attemptLost => Sys2Proof.Machine.execAttemptLost s
  | .txSuccess => Sys2Proof.Machine.execTxSuccess s
  | .silenceTimeout addr => Sys2Proof.Machine.execSilenceTimeout addr s
  | .stationRemoval addr => Sys2Proof.Machine.execStationRemoval addr s
  | .announceTimer => Sys2Proof.Machine.execAnnounceTimer s
  | .announce => Sys2Proof.Machine.execAnnounce s
  | .pulseEdge => Sys2Proof.Machine.execPulseEdge s
  | .fareTick => Sys2Proof.Machine.execFareTick s
  | .watchFires panel => Sys2Proof.Machine.execWatchFires panel s
  | .clockSecond => Sys2Proof.Machine.execClockSecond s
  | .timeSet => Sys2Proof.Machine.execTimeSet s
  | .band => Sys2Proof.Machine.execBand s
  | .assistInputChange high => Sys2Proof.Machine.execAssistInputChange high s
  | .assistPress => Sys2Proof.Machine.execAssistPress s
  | .powerGoodChange high => Sys2Proof.Machine.execPowerGoodChange high s
  | .powerLoss => Sys2Proof.Machine.execPowerLoss s
  | .retainEntryComplete => Sys2Proof.Machine.execRetainEntryComplete s
  | .backupSupplyFail left => Sys2Proof.Machine.execBackupSupplyFail left s
  | .wake straps lost upsets => Sys2Proof.Machine.execWake straps lost upsets s
  | .coldStart straps extent upsets => Sys2Proof.Machine.execColdStart straps extent upsets s
  | .tariffBegin => Sys2Proof.Machine.execTariffBegin s
  | .tariffEraseComplete => Sys2Proof.Machine.execTariffEraseComplete s
  | .tariffPart => Sys2Proof.Machine.execTariffPart s
  | .tariffPartProgramComplete => Sys2Proof.Machine.execTariffPartProgramComplete s
  | .tariffMarkProgramComplete => Sys2Proof.Machine.execTariffMarkProgramComplete s
  | .tariffCommit => Sys2Proof.Machine.execTariffCommit s
  | .tariffCommitProgramComplete upsets => Sys2Proof.Machine.execTariffCommitProgramComplete upsets s
  | .shiftOpen => Sys2Proof.Machine.execShiftOpen s
  | .shiftClose => Sys2Proof.Machine.execShiftClose s
  | .duty => Sys2Proof.Machine.execDuty s
  | .book => Sys2Proof.Machine.execBook s
  | .hire => Sys2Proof.Machine.execHire s
  | .hold => Sys2Proof.Machine.execHold s
  | .resume => Sys2Proof.Machine.execResume s
  | .void => Sys2Proof.Machine.execVoid s
  | .extra => Sys2Proof.Machine.execExtra s
  | .flat => Sys2Proof.Machine.execFlat s
  | .payClaim => Sys2Proof.Machine.execPayClaim s
  | .claimDeadline slot => Sys2Proof.Machine.execClaimDeadline slot s
  | .payStart => Sys2Proof.Machine.execPayStart s
  | .payResult => Sys2Proof.Machine.execPayResult s
  | .payCancel => Sys2Proof.Machine.execPayCancel s
  | .attemptDeadline slot => Sys2Proof.Machine.execAttemptDeadline slot s
  | .cash => Sys2Proof.Machine.execCash s
  | .tip => Sys2Proof.Machine.execTip s
  | .signResendTimer => Sys2Proof.Machine.execSignResendTimer s
  | .signState => Sys2Proof.Machine.execSignState s
  | .seat => Sys2Proof.Machine.execSeat s
  | .assistRepeatTimer => Sys2Proof.Machine.execAssistRepeatTimer s
  | .assistAck => Sys2Proof.Machine.execAssistAck s
  | .assistClear => Sys2Proof.Machine.execAssistClear s
  | .samplePeriod m0 m1 m2 m3 => Sys2Proof.Machine.execSamplePeriod m0 m1 m2 m3 s
  | .call => Sys2Proof.Machine.execCall s
  | .ringTimer => Sys2Proof.Machine.execRingTimer s
  | .holdBoundary => Sys2Proof.Machine.execHoldBoundary s
  | .answer => Sys2Proof.Machine.execAnswer s
  | .endCall => Sys2Proof.Machine.execEndCall s
  | .talk => Sys2Proof.Machine.execTalk s
  | .privacy => Sys2Proof.Machine.execPrivacy s
  | .printCredit => Sys2Proof.Machine.execPrintCredit s
  | .journalRead => Sys2Proof.Machine.execJournalRead s
  | .journalCredit => Sys2Proof.Machine.execJournalCredit s
  | .journalRelease => Sys2Proof.Machine.execJournalRelease s
  | .journalProgramComplete => Sys2Proof.Machine.execJournalProgramComplete s
  | .journalEraseComplete => Sys2Proof.Machine.execJournalEraseComplete s
  | .faultAck => Sys2Proof.Machine.execFaultAck s
  | .lineCharacter c => Sys2Proof.Machine.execLineCharacter c s
  | .receiverIdleGap => Sys2Proof.Machine.execReceiverIdleGap s
  | .fareShowSendInterval slot => Sys2Proof.Machine.execFareShowSendInterval slot s
  | .pulseInputChange high => Sys2Proof.Machine.execPulseInputChange high s
  | .discardedKindFrame => Sys2Proof.Machine.execDiscardedKindFrame s

end Sys2Proof.Machine
end

