-- ==== Sys2Proof/Safety.lean ====
section
/-!
DEFINITION. What the statements speak of: a request that passes the line interface's checks, its answer, what a
request leaves of the line interface, and the properties every state of the part is to have.
-/

namespace Sys2Proof.Machine

/-! ### Requests and answers -/

/-- A frame of kind k stands at the head of the receive queue of an ACTIVE part, with `rest` behind it, and passes
the checks of 01 R10: its sender has the entry e, whose role may send it, and its length is allowed. -/
abbrev Asks (k : ReqKind) (q : QFrame) (e : Station) (rest : List QFrame) (s : State) : Prop :=
  s.pwr.state = .active ∧ s.lif.queue = q :: rest ∧ ReqKind.ofCode q.kind = some k ∧ stationOf s q.src = some e
    ∧ mayRole e.role k = true ∧ q.payload.length ∈ lengths k

/-- A reply has joined class 1, or was dropped with TX_OVERRUN when 6 replies waited (01 R11, R16). -/
abbrev Replied (r : Reply) (s t : State) : Prop :=
  if s.nsc.replies.length < 6 then t.nsc.replies = s.nsc.replies ++ [r]
  else t.nsc.replies = s.nsc.replies ∧ t.flt.latched.getLsbD 2 = true

/-- The answer to q has joined class 1, or was dropped. -/
abbrev Answered (q : QFrame) (a : Answer) (s t : State) : Prop := Replied ⟨q.src, q.kind, a⟩ s t

/-- The leg a request names (04 R50) stands in slot i and is l. -/
abbrev LegNamed (q : QFrame) (i : Fin 4) (l : Leg) (s : State) : Prop :=
  findLeg s (q.at 0 2) = some i ∧ legAt s i = some l

/-- An operation of the array has started, or waits behind those before it (09 R162). -/
abbrev OpAsked (op : ArrayOp) (s t : State) : Prop :=
  t.jnl = if s.jnl.inFlight = none ∧ s.jnl.waiting = [] then { s.jnl with inFlight := some op }
    else { s.jnl with waiting := s.jnl.waiting ++ [op] }

/-- A reference that named an address has ended (01 R9): the station table and the watches stand as they were, unless
the address's entry is ABSENT and past its 36 s, which may then have left them. -/
abbrev ReferenceEnded (a : Nat) (s t : State) : Prop :=
  (t.lif.stations = s.lif.stations ∧ t.cab.watches = s.cab.watches ∧ t.acc.credit = s.acc.credit)
    ∨ (∃ e, stationOf s a = some e ∧ e.present = false ∧ e.silenceFrom + 518400000 ≤ t.time
      ∧ t.lif.stations = s.lif.stations.filter (fun x => decide (x.addr ≠ a))
      ∧ t.cab.watches = s.cab.watches.filter (fun w => decide (w.addr ≠ a))
      ∧ (t.acc.credit = s.acc.credit ∨ e.role = .printer))

/-- The transmitter is as it was, but for the mark that its notice's content was touched, or it has let the notice go;
it holds no notice between attempts that is not sendable (01 R14). -/
abbrev TransmitterKept (s t : State) : Prop :=
  (t.lif.tx = Transmitter.free ∨ t.lif.tx = { s.lif.tx with renewed := t.lif.tx.renewed })
    ∧ (t.lif.tx.sending = none → ∀ n, t.lif.tx.held = some n → sendable t n = true)

/-- The line interface is as it was but for the frame taken, and the transmitter is kept. -/
abbrev LineKept (rest : List QFrame) (s t : State) : Prop :=
  t.lif = { s.lif with queue := rest, tx := t.lif.tx } ∧ TransmitterKept s t

/-- The line interface is as it was but for the frame taken, the transmitter is kept, and of the stations only the one
an ended reference named may have left (01 R9). -/
abbrev LineLosing (rest : List QFrame) (named : Option Nat) (s t : State) : Prop :=
  t.lif = { s.lif with queue := rest, tx := t.lif.tx, stations := t.lif.stations } ∧ TransmitterKept s t
    ∧ (match named with
      | some a => ReferenceEnded a s t
      | none => t.lif.stations = s.lif.stations ∧ t.cab.watches = s.cab.watches ∧ t.acc.credit = s.acc.credit)

/-- The fault set is as it was but for TX_OVERRUN, which an answer that finds class 1 full raises. -/
abbrev FaultsKept (s t : State) : Prop :=
  t.flt.coldFlag = s.flt.coldFlag ∧ (∀ i, i ≠ 2 → t.flt.latched.getLsbD i = s.flt.latched.getLsbD i)
    ∧ (s.nsc.replies.length < 6 → t.flt = s.flt)

/-- PRINT_LOST has been raised (08 R156): the fault set is as it was but for that, and for TX_OVERRUN as in
`FaultsKept`. -/
abbrev PrintLost (s t : State) : Prop :=
  t.flt.coldFlag = s.flt.coldFlag ∧ t.flt.latched.getLsbD 9 = true
    ∧ (∀ k, k ≠ 2 → k ≠ 9 → t.flt.latched.getLsbD k = s.flt.latched.getLsbD k)
    ∧ (s.nsc.replies.length < 6 → t.flt.latched.getLsbD 2 = s.flt.latched.getLsbD 2)

/-- A request has been refused: its answer, and nothing else. -/
abbrev OnlyRefused (q : QFrame) (c : RefusalCode) (rest : List QFrame) (s t : State) : Prop :=
  Answered q (.refused c) s t ∧ LineKept rest s t ∧ FaultsKept s t
    ∧ t = { s with lif := t.lif, nsc := { s.nsc with replies := t.nsc.replies }, flt := t.flt }

/-- The class a notice stands in (01 R16). -/
def noticeClass : Notice → Nat
  | .assist => 0
  | .reply => 1
  | .sign => 2
  | .offer _ => 3
  | .call _ => 4
  | .fare _ => 5
  | .fleet _ => 6
  | .journal => 7
  | .print => 8
  | .announce => 9

/-- The command that a request or report kind is (01 R10). -/
def commandOf : ReqKind → Instr
  | .announce => .announce
  | .shiftOpen => .shiftOpen
  | .shiftClose => .shiftClose
  | .duty => .duty
  | .book => .book
  | .hire => .hire
  | .hold => .hold
  | .resume => .resume
  | .void => .void
  | .extra => .extra
  | .flat => .flat
  | .band => .band
  | .cash => .cash
  | .tip => .tip
  | .faultAck => .faultAck
  | .talk => .talk
  | .answer => .answer
  | .endCall => .endCall
  | .privacy => .privacy
  | .call => .call
  | .seat => .seat
  | .payClaim => .payClaim
  | .payStart => .payStart
  | .payResult => .payResult
  | .payCancel => .payCancel
  | .signState => .signState
  | .timeSet => .timeSet
  | .assistAck => .assistAck
  | .assistClear => .assistClear
  | .journalRead => .journalRead
  | .journalCredit => .journalCredit
  | .journalRelease => .journalRelease
  | .printCredit => .printCredit
  | .tariffBegin => .tariffBegin
  | .tariffPart => .tariffPart
  | .tariffCommit => .tariffCommit

/-- The port the entry of an address holds once an ANNOUNCE of role r that names a port has been acted on, `held`
being the port it held before (01 R7). -/
def portAfter (s : State) (a : Nat) (held named : Option Port) (r : Role) : Option Port :=
  if r ≠ .panel then held
  else match held, named with
    | some p, _ => some p
    | none, some p => if heldElsewhere s p a then none else some p
    | none, none => none

/-- An ANNOUNCE that names a port raises ADDRESS_CLASH (01 R7): the panel's entry holds another, or another PRESENT panel
holds the port named. -/
def portClash (s : State) (a : Nat) (held named : Option Port) (r : Role) : Bool :=
  decide (r = .panel) && (match held, named with
    | some h, some p => decide (h ≠ p)
    | none, some p => heldElsewhere s p a
    | _, none => false)

/-- Another station's entry once an ANNOUNCE from the address a has been acted on: an ABSENT entry that held the port now
taken loses its binding (01 R7). -/
def bystander (s : State) (a : Nat) (held named : Option Port) (r : Role) (e : Station) : Station :=
  if held = none ∧ (portAfter s a held named r).isSome ∧ e.port = portAfter s a held named r then
    { e with port := none }
  else e

/-- The seconds from 2000-01-01 00:00:00 to a date and time (02 R27). -/
def secondsSince (t : DateTime) : Nat := t.dayNumber * 86400 + t.hour * 3600 + t.minute * 60 + t.second

/-- A record's row is claimed (09 R165, R168 to R171): it joins the append queue with the next sequence number, a
SHIFT_OPEN makes its directory entry, and the work that then falls due, the head's program and an erase ahead, is what
the journal starts. -/
abbrev RowClaimed (r : Record) (s t : State) : Prop :=
  t.jnl.append = s.jnl.append ++ [⟨s.jnl.nextSeq, r⟩] ∧ t.jnl.nextSeq = s.jnl.nextSeq + 1
    ∧ t.jnl.directory = s.jnl.directory ++ newEntries r s.jnl.nextSeq ∧ t.jnl.cursor = s.jnl.cursor
    ∧ t.jnl.credit = s.jnl.credit ∧ t.jnl = (eraseAhead (programDue (enqueueRecord r s))).jnl

/-- What asking JNL for an EVENT row does (09 R169): the row is claimed, or the shift accounts count an event not
journalled; with no shift open nothing is asked for. `s` is the state that is asked. -/
abbrev EventAsked (time : DateTime) (b : EventBody) (s t : State) : Prop :=
  if shiftIsOpen s = false then t.jnl = s.jnl ∧ t.acc = s.acc
  else if eventGranted s b = true then
    RowClaimed (.event ⟨s.acc.shift.number, time, b⟩) s t ∧ t.acc = s.acc
  else t.jnl = s.jnl ∧ t.acc = { s.acc with shift := { s.acc.shift with
    totals := { s.acc.shift.totals with notJournalled := min 65535 (s.acc.shift.totals.notJournalled + 1) } } }

/-- The part with an open shift's totals counted, as it stands when the journal is then asked. -/
abbrev counting (f : Totals → Totals) (s : State) : State :=
  if shiftIsOpen s then
    { s with acc := { s.acc with shift := { s.acc.shift with totals := f s.acc.shift.totals } } }
  else s

/-- A prompt queue with an entry asked for (07 R138, R139): dropped when 8 stand. -/
abbrev prompted (queue : List Prompt) (k : PromptKind) (spk : Fin 4) : List Prompt :=
  if queue.length < 8 then queue ++ [⟨k, onlySpk spk⟩] else queue

/-- The LEG record of a leg's close (04 R70): the leg's values, the open shift's number, the clock, and whole metres and
seconds of the leg's counters. -/
abbrev closingRecord (s : State) (l : Leg) : LegRecord :=
  { shift := if s.acc.shift.state = .opened then s.acc.shift.number else 0
    number := l.number, panel := l.panel, share := l.share, openBand := l.openBand, regBand := l.regBand, kind := l.kind
    ceiling := l.ceiling, voided := l.voided, interrupted := l.interrupted, openTime := l.openTime
    closeTime := s.odo.clock, booking := l.booking, steps := l.steps, farePart := l.farePart
    extrasTotal := l.extrasTotal, total := l.farePart + l.extrasTotal, tip := l.tip, extraCounts := l.extraCounts
    distance := l.hiredPulses * 1000 / tariffK s, hiredTime := l.hiredTicks / 10, sharedTime := l.sharedTicks / 10
    tenders := l.tenders }

/-- The shift's totals with a closed leg fed into them (08 R149, R150): a voided leg is counted as that; of another the
counts rise, and the five money totals move as a group, or all stay with money held where one would pass 999,999,999. -/
abbrev closedTotals (r : LegRecord) (c : Totals) : Totals :=
  let cash := ((r.tenders.filter (fun x => decide (x.kind = .cash))).map (·.amount)).sum
  let card := ((r.tenders.filter (fun x => decide (x.kind ≠ .cash))).map (·.amount)).sum
  let tip := r.tip.getD 0
  if r.voided = true then { c with legsVoided := min 9999 (c.legsVoided + 1) }
  else
    let counted : Totals := { c with
      legsClosed := min 9999 (c.legsClosed + 1)
      sharedLegs := min 9999 (c.sharedLegs + (if r.share = .shared then 1 else 0)) }
    if c.fare + r.farePart ≤ 999999999 ∧ c.extras + r.extrasTotal ≤ 999999999 ∧ c.tips + tip ≤ 999999999
        ∧ c.card + card ≤ 999999999 ∧ c.cash + cash ≤ 999999999 then
      { counted with fare := c.fare + r.farePart, extras := c.extras + r.extrasTotal, tips := c.tips + tip
                     card := c.card + card, cash := c.cash + cash }
    else { counted with moneyHeld := 1 }

/-- A reference has ended with the removal of a printer's entry (01 R9), which pauses the print jobs (08 R160). -/
abbrev printerGone (named : Option Nat) (s t : State) : Bool :=
  decide (t.lif.stations ≠ s.lif.stations) && (named.bind (stationOf s)).any (fun e => decide (e.role = .printer))

/-- The print jobs with the head back at its first item, which a printer's absence or removal leaves (08 R160). -/
abbrev rewoundJobs (jobs : List Job) : List Job :=
  match jobs with
  | [] => []
  | j :: rest => { j with pos := 0 } :: rest

/-- The item the head of a job list stands at (08 R159). -/
abbrev firstItem (jobs : List Job) : Option PrintItem := jobs.head?.bind (fun j => (jobItems j.body)[j.pos]?)

/-- The print jobs as the end of a reference leaves them. -/
abbrev pausedJobs (named : Option Nat) (s t : State) : List Job :=
  if printerGone named s t = true then rewoundJobs s.acc.jobs else s.acc.jobs

/-- The print slot as the end of a reference leaves it. -/
abbrev pausedPrint (named : Option Nat) (s t : State) : Option PrintItem :=
  if printerGone named s t = true ∧ s.acc.jobs ≠ [] then firstItem (rewoundJobs s.acc.jobs) else s.nsc.print

/-- The occupied count has been reported with no leg opened (05 R81, 07 R137): at 0 the duty state is VACANT and the
share mode none; privacy is forced while the duty state is HIRED and the share mode SHARED, and where that begins it is
turned on. -/
abbrev OccupancyReported (s t : State) : Prop :=
  (if occupied t = 0 then t.cab.duty = .vacant ∧ t.cab.share = none
    else t.cab.duty = s.cab.duty ∧ t.cab.share = s.cab.share)
    ∧ t.icm.forced = (decide (t.cab.duty = .hired) && decide (t.cab.share = some .shared))
    ∧ t.icm.privacy = (s.icm.privacy || (t.icm.forced && !s.icm.forced))

/-- A leg with its final values has entered CLOSING (04 R69, R70, R74, 08 R149, R150, R156, 05 R81): its slot and its
FARE_SHOW, its row, the shift's totals, the reported count, and the RECEIPT of a leg not voided, which joins the print
jobs (a flat one's zone fare is log 22) or, when 4 stand, is dropped with PRINT_LOST. `named` is the address whose
reference ended with it. -/
abbrev LegClosed (i : Fin 4) (l : Leg) (named : Option Nat) (s t : State) : Prop :=
  let shut : Leg := { l with phase := .closing }
  let r := closingRecord s l
  let jobs := pausedJobs named s t
  let receipt : Job := ⟨.receipt r (receiptZoneFare s r.kind), 0⟩
  t.fare = { s.fare with slots := s.fare.slots.set i (some shut) }
    ∧ t.nsc.fares = s.nsc.fares.set i (some (showOf shut))
    ∧ RowClaimed (.leg r) s t
    ∧ t.acc.shift = { s.acc.shift with totals := closedTotals r s.acc.shift.totals }
    ∧ OccupancyReported s t
    ∧ (if l.voided = true then t.acc.jobs = jobs ∧ t.nsc.print = pausedPrint named s t ∧ FaultsKept s t
      else if jobs.length < 4 then t.acc.jobs = jobs ++ [receipt] ∧ FaultsKept s t
        ∧ t.nsc.print = (if jobs = [] then firstItem [receipt] else pausedPrint named s t)
      else t.acc.jobs = jobs ∧ t.nsc.print = pausedPrint named s t ∧ PrintLost s t)

/-- A leg with its final values is settled (06 R116): its claim, held by `named`, and its offer are gone, it is closed,
and a PAID prompt is asked for at its prompt port; `unresolved` is what the list of unresolved attempts becomes. -/
abbrev LegSettled (i : Fin 4) (l : Leg) (named : Option Nat) (unresolved : List Unresolved) (rest : List QFrame)
    (s t : State) : Prop :=
  LegClosed i l named s t ∧ LineLosing rest named s t ∧ t.nsc.offers = s.nsc.offers.set i none
    ∧ t.icm.prompts = prompted s.icm.prompts .paid (promptSpeaker s l)
    ∧ t = { s with
        lif := t.lif, fare := t.fare, flt := t.flt, jnl := t.jnl
        nsc := { s.nsc with replies := t.nsc.replies, offers := t.nsc.offers, fares := t.nsc.fares
                            print := t.nsc.print, sign := t.nsc.sign }
        cab := { s.cab with duty := t.cab.duty, share := t.cab.share, sign := t.cab.sign, signDue := t.cab.signDue
                            watches := t.cab.watches }
        icm := { s.icm with forced := t.icm.forced, privacy := t.icm.privacy, prompts := t.icm.prompts }
        acc := { s.acc with shift := t.acc.shift, unresolved := unresolved, jobs := t.acc.jobs
                            credit := t.acc.credit } }

/-- JNL's look at the ring row w is decided there (09 R165): the head's program is held by a sector neither ERASED nor
reclaimable, is due at a FREE row, or waits for a reclaimable sector's erase. -/
abbrev DecidedAt (w : Nat) (t : State) : Prop :=
  t.jnl.writePos = w
    ∧ (if w % 16 = 0 ∧ sectorErased t (w / 16) = false ∧ reclaimable t (w / 16) = false then
        opPending isJournalProgram t = false ∧ t.jnl.waitsErase = true
      else if rowFree t w = true then t.jnl.inFlight = some (.journalProgram w) ∧ t.jnl.waitsErase = false
      else opPending isJournalProgram t = false ∧ t.jnl.waitsErase = false)

/-- JNL has looked for the append queue's head from the ring row w (09 R165): it is decided there, or at the next FREE row
of the sector, or at row 0 of the next sector where that row is FREE or its sector not ERASED. -/
abbrev WritesOn (w : Nat) (t : State) : Prop :=
  let halts := fun r => rowFree t r = true ∨ (r % 16 = 0 ∧ sectorErased t (r / 16) = false)
  let next := nextSector (w / 16) * 16
  (halts w → DecidedAt w t)
    ∧ (¬ halts w → ∀ r, w < r → r / 16 = w / 16 → rowFree t r = true →
        (∀ k, w < k → k < r → rowFree t k = false) → DecidedAt r t)
    ∧ (¬ halts w → (∀ r, w < r → r / 16 = w / 16 → rowFree t r = false) → halts next → DecidedAt next t)

/-- JNL has come to the row of a cursor (09 R162, R176, R177): the row's content is kept and its quarter placed, or its
read waits for the array, or with no such row JOURNAL_END is placed. -/
abbrev RowPlaced (c : Cursor) (s t : State) : Prop :=
  match ((dirEntry s c.shift).map (shiftRows s)).bind (fun rows => rows[c.index]?) with
  | some r =>
    let kept := (contentBytes (rowAt s.array r), decide (classify (rowAt s.array r) = .damaged))
    if s.jnl.inFlight = none then
      t.jnl.cursor = some { c with row := some kept, readWaits := false }
        ∧ t.nsc.journal = some (frameOfRow c kept)
    else t.jnl.cursor = some { c with row := none, readWaits := true } ∧ t.nsc.journal = none
  | none =>
    t.jnl.cursor = some { c with row := none, readWaits := false }
      ∧ t.nsc.journal
        = some (.fin c.shift c.sent ((dirEntry s c.shift).any (fun d => decide (d.state = .opened))))

/-- The next play of a prompt queue (07 R139, R141): the first entry with a destination left, n samples of which have
been given; those before it are discarded. -/
abbrev PlayStarts (n : Nat) (queue : List Prompt) (s t : State) : Prop :=
  ((∀ x ∈ queue, noDest (boundDests s x.dests) = true) → t.icm.player = .idle ∧ t.icm.prompts = [])
    ∧ (∀ before x rest, queue = before ++ x :: rest → (∀ y ∈ before, noDest (boundDests s y.dests) = true) →
      noDest (boundDests s x.dests) = false → t.icm.prompts = rest
        ∧ t.icm.player = .playing x.kind (boundDests s x.dests) 0 ((segmentAt x.kind 0).2 - n)
            (n * toneIncrement (segmentAt x.kind 0).1))

/-- The actions of leaving RINGING (07 R129), on a prompt queue: the ring timer stops, a waiting RING leaves the queue,
and a RING in play gives way to the next play. -/
abbrev RingingLeft (queue : List Prompt) (s t : State) : Prop :=
  let others := queue.filter (fun x => decide (x.kind ≠ .ring))
  t.icm.ringDue = none
    ∧ (match s.icm.player with
      | .playing .ring _ _ _ _ => PlayStarts 0 others s t ∧ t.icm.promptSample = 0
      | _ => t.icm.prompts = others ∧ t.icm.player = s.icm.player ∧ t.icm.promptSample = s.icm.promptSample)

/-- ICM has been told that the port an entry held has become unbound (07 R134): its call leaves the queue, or its grant
goes to RELEASING, with reason ABSENT; CALL_STATE is placed for it and for the ports that move up (R125, R127), the
actions of leaving RINGING follow (R129), and a talk to it ends. `u` is the part as ICM is told. -/
abbrev PortUnbound (held : Option Port) (u t : State) : Prop :=
  let ends := fun (p : Port) => held = some p ∧ callPhase u p ≠ .idle ∧ callPhase u p ≠ .releasing
  (∀ p, ends p → callRec t p = { callRec u p with
      phase := if callPhase u p = .queued then .idle else .releasing, reason := .absent })
    ∧ (∀ p, ¬ ends p → callRec t p = callRec u p)
    ∧ (∀ p, t.nsc.calls.get p = if ends p ∨ ((∃ x ∈ t.icm.queue, x.port = p)
          ∧ placeIn u.icm.queue p ≠ placeIn t.icm.queue p) then some (callNotice { t with lif := u.lif } p)
        else u.nsc.calls.get p)
    ∧ t.icm.queue = u.icm.queue.filter (fun x => !(decide (held = some x.port)
        && decide (callPhase u x.port = .queued)))
    ∧ (if (∃ p, held = some p ∧ callPhase u p = .ringing) then RingingLeft u.icm.prompts u t
      else t.icm.ringDue = u.icm.ringDue ∧ t.icm.prompts = u.icm.prompts ∧ t.icm.player = u.icm.player
        ∧ t.icm.promptSample = u.icm.promptSample)
    ∧ t.icm.talk = (if (∃ p, held = some p ∧ u.icm.talk = .down (.one p)) then .up else u.icm.talk)

/-! ### What a cold start finds in the array -/

/-- A readable row of the ring (09 R164). -/
abbrev JournalRow (m : Memory) (r : Nat) : Prop := ringRow r = true ∧ readable (rowAt m r) = true

/-- The sequence number a row carries (11 R200). -/
abbrev seqAt (m : Memory) (r : Nat) : Nat := rowSeq (rowAt m r)

/-- A readable row of the ring that carries a shift's number (10 R194). -/
abbrev ShiftRow (m : Memory) (n r : Nat) : Prop := JournalRow m r ∧ rowShift (rowAt m r) = n

/-- A shift's readable row of the record kind a header names (11 R200). -/
abbrev KindRow (m : Memory) (h : DataWord) (n r : Nat) : Prop :=
  ShiftRow m n r ∧ readableHeader (rowAt m r) = some h

/-- The lowest sequence number among a shift's readable rows (10 R194). -/
abbrev LowestSeq (m : Memory) (n v : Nat) : Prop :=
  (∃ r, ShiftRow m n r ∧ seqAt m r = v) ∧ ∀ r, ShiftRow m n r → v ≤ seqAt m r

/-- A shift's first row sequence: that of its SHIFT_OPEN row, or with none readable the lowest (10 R194). -/
abbrev FirstSeq (m : Memory) (n v : Nat) : Prop :=
  (∃ r, KindRow m headerShiftOpen n r ∧ seqAt m r = v)
    ∨ ((∀ r, ¬ KindRow m headerShiftOpen n r) ∧ LowestSeq m n v)

/-- A shift stands before another in the order of their lowest sequence numbers (10 R194). -/
abbrev ShiftBefore (m : Memory) (n k : Nat) : Prop := ∃ v w, LowestSeq m n v ∧ LowestSeq m k w ∧ v < w

/-- A shift directory is rebuilt (10 R194): an entry for each shift number the ring's readable rows carry, of more than 16
those of the highest first row sequences, in order; a close row gives last row sequence and state, and of the shifts
without one the latest is OPEN, every other ABANDONED up to the next shift's first row. Shifts that tie in the order, which
no run's rows do, are left open. -/
abbrev DirectoryRebuilt (m : Memory) (dir : List DirEntry) : Prop :=
  (∀ n r, ShiftRow m n r → (∃ d ∈ dir, d.shift = n)
      ∨ ∃ v, FirstSeq m n v ∧ 16 ≤ (dir.filter (fun d => decide (v < d.first))).length)
    ∧ dir.Pairwise (fun d e => d.shift ≠ e.shift ∧ ¬ ShiftBefore m e.shift d.shift)
    ∧ (∀ d ∈ dir, (dir.filter (fun e => decide (d.first < e.first))).length < 16 ∧ FirstSeq m d.shift d.first
      ∧ ((∃ r, KindRow m headerShiftClose d.shift r) → ∃ r, KindRow m headerShiftClose d.shift r
          ∧ d.last = some (seqAt m r)
          ∧ d.state = (if field (rowBytes (rowAt m r)) 8 1 = 1 then .closed else .abandoned))
      ∧ ((∀ r, ¬ KindRow m headerShiftClose d.shift r) →
          ((∀ n r, ShiftRow m n r → n ≠ d.shift → ShiftBefore m n d.shift) → d.last = none ∧ d.state = .opened)
          ∧ (∀ k, ShiftBefore m d.shift k →
              (∀ n r, ShiftRow m n r → n ≠ d.shift → n ≠ k → ShiftBefore m n d.shift ∨ ShiftBefore m k n) →
              d.state = .abandoned ∧ ∃ v, FirstSeq m k v ∧ d.last = some (v - 1))))

/-- A sequence number that a sector's rows bring into its range (09 R166): a readable row's own, and for a DAMAGED row those
of the nearest readable rows before and after it in ring order (round the ring's end, log 37). -/
abbrev SectorSeq (m : Memory) (c n : Nat) : Prop :=
  ∃ r b, r / 16 = c ∧ JournalRow m b ∧ seqAt m b = n
    ∧ (b = r ∨ (classify (rowAt m r) = .damaged
      ∧ ((∀ k, JournalRow m k → (r + 2016 - b) % 2016 ≤ (r + 2016 - k) % 2016)
        ∨ (∀ k, JournalRow m k → (b + 2016 - r) % 2016 ≤ (k + 2016 - r) % 2016))))

/-- The entry of a sector of the ring is rebuilt (09 R166): ERASED when its 16 rows read FREE, else IN_USE with a range that
spans its rows' sequence numbers; no erase flag is set (10 R193). -/
abbrev SectorRebuilt (m : Memory) (c : Nat) (e : SectorEntry) : Prop :=
  e.eraseFlag = false ∧ (e.erased = true ↔ ∀ r, r / 16 = c → classify (rowAt m r) = .free)
    ∧ (e.range = none → ∀ n, ¬ SectorSeq m c n)
    ∧ (∀ lo hi, e.range = some (lo, hi) → SectorSeq m c lo ∧ SectorSeq m c hi
      ∧ ∀ n, SectorSeq m c n → lo ≤ n ∧ n ≤ hi)

/-- The odometer is recovered (02 R26): the reading of the SHIFT_OPEN or SHIFT_CLOSE row of the highest sequence number, 0
with none readable. -/
abbrev OdometerRecovered (m : Memory) (odometer : Nat) : Prop :=
  let carries := fun (r : Nat) => JournalRow m r ∧ (readableHeader (rowAt m r) = some headerShiftOpen
    ∨ readableHeader (rowAt m r) = some headerShiftClose)
  ((∀ r, ¬ carries r) → odometer = 0)
    ∧ (∀ r, carries r → (∀ k, carries k → k ≠ r → seqAt m k < seqAt m r) →
      odometer = field (rowBytes (rowAt m r))
        (if readableHeader (rowAt m r) = some headerShiftOpen then 18 else 30) 4)

/-- The rows of the ring from one to another in ring order, both included (10 R195, log 36). -/
abbrev spanRows (first last : Nat) : List Nat :=
  (List.range ((last + 2016 - first) % 2016 + 1)).map (fun k => (first - 32 + k) % 2016 + 32)

/-- The five sums of money with a leg's added, in Table 8-1's order (08 R150). -/
abbrev addedMoney (sums amounts : List Nat) : List Nat := List.zipWith (fun x y => x + y) sums amounts

/-- No sum of money passes its range (08 R150). -/
abbrev moneyFits (sums : List Nat) : Bool := sums.all (fun x => decide (x ≤ 999999999))

/-- The ABANDONED record of a shift found OPEN is built (10 R195) from its span, which runs from the row `first` of its
first row sequence to the write position: head and times, the counts and sums of Table 8-1 with their saturation, and the
money leg by leg under the group rule of 08 R150. The earliest time counts a LEG row's open time too (log 36). -/
abbrev AbandonedBuilt (m : Memory) (shift first last odometer : Nat) (c : CloseRecord) : Prop :=
  let rows := spanRows first last
  let at' := fun (i n r : Nat) => field (rowBytes (rowAt m r)) i n
  let time := fun (i r : Nat) => timeAt (rowBytes (rowAt m r)) i
  let kind := fun (h : DataWord) => rows.filter (fun r => decide (KindRow m h shift r))
  let event := fun (t : Nat) => (kind headerEvent).filter (fun r => decide (at' 8 1 r = t))
  let legs := kind headerLeg
  let voided := legs.filter (fun r => decide (at' 16 1 r / 2 % 2 = 1))
  let paid := legs.filter (fun r => decide (at' 16 1 r / 2 % 2 ≠ 1))
  let tenders := fun (k r : Nat) => ((List.range (min 4 (at' 17 1 r))).map (fun i =>
    if at' (76 + 12 * i) 1 r = k then at' (76 + 12 * i + 2) 4 r else 0)).sum
  let amounts := fun (r : Nat) => [at' 40 4 r, at' 44 4 r, at' 52 4 r, tenders 2 r, tenders 1 r]
  let timed := (kind headerShiftOpen).map (fun r => (r, time 12 r)) ++ legs.map (fun r => (r, time 24 r))
    ++ (kind headerEvent).map (fun r => (r, time 10 r))
  let times := legs.map (time 18) ++ timed.map (fun x => x.2)
  c.shift = shift ∧ c.abandoned = true ∧ c.odoClose = odometer
    ∧ (match kind headerShiftOpen with
      | o :: _ => c.driver = at' 8 4 o ∧ c.openTime = time 12 o ∧ c.odoOpen = at' 18 4 o
      | [] => c.driver = 0 ∧ c.odoOpen = 0
        ∧ (times ≠ [] → c.openTime ∈ times ∧ ∀ t ∈ times, c.openTime.key ≤ t.key))
    ∧ (∀ x ∈ timed, (∀ y ∈ timed, y.1 ≠ x.1 → seqAt m y.1 < seqAt m x.1) → c.closeTime = x.2)
    ∧ [c.totals.fare, c.totals.extras, c.totals.tips, c.totals.card, c.totals.cash]
      = paid.foldl (fun sums r => if moneyFits (addedMoney sums (amounts r)) then addedMoney sums (amounts r) else sums)
        [0, 0, 0, 0, 0]
    ∧ c.totals = { c.totals with
        legsClosed := min 9999 paid.length
        legsVoided := min 9999 voided.length
        sharedLegs := min 9999 (paid.filter (fun r => decide (at' 11 1 r = 2))).length
        lateCount := min 65535 (event 5).length
        lateSum := min 999999999 ((event 5).map (at' 20 4)).sum
        hiredMetres := min 4294967295 (legs.map (at' 64 4)).sum
        unhiredMetres := 0
        hiredSeconds := min 429496729 (legs.map (at' 68 4)).sum
        sharedSeconds := min 429496729 (legs.map (at' 72 4)).sum
        unresolved := 0
        interruptions := min 65535 (event 6).length
        signFaults := min 65535 (event 2).length
        unmetered := min 65535 (event 3).length
        assists := min 65535 (event 4).length
        notJournalled := min 65535 (rows.filter (fun r => decide (classify (rowAt m r) = .void
          ∨ classify (rowAt m r) = .damaged))).length
        moneyHeld := if moneyFits (paid.foldl (fun sums r => addedMoney sums (amounts r)) [0, 0, 0, 0, 0]) then 0 else 1 }

/-! ### Properties of every state -/

/-- No leg's total is above the ceiling (04 R53). -/
abbrev LegsUnderCeiling (s : State) : Prop := ∀ i l, legAt s i = some l → l.total ≤ 9999999

/-- No rear party's microphone has a gain into a rear speaker, nor the driver's into the driver's (07 R122). -/
abbrev PartiesApart (s : State) : Prop :=
  (∀ p q : Port, (s.icm.gains.get p.index).mic.get q.index = 0) ∧ (s.icm.gains.get 0).mic.get 0 = 0

/-- At most one rear port is granted, and the microphone of a port that is not has no gain into the driver's speaker (07
R125, R128, R132). -/
abbrev OneVoice (s : State) : Prop :=
  (∀ p q : Port, (callPhase s p).granted = true → (callPhase s q).granted = true → p = q)
    ∧ (∀ p : Port, (callPhase s p).granted = false → (s.icm.gains.get 0).mic.get p.index = 0)

/-- While the part is ACTIVE the sign record's pattern is the one the sign table commands, and its flag the assist latch
(05 R83, R84). -/
abbrev SignInForce (s : State) : Prop :=
  s.pwr.state = .active → s.cab.sign.pattern = commandedPattern s ∧ s.cab.sign.flag = s.cab.latch

/-- The clock, and the pending time set while it is present, hold a date and time of 02 R27. -/
abbrev ClocksLegal (s : State) : Prop := s.odo.clock.ok = true ∧ ∀ t, s.odo.pendingTime = some t → t.ok = true

end Sys2Proof.Machine
end

