-- ==== Sys2Proof/Certificates/Slice0/Obligations.lean ====
section
/-!
DEFINITION. The statements about the part, for the provers. A rule is of spec/; "log n" is
notes/assumptions/n.md. -/

open Sys2Proof Sys2Proof.Machine

/-! ### The machine -/

/-- A step takes the command at the front of the queue and runs it on the state with the queue's rest (log 5). -/
def Obligations.StepRunsFrontCommand : Prop :=
  ∀ (c : Instr) (rest : List Instr) (s : State),
    s.pending = c :: rest → step s = exec c { s with pending := rest }

/-- Every command answers a next state, but where it carries an upset that names a row or a word the array does not
have (09 R162, log 12). No command is refused, and none changes the queue of waiting commands. -/
def Obligations.EveryCommandAnswers : Prop :=
  ∀ (c : Instr) (s : State),
    (c.upsets.all Upset.inArray = true → ∃ t, exec c s = .next t ∧ t.pending = s.pending)
    ∧ (c.upsets.all Upset.inArray = false → ∃ r w, exec c s = .fault (.outsideArray r w)
        ∧ ¬ (r < 2048 ∧ w < 64))

/-! ### The cab line -/

/-- 01 R4, CHECK apart: what a character makes of the receiver, and what more than 2 CT of idle line make of one that is
not READY. The moments are log 4. -/
def Obligations.CharactersMoveReceiver : Prop :=
  (∀ (c : LineChar) (s : State), s.pwr.state = .active → completesFrame c s.lif.rx = false →
    ∃ t, exec (.lineCharacter c) s = .next t
      ∧ t = { s with time := t.time, lif := { s.lif with rx := t.lif.rx, lineFree := t.lif.lineFree } }
      ∧ t.time = max s.time (s.lif.lineFree + 1375) ∧ t.lif.lineFree = t.time
      ∧ (s.lif.rx = .skip → t.lif.rx = .skip)
      ∧ (s.lif.rx = .ready →
          t.lif.rx = if charBad c = false ∧ (leadAddress c.data).isSome then .frame s.lif.tx.sending.isSome [c.data]
            else .skip)
      ∧ (∀ own chars, s.lif.rx = .frame own chars →
          t.lif.rx = if charBad c = true ∨ (chars.length = 3 ∧ 48 < c.data.toNat) then .skip
            else .frame own (chars ++ [c.data])))
  ∧ (∀ s : State, s.pwr.state = .active → s.lif.rx ≠ .ready →
    exec .receiverIdleGap s
      = .next { s with time := max s.time (s.lif.lineFree + 2751), lif := { s.lif with rx := .ready } })

/-- 01 R5, R8 and 05 R87: a complete frame is judged. A frame with a bad check or for another station, and a frame the
part sent itself, leave the receive queue and the stations as they are; a frame with the part's own address raises
ADDRESS_CLASH; any other refreshes its sender's presence and enters the queue, or is dropped with RX_OVERRUN. A SIGN
entry that so becomes PRESENT again has SIGN_SET placed and the re-send timer restarted. -/
def Obligations.CompleteFrameIsJudged : Prop :=
  ∀ (c : LineChar) (own : Bool) (chars : List Byte) (a : Nat) (s : State), s.pwr.state = .active →
    s.lif.rx = .frame own chars → wantsCheck chars = true → charBad c = false →
    leadAddress (chars.getD 0 0) = some a →
    let signBack := (stationOf s a).any (fun e => decide (e.role = .sign) && !e.present)
    ∃ t, exec (.rxFrameComplete c) s = .next t ∧ t.time = max s.time (s.lif.lineFree + 1375)
      ∧ (if c.data ≠ checkOf chars
            ∨ ((chars.getD 1 0).toNat ≠ s.lif.address ∧ (chars.getD 1 0).toNat ≠ 31) ∨ own = true then
          t = { s with time := t.time, lif := { s.lif with rx := .skip, lineFree := t.time } }
        else if a = s.lif.address then
          t = { s with time := t.time, lif := { s.lif with rx := .skip, lineFree := t.time }
                       flt := { s.flt with latched := s.flt.latched ||| 8#16 } }
        else
          t.lif.stations = s.lif.stations.map
              (fun e => if e.addr = a then { e with present := true, silenceFrom := t.time } else e)
            ∧ (if s.lif.queue.length < 8 then
                t.lif.queue = s.lif.queue
                    ++ [⟨a, chars.getD 2 0, chars.drop 4, (stationOf s a).any (fun e => !e.present)⟩]
                  ∧ t.flt = s.flt
              else t.lif.queue = s.lif.queue ∧ t.flt = { s.flt with latched := s.flt.latched ||| 2#16 })
            ∧ (if signBack = true then
                t.nsc = { s.nsc with sign := some ⟨s.cab.sign.pattern, s.cab.sign.flag, s.cab.sign.seq⟩ }
                  ∧ t.cab = { s.cab with signDue := match s.cab.sign.confirm with
                    | .confirmed => none
                    | .waiting => some (t.time + 14400000)
                    | .lost => some (t.time + 72000000) }
              else t.nsc = s.nsc ∧ t.cab = s.cab ∧ t.lif.tx = s.lif.tx)
            ∧ t = { s with
                time := t.time, nsc := t.nsc, cab := t.cab, flt := t.flt
                lif := { s.lif with rx := .skip, lineFree := t.time, queue := t.lif.queue, stations := t.lif.stations
                                    tx := { s.lif.tx with renewed := t.lif.tx.renewed } } })

/-- 01 R10: a frame of a kind that is no request or report is taken and discarded without an answer. A frame of any
other kind but ANNOUNCE that fails one of checks 2 to 4 is taken; a request is refused with the code of the first check
that fails, a report draws nothing; nothing else changes. -/
def Obligations.FailedLineChecksRefuse : Prop :=
  (∀ (q : QFrame) (rest : List QFrame) (s : State), s.pwr.state = .active → s.lif.queue = q :: rest →
    ReqKind.ofCode q.kind = none →
    exec .discardedKindFrame s = .next { s with lif := { s.lif with queue := rest } })
  ∧ (∀ (k : ReqKind) (q : QFrame) (rest : List QFrame) (s : State), k ≠ .announce → s.pwr.state = .active →
    s.lif.queue = q :: rest → ReqKind.ofCode q.kind = some k →
    ((stationOf s q.src).all (fun e => !mayRole e.role k || !(lengths k).contains q.payload.length)) = true →
    ∃ t, exec (commandOf k) s = .next t ∧ LineKept rest s t ∧ FaultsKept s t
      ∧ (if isReport k then t.nsc = s.nsc ∧ t.flt = s.flt
        else Answered q (.refused (if (stationOf s q.src).all (fun e => !mayRole e.role k) then .notAllowed else .range))
          s t)
      ∧ t = { s with lif := t.lif, nsc := { s.nsc with replies := t.nsc.replies }, flt := t.flt })

/-- 01 R18, its first case, and R19: an expiry of the announce timer places ANNOUNCE; what a break does. -/
def Obligations.AnnounceTimerAndBreakAct : Prop :=
  (∀ s : State, s.pwr.state = .active →
    ∃ t, exec .announceTimer s = .next t ∧ t.nsc = { s.nsc with announce := true }
      ∧ t.lif.announceDue = s.lif.announceDue + 28800000 ∧ t.time = max s.time s.lif.announceDue
      ∧ t = { s with time := t.time, nsc := t.nsc,
                     lif := { s.lif with announceDue := t.lif.announceDue
                                         tx := { s.lif.tx with renewed := t.lif.tx.renewed } } })
  ∧ (∀ (past : Nat) (s : State), s.pwr.state = .active →
    ∃ t, exec (.lineBreak past) s = .next t ∧ t.time = max s.time (s.lif.lineFree + 27500)
      ∧ t.lif.queue = [] ∧ t.lif.rx = .skip ∧ t.lif.tx = Transmitter.free
      ∧ t.lif.stations = s.lif.stations.map (fun e => { e with silenceFrom := t.time })
      ∧ t.lif.announceDue = t.time + 28800000 ∧ t.lif.lineFree = t.time + past ∧ t.lif.address = s.lif.address
      ∧ t = { s with time := t.time, lif := t.lif, nsc := { s.nsc with announce := true } })

/-- 01 R17: of the notices that are sendable NSC chooses one of the lowest-numbered class; it finds one whenever one
is sendable, and the oldest item where it chooses class 6. In classes 3 to 5 it takes the slots in turn, from the one
after the last-sent slot round to it: no sendable slot stands nearer to the last-sent one than the slot chosen. -/
def Obligations.ChoiceIsOfLowestSendableClass : Prop :=
  ∀ s : State,
    (∀ n, chooseNotice s = some n →
      sendable s n = true ∧ (∀ m, sendable s m = true → noticeClass n ≤ noticeClass m)
        ∧ (∀ k, n = .fleet k → s.nsc.fleet.head?.map (fun x => x.kind) = some k)
        ∧ (∀ i j, n = .offer i → sendable s (.offer j) = true → i - s.nsc.lastOffer - 1 ≤ j - s.nsc.lastOffer - 1)
        ∧ (∀ p r, n = .call p → sendable s (.call r) = true →
            (p.number + 2 - s.nsc.lastCall.number) % 3 ≤ (r.number + 2 - s.nsc.lastCall.number) % 3)
        ∧ (∀ i j, n = .fare i → sendable s (.fare j) = true → i - s.nsc.lastFare - 1 ≤ j - s.nsc.lastFare - 1))
    ∧ (∀ m, sendable s m = true → (chooseNotice s).isSome = true)

/-- 01 R12: at the access gap the transmitter begins an attempt with the notice it holds, or with NSC's choice, and
sends the frame built from that notice's content as it stands. At 500 ms after a FARE_SHOW slot's last send (R16) a
free transmitter does so if the line has been idle for the gap. The receiver is then READY, since the line has been idle
for more than 2 CT (R4, log 30). R1: the frame is sent as characters of a start bit 0, the data bits from the least
significant, odd parity and a stop bit 1, which no receiver finds in error. -/
def Obligations.AttemptBeginsWithNotice : Prop :=
  (∀ s : State, s.pwr.state = .active → s.lif.tx.sending = none →
    let gap := if s.lif.tx.contention = 0 then 5500 else (4 + 2 * s.lif.address) * 1375
    let u := { s with time := max s.time (s.lif.lineFree + gap) }
    ∀ n f, (s.lif.tx.held = some n ∨ (s.lif.tx.held = none ∧ chooseNotice u = some n)) → frameFor u n = some f →
      exec .txAttemptStart s = .next { u with
        lif := { s.lif with rx := .ready, tx := { s.lif.tx with held := some n, sending := some f, renewed := false } } })
  ∧ (∀ (i : Fin 4) (f : FareShow) (m : Moment) (s : State), s.pwr.state = .active → s.lif.tx = Transmitter.free →
    s.nsc.fares.get i = some f → s.nsc.fareSent.get i = some m →
    let u := { s with time := max s.time (m + 7200000) }
    s.lif.lineFree + 5500 ≤ u.time →
    ∃ n b, chooseNotice u = some n ∧ frameFor u n = some b
      ∧ exec (.fareShowSendInterval i) s = .next { u with
          lif := { s.lif with rx := .ready, tx := ⟨some n, 0, some b, false⟩ } })
  ∧ (∀ (s : State) (n : Notice) (f : List LineChar), frameFor s n = some f →
    (∃ dest kind payload, contentOf s n = some (dest, kind, payload)
      ∧ f.map (fun c => c.data) = buildFrame s.lif.address dest kind payload)
    ∧ ∀ c ∈ f, charBad c = false ∧ c.stop = true
      ∧ (((List.range 8).filter (fun i => c.data.getLsbD i)).length + c.parity.toNat) % 2 = 1
      ∧ charBits c = [false, c.data.getLsbD 0, c.data.getLsbD 1, c.data.getLsbD 2, c.data.getLsbD 3, c.data.getLsbD 4,
          c.data.getLsbD 5, c.data.getLsbD 6, c.data.getLsbD 7, c.parity, true])

/-- 01 R13 and R14: a lost attempt. The contention count rises and the notice stays held while it is sendable; at 16
losses the frame is dropped with LINE_CONTENTION, what the transmitter held leaves its class (classes 0 to 6 and 9)
or stays as it is (7 and 8), and the transmitter is free. -/
def Obligations.LostAttemptCountsToSixteen : Prop :=
  ∀ (n : Notice) (f : List LineChar) (s : State), s.pwr.state = .active → s.lif.tx.held = some n →
    s.lif.tx.sending = some f →
    ∃ t, exec .attemptLost s = .next t
      ∧ (if s.lif.tx.contention + 1 < 16 then
          t.nsc = s.nsc ∧ t.flt = s.flt
            ∧ (if sendable s n then
                t.lif.tx = { s.lif.tx with sending := none, contention := s.lif.tx.contention + 1 }
              else t.lif.tx = Transmitter.free)
        else
          t.lif.tx = Transmitter.free ∧ t.flt.latched = s.flt.latched ||| 1#16
            ∧ (n ≠ .reply → noticeClass n ≤ 6 ∨ n = .announce → sendable t n = false)
            ∧ t.nsc.replies = (if n = .reply then s.nsc.replies.tail else s.nsc.replies)
            ∧ t.nsc.journal = s.nsc.journal ∧ t.nsc.print = s.nsc.print)
      ∧ t.acc = s.acc ∧ t.jnl = s.jnl
      ∧ t = { s with lif := { s.lif with rx := t.lif.rx, tx := t.lif.tx }, nsc := t.nsc, flt := t.flt }

/-- 01 R15 and R17, 08 R159, 09 R176 and R177: the frame of the held notice n has been sent whole. The transmitter is
free, NSC's classes and the blocks' credits and positions change by the class of n, and nothing else changes. A sent
JOURNAL_ROW takes its cursor to the next quarter, and after quarter 3 to the shift's next row, by its index among the
rows as they then stand (log 52); a sent JOURNAL_END ends
the read-out, and marks a closed shift READ where the read ran from row 0. -/
def Obligations.SentNoticeAdvancesItsClass : Prop :=
  ∀ (n : Notice) (f : List LineChar) (s : State), s.pwr.state = .active → s.lif.tx.held = some n →
    s.lif.tx.sending = some f →
    let renewed := s.lif.tx.renewed
    ∃ t, exec .txSuccess s = .next t
      ∧ t.lif = { s.lif with lineFree := s.time, tx := Transmitter.free }
      ∧ (n ≠ .print → t.acc = s.acc) ∧ (n ≠ .journal → t.jnl = s.jnl ∧ t.flt = s.flt)
      ∧ (match n with
        | .assist => t.nsc = if renewed then s.nsc else { s.nsc with assist := none }
        | .reply => t.nsc = { s.nsc with replies := s.nsc.replies.tail }
        | .sign => t.nsc = if renewed then s.nsc else { s.nsc with sign := none }
        | .offer i => t.nsc = { s.nsc with
            lastOffer := i, offers := if renewed then s.nsc.offers else s.nsc.offers.set i none }
        | .call p => t.nsc = { s.nsc with
            lastCall := p, calls := if renewed then s.nsc.calls else s.nsc.calls.set p none }
        | .fare i => t.nsc = { s.nsc with
            lastFare := i, fareSent := s.nsc.fareSent.set i (some s.time)
            fares := if renewed then s.nsc.fares else s.nsc.fares.set i none }
        | .fleet k => t.nsc = if renewed then s.nsc
            else { s.nsc with fleet := s.nsc.fleet.filter (fun x => decide (x.kind ≠ k)) }
        | .announce => t.nsc = if renewed then s.nsc else { s.nsc with announce := false }
        | .print =>
          let jobs := match s.acc.jobs with
            | [] => []
            | j :: rest =>
              if renewed then j :: rest
              else if j.pos + 1 < (jobItems j.body).length then { j with pos := j.pos + 1 } :: rest else rest
          t.acc = { s.acc with credit := s.acc.credit - 1, jobs := jobs }
            ∧ t.nsc = { s.nsc with print :=
                if renewed ∨ s.acc.jobs = [] then s.nsc.print
                else jobs.head?.bind (fun j => (jobItems j.body)[j.pos]?) }
        | .journal =>
          match s.jnl.cursor, s.nsc.journal with
          | some c, some g =>
            if renewed then t.jnl = s.jnl ∧ t.nsc = s.nsc ∧ t.flt = s.flt
            else match g with
              | .fin _ _ o =>
                t.jnl = { s.jnl with
                    credit := s.jnl.credit - 1, cursor := none
                    directory := s.jnl.directory.map (fun d =>
                      if d.shift = c.shift ∧ (d.state = .closed ∨ d.state = .abandoned) ∧ o = false ∧ c.fromZero = true
                        then { d with state := .read } else d) }
                  ∧ t.nsc = { s.nsc with journal := none } ∧ t.flt = s.flt
              | .row .. =>
                t.jnl = { s.jnl with credit := s.jnl.credit - 1, cursor := t.jnl.cursor }
                  ∧ t.nsc = { s.nsc with journal := t.nsc.journal }
                  ∧ (match c.row with
                    | none => t.jnl.cursor = some c ∧ t.nsc = s.nsc ∧ t.flt = s.flt
                    | some row =>
                      if c.quarter < 3 then
                        t.jnl.cursor = some { c with quarter := c.quarter + 1 }
                          ∧ t.nsc.journal = some (frameOfRow { c with quarter := c.quarter + 1 } row) ∧ t.flt = s.flt
                      else
                        let next : Cursor := { c with quarter := 0, index := c.index + 1, sent := c.sent + 1 }
                        RowPlaced next s t
                          ∧ t.flt = { s.flt with latched := s.flt.latched |||
                            match t.jnl.cursor.bind (fun d => d.row) with
                            | none => 0#16
                            | some _ => match ((dirEntry s c.shift).map (shiftRows s)).bind
                                (fun rows => rows[c.index + 1]?) with
                              | none => 0#16
                              | some r => match classify (rowAt s.array r) with
                                | .corrected => 128#16
                                | .damaged => 256#16
                                | _ => 0#16 })
          | _, _ => t.jnl = s.jnl ∧ t.nsc = s.nsc ∧ t.flt = s.flt)
      ∧ t = { s with lif := t.lif, nsc := t.nsc, acc := t.acc, jnl := t.jnl, flt := t.flt }

/-- 01 R8: 6 s of silence make a PRESENT entry ABSENT, and the blocks act. A sign record not yet LOST goes to LOST,
which an open shift counts and asks a row for (05 R85, R87, 09 R169). A panel's watch rests (05 R90); its port's call
leaves the queue, or its grant goes to RELEASING, with reason ABSENT, CALL_STATE is placed for it and for the ports that
move up, and a talk to it ends (07 R125, R127, R129, R134). Claims of the station on HELD legs end with a new offer
(06 R101). Printer credit becomes 0 and the head job starts again (08 R160); a read-out the station set ends (09 R178).
`u` is the part with the entry ABSENT, its watch at rest and the credit gone; of the other stations only one that a
queue entry named may have left. -/
def Obligations.SilenceMakesEntryAbsent : Prop :=
  ∀ (a : Nat) (e : Station) (s : State), s.pwr.state = .active → stationOf s a = some e → e.present = true →
    s.time ≤ e.silenceFrom + 86400000 →
    let heard := s.lif.stations.map (fun x => if x.addr = a then { x with present := false } else x)
    let rests := s.cab.watches.map (fun w => if e.role = .panel ∧ w.addr = a then Watch.empty a else w)
    let u : State := { s with
      lif := { s.lif with stations := heard }
      cab := { s.cab with watches := rests }
      acc := { s.acc with credit := if e.role = .printer then 0 else s.acc.credit } }
    let released := fun (l : Leg) => l.phase = .held ∧ ∃ c, l.claim = some c ∧ c.holder = a
    let ended := e.role = .fleet ∧ ∃ c, s.jnl.cursor = some c ∧ c.station = a
    ∃ t, exec (.silenceTimeout a) s = .next t ∧ t.time = e.silenceFrom + 86400000
      ∧ stationOf t a = some { e with present := false }
      ∧ (match e.port.bind (fun p => if callPhase s p = .queued then s.icm.queue.find? (fun x => x.port = p) else none) with
        | some x => ReferenceEnded x.addr u t
        | none => t.lif.stations = u.lif.stations ∧ t.cab.watches = u.cab.watches ∧ t.acc.credit = u.acc.credit)
      ∧ (if e.role = .printer then t.acc.jobs = rewoundJobs s.acc.jobs
            ∧ t.nsc.print = (if s.acc.jobs = [] then s.nsc.print else firstItem t.acc.jobs)
          else t.lif.stations = u.lif.stations → t.acc.jobs = s.acc.jobs ∧ t.nsc.print = s.nsc.print)
      ∧ (if e.role = .sign ∧ s.cab.sign.confirm ≠ .lost then
          t.cab.sign = { s.cab.sign with confirm := .lost } ∧ t.cab.signDue = some (t.time + 72000000)
          ∧ EventAsked s.odo.clock (.signLost s.cab.sign.pattern s.cab.sign.seq)
              (counting (fun c => { c with signFaults := min 65535 (c.signFaults + 1) })
                { s with acc := { s.acc with jobs := t.acc.jobs, credit := t.acc.credit } }) t
        else t.cab.sign = s.cab.sign ∧ t.cab.signDue = s.cab.signDue ∧ t.acc.shift = s.acc.shift
          ∧ t.jnl = { s.jnl with cursor := t.jnl.cursor, credit := t.jnl.credit })
      ∧ (ended → t.jnl.cursor = none ∧ t.jnl.credit = 0 ∧ t.nsc.journal = none)
      ∧ (¬ ended → t.jnl.cursor = s.jnl.cursor ∧ t.jnl.credit = s.jnl.credit ∧ t.nsc.journal = s.nsc.journal)
      ∧ (∀ i, legAt s i = none → legAt t i = none ∧ t.nsc.offers.get i = s.nsc.offers.get i)
      ∧ (∀ i l, legAt s i = some l → (released l → legAt t i = some { l with claim := none }
            ∧ t.nsc.offers.get i = some (offerOf { l with claim := none }))
          ∧ (¬ released l → legAt t i = some l ∧ t.nsc.offers.get i = s.nsc.offers.get i))
      ∧ PortUnbound e.port u t
      ∧ TransmitterKept s t
      ∧ t = { s with
          time := t.time, jnl := t.jnl, lif := { s.lif with stations := t.lif.stations, tx := t.lif.tx }
          nsc := { s.nsc with offers := t.nsc.offers, calls := t.nsc.calls, journal := t.nsc.journal
                              print := t.nsc.print }
          fare := { s.fare with slots := t.fare.slots }
          cab := { s.cab with sign := t.cab.sign, signDue := t.cab.signDue, watches := t.cab.watches }
          icm := { s.icm with calls := t.icm.calls, queue := t.icm.queue, talk := t.icm.talk, prompts := t.icm.prompts
                              player := t.icm.player, promptSample := t.icm.promptSample
                              ringDue := t.icm.ringDue }
          acc := { s.acc with shift := t.acc.shift, jobs := t.acc.jobs, credit := t.acc.credit } }

/-- 01 R9: an ABSENT entry that nothing names is removed at 36 s of silence, with its place and its binding; a panel's
watch record goes with it (05 R90), and the removal of a printer leaves credit 0 and the head job at its first item
(08 R160). -/
def Obligations.SilentEntryIsRemoved : Prop :=
  ∀ (a : Nat) (e : Station) (s : State), s.pwr.state = .active → stationOf s a = some e → e.present = false →
    referenced s a = false →
    ∃ t, exec (.stationRemoval a) s = .next t ∧ t.time = max s.time (e.silenceFrom + 518400000)
      ∧ t.lif.stations = s.lif.stations.filter (fun x => decide (x.addr ≠ a))
      ∧ stationOf t a = none ∧ TransmitterKept s t
      ∧ t.cab = { s.cab with watches := s.cab.watches.filter (fun w => decide (w.addr ≠ a)) }
      ∧ (e.role ≠ .printer → t.acc = s.acc ∧ t.nsc = s.nsc)
      ∧ (e.role = .printer → t.acc.credit = 0 ∧ t.acc.jobs = rewoundJobs s.acc.jobs
          ∧ t.nsc.print = (if s.acc.jobs = [] then s.nsc.print else firstItem t.acc.jobs))
      ∧ t = { s with time := t.time, lif := { s.lif with stations := t.lif.stations, tx := t.lif.tx }, cab := t.cab,
                     nsc := { s.nsc with print := t.nsc.print },
                     acc := { s.acc with credit := t.acc.credit, jobs := t.acc.jobs } }

/-- 01 R6 and R7: an ANNOUNCE is acted on by the state of the sender's entry; "ABSENT" is read as log 14 says. A panel
that names a port another PRESENT panel holds, or a second port, raises ADDRESS_CLASH and binds nothing; an ABSENT entry
that held the port taken loses its binding. A created panel gets a watch record (05 R88); a created SIGN draws SIGN_SET
and the re-send interval of its confirm state (R85, R87). An entry that gives way is removed: its watch record goes
(R90), the port it held becomes unbound (07 R134), a printer's removal pauses the print jobs (08 R160), and the station
its port's queue entry named may leave with it (R9). 11 R199 and R6: an ANNOUNCE of another length, or of no role, is
discarded. -/
def Obligations.AnnounceActsByEntry : Prop :=
  (∀ (q : QFrame) (rest : List QFrame) (r : Role) (s : State), s.pwr.state = .active → s.lif.queue = q :: rest →
    ReqKind.ofCode q.kind = some .announce → (q.payload.length = 2 ∨ q.payload.length = 9) →
    Role.ofCode (q.at 0 1) = some r →
    let a := q.src
    let named := Port.ofNumber (q.at 1 1)
    let clash := fun (u : State) (held : Option Port) =>
      if portClash u a held named r then { s.flt with latched := s.flt.latched ||| 8#16 } else s.flt
    let created := fun (u t : State) =>
      t.lif.stations = u.lif.stations.map (bystander u a none named r)
          ++ [⟨a, r, portAfter u a none named r, true, s.time⟩]
        ∧ t.cab.watches = u.cab.watches ++ (if r = .panel then [Watch.empty a] else [])
        ∧ t.flt = clash u none
        ∧ (if r = .sign then
            t.nsc.sign = some ⟨s.cab.sign.pattern, s.cab.sign.flag, s.cab.sign.seq⟩
            ∧ t.cab.signDue = (match s.cab.sign.confirm with
              | .confirmed => none
              | .waiting => some (s.time + 14400000)
              | .lost => some (s.time + 72000000))
          else t.nsc.sign = s.nsc.sign ∧ t.cab.signDue = s.cab.signDue)
    ∃ t, exec .announce s = .next t ∧ t.lif = { s.lif with queue := rest, stations := t.lif.stations, tx := t.lif.tx }
      ∧ TransmitterKept s t
      ∧ (match stationOf s a with
        | none =>
          if s.lif.stations.length < 12 then
            created s t
              ∧ t = { s with lif := t.lif, flt := t.flt, nsc := { s.nsc with sign := t.nsc.sign }
                             cab := { s.cab with watches := t.cab.watches, signDue := t.cab.signDue } }
          else t = { s with lif := t.lif, flt := { s.flt with latched := s.flt.latched ||| 16#16 } }
            ∧ t.lif.stations = s.lif.stations
        | some e =>
          if e.role = r then
            stationOf t a = some { e with port := portAfter s a e.port named r } ∧ t.flt = clash s e.port
              ∧ (∀ x, x ≠ a → stationOf t x = (stationOf s x).map (bystander s a e.port named r))
              ∧ t = { s with lif := t.lif, flt := t.flt }
          else if (q.fromAbsent = true ∨ e.present = false) ∧ referenced s a = false then
            let without := fun (b : Nat) (u : State) => { u with
              lif := { u.lif with stations := u.lif.stations.filter (fun x => decide (x.addr ≠ b)) }
              cab := { u.cab with watches := u.cab.watches.filter (fun w => decide (w.addr ≠ b)) } }
            let queued := e.port.bind (fun p =>
              if callPhase s p = .queued then s.icm.queue.find? (fun x => x.port = p) else none)
            let leaver := (queued.bind (fun x => stationOf (without a s) x.addr)).filter (fun x => !x.present
              && decide (x.silenceFrom + 518400000 ≤ s.time) && !referenced { s with icm := t.icm } x.addr)
            let paused := e.role = .printer ∨ leaver.any (fun x => decide (x.role = .printer)) = true
            PortUnbound e.port (without a s) t
              ∧ created (leaver.elim (without a s) (fun x => without x.addr (without a s))) t
              ∧ t.acc = (if paused then { s.acc with credit := 0, jobs := rewoundJobs s.acc.jobs } else s.acc)
              ∧ t.nsc.print = (if paused ∧ s.acc.jobs ≠ [] then firstItem (rewoundJobs s.acc.jobs) else s.nsc.print)
              ∧ t = { s with
                  lif := t.lif, flt := t.flt, acc := t.acc
                  nsc := { s.nsc with sign := t.nsc.sign, calls := t.nsc.calls, print := t.nsc.print }
                  cab := { s.cab with watches := t.cab.watches, signDue := t.cab.signDue }
                  icm := { s.icm with calls := t.icm.calls, queue := t.icm.queue, talk := t.icm.talk
                                      prompts := t.icm.prompts, player := t.icm.player
                                      promptSample := t.icm.promptSample, ringDue := t.icm.ringDue } }
          else t = { s with lif := t.lif, flt := { s.flt with latched := s.flt.latched ||| 8#16 } }
            ∧ t.lif.stations = s.lif.stations))
  ∧ (∀ (q : QFrame) (rest : List QFrame) (s : State), s.pwr.state = .active → s.lif.queue = q :: rest →
    ReqKind.ofCode q.kind = some .announce →
    ((q.payload.length ≠ 2 ∧ q.payload.length ≠ 9) ∨ Role.ofCode (q.at 0 1) = none) →
    ∃ t, exec .announce s = .next t ∧ LineKept rest s t ∧ t = { s with lif := t.lif })

/-! ### The direct lines and the fare tick -/

/-- 02 R22 and R23: a new level starts its qualification, and is taken 20 µs on; its edge is counted by the detection
mode, up to 65,535. -/
def Obligations.QualifiedEdgesAreCounted : Prop :=
  (∀ (high : Bool) (s : State), s.pwr.state = .active → high ≠ s.odo.pulseLevel →
    exec (.pulseInputChange high) s = .next { s with odo := { s.odo with
      pulseLevel := high, pulseFrom := if high = s.odo.pulseQualified then none else some s.time } })
  ∧ (∀ (m : Moment) (s : State), s.pwr.state = .active → s.odo.pulseFrom = some m →
    exec .pulseEdge s = .next { s with
      time := max s.time (m + 288)
      odo := { s.odo with
        pulseQualified := s.odo.pulseLevel, pulseFrom := none
        pulseCount :=
          if (match s.tar.committed.map (fun t => t.general.mode) with
              | some .falling => !s.odo.pulseLevel
              | some .both => true
              | _ => s.odo.pulseLevel) = true then min 65535 (s.odo.pulseCount + 1) else s.odo.pulseCount } })

/-- 02 R23 to R26 and R32: what ODO does at a fare tick. The pulse count p is the counter's value, at most 255, and
PULSE_OVERRUN is raised beyond; the window, the moving flag, the odometer and the vehicle band follow. R30: the automatic
band is 0 with no tariff, no switch point or the clock UNSET, and else the band (0 to 3) of the switch point whose moment
lies the shortest way back from the minute of the week, the lower index winning; minute 0 is Monday's first, and 2000-01-01
began at minute 7,200. -/
def Obligations.FareTickAdvancesOdometry : Prop :=
  (∀ s : State, s.pwr.state = .active →
    ∃ t, exec .fareTick s = .next t ∧ t.time = max s.time s.odo.tickDue
      ∧ t.odo = { s.odo with
          tickDue := s.odo.tickDue + 1440000
          lastTaken := s.odo.pulseCount, pulseCount := 0
          window := s.odo.window.tail ++ [min 255 s.odo.pulseCount]
          odometer := (s.odo.odometer + min 255 s.odo.pulseCount) % 4294967296
          moving := s.tar.committed.any (fun c =>
            decide (5 * c.general.K ≤ 3600 * (s.odo.window.tail ++ [min 255 s.odo.pulseCount]).sum))
          vehicleBand := s.odo.manualBand.getD (automaticBand s) }
      ∧ t.flt.latched.getLsbD 5 = (s.flt.latched.getLsbD 5 || decide (255 < s.odo.pulseCount))
      ∧ t.array = s.array ∧ t.lif.queue = s.lif.queue ∧ t.lif.stations = s.lif.stations
      ∧ t.nsc.replies = s.nsc.replies ∧ t.nsc.offers = s.nsc.offers ∧ t.tar = s.tar
      ∧ t.cab = { s.cab with watches := t.cab.watches } ∧ t.icm = s.icm ∧ t.acc = { s.acc with shift := t.acc.shift }
      ∧ t.fare.lastLeg = s.fare.lastLeg ∧ t.jnl.cursor = s.jnl.cursor ∧ t.pwr = s.pwr)
  ∧ (∀ s : State, (s.tar.committed = none ∨ s.odo.clockSet = false) → automaticBand s = 0)
  ∧ (∀ (c : TariffSet) (s : State), s.tar.committed = some c → s.odo.clockSet = true → s.odo.clock.ok = true →
    let now := (secondsSince s.odo.clock / 60 + 7200) % 10080
    let back := fun (m : Nat) => if m ≤ now then now - m else now + 10080 - m
    let due := fun (p : SwitchPoint) (d : Nat) => d < 7 ∧ p.days.getLsbD d = true
    ((∀ p ∈ c.switches, ∀ d, ¬ due p d) → automaticBand s = 0)
      ∧ (∀ (earlier later : List SwitchPoint) (p : SwitchPoint) (d : Nat), c.switches = earlier ++ p :: later → due p d →
          (∀ x ∈ c.switches, ∀ e, due x e → back (d * 1440 + p.minute) ≤ back (e * 1440 + x.minute)) →
          (∀ x ∈ earlier, ∀ e, due x e → back (d * 1440 + p.minute) < back (e * 1440 + x.minute)) →
          (automaticBand s).val = p.band % 4))

/-- 04 R67: k steps taken in turn by a leg. The step count rises by k, saturating at 65,535; each step of an index
above N of the open band carries U of the register band, and the steps together add no more than the room under the
ceiling (R53), CEILING being set when they carry more. -/
def Obligations.StepsCarryTheirMoney : Prop :=
  ∀ (t : Option TariffSet) (k : Nat) (l : Leg), l.steps ≤ 65535 → l.total ≤ 9999999 →
    (ratesIn t l.openBand).N ≤ 50 →
    let paid := (k - ((ratesIn t l.openBand).N - l.steps)) * (ratesIn t l.regBand).U
    Leg.stepN t k l = { l with
      steps := min 65535 (l.steps + k)
      farePart := l.farePart + min paid (9999999 - l.total)
      ceiling := l.ceiling || decide (9999999 - l.total < paid) }

/-- 04 R62 to R66, R68 and R74: what a fare tick does to each leg, by the occupied count n it finds, with the vehicle
band evaluated at the tick; FARE_SHOW is placed for each leg whose shown values it changes. -/
def Obligations.FareTickAccruesLegs : Prop :=
  ∀ s : State, s.pwr.state = .active →
    let p := min 255 s.odo.pulseCount
    let v := s.odo.manualBand.getD (automaticBand s)
    let n := occupied s
    let K := tariffK s
    ∃ t, exec .fareTick s = .next t ∧ ∀ i : Fin 4,
      match legAt s i with
      | none => legAt t i = none ∧ t.nsc.fares.get i = s.nsc.fares.get i
      | some l => ∃ l', legAt t i = some l'
        ∧ t.nsc.fares.get i = (if showOf l' = showOf l then s.nsc.fares.get i else some (showOf l'))
        ∧ l' = { l with regBand := l'.regBand, reg := l'.reg, steps := l'.steps, farePart := l'.farePart,
                        ceiling := l'.ceiling, hiredPulses := l'.hiredPulses, hiredTicks := l'.hiredTicks,
                        sharedTicks := l'.sharedTicks }
        ∧ (if l.phase = .closing then l' = l
          else l'.hiredTicks = min 4294967295 (l.hiredTicks + 1)
            ∧ l'.hiredPulses = (if l.phase = .opened then min 4294967295 (l.hiredPulses + p) else l.hiredPulses)
            ∧ l'.sharedTicks = (if 2 ≤ n then min 4294967295 (l.sharedTicks + 1) else l.sharedTicks))
        ∧ (if l.phase = .opened ∧ l.kind = .metered then
            let r := bandRates s v
            let old := if l.regBand = v then l.reg else l.reg * r.S K / (bandRates s l.regBand).S K
            let f := if n = 1 then 1000 else if n = 2 then r.f2 else if n = 3 then r.f3 else r.f4
            let c := if r.double then p * (10000 * r.Ts) + K * r.Ds else max (p * (10000 * r.Ts)) (K * r.Ds)
            let T := K * r.Ds * 10 * r.Ts * 1000
            l'.regBand = v ∧ l'.reg = (old + c * f) % T
              ∧ ∃ m, m = Leg.stepN s.tar.committed ((old + c * f) / T) { l with regBand := v }
                ∧ l'.steps = m.steps ∧ l'.farePart = m.farePart ∧ l'.ceiling = m.ceiling
          else l'.regBand = l.regBand ∧ l'.reg = l.reg ∧ l'.steps = l.steps ∧ l'.farePart = l.farePart
            ∧ l'.ceiling = l.ceiling)

/-- 08 R151: the counts of a fare tick while the shift record is OPEN; otherwise the tick changes nothing in ACC but
what a watch that fires asks of it. -/
def Obligations.FareTickCountsShift : Prop :=
  ∀ s : State, s.pwr.state = .active → s.acc.shift.sharedTicks ≤ 4294967295 →
    ∃ t, exec .fareTick s = .next t
      ∧ (if shiftIsOpen s = false then t.acc = s.acc
        else
          let p := min 255 s.odo.pulseCount
          let n := occupied s
          let r := s.acc.shift
          t.acc.shift = { r with
            totals := t.acc.shift.totals
            unhiredPulses := if n = 0 then min 4294967295 (r.unhiredPulses + p) else r.unhiredPulses
            hiredPulses := if n = 0 then r.hiredPulses else min 4294967295 (r.hiredPulses + p)
            hiredTicks := if n = 0 then r.hiredTicks else min 4294967295 (r.hiredTicks + 1)
            sharedTicks := if 2 ≤ n then min 4294967295 (r.sharedTicks + 1) else r.sharedTicks }
          ∧ t.acc.shift.totals = { r.totals with
              unmetered := t.acc.shift.totals.unmetered, notJournalled := t.acc.shift.totals.notJournalled })

/-- 05 R89: the watch of an occupied seat without cover, at its 599th count, fires at a tick that finds the cab moving:
the flag is set and UNMETERED raised, and an open shift counts it and, where no other watch fires with it, is asked for
the EVENT row (09 R169). The command is that tick (log 7). -/
def Obligations.WatchFiresAtSixHundred : Prop :=
  ∀ (w : Watch) (e : Station) (c : TariffSet) (s : State), s.pwr.state = .active →
    s.tar.committed = some c → c.general.watch = true → w ∈ s.cab.watches →
    (∀ w' ∈ s.cab.watches, w'.addr = w.addr → w'.fired = false) → w.occupied = true → w.count = 599 →
    stationOf s w.addr = some e → e.present = true → covered s w.addr = false →
    5 * c.general.K ≤ 3600 * (s.odo.window.tail ++ [min 255 s.odo.pulseCount]).sum →
    ∃ t, exec (.watchFires w.addr) s = .next t ∧ exec .fareTick s = .next t
      ∧ { w with count := 600, fired := true } ∈ t.cab.watches ∧ t.flt.latched.getLsbD 6 = true
      ∧ (shiftIsOpen s = true → s.acc.shift.totals.unmetered < 65535 →
          s.acc.shift.totals.unmetered < t.acc.shift.totals.unmetered)
      ∧ (s.cab.watches.filter (fun x => decide (x.addr = w.addr)) = [w] →
          (∀ x ∈ s.cab.watches, x.addr ≠ w.addr → x.fired = true ∨ x.occupied = false ∨ x.count < 599) →
          EventAsked s.odo.clock (.unmetered w.addr)
            (counting (fun c => { c with unmetered := min 65535 (c.unmetered + 1) })
              (accountTick (min 255 s.odo.pulseCount) s)) t)

/-! ### The clock and the band -/

/-- 02 R27: one second after a legal date and time stands the next one, by the calendar; after the last of 2099 stands
the first of 2000. R27 and R29: at the one-second timer's expiry the clock and a pending time set advance by one second,
in ACTIVE and in RETAIN; in RETAIN the check word is amended by the difference (10 R187). In ENTERING it runs too (log
27). -/
def Obligations.ClockFollowsCalendar : Prop :=
  (∀ t : DateTime, t.ok = true → t.next.ok = true
    ∧ (t = ⟨2099, 12, 31, 23, 59, 59⟩ → t.next = ⟨2000, 1, 1, 0, 0, 0⟩)
    ∧ (t ≠ ⟨2099, 12, 31, 23, 59, 59⟩ → secondsSince t.next = secondsSince t + 1))
  ∧ (∀ s : State, (s.pwr.state = .active ∨ s.pwr.state = .entering ∨ s.pwr.state = .retain) →
    ∃ t, exec .clockSecond s = .next t ∧ t.time = max s.time s.odo.secondDue
      ∧ t.odo = { s.odo with clock := s.odo.clock.next, pendingTime := s.odo.pendingTime.map DateTime.next,
                             secondDue := s.odo.secondDue + 14400000 }
      ∧ t.pwr.check = (if s.pwr.state = .retain then s.pwr.check + (retentionSum t - retentionSum s)
          else s.pwr.check)
      ∧ t = { s with time := t.time, odo := t.odo, pwr := { s.pwr with check := t.pwr.check } })

/-- 02 R28: a TIME_SET. -/
def Obligations.TimeSetIsAppliedOrHeld : Prop :=
  ∀ (q : QFrame) (e : Station) (rest : List QFrame) (s : State), Asks .timeSet q e rest s →
    let w := timeAt q.payload 0
    ∃ t, exec .timeSet s = .next t ∧ LineKept rest s t ∧ FaultsKept s t
      ∧ (if w.ok = false then
          Answered q (.refused .range) s t ∧ t.odo = s.odo ∧ t.jnl = s.jnl ∧ t.acc = s.acc
        else if allFree s = true then
          Answered q (.accepted [1]) s t
            ∧ t.odo = { s.odo with clock := w, secondDue := s.time + 14400000, clockSet := true, pendingTime := none }
            ∧ EventAsked w (.clockSet s.odo.clock w) s t
        else Answered q (.accepted [2]) s t ∧ t.odo = { s.odo with pendingTime := some w } ∧ t.jnl = s.jnl
          ∧ t.acc = s.acc)
      ∧ t = { s with lif := t.lif, nsc := { s.nsc with replies := t.nsc.replies }, odo := t.odo, acc := t.acc,
                     jnl := t.jnl, flt := t.flt }

/-- 02 R31: a BAND sets or clears the manual band; the vehicle band stays until the next tick. -/
def Obligations.BandSetsManualBand : Prop :=
  ∀ (q : QFrame) (e : Station) (rest : List QFrame) (s : State), Asks .band q e rest s →
    ∃ t, exec .band s = .next t ∧ LineKept rest s t ∧ FaultsKept s t
      ∧ (if shiftIsOpen s = false then Answered q (.refused .noShift) s t ∧ t.odo = s.odo
        else if q.at 0 1 = 255 then Answered q (.accepted []) s t ∧ t.odo = { s.odo with manualBand := none }
        else if h : q.at 0 1 < 4 then
          if bandPresent s ⟨q.at 0 1, h⟩ = true then
            Answered q (.accepted []) s t ∧ t.odo = { s.odo with manualBand := some ⟨q.at 0 1, h⟩ }
          else Answered q (.refused .range) s t ∧ t.odo = s.odo
        else Answered q (.refused .range) s t ∧ t.odo = s.odo)
      ∧ t = { s with lif := t.lif, nsc := { s.nsc with replies := t.nsc.replies }, odo := t.odo, flt := t.flt }

/-! ### The assist switch and the power states -/

/-- 02 R33: the detector's table, in ACTIVE, in RETAIN, and in ENTERING (log 27). -/
def Obligations.AssistInputMovesDetector : Prop :=
  ∀ (high : Bool) (s : State), high ≠ s.odo.assistLevel →
    (s.pwr.state = .active ∨ s.pwr.state = .entering ∨ s.pwr.state = .retain) →
    exec (.assistInputChange high) s = .next { s with odo := { s.odo with
      assistLevel := high
      detector := if high then .armed else if s.odo.detector = .armed then .timing else s.odo.detector
      assistFrom := if high = false ∧ s.odo.detector = .armed then s.time else s.odo.assistFrom } }

/-- 05 R91 and 10 R189: a press. In ACTIVE the latch is set, the press counted, the sign told, ASSIST_NOTICE placed, and
an open shift counts it and is then asked for the ASSIST EVENT row (09 R169); in RETAIN, and in ENTERING (log 27), it is
kept for the wake. -/
def Obligations.PressSetsAssistLatch : Prop :=
  ∀ s : State, s.odo.detector = .timing →
    (s.pwr.state = .active ∨ s.pwr.state = .entering ∨ s.pwr.state = .retain) →
    ∃ t, exec .assistPress s = .next t ∧ t.odo = { s.odo with detector := .down }
      ∧ t.time = max s.time (s.odo.assistFrom + 2880000)
      ∧ (if s.pwr.state = .active then
          t.cab.presses = (if s.cab.latch then min 255 (s.cab.presses + 1) else 1)
            ∧ t.nsc.assist = some ⟨true, t.cab.presses, s.odo.clock⟩
            ∧ (s.cab.sign.flag = s.cab.latch → s.cab.sign.pattern = commandedPattern s →
                t.cab.sign.flag = true ∧ t.cab.sign.pattern = s.cab.sign.pattern
                  ∧ t.cab.sign.seq = (if s.cab.latch then s.cab.sign.seq else (s.cab.sign.seq + 1) % 256)
                  ∧ t.nsc.sign = (if s.cab.latch then s.nsc.sign else some ⟨t.cab.sign.pattern, true, t.cab.sign.seq⟩))
            ∧ (shiftIsOpen s = true → t.acc.shift.totals.assists = min 65535 (s.acc.shift.totals.assists + 1))
            ∧ EventAsked s.odo.clock (.assist t.cab.presses)
                (counting (fun c => { c with assists := min 65535 (c.assists + 1) }) s) t
            ∧ t = { s with
                time := t.time, odo := t.odo, acc := t.acc, jnl := t.jnl
                nsc := { s.nsc with assist := t.nsc.assist, sign := t.nsc.sign }
                lif := { s.lif with tx := { s.lif.tx with renewed := t.lif.tx.renewed } }
                cab := { s.cab with latch := true, presses := t.cab.presses, pressTime := s.odo.clock
                                    ack := some .unacked, repeatDue := some (t.time + 144000000)
                                    sign := t.cab.sign, signDue := t.cab.signDue } }
        else
          t = { s with
            time := t.time, odo := t.odo
            pwr := { s.pwr with check := if s.pwr.state = .retain then
              s.pwr.check + (retentionSum t - retentionSum s) else s.pwr.check }
            cab := { s.cab with latch := true, presses := min 255 (s.cab.presses + 1), pressTime := s.odo.clock
                                wakeMark := true } })

/-- 02 R34 and 10 R188: a change of POWER_GOOD starts its measurement anew, and 20 ms of low level in ACTIVE or STARTING
begin RETAIN entry: frames not taken are gone, the pulse count since the tick is discarded, timers stop, and the assist
detector is sampled. -/
def Obligations.PowerLossBeginsRetainEntry : Prop :=
  (∀ (high : Bool) (s : State), high ≠ s.odo.powerGood →
    exec (.powerGoodChange high) s
      = .next { s with odo := { s.odo with powerGood := high, powerFrom := s.time } })
  ∧ (∀ s : State, (s.pwr.state = .active ∨ s.pwr.state = .starting) → s.odo.powerGood = false →
    exec .powerLoss s = .next { s with
      time := max s.time (s.odo.powerFrom + 288000)
      pwr := { s.pwr with state := .entering, abandoned := decide (s.pwr.state = .starting) }
      lif := { s.lif with queue := [], rx := .skip, tx := { s.lif.tx with sending := none } }
      odo := { s.odo with pulseCount := 0, pulseFrom := none,
                          detector := if s.odo.assistLevel then .armed else .down }
      cab := { s.cab with signDue := none, repeatDue := none }
      icm := { s.icm with ringDue := none } })

/-- 10 R188: with no operation in flight the entry completes: the moment of RETAIN entry and the check word are
written, which is the sum of retention memory, or differs from it where a cold start was abandoned. 10 R186 and R197:
the failure of the backup supply leaves the array, but for the rows an operation that it cuts off was working on (log
12), and nothing else of retention memory: the model gives what is lost its values at reset, the levels of the inputs apart
(log 11). -/
def Obligations.RetainEntryWritesCheck : Prop :=
  (∀ s : State, s.pwr.state = .entering → s.jnl.inFlight = none →
    ∃ t, exec .retainEntryComplete s = .next t ∧ t.pwr.state = .retain ∧ t.pwr.retainAt = s.time
      ∧ (s.pwr.abandoned = false → t.pwr.check = retentionSum t)
      ∧ (s.pwr.abandoned = true → t.pwr.check ≠ retentionSum t)
      ∧ t = { s with free := t.free, pwr := t.pwr, jnl := { s.jnl with waiting := [] },
                     odo := { s.odo with powerFrom := s.time } })
  ∧ (∀ (left : List Upset) (s : State), (s.pwr.state = .entering ∨ s.pwr.state = .retain) →
    left.all Upset.inArray = true →
    ∃ t, exec (.backupSupplyFail left) s = .next t
      ∧ (s.jnl.inFlight = none → t.array = s.array)
      ∧ (∀ r, (s.jnl.inFlight.any (fun op => worksOn op r)) = false → Memory.wf s.array = true →
          rowAt t.array r = rowAt s.array r)
      ∧ (∀ op, s.jnl.inFlight = some op → t.array = withUpsets s.array (left.filter (fun u => worksOn op u.row)))
      ∧ t = { State.reset with
          pending := s.pending, free := s.free, array := t.array, pwr := { State.reset.pwr with state := .off }
          odo := { State.reset.odo with
            pulseLevel := s.odo.pulseLevel, assistLevel := s.odo.assistLevel, powerGood := s.odo.powerGood } })

/-- 10 R190 to R192: at a wake whose sum agrees with the check word the part resumes, every block as its chapter says.
What the sum finds is the command's operand `lost` (log 9). R187: the retained state stands, but for what R191 changes:
a HELD leg's claim ends, an attempt whose deadline has passed is INDETERMINATE and its leg HELD, with its unresolved
entry (in slot order, log 23), and every occupied leg is marked interrupted (06 R118, 04 R76). An open shift counts the
interruption and is then asked for its POWER_INTERRUPTION row, and after it, for a press taken in RETAIN, for the ASSIST
row with the clock at the wake (log 28); the journal they are asked of is the retained one, resumed (09 R180) and looked
at for erase-ahead (R171). The model's choices among the values: the qualified PULSE level is the raw one (log 26), the
line's idle time runs from the wake (log 45), the first sample period ends 900 units on (log 46), the output samples
(log 47) and the value last taken (log 48) stay. -/
def Obligations.IntactWakeResumes : Prop :=
  ∀ (straps : Straps) (lost : DataWord) (us : List Upset) (s : State), s.pwr.state = .retain →
    s.odo.powerGood = true → us.all Upset.inArray = true → retentionSum s + lost = s.pwr.check →
    ∃ t, exec (.wake straps lost us) s = .next t ∧ t.time = max s.time (s.odo.powerFrom + 1440000)
      ∧ t.array = withUpsets s.array us ∧ t.free = s.free ∧ t.pending = s.pending
      ∧ t.pwr = { s.pwr with
          state := .active, abandoned := false
          check := s.pwr.check + (retentionSum { s with time := t.time } - retentionSum s) }
      ∧ (let ranOut := fun (l : Leg) => if l.phase = .paying then
            (l.flying.filter (fun f => decide (f.2 ≤ t.time))).map (fun f => f.1) else none
        let entries : List Unresolved := s.fare.slots.toList.filterMap (fun o => o.bind (fun l =>
          (ranOut l).map (fun a => ⟨l.number, a.number, a.requested, a.starter⟩)))
        let pushed := min entries.length (s.acc.unresolved.length + entries.length - 8)
        t.fare = { s.fare with slots := s.fare.slots.map (Option.map (fun l => { l with
            phase := if (ranOut l).isSome then .held else l.phase
            attempts := l.attempts.map (fun x => if (ranOut l).any (fun a => decide (x.number = a.number)) then
              { x with state := .indeterminate } else x)
            claim := if l.phase = .held ∨ (ranOut l).isSome then none else l.claim
            interrupted := l.interrupted || l.occupied })) }
          ∧ t.acc = { s.acc with
              shift := { s.acc.shift with
                totals := { s.acc.shift.totals with
                  interruptions := if shiftIsOpen s then min 65535 (s.acc.shift.totals.interruptions + 1)
                    else s.acc.shift.totals.interruptions
                  assists := if shiftIsOpen s && s.cab.wakeMark then min 65535 (s.acc.shift.totals.assists + 1)
                    else s.acc.shift.totals.assists
                  notJournalled := t.acc.shift.totals.notJournalled }
                pushedOut := if pushed = 0 then s.acc.shift.pushedOut else min 65535 (s.acc.shift.pushedOut + pushed) }
              unresolved := (s.acc.unresolved ++ entries).drop pushed
              jobs := rewoundJobs s.acc.jobs, credit := 0 })
      ∧ t.tar = ⟨committedIn t.array, if straps.cal && !shiftIsOpen s then .opened else .closed, 0⟩
      ∧ t.lif = ⟨straps.addr.toNat + 1, .skip, [], t.time, Transmitter.free, [], t.time + 28800000⟩
      ∧ t.odo = { s.odo with
          addrStrap := straps.addr, calStrap := straps.cal, pulseQualified := s.odo.pulseLevel, pulseFrom := none
          pulseCount := 0, tickDue := t.time + 1440000, window := List.replicate 10 0, moving := false
          vehicleBand := s.odo.manualBand.getD (automaticBand t)
          detector := if s.odo.assistLevel then .armed else .down, powerFrom := t.time }
      ∧ t.icm = { s.icm with
          calls := ⟨CallRec.idle, CallRec.idle, CallRec.idle⟩, queue := [], talk := .up, gains := Four.all Gains.zero
          prompts := [], player := .idle, promptSample := 0, ringDue := none, holdDue := t.time + 216000000
          sampleDue := t.time + 900 }
      ∧ (let called := s.cab.latch || s.cab.wakeMark
        t.cab = { s.cab with
            ack := if called then some .unacked else none
            repeatDue := if called then some (t.time + 144000000) else none
            wakeMark := false, watches := [], signDue := some (t.time + 14400000)
            sign := { s.cab.sign with
              pattern := commandedPattern t, flag := s.cab.latch, seq := (s.cab.sign.seq + 1) % 256
              confirm := .waiting, resends := 0 } }
          ∧ t.nsc = { Nsc.empty with
              assist := if called then some ⟨s.cab.latch, s.cab.presses, s.cab.pressTime⟩ else none
              sign := some ⟨t.cab.sign.pattern, t.cab.sign.flag, t.cab.sign.seq⟩
              offers := t.fare.slots.map (fun o => o.bind (fun l => if l.phase = .held then some (offerOf l) else none))
              fares := t.fare.slots.map (fun o => o.bind (fun l => if l.occupied then some (showOf l) else none))
              print := firstItem t.acc.jobs, announce := true })
      ∧ t.flt.coldFlag = s.flt.coldFlag
      ∧ (∀ k, k ≠ 7 → k ≠ 8 → t.flt.latched.getLsbD k = s.flt.latched.getLsbD k)
      ∧ (Memory.wf s.array = true →
          t.flt.latched.getLsbD 7 = (s.flt.latched.getLsbD 7
              || (List.range 32).any (fun r => decide (classify (rowAt t.array r) = .corrected)))
            ∧ t.flt.latched.getLsbD 8 = (s.flt.latched.getLsbD 8
              || (List.range 32).any (fun r => decide (classify (rowAt t.array r) = .damaged))))
      ∧ t.jnl.cursor = none ∧ t.jnl.credit = 0 ∧ t.jnl.directory = s.jnl.directory
      ∧ t.jnl.append.take s.jnl.append.length = s.jnl.append
      ∧ t.jnl.nextSeq + s.jnl.append.length = s.jnl.nextSeq + t.jnl.append.length
      ∧ t.jnl.sectors.map (fun e => (e.erased, e.range)) = s.jnl.sectors.map (fun e => (e.erased, e.range))
      ∧ (let counted := { t with
          jnl := s.jnl
          acc := { t.acc with shift := { t.acc.shift with totals := { s.acc.shift.totals with
            interruptions := t.acc.shift.totals.interruptions } } } }
        let u := eraseAhead (resumeJournal counted)
        let cut := EventBody.powerInterruption (min 4294967295 ((t.time - s.pwr.retainAt) / 14400000))
        if s.cab.wakeMark = false then EventAsked s.odo.clock cut u t
        else ∃ w, EventAsked s.odo.clock cut u w ∧ w = { u with jnl := w.jnl, acc := w.acc }
          ∧ EventAsked s.odo.clock (.assist s.cab.presses)
            (counting (fun c => { c with assists := min 65535 (c.assists + 1) }) w) t)

/-- 10 R190: at a wake whose sum, with what was lost (the operand of log 9), differs from the check word the retained
state is discarded: the part is STARTING, and only a cold start follows. R193 to R196: a cold start that gets to its
end, from OFF or in STARTING, leaves every block at its cold-start values, the journal as the scan and the rebuild
give it with the ABANDONED row of a shift found open in the append queue, and the line after the part's own break.
R188, R193: one that is cut short does its first step (log 8). The model's choices among the values: the qualified PULSE
level is the raw one (log 26), the first sample period ends 900 units on (log 46), the value last taken is 0 (log 48),
the check word, the moment of RETAIN entry and the output samples are those of State.reset (log 2), the start and its
break fall at one moment (log 34), and the span of the ABANDONED record takes in the row at the write position (log
36). R26, R166, R194 and R195 say what the scan and the rebuild make of the array: the odometer, each sector's entry, the
directory and the ABANDONED record, whose first row is the one of the shift's first row sequence. -/
def Obligations.SpoiledWakeAndColdStart : Prop :=
  (∀ (straps : Straps) (lost : DataWord) (us : List Upset) (s : State), s.pwr.state = .retain →
    s.odo.powerGood = true → us.all Upset.inArray = true → retentionSum s + lost ≠ s.pwr.check →
    ∃ t, exec (.wake straps lost us) s = .next t ∧ t.pwr.state = .starting ∧ t.array = withUpsets s.array us
      ∧ t.lif.address = straps.addr.toNat + 1 ∧ t.time = max s.time (s.odo.powerFrom + 1440000))
  ∧ (∀ (straps : Straps) (us : List Upset) (s : State),
    (s.pwr.state = .starting ∨ (s.pwr.state = .off ∧ s.odo.powerGood = true)) → us.all Upset.inArray = true →
    ∃ t, exec (.coldStart straps .whole us) s = .next t ∧ t.pwr = { State.reset.pwr with state := .active }
      ∧ t.time = (if s.pwr.state = .off then max s.time (s.odo.powerFrom + 1440000) else s.time)
      ∧ t.array = withUpsets s.array us ∧ t.free = s.free ∧ t.pending = s.pending
      ∧ t.tar = ⟨committedIn t.array, if straps.cal then .opened else .closed, 0⟩
      ∧ t.lif = ⟨straps.addr.toNat + 1, .skip, [], t.time + 33000, Transmitter.free, [], t.time + 28800000⟩
      ∧ t.nsc = { Nsc.empty with sign := some ⟨.dark, false, 0⟩, announce := true }
      ∧ t.flt.coldFlag = true ∧ t.flt.latched.getLsbD 10 = true
      ∧ (∀ k, k ≠ 7 → k ≠ 8 → k ≠ 10 → t.flt.latched.getLsbD k = false)
      ∧ (Memory.wf s.array = true →
          t.flt.latched.getLsbD 7 = (List.range 2048).any (fun r => decide (classify (rowAt t.array r) = .corrected))
            ∧ t.flt.latched.getLsbD 8 = (List.range 2048).any (fun r => decide (classify (rowAt t.array r) = .damaged)))
      ∧ t.odo = { s.odo with
          addrStrap := straps.addr, calStrap := straps.cal, pulseQualified := s.odo.pulseLevel, pulseFrom := none
          pulseCount := 0, lastTaken := 0, tickDue := t.time + 1440000, window := List.replicate 10 0, moving := false
          odometer := scannedOdometer t.array, clock := ⟨2000, 1, 1, 0, 0, 0⟩, clockSet := false
          secondDue := t.time + 14400000, pendingTime := none, manualBand := none, vehicleBand := 0
          detector := if s.odo.assistLevel then .armed else .down, powerFrom := t.odo.powerFrom }
      ∧ t.fare = ⟨Four.all none, 0⟩
      ∧ t.cab = { State.reset.cab with signDue := some (t.time + 14400000) }
      ∧ t.icm = { State.reset.icm with holdDue := t.time + 216000000, sampleDue := t.time + 900 }
      ∧ t.acc = { State.reset.acc with
          lastShift := ((scannedDirectory t.array).getLast?.map (fun d => d.shift)).getD 0 }
      ∧ (let found := scannedPosition t.array
        let u := { t with jnl := { State.reset.jnl with
          append := t.jnl.append, writePos := found.1, nextSeq := t.jnl.nextSeq, sectors := scannedSectors t.array
          directory := scannedDirectory t.array } }
        (match (scannedDirectory t.array).find? (fun d => decide (d.state = .opened)) with
          | none => t.jnl.append = [] ∧ t.jnl.nextSeq = found.2 ∧ t.jnl.writePos = found.1
          | some d => t.jnl.nextSeq = found.2 + 1
            ∧ t.jnl.append
              = [⟨found.2, .shiftClose (abandonedClose t.array d found.1 (scannedOdometer t.array))⟩])
          ∧ t.jnl = (eraseAhead (programDue u)).jnl
          ∧ (Memory.wf s.array = true →
            (∀ r, ringRow r = true → readable (rowAt t.array r) = true → rowSeq (rowAt t.array r) < found.2)
            ∧ ((∃ r, ringRow r = true ∧ readable (rowAt t.array r) = true ∧ found.1 = nextRow r
                ∧ found.2 = rowSeq (rowAt t.array r) + 1)
              ∨ ((∀ r, ringRow r = true → readable (rowAt t.array r) = false) ∧ found = (32, 1))))))
  ∧ (∀ (straps : Straps) (us : List Upset) (s : State),
    (s.pwr.state = .starting ∨ (s.pwr.state = .off ∧ s.odo.powerGood = true)) → us.all Upset.inArray = true →
    ∃ t, exec (.coldStart straps .cut us) s = .next t
      ∧ t.time = (if s.pwr.state = .off then max s.time (s.odo.powerFrom + 1440000) else s.time)
      ∧ t = { s with
          time := t.time, array := withUpsets s.array us, flt := ⟨0#16, true⟩, pwr := { s.pwr with state := .starting }
          lif := { s.lif with address := straps.addr.toNat + 1 }
          odo := { s.odo with addrStrap := straps.addr, calStrap := straps.cal
                              detector := if s.odo.assistLevel then .armed else .down
                              powerFrom := if s.pwr.state = .off then t.time else s.odo.powerFrom } })
  ∧ (∀ m : Memory, Memory.wf m = true →
    OdometerRecovered m (scannedOdometer m) ∧ DirectoryRebuilt m (scannedDirectory m)
      ∧ (scannedSectors m).length = 126
      ∧ (∀ c, 2 ≤ c → c < 128 → SectorRebuilt m c ((scannedSectors m).getD (c - 2) SectorEntry.free)))
  ∧ (∀ (m : Memory) (d : DirEntry) (first last odometer : Nat), Memory.wf m = true → JournalRow m first →
    seqAt m first = d.first → (∀ r, JournalRow m r → seqAt m r = d.first → r = first) → ringRow last = true →
    AbandonedBuilt m d.shift first last odometer (abandonedClose m d last odometer))

/-! ### The tariff store -/

/-- 03 R40 to R42: a TARIFF_BEGIN in OPEN or LOADING leaves no committed tariff, and asks for the erase of sector 0,
with whose start its ACCEPTED is placed; in another window it is refused. An erased sector holds FREE rows; sector 1
follows sector 0 (in ENTERING at once, log 19), and then the window is LOADING with no row written. -/
def Obligations.TariffBeginErasesArea : Prop :=
  (∀ (q : QFrame) (e : Station) (rest : List QFrame) (s : State), Asks .tariffBegin q e rest s →
    ∃ t, exec .tariffBegin s = .next t ∧ LineKept rest s t ∧ FaultsKept s t
      ∧ (if s.tar.window = .closed then
          Answered q (.refused .state) s t ∧ t.tar = s.tar ∧ t.jnl = s.jnl ∧ t.cab = s.cab
        else if s.tar.window = .erasing ∨ s.tar.window = .writing then
          Answered q (.refused .busy) s t ∧ t.tar = s.tar ∧ t.jnl = s.jnl ∧ t.cab = s.cab
        else t.tar = ⟨none, .erasing, 0⟩ ∧ OpAsked (.tariffErase 0 q.src) s t
          ∧ (if s.jnl.inFlight = none ∧ s.jnl.waiting = [] then Answered q (.accepted []) s t
            else t.nsc.replies = s.nsc.replies)
          ∧ (∀ w ∈ t.cab.watches, w.count = 0 ∧ w.fired = false))
      ∧ t = { s with lif := t.lif, nsc := { s.nsc with replies := t.nsc.replies, sign := t.nsc.sign }, tar := t.tar
                     cab := { s.cab with watches := t.cab.watches, sign := t.cab.sign, signDue := t.cab.signDue }
                     jnl := t.jnl, flt := t.flt })
  ∧ (∀ (c asker : Nat) (s : State), (s.pwr.state = .active ∨ s.pwr.state = .entering) →
    s.jnl.inFlight = some (.tariffErase c asker) →
    ∃ t, exec .tariffEraseComplete s = .next t
      ∧ (∀ r, rowAt t.array r = if r / 16 = c then erasedRow else rowAt s.array r)
      ∧ (if c = 0 then t.tar = s.tar
          ∧ (if s.pwr.state = .active ∧ s.jnl.waiting ≠ [] then
              t.jnl.inFlight = s.jnl.waiting.head? ∧ t.jnl.waiting = s.jnl.waiting.tail ++ [.tariffErase 1 asker]
            else t.jnl.inFlight = some (.tariffErase 1 asker) ∧ t.jnl.waiting = s.jnl.waiting)
        else t.tar = { s.tar with window := .loading, written := 0 })
      ∧ t = { s with array := t.array, tar := t.tar, flt := t.flt
                     nsc := { s.nsc with replies := t.nsc.replies, journal := t.nsc.journal }
                     lif := { s.lif with tx := { s.lif.tx with renewed := t.lif.tx.renewed } }
                     jnl := { s.jnl with inFlight := t.jnl.inFlight, waiting := t.jnl.waiting, cursor := t.jnl.cursor } })

/-- 03 R41 and R43 and 11 R199: the checks of a TARIFF_PART and the write of a part: the row at the next unwritten row,
then the superseded mark of the row it replaces (word 63, 11 R200), then LOADING and the ACCEPTED. -/
def Obligations.TariffPartIsCheckedAndWritten : Prop :=
  (∀ (q : QFrame) (e : Station) (rest : List QFrame) (s : State), Asks .tariffPart q e rest s →
    ∃ t, exec .tariffPart s = .next t ∧ LineKept rest s t ∧ FaultsKept s t
      ∧ (if s.tar.window = .erasing ∨ s.tar.window = .writing then
          Answered q (.refused .busy) s t ∧ t.tar = s.tar ∧ t.jnl = s.jnl
        else if s.tar.window ≠ .loading then Answered q (.refused .state) s t ∧ t.tar = s.tar ∧ t.jnl = s.jnl
        else if (sectionForm (q.at 0 1)).all (fun f => decide (f.1 ≤ q.at 1 1 ∨ q.payload.length ≠ f.2)) = true
            ∨ fieldsOk (q.at 0 1) q.payload 2 = false then
          Answered q (.refused .range) s t ∧ t.tar = s.tar ∧ t.jnl = s.jnl
        else if 31 ≤ s.tar.written then Answered q (.refused .limit) s t ∧ t.tar = s.tar ∧ t.jnl = s.jnl
        else t.tar = { s.tar with window := .writing } ∧ OpAsked (.tariffPart s.tar.written q.payload q.src) s t
          ∧ t.nsc.replies = s.nsc.replies)
      ∧ t = { s with lif := t.lif, nsc := { s.nsc with replies := t.nsc.replies }, tar := t.tar, jnl := t.jnl
                     flt := t.flt })
  ∧ (∀ (row asker : Nat) (content : List Byte) (s : State), (s.pwr.state = .active ∨ s.pwr.state = .entering) →
    s.jnl.inFlight = some (.tariffPart row content asker) → row < 2048 → Memory.wf s.array = true →
    ∃ t, exec .tariffPartProgramComplete s = .next t
      ∧ (∀ r, rowAt t.array r = if r = row then rowOfPart row content else rowAt s.array r)
      ∧ (match replacedRow t.array row with
        | none => t.tar = { s.tar with window := .loading, written := s.tar.written + 1 }
          ∧ (s.jnl.waiting = [] → Replied ⟨asker, 0x51#8, .accepted []⟩ s t ∧ t.jnl.inFlight = none)
        | some r => t.tar = { s.tar with written := s.tar.written + 1 }
          ∧ (s.jnl.waiting = [] → t.nsc.replies = s.nsc.replies ∧
              (if s.pwr.state = .active then t.jnl.inFlight = some (.tariffMark r asker)
                else t.jnl.inFlight = none ∧ t.jnl.waiting = [.tariffMark r asker])))
      ∧ t = { s with array := t.array, tar := t.tar, flt := t.flt
                     nsc := { s.nsc with replies := t.nsc.replies, journal := t.nsc.journal }
                     lif := { s.lif with tx := { s.lif.tx with renewed := t.lif.tx.renewed } }
                     jnl := { s.jnl with inFlight := t.jnl.inFlight, waiting := t.jnl.waiting, cursor := t.jnl.cursor } })
  ∧ (∀ (row asker : Nat) (s : State), (s.pwr.state = .active ∨ s.pwr.state = .entering) →
    s.jnl.inFlight = some (.tariffMark row asker) → row < 2048 → Memory.wf s.array = true →
    ∃ t, exec .tariffMarkProgramComplete s = .next t
      ∧ (∀ r, rowAt t.array r = if r = row then (rowAt s.array r).set 63 (.good 0) else rowAt s.array r)
      ∧ t.tar = { s.tar with window := .loading }
      ∧ (s.jnl.waiting = [] → Replied ⟨asker, 0x51#8, .accepted []⟩ s t ∧ t.jnl.inFlight = none)
      ∧ t = { s with array := t.array, tar := t.tar, flt := t.flt
                     nsc := { s.nsc with replies := t.nsc.replies, journal := t.nsc.journal }
                     lif := { s.lif with tx := { s.lif.tx with renewed := t.lif.tx.renewed } }
                     jnl := { s.jnl with inFlight := t.jnl.inFlight, waiting := t.jnl.waiting, cursor := t.jnl.cursor } })

/-- 03 R41 and R44: the checks of a TARIFF_COMMIT over the live rows of the load, and what follows the program of the
commit row: the area is read, the window is CLOSED, and the answer says whether the read found a set, which it does only
with a readable commit row and every row before it readable (R39). In ENTERING only
the row is written (R47). -/
def Obligations.TariffCommitIsCheckedAndReadBack : Prop :=
  (∀ (q : QFrame) (e : Station) (rest : List QFrame) (s : State), Asks .tariffCommit q e rest s →
    let live := liveRows (s.array.filter (fun x => decide (x.1 < 32 ∧ x.1 < s.tar.written)))
    ∃ t, exec .tariffCommit s = .next t ∧ LineKept rest s t ∧ FaultsKept s t
      ∧ (if s.tar.window = .erasing ∨ s.tar.window = .writing then
          Answered q (.refused .busy) s t ∧ t.tar = s.tar ∧ t.jnl = s.jnl
        else if s.tar.window ≠ .loading then Answered q (.refused .state) s t ∧ t.tar = s.tar ∧ t.jnl = s.jnl
        else if (setOf live).all (fun c => c.bands.s0.isNone
            || c.switches.any (fun p => (c.bands.get (bandOf p.band)).isNone)
            || c.bands.toList.any (fun r => r.any (fun b => decide (b.f2 < b.f3 ∨ b.f3 < b.f4)))) = true then
          Answered q (.refused .range) s t ∧ t.tar = s.tar ∧ t.jnl = s.jnl
        else t.tar = { s.tar with window := .writing } ∧ t.nsc.replies = s.nsc.replies
          ∧ OpAsked (.tariffCommit s.tar.written live.length (contentSums live) q.src) s t)
      ∧ t = { s with lif := t.lif, nsc := { s.nsc with replies := t.nsc.replies }, tar := t.tar, jnl := t.jnl
                     flt := t.flt })
  ∧ (∀ (row count sum asker : Nat) (us : List Upset) (s : State),
    (s.pwr.state = .active ∨ s.pwr.state = .entering) → s.jnl.inFlight = some (.tariffCommit row count sum asker) →
    us.all Upset.inArray = true →
    ∃ t, exec (.tariffCommitProgramComplete us) s = .next t
      ∧ t.array = withUpsets (programRow s.array row (rowOfCommit row count sum)) us
      ∧ (if s.pwr.state = .active then t.tar = ⟨committedIn t.array, .closed, s.tar.written + 1⟩
          ∧ (t.tar.committed.isSome = true → Memory.wf s.array = true →
              ∃ r, r < 32 ∧ isCommit (rowAt t.array r) = true ∧ ∀ x, x < r → readable (rowAt t.array x) = true)
          ∧ (s.jnl.waiting = [] → t.jnl.inFlight = none
              ∧ Replied ⟨asker, 0x52#8, if t.tar.committed.isSome then .accepted [] else .refused .range⟩ s t)
        else t.tar = { s.tar with written := s.tar.written + 1 } ∧ t.nsc.replies = s.nsc.replies
          ∧ t.jnl.inFlight = none ∧ t.jnl.waiting = s.jnl.waiting)
      ∧ t.flt.coldFlag = s.flt.coldFlag
      ∧ t = { s with array := t.array, tar := t.tar, flt := t.flt
                     nsc := { s.nsc with replies := t.nsc.replies, journal := t.nsc.journal, sign := t.nsc.sign }
                     cab := { s.cab with watches := t.cab.watches, sign := t.cab.sign, signDue := t.cab.signDue }
                     lif := { s.lif with tx := { s.lif.tx with renewed := t.lif.tx.renewed } }
                     jnl := { s.jnl with inFlight := t.jnl.inFlight, waiting := t.jnl.waiting, cursor := t.jnl.cursor } })

/-! ### Shifts -/

/-- 08 R145 and R146: the checks of a SHIFT_OPEN in order, and the shift it opens. -/
def Obligations.ShiftOpenOpensShift : Prop :=
  ∀ (q : QFrame) (e : Station) (rest : List QFrame) (s : State), Asks .shiftOpen q e rest s →
    let driver := q.at 0 4
    let n := if 65535 ≤ s.acc.lastShift then 1 else s.acc.lastShift + 1
    let code : Option RefusalCode :=
      if s.tar.committed = none then some .noTariff
      else if s.acc.shift.state = .opened then some .state
      else if driver = 0 ∨ 999999 < driver then some .range
      else if 16 ≤ s.jnl.directory.length ∨ (s.jnl.directory.any (fun d => decide (d.state = .opened))) = true
          ∨ freeRows s < 2 then some .journalFull
      else none
    ∃ t, exec .shiftOpen s = .next t ∧ LineKept rest s t ∧ FaultsKept s t
      ∧ (match code with
        | some c => Answered q (.refused c) s t
          ∧ t = { s with lif := t.lif, nsc := { s.nsc with replies := t.nsc.replies }, flt := t.flt }
        | none => Answered q (.accepted (le 2 n)) s t
          ∧ t.acc = { s.acc with
              shift := { ShiftRecord.none with state := .opened, number := n, driver := driver
                                               openTime := s.odo.clock, odoOpen := s.odo.odometer }
              lastShift := n, unresolved := [], late := [] }
          ∧ RowClaimed (.shiftOpen ⟨n, driver, s.odo.clock, s.odo.odometer⟩) s t
          ∧ t.jnl.directory = s.jnl.directory ++ [⟨n, s.jnl.nextSeq, none, .opened⟩]
          ∧ t.tar = { s.tar with window := if s.tar.window = .opened then .closed else s.tar.window }
          ∧ t.fare = { s.fare with lastLeg := 0 } ∧ t.cab.duty = .vacant
          ∧ t = { s with lif := t.lif, nsc := { s.nsc with replies := t.nsc.replies, sign := t.nsc.sign }
                         tar := t.tar, fare := t.fare, acc := t.acc, jnl := t.jnl, flt := t.flt
                         cab := { s.cab with duty := .vacant, sign := t.cab.sign, signDue := t.cab.signDue } })

/-- 08 R147, R148 and R151 and 05 R82: the checks of a SHIFT_CLOSE in order, and the close: the final values, the
record handed to the journal, the SHIFT_REPORT job and the job it pushes out of a full queue (R156), the SHIFT_CLOSED
item, the duty state and the manual band. -/
def Obligations.ShiftCloseClosesShift : Prop :=
  ∀ (q : QFrame) (e : Station) (rest : List QFrame) (s : State), Asks .shiftClose q e rest s →
    let r := s.acc.shift
    let totals : Totals := { r.totals with
      hiredMetres := min 4294967295 (r.hiredPulses * 1000 / tariffK s)
      unhiredMetres := min 4294967295 (r.unhiredPulses * 1000 / tariffK s)
      hiredSeconds := r.hiredTicks / 10, sharedSeconds := r.sharedTicks / 10
      unresolved := min 65535 (r.pushedOut + s.acc.unresolved.length) }
    let record : CloseRecord :=
      ⟨r.number, false, r.driver, r.openTime, s.odo.clock, r.odoOpen, s.odo.odometer, totals⟩
    let item : FleetItem := .shiftClosed r.number r.driver s.odo.clock totals.fare totals.extras totals.tips
      totals.card totals.cash
    let code : Option RefusalCode :=
      if r.state ≠ .opened then some .noShift
      else if (∃ i, legAt s i ≠ none) then some .state
      else if (s.cab.duty ≠ .vacant ∧ s.cab.duty ≠ .offDuty) ∨ s.cab.latch = true then some .state
      else none
    ∃ t, exec .shiftClose s = .next t ∧ LineKept rest s t
      ∧ (match code with
        | some c => Answered q (.refused c) s t ∧ FaultsKept s t
          ∧ t = { s with lif := t.lif, nsc := { s.nsc with replies := t.nsc.replies }, flt := t.flt }
        | none => Answered q (.accepted (le 2 r.number)) s t
          ∧ t.acc.shift = { r with state := .closed, closeTime := some s.odo.clock, odoClose := some s.odo.odometer
                                   totals := totals }
          ∧ RowClaimed (.shiftClose record) s t
          ∧ (let job : Job := ⟨.report record s.acc.unresolved s.acc.late, 0⟩
            let leaving := (s.acc.jobs.findIdx? (fun j => decide (j.pos = 0) && isReceipt j)).orElse
              (fun _ => s.acc.jobs.findIdx? (fun j => decide (j.pos = 0)))
            let firstItem := t.acc.jobs.head?.bind (fun j => (jobItems j.body)[j.pos]?)
            if s.acc.jobs.length < 4 then
              t.acc.jobs = s.acc.jobs ++ [job] ∧ FaultsKept s t
                ∧ t.nsc.print = (if s.acc.jobs = [] then firstItem else s.nsc.print)
            else t.flt.latched.getLsbD 9 = true ∧ t.flt.coldFlag = s.flt.coldFlag
              ∧ (∀ k, k ≠ 2 → k ≠ 9 → t.flt.latched.getLsbD k = s.flt.latched.getLsbD k)
              ∧ ∀ i, leaving = some i → t.acc.jobs = s.acc.jobs.eraseIdx i ++ [job]
                ∧ t.nsc.print = (if i = 0 then firstItem else s.nsc.print))
          ∧ item ∈ t.nsc.fleet
          ∧ t.nsc.fleet.filter (fun x => decide (x.kind ≠ .shiftClosed))
              = s.nsc.fleet.filter (fun x => decide (x.kind ≠ .shiftClosed))
          ∧ t.odo = { s.odo with manualBand := none } ∧ t.cab.duty = .noShift
          ∧ t.acc = { s.acc with shift := t.acc.shift, jobs := t.acc.jobs }
          ∧ t = { s with lif := t.lif, odo := t.odo, acc := t.acc, jnl := t.jnl, flt := t.flt
                         nsc := { s.nsc with replies := t.nsc.replies, sign := t.nsc.sign, fleet := t.nsc.fleet
                                             print := t.nsc.print }
                         cab := { s.cab with duty := .noShift, sign := t.cab.sign, signDue := t.cab.signDue } })

/-! ### Duty and booking -/

/-- 05 R79: the checks of a DUTY in order and its effect by the duty state; a booking that ends so is told to the fleet
as CANCELLED. -/
def Obligations.DutyMovesCabState : Prop :=
  ∀ (q : QFrame) (e : Station) (rest : List QFrame) (s : State), Asks .duty q e rest s →
    let wanted := q.at 0 1
    let code : Option RefusalCode :=
      if shiftIsOpen s = false then some .noShift
      else if wanted ≠ 1 ∧ wanted ≠ 2 then some .range
      else if s.cab.duty = .hired then some .state
      else if s.cab.duty = .booked ∧ wanted = 2 then some .state
      else none
    ∃ t, exec .duty s = .next t ∧ LineKept rest s t ∧ FaultsKept s t
      ∧ (match code with
        | some c => Answered q (.refused c) s t
          ∧ t = { s with lif := t.lif, nsc := { s.nsc with replies := t.nsc.replies }, flt := t.flt }
        | none =>
          (s.cab.duty ≠ .noShift → t.cab.duty = if wanted = 1 then .vacant else .offDuty)
          ∧ (s.cab.duty = .noShift → t.cab.duty = .noShift)
          ∧ Answered q (.accepted (le 1 t.cab.duty.code)) s t
          ∧ (s.cab.duty = .booked → t.cab.booking = none
              ∧ ∀ r, s.cab.booking = some r → .booking r .cancelled 0 ∈ t.nsc.fleet)
          ∧ (s.cab.duty ≠ .booked → t.cab.booking = s.cab.booking ∧ t.nsc.fleet = s.nsc.fleet)
          ∧ t.nsc.fleet.filter (fun x => decide (x.kind ≠ .booking))
              = s.nsc.fleet.filter (fun x => decide (x.kind ≠ .booking))
          ∧ t = { s with lif := t.lif, flt := t.flt
                         nsc := { s.nsc with replies := t.nsc.replies, sign := t.nsc.sign, fleet := t.nsc.fleet }
                         cab := { s.cab with duty := t.cab.duty, booking := t.cab.booking, sign := t.cab.sign
                                             signDue := t.cab.signDue } })

/-- 05 R80 and 11 R199: BOOK. Byte 0 is 1 for SET, with 8 bytes of reference behind it, and 2 for CANCEL, alone. -/
def Obligations.BookSetsOrCancels : Prop :=
  ∀ (q : QFrame) (e : Station) (rest : List QFrame) (s : State), Asks .book q e rest s →
    let set := decide (q.at 0 1 = 1 ∧ q.payload.length = 9)
    let cancel := decide (q.at 0 1 = 2 ∧ q.payload.length = 1)
    let code : Option RefusalCode :=
      if shiftIsOpen s = false then some .noShift
      else if set = false ∧ cancel = false then some .range
      else if set = true ∧ (s.cab.duty = .offDuty ∨ s.cab.duty = .hired) then some .state
      else if cancel = true ∧ s.cab.duty ≠ .booked then some .state
      else none
    ∃ t, exec .book s = .next t ∧ LineKept rest s t ∧ FaultsKept s t
      ∧ (match code with
        | some c => Answered q (.refused c) s t
          ∧ t = { s with lif := t.lif, nsc := { s.nsc with replies := t.nsc.replies }, flt := t.flt }
        | none => Answered q (.accepted []) s t
          ∧ (set = true → t.cab.booking = some (q.payload.drop 1) ∧ t.cab.duty = .booked
              ∧ ∀ r, s.cab.booking = some r → .booking r .replaced 0 ∈ t.nsc.fleet)
          ∧ (cancel = true → t.cab.booking = none ∧ t.cab.duty = .vacant
              ∧ ∀ r, s.cab.booking = some r → .booking r .cancelled 0 ∈ t.nsc.fleet)
          ∧ (s.cab.booking = none → t.nsc.fleet = s.nsc.fleet)
          ∧ t.nsc.fleet.filter (fun x => decide (x.kind ≠ .booking))
              = s.nsc.fleet.filter (fun x => decide (x.kind ≠ .booking))
          ∧ t = { s with lif := t.lif, flt := t.flt
                         nsc := { s.nsc with replies := t.nsc.replies, sign := t.nsc.sign, fleet := t.nsc.fleet }
                         cab := { s.cab with duty := t.cab.duty, booking := t.cab.booking, sign := t.cab.sign
                                             signDue := t.cab.signDue } })

/-! ### Legs -/

/-- 04 R50: a number that no slot that is not FREE holds is refused with UNKNOWN_LEG, before a request's own checks. A
PAY_RESULT then looks in the unresolved list (06 R110). -/
def Obligations.UnknownLegIsRefused : Prop :=
  ∀ (k : ReqKind) (q : QFrame) (e : Station) (rest : List QFrame) (s : State),
    k ∈ [ReqKind.hold, .resume, .void, .extra, .flat, .payClaim, .payStart, .payCancel, .cash, .tip] →
    Asks k q e rest s → (∀ i l, legAt s i = some l → l.number ≠ q.at 0 2) →
    ∃ t, exec (commandOf k) s = .next t ∧ LineKept rest s t ∧ FaultsKept s t
      ∧ Answered q (.refused .unknownLeg) s t
      ∧ t = { s with lif := t.lif, nsc := { s.nsc with replies := t.nsc.replies }, flt := t.flt }

/-- 04 R54 to R56, 05 R80 and R81 and 07 R137: the checks of a HIRE in order, and the leg it opens. A share byte that
codes no flag is out of range (log 25); the fare part at open is kept under the ceiling (log 29). -/
def Obligations.HireOpensLeg : Prop :=
  ∀ (q : QFrame) (e : Station) (rest : List QFrame) (s : State), Asks .hire q e rest s →
    let panel := q.at 0 1
    let zone := q.at 2 1
    let n := occupied s
    let code : Option RefusalCode :=
      if shiftIsOpen s = false then some .noShift
      else if s.cab.duty = .offDuty then some .state
      else if 1 < q.at 1 1 ∨ (q.at 1 1 = 1 ∧ sharingInForce s = false) then some .range
      else if anyOccupied s (fun l => decide (l.share = .solo)) = true
          ∨ (1 ≤ n ∧ s.cab.share = some .shared ∧ q.at 1 1 = 0) ∨ tariffCp s ≤ n then some .noSlot
      else if (∀ i, legAt s i ≠ none) then some .noSlot
      else if panel ≠ 0 ∧ (stationOf s panel).all (fun x => !x.present || decide (x.role ≠ .panel)) = true then
        some .absent
      else if panel ≠ 0 ∧ anyOccupied s (fun l => decide (l.panel = some panel)) = true then some .state
      else if zone ≠ 255 ∧ (5 < zone ∨ zoneFare s zone = none) then some .range
      else if freeRows s < n + 2 then some .journalFull
      else if 9999 ≤ s.fare.lastLeg then some .limit
      else none
    ∃ t, exec .hire s = .next t ∧ LineKept rest s t ∧ FaultsKept s t
      ∧ (match code with
        | some c => Answered q (.refused c) s t
          ∧ t = { s with lif := t.lif, nsc := { s.nsc with replies := t.nsc.replies }, flt := t.flt }
        | none => ∃ i l, legAt s i = none ∧ (∀ j, j < i → legAt s j ≠ none)
          ∧ t.fare = ⟨s.fare.slots.set i (some l), s.fare.lastLeg + 1⟩
          ∧ Answered q (.accepted (le 2 l.number ++ le 1 i.val)) s t
          ∧ (let counts := (List.range 8).map (fun k => if (extraKind s k).any (fun x => x.automatic) then 1 else 0)
            let extras := ((List.range 8).map (fun k => match extraKind s k with
              | some x => if x.automatic then x.amount else 0
              | none => 0)).sum
            let fare := min 9999999 (if zone = 255 then (bandRates s s.odo.vehicleBand).F
              else (zoneFare s zone).getD 0)
            l = { phase := .opened, number := s.fare.lastLeg + 1, panel := if panel = 0 then none else some panel
                  share := if q.at 1 1 = 1 then .shared else .solo, openTime := s.odo.clock, booking := s.cab.booking
                  openBand := s.odo.vehicleBand, regBand := s.odo.vehicleBand
                  kind := if zone = 255 then .metered else .flat zone, reg := 0, steps := 0, farePart := fare
                  extraCounts := counts, extrasTotal := min extras (9999999 - fare)
                  ceiling := decide (9999999 - fare < extras), voided := false, interrupted := false
                  hiredPulses := 0, hiredTicks := 0, sharedTicks := 0, tip := none, tenders := [], attempts := []
                  claim := none })
          ∧ t.nsc.fares = s.nsc.fares.set i (some (showOf l))
          ∧ t.cab.booking = none
          ∧ (∀ r, s.cab.booking = some r → .booking r .taken l.number ∈ t.nsc.fleet)
          ∧ (s.cab.booking = none → t.nsc.fleet = s.nsc.fleet)
          ∧ (if n = 0 then t.cab.duty = .hired ∧ t.cab.share = some l.share
            else t.cab.duty = s.cab.duty ∧ t.cab.share = s.cab.share)
          ∧ t.icm.forced = decide (t.cab.duty = .hired ∧ t.cab.share = some .shared)
          ∧ t.icm.privacy = (s.icm.privacy || (t.icm.forced && !s.icm.forced))
          ∧ t = { s with lif := t.lif, fare := t.fare, flt := t.flt
                         nsc := { s.nsc with replies := t.nsc.replies, sign := t.nsc.sign, fares := t.nsc.fares
                                             fleet := t.nsc.fleet }
                         cab := { s.cab with duty := t.cab.duty, share := t.cab.share, booking := none
                                             sign := t.cab.sign, signDue := t.cab.signDue }
                         icm := { s.icm with forced := t.icm.forced, privacy := t.icm.privacy } })

/-- 04 R57 and R58 and 06 R98: HOLD and RESUME. A RESUME of a metered leg rescales its register to the vehicle band
where it differs from the register band. -/
def Obligations.HoldAndResumeMoveLeg : Prop :=
  (∀ (q : QFrame) (e : Station) (rest : List QFrame) (i : Fin 4) (l : Leg) (s : State), Asks .hold q e rest s →
    LegNamed q i l s →
    ∃ t, exec .hold s = .next t ∧ LineKept rest s t ∧ FaultsKept s t
      ∧ (if l.phase ≠ .opened then Answered q (.refused .state) s t ∧ t.fare = s.fare ∧ t.icm = s.icm
          ∧ t.nsc.offers = s.nsc.offers ∧ t.nsc.fares = s.nsc.fares
        else let l' : Leg := { l with phase := .held }
          Answered q (.accepted []) s t ∧ t.fare = { s.fare with slots := s.fare.slots.set i (some l') }
          ∧ t.nsc.offers = s.nsc.offers.set i (some (offerOf l'))
          ∧ t.nsc.fares = s.nsc.fares.set i (some (showOf l'))
          ∧ t.icm.prompts = prompted s.icm.prompts .fare (promptSpeaker s l))
      ∧ t = { s with lif := t.lif, fare := t.fare, flt := t.flt, icm := { s.icm with prompts := t.icm.prompts }
                     nsc := { s.nsc with replies := t.nsc.replies, offers := t.nsc.offers, fares := t.nsc.fares } })
  ∧ (∀ (q : QFrame) (e : Station) (rest : List QFrame) (i : Fin 4) (l : Leg) (s : State), Asks .resume q e rest s →
    LegNamed q i l s →
    ∃ t, exec .resume s = .next t ∧ LineKept rest s t ∧ FaultsKept s t
      ∧ (if l.phase ≠ .held ∨ l.tenders ≠ [] ∨ l.claim ≠ none then
          Answered q (.refused .state) s t ∧ t.fare = s.fare ∧ t.nsc.offers = s.nsc.offers
            ∧ t.nsc.fares = s.nsc.fares
        else
          let v := s.odo.vehicleBand
          let l' : Leg := { l with
            phase := .opened
            regBand := if l.kind = .metered then v else l.regBand
            reg := if l.kind = .metered ∧ l.regBand ≠ v then
                l.reg * (bandRates s v).S (tariffK s) / (bandRates s l.regBand).S (tariffK s) else l.reg }
          Answered q (.accepted []) s t ∧ t.fare = { s.fare with slots := s.fare.slots.set i (some l') }
          ∧ t.nsc.offers = s.nsc.offers.set i none ∧ t.nsc.fares = s.nsc.fares.set i (some (showOf l')))
      ∧ t = { s with lif := t.lif, fare := t.fare, flt := t.flt
                     nsc := { s.nsc with replies := t.nsc.replies, offers := t.nsc.offers, fares := t.nsc.fares } })

/-- 04 R59 to R61, R69, R70 and R74, 08 R149 and 05 R81: VOID, EXTRA and FLAT. R51 names VOID among the events that
change the register, which the model sets to 0 (log 43). -/
def Obligations.VoidExtraAndFlatActOnLeg : Prop :=
  (∀ (q : QFrame) (e : Station) (rest : List QFrame) (i : Fin 4) (l : Leg) (s : State), Asks .void q e rest s →
    LegNamed q i l s →
    ∃ t, exec .void s = .next t
      ∧ (if l.phase ≠ .opened ∨ 0 < l.steps ∨ ((List.range 8).any (fun k =>
            decide ((if (extraKind s k).any (fun x => x.automatic) then 1 else 0) < l.extraCounts.getD k 0))) = true then
          OnlyRefused q .state rest s t
        else
          let l' : Leg := { l with
            farePart := 0, extrasTotal := 0, reg := 0, voided := true, tip := l.tip.map (fun _ => 0) }
          Answered q (.accepted []) s t ∧ LineKept rest s t ∧ LegClosed i l' none s t
          ∧ t.acc = { s.acc with shift := { s.acc.shift with totals := { s.acc.shift.totals with
              legsVoided := min 9999 (s.acc.shift.totals.legsVoided + 1) } } }
          ∧ t = { s with lif := t.lif, fare := t.fare, acc := t.acc, flt := t.flt
                         nsc := { s.nsc with replies := t.nsc.replies, sign := t.nsc.sign, fares := t.nsc.fares }
                         cab := { s.cab with duty := t.cab.duty, share := t.cab.share, sign := t.cab.sign
                                             signDue := t.cab.signDue }
                         icm := { s.icm with forced := t.icm.forced, privacy := t.icm.privacy }
                         jnl := t.jnl }))
  ∧ (∀ (q : QFrame) (e : Station) (rest : List QFrame) (i : Fin 4) (l : Leg) (s : State), Asks .extra q e rest s →
    LegNamed q i l s →
    let k := q.at 2 1
    let n := l.extraCounts.getD k 0
    ∃ t, exec .extra s = .next t ∧ LineKept rest s t ∧ FaultsKept s t
      ∧ (if l.phase = .paying ∨ l.phase = .closing ∨ (l.phase = .held ∧ l.tenders ≠ []) then
          Answered q (.refused .state) s t ∧ t.fare = s.fare ∧ t.nsc.offers = s.nsc.offers
            ∧ t.nsc.fares = s.nsc.fares
        else if 7 < k ∨ extraKind s k = none then
          Answered q (.refused .range) s t ∧ t.fare = s.fare ∧ t.nsc.offers = s.nsc.offers
            ∧ t.nsc.fares = s.nsc.fares
        else ∀ x, extraKind s k = some x →
          if n < x.max then
            let l' : Leg := { l with
              extraCounts := l.extraCounts.set k (n + 1)
              extrasTotal := l.extrasTotal + min x.amount (9999999 - l.total)
              ceiling := l.ceiling || decide (9999999 - l.total < x.amount) }
            Answered q (.accepted (le 2 l.number ++ le 1 k ++ le 1 (n + 1))) s t
            ∧ t.fare = { s.fare with slots := s.fare.slots.set i (some l') }
            ∧ t.nsc.fares = s.nsc.fares.set i (some (showOf l'))
            ∧ t.nsc.offers = (if l.phase = .held then s.nsc.offers.set i (some (offerOf l')) else s.nsc.offers)
          else Answered q (.accepted (le 2 l.number ++ le 1 k ++ le 1 n)) s t ∧ t.fare = s.fare
            ∧ t.nsc.offers = s.nsc.offers ∧ t.nsc.fares = s.nsc.fares)
      ∧ t = { s with lif := t.lif, fare := t.fare, flt := t.flt
                     nsc := { s.nsc with replies := t.nsc.replies, offers := t.nsc.offers, fares := t.nsc.fares } })
  ∧ (∀ (q : QFrame) (e : Station) (rest : List QFrame) (i : Fin 4) (l : Leg) (s : State), Asks .flat q e rest s →
    LegNamed q i l s →
    let z := q.at 2 1
    ∃ t, exec .flat s = .next t ∧ LineKept rest s t ∧ FaultsKept s t
      ∧ (if l.phase = .paying ∨ l.phase = .closing ∨ (l.phase = .held ∧ l.tenders ≠ []) then
          Answered q (.refused .state) s t ∧ t.fare = s.fare ∧ t.nsc.offers = s.nsc.offers
            ∧ t.nsc.fares = s.nsc.fares
        else if 5 < z ∨ zoneFare s z = none then
          Answered q (.refused .range) s t ∧ t.fare = s.fare ∧ t.nsc.offers = s.nsc.offers
            ∧ t.nsc.fares = s.nsc.fares
        else ∀ f, zoneFare s z = some f →
          let l' : Leg := { l with
            kind := .flat z, reg := 0, farePart := min f (9999999 - l.extrasTotal)
            ceiling := l.ceiling || decide (9999999 - l.extrasTotal < f) }
          Answered q (.accepted []) s t ∧ t.fare = { s.fare with slots := s.fare.slots.set i (some l') }
          ∧ t.nsc.fares = s.nsc.fares.set i (some (showOf l'))
          ∧ t.nsc.offers = (if l.phase = .held then s.nsc.offers.set i (some (offerOf l')) else s.nsc.offers))
      ∧ t = { s with lif := t.lif, fare := t.fare, flt := t.flt
                     nsc := { s.nsc with replies := t.nsc.replies, offers := t.nsc.offers, fares := t.nsc.fares } })

/-! ### Settlement -/

/-- 06 R99 and R100: PAY_CLAIM, and the passing of a claim's deadline while its leg is HELD. A claim's holder is
known by its address and its role. -/
def Obligations.ClaimIsTakenAndRunsOut : Prop :=
  (∀ (q : QFrame) (e : Station) (rest : List QFrame) (i : Fin 4) (l : Leg) (s : State), Asks .payClaim q e rest s →
    LegNamed q i l s →
    ∃ t, exec .payClaim s = .next t ∧ LineKept rest s t ∧ FaultsKept s t
      ∧ (if l.phase ≠ .held then
          Answered q (.refused .state) s t ∧ t.fare = s.fare ∧ t.nsc.offers = s.nsc.offers
        else if (∃ c, l.claim = some c ∧ (c.holder ≠ q.src ∨ c.role ≠ e.role)) then
          Answered q (.refused .claimed) s t ∧ t.fare = s.fare ∧ t.nsc.offers = s.nsc.offers
        else
          let l' : Leg := { l with claim := some ⟨q.src, e.role, some (s.time + 864000000)⟩ }
          Answered q (.accepted (le 2 l.number ++ le 4 60)) s t
          ∧ t.fare = { s.fare with slots := s.fare.slots.set i (some l') }
          ∧ t.nsc.offers = (if l.claim = none then s.nsc.offers.set i (some (offerOf l')) else s.nsc.offers))
      ∧ t = { s with lif := t.lif, fare := t.fare, flt := t.flt
                     nsc := { s.nsc with replies := t.nsc.replies, offers := t.nsc.offers } })
  ∧ (∀ (i : Fin 4) (l : Leg) (h : Nat) (r : Role) (due : Moment) (s : State), s.pwr.state = .active → legAt s i = some l →
    l.phase = .held → l.claim = some ⟨h, r, some due⟩ →
    ∃ t, exec (.claimDeadline i) s = .next t ∧ t.time = max s.time due ∧ ReferenceEnded h s t ∧ TransmitterKept s t
      ∧ t.fare = { s.fare with slots := s.fare.slots.set i (some { l with claim := none }) }
      ∧ t.nsc.offers = s.nsc.offers.set i (some (offerOf { l with claim := none }))
      ∧ t = { s with time := t.time, fare := t.fare
                     nsc := { s.nsc with offers := t.nsc.offers, print := t.nsc.print }
                     lif := { s.lif with stations := t.lif.stations, tx := t.lif.tx }
                     cab := { s.cab with watches := t.cab.watches }
                     acc := { s.acc with credit := t.acc.credit, jobs := t.acc.jobs } })

/-- 06 R103 and R104: the checks of a PAY_START in order, and the attempt it puts in flight. A claim's holder is
known by its address and its role (R99), and an absent tip is answered as 0 (log 53). -/
def Obligations.PayStartPutsAttemptInFlight : Prop :=
  ∀ (q : QFrame) (e : Station) (rest : List QFrame) (i : Fin 4) (l : Leg) (s : State), Asks .payStart q e rest s →
    LegNamed q i l s →
    let n := q.at 2 1
    let tip := q.at 3 4
    let amount := q.at 7 4
    let none' : Nat := 4294967295
    let due := if l.tenders = [] ∧ tip ≠ none' then l.total + tip else l.due
    let code : Option RefusalCode :=
      if (l.claim.all (fun c => decide (c.holder ≠ q.src ∨ c.role ≠ e.role))) = true then some .notHolder
      else if l.phase ≠ .held then some .state
      else if n ≠ l.attempts.length + 1 then some .range
      else if 8 ≤ l.attempts.length then some .limit
      else if tip ≠ none' ∧ 99999 < tip then some .range
      else if l.tenders ≠ [] ∧ tip ≠ none' ∧ tip ≠ l.tip.getD 0 then some .state
      else if amount = 0 ∨ due < amount then some .range
      else if 3 ≤ l.tenders.length ∧ amount ≠ due then some .limit
      else none
    ∃ t, exec .payStart s = .next t ∧ LineKept rest s t ∧ FaultsKept s t
      ∧ (match code with
        | some c => Answered q (.refused c) s t ∧ t.fare = s.fare ∧ t.nsc.offers = s.nsc.offers
          ∧ t.nsc.fares = s.nsc.fares
        | none =>
          let l' : Leg := { l with
            phase := .paying
            tip := if l.tenders = [] ∧ tip ≠ none' then some tip else l.tip
            attempts := l.attempts ++ [⟨n, q.src, amount, .inFlight (s.time + 1296000000)⟩]
            claim := l.claim.map (fun c => { c with deadline := none }) }
          Answered q (.accepted (le 2 l.number ++ le 1 n ++ le 4 amount ++ le 4 (l'.tip.getD 0) ++ le 4 due)) s t
          ∧ t.fare = { s.fare with slots := s.fare.slots.set i (some l') }
          ∧ t.nsc.offers = s.nsc.offers.set i none ∧ t.nsc.fares = s.nsc.fares.set i (some (showOf l')))
      ∧ t = { s with lif := t.lif, fare := t.fare, flt := t.flt
                     nsc := { s.nsc with replies := t.nsc.replies, offers := t.nsc.offers, fares := t.nsc.fares } }

/-- 06 R97, R105 to R107 and R116: a PAY_RESULT for the attempt in flight. An approval that leaves a due returns the leg
to HELD with its claim's new deadline; one that brings the due to 0 settles the leg, which closes: its row (04 R69,
R70), its FARE_SHOW (R74), the shift's totals and the RECEIPT (08 R149, R150, R156), the duty state and privacy (05 R81,
07 R137). PAID or DECLINED sounds at the leg's prompt port. A claim's holder is
known by its address and its role (R99). -/
def Obligations.PayResultEndsAttempt : Prop :=
  ∀ (q : QFrame) (e : Station) (rest : List QFrame) (i : Fin 4) (l : Leg) (a : Attempt) (d : Moment) (s : State),
    Asks .payResult q e rest s → LegNamed q i l s → l.attempts.find? (fun x => x.number = q.at 2 1) = some a →
    a.state = .inFlight d →
    let outcome := q.at 3 1
    let approved := q.at 4 4
    let amount := min approved a.requested
    let mark := fun (st : AttemptState) => l.attempts.map (fun x => if x.number = a.number then { x with state := st }
      else x)
    let paid := l.tenders ++ [⟨.card a.number ((q.payload.drop 8).take 6), amount⟩]
    let code : Option RefusalCode :=
      if (outcome ≠ 1 ∧ outcome ≠ 2 ∧ outcome ≠ 3) ∨ (outcome = 1 ∧ approved = 0) then some .range
      else if (l.claim.all (fun c => decide (c.holder ≠ q.src ∨ c.role ≠ e.role))) = true then some .notHolder
      else if outcome = 1 ∧ 3 ≤ l.tenders.length ∧ approved < a.requested then some .limit
      else none
    ∃ t, exec .payResult s = .next t
      ∧ (match code with
        | some c => OnlyRefused q c rest s t
        | none =>
          if outcome = 1 then
            let l1 : Leg := { l with tenders := paid, attempts := mark .approved }
            if l1.due = 0 then
              Answered q (.accepted (le 2 l.number ++ le 1 a.number ++ le 4 amount ++ le 4 0 ++ [1])) s t
              ∧ LegSettled i { l1 with claim := none } (l.claim.map (fun c => c.holder)) s.acc.unresolved rest s t
            else
              let l2 : Leg := { l1 with
                phase := .held
                claim := l.claim.map (fun c => { c with deadline := some (s.time + 864000000) }) }
              t.fare = { s.fare with slots := s.fare.slots.set i (some l2) }
              ∧ t.nsc.offers = s.nsc.offers.set i (some (offerOf l2))
              ∧ t.nsc.fares = s.nsc.fares.set i (some (showOf l2))
              ∧ Answered q (.accepted (le 2 l.number ++ le 1 a.number ++ le 4 amount ++ le 4 l2.due ++ [0])) s t
              ∧ LineKept rest s t ∧ FaultsKept s t
              ∧ t = { s with lif := t.lif, fare := t.fare, flt := t.flt
                             nsc := { s.nsc with replies := t.nsc.replies, offers := t.nsc.offers
                                                 fares := t.nsc.fares } }
          else
            let l2 : Leg := { l with
              phase := .held, attempts := mark (if outcome = 2 then .declined else .cancelled)
              claim := l.claim.map (fun c => { c with deadline := some (s.time + 864000000) }) }
            t.fare = { s.fare with slots := s.fare.slots.set i (some l2) }
            ∧ t.nsc.offers = s.nsc.offers.set i (some (offerOf l2))
            ∧ t.nsc.fares = s.nsc.fares.set i (some (showOf l2))
            ∧ Answered q (.accepted (le 2 l.number ++ le 1 a.number ++ le 4 0 ++ le 4 l.due ++ [0])) s t
            ∧ t.icm.prompts = prompted s.icm.prompts .declined (promptSpeaker s l)
            ∧ LineKept rest s t ∧ FaultsKept s t
            ∧ t = { s with lif := t.lif, fare := t.fare, flt := t.flt, icm := { s.icm with prompts := t.icm.prompts }
                           nsc := { s.nsc with replies := t.nsc.replies, offers := t.nsc.offers
                                               fares := t.nsc.fares } })

/-- 06 R105 and R110 to R113: PAY_RESULT for an attempt not in flight, whose starter is known by its address (log 51),
the amount of a closed leg's being log 21. A result of no outcome, or of an approval of 0, draws RANGE, and one for an
attempt the leg does not have UNKNOWN_LEG. A second result for an ended attempt draws STATE; an approval for an
INDETERMINATE attempt is applied to a HELD leg, listed, or refused with BUSY or STATE, by the leg's state; a decline is
accepted. A result for a closed leg is found by its unresolved entry. A listed approval is told to the fleet (08 R154)
and asks an open shift for its LATE_APPROVAL row (R112, 09 R169); one that brings the due to 0 settles the leg, as
`LegSettled` says. -/
def Obligations.LateResultsAreAppliedOrListed : Prop :=
  (∀ (q : QFrame) (e : Station) (rest : List QFrame) (i : Fin 4) (l : Leg) (a : Attempt) (s : State),
    Asks .payResult q e rest s → LegNamed q i l s → l.attempts.find? (fun x => x.number = q.at 2 1) = some a →
    let bad := (q.at 3 1 ≠ 1 ∧ q.at 3 1 ≠ 2 ∧ q.at 3 1 ≠ 3) ∨ (q.at 3 1 = 1 ∧ q.at 4 4 = 0)
    let amount := min (q.at 4 4) a.requested
    let mark := fun (st : AttemptState) => l.attempts.map (fun x => if x.number = a.number then { x with state := st }
      else x)
    let kept := s.acc.unresolved.filter (fun u => !(u.leg == l.number && u.attempt == a.number))
    ∃ t, exec .payResult s = .next t
      ∧ (bad → OnlyRefused q .range rest s t)
      ∧ (¬ bad → (a.state = .approved ∨ a.state = .declined ∨ a.state = .cancelled ∨ a.state = .approvedLate) →
          OnlyRefused q .state rest s t)
      ∧ (¬ bad → a.state = .indeterminate → a.starter ≠ q.src → OnlyRefused q .notHolder rest s t)
      ∧ (¬ bad → a.state = .indeterminate → a.starter = q.src →
          if q.at 3 1 ≠ 1 then
            let l' : Leg := { l with attempts := mark (if q.at 3 1 = 2 then .declined else .cancelled) }
            Answered q (.accepted (le 2 l.number ++ le 1 a.number ++ le 4 0)) s t
            ∧ t.fare = { s.fare with slots := s.fare.slots.set i (some l') }
            ∧ LineKept rest s t ∧ FaultsKept s t
            ∧ t = { s with lif := t.lif, fare := t.fare, flt := t.flt, acc := { s.acc with unresolved := kept }
                           nsc := { s.nsc with replies := t.nsc.replies } }
          else if l.phase = .paying then OnlyRefused q .busy rest s t
          else if l.phase = .opened then OnlyRefused q .state rest s t
          else if l.phase = .held ∧ amount ≤ l.due ∧ (l.tenders.length < 3 ∨ amount = l.due) then
            let l' : Leg := { l with
              tenders := l.tenders ++ [⟨.card a.number ((q.payload.drop 8).take 6), amount⟩]
              attempts := mark .approvedLate }
            Answered q (.accepted (le 4 amount ++ le 4 l'.due ++ [if l'.due = 0 then 1 else 0])) s t
            ∧ (if amount = l.due then
                LegSettled i { l' with claim := none } (l.claim.map (fun c => c.holder)) kept rest s t
              else t.fare = { s.fare with slots := s.fare.slots.set i (some l') }
                ∧ t.nsc.offers = s.nsc.offers.set i (some (offerOf l'))
                ∧ t.nsc.fares = s.nsc.fares.set i (some (showOf l')) ∧ LineKept rest s t ∧ FaultsKept s t
                ∧ t = { s with lif := t.lif, fare := t.fare, flt := t.flt, acc := { s.acc with unresolved := kept }
                               nsc := { s.nsc with replies := t.nsc.replies, offers := t.nsc.offers
                                                   fares := t.nsc.fares } })
          else
            let l' : Leg := { l with attempts := mark .approvedLate }
            t.fare = { s.fare with slots := s.fare.slots.set i (some l') } ∧ t.acc.unresolved = kept
            ∧ Answered q (.refused .tooLate) s t ∧ LineKept rest s t ∧ FaultsKept s t
            ∧ t.nsc.fleet.filter (fun x => decide (x.kind ≠ .lateApproval))
                = s.nsc.fleet.filter (fun x => decide (x.kind ≠ .lateApproval))
            ∧ FleetItem.lateApproval s.acc.shift.number l.number a.number amount ((q.payload.drop 8).take 6) ∈ t.nsc.fleet
            ∧ t = { s with lif := t.lif, fare := t.fare, flt := t.flt, acc := t.acc, jnl := t.jnl
                           nsc := { s.nsc with replies := t.nsc.replies, fleet := t.nsc.fleet } }
            ∧ t.acc.late = (if s.acc.late.length < 8 then
                s.acc.late ++ [⟨l.number, a.number, amount, (q.payload.drop 8).take 6⟩] else s.acc.late)
            ∧ t.acc.shift.totals.lateCount = min 65535 (s.acc.shift.totals.lateCount + 1)
            ∧ t.acc.shift.totals.lateSum = min 999999999 (s.acc.shift.totals.lateSum + amount)
            ∧ EventAsked s.odo.clock (.lateApproval l.number a.number amount)
                (dropUnresolved l.number a.number
                  (enterLate ⟨l.number, a.number, amount, (q.payload.drop 8).take 6⟩ s)) t))
  ∧ (∀ (q : QFrame) (e : Station) (rest : List QFrame) (s : State), Asks .payResult q e rest s →
    (∀ i l, legAt s i = some l → l.number ≠ q.at 0 2) →
    ∃ t, exec .payResult s = .next t
      ∧ (match s.acc.unresolved.find? (fun u => u.leg == q.at 0 2 && u.attempt == q.at 2 1) with
        | none => OnlyRefused q .unknownLeg rest s t
        | some u =>
          if (q.at 3 1 ≠ 1 ∧ q.at 3 1 ≠ 2 ∧ q.at 3 1 ≠ 3) ∨ (q.at 3 1 = 1 ∧ q.at 4 4 = 0) then
            OnlyRefused q .range rest s t
          else if u.station ≠ q.src then OnlyRefused q .notHolder rest s t
          else t.acc.unresolved = s.acc.unresolved.filter (fun x => !(x.leg == u.leg && x.attempt == u.attempt))
            ∧ Answered q (if q.at 3 1 = 1 then .refused .tooLate
                else .accepted (le 2 u.leg ++ le 1 u.attempt ++ le 4 0)) s t
            ∧ t.acc.late = (if q.at 3 1 = 1 ∧ s.acc.late.length < 8 then
                s.acc.late ++ [⟨u.leg, u.attempt, min (q.at 4 4) u.requested, (q.payload.drop 8).take 6⟩]
                else s.acc.late)
            ∧ (q.at 3 1 = 1 → EventAsked s.odo.clock (.lateApproval u.leg u.attempt (min (q.at 4 4) u.requested))
                (dropUnresolved u.leg u.attempt
                  (enterLate ⟨u.leg, u.attempt, min (q.at 4 4) u.requested, (q.payload.drop 8).take 6⟩ s)) t
                ∧ FleetItem.lateApproval s.acc.shift.number u.leg u.attempt (min (q.at 4 4) u.requested)
                  ((q.payload.drop 8).take 6) ∈ t.nsc.fleet)
            ∧ (q.at 3 1 ≠ 1 → t.jnl = s.jnl ∧ t.nsc.fleet = s.nsc.fleet ∧ t.acc.shift = s.acc.shift)
            ∧ t.nsc.fleet.filter (fun x => decide (x.kind ≠ .lateApproval))
                = s.nsc.fleet.filter (fun x => decide (x.kind ≠ .lateApproval))
            ∧ LineKept rest s t ∧ FaultsKept s t
            ∧ t = { s with lif := t.lif, flt := t.flt, jnl := t.jnl
                           acc := { s.acc with unresolved := t.acc.unresolved, late := t.acc.late, shift := t.acc.shift }
                           nsc := { s.nsc with replies := t.nsc.replies, fleet := t.nsc.fleet } }))
  ∧ (∀ (q : QFrame) (e : Station) (rest : List QFrame) (i : Fin 4) (l : Leg) (s : State), Asks .payResult q e rest s →
    LegNamed q i l s → (∀ a ∈ l.attempts, a.number ≠ q.at 2 1) →
    ∃ t, exec .payResult s = .next t ∧ OnlyRefused q .unknownLeg rest s t)

/-- 06 R97, R100, R108 and R109: PAY_CANCEL, and the passing of the deadline of the attempt in flight. A claim's holder
is known by its address and its role (R99). -/
def Obligations.CancelAndDeadlineEndAttempt : Prop :=
  (∀ (q : QFrame) (e : Station) (rest : List QFrame) (i : Fin 4) (l : Leg) (s : State), Asks .payCancel q e rest s →
    LegNamed q i l s →
    ∃ t, exec .payCancel s = .next t ∧ LineLosing rest (l.claim.map (fun c => c.holder)) s t ∧ FaultsKept s t
      ∧ (if l.phase ≠ .held ∧ l.phase ≠ .paying then
          Answered q (.refused .state) s t ∧ t.fare = s.fare ∧ t.nsc.offers = s.nsc.offers ∧ t.icm = s.icm
        else if (l.claim.all (fun c => decide (c.holder ≠ q.src ∨ c.role ≠ e.role))) = true then
          Answered q (.refused .notHolder) s t ∧ t.fare = s.fare ∧ t.nsc.offers = s.nsc.offers ∧ t.icm = s.icm
        else Answered q (.accepted (le 2 l.number)) s t
          ∧ (l.phase = .held → let l' : Leg := { l with claim := none }
            t.fare = { s.fare with slots := s.fare.slots.set i (some l') }
              ∧ t.nsc.offers = s.nsc.offers.set i (some (offerOf l')) ∧ t.icm = s.icm)
          ∧ (l.phase = .paying → ∀ a d, l.flying = some (a, d) →
            let l' : Leg := { l with
              phase := .held
              attempts := l.attempts.map (fun x => if x.number = a.number then { x with state := .cancelled } else x)
              claim := l.claim.map (fun c => { c with deadline := some (s.time + 864000000) }) }
            t.fare = { s.fare with slots := s.fare.slots.set i (some l') }
              ∧ t.nsc.offers = s.nsc.offers.set i (some (offerOf l'))
              ∧ t.nsc.fares = s.nsc.fares.set i (some (showOf l'))
              ∧ t.icm.prompts = prompted s.icm.prompts .declined (promptSpeaker s l)))
      ∧ t = { s with lif := t.lif, fare := t.fare, flt := t.flt, icm := { s.icm with prompts := t.icm.prompts }
                     nsc := { s.nsc with replies := t.nsc.replies, offers := t.nsc.offers, fares := t.nsc.fares
                                         print := t.nsc.print }
                     cab := { s.cab with watches := t.cab.watches }
                     acc := { s.acc with credit := t.acc.credit, jobs := t.acc.jobs } })
  ∧ (∀ (i : Fin 4) (l : Leg) (a : Attempt) (due : Moment) (c : Claim) (s : State), s.pwr.state = .active →
    legAt s i = some l → l.phase = .paying → l.flying = some (a, due) → l.claim = some c →
    let l' : Leg := { l with
      phase := .held
      attempts := l.attempts.map (fun x => if x.number = a.number then { x with state := .indeterminate } else x)
      claim := none }
    ∃ t, exec (.attemptDeadline i) s = .next t ∧ t.time = max s.time due ∧ ReferenceEnded c.holder s t
      ∧ t.fare = { s.fare with slots := s.fare.slots.set i (some l') }
      ∧ t.nsc.offers = s.nsc.offers.set i (some (offerOf l')) ∧ t.nsc.fares = s.nsc.fares.set i (some (showOf l'))
      ∧ (if s.acc.unresolved.length < 8 then
          t.acc.unresolved = s.acc.unresolved ++ [⟨l.number, a.number, a.requested, a.starter⟩]
            ∧ t.acc.shift = s.acc.shift
        else t.acc.unresolved = s.acc.unresolved.tail ++ [⟨l.number, a.number, a.requested, a.starter⟩]
          ∧ t.acc.shift = { s.acc.shift with pushedOut := min 65535 (s.acc.shift.pushedOut + 1) })
      ∧ t.icm.prompts = prompted s.icm.prompts .timeout (promptSpeaker s l) ∧ TransmitterKept s t
      ∧ t = { s with time := t.time, fare := t.fare, icm := { s.icm with prompts := t.icm.prompts }
                     nsc := { s.nsc with offers := t.nsc.offers, fares := t.nsc.fares, print := t.nsc.print }
                     lif := { s.lif with stations := t.lif.stations, tx := t.lif.tx }
                     cab := { s.cab with watches := t.cab.watches }
                     acc := { s.acc with shift := t.acc.shift, unresolved := t.acc.unresolved
                                         credit := t.acc.credit, jobs := t.acc.jobs } })

/-- 06 R97 and R114 to R116: CASH and TIP. A leg that CASH settles closes: its row (04 R69, R70), its FARE_SHOW (R74),
the shift's totals and the RECEIPT (08 R149, R150, R156), the duty state and privacy (05 R81, 07 R137). -/
def Obligations.CashAndTipActOnDue : Prop :=
  (∀ (q : QFrame) (e : Station) (rest : List QFrame) (i : Fin 4) (l : Leg) (s : State), Asks .cash q e rest s →
    LegNamed q i l s →
    let received := q.at 2 4
    let amount := min received l.due
    let l' : Leg := { l with
      claim := none
      tenders := if amount = 0 then l.tenders else l.tenders ++ [⟨.cash, amount⟩] }
    let code : Option RefusalCode :=
      if l.phase ≠ .held then some .state
      else if 99999999 < received ∨ (received = 0 ∧ 0 < l.due) then some .range
      else if 3 ≤ l.tenders.length ∧ received < l.due then some .limit
      else none
    let holder := l.claim.map (fun c => c.holder)
    ∃ t, exec .cash s = .next t
      ∧ (match code with
        | some c => OnlyRefused q c rest s t
        | none =>
          Answered q (.accepted (le 2 l.number ++ le 4 amount ++ le 4 (received - amount) ++ le 4 l'.due
            ++ [if l'.due = 0 then 1 else 0])) s t
          ∧ (if l'.due = 0 then LegSettled i l' holder s.acc.unresolved rest s t
            else
              t.fare = { s.fare with slots := s.fare.slots.set i (some l') }
              ∧ t.nsc.offers = s.nsc.offers.set i (some (offerOf l'))
              ∧ t.nsc.fares = s.nsc.fares.set i (some (showOf l')) ∧ LineLosing rest holder s t ∧ FaultsKept s t
              ∧ t.acc.jobs = pausedJobs holder s t ∧ t.nsc.print = pausedPrint holder s t
              ∧ t = { s with lif := t.lif, fare := t.fare, flt := t.flt
                             nsc := { s.nsc with replies := t.nsc.replies, offers := t.nsc.offers
                                                 fares := t.nsc.fares, print := t.nsc.print }
                             cab := { s.cab with watches := t.cab.watches }
                             acc := { s.acc with credit := t.acc.credit, jobs := t.acc.jobs } })))
  ∧ (∀ (q : QFrame) (e : Station) (rest : List QFrame) (i : Fin 4) (l : Leg) (s : State), Asks .tip q e rest s →
    LegNamed q i l s →
    ∃ t, exec .tip s = .next t ∧ LineKept rest s t ∧ FaultsKept s t
      ∧ (if l.phase ≠ .held ∨ l.tenders ≠ [] then
          Answered q (.refused .state) s t ∧ t.fare = s.fare ∧ t.nsc.offers = s.nsc.offers
            ∧ t.nsc.fares = s.nsc.fares
        else if 99999 < q.at 2 4 then
          Answered q (.refused .range) s t ∧ t.fare = s.fare ∧ t.nsc.offers = s.nsc.offers
            ∧ t.nsc.fares = s.nsc.fares
        else let l' : Leg := { l with tip := some (q.at 2 4) }
          Answered q (.accepted (le 2 l.number ++ le 4 (q.at 2 4) ++ le 4 l'.due)) s t
          ∧ t.fare = { s.fare with slots := s.fare.slots.set i (some l') }
          ∧ t.nsc.offers = s.nsc.offers.set i (some (offerOf l'))
          ∧ t.nsc.fares = s.nsc.fares.set i (some (showOf l')))
      ∧ t = { s with lif := t.lif, fare := t.fare, flt := t.flt
                     nsc := { s.nsc with replies := t.nsc.replies, offers := t.nsc.offers, fares := t.nsc.fares } })

/-! ### The sign, the seats and the assist call -/

/-- 05 R85 and R86: the re-send timer's expiry, and SIGN_STATE. An entry into LOST asks an open shift, which has counted
it, for the SIGN_LOST row (09 R169). R83: the sign table, of the duty state, the share mode, the occupied count (04 R49) and the
committed tariff's party capacity. R83 and R84: every step keeps the sign record's pattern at the one the sign table
commands (a free value where it has no row, log 50) and its flag at the assist latch while the part is ACTIVE. -/
def Obligations.SignIsResentAndConfirmed : Prop :=
  (∀ (due : Moment) (s : State), s.pwr.state = .active → s.cab.signDue = some due → s.cab.sign.confirm ≠ .confirmed →
    let g := s.cab.sign
    ∃ t, exec .signResendTimer s = .next t ∧ t.time = max s.time due
      ∧ t.nsc = { s.nsc with sign := some ⟨g.pattern, g.flag, g.seq⟩ }
      ∧ (if g.confirm = .waiting ∧ g.resends < 3 then
          t.cab.sign = { g with resends := g.resends + 1 } ∧ t.cab.signDue = some (t.time + 14400000)
            ∧ t.acc = s.acc ∧ t.jnl = s.jnl
        else if g.confirm = .waiting then
          t.cab.sign = { g with confirm := .lost } ∧ t.cab.signDue = some (t.time + 72000000)
            ∧ (shiftIsOpen s = true →
                t.acc.shift.totals.signFaults = min 65535 (s.acc.shift.totals.signFaults + 1))
            ∧ EventAsked s.odo.clock (.signLost g.pattern g.seq)
                (counting (fun c => { c with signFaults := min 65535 (c.signFaults + 1) }) s) t
        else t.cab.sign = g ∧ t.cab.signDue = some (t.time + 72000000) ∧ t.acc = s.acc ∧ t.jnl = s.jnl)
      ∧ t = { s with time := t.time, nsc := t.nsc, jnl := t.jnl
                     lif := { s.lif with tx := { s.lif.tx with renewed := t.lif.tx.renewed } }
                     cab := { s.cab with sign := t.cab.sign, signDue := t.cab.signDue }
                     acc := { s.acc with shift := { s.acc.shift with totals := t.acc.shift.totals } } })
  ∧ (∀ (q : QFrame) (e : Station) (rest : List QFrame) (s : State), Asks .signState q e rest s →
    let g := s.cab.sign
    let d := (g.seq + 256 - q.at 1 1) % 256
    let lamps := q.at 2 1
    ∃ t, exec .signState s = .next t ∧ LineKept rest s t
      ∧ (match Pattern.ofCode (q.at 0 1) with
        | none => t.cab = s.cab ∧ t.nsc = s.nsc
        | some p =>
          if 7 < lamps then t.cab = s.cab ∧ t.nsc = s.nsc
          else
            let h : SignRecord := { g with
              front := decide (lamps % 2 = 1), rear := decide (lamps / 2 % 2 = 1)
              side := decide (lamps / 4 % 2 = 1) }
            if d = 0 ∧ p = g.pattern then
              t.cab = { s.cab with sign := { h with confirm := .confirmed, resends := 0 }, signDue := none }
                ∧ t.nsc = s.nsc
            else if 1 ≤ d ∧ d ≤ 127 then t.cab = { s.cab with sign := h } ∧ t.nsc = s.nsc
            else if g.confirm = .confirmed then
              t.cab = { s.cab with sign := { h with confirm := .waiting, resends := 0 }
                                   signDue := some (s.time + 14400000) }
                ∧ t.nsc = { s.nsc with sign := some ⟨g.pattern, g.flag, g.seq⟩ }
            else t.cab = { s.cab with sign := h } ∧ t.nsc = s.nsc)
      ∧ t = { s with lif := t.lif, cab := t.cab, nsc := t.nsc })
  ∧ (∀ s t : State, SignInForce s → step s = .next t → SignInForce t)
  ∧ (∀ s : State,
    let shared := s.cab.duty = .hired ∧ s.cab.share = some .shared
    (s.cab.duty = .noShift → commandedPattern s = .dark)
      ∧ (s.cab.duty = .offDuty → commandedPattern s = .offDuty)
      ∧ (s.cab.duty = .vacant → commandedPattern s = .vacant)
      ∧ (s.cab.duty = .booked → commandedPattern s = .booked)
      ∧ (s.cab.duty = .hired → s.cab.share = some .solo → commandedPattern s = .hired)
      ∧ (∀ c, s.tar.committed = some c → shared → occupied s = c.general.cp → commandedPattern s = .hired)
      ∧ (∀ c, s.tar.committed = some c → shared → occupied s + 1 = c.general.cp → commandedPattern s = .share1)
      ∧ (∀ c, s.tar.committed = some c → shared → occupied s + 2 = c.general.cp → commandedPattern s = .share2)
      ∧ (∀ c, s.tar.committed = some c → shared → occupied s + 3 = c.general.cp → commandedPattern s = .share3)
      ∧ occupied s = (s.fare.slots.toList.filter (fun o => o.any (fun l => decide (l.phase ≠ .closing)))).length)

/-- 05 R88, R92 and R93: SEAT, the assist repeat timer, ASSIST_ACK and ASSIST_CLEAR. -/
def Obligations.SeatAndAssistRequestsAct : Prop :=
  (∀ (q : QFrame) (e : Station) (rest : List QFrame) (s : State), Asks .seat q e rest s →
    ∃ t, exec .seat s = .next t ∧ LineKept rest s t
      ∧ t.cab = { s.cab with watches := s.cab.watches.map (fun w =>
          if w.addr ≠ q.src then w
          else if q.at 0 1 = 1 then { w with occupied := true }
          else if q.at 0 1 = 2 then { w with occupied := false, count := 0, fired := false }
          else w) }
      ∧ t = { s with lif := t.lif, cab := t.cab })
  ∧ (∀ (due : Moment) (s : State), s.pwr.state = .active → s.cab.repeatDue = some due → s.cab.latch = true →
    ∃ t, exec .assistRepeatTimer s = .next t ∧ t.time = max s.time due
      ∧ (s.cab.ack = some .unacked → t.nsc = { s.nsc with assist := some ⟨true, s.cab.presses, s.cab.pressTime⟩ }
          ∧ t.cab = { s.cab with repeatDue := some (t.time + 144000000) })
      ∧ (s.cab.ack ≠ some .unacked → t.nsc = s.nsc ∧ t.cab = s.cab)
      ∧ t = { s with time := t.time, nsc := t.nsc, cab := t.cab
                     lif := { s.lif with tx := { s.lif.tx with renewed := t.lif.tx.renewed } } })
  ∧ (∀ (q : QFrame) (e : Station) (rest : List QFrame) (s : State), Asks .assistAck q e rest s →
    ∃ t, exec .assistAck s = .next t ∧ LineKept rest s t ∧ FaultsKept s t
      ∧ (if s.cab.latch = false then
          Answered q (.refused .state) s t ∧ t.cab = s.cab ∧ t.nsc.assist = s.nsc.assist
        else if s.cab.ack = some .acked then
          Answered q (.accepted []) s t ∧ t.cab = s.cab ∧ t.nsc.assist = s.nsc.assist
        else Answered q (.accepted []) s t ∧ t.cab = { s.cab with ack := some .acked, repeatDue := none }
          ∧ t.nsc.assist = none)
      ∧ t = { s with lif := t.lif, cab := t.cab, flt := t.flt
                     nsc := { s.nsc with replies := t.nsc.replies, assist := t.nsc.assist } })
  ∧ (∀ (q : QFrame) (e : Station) (rest : List QFrame) (s : State), Asks .assistClear q e rest s →
    ∃ t, exec .assistClear s = .next t ∧ LineKept rest s t ∧ FaultsKept s t
      ∧ (if s.cab.latch = false then
          Answered q (.refused .state) s t ∧ t.cab = s.cab ∧ t.nsc.assist = s.nsc.assist
            ∧ t.nsc.sign = s.nsc.sign
        else Answered q (.accepted []) s t
          ∧ t.cab = { s.cab with latch := false, presses := 0, ack := none, repeatDue := none, sign := t.cab.sign
                                 signDue := t.cab.signDue }
          ∧ t.nsc.assist = none
          ∧ (s.cab.sign.flag = true → t.cab.sign.flag = false ∧ t.cab.sign.seq = (s.cab.sign.seq + 1) % 256
              ∧ t.nsc.sign = some ⟨t.cab.sign.pattern, false, t.cab.sign.seq⟩))
      ∧ t = { s with lif := t.lif, cab := t.cab, flt := t.flt
                     nsc := { s.nsc with replies := t.nsc.replies, assist := t.nsc.assist, sign := t.nsc.sign } })

/-! ### The intercom -/

/-- 07 R121 to R124, R128, R132 and R139 to R142: a sample period. Each output is the exact sum of the five products by
the gains as they stood, divided by 4,096 toward minus infinity and saturated; then each gain moves one step of 32
toward its target, which is a quarter of the call target, and 2,048 for PROMPT, into a speaker the prompt player plays
into. A lone granted port that is RELEASING and whose microphone's gain into SPK0 is then 0 becomes IDLE, and the head
of a waiting queue is granted. Last the prompt player moves on by one sample: a play that has given its last one ends,
and the next play starts in the same step and gives its first sample (log 17). -/
def Obligations.SamplePeriodMixesAndRamps : Prop :=
  ∀ (m0 m1 m2 m3 : Sample) (s : State), s.pwr.state = .active →
    let step := fun (actual target : Nat) =>
      if actual + 32 < target then actual + 32 else if target + 32 < actual then actual - 32 else target
    let heard := fun (p : Port) => bound s p && (decide (callPhase s p = .linked)
      || decide (s.icm.talk = .down .all) || decide (s.icm.talk = .down (.one p)))
    let plays := fun (d : Fin 4) => match s.icm.player with
      | .idle => false
      | .playing _ dests _ _ _ => dests.get d
    ∃ (t : State) (asked : List Prompt), exec (.samplePeriod m0 m1 m2 m3) s = .next t ∧ TransmitterKept s t
      ∧ t.time = max s.time s.icm.sampleDue ∧ t.icm.sampleDue = s.icm.sampleDue + 900
      ∧ (∀ d, let g := s.icm.gains.get d
          let q := Int.fdiv (m0.toInt * g.mic.get 0 + m1.toInt * g.mic.get 1 + m2.toInt * g.mic.get 2
            + m3.toInt * g.mic.get 3 + s.icm.promptSample.toInt * g.prompt) 4096
          (t.icm.out.get d).toInt = max (-32768) (min 32767 q))
      ∧ (∀ p : Port, (t.icm.gains.get 0).mic.get p.index = step ((s.icm.gains.get 0).mic.get p.index)
          ((if bound s p ∧ callPhase s p = .linked then 4096 else 0) / (if plays 0 then 4 else 1)))
      ∧ (∀ p : Port, (t.icm.gains.get p.index).mic.get 0 = step ((s.icm.gains.get p.index).mic.get 0)
          ((if heard p then 4096 else 0) / (if plays p.index then 4 else 1)))
      ∧ (∀ p q : Port, (t.icm.gains.get p.index).mic.get q.index = step ((s.icm.gains.get p.index).mic.get q.index) 0)
      ∧ (t.icm.gains.get 0).mic.get 0 = step ((s.icm.gains.get 0).mic.get 0) 0
      ∧ (t.icm.gains.get 0).prompt = step (s.icm.gains.get 0).prompt (if plays 0 then 2048 else 0)
      ∧ (∀ p : Port, (t.icm.gains.get p.index).prompt = step (s.icm.gains.get p.index).prompt
          (if plays p.index && bound s p then 2048 else 0))
      ∧ ((∀ p, callPhase s p = .releasing → (t.icm.gains.get 0).mic.get p.index ≠ 0) →
          t.icm.calls = s.icm.calls ∧ t.icm.queue = s.icm.queue ∧ t.icm.ringDue = s.icm.ringDue ∧ t.nsc = s.nsc
            ∧ t.lif.stations = s.lif.stations ∧ t.cab = s.cab ∧ t.acc = s.acc ∧ asked = s.icm.prompts)
      ∧ (∀ p, callPhase s p = .releasing → (∀ q, q ≠ p → (callPhase s q).granted = false) →
          (∀ x ∈ s.icm.queue, x.port ≠ p) → (t.icm.gains.get 0).mic.get p.index = 0 →
          callRec t p = { callRec s p with phase := .idle }
          ∧ (t.nsc.calls.get p).any (fun c => decide (c.phase = .idle ∧ c.reason = (callRec s p).reason)) = true
          ∧ (match s.icm.queue with
            | [] => (∀ q, q ≠ p → callRec t q = callRec s q) ∧ t.icm.queue = [] ∧ t.icm.ringDue = s.icm.ringDue
                ∧ asked = s.icm.prompts
            | x :: more =>
                let rings := s.icm.privacy && decide (s.icm.prompts.length < 8)
                  && s.icm.prompts.all (fun e => decide (e.kind ≠ .ring))
                t.icm.queue = more
                ∧ callRec t x.port = ⟨if s.icm.privacy then .ringing else .linked, .none, t.time, 0⟩
                ∧ (t.nsc.calls.get x.port).any (fun c => decide (c.phase = callPhase t x.port ∧ c.reason = .none)) = true
                ∧ (∀ q, q ≠ p → q ≠ x.port → callRec t q = callRec s q)
                ∧ t.icm.ringDue = (if s.icm.privacy then some (t.time + 43200000) else s.icm.ringDue)
                ∧ asked = (if rings then s.icm.prompts ++ [⟨.ring, onlySpk 0⟩] else s.icm.prompts)
                ∧ (∀ y ∈ more, y.port ≠ x.port → callPhase s y.port = .queued →
                    placeIn s.icm.queue y.port ≠ placeIn more y.port → (t.nsc.calls.get y.port).any
                      (fun c => decide (c.phase = .queued ∧ c.place = placeIn more y.port)) = true)))
      ∧ (∀ k d seg left phase, s.icm.player = .playing k d seg left phase → left ≠ 0 →
          let f := (segmentAt k seg).1
          t.icm.prompts = asked
          ∧ t.icm.promptSample = (if f = 0 then 0#16 else BitVec.ofInt 16 (sineEntry (phase / 256)))
          ∧ t.icm.player = (if left = 1 ∧ seg + 1 < (segments k).length then
              .playing k d (seg + 1) (segmentAt k (seg + 1)).2 0
            else .playing k d seg (left - 1) ((phase + toneIncrement f) % 65536)))
      ∧ (s.icm.player = .idle ∨ (∃ k d seg phase, s.icm.player = .playing k d seg 0 phase) →
          PlayStarts 1 asked t t
          ∧ t.icm.promptSample = (if s.icm.player = .idle ∧ t.icm.player = .idle then s.icm.promptSample else 0))
      ∧ t = { s with time := t.time, icm := { t.icm with talk := s.icm.talk, privacy := s.icm.privacy
                                                         forced := s.icm.forced, holdDue := s.icm.holdDue
                                                         arrivals := s.icm.arrivals }
                     nsc := { s.nsc with calls := t.nsc.calls, print := t.nsc.print }
                     lif := { s.lif with stations := t.lif.stations, tx := t.lif.tx }
                     cab := { s.cab with watches := t.cab.watches }
                     acc := { s.acc with credit := t.acc.credit, jobs := t.acc.jobs } }

/-- 07 R125 to R129 and R133: CALL, the ring timer and the hold boundary. A port that joins while none is granted and
the queue is empty is granted at once, RINGING with privacy on and LINKED with it off. An entry carries the number of
its arrival (log 24), a CALL of an ABSENT entry changes nothing (log 42), and a RING in play that ends gives way to the
next play (log 18). -/
def Obligations.CallsJoinRingAndTimeOut : Prop :=
  (∀ (q : QFrame) (e : Station) (rest : List QFrame) (s : State), Asks .call q e rest s →
    let rings := if s.icm.prompts.length < 8 ∧ s.icm.prompts.all (fun x => decide (x.kind ≠ .ring)) = true then
      s.icm.prompts ++ [⟨.ring, onlySpk 0⟩] else s.icm.prompts
    ∃ t, exec .call s = .next t ∧ (∃ a ∈ q.src :: s.icm.queue.map (·.addr), LineLosing rest (some a) s t)
      ∧ (∀ p, e.port = some p → e.present = true →
          (callPhase s p = .idle → q.at 0 1 = 1 ∨ q.at 0 1 = 2 →
            t.icm.arrivals = s.icm.arrivals + 1
            ∧ (t.nsc.calls.get p).any (fun c => decide (c.phase = callPhase t p ∧ c.reason = .none)) = true
            ∧ (grantedPort s = none → s.icm.queue = [] → t.icm.queue = []
                ∧ callRec t p = ⟨if s.icm.privacy then .ringing else .linked, .none, s.time, 0⟩
                ∧ (∀ r, r ≠ p → callRec t r = callRec s r)
                ∧ (if s.icm.privacy = true then t.icm.ringDue = some (s.time + 43200000) ∧ t.icm.prompts = rings
                  else t.icm.ringDue = s.icm.ringDue ∧ t.icm.prompts = s.icm.prompts))
            ∧ ((grantedPort s).isSome = true → callRec t p = { callRec s p with phase := .queued, reason := .none }
                ∧ (∀ r, r ≠ p → callRec t r = callRec s r)
                ∧ t.icm.queue = insertEntry ⟨p, q.src, decide (q.at 0 1 = 2), s.icm.arrivals⟩ s.icm.queue
                ∧ t.icm.ringDue = s.icm.ringDue ∧ t.icm.prompts = s.icm.prompts))
          ∧ (callPhase s p = .queued → q.at 0 1 = 2 → ∀ x, s.icm.queue.find? (fun x => x.port = p) = some x →
              t.icm = { s.icm with queue := t.icm.queue } ∧ t.icm.queue = (if x.urgent = true then s.icm.queue
                else insertEntry { x with urgent := true } (s.icm.queue.filter (fun x => decide (x.port ≠ p))))
              ∧ (x.urgent = true → t.nsc = s.nsc)
              ∧ (x.urgent = false → (t.nsc.calls.get p).any (fun c => decide (c.phase = .queued ∧ c.urgent = true
                  ∧ c.place = placeIn t.icm.queue p)) = true))
          ∧ (callPhase s p = .queued → q.at 0 1 = 3 → callPhase t p = .idle ∧ (callRec t p).reason = .ended
              ∧ (∀ r, r ≠ p → callRec t r = callRec s r)
              ∧ ((s.icm.queue.find? (fun x => x.port = p)).isSome = true →
                  t.icm.queue = s.icm.queue.filter (fun x => decide (x.port ≠ p))))
          ∧ (callPhase s p = .ringing ∨ callPhase s p = .linked → q.at 0 1 = 3 →
              callRec t p = { callRec s p with phase := .releasing, reason := .ended } ∧ t.icm.queue = s.icm.queue
              ∧ (∀ r, r ≠ p → callRec t r = callRec s r)
              ∧ (t.nsc.calls.get p).any (fun c => decide (c.phase = .releasing ∧ c.reason = .ended)) = true
              ∧ (callPhase s p = .ringing → RingingLeft s.icm.prompts s t)
              ∧ (callPhase s p = .linked → t.icm = { s.icm with calls := t.icm.calls }))
          ∧ (callPhase s p ≠ .idle → q.at 0 1 = 1 → t.icm = s.icm ∧ t.nsc = s.nsc)
          ∧ (callPhase s p = .ringing ∨ callPhase s p = .linked ∨ callPhase s p = .releasing → q.at 0 1 = 2 →
              t.icm = s.icm ∧ t.nsc = s.nsc)
          ∧ (callPhase s p = .idle ∨ callPhase s p = .releasing → q.at 0 1 = 3 → t.icm = s.icm ∧ t.nsc = s.nsc))
      ∧ (∀ x ∈ t.icm.queue, callPhase t x.port = .queued → placeIn s.icm.queue x.port ≠ placeIn t.icm.queue x.port →
          (t.nsc.calls.get x.port).any (fun c => decide (c.phase = .queued ∧ c.place = placeIn t.icm.queue x.port))
            = true)
      ∧ ((e.port = none ∨ e.present = false ∨ (q.at 0 1 ≠ 1 ∧ q.at 0 1 ≠ 2 ∧ q.at 0 1 ≠ 3)) →
          t.icm = s.icm ∧ t.nsc = s.nsc)
      ∧ t = { s with lif := t.lif, nsc := { s.nsc with calls := t.nsc.calls, print := t.nsc.print }
                     icm := { s.icm with calls := t.icm.calls, queue := t.icm.queue, arrivals := t.icm.arrivals
                                         ringDue := t.icm.ringDue, prompts := t.icm.prompts, player := t.icm.player
                                         promptSample := t.icm.promptSample }
                     cab := { s.cab with watches := t.cab.watches }
                     acc := { s.acc with credit := t.acc.credit, jobs := t.acc.jobs } })
  ∧ (∀ (p : Port) (due : Moment) (s : State), s.pwr.state = .active → callPhase s p = .ringing →
    s.icm.ringDue = some due →
    ∃ t, exec .ringTimer s = .next t ∧ t.time = max s.time due ∧ t.icm.ringDue = some (t.time + 43200000)
      ∧ t.icm.prompts = (if s.icm.prompts.length < 8 ∧ (s.icm.prompts.all (fun x => decide (x.kind ≠ .ring))) = true then
          s.icm.prompts ++ [⟨.ring, onlySpk 0⟩] else s.icm.prompts)
      ∧ t = { s with time := t.time, icm := { s.icm with ringDue := t.icm.ringDue, prompts := t.icm.prompts } })
  ∧ (∀ s : State, s.pwr.state = .active →
    ∃ t, exec .holdBoundary s = .next t ∧ t.time = max s.time s.icm.holdDue
      ∧ t.icm.holdDue = s.icm.holdDue + 216000000
      ∧ (∀ p, let c := callRec s p
          if (c.phase = .ringing ∨ c.phase = .linked) ∧ c.grantAt < s.icm.holdDue then
            if c.boundaries < 7 then callRec t p = { c with boundaries := c.boundaries + 1 }
            else callPhase t p = .releasing ∧ (callRec t p).reason = .timedOut
              ∧ (t.nsc.calls.get p).any (fun n => decide (n.phase = .releasing ∧ n.reason = .timedOut)) = true
              ∧ ((∀ r, r ≠ p → callPhase s r ≠ .ringing ∧ callPhase s r ≠ .linked) →
                  if c.phase = .ringing then RingingLeft (prompted s.icm.prompts .timeout p.index) s t
                  else t.icm.prompts = prompted s.icm.prompts .timeout p.index ∧ t.icm.ringDue = s.icm.ringDue
                    ∧ t.icm.player = s.icm.player ∧ t.icm.promptSample = s.icm.promptSample)
          else callRec t p = c)
      ∧ ((∀ p, (callPhase s p = .ringing ∨ callPhase s p = .linked) → (callRec s p).grantAt < s.icm.holdDue →
          (callRec s p).boundaries < 7) → t.icm = { s.icm with holdDue := t.icm.holdDue, calls := t.icm.calls }
            ∧ t.nsc = s.nsc ∧ t.lif = s.lif)
      ∧ t = { s with time := t.time, nsc := { s.nsc with calls := t.nsc.calls }
                     lif := { s.lif with tx := { s.lif.tx with renewed := t.lif.tx.renewed } }
                     icm := { s.icm with holdDue := t.icm.holdDue, calls := t.icm.calls, prompts := t.icm.prompts
                                         ringDue := t.icm.ringDue, player := t.icm.player
                                         promptSample := t.icm.promptSample } })

/-- 07 R130 and R131: ANSWER and END_CALL. A port that leaves RINGING stops the ring timer, the waiting RING and a RING
in play, which gives way to the next play (log 18); the end of a LINKED call changes no more of the intercom than its
call state. -/
def Obligations.AnswerAndEndCallAct : Prop :=
  (∀ (q : QFrame) (e : Station) (rest : List QFrame) (s : State), Asks .answer q e rest s →
    ∃ t, exec .answer s = .next t ∧ LineKept rest s t ∧ FaultsKept s t
      ∧ ((∀ p, callPhase s p ≠ .ringing) → Answered q (.refused .state) s t ∧ t.icm = s.icm
          ∧ t.nsc.calls = s.nsc.calls)
      ∧ (∀ p, callPhase s p = .ringing → (∀ r, r ≠ p → callPhase s r ≠ .ringing) →
          Answered q (.accepted (le 1 p.number)) s t
          ∧ callRec t p = { callRec s p with phase := .linked, reason := .none }
          ∧ (∀ r, r ≠ p → callRec t r = callRec s r ∧ t.nsc.calls.get r = s.nsc.calls.get r)
          ∧ (t.nsc.calls.get p).any (fun c => decide (c.phase = .linked ∧ c.reason = .none)) = true
          ∧ RingingLeft s.icm.prompts s t)
      ∧ t = { s with lif := t.lif, flt := t.flt
                     nsc := { s.nsc with replies := t.nsc.replies, calls := t.nsc.calls }
                     icm := { s.icm with calls := t.icm.calls, ringDue := t.icm.ringDue, prompts := t.icm.prompts
                                         player := t.icm.player, promptSample := t.icm.promptSample } })
  ∧ (∀ (q : QFrame) (e : Station) (rest : List QFrame) (s : State), Asks .endCall q e rest s →
    ∃ t, exec .endCall s = .next t ∧ LineKept rest s t ∧ FaultsKept s t
      ∧ ((∀ p, (callPhase s p).granted = false) → Answered q (.refused .state) s t ∧ t.icm = s.icm
          ∧ t.nsc.calls = s.nsc.calls)
      ∧ (∀ p, (callPhase s p).granted = true → (∀ r, r ≠ p → (callPhase s r).granted = false) →
          Answered q (.accepted (le 1 p.number ++ le 1 4)) s t
          ∧ (if callPhase s p = .releasing then t.icm = s.icm ∧ t.nsc.calls = s.nsc.calls
            else callRec t p = { callRec s p with phase := .releasing, reason := .ended }
              ∧ (∀ r, r ≠ p → callRec t r = callRec s r ∧ t.nsc.calls.get r = s.nsc.calls.get r)
              ∧ (t.nsc.calls.get p).any (fun c => decide (c.phase = .releasing ∧ c.reason = .ended)) = true)
          ∧ (callPhase s p = .ringing → RingingLeft s.icm.prompts s t)
          ∧ (callPhase s p = .linked → t.icm = { s.icm with calls := t.icm.calls }))
      ∧ t = { s with lif := t.lif, flt := t.flt
                     nsc := { s.nsc with replies := t.nsc.replies, calls := t.nsc.calls }
                     icm := { s.icm with calls := t.icm.calls, ringDue := t.icm.ringDue, prompts := t.icm.prompts
                                         player := t.icm.player, promptSample := t.icm.promptSample } })

/-- 07 R135 and R136: TALK and PRIVACY. The bytes of the answers are log 20. Privacy going OFF joins a RINGING port,
whose RING in play gives way to the next play (log 18). -/
def Obligations.TalkAndPrivacyAct : Prop :=
  (∀ (q : QFrame) (e : Station) (rest : List QFrame) (s : State), Asks .talk q e rest s →
    ∃ t, exec .talk s = .next t ∧ LineKept rest s t ∧ FaultsKept s t
      ∧ (if q.at 0 1 = 2 then Answered q (.accepted [2, 0]) s t ∧ t.icm = { s.icm with talk := .up }
        else if q.at 0 1 ≠ 1 then Answered q (.refused .range) s t ∧ t.icm = s.icm
        else if q.at 1 1 = 4 then Answered q (.accepted [1, 4]) s t ∧ t.icm = { s.icm with talk := .down .all }
        else match Port.ofNumber (q.at 1 1) with
          | none => Answered q (.refused .range) s t ∧ t.icm = s.icm
          | some p =>
            if bound s p = true then
              Answered q (.accepted (1 :: le 1 p.number)) s t ∧ t.icm = { s.icm with talk := .down (.one p) }
            else Answered q (.refused .absent) s t ∧ t.icm = s.icm)
      ∧ t = { s with lif := t.lif, icm := t.icm, flt := t.flt, nsc := { s.nsc with replies := t.nsc.replies } })
  ∧ (∀ (q : QFrame) (e : Station) (rest : List QFrame) (s : State), Asks .privacy q e rest s →
    ∃ t, exec .privacy s = .next t ∧ LineKept rest s t ∧ FaultsKept s t
      ∧ (if q.at 0 1 = 1 then
          Answered q (.accepted [1, flagByte s.icm.forced]) s t ∧ t.icm = { s.icm with privacy := true }
        else if q.at 0 1 ≠ 2 then Answered q (.refused .range) s t ∧ t.icm = s.icm
        else if s.icm.forced = true then Answered q (.refused .state) s t ∧ t.icm = s.icm
        else Answered q (.accepted [0, 0]) s t ∧ t.icm.privacy = false
          ∧ ((∀ p, callPhase s p ≠ .ringing) → t.icm = { s.icm with privacy := false })
          ∧ (∀ p, callPhase s p = .ringing → (∀ r, r ≠ p → callPhase s r ≠ .ringing) →
              callRec t p = { callRec s p with phase := .linked, reason := .none } ∧ RingingLeft s.icm.prompts s t
              ∧ (t.nsc.calls.get p).any (fun c => decide (c.phase = .linked ∧ c.reason = .none)) = true
              ∧ ∀ r, r ≠ p → callRec t r = callRec s r ∧ t.nsc.calls.get r = s.nsc.calls.get r))
      ∧ t = { s with lif := t.lif, flt := t.flt
                     icm := { s.icm with privacy := t.icm.privacy, calls := t.icm.calls, ringDue := t.icm.ringDue
                                         prompts := t.icm.prompts, player := t.icm.player
                                         promptSample := t.icm.promptSample }
                     nsc := { s.nsc with replies := t.nsc.replies, calls := t.nsc.calls } })

/-! ### Printer credit and the journal -/

/-- 08 R159 and 09 R171, R173 to R176 and R179: the credits, JOURNAL_READ and JOURNAL_RELEASE. A RELEASED entry stays in
the directory while an IN_USE sector's range meets its own, and no longer (R173). A start above 2,015, the
end of its field, is out of range (log 42), and erase-ahead takes no sector that a due program goes into (log 32). -/
def Obligations.CreditsReadAndReleaseAct : Prop :=
  (∀ (q : QFrame) (e : Station) (rest : List QFrame) (s : State), Asks .printCredit q e rest s →
    ∃ t, exec .printCredit s = .next t ∧ LineKept rest s t
      ∧ t.acc = { s.acc with credit := t.acc.credit }
      ∧ t.acc.credit = (if 1 ≤ q.at 0 1 ∧ q.at 0 1 ≤ 16 then min 32 (s.acc.credit + q.at 0 1) else s.acc.credit)
      ∧ t = { s with lif := t.lif, acc := t.acc })
  ∧ (∀ (q : QFrame) (e : Station) (rest : List QFrame) (s : State), Asks .journalCredit q e rest s →
    ∃ t, exec .journalCredit s = .next t ∧ LineKept rest s t
      ∧ t.jnl = { s.jnl with credit := t.jnl.credit }
      ∧ t.jnl.credit = (
          if 1 ≤ q.at 0 1 ∧ q.at 0 1 ≤ 16 ∧ (s.jnl.cursor.any (fun c => decide (c.station = q.src))) = true then
            min 32 (s.jnl.credit + q.at 0 1)
          else s.jnl.credit)
      ∧ t = { s with lif := t.lif, jnl := t.jnl })
  ∧ (∀ (q : QFrame) (e : Station) (rest : List QFrame) (s : State), Asks .journalRead q e rest s →
    ∃ t, exec .journalRead s = .next t ∧ LineKept rest s t
      ∧ (match s.jnl.directory.find? (fun d => d.shift = q.at 0 2) with
        | none => Answered q (.refused .range) s t ∧ t.jnl = s.jnl
        | some d =>
          let rows := (shiftRows s d).length
          let start := if q.payload.length = 4 then q.at 2 2 else 0
          if d.state = .released then Answered q (.refused .state) s t ∧ t.jnl = s.jnl
          else if 2015 < start ∨ rows < start then Answered q (.refused .range) s t ∧ t.jnl = s.jnl
          else Answered q (.accepted (le 2 d.shift ++ le 2 rows ++ le 2 start
                ++ [flagByte (decide (d.state = .opened))])) s t
            ∧ t.jnl.credit = 0
            ∧ (∃ c, t.jnl.cursor = some c ∧ c.shift = d.shift ∧ c.station = q.src ∧ c.index = start ∧ c.quarter = 0
                ∧ c.sent = 0 ∧ c.fromZero = decide (start = 0)
                ∧ (start < rows → s.jnl.inFlight = none → ∃ r, (shiftRows s d)[start]? = some r
                    ∧ c.row = some (contentBytes (rowAt s.array r), decide (classify (rowAt s.array r) = .damaged))
                    ∧ t.nsc.journal = some (frameOfRow c (contentBytes (rowAt s.array r),
                        decide (classify (rowAt s.array r) = .damaged))))
                ∧ (start < rows → s.jnl.inFlight ≠ none → c.readWaits = true ∧ t.nsc.journal = none)
                ∧ (start = rows → t.nsc.journal = some (.fin d.shift 0 (decide (d.state = .opened))))))
      ∧ t = { s with lif := t.lif, flt := t.flt
                     nsc := { s.nsc with replies := t.nsc.replies, journal := t.nsc.journal }
                     jnl := { s.jnl with cursor := t.jnl.cursor, credit := t.jnl.credit } })
  ∧ (∀ (q : QFrame) (e : Station) (rest : List QFrame) (s : State), Asks .journalRelease q e rest s →
    ∃ t, exec .journalRelease s = .next t ∧ LineKept rest s t ∧ FaultsKept s t
      ∧ (match s.jnl.directory.find? (fun d => d.shift = q.at 0 2) with
        | none => Answered q (.refused .range) s t ∧ t.jnl = s.jnl
        | some d =>
          if d.state ≠ .read then Answered q (.refused .state) s t ∧ t.jnl = s.jnl
          else if (s.jnl.cursor.any (fun c => decide (c.shift = d.shift))) = true then
            Answered q (.refused .busy) s t ∧ t.jnl = s.jnl
          else Answered q (.accepted (le 2 d.shift)) s t
            ∧ (∀ x ∈ t.jnl.directory, x.shift = d.shift → x.state = .released)
            ∧ t.jnl.directory = (s.jnl.directory.map (fun x =>
                if x.shift = d.shift then { x with state := .released } else x)).filter (fun x =>
                  decide (x.state ≠ .released) || s.jnl.sectors.any (fun e => !e.erased && e.range.any (meets x)))
            ∧ (let u := { s with jnl.directory := s.jnl.directory.map (fun x =>
                  if x.shift = d.shift then { x with state := .released } else x) }
              let c := aheadSector u
              let erase := if erasedRowsAhead u < 32 ∧ reclaimable u c = true ∧ opPending isJournalErase s = false
                ∧ opPending (programsInto c) s = false then some (ArrayOp.journalErase c) else none
              let starts := decide (s.jnl.inFlight = none ∧ s.jnl.waiting = [])
              t.jnl.sectors = (if erase.isSome then
                  s.jnl.sectors.set (c - 2) { sectorEntry s c with eraseFlag := true } else s.jnl.sectors)
              ∧ t.jnl.inFlight = (if starts then erase else s.jnl.inFlight)
              ∧ t.jnl.waiting = (if starts then [] else s.jnl.waiting ++ erase.toList)))
      ∧ t = { s with lif := t.lif, flt := t.flt, nsc := { s.nsc with replies := t.nsc.replies }
                     jnl := { s.jnl with directory := t.jnl.directory, inFlight := t.jnl.inFlight
                                         waiting := t.jnl.waiting, sectors := t.jnl.sectors } })

/-- 09 R165 to R167, R170 and R171, 04 R71 and 02 R29: the completion of the program of the append queue's head, where
the write position then comes to stand, and of a sector's erase, with which the RELEASED entries that no IN_USE sector's
range meets leave the directory (R173); and what JNL counts ahead of the write position. A program that waits at a held
sector waits for its erase (log 44), at whose row 0 the count of free rows stops (log 32). The slot of the last leg to
become FREE applies a pending time set. -/
def Obligations.JournalWorkCompletes : Prop :=
  (∀ (row : Nat) (x : Queued) (more : List Queued) (s : State),
    (s.pwr.state = .active ∨ s.pwr.state = .entering) → s.jnl.inFlight = some (.journalProgram row) →
    s.jnl.append = x :: more → 32 ≤ row → row < 2048 → Memory.wf s.array = true → s.jnl.sectors.length = 126 →
    ∃ t, exec .journalProgramComplete s = .next t ∧ TransmitterKept s t
      ∧ (∀ r, rowAt t.array r = if r = row then rowOfRecord x else rowAt s.array r)
      ∧ (∃ claimed, t.jnl.append = more ++ claimed ∧ (s.odo.pendingTime = none → claimed = []))
      ∧ (sectorEntry t (row / 16)).erased = false
      ∧ (sectorEntry t (row / 16)).range = some (match (sectorEntry s (row / 16)).range with
        | none => (x.seq, x.seq)
        | some (lo, hi) => (min lo x.seq, max hi x.seq))
      ∧ (∀ r, x.record = .leg r → ∀ i, findLeg s r.number = some i →
          (∀ l, legAt s i = some l → l.phase = .closing → legAt t i = none) ∧ (∀ j, j ≠ i → legAt t j = legAt s j)
            ∧ (∀ l w, legAt s i = some l → l.phase = .closing → (∀ j, j ≠ i → legAt s j = none) →
                s.odo.pendingTime = some w → FleetItem.clockApplied w ∈ t.nsc.fleet
                  ∧ t.odo = { s.odo with clock := w, secondDue := s.time + 14400000, clockSet := true
                                         pendingTime := none }))
      ∧ ((∀ r, x.record ≠ .leg r) → t.fare = s.fare)
      ∧ (∀ c, x.record = .shiftClose c → t.jnl.directory = s.jnl.directory.map (fun d =>
          if d.shift = c.shift ∧ d.state = .opened then
            { d with last := some x.seq, state := if c.abandoned then .abandoned else .closed } else d))
      ∧ ((∀ c, x.record ≠ .shiftClose c) → t.jnl.directory = s.jnl.directory)
      ∧ (s.odo.pendingTime = none → t.odo = s.odo ∧ t.jnl.nextSeq = s.jnl.nextSeq
          ∧ (more = [] → t.jnl.writePos = nextRow row ∧ t.jnl.waitsErase = s.jnl.waitsErase)
          ∧ (more ≠ [] → s.pwr.state = .active → s.jnl.waiting = [] → s.jnl.waitsErase = false →
              (∀ c, x.record ≠ .shiftClose c) → WritesOn (nextRow row) t))
      ∧ t = { s with array := t.array, jnl := { t.jnl with credit := s.jnl.credit }, fare := t.fare, flt := t.flt
                     odo := { s.odo with clock := t.odo.clock, secondDue := t.odo.secondDue
                                         clockSet := t.odo.clockSet, pendingTime := t.odo.pendingTime }
                     nsc := { s.nsc with replies := t.nsc.replies, fares := t.nsc.fares, fleet := t.nsc.fleet
                                         journal := t.nsc.journal, print := t.nsc.print }
                     lif := { s.lif with stations := t.lif.stations, tx := t.lif.tx }
                     cab := { s.cab with watches := t.cab.watches }
                     acc := { s.acc with credit := t.acc.credit, jobs := t.acc.jobs, shift := t.acc.shift } })
  ∧ (∀ (c : Nat) (s : State), (s.pwr.state = .active ∨ s.pwr.state = .entering) →
    s.jnl.inFlight = some (.journalErase c) →
    ∃ t, exec .journalEraseComplete s = .next t
      ∧ (∀ r, rowAt t.array r = if r / 16 = c then erasedRow else rowAt s.array r)
      ∧ (2 ≤ c → c < 128 → s.jnl.sectors.length = 126 → sectorEntry t c = ⟨true, none, false⟩
          ∧ (s.pwr.state = .active → s.jnl.append ≠ [] → s.jnl.waiting = [] → s.jnl.writePos = c * 16 →
              t.jnl.inFlight = some (.journalProgram (c * 16)) ∧ t.jnl.writePos = c * 16 ∧ t.jnl.waitsErase = false))
      ∧ (s.jnl.append = [] → t.jnl.writePos = s.jnl.writePos)
      ∧ t.jnl.append = s.jnl.append
      ∧ t.jnl.directory = s.jnl.directory.filter (fun d => decide (d.state ≠ .released)
          || t.jnl.sectors.any (fun e => !e.erased && e.range.any (meets d)))
      ∧ t = { s with array := t.array, flt := t.flt
                     nsc := { s.nsc with journal := t.nsc.journal, replies := t.nsc.replies }
                     lif := { s.lif with tx := { s.lif.tx with renewed := t.lif.tx.renewed } }
                     jnl := { s.jnl with inFlight := t.jnl.inFlight, waiting := t.jnl.waiting, cursor := t.jnl.cursor
                                         writePos := t.jnl.writePos, waitsErase := t.jnl.waitsErase
                                         sectors := t.jnl.sectors, directory := t.jnl.directory } })
  ∧ (∀ s : State, 32 ≤ s.jnl.writePos → s.jnl.writePos < 2048 →
    let own := s.jnl.writePos / 16
    let after := fun (k : Nat) => (own - 2 + k) % 126 + 2
    let usable := fun (c : Nat) => sectorErased s c || reclaimable s c
    (∃ n, n ≤ 125 ∧ (∀ k, 1 ≤ k → k ≤ n → sectorErased s (after k) = true)
      ∧ (n < 125 → sectorErased s (after (n + 1)) = false)
      ∧ erasedRowsAhead s = freeHere s + 16 * n - s.jnl.append.length
      ∧ aheadSector s = (if s.jnl.writePos % 16 = 0 ∧ sectorErased s own = false then own else after (n + 1)))
    ∧ (∃ n, n ≤ 125 ∧ (∀ k, 1 ≤ k → k ≤ n → usable (after k) = true) ∧ (n < 125 → usable (after (n + 1)) = false)
      ∧ freeRows s = (if s.jnl.writePos % 16 = 0 ∧ usable own = false then freeHere s
        else if s.jnl.writePos % 16 = 0 ∧ sectorErased s own = false then 16 * (n + 1)
        else freeHere s + 16 * n) - s.jnl.append.length))

/-! ### The fault set -/

/-- 10 R182 to R185: FAULT_ACK. A latched fault whose cause does not hold becomes clear, every other fault stays, the
cold-start flag clears, and the answer carries the index, the fault's state and the whole set as they then stand. R182: a
live fault is set while its condition holds, a latched one while it stands raised; R185: the warning is set while a fault
is set whose flag the committed tariff's mask sets, or with no tariff any fault; ANNOUNCE carries set, warning and
cold-start flag as they stand (01 R18). -/
def Obligations.FaultAckClearsEndedFault : Prop :=
  (∀ (q : QFrame) (e : Station) (rest : List QFrame) (s : State), Asks .faultAck q e rest s →
    let cause := fun (i : Nat) =>
      if i = 1 then decide (8 ≤ rest.length)
      else if i = 2 then decide (6 ≤ s.nsc.replies.length)
      else if i = 4 then decide (12 ≤ s.lif.stations.length)
      else if i = 5 then decide (255 < s.odo.lastTaken)
      else if i = 6 then s.cab.watches.any (fun w => w.fired)
      else if i = 9 then decide (4 ≤ s.acc.jobs.length)
      else false
    ∃ t, exec .faultAck s = .next t ∧ LineKept rest s t
      ∧ (if 15 < q.at 0 1 then Answered q (.refused .range) s t ∧ FaultsKept s t
        else t.flt.coldFlag = false
          ∧ (∀ i, i < 16 → (i ≠ 2 ∨ s.nsc.replies.length < 6) → t.flt.latched.getLsbD i =
              (s.flt.latched.getLsbD i && !(decide (i = q.at 0 1 ∧ i < 11) && !cause i)))
          ∧ Answered q (.accepted (le 1 (q.at 0 1) ++ [flagByte (faultBit t (q.at 0 1))]
              ++ le 2 (faultWord t).toNat)) s t)
      ∧ t = { s with lif := t.lif, flt := t.flt, nsc := { s.nsc with replies := t.nsc.replies } })
  ∧ (∀ (i : Nat) (s : State), i < 16 →
    (faultWord s).getLsbD i = faultBit s i
      ∧ faultBit s i = (if i = 11 then !s.odo.clockSet
        else if i = 12 then decide (s.cab.sign.confirm = .lost)
        else if i = 13 then s.cab.sign.front || s.cab.sign.rear || s.cab.sign.side
        else if i = 14 then s.cab.latch
        else if i = 15 then decide (freeRows s < 128)
        else s.flt.latched.getLsbD i))
  ∧ (∀ s : State,
    let masked := fun (i : Nat) => (s.tar.committed.map (fun c => c.general.mask.getLsbD i)).getD true
    warning s = (List.range 16).any (fun i => faultBit s i && masked i)
      ∧ (s.nsc.announce = true → contentOf s .announce = some (31, 0x01, [7, 0] ++ le 2 (faultWord s).toNat
          ++ [flagByte (warning s)] ++ le 1 s.cab.duty.code ++ le 2 (if shiftIsOpen s then s.acc.shift.number else 0)
          ++ [flagByte s.flt.coldFlag])))

/-! ### Invariants that every step keeps -/

/-- The array keeps its canonical form: 64 words a row, rows of the array, rising, none all erased. -/
def Obligations.MemoryStaysCanonical : Prop :=
  ∀ s t : State, Memory.wf s.array = true → step s = .next t → Memory.wf t.array = true

/-- 07 R122, R125, R128 and R132: no rear party is ever heard in a rear compartment, the driver not in the driver's
speaker; at most one rear port is granted, and a rear microphone whose port is not granted has no gain into the driver's
speaker. -/
def Obligations.RearPartiesStayApart : Prop :=
  ∀ s t : State, PartiesApart s → OneVoice s → step s = .next t → PartiesApart t ∧ OneVoice t

/-- 04 R53: no leg's total ever stands above 9,999,999. -/
def Obligations.NoLegAboveCeiling : Prop :=
  ∀ s t : State, LegsUnderCeiling s → step s = .next t → LegsUnderCeiling t

/-- 02 R27 and R28: the clock and a pending time set always hold a date and time of the calendar. -/
def Obligations.ClocksStayLegal : Prop := ∀ s t : State, ClocksLegal s → step s = .next t → ClocksLegal t

/-- 10 R187 and R189: while the part stays in RETAIN, the check word keeps agreeing with retention memory. -/
def Obligations.RetainKeepsCheck : Prop :=
  ∀ s t : State, s.pwr.state = .retain → s.pwr.check = retentionSum s → step s = .next t → t.pwr.state = .retain →
    t.pwr.check = retentionSum t

/-- The state after reset is what a cold start of a part with an erased array and open straps leaves: the model's choice
of reset state, logs 1 and 2. It has the properties that every step keeps. -/
def Obligations.ResetIsBlankColdStart : Prop :=
  exec (.coldStart ⟨0#3, false⟩ .whole []) { State.reset with pwr.state := .starting } = .next State.reset
    ∧ Memory.wf State.reset.array = true ∧ PartiesApart State.reset ∧ OneVoice State.reset
    ∧ LegsUnderCeiling State.reset ∧ ClocksLegal State.reset ∧ SignInForce State.reset
end

