-- ==== Sys2Proof/Laws/Array.lean ====
section
/-!
SUPPORT. The array's lemmas: what a program, a mark, an erase and an upset leave, read row by row, and that each
of them keeps the canonical form.
-/

namespace Sys2Proof.Machine

theorem risingFrom_mono {m : Memory} {a b : Nat} (hab : a ≤ b) (h : risingFrom b m = true) :
    risingFrom a m = true := by
  cases m with
  | nil => rfl
  | cons e m =>
    simp only [risingFrom, Bool.and_eq_true, decide_eq_true_eq] at h ⊢
    exact ⟨hab.trans h.1, h.2⟩

/-- Below the first row number of a rising list, a row is unlisted. -/
theorem find_below {m : Memory} {a r : Nat} (h : risingFrom a m = true) (hr : r < a) :
    m.find? (fun e => decide (e.1 = r)) = none := by
  induction m generalizing a with
  | nil => rfl
  | cons e m ih =>
    simp only [risingFrom, Bool.and_eq_true, decide_eq_true_eq] at h
    have hne : ¬ e.1 = r := by omega
    simp [List.find?, hne]
    simpa using ih h.2 (by omega)

theorem rowAt_below {m : Memory} {a r : Nat} (h : risingFrom a m = true) (hr : r < a) :
    rowAt m r = erasedRow := by
  simp [rowAt, find_below h hr]

theorem rowAt_cons (q : Nat) (y : Row) (m : Memory) (r : Nat) :
    rowAt ((q, y) :: m) r = if q = r then y else rowAt m r := by
  by_cases h : q = r <;> simp [rowAt, List.find?, h]

theorem rowAt_nil (r : Nat) : rowAt [] r = erasedRow := rfl

/-- A row reads as it was put, and every other row reads as before. -/
theorem rowAt_putRow {m : Memory} {a : Nat} (h : risingFrom a m = true) (r : Nat) (x : Row) (k : Nat) :
    rowAt (putRow m r x) k = if k = r then x else rowAt m k := by
  induction m generalizing a with
  | nil =>
    by_cases hx : x = erasedRow <;> by_cases hk : k = r <;>
      simp [putRow, hx, rowAt_nil, rowAt_cons, hk, eq_comm]
    intro hkr
    exact absurd hkr.symm hk
  | cons e m ih =>
    obtain ⟨q, y⟩ := e
    simp only [risingFrom, Bool.and_eq_true, decide_eq_true_eq] at h
    have below : rowAt m q = erasedRow := rowAt_below h.2 (Nat.lt_succ_self q)
    by_cases h1 : q < r
    · simp only [putRow, if_pos h1, rowAt_cons, ih h.2]
      by_cases hq : q = k
      · have : k ≠ r := by omega
        simp [hq, this]
      · simp [hq]
    · by_cases h2 : q = r
      · subst h2
        simp only [putRow, if_neg h1, if_true]
        by_cases hx : x = erasedRow
        · simp only [if_pos hx, rowAt_cons]
          by_cases hk : k = q
          · subst hk; simp [below, hx]
          · simp [hk, Ne.symm hk]
        · simp only [if_neg hx, rowAt_cons]
          by_cases hk : k = q
          · subst hk; simp
          · simp [hk, Ne.symm hk]
      · simp only [putRow, if_neg h1, if_neg h2]
        have low : rowAt m r = erasedRow := rowAt_below h.2 (by omega)
        by_cases hx : x = erasedRow
        · simp only [if_pos hx, rowAt_cons]
          by_cases hk : k = r
          · subst hk; simp [h2, low, hx]
          · simp [hk]
        · simp only [if_neg hx, rowAt_cons]
          by_cases hk : k = r
          · subst hk; simp
          · simp [hk, Ne.symm hk]

/-- A put keeps row numbers rising. -/
theorem risingFrom_putRow {m : Memory} {a : Nat} (h : risingFrom a m = true) {r : Nat} (har : a ≤ r) (x : Row) :
    risingFrom a (putRow m r x) = true := by
  induction m generalizing a with
  | nil => by_cases hx : x = erasedRow <;> simp [putRow, hx, risingFrom, har]
  | cons e m ih =>
    obtain ⟨q, y⟩ := e
    have hall := h
    simp only [risingFrom, Bool.and_eq_true, decide_eq_true_eq] at h
    by_cases h1 : q < r
    · simp only [putRow, if_pos h1, risingFrom, Bool.and_eq_true, decide_eq_true_eq]
      exact ⟨h.1, ih h.2 h1⟩
    · by_cases h2 : q = r
      · subst h2
        simp only [putRow, if_neg h1, if_true]
        by_cases hx : x = erasedRow
        · simp only [if_pos hx]; exact risingFrom_mono (by omega) h.2
        · simp only [if_neg hx, risingFrom, Bool.and_eq_true, decide_eq_true_eq]; exact ⟨h.1, h.2⟩
      · simp only [putRow, if_neg h1, if_neg h2]
        by_cases hx : x = erasedRow
        · simpa only [if_pos hx] using hall
        · simp only [if_neg hx, risingFrom, Bool.and_eq_true, decide_eq_true_eq]
          exact ⟨har, by omega, h.2⟩

/-- Every entry of a put is the row put, if it is not erased, or an entry there was. -/
theorem mem_putRow {m : Memory} {r : Nat} {x : Row} {e : Nat × Row} (h : e ∈ putRow m r x) :
    (e = (r, x) ∧ x ≠ erasedRow) ∨ e ∈ m := by
  induction m with
  | nil =>
    by_cases hx : x = erasedRow
    · simp [putRow, hx] at h
    · simp [putRow, hx] at h; exact .inl ⟨h, hx⟩
  | cons d m ih =>
    obtain ⟨q, y⟩ := d
    by_cases h1 : q < r
    · simp only [putRow, if_pos h1, List.mem_cons] at h
      rcases h with h | h
      · exact .inr (by simp [h])
      · rcases ih h with h | h
        · exact .inl h
        · exact .inr (by simp [h])
    · by_cases h2 : q = r
      · by_cases hx : x = erasedRow
        · simp only [putRow, if_neg h1, if_pos h2, if_pos hx] at h
          exact .inr (by simp [h])
        · simp only [putRow, if_neg h1, if_pos h2, if_neg hx, List.mem_cons] at h
          rcases h with h | h
          · exact .inl ⟨h, hx⟩
          · exact .inr (by simp [h])
      · by_cases hx : x = erasedRow
        · simp only [putRow, if_neg h1, if_neg h2, if_pos hx] at h
          exact .inr h
        · simp only [putRow, if_neg h1, if_neg h2, if_neg hx, List.mem_cons] at h
          rcases h with h | h | h
          · exact .inl ⟨h, hx⟩
          · exact .inr (by simp [h])
          · exact .inr (by simp [h])

/-- The canonical form, as propositions. -/
theorem wf_iff (m : Memory) :
    Memory.wf m = true ↔ risingFrom 0 m = true ∧ ∀ e ∈ m, e.1 < 2048 ∧ e.2.length = 64 ∧ e.2 ≠ erasedRow := by
  simp [Memory.wf, List.all_eq_true, and_assoc]

theorem wf_rising {m : Memory} (h : Memory.wf m = true) : risingFrom 0 m = true := ((wf_iff m).1 h).1

/-- A program of a row of 64 words keeps the canonical form (09 R163). -/
theorem putRow_wf {m : Memory} (h : Memory.wf m = true) {r : Nat} (hr : r < 2048) {x : Row} (hx : x.length = 64) :
    Memory.wf (putRow m r x) = true := by
  rw [wf_iff] at h ⊢
  refine ⟨risingFrom_putRow h.1 (Nat.zero_le r) x, fun e he => ?_⟩
  rcases mem_putRow he with ⟨rfl, hne⟩ | hm
  · exact ⟨hr, hx, hne⟩
  · exact h.2 e hm

/-- Every row of a canonical array has 64 words. -/
theorem rowAt_length {m : Memory} (h : Memory.wf m = true) (r : Nat) : (rowAt m r).length = 64 := by
  unfold rowAt
  split
  · rename_i e he
    exact (((wf_iff m).1 h).2 e (List.mem_of_find?_eq_some he)).2.1
  · simp [erasedRow]

/-- A mark of one word keeps the canonical form (03 R43). -/
theorem putWord_wf {m : Memory} (h : Memory.wf m = true) {r : Nat} (hr : r < 2048) (w : Nat) (x : ArrayWord) :
    Memory.wf (putWord m r w x) = true :=
  putRow_wf h hr (by simp [rowAt_length h])

/-- A mark changes its own row only, by its one word. -/
theorem rowAt_putWord {m : Memory} (h : Memory.wf m = true) (r w : Nat) (x : ArrayWord) (k : Nat) :
    rowAt (putWord m r w x) k = if k = r then (rowAt m r).set w x else rowAt m k :=
  rowAt_putRow (wf_rising h) r _ k

theorem risingFrom_filter {m : Memory} {a : Nat} (h : risingFrom a m = true) (p : Nat × Row → Bool) :
    risingFrom a (m.filter p) = true := by
  induction m generalizing a with
  | nil => rfl
  | cons e m ih =>
    obtain ⟨q, y⟩ := e
    simp only [risingFrom, Bool.and_eq_true, decide_eq_true_eq] at h
    by_cases hp : p (q, y) = true
    · simp only [List.filter, hp, risingFrom, Bool.and_eq_true, decide_eq_true_eq]; exact ⟨h.1, ih h.2⟩
    · simp only [List.filter, hp]
      exact ih (risingFrom_mono (by omega) h.2)

/-- An erase keeps the canonical form (09 R163). -/
theorem eraseRows_wf {m : Memory} (h : Memory.wf m = true) (c : Nat) : Memory.wf (eraseRows m c) = true := by
  rw [wf_iff] at h ⊢
  refine ⟨risingFrom_filter h.1 _, fun e he => h.2 e ?_⟩
  exact List.mem_of_mem_filter he

/-- An erase returns the sector's rows to the erased state and leaves every other row (09 R163). -/
theorem rowAt_eraseRows (m : Memory) (c k : Nat) :
    rowAt (eraseRows m c) k = if k / 16 = c then erasedRow else rowAt m k := by
  induction m with
  | nil => simp [eraseRows, rowAt_nil]
  | cons e m ih =>
    obtain ⟨q, y⟩ := e
    have step : eraseRows ((q, y) :: m) c = if q / 16 = c then eraseRows m c else (q, y) :: eraseRows m c := by
      by_cases hq : q / 16 = c <;> simp [eraseRows, hq]
    rw [step, rowAt_cons]
    by_cases hq : q / 16 = c
    · rw [if_pos hq, ih]
      by_cases hk : k / 16 = c
      · simp [hk]
      · have : q ≠ k := by rintro rfl; exact hk hq
        simp [hk, this]
    · rw [if_neg hq, rowAt_cons, ih]
      by_cases hqk : q = k
      · subst hqk; simp [hq]
      · simp [hqk]

/-- Upsets that name words the array has keep the canonical form (log 12). -/
theorem withUpsets_wf {m : Memory} (h : Memory.wf m = true) {us : List Upset}
    (hu : ∀ u ∈ us, u.row < 2048) : Memory.wf (withUpsets m us) = true := by
  induction us generalizing m with
  | nil => exact h
  | cons u us ih =>
    exact ih (putWord_wf h (hu u (by simp)) u.word u.reads) (fun v hv => hu v (by simp [hv]))

/-- No upset is outside the array, so each names one of its rows. -/
theorem rows_of_badUpset {us : List Upset} (h : badUpset us = none) : ∀ u ∈ us, u.row < 2048 := by
  intro u hu
  have := List.find?_eq_none.1 h u hu
  simp [Upset.inArray] at this
  exact this.1

theorem programRow_wf {m : Memory} (h : Memory.wf m = true) (r : Nat) {x : Row} (hx : x.length = 64) :
    Memory.wf (programRow m r x) = true := by
  unfold programRow
  split
  · exact putRow_wf h (by assumption) hx
  · exact h

theorem programMark_wf {m : Memory} (h : Memory.wf m = true) (r : Nat) : Memory.wf (programMark m r) = true := by
  unfold programMark
  split
  · exact putWord_wf h (by assumption) 63 _
  · exact h

/-- A program writes its own row and leaves every other (09 R163). -/
theorem rowAt_programRow {m : Memory} (h : Memory.wf m = true) {r : Nat} (hr : r < 2048) (x : Row) (k : Nat) :
    rowAt (programRow m r x) k = if k = r then x else rowAt m k := by
  rw [programRow, if_pos hr]
  exact rowAt_putRow (wf_rising h) r x k

theorem rowOfBytes_length (bytes : List Byte) : (rowOfBytes bytes).length = 64 := by simp [rowOfBytes]

theorem partRowOfBytes_length (bytes : List Byte) : (partRowOfBytes bytes).length = 64 := by
  simp [partRowOfBytes, rowOfBytes_length]

theorem rowOfRecord_length (q : Queued) : (rowOfRecord q).length = 64 := rowOfBytes_length _

theorem rowOfPart_length (row : Nat) (content : List Byte) : (rowOfPart row content).length = 64 :=
  partRowOfBytes_length _

theorem rowOfCommit_length (row count sum : Nat) : (rowOfCommit row count sum).length = 64 := rowOfBytes_length _

/-- The array after reset has the canonical form. -/
theorem reset_array_wf : Memory.wf State.reset.array = true := by decide

end Sys2Proof.Machine
end

