-- ==== Sys2Proof/Laws/Scan.lean ====
section
/-!
SUPPORT. What the scan and the rebuild of a cold start make of a canonical array, row by row (02 R26, 09 R166, 10 R194).
-/

namespace Sys2Proof.Machine

/-! ### Listed rows -/

/-- A canonical array lists a row exactly when it is not erased. -/
theorem mem_of_rising {m : Memory} {a : Nat} (h : risingFrom a m = true) (hne : ∀ e ∈ m, e.2 ≠ erasedRow) (r : Nat)
    (x : Row) : (r, x) ∈ m ↔ rowAt m r = x ∧ x ≠ erasedRow := by
  induction m generalizing a with
  | nil =>
    rw [rowAt_nil]
    exact ⟨fun h => (List.not_mem_nil h).elim, fun h => (h.2 h.1.symm).elim⟩
  | cons e m ih =>
    obtain ⟨q, y⟩ := e
    simp only [risingFrom, Bool.and_eq_true, decide_eq_true_eq] at h
    rw [List.mem_cons, ih h.2 (fun e he => hne e (List.mem_cons_of_mem _ he)), rowAt_cons]
    have hy : y ≠ erasedRow := hne (q, y) List.mem_cons_self
    by_cases hq : q = r
    · subst hq
      have below : rowAt m q = erasedRow := rowAt_below h.2 (Nat.lt_succ_self q)
      simp only [below]
      constructor
      · rintro (h | ⟨h, h'⟩)
        · cases h; exact ⟨rfl, hy⟩
        · exact absurd h.symm h'
      · rintro ⟨rfl, -⟩; exact .inl rfl
    · simp only [if_neg hq]
      constructor
      · rintro (h | h)
        · cases h; exact absurd rfl hq
        · exact h
      · exact .inr

theorem mem_iff {m : Memory} (h : Memory.wf m = true) (r : Nat) (x : Row) :
    (r, x) ∈ m ↔ rowAt m r = x ∧ x ≠ erasedRow :=
  mem_of_rising (wf_rising h) (fun e he => (((wf_iff m).1 h).2 e he).2.2) r x

@[simp] theorem classify_erasedRow : classify erasedRow = .free := by decide

@[simp] theorem readable_erasedRow : readable erasedRow = false := by decide

/-- A listed row that is no erased row by a test of its content is a row of the array that meets the test. -/
theorem mem_filter_rows {m : Memory} (h : Memory.wf m = true) (p : Nat × Row → Bool)
    (hp : ∀ r, p (r, erasedRow) = false) (r : Nat) (x : Row) :
    (r, x) ∈ m.filter p ↔ rowAt m r = x ∧ p (r, x) = true := by
  rw [List.mem_filter, mem_iff h]
  constructor
  · rintro ⟨⟨a, -⟩, b⟩; exact ⟨a, b⟩
  · rintro ⟨a, b⟩
    refine ⟨⟨a, ?_⟩, b⟩
    rintro rfl
    rw [hp] at b
    cases b

/-- The readable rows the scan finds are the ring's, each with its number. -/
theorem mem_readableSeqs {m : Memory} (h : Memory.wf m = true) (r n : Nat) :
    (r, n) ∈ readableSeqs m ↔ JournalRow m r ∧ seqAt m r = n := by
  simp only [readableSeqs, ringRows, List.filter_filter, List.mem_map, Prod.mk.injEq, Prod.exists]
  constructor
  · rintro ⟨q, x, hm, rfl, rfl⟩
    rw [mem_filter_rows h _ (by simp)] at hm
    obtain ⟨rfl, hp⟩ := hm
    simp only [Bool.and_eq_true] at hp
    exact ⟨⟨hp.2, hp.1⟩, rfl⟩
  · rintro ⟨⟨hr, hx⟩, rfl⟩
    exact ⟨r, rowAt m r, (mem_filter_rows h _ (by simp) _ _).2 ⟨rfl, by simp [hr, hx]⟩, rfl, rfl⟩

/-! ### The highest sequence number -/

theorem highest_foldl (l : List (Nat × Nat)) (b : Option (Nat × Nat)) :
    let o := l.foldl (fun best e => match best with
      | none => some e
      | some b => if b.2 < e.2 then some e else some b) b
    (o = none ↔ b = none ∧ l = []) ∧ ∀ h, o = some h → (h ∈ l ∨ b = some h) ∧ (∀ e ∈ l, e.2 ≤ h.2)
      ∧ ∀ c, b = some c → c.2 ≤ h.2 := by
  induction l generalizing b with
  | nil =>
    refine ⟨by simp, fun h hh => ⟨.inr hh, by simp, fun c hc => ?_⟩⟩
    simp only [List.foldl_nil] at hh
    rw [hh] at hc
    cases hc
    exact Nat.le_refl _
  | cons e l ih =>
    simp only [List.foldl_cons]
    cases b with
    | none =>
      have := ih (some e)
      simp only at this ⊢
      refine ⟨by simpa using this.1, fun h hh => ?_⟩
      obtain ⟨a1, a2, a3⟩ := this.2 h hh
      have := a3 e rfl
      refine ⟨?_, ?_, by simp⟩
      · rcases a1 with a1 | a1
        · exact .inl (List.mem_cons_of_mem _ a1)
        · cases a1; exact .inl List.mem_cons_self
      · intro x hx
        rcases List.mem_cons.1 hx with rfl | hx
        · exact this
        · exact a2 x hx
    | some b =>
      have := ih (if b.2 < e.2 then some e else some b)
      simp only at this ⊢
      have hne : (if b.2 < e.2 then some e else some b) ≠ none := by split <;> simp
      refine ⟨by simpa [hne] using this.1, fun h hh => ?_⟩
      obtain ⟨a1, a2, a3⟩ := this.2 h hh
      have le : b.2 ≤ h.2 ∧ e.2 ≤ h.2 := by
        by_cases hb : b.2 < e.2
        · have := a3 e (by simp [hb]); omega
        · have := a3 b (by simp [hb]); omega
      refine ⟨?_, ?_, ?_⟩
      · rcases a1 with a1 | a1
        · exact .inl (List.mem_cons_of_mem _ a1)
        · by_cases hb : b.2 < e.2
          · rw [if_pos hb] at a1; cases a1; exact .inl List.mem_cons_self
          · rw [if_neg hb] at a1; cases a1; exact .inr rfl
      · intro x hx
        rcases List.mem_cons.1 hx with rfl | hx
        · exact le.2
        · exact a2 x hx
      · rintro c ⟨⟩; exact le.1

/-- The highest of some rows is one of them, and none has a higher sequence number. -/
theorem highest_spec (l : List (Nat × Nat)) :
    (highest l = none ↔ l = []) ∧ ∀ h, highest l = some h → h ∈ l ∧ ∀ e ∈ l, e.2 ≤ h.2 := by
  have := highest_foldl l none
  refine ⟨this.1.trans (by simp), fun h hh => ?_⟩
  obtain ⟨a, b, -⟩ := this.2 h hh
  exact ⟨by simpa using a, b⟩

/-- A row whose sequence number is above every other's is the highest. -/
theorem highest_of_top {l : List (Nat × Nat)} {e : Nat × Nat} (he : e ∈ l) (top : ∀ x ∈ l, x ≠ e → x.2 < e.2) :
    highest l = some e := by
  cases h : highest l with
  | none => rw [((highest_spec l).1.1 h)] at he; cases he
  | some x =>
    obtain ⟨hm, hx⟩ := (highest_spec l).2 x h
    by_cases hxe : x = e
    · rw [hxe]
    · have := top x hm hxe; have := hx e he; omega

/-- The odometer is recovered as 02 R26 says. -/
theorem scannedOdometer_spec {m : Memory} (h : Memory.wf m = true) : OdometerRecovered m (scannedOdometer m) := by
  have rows : ∀ r n, (r, n) ∈ (((ringRows m).filter (fun e => hasHeader headerShiftOpen e.2
      || hasHeader headerShiftClose e.2)).map (fun e => (e.1, rowSeq e.2)))
      ↔ (JournalRow m r ∧ (readableHeader (rowAt m r) = some headerShiftOpen
        ∨ readableHeader (rowAt m r) = some headerShiftClose)) ∧ seqAt m r = n := by
    intro r n
    simp only [ringRows, List.filter_filter, List.mem_map, Prod.mk.injEq, Prod.exists]
    constructor
    · rintro ⟨q, x, hm, rfl, rfl⟩
      rw [mem_filter_rows h _ (by simp [hasHeader])] at hm
      obtain ⟨rfl, hp⟩ := hm
      simp only [hasHeader, Bool.and_eq_true, Bool.or_eq_true, decide_eq_true_eq] at hp
      refine ⟨⟨⟨hp.2, ?_⟩, ?_⟩, rfl⟩
      · rcases hp.1 with hp | hp <;> exact hp.1
      · rcases hp.1 with hp | hp
        · exact .inl hp.2
        · exact .inr hp.2
    · rintro ⟨⟨⟨hr, hx⟩, hh⟩, rfl⟩
      refine ⟨r, rowAt m r, (mem_filter_rows h _ (by simp [hasHeader]) _ _).2 ⟨rfl, ?_⟩, rfl, rfl⟩
      simpa [hasHeader, hx, hr] using hh
  unfold OdometerRecovered scannedOdometer
  refine ⟨fun none => ?_, fun r hr top => ?_⟩
  · have : highest (((ringRows m).filter (fun e => hasHeader headerShiftOpen e.2
        || hasHeader headerShiftClose e.2)).map (fun e => (e.1, rowSeq e.2))) = Option.none := by
      rw [(highest_spec _).1, List.eq_nil_iff_forall_not_mem]
      rintro ⟨r, n⟩ hm
      exact none r ((rows r n).1 hm).1
    simp only [this]
  · have : highest (((ringRows m).filter (fun e => hasHeader headerShiftOpen e.2
        || hasHeader headerShiftClose e.2)).map (fun e => (e.1, rowSeq e.2))) = some (r, seqAt m r) := by
      refine highest_of_top ((rows _ _).2 ⟨hr, rfl⟩) ?_
      rintro ⟨k, n⟩ hm hne
      obtain ⟨hk, rfl⟩ := (rows k n).1 hm
      refine top k hk ?_
      rintro rfl
      exact hne rfl
    dsimp only
    rw [this]
    simp only [odometerIn, hasHeader, hr.1.2, Bool.true_and, decide_eq_true_eq]
    split <;> rfl

/-! ### The sector map (09 R166) -/

theorem widen_foldl (l : List Nat) (o : Option (Nat × Nat)) :
    let w := l.foldl widen o
    (w = none ↔ o = none ∧ l = []) ∧ ∀ lo hi, w = some (lo, hi) →
      (lo ∈ l ∨ ∃ b, o = some (lo, b)) ∧ (hi ∈ l ∨ ∃ a, o = some (a, hi)) ∧ (∀ n ∈ l, lo ≤ n ∧ n ≤ hi)
        ∧ ∀ a b, o = some (a, b) → lo ≤ a ∧ b ≤ hi := by
  induction l generalizing o with
  | nil =>
    refine ⟨by simp, fun lo hi h => ?_⟩
    simp only [List.foldl_nil] at h
    refine ⟨.inr ⟨hi, h⟩, .inr ⟨lo, h⟩, by simp, fun a b hab => ?_⟩
    rw [h] at hab; cases hab; exact ⟨Nat.le_refl _, Nat.le_refl _⟩
  | cons n l ih =>
    simp only [List.foldl_cons]
    cases o with
    | none =>
      have := ih (widen none n)
      simp only [widen] at this ⊢
      refine ⟨by simpa using this.1, fun lo hi h => ?_⟩
      obtain ⟨a1, a2, a3, a4⟩ := this.2 lo hi h
      have b := a4 n n rfl
      refine ⟨?_, ?_, ?_, by simp⟩
      · rcases a1 with a1 | ⟨_, a1⟩
        · exact .inl (List.mem_cons_of_mem _ a1)
        · cases a1; exact .inl List.mem_cons_self
      · rcases a2 with a2 | ⟨_, a2⟩
        · exact .inl (List.mem_cons_of_mem _ a2)
        · cases a2; exact .inl List.mem_cons_self
      · intro k hk
        rcases List.mem_cons.1 hk with rfl | hk
        · exact b
        · exact a3 k hk
    | some p =>
      obtain ⟨a, b⟩ := p
      have := ih (widen (some (a, b)) n)
      simp only [widen] at this ⊢
      refine ⟨by simpa using this.1, fun lo hi h => ?_⟩
      obtain ⟨a1, a2, a3, a4⟩ := this.2 lo hi h
      have c := a4 _ _ rfl
      refine ⟨?_, ?_, ?_, ?_⟩
      · rcases a1 with a1 | ⟨_, a1⟩
        · exact .inl (List.mem_cons_of_mem _ a1)
        · cases a1
          rcases Nat.le_total a n with q | q
          · rw [Nat.min_eq_left q]; exact .inr ⟨b, rfl⟩
          · rw [Nat.min_eq_right q]; exact .inl List.mem_cons_self
      · rcases a2 with a2 | ⟨_, a2⟩
        · exact .inl (List.mem_cons_of_mem _ a2)
        · cases a2
          rcases Nat.le_total b n with q | q
          · rw [Nat.max_eq_right q]; exact .inl List.mem_cons_self
          · rw [Nat.max_eq_left q]; exact .inr ⟨a, rfl⟩
      · intro k hk
        rcases List.mem_cons.1 hk with rfl | hk
        · omega
        · exact a3 k hk
      · rintro _ _ ⟨⟩
        omega

/-- The range widened over some numbers spans them. -/
theorem widen_none_spec (l : List Nat) :
    (l.foldl widen none = none ↔ l = []) ∧ ∀ lo hi, l.foldl widen none = some (lo, hi) →
      lo ∈ l ∧ hi ∈ l ∧ ∀ n ∈ l, lo ≤ n ∧ n ≤ hi := by
  have := widen_foldl l none
  refine ⟨this.1.trans (by simp), fun lo hi h => ?_⟩
  obtain ⟨a, b, c, -⟩ := this.2 lo hi h
  exact ⟨by simpa using a, by simpa using b, c⟩

/-- Rows in rising order. -/
abbrev Rising {α : Type} (l : List (Nat × α)) : Prop := l.Pairwise (fun a b => a.1 < b.1)

theorem rising_of_risingFrom {m : Memory} {a : Nat} (h : risingFrom a m = true) :
    Rising m ∧ ∀ e ∈ m, a ≤ e.1 := by
  induction m generalizing a with
  | nil => simp [Rising]
  | cons e m ih =>
    simp only [risingFrom, Bool.and_eq_true, decide_eq_true_eq] at h
    obtain ⟨p, q⟩ := ih h.2
    refine ⟨List.pairwise_cons.2 ⟨fun x hx => q x hx, p⟩, fun x hx => ?_⟩
    rcases List.mem_cons.1 hx with rfl | hx
    · exact h.1
    · have := q x hx; omega

theorem Rising.unique {α : Type} {l : List (Nat × α)} (h : Rising l) {r : Nat} {x y : α} (hx : (r, x) ∈ l)
    (hy : (r, y) ∈ l) : x = y := by
  induction l with
  | nil => cases hx
  | cons e l ih =>
    obtain ⟨a, b⟩ := List.pairwise_cons.1 h
    rcases List.mem_cons.1 hx with hx | hx <;> rcases List.mem_cons.1 hy with hy | hy
    · rw [← hx] at hy; cases hy; rfl
    · have := a _ hy; rw [← hx] at this; simp at this
    · have := a _ hx; rw [← hy] at this; simp at this
    · exact ih b hx hy

theorem Rising.getLast {α : Type} {l : List (Nat × α)} (h : Rising l) {e : Nat × α} (he : l.getLast? = some e) :
    e ∈ l ∧ ∀ k ∈ l, k.1 ≤ e.1 := by
  obtain ⟨ys, rfl⟩ := List.getLast?_eq_some_iff.1 he
  obtain ⟨-, -, hb⟩ := List.pairwise_append.1 h
  refine ⟨by simp, fun k hk => ?_⟩
  rcases List.mem_append.1 hk with hk | hk
  · exact (hb k hk e (by simp)).le
  · rw [List.mem_singleton.1 hk]

theorem Rising.head {α : Type} {l : List (Nat × α)} (h : Rising l) {e : Nat × α} (he : l.head? = some e) :
    e ∈ l ∧ ∀ k ∈ l, e.1 ≤ k.1 := by
  cases l with
  | nil => cases he
  | cons x l =>
    cases he
    obtain ⟨a, -⟩ := List.pairwise_cons.1 h
    refine ⟨List.mem_cons_self, fun k hk => ?_⟩
    rcases List.mem_cons.1 hk with rfl | hk
    · exact Nat.le_refl _
    · exact (a k hk).le

theorem Rising.find {α : Type} {l : List (Nat × α)} (h : Rising l) {p : Nat × α → Bool} {e : Nat × α}
    (he : l.find? p = some e) : e ∈ l ∧ p e = true ∧ ∀ k ∈ l, p k = true → e.1 ≤ k.1 := by
  obtain ⟨hp, as, bs, rfl, hn⟩ := List.find?_eq_some_iff_append.1 he
  obtain ⟨-, hb, -⟩ := List.pairwise_append.1 h
  obtain ⟨hb, -⟩ := List.pairwise_cons.1 hb
  refine ⟨by simp, hp, fun k hk hpk => ?_⟩
  rcases List.mem_append.1 hk with hk | hk
  · have := hn k hk; rw [hpk] at this; cases this
  · rcases List.mem_cons.1 hk with rfl | hk
    · exact Nat.le_refl _
    · exact (hb k hk).le

theorem readableSeqs_rising {m : Memory} (h : Memory.wf m = true) : Rising (readableSeqs m) := by
  have := (rising_of_risingFrom (wf_rising h)).1
  unfold readableSeqs ringRows
  exact List.pairwise_map.2 ((this.filter _).filter _)

/-- The nearest row before or after a row in ring order, of the rows listed (09 R166, log 37). -/
theorem mem_neighbours {seqs : List (Nat × Nat)} (h : Rising seqs) (ring : ∀ e ∈ seqs, 32 ≤ e.1 ∧ e.1 < 2048) {r : Nat}
    (hr : 32 ≤ r ∧ r < 2048) (out : ∀ e ∈ seqs, e.1 ≠ r) (n : Nat) :
    n ∈ neighbours seqs r ↔ ∃ b, (b, n) ∈ seqs
      ∧ ((∀ k ∈ seqs, (r + 2016 - b) % 2016 ≤ (r + 2016 - k.1) % 2016)
        ∨ (∀ k ∈ seqs, (b + 2016 - r) % 2016 ≤ (k.1 + 2016 - r) % 2016)) := by
  have before : ∀ e, ((seqs.filter (fun e => decide (e.1 < r))).getLast?.orElse (fun _ => seqs.getLast?)) = some e ↔
      e ∈ seqs ∧ ∀ k ∈ seqs, (r + 2016 - e.1) % 2016 ≤ (r + 2016 - k.1) % 2016 := by
    have one : ∀ e, ((seqs.filter (fun e => decide (e.1 < r))).getLast?.orElse (fun _ => seqs.getLast?)) = some e →
        e ∈ seqs ∧ ∀ k ∈ seqs, (r + 2016 - e.1) % 2016 ≤ (r + 2016 - k.1) % 2016 := by
      intro e he
      cases hf : (seqs.filter (fun e => decide (e.1 < r))).getLast? with
      | some x =>
        rw [hf] at he
        cases he
        obtain ⟨hm, hx⟩ := Rising.getLast (h.filter _) hf
        have hm := List.mem_filter.1 hm
        refine ⟨hm.1, fun k hk => ?_⟩
        have h1 : e.1 < r := by simpa using hm.2
        have h2 := ring k hk
        have h3 := ring e hm.1
        have h4 := out k hk
        by_cases hkr : k.1 < r
        · have := hx k (List.mem_filter.2 ⟨hk, by simpa using hkr⟩)
          omega
        · omega
      | none =>
        rw [hf] at he
        obtain ⟨hm, hx⟩ := h.getLast he
        have hnil : ∀ k ∈ seqs, ¬ k.1 < r := by
          intro k hk hkr
          have : k ∈ seqs.filter (fun e => decide (e.1 < r)) := List.mem_filter.2 ⟨hk, by simpa using hkr⟩
          rw [List.getLast?_eq_none_iff.1 hf] at this
          cases this
        refine ⟨hm, fun k hk => ?_⟩
        have h2 := ring k hk
        have h3 := ring e hm
        have h4 := out k hk
        have h5 := out e hm
        have := hx k hk
        have := hnil k hk
        have := hnil e hm
        omega
    intro e
    refine ⟨one e, fun ⟨hm, hx⟩ => ?_⟩
    cases hf : ((seqs.filter (fun e => decide (e.1 < r))).getLast?.orElse (fun _ => seqs.getLast?)) with
    | none =>
      cases hg : (seqs.filter (fun e => decide (e.1 < r))).getLast? with
      | some x => rw [hg] at hf; cases hf
      | none =>
        rw [hg] at hf
        rw [List.getLast?_eq_none_iff.1 hf] at hm
        cases hm
    | some x =>
      obtain ⟨h1, h2⟩ := one x hf
      have := h2 e hm
      have := hx x h1
      have := ring x h1
      have := ring e hm
      have : x.1 = e.1 := by omega
      obtain ⟨a, b⟩ := x
      obtain ⟨c, d⟩ := e
      simp only at this
      subst this
      rw [h.unique h1 hm]
  have after : ∀ e, ((seqs.find? (fun e => decide (r < e.1))).orElse (fun _ => seqs.head?)) = some e ↔
      e ∈ seqs ∧ ∀ k ∈ seqs, (e.1 + 2016 - r) % 2016 ≤ (k.1 + 2016 - r) % 2016 := by
    have one : ∀ e, ((seqs.find? (fun e => decide (r < e.1))).orElse (fun _ => seqs.head?)) = some e →
        e ∈ seqs ∧ ∀ k ∈ seqs, (e.1 + 2016 - r) % 2016 ≤ (k.1 + 2016 - r) % 2016 := by
      intro e he
      cases hf : seqs.find? (fun e => decide (r < e.1)) with
      | some x =>
        rw [hf] at he
        cases he
        obtain ⟨hm, hp, hx⟩ := h.find hf
        refine ⟨hm, fun k hk => ?_⟩
        have h1 : r < e.1 := by simpa using hp
        have h2 := ring k hk
        have h3 := ring e hm
        have h4 := out k hk
        by_cases hkr : r < k.1
        · have := hx k hk (by simpa using hkr)
          omega
        · omega
      | none =>
        rw [hf] at he
        obtain ⟨hm, hx⟩ := h.head he
        have hnil : ∀ k ∈ seqs, ¬ r < k.1 := by
          intro k hk hkr
          have := List.find?_eq_none.1 hf k hk
          simp [hkr] at this
        refine ⟨hm, fun k hk => ?_⟩
        have h2 := ring k hk
        have h3 := ring e hm
        have h4 := out k hk
        have h5 := out e hm
        have := hx k hk
        have := hnil k hk
        have := hnil e hm
        omega
    intro e
    refine ⟨one e, fun ⟨hm, hx⟩ => ?_⟩
    cases hf : ((seqs.find? (fun e => decide (r < e.1))).orElse (fun _ => seqs.head?)) with
    | none =>
      cases hg : seqs.find? (fun e => decide (r < e.1)) with
      | some x => rw [hg] at hf; cases hf
      | none =>
        rw [hg] at hf
        rw [List.head?_eq_none_iff.1 hf] at hm
        cases hm
    | some x =>
      obtain ⟨h1, h2⟩ := one x hf
      have := h2 e hm
      have := hx x h1
      have := ring x h1
      have := ring e hm
      have : x.1 = e.1 := by omega
      obtain ⟨a, b⟩ := x
      obtain ⟨c, d⟩ := e
      simp only at this
      subst this
      rw [h.unique h1 hm]
  simp only [neighbours, List.mem_map, List.mem_append, Option.mem_toList]
  constructor
  · rintro ⟨⟨b, _⟩, he | he, rfl⟩
    · obtain ⟨hm, hx⟩ := (before _).1 he
      exact ⟨b, hm, .inl hx⟩
    · obtain ⟨hm, hx⟩ := (after _).1 he
      exact ⟨b, hm, .inr hx⟩
  · rintro ⟨b, hm, hx | hx⟩
    · exact ⟨(b, n), .inl ((before _).2 ⟨hm, hx⟩), rfl⟩
    · exact ⟨(b, n), .inr ((after _).2 ⟨hm, hx⟩), rfl⟩

theorem ring_of_journalRow {m : Memory} {r : Nat} (h : JournalRow m r) : 32 ≤ r ∧ r < 2048 := by
  simpa [ringRow] using h.1

/-- A sector's entry is rebuilt as 09 R166 says. -/
theorem scannedSector_spec {m : Memory} (h : Memory.wf m = true) {c : Nat} (h1 : 2 ≤ c) (h2 : c < 128) :
    SectorRebuilt m c (scannedSector m c) := by
  have rows : ∀ r x, (r, x) ∈ m.filter (fun e => e.1 / 16 == c) ↔ (rowAt m r = x ∧ x ≠ erasedRow) ∧ r / 16 = c := by
    intro r x
    rw [List.mem_filter, mem_iff h]
    simp
  have seqs : ∀ n, n ∈ (m.filter (fun e => e.1 / 16 == c)).flatMap (rangeSeqs (readableSeqs m)) ↔ SectorSeq m c n := by
    intro n
    have near : ∀ r, r / 16 = c → classify (rowAt m r) = .damaged → (n ∈ neighbours (readableSeqs m) r ↔
        ∃ b, JournalRow m b ∧ seqAt m b = n
          ∧ ((∀ k, JournalRow m k → (r + 2016 - b) % 2016 ≤ (r + 2016 - k) % 2016)
            ∨ (∀ k, JournalRow m k → (b + 2016 - r) % 2016 ≤ (k + 2016 - r) % 2016))) := by
      intro r hr hd
      have ring : ∀ e ∈ readableSeqs m, 32 ≤ e.1 ∧ e.1 < 2048 := fun e he =>
        ring_of_journalRow ((mem_readableSeqs h e.1 e.2).1 he).1
      have out : ∀ e ∈ readableSeqs m, e.1 ≠ r := by
        rintro ⟨k, v⟩ he rfl
        have := ((mem_readableSeqs h k v).1 he).1.2
        simp [readable, hd, RowClass.readable] at this
      have all : ∀ p : Nat → Prop, (∀ k ∈ readableSeqs m, p k.1) ↔ ∀ k, JournalRow m k → p k := by
        intro p
        constructor
        · intro hp k hk
          exact hp (k, seqAt m k) ((mem_readableSeqs h _ _).2 ⟨hk, rfl⟩)
        · rintro hp ⟨k, v⟩ hk
          exact hp k ((mem_readableSeqs h _ _).1 hk).1
      rw [mem_neighbours (readableSeqs_rising h) ring (by omega) out]
      refine exists_congr fun b => ?_
      rw [mem_readableSeqs h, and_assoc, ← all (fun k => (r + 2016 - b) % 2016 ≤ (r + 2016 - k) % 2016),
        ← all (fun k => (b + 2016 - r) % 2016 ≤ (k + 2016 - r) % 2016)]
    simp only [List.mem_flatMap, Prod.exists, rows]
    constructor
    · rintro ⟨r, x, ⟨⟨rfl, -⟩, hr⟩, hn⟩
      unfold rangeSeqs at hn
      split at hn
      · rename_i hd
        obtain ⟨b, hb, hbn, hk⟩ := (near r hr hd).1 hn
        exact ⟨r, b, hr, hb, hbn, .inr ⟨hd, hk⟩⟩
      all_goals first
        | (rename_i hg
           rw [List.mem_singleton] at hn
           refine ⟨r, r, hr, ⟨?_, ?_⟩, hn.symm, .inl rfl⟩
           · simp only [ringRow, decide_eq_true_eq]; omega
           · simp only at hg
             simp [readable, hg, RowClass.readable])
        | cases hn
    · rintro ⟨r, b, hr, hb, hbn, rfl | ⟨hd, hk⟩⟩
      · refine ⟨b, rowAt m b, ⟨⟨rfl, ?_⟩, hr⟩, ?_⟩
        · intro he
          have := hb.2
          rw [he] at this
          simp at this
        · have := hb.2
          unfold rangeSeqs
          cases hcl : classify (rowAt m b) <;> simp [readable, hcl, RowClass.readable] at this ⊢ <;> exact hbn.symm
      · refine ⟨r, rowAt m r, ⟨⟨rfl, ?_⟩, hr⟩, ?_⟩
        · intro he
          rw [he] at hd
          simp at hd
        · unfold rangeSeqs
          rw [hd]
          exact (near r hr hd).2 ⟨b, hb, hbn, hk⟩
  have free : (m.filter (fun e => e.1 / 16 == c)).all (fun e => decide (classify e.2 = .free)) = true ↔
      ∀ r, r / 16 = c → classify (rowAt m r) = .free := by
    simp only [List.all_eq_true, decide_eq_true_eq, Prod.forall, rows]
    constructor
    · intro hall r hr
      by_cases he : rowAt m r = erasedRow
      · rw [he]; exact classify_erasedRow
      · exact hall r _ ⟨⟨rfl, he⟩, hr⟩
    · rintro hall r x ⟨⟨rfl, -⟩, hr⟩
      exact hall r hr
  unfold scannedSector
  by_cases hf : (m.filter (fun e => e.1 / 16 == c)).all (fun e => decide (classify e.2 = .free)) = true
  · simp only [if_pos hf]
    refine ⟨rfl, by simpa [SectorEntry.free] using free.1 hf, fun _ n => ?_, by simp [SectorEntry.free]⟩
    rintro ⟨r, b, hr, hb, -, rfl | ⟨hd, -⟩⟩
    · have := hb.2
      simp [readable, free.1 hf b hr, RowClass.readable] at this
    · rw [free.1 hf r hr] at hd
      cases hd
  · simp only [if_neg hf]
    obtain ⟨w1, w2⟩ := widen_none_spec ((m.filter (fun e => e.1 / 16 == c)).flatMap (rangeSeqs (readableSeqs m)))
    refine ⟨rfl, ?_, fun hn n hs => ?_, fun lo hi hs => ?_⟩
    · simp only [Bool.false_eq_true, false_iff]
      exact fun hall => hf (free.2 hall)
    · have := (seqs n).2 hs
      rw [w1.1 hn] at this
      cases this
    · obtain ⟨a, b, k⟩ := w2 lo hi hs
      exact ⟨(seqs lo).1 a, (seqs hi).1 b, fun n hn => k n ((seqs n).2 hn)⟩

/-- The sector map is rebuilt as 09 R166 says. -/
theorem scannedSectors_spec {m : Memory} (h : Memory.wf m = true) : (scannedSectors m).length = 126
    ∧ ∀ c, 2 ≤ c → c < 128 → SectorRebuilt m c ((scannedSectors m).getD (c - 2) SectorEntry.free) := by
  refine ⟨by simp [scannedSectors], fun c h1 h2 => ?_⟩
  have hc : c - 2 < 126 := by omega
  have e : (scannedSectors m).getD (c - 2) SectorEntry.free = scannedSector m c := by
    have : c - 2 + 2 = c := by omega
    simp [scannedSectors, List.getD, hc, this]
  rw [e]
  exact scannedSector_spec h h1 h2

/-! ### The directory (10 R194) -/

theorem nodup_eraseDups (l : List Nat) : l.eraseDups.Nodup := by
  induction hn : l.length using Nat.strong_induction_on generalizing l with
  | _ k ih =>
    cases l with
    | nil => simp
    | cons a l =>
      rw [List.eraseDups_cons, List.nodup_cons]
      refine ⟨by simp [List.mem_eraseDups], ih _ ?_ _ rfl⟩
      rw [← hn]
      exact Nat.lt_succ_of_le (List.length_filter_le _ _)

theorem insertShift_perm (x : Nat × Nat) (l : List (Nat × Nat)) : (insertShift x l).Perm (x :: l) := by
  induction l with
  | nil => exact List.Perm.refl _
  | cons y l ih =>
    unfold insertShift
    split
    · exact List.Perm.refl _
    · exact (ih.cons y).trans (List.Perm.swap x y l)

theorem insertShift_sorted {x : Nat × Nat} {l : List (Nat × Nat)} (h : l.Pairwise (fun a b => a.2 ≤ b.2)) :
    (insertShift x l).Pairwise (fun a b => a.2 ≤ b.2) := by
  induction l with
  | nil => simp [insertShift]
  | cons y l ih =>
    obtain ⟨a, b⟩ := List.pairwise_cons.1 h
    unfold insertShift
    split
    · rename_i hxy
      refine List.pairwise_cons.2 ⟨fun z hz => ?_, h⟩
      rcases List.mem_cons.1 hz with rfl | hz
      · omega
      · have := a z hz; omega
    · rename_i hxy
      refine List.pairwise_cons.2 ⟨fun z hz => ?_, ih b⟩
      rcases List.mem_cons.1 ((insertShift_perm x l).mem_iff.1 hz) with rfl | hz
      · omega
      · exact a z hz

theorem foldl_insertShift (xs l : List (Nat × Nat)) (h : l.Pairwise (fun a b => a.2 ≤ b.2)) :
    (xs.foldl (fun l x => insertShift x l) l).Perm (xs ++ l)
      ∧ (xs.foldl (fun l x => insertShift x l) l).Pairwise (fun a b => a.2 ≤ b.2) := by
  induction xs generalizing l with
  | nil => exact ⟨List.Perm.refl _, h⟩
  | cons x xs ih =>
    obtain ⟨a, b⟩ := ih (insertShift x l) (insertShift_sorted h)
    refine ⟨a.trans ?_, b⟩
    exact ((insertShift_perm x l).append_left xs).trans List.perm_middle

/-- The shifts the rows carry stand once each, in the order of their lowest sequence numbers (10 R194). -/
theorem shiftOrder_spec (rows : List (Nat × Row)) : (shiftOrder rows).Nodup
    ∧ (∀ n, n ∈ shiftOrder rows ↔ ∃ e ∈ rows, rowShift e.2 = n)
    ∧ (shiftOrder rows).Pairwise (fun n k => lowestSeq (rowsOf rows n) ≤ lowestSeq (rowsOf rows k)) := by
  obtain ⟨p, q⟩ := foldl_insertShift
    ((rows.map (fun e => rowShift e.2)).eraseDups.map (fun n => (n, lowestSeq (rowsOf rows n)))) [] List.Pairwise.nil
  rw [List.append_nil] at p
  have names := p.map (fun x : Nat × Nat => x.1)
  rw [List.map_map] at names
  have same : (List.map ((fun x : Nat × Nat => x.1) ∘ fun n => (n, lowestSeq (rowsOf rows n)))
      (rows.map (fun e => rowShift e.2)).eraseDups) = (rows.map (fun e => rowShift e.2)).eraseDups := by
    simp [Function.comp_def]
  rw [same] at names
  refine ⟨names.nodup_iff.2 (nodup_eraseDups _), fun n => ?_, ?_⟩
  · rw [shiftOrder, names.mem_iff, List.mem_eraseDups, List.mem_map]
  · rw [shiftOrder, List.pairwise_map]
    refine q.imp_of_mem fun {a b} ha hb hab => ?_
    obtain ⟨n, -, rfl⟩ := List.mem_map.1 (p.mem_iff.1 ha)
    obtain ⟨k, -, rfl⟩ := List.mem_map.1 (p.mem_iff.1 hb)
    exact hab

theorem foldl_min_spec (ns : List Nat) (n : Nat) :
    (ns.foldl min n = n ∨ ns.foldl min n ∈ ns) ∧ ns.foldl min n ≤ n ∧ ∀ k ∈ ns, ns.foldl min n ≤ k := by
  induction ns generalizing n with
  | nil => simp
  | cons a ns ih =>
    obtain ⟨h1, h2, h3⟩ := ih (min n a)
    simp only [List.foldl_cons, List.mem_cons]
    refine ⟨?_, by omega, ?_⟩
    · rcases h1 with h1 | h1
      · rcases Nat.le_total n a with q | q
        · left; rw [h1, Nat.min_eq_left q]
        · right; left; rw [h1, Nat.min_eq_right q]
      · exact .inr (.inr h1)
    · rintro k (rfl | hk)
      · omega
      · exact h3 k hk

/-- The lowest sequence number of some rows is one of theirs, and none is lower. -/
theorem lowestSeq_spec {rows : List (Nat × Row)} (h : rows ≠ []) :
    (∃ e ∈ rows, rowSeq e.2 = lowestSeq rows) ∧ ∀ e ∈ rows, lowestSeq rows ≤ rowSeq e.2 := by
  cases rows with
  | nil => exact absurd rfl h
  | cons x rows =>
    obtain ⟨h1, h2, h3⟩ := foldl_min_spec (rows.map (fun e => rowSeq e.2)) (rowSeq x.2)
    have e : lowestSeq (x :: rows) = (rows.map (fun e => rowSeq e.2)).foldl min (rowSeq x.2) := by
      simp [lowestSeq]
    rw [e]
    refine ⟨?_, fun y hy => ?_⟩
    · rcases h1 with h1 | h1
      · exact ⟨x, List.mem_cons_self, h1.symm⟩
      · obtain ⟨y, hy, hs⟩ := List.mem_map.1 h1
        exact ⟨y, List.mem_cons_of_mem _ hy, hs⟩
    · rcases List.mem_cons.1 hy with rfl | hy
      · exact h2
      · exact h3 _ (List.mem_map.2 ⟨y, hy, rfl⟩)

/-- The readable rows that the rebuild reads. -/
abbrev journalRows (m : Memory) : List (Nat × Row) := (ringRows m).filter (fun e => readable e.2)

theorem mem_journalRows {m : Memory} (h : Memory.wf m = true) (r : Nat) (x : Row) :
    (r, x) ∈ journalRows m ↔ rowAt m r = x ∧ JournalRow m r := by
  rw [journalRows, ringRows, List.filter_filter, mem_filter_rows h _ (by simp)]
  constructor
  · rintro ⟨rfl, hp⟩
    simp only [Bool.and_eq_true] at hp
    exact ⟨rfl, hp.2, hp.1⟩
  · rintro ⟨rfl, hr, hx⟩
    exact ⟨rfl, by simp [hr, hx]⟩

theorem mem_rowsOf {m : Memory} (h : Memory.wf m = true) (n r : Nat) (x : Row) :
    (r, x) ∈ rowsOf (journalRows m) n ↔ rowAt m r = x ∧ ShiftRow m n r := by
  rw [rowsOf, List.mem_filter, mem_journalRows h]
  constructor
  · rintro ⟨⟨rfl, hj⟩, hs⟩
    exact ⟨rfl, hj, by simpa using hs⟩
  · rintro ⟨rfl, hj, hs⟩
    exact ⟨⟨rfl, hj⟩, by simpa using hs⟩

theorem mem_shiftOrder {m : Memory} (h : Memory.wf m = true) (n : Nat) :
    n ∈ shiftOrder (journalRows m) ↔ ∃ r, ShiftRow m n r := by
  rw [(shiftOrder_spec _).2.1]
  constructor
  · rintro ⟨⟨r, x⟩, he, hn⟩
    obtain ⟨rfl, hj⟩ := (mem_journalRows h r x).1 he
    exact ⟨r, hj, hn⟩
  · rintro ⟨r, hj, hn⟩
    exact ⟨(r, rowAt m r), (mem_journalRows h _ _).2 ⟨rfl, hj⟩, hn⟩

theorem lowestSeq_iff {m : Memory} (h : Memory.wf m = true) {n : Nat} (hn : ∃ r, ShiftRow m n r) (v : Nat) :
    LowestSeq m n v ↔ v = lowestSeq (rowsOf (journalRows m) n) := by
  obtain ⟨r, hr⟩ := hn
  have ne : rowsOf (journalRows m) n ≠ [] :=
    List.ne_nil_of_mem ((mem_rowsOf h n r (rowAt m r)).2 ⟨rfl, hr⟩)
  obtain ⟨⟨⟨k, x⟩, hk, hs⟩, low⟩ := lowestSeq_spec ne
  obtain ⟨rfl, hks⟩ := (mem_rowsOf h n k x).1 hk
  have low : ∀ q, ShiftRow m n q → lowestSeq (rowsOf (journalRows m) n) ≤ seqAt m q := fun q hq =>
    low (q, rowAt m q) ((mem_rowsOf h n q _).2 ⟨rfl, hq⟩)
  constructor
  · rintro ⟨⟨q, hq, rfl⟩, hv⟩
    exact Nat.le_antisymm ((hv k hks).trans (le_of_eq hs)) (low q hq)
  · rintro rfl
    exact ⟨⟨k, hks, hs⟩, low⟩

theorem shiftBefore_iff {m : Memory} (h : Memory.wf m = true) {n k : Nat} (hn : ∃ r, ShiftRow m n r)
    (hk : ∃ r, ShiftRow m k r) :
    ShiftBefore m n k ↔ lowestSeq (rowsOf (journalRows m) n) < lowestSeq (rowsOf (journalRows m) k) := by
  unfold ShiftBefore
  simp only [lowestSeq_iff h hn, lowestSeq_iff h hk]
  constructor
  · rintro ⟨v, w, rfl, rfl, hvw⟩; exact hvw
  · exact fun hvw => ⟨_, _, rfl, rfl, hvw⟩

theorem find_kindRow {m : Memory} (h : Memory.wf m = true) (hd : DataWord) (n : Nat) :
    (∀ e, (rowsOf (journalRows m) n).find? (fun e => hasHeader hd e.2) = some e →
      e.2 = rowAt m e.1 ∧ KindRow m hd n e.1)
    ∧ ((rowsOf (journalRows m) n).find? (fun e => hasHeader hd e.2) = none → ∀ r, ¬ KindRow m hd n r) := by
  constructor
  · rintro ⟨r, x⟩ he
    obtain ⟨rfl, hr⟩ := (mem_rowsOf h n r x).1 (List.mem_of_find?_eq_some he)
    have := List.find?_some he
    simp only [hasHeader, Bool.and_eq_true, decide_eq_true_eq] at this
    exact ⟨rfl, hr, this.2⟩
  · intro hnone r hr
    have := List.find?_eq_none.1 hnone (r, rowAt m r) ((mem_rowsOf h n r _).2 ⟨rfl, hr.1⟩)
    simp [hasHeader, hr.1.1.2, hr.2] at this

theorem firstSeq_spec {m : Memory} (h : Memory.wf m = true) {n : Nat} (hn : ∃ r, ShiftRow m n r) :
    FirstSeq m n (firstSeq (journalRows m) n) := by
  obtain ⟨a, b⟩ := find_kindRow h headerShiftOpen n
  unfold firstSeq
  cases hf : (rowsOf (journalRows m) n).find? (fun e => hasHeader headerShiftOpen e.2) with
  | some e =>
    obtain ⟨he, hk⟩ := a e hf
    exact .inl ⟨e.1, hk, by simp only [seqAt, ← he]⟩
  | none => exact .inr ⟨b hf, (lowestSeq_iff h hn _).2 rfl⟩

theorem scannedEntry_shift (rows : List (Nat × Row)) (n : Nat) (next : Option Nat) :
    (scannedEntry rows n next).shift = n ∧ (scannedEntry rows n next).first = firstSeq rows n := by
  unfold scannedEntry
  split
  · exact ⟨rfl, rfl⟩
  · split <;> exact ⟨rfl, rfl⟩

theorem scannedEntries_spec (rows : List (Nat × Row)) (ns : List Nat) :
    (scannedEntries rows ns).map (fun d => d.shift) = ns
      ∧ ∀ d ∈ scannedEntries rows ns, ∃ before after, ns = before ++ d.shift :: after
        ∧ d = scannedEntry rows d.shift after.head? := by
  induction ns with
  | nil => simp [scannedEntries]
  | cons n ns ih =>
    have hs := (scannedEntry_shift rows n ns.head?).1
    refine ⟨by simp [scannedEntries, hs, ih.1], fun d hd => ?_⟩
    rcases List.mem_cons.1 hd with rfl | hd
    · exact ⟨[], ns, by simp [hs], by rw [hs]⟩
    · obtain ⟨before, after, h1, h2⟩ := ih.2 d hd
      exact ⟨n :: before, after, by rw [h1]; rfl, h2⟩

theorem exists_highest {α : Type} (f : α → Nat) (p : α → Prop) (l : List α) (h : ∃ x ∈ l, p x) :
    ∃ x ∈ l, p x ∧ ∀ y ∈ l, p y → f y ≤ f x := by
  induction l with
  | nil => obtain ⟨_, h, _⟩ := h; cases h
  | cons a l ih =>
    by_cases hl : ∃ x ∈ l, p x
    · obtain ⟨x, hx, px, top⟩ := ih hl
      by_cases ha : p a ∧ f x < f a
      · refine ⟨a, List.mem_cons_self, ha.1, fun y hy py => ?_⟩
        rcases List.mem_cons.1 hy with rfl | hy
        · exact Nat.le_refl _
        · exact (top y hy py).trans ha.2.le
      · refine ⟨x, List.mem_cons_of_mem _ hx, px, fun y hy py => ?_⟩
        rcases List.mem_cons.1 hy with rfl | hy
        · by_contra hlt; exact ha ⟨py, by omega⟩
        · exact top y hy py
    · obtain ⟨x, hx, px⟩ := h
      rcases List.mem_cons.1 hx with rfl | hx
      · refine ⟨x, List.mem_cons_self, px, fun y hy py => ?_⟩
        rcases List.mem_cons.1 hy with rfl | hy
        · exact Nat.le_refl _
        · exact absurd ⟨y, hy, py⟩ hl
      · exact absurd ⟨x, hx, px⟩ hl

/-- Of the elements above a bound, 16 or more, the ones with fewer than 16 above them are 16 or more. -/
theorem sixteen_kept {α : Type} (f : α → Nat) (l : List α) (v : Nat)
    (h : 16 ≤ (l.filter (fun d => decide (v < f d))).length) :
    16 ≤ ((l.filter (fun d => decide ((l.filter (fun x => decide (f d < f x))).length < 16))).filter
      (fun d => decide (v < f d))).length := by
  have more : ∀ p q : α → Bool, (∀ x ∈ l, p x = true → q x = true) → (l.filter p).length ≤ (l.filter q).length := by
    intro p q hpq
    rw [← List.countP_eq_length_filter, ← List.countP_eq_length_filter]
    exact List.countP_mono_left hpq
  rw [List.filter_filter]
  by_cases hx : ∃ x ∈ l, v < f x ∧ 16 ≤ (l.filter (fun y => decide (f x < f y))).length
  · obtain ⟨x, -, ⟨hv, hc⟩, top⟩ := exists_highest f _ l hx
    refine hc.trans (more _ _ fun y hm hy => ?_)
    simp only [decide_eq_true_eq] at hy
    simp only [Bool.and_eq_true, decide_eq_true_eq]
    refine ⟨by omega, ?_⟩
    by_contra hlt
    have := top y hm ⟨by omega, by omega⟩
    omega
  · refine h.trans (more _ _ fun y hm hy => ?_)
    simp only [decide_eq_true_eq] at hy
    simp only [Bool.and_eq_true, decide_eq_true_eq]
    refine ⟨hy, ?_⟩
    by_contra hlt
    exact hx ⟨y, hm, hy, by omega⟩

/-- The directory is rebuilt as 10 R194 says. -/
theorem scannedDirectory_spec {m : Memory} (h : Memory.wf m = true) : DirectoryRebuilt m (scannedDirectory m) := by
  obtain ⟨nodup, -, sorted⟩ := shiftOrder_spec (journalRows m)
  obtain ⟨names, entries⟩ := scannedEntries_spec (journalRows m) (shiftOrder (journalRows m))
  have kept : scannedDirectory m = (scannedEntries (journalRows m) (shiftOrder (journalRows m))).filter (fun d =>
      decide (((scannedEntries (journalRows m) (shiftOrder (journalRows m))).filter (fun x =>
        decide (d.first < x.first))).length < 16)) := rfl
  have sub : (scannedDirectory m).Sublist (scannedEntries (journalRows m) (shiftOrder (journalRows m))) := by
    rw [kept]; exact List.filter_sublist
  have carried : ∀ d ∈ scannedEntries (journalRows m) (shiftOrder (journalRows m)), ∃ r, ShiftRow m d.shift r := by
    intro d hd
    rw [← mem_shiftOrder h, ← names]
    exact List.mem_map.2 ⟨d, hd, rfl⟩
  have firsts : ∀ d ∈ scannedEntries (journalRows m) (shiftOrder (journalRows m)), FirstSeq m d.shift d.first := by
    intro d hd
    obtain ⟨_, after, -, he⟩ := entries d hd
    have : d.first = firstSeq (journalRows m) d.shift := by
      conv => lhs; rw [he]
      exact (scannedEntry_shift _ _ _).2
    rw [this]
    exact firstSeq_spec h (carried d hd)
  refine ⟨fun n r hr => ?_, ?_, fun d hd => ?_⟩
  · have : n ∈ (scannedEntries (journalRows m) (shiftOrder (journalRows m))).map (fun d => d.shift) := by
      rw [names]; exact (mem_shiftOrder h n).2 ⟨r, hr⟩
    obtain ⟨d, hd, rfl⟩ := List.mem_map.1 this
    by_cases hc : ((scannedEntries (journalRows m) (shiftOrder (journalRows m))).filter (fun x =>
        decide (d.first < x.first))).length < 16
    · exact .inl ⟨d, by rw [kept]; exact List.mem_filter.2 ⟨hd, by simpa using hc⟩, rfl⟩
    · refine .inr ⟨d.first, firsts d hd, ?_⟩
      rw [kept]
      exact sixteen_kept (fun d : DirEntry => d.first) _ _ (by omega)
  · have all : (scannedEntries (journalRows m) (shiftOrder (journalRows m))).Pairwise (fun d e =>
        d.shift ≠ e.shift ∧ lowestSeq (rowsOf (journalRows m) d.shift) ≤ lowestSeq (rowsOf (journalRows m) e.shift)) := by
      have both := (List.nodup_iff_pairwise_ne.1 nodup).and sorted
      rw [← names, List.pairwise_map] at both
      exact both
    refine (all.imp_of_mem fun {d e} hd he hde => ⟨hde.1, fun hb => ?_⟩).sublist sub
    have := (shiftBefore_iff h (carried e he) (carried d hd)).1 hb
    omega
  · have hall := sub.subset hd
    refine ⟨?_, firsts d hall, ?_⟩
    · rw [kept] at hd
      have := (List.mem_filter.1 hd).2
      simp only [decide_eq_true_eq] at this
      exact lt_of_le_of_lt ((sub.filter _).length_le) this
    · obtain ⟨before, after, split, he⟩ := entries d hall
      obtain ⟨a, b⟩ := find_kindRow h headerShiftClose d.shift
      unfold scannedEntry at he
      cases hf : (rowsOf (journalRows m) d.shift).find? (fun e => hasHeader headerShiftClose e.2) with
      | some e =>
        obtain ⟨hx, hk⟩ := a e hf
        rw [hf] at he
        simp only at he
        refine ⟨fun _ => ⟨e.1, hk, ?_, ?_⟩, fun hno => absurd hk (hno e.1)⟩
        · rw [he, seqAt, ← hx]
        · rw [he, ← hx]
      | none =>
        rw [hf] at he
        simp only at he
        refine ⟨fun hyes => absurd hyes (by simpa using b hf), fun _ => ⟨fun latest => ?_, fun k hk others => ?_⟩⟩
        · cases after with
          | nil => rw [he]; exact ⟨rfl, rfl⟩
          | cons k after =>
            exfalso
            have hk : k ∈ shiftOrder (journalRows m) := by rw [split]; simp
            obtain ⟨r, hr⟩ := (mem_shiftOrder h k).1 hk
            rw [split] at nodup sorted
            have hne : k ≠ d.shift := by
              rintro rfl
              have := (List.nodup_append.1 nodup).2.1
              simp at this
            have hb := (shiftBefore_iff h ⟨r, hr⟩ (carried d hall)).1 (latest k r hr hne)
            have := (List.pairwise_cons.1 (List.pairwise_append.1 sorted).2.1).1 k (by simp)
            omega
        · obtain ⟨v, w, -, ⟨⟨r, hr, -⟩, -⟩, -⟩ := id hk
          have hlt := (shiftBefore_iff h (carried d hall) ⟨r, hr⟩).1 hk
          have hm : k ∈ shiftOrder (journalRows m) := (mem_shiftOrder h k).2 ⟨r, hr⟩
          rw [split] at hm nodup sorted
          have hafter : k ∈ after := by
            rcases List.mem_append.1 hm with hm | hm
            · have := (List.pairwise_append.1 sorted).2.2 k hm d.shift (by simp)
              omega
            · rcases List.mem_cons.1 hm with rfl | hm
              · omega
              · exact hm
          cases after with
          | nil => cases hafter
          | cons n after =>
            have hn : n ∈ shiftOrder (journalRows m) := by rw [split]; simp
            obtain ⟨q, hq⟩ := (mem_shiftOrder h n).1 hn
            have hdn := (List.pairwise_cons.1 (List.pairwise_append.1 sorted).2.1).1 n (by simp)
            have hsame : n = k := by
              by_contra hne
              have hnd : n ≠ d.shift := by
                rintro rfl
                have := (List.nodup_append.1 nodup).2.1
                simp at this
              have hk' : k ∈ after := by
                rcases List.mem_cons.1 hafter with rfl | hk'
                · exact absurd rfl hne
                · exact hk'
              have hnk := (List.pairwise_cons.1 (List.pairwise_cons.1 (List.pairwise_append.1 sorted).2.1).2).1 k hk'
              rcases others n q hq hnd hne with hb | hb
              · have := (shiftBefore_iff h ⟨q, hq⟩ (carried d hall)).1 hb
                omega
              · have := (shiftBefore_iff h ⟨r, hr⟩ ⟨q, hq⟩).1 hb
                omega
            subst hsame
            rw [he]
            exact ⟨rfl, _, firstSeq_spec h ⟨r, hr⟩, rfl⟩

end Sys2Proof.Machine
end

