-- ==== Sys2Proof/Laws/Abandoned.lean ====
section
/-!
SUPPORT. The span of a shift found OPEN and the ABANDONED record built from it (10 R195).
-/

namespace Sys2Proof.Machine

/-! ### The span -/

/-- Lists that rise by one key and have the same members are the same. -/
theorem eq_of_rising_key {α : Type} (key : α → Nat) {l k : List α} (hl : l.Pairwise (fun a b => key a < key b))
    (hk : k.Pairwise (fun a b => key a < key b)) (same : ∀ x, x ∈ l ↔ x ∈ k) : l = k := by
  induction l generalizing k with
  | nil => cases k with
    | nil => rfl
    | cons b k => exact absurd ((same b).2 List.mem_cons_self) List.not_mem_nil
  | cons a l ih => cases k with
    | nil => exact absurd ((same a).1 List.mem_cons_self) List.not_mem_nil
    | cons b k =>
      obtain ⟨la, hl'⟩ := List.pairwise_cons.1 hl
      obtain ⟨kb, hk'⟩ := List.pairwise_cons.1 hk
      have hab : a = b := by
        rcases List.mem_cons.1 ((same a).1 List.mem_cons_self) with h | h
        · exact h
        · rcases List.mem_cons.1 ((same b).2 List.mem_cons_self) with h' | h'
          · exact h'.symm
          · have := la b h'; have := kb a h; omega
      subst hab
      refine congrArg _ (ih hl' hk' fun x => ?_)
      constructor
      · intro hx
        rcases List.mem_cons.1 ((same x).1 (List.mem_cons_of_mem _ hx)) with rfl | h
        · have := la x hx; omega
        · exact h
      · intro hx
        rcases List.mem_cons.1 ((same x).2 (List.mem_cons_of_mem _ hx)) with rfl | h
        · have := kb x hx; omega
        · exact h

/-- The rows of a span lie in the ring, each once, in ring order. -/
theorem spanRows_spec {f : Nat} (hf : 32 ≤ f ∧ f < 2048) (w : Nat) :
    (spanRows f w).Pairwise (fun a b => (a + 2016 - f) % 2016 < (b + 2016 - f) % 2016)
      ∧ ∀ r, r ∈ spanRows f w ↔ (32 ≤ r ∧ r < 2048) ∧ (r + 2016 - f) % 2016 ≤ (w + 2016 - f) % 2016 := by
  have dist : ∀ k, k < 2016 → ((f - 32 + k) % 2016 + 32 + 2016 - f) % 2016 = k := by omega
  constructor
  · rw [List.pairwise_map]
    refine List.pairwise_lt_range.imp_of_mem fun {a b} ha hb hab => ?_
    have ha := List.mem_range.1 ha
    have hb := List.mem_range.1 hb
    rw [dist a (by omega), dist b (by omega)]
    exact hab
  · intro r
    simp only [List.mem_map, List.mem_range]
    constructor
    · rintro ⟨k, hk, rfl⟩
      have := dist k (by omega)
      omega
    · rintro ⟨hr, hd⟩
      exact ⟨(r + 2016 - f) % 2016, by omega, by omega⟩

/-- A row with its content. -/
abbrev rowPair (m : Memory) (r : Nat) : Nat × Row := (r, rowAt m r)

/-- The listed rows of a span, chosen by a test that no erased row meets, are those of its rows. -/
theorem ringSpan_filter {m : Memory} (h : Memory.wf m = true) {f w : Nat} (hf : 32 ≤ f ∧ f < 2048)
    (hw : 32 ≤ w ∧ w < 2048) (p : Nat × Row → Bool) (hp : ∀ r, p (r, erasedRow) = false) :
    (ringSpan m f w).filter p = ((spanRows f w).filter (fun r => p (rowPair m r))).map (rowPair m) := by
  obtain ⟨order, mem⟩ := spanRows_spec hf w
  have rising : Rising (ringRows m) := ((rising_of_risingFrom (wf_rising h)).1).filter _
  have inRing : ∀ e ∈ ringRows m, 32 ≤ e.1 ∧ e.1 < 2048 := by
    intro e he
    simpa [ringRow] using (List.mem_filter.1 he).2
  have span : ∀ e, e ∈ ringSpan m f w ↔ e ∈ ringRows m ∧ (e.1 + 2016 - f) % 2016 ≤ (w + 2016 - f) % 2016 := by
    intro e
    unfold ringSpan
    by_cases hfw : f ≤ w
    · simp only [if_pos hfw, List.mem_filter, decide_eq_true_eq]
      refine and_congr_right fun he => ?_
      have := inRing e he
      omega
    · simp only [if_neg hfw, List.mem_append, List.mem_filter, decide_eq_true_eq, ← and_or_left]
      refine and_congr_right fun he => ?_
      have := inRing e he
      omega
  refine eq_of_rising_key (fun e => (e.1 + 2016 - f) % 2016) (List.Pairwise.filter _ ?_) ?_ ?_
  · unfold ringSpan
    by_cases hfw : f ≤ w
    · simp only [if_pos hfw]
      refine (rising.filter _).imp_of_mem fun {a b} ha hb hab => ?_
      have ha := List.mem_filter.1 ha
      have hb := List.mem_filter.1 hb
      simp only [decide_eq_true_eq] at ha hb
      omega
    · simp only [if_neg hfw]
      refine List.pairwise_append.2 ⟨(rising.filter _).imp_of_mem fun {a b} ha hb hab => ?_,
        (rising.filter _).imp_of_mem fun {a b} ha hb hab => ?_, fun a ha b hb => ?_⟩
      all_goals
        have ha := List.mem_filter.1 ha
        have hb := List.mem_filter.1 hb
        simp only [decide_eq_true_eq] at ha hb
        have := inRing a ha.1
        have := inRing b hb.1
        omega
  · rw [List.pairwise_map]
    exact order.filter _
  · rintro ⟨r, x⟩
    simp only [List.mem_filter, span, List.mem_map, Prod.mk.injEq, ringRows, mem_iff h, mem]
    constructor
    · rintro ⟨⟨⟨⟨rfl, -⟩, hr⟩, hd⟩, hx⟩
      exact ⟨r, ⟨⟨by simpa [ringRow] using hr, hd⟩, hx⟩, rfl, rfl⟩
    · rintro ⟨k, ⟨⟨hr, hd⟩, hx⟩, rfl, rfl⟩
      refine ⟨⟨⟨⟨rfl, fun he => ?_⟩, by simpa [ringRow] using hr⟩, hd⟩, hx⟩
      have : p (k, erasedRow) = true := he ▸ hx
      rw [hp] at this
      cases this

/-- The row of a sequence number that one readable row carries. -/
theorem rowOfSeq_eq {m : Memory} (h : Memory.wf m = true) {f v : Nat} (hf : JournalRow m f) (hv : seqAt m f = v)
    (one : ∀ r, JournalRow m r → seqAt m r = v → r = f) : rowOfSeq m v = f := by
  unfold rowOfSeq
  cases hs : (readableSeqs m).find? (fun e => decide (e.2 = v)) with
  | none =>
    have := List.find?_eq_none.1 hs (f, v) ((mem_readableSeqs h f v).2 ⟨hf, hv⟩)
    simp at this
  | some e =>
    obtain ⟨r, n⟩ := e
    have hn := List.find?_some hs
    simp only [decide_eq_true_eq] at hn
    obtain ⟨hr, hrn⟩ := (mem_readableSeqs h r n).1 (List.mem_of_find?_eq_some hs)
    simpa using one r hr (hrn.trans hn)

/-! ### The totals -/

/-- Rows that read FREE add nothing. -/
theorem totals_foldl_skip (n : Nat) (l : List (Nat × Row)) (t : Totals) :
    (l.map (fun e => e.2)).foldl (addSpanRow n) t
      = ((l.filter (fun e => decide (e.2 ≠ erasedRow))).map (fun e => e.2)).foldl (addSpanRow n) t := by
  induction l generalizing t with
  | nil => rfl
  | cons e l ih =>
    by_cases he : e.2 = erasedRow
    · have free : addSpanRow n t erasedRow = t := by simp [addSpanRow]
      simp [he, free, ih]
    · simp [he, ih]

/-- A row of a shift of the kind a header names. -/
def isKind (m : Memory) (h : DataWord) (n r : Nat) : Bool := decide (KindRow m h n r)

theorem isKind_eq {m : Memory} {r : Nat} (hr : ringRow r = true) (h : DataWord) (n : Nat) :
    isKind m h n r = (decide (rowShift (rowAt m r) = n) && hasHeader h (rowAt m r)) := by
  by_cases a : readable (rowAt m r) = true <;> by_cases b : rowShift (rowAt m r) = n <;>
    by_cases c : readableHeader (rowAt m r) = some h <;> simp [isKind, hasHeader, hr, a, b, c]

/-- What one row of the span adds (10 R195): a VOID or DAMAGED row an event not journalled, a LEG or EVENT row of the shift
its own. -/
theorem addSpanRow_eq {m : Memory} {r : Nat} (hr : ringRow r = true) (n : Nat) (t : Totals) :
    addSpanRow n t (rowAt m r) =
      if classify (rowAt m r) = .void ∨ classify (rowAt m r) = .damaged then
        { t with notJournalled := satAdd 65535 t.notJournalled 1 }
      else if isKind m headerLeg n r = true then addLegRow t (rowBytes (rowAt m r))
      else if isKind m headerEvent n r = true then addEventRow t (rowBytes (rowAt m r))
      else t := by
  rw [isKind_eq hr, isKind_eq hr]
  unfold addSpanRow
  cases hc : classify (rowAt m r) <;> simp [hc, hasHeader, readable, RowClass.readable]
  all_goals
    by_cases hs : rowShift (rowAt m r) = n <;> simp [hs]

/-- The header of a row names one kind. -/
theorem isKind_one {m : Memory} {n r : Nat} {a b : DataWord} (h : isKind m a n r = true) (hab : a ≠ b) :
    isKind m b n r = false := by
  simp only [isKind, decide_eq_true_eq, decide_eq_false_iff_not] at h ⊢
  rintro ⟨-, hb⟩
  rw [h.2] at hb
  exact hab (by simpa using hb)

theorem isKind_readable {m : Memory} {n r : Nat} {a : DataWord} (h : isKind m a n r = true) :
    ¬ (classify (rowAt m r) = .void ∨ classify (rowAt m r) = .damaged) := by
  simp only [isKind, decide_eq_true_eq] at h
  have := h.1.1.2
  rintro (hc | hc) <;> simp [readable, hc, RowClass.readable] at this

/-- What a row of the ring is to the record of a shift, and what it adds. -/
theorem spanRow_cases {m : Memory} {r : Nat} (hr : ringRow r = true) (n : Nat) :
    let lost := decide (classify (rowAt m r) = .void ∨ classify (rowAt m r) = .damaged)
    (lost = true ∧ isKind m headerLeg n r = false ∧ isKind m headerEvent n r = false
        ∧ ∀ t, addSpanRow n t (rowAt m r) = { t with notJournalled := satAdd 65535 t.notJournalled 1 })
      ∨ (lost = false ∧ isKind m headerLeg n r = true ∧ isKind m headerEvent n r = false
        ∧ ∀ t, addSpanRow n t (rowAt m r) = addLegRow t (rowBytes (rowAt m r)))
      ∨ (lost = false ∧ isKind m headerLeg n r = false ∧ isKind m headerEvent n r = true
        ∧ ∀ t, addSpanRow n t (rowAt m r) = addEventRow t (rowBytes (rowAt m r)))
      ∨ (lost = false ∧ isKind m headerLeg n r = false ∧ isKind m headerEvent n r = false
        ∧ ∀ t, addSpanRow n t (rowAt m r) = t) := by
  simp only [addSpanRow_eq hr, decide_eq_true_eq, decide_eq_false_iff_not]
  cases hl : isKind m headerLeg n r
  · cases he : isKind m headerEvent n r
    · by_cases hv : classify (rowAt m r) = .void ∨ classify (rowAt m r) = .damaged <;> simp [hv]
    · simp [isKind_readable he]
  · simp [isKind_readable hl, isKind_one hl (b := headerEvent) (by decide)]

/-- A count that a fold raises by a row's share, held at its ceiling, is the sum of the shares held at the ceiling. -/
theorem foldl_count {α : Type} {step : α → Nat → α} {g : α → Nat} {cap : Nat} {p : Nat → Bool} {v : Nat → Nat}
    {rows : List Nat} (h : ∀ t, ∀ r ∈ rows, g t ≤ cap → g (step t r) = if p r = true then satAdd cap (g t) (v r) else g t)
    {t : α}
    (ht : g t ≤ cap) : g (rows.foldl step t) = min cap (g t + ((rows.filter p).map v).sum) := by
  induction rows generalizing t with
  | nil => simp [ht]
  | cons r rows ih =>
    have hr := h t r List.mem_cons_self ht
    have ih := @ih fun t k hk => h t k (List.mem_cons_of_mem _ hk)
    rw [List.foldl_cons]
    cases hp : p r
    · rw [if_neg (by simp [hp])] at hr
      rw [ih (by rw [hr]; exact ht), hr]
      simp [hp]
    · rw [if_pos hp, satAdd] at hr
      rw [ih (by rw [hr]; omega), hr]
      simp only [hp, List.filter_cons_of_pos, List.map_cons, List.sum_cons]
      omega

theorem sum_ones (l : List Nat) : (l.map (fun _ => 1)).sum = l.length := by simp

/-- The event type of a row. -/
def eventIs (m : Memory) (n r k : Nat) : Bool :=
  isKind m headerEvent n r && decide (field (rowBytes (rowAt m r)) 8 1 = k)

/-- A leg whose VOIDED flag is so. -/
def legIs (m : Memory) (n r : Nat) (voided : Bool) : Bool :=
  isKind m headerLeg n r && (decide (field (rowBytes (rowAt m r)) 16 1 / 2 % 2 = 1) == voided)

/-- What a LEG row adds to each count. -/
theorem addLegRow_counts (t : Totals) (b : List Byte) :
    let v := decide (field b 16 1 / 2 % 2 = 1)
    let u := addLegRow t b
    u.legsClosed = (if v then t.legsClosed else satAdd 9999 t.legsClosed 1)
      ∧ u.legsVoided = (if v then satAdd 9999 t.legsVoided 1 else t.legsVoided)
      ∧ u.sharedLegs = (if v then t.sharedLegs else satAdd 9999 t.sharedLegs (decide (field b 11 1 = 2)).toNat)
      ∧ u.hiredMetres = satAdd max32 t.hiredMetres (field b 64 4)
      ∧ u.hiredSeconds = satAdd 429496729 t.hiredSeconds (field b 68 4)
      ∧ u.sharedSeconds = satAdd 429496729 t.sharedSeconds (field b 72 4)
      ∧ (u.lateCount = t.lateCount ∧ u.lateSum = t.lateSum ∧ u.unhiredMetres = t.unhiredMetres
        ∧ u.unresolved = t.unresolved ∧ u.interruptions = t.interruptions ∧ u.signFaults = t.signFaults
        ∧ u.unmetered = t.unmetered ∧ u.assists = t.assists ∧ u.notJournalled = t.notJournalled) := by
  unfold addLegRow addLegCounts addMoney
  by_cases v : field b 16 1 / 2 % 2 = 1
  · simp [v]
  · simp only [v, decide_false, Bool.false_eq_true, if_false]
    split <;> simp

/-- What an EVENT row adds to each count. -/
theorem addEventRow_counts (t : Totals) (b : List Byte) :
    let u := addEventRow t b
    let k := field b 8 1
    u.lateCount = (if k = 5 then satAdd 65535 t.lateCount 1 else t.lateCount)
      ∧ u.lateSum = (if k = 5 then satAdd maxMoney t.lateSum (field b 20 4) else t.lateSum)
      ∧ u.interruptions = (if k = 6 then satAdd 65535 t.interruptions 1 else t.interruptions)
      ∧ u.signFaults = (if k = 2 then satAdd 65535 t.signFaults 1 else t.signFaults)
      ∧ u.unmetered = (if k = 3 then satAdd 65535 t.unmetered 1 else t.unmetered)
      ∧ u.assists = (if k = 4 then satAdd 65535 t.assists 1 else t.assists)
      ∧ u = { t with lateCount := u.lateCount, lateSum := u.lateSum, interruptions := u.interruptions
                     signFaults := u.signFaults, unmetered := u.unmetered, assists := u.assists } := by
  unfold addEventRow
  split <;> simp_all

theorem addEventRow_others (t : Totals) (b : List Byte) :
    let u := addEventRow t b
    u.legsClosed = t.legsClosed ∧ u.legsVoided = t.legsVoided ∧ u.sharedLegs = t.sharedLegs
      ∧ u.hiredMetres = t.hiredMetres ∧ u.unhiredMetres = t.unhiredMetres ∧ u.hiredSeconds = t.hiredSeconds
      ∧ u.sharedSeconds = t.sharedSeconds ∧ u.unresolved = t.unresolved ∧ u.notJournalled = t.notJournalled := by
  unfold addEventRow
  split <;> simp

/-- The counts of the record are the sums over its span, each held at its ceiling (10 R195). -/
theorem totals_counts {m : Memory} {rows : List Nat} (hr : ∀ r ∈ rows, ringRow r = true) (n : Nat) :
    let u := rows.foldl (fun t r => addSpanRow n t (rowAt m r)) Totals.zero
    let legs := rows.filter (isKind m headerLeg n)
    let event := fun k => rows.filter (fun r => eventIs m n r k)
    let sum := fun (i : Nat) (l : List Nat) => (l.map (fun r => field (rowBytes (rowAt m r)) i 4)).sum
    u.legsClosed = min 9999 (rows.filter (fun r => legIs m n r false)).length
      ∧ u.legsVoided = min 9999 (rows.filter (fun r => legIs m n r true)).length
      ∧ u.sharedLegs = min 9999 (rows.filter (fun r => legIs m n r false
          && decide (field (rowBytes (rowAt m r)) 11 1 = 2))).length
      ∧ u.lateCount = min 65535 (event 5).length
      ∧ u.lateSum = min maxMoney (sum 20 (event 5))
      ∧ u.hiredMetres = min max32 (sum 64 legs)
      ∧ u.unhiredMetres = 0
      ∧ u.hiredSeconds = min 429496729 (sum 68 legs)
      ∧ u.sharedSeconds = min 429496729 (sum 72 legs)
      ∧ u.unresolved = 0
      ∧ u.interruptions = min 65535 (event 6).length
      ∧ u.signFaults = min 65535 (event 2).length
      ∧ u.unmetered = min 65535 (event 3).length
      ∧ u.assists = min 65535 (event 4).length
      ∧ u.notJournalled = min 65535 (rows.filter (fun r => decide (classify (rowAt m r) = .void
          ∨ classify (rowAt m r) = .damaged))).length := by
  have count : ∀ (g : Totals → Nat) (cap : Nat) (p : Nat → Bool) (v : Nat → Nat), g Totals.zero = 0 →
      (∀ t, ∀ r ∈ rows, g t ≤ cap → g (addSpanRow n t (rowAt m r)) = if p r = true then satAdd cap (g t) (v r) else g t) →
      g (rows.foldl (fun t r => addSpanRow n t (rowAt m r)) Totals.zero) = min cap ((rows.filter p).map v).sum := by
    intro g cap p v hz h
    rw [foldl_count (g := g) h (by rw [hz]; exact Nat.zero_le _), hz, Nat.zero_add]
  have ones : ∀ l : List Nat, l.length = (l.map (fun _ => 1)).sum := fun l => (sum_ones l).symm
  simp only [ones]
  have zero : ∀ g : Totals → Nat, g Totals.zero = 0 →
      (∀ t, ∀ r ∈ rows, g t ≤ 0 → g (addSpanRow n t (rowAt m r)) = g t) →
      g (rows.foldl (fun t r => addSpanRow n t (rowAt m r)) Totals.zero) = 0 := by
    intro g hz h
    rw [count g 0 (fun _ => false) (fun _ => 0) hz (by simpa using h)]
    simp
  refine ⟨count _ _ _ _ rfl ?_, count _ _ _ _ rfl ?_, count _ _ _ _ rfl ?_, count _ _ _ _ rfl ?_, count _ _ _ _ rfl ?_,
    count _ _ _ _ rfl ?_, zero _ rfl ?_, count _ _ _ _ rfl ?_, count _ _ _ _ rfl ?_, zero _ rfl ?_,
    count _ _ _ _ rfl ?_, count _ _ _ _ rfl ?_, count _ _ _ _ rfl ?_, count _ _ _ _ rfl ?_, count _ _ _ _ rfl ?_⟩
  all_goals
    intro t r hm ht
    obtain ⟨l1, l2, l3, l4, l5, l6, l7, l8, l9, l10, l11, l12, l13, l14, l15⟩ :=
      addLegRow_counts t (rowBytes (rowAt m r))
    obtain ⟨e1, e2, e3, e4, e5, e6, -⟩ := addEventRow_counts t (rowBytes (rowAt m r))
    obtain ⟨o1, o2, o3, o4, o5, o6, o7, o8, o9⟩ := addEventRow_others t (rowBytes (rowAt m r))
    rcases spanRow_cases (m := m) (hr r hm) n with ⟨a, b, c, d⟩ | ⟨a, b, c, d⟩ | ⟨a, b, c, d⟩ | ⟨a, b, c, d⟩ <;>
      simp only [d, legIs, eventIs, a, b, c] <;>
      simp [l1, l2, l3, l4, l5, l6, l7, l8, l9, l10, l11, l12, l13, l14, l15, e1, e2, e3, e4, e5, e6, o1, o2, o3, o4, o5,
        o6, o7, o8, o9]
  · rcases Nat.mod_two_eq_zero_or_one (field (rowBytes (rowAt m r)) 16 1 / 2) with h | h <;> simp [h]
  · rcases Nat.mod_two_eq_zero_or_one (field (rowBytes (rowAt m r)) 16 1 / 2) with h | h <;>
      by_cases k : field (rowBytes (rowAt m r)) 11 1 = 2 <;> simp [h, k]
    simpa [satAdd] using ht

/-! ### The money -/

/-- The five sums of money of a record. -/
def Totals.money (t : Totals) : List Nat := [t.fare, t.extras, t.tips, t.card, t.cash]

/-- The five amounts of a LEG row. -/
def legAmounts (b : List Byte) : List Nat := [field b 40 4, field b 44 4, field b 52 4, tenderSum b 2, tenderSum b 1]

theorem addMoney_money (a b c d e : Nat) (t : Totals) :
    let sums := addedMoney t.money [a, b, c, d, e]
    let u := addMoney a b c d e t
    u.money = (if moneyFits sums then sums else t.money)
      ∧ u.moneyHeld = (if moneyFits sums then t.moneyHeld else 1) := by
  have fits : moneyFits (addedMoney t.money [a, b, c, d, e]) = true ↔ t.fare + a ≤ maxMoney ∧ t.extras + b ≤ maxMoney
      ∧ t.tips + c ≤ maxMoney ∧ t.card + d ≤ maxMoney ∧ t.cash + e ≤ maxMoney := by
    simp [Totals.money, maxMoney]
  by_cases k : t.fare + a ≤ maxMoney ∧ t.extras + b ≤ maxMoney ∧ t.tips + c ≤ maxMoney ∧ t.card + d ≤ maxMoney
      ∧ t.cash + e ≤ maxMoney
  · simp only [if_pos (fits.2 k), addMoney, if_pos k]
    exact ⟨rfl, trivial⟩
  · simp only [if_neg (mt fits.1 k), addMoney, if_neg k]
    exact ⟨rfl, trivial⟩

/-- What a LEG row adds to the money (08 R150): nothing when it is voided. -/
theorem addLegRow_money (t : Totals) (b : List Byte) :
    let sums := addedMoney t.money (legAmounts b)
    let u := addLegRow t b
    u.money = (if field b 16 1 / 2 % 2 = 1 then t.money else if moneyFits sums then sums else t.money)
      ∧ u.moneyHeld = (if field b 16 1 / 2 % 2 = 1 then t.moneyHeld else if moneyFits sums then t.moneyHeld else 1) := by
  unfold addLegRow addLegCounts
  by_cases v : field b 16 1 / 2 % 2 = 1
  · simp [v, Totals.money]
  · simp only [v, decide_false, Bool.false_eq_true, if_false]
    exact addMoney_money ..

theorem addEventRow_money (t : Totals) (b : List Byte) :
    (addEventRow t b).money = t.money ∧ (addEventRow t b).moneyHeld = t.moneyHeld := by
  unfold addEventRow
  split <;> simp [Totals.money]

/-- Sums that fit fitted before. -/
theorem moneyFits_of_added {x y : List Nat} (h : x.length ≤ y.length) (fits : moneyFits (addedMoney x y) = true) :
    moneyFits x = true := by
  induction x generalizing y with
  | nil => rfl
  | cons a x ih =>
    cases y with
    | nil => simp at h
    | cons b y =>
      simp only [List.length_cons, Nat.add_le_add_iff_right] at h
      simp only [moneyFits, addedMoney, List.zipWith_cons_cons, List.all_cons, Bool.and_eq_true, decide_eq_true_eq]
        at fits ih ⊢
      exact ⟨by omega, ih h fits.2⟩

/-- The money of the record: leg by leg under the group rule, and held as soon as the plain sums do not fit. -/
theorem totals_money {m : Memory} {rows : List Nat} (hr : ∀ r ∈ rows, ringRow r = true) (n : Nat) :
    ∀ (t : Totals) (plain : List Nat), plain.length = 5 →
      ((moneyFits plain = true ∧ t.moneyHeld = 0 ∧ t.money = plain) ∨ (moneyFits plain = false ∧ t.moneyHeld = 1)) →
      let u := rows.foldl (fun t r => addSpanRow n t (rowAt m r)) t
      let paid := rows.filter (fun r => legIs m n r false)
      let amounts := fun r => legAmounts (rowBytes (rowAt m r))
      u.money = paid.foldl (fun sums r => if moneyFits (addedMoney sums (amounts r)) then addedMoney sums (amounts r)
          else sums) t.money
        ∧ u.moneyHeld = if moneyFits (paid.foldl (fun sums r => addedMoney sums (amounts r)) plain) then 0 else 1 := by
  induction rows with
  | nil =>
    intro t plain _ h
    rcases h with ⟨a, b, c⟩ | ⟨a, b⟩
    · exact ⟨rfl, by simp only [List.filter_nil, List.foldl_nil, a, b, if_true]⟩
    · exact ⟨rfl, by simp only [List.filter_nil, List.foldl_nil, a, b]; rfl⟩
  | cons r rows ih =>
    intro t plain hp h
    have ih := ih fun k hk => hr k (List.mem_cons_of_mem _ hk)
    obtain ⟨l1, l2⟩ := addLegRow_money t (rowBytes (rowAt m r))
    obtain ⟨e1, e2⟩ := addEventRow_money t (rowBytes (rowAt m r))
    have other (h1 : (addSpanRow n t (rowAt m r)).money = t.money)
        (h2 : (addSpanRow n t (rowAt m r)).moneyHeld = t.moneyHeld) := by
      have := ih (addSpanRow n t (rowAt m r)) plain hp (by rw [h1, h2]; exact h)
      rwa [h1] at this
    rcases spanRow_cases (m := m) (hr r List.mem_cons_self) n with ⟨a, b, c, d⟩ | ⟨a, b, c, d⟩ | ⟨a, b, c, d⟩ | ⟨a, b, c, d⟩
    · have paid : legIs m n r false = false := by simp [legIs, b]
      simpa only [List.foldl_cons, List.filter_cons, paid, Bool.false_eq_true, if_false] using
        other (by rw [d]; rfl) (by rw [d])
    · rcases Nat.mod_two_eq_zero_or_one (field (rowBytes (rowAt m r)) 16 1 / 2) with v | v
      · have paid : legIs m n r false = true := by simp [legIs, b, v]
        simp only [v, Nat.zero_ne_one, if_false] at l1 l2
        rw [← d] at l1 l2
        have := ih (addSpanRow n t (rowAt m r)) (addedMoney plain (legAmounts (rowBytes (rowAt m r))))
          (by simp [legAmounts, hp]) (by
            rcases h with ⟨x, y, z⟩ | ⟨x, y⟩
            · rw [l1, l2, z, y]
              cases hf : moneyFits (addedMoney plain (legAmounts (rowBytes (rowAt m r))))
              · exact .inr ⟨rfl, rfl⟩
              · exact .inl ⟨rfl, rfl, rfl⟩
            · refine .inr ⟨Bool.eq_false_iff.2 fun hf => ?_, by rw [l2, y, ite_self]⟩
              rw [moneyFits_of_added (by simp [legAmounts, hp]) hf] at x
              cases x)
        rw [l1] at this
        simpa only [List.foldl_cons, List.filter_cons, paid, if_true] using this
      · simp only [v, if_true] at l1 l2
        have paid : legIs m n r false = false := by simp [legIs, v]
        simpa only [List.foldl_cons, List.filter_cons, paid, Bool.false_eq_true, if_false] using
          other (by rw [d]; exact l1) (by rw [d]; exact l2)
    · have paid : legIs m n r false = false := by simp [legIs, b]
      simpa only [List.foldl_cons, List.filter_cons, paid, Bool.false_eq_true, if_false] using
        other (by rw [d]; exact e1) (by rw [d]; exact e2)
    · have paid : legIs m n r false = false := by simp [legIs, b]
      simpa only [List.foldl_cons, List.filter_cons, paid, Bool.false_eq_true, if_false] using
        other (by rw [d]) (by rw [d])

/-! ### The times and the record -/

/-- The readable rows of a shift in a span. -/
theorem mine_eq {m : Memory} (h : Memory.wf m = true) {f w : Nat} (hf : 32 ≤ f ∧ f < 2048) (hw : 32 ≤ w ∧ w < 2048)
    (n : Nat) : (ringSpan m f w).filter (fun e => readable e.2 && decide (rowShift e.2 = n))
      = ((spanRows f w).filter (fun r => readable (rowAt m r) && decide (rowShift (rowAt m r) = n))).map (rowPair m) :=
  ringSpan_filter h hf hw _ (by simp)

theorem earliest_spec {ts : List DateTime} (h : ts ≠ []) : earliest ts ∈ ts ∧ ∀ t ∈ ts, (earliest ts).key ≤ t.key := by
  cases ts with
  | nil => exact absurd rfl h
  | cons t ts =>
    have fold : ∀ (l : List DateTime) (b : DateTime),
        let e := l.foldl (fun b t => if t.key < b.key then t else b) b
        (e = b ∨ e ∈ l) ∧ e.key ≤ b.key ∧ ∀ t ∈ l, e.key ≤ t.key := by
      intro l
      induction l with
      | nil => simp
      | cons a l ih =>
        intro b
        obtain ⟨x, y, z⟩ := ih (if a.key < b.key then a else b)
        simp only [List.foldl_cons, List.mem_cons]
        split at x <;> rename_i hab <;> simp only [hab, if_true, if_false] at x y z ⊢
        · exact ⟨x.elim (fun e => .inr (.inl e)) (fun e => .inr (.inr e)), by omega, by
            rintro t (rfl | ht)
            · exact y
            · exact z t ht⟩
        · exact ⟨x.elim .inl (fun e => .inr (.inr e)), y, by
            rintro t (rfl | ht)
            · omega
            · exact z t ht⟩
    obtain ⟨x, y, z⟩ := fold ts t
    exact ⟨by simpa [earliest] using x, by simpa [earliest] using ⟨y, z⟩⟩

/-- The time by which a row stands for the close time. -/
theorem rowTime_iff {m : Memory} {n r : Nat} (hr : ShiftRow m n r) (t : DateTime) :
    rowTime (rowAt m r) = some t ↔
      (KindRow m headerLeg n r ∧ timeAt (rowBytes (rowAt m r)) 24 = t)
        ∨ (KindRow m headerEvent n r ∧ timeAt (rowBytes (rowAt m r)) 10 = t)
        ∨ (KindRow m headerShiftOpen n r ∧ timeAt (rowBytes (rowAt m r)) 12 = t) := by
  have kind : ∀ a, hasHeader a (rowAt m r) = decide (readableHeader (rowAt m r) = some a) := by
    intro a; simp [hasHeader, hr.1.2]
  have hs : ∀ a, KindRow m a n r ↔ readableHeader (rowAt m r) = some a := fun a => and_iff_right hr
  simp only [rowTime, kind, decide_eq_true_eq, hs]
  cases readableHeader (rowAt m r) with
  | none => simp
  | some a =>
    simp only [Option.some.injEq]
    by_cases h1 : a = headerLeg
    · subst h1; simp [show headerLeg ≠ headerEvent by decide, show headerLeg ≠ headerShiftOpen by decide]
    · by_cases h2 : a = headerEvent
      · subst h2; simp [h1, show headerEvent ≠ headerShiftOpen by decide]
      · simp [h1, h2]

/-- The times a row carries. -/
theorem rowTimes_iff {m : Memory} {n r : Nat} (hr : ShiftRow m n r) (t : DateTime) :
    t ∈ rowTimes (rowAt m r) ↔ (KindRow m headerLeg n r ∧ timeAt (rowBytes (rowAt m r)) 18 = t)
      ∨ rowTime (rowAt m r) = some t := by
  have leg : hasHeader headerLeg (rowAt m r) = true ↔ KindRow m headerLeg n r := by
    rw [hasHeader, hr.1.2, Bool.true_and, decide_eq_true_eq]
    exact (and_iff_right hr).symm
  rw [rowTimes, List.mem_append, Option.mem_toList]
  by_cases k : KindRow m headerLeg n r
  · rw [if_pos (leg.2 k), List.mem_singleton, and_iff_right k, eq_comm]
  · rw [if_neg (mt leg.1 k)]
    simp only [k, List.not_mem_nil, false_and]

/-- A shift's readable rows among rows, listed with their content. -/
abbrev ownRows (m : Memory) (n : Nat) (rows : List Nat) : List (Nat × Row) :=
  (rows.filter (fun r => readable (rowAt m r) && decide (rowShift (rowAt m r) = n))).map (rowPair m)

theorem mem_ownRows {m : Memory} {rows : List Nat} (ring : ∀ r ∈ rows, ringRow r = true) (n : Nat) (e : Nat × Row) :
    e ∈ ownRows m n rows ↔ (e.1 ∈ rows ∧ ShiftRow m n e.1) ∧ e.2 = rowAt m e.1 := by
  obtain ⟨r, x⟩ := e
  simp only [List.mem_map, List.mem_filter, Bool.and_eq_true, decide_eq_true_eq, Prod.mk.injEq]
  constructor
  · rintro ⟨k, ⟨a, b, c⟩, rfl, rfl⟩
    exact ⟨⟨a, ⟨ring k a, b⟩, c⟩, rfl⟩
  · rintro ⟨⟨a, ⟨-, b⟩, c⟩, rfl⟩
    exact ⟨r, ⟨a, b, c⟩, rfl, rfl⟩

/-- The shift's opening row is the first among the rows. -/
theorem ownRows_open {m : Memory} {rows : List Nat} (ring : ∀ r ∈ rows, ringRow r = true) (n : Nat) :
    ((ownRows m n rows).find? (fun e => hasHeader headerShiftOpen e.2)).map (fun e => rowBytes e.2)
      = (rows.filter (fun r => decide (KindRow m headerShiftOpen n r))).head?.map (fun r => rowBytes (rowAt m r)) := by
  rw [ownRows, List.find?_map, Option.map_map, ← List.head?_filter, List.filter_filter]
  have : ∀ r ∈ rows, (((fun e : Nat × Row => hasHeader headerShiftOpen e.2) ∘ rowPair m) r
      && (readable (rowAt m r) && decide (rowShift (rowAt m r) = n))) = decide (KindRow m headerShiftOpen n r) := by
    intro r hr
    rw [Bool.eq_iff_iff]
    simp [hasHeader, ring r hr]
    tauto
  rw [List.filter_congr this]
  rfl

/-- The rows that carry the times for the close time (10 R195), each with its time. -/
abbrev timedRows (m : Memory) (n : Nat) (rows : List Nat) : List (Nat × DateTime) :=
  (rows.filter (fun r => decide (KindRow m headerShiftOpen n r))).map (fun r => (r, timeAt (rowBytes (rowAt m r)) 12))
    ++ (rows.filter (fun r => decide (KindRow m headerLeg n r))).map (fun r => (r, timeAt (rowBytes (rowAt m r)) 24))
    ++ (rows.filter (fun r => decide (KindRow m headerEvent n r))).map (fun r => (r, timeAt (rowBytes (rowAt m r)) 10))

theorem mem_timedRows {m : Memory} {n : Nat} {rows : List Nat} (x : Nat × DateTime) :
    x ∈ timedRows m n rows ↔ (x.1 ∈ rows ∧ ShiftRow m n x.1) ∧ rowTime (rowAt m x.1) = some x.2 := by
  obtain ⟨r, t⟩ := x
  simp only [List.mem_append, List.mem_map, List.mem_filter, decide_eq_true_eq, Prod.mk.injEq]
  constructor
  · rintro ((⟨k, ⟨a, b⟩, rfl, rfl⟩ | ⟨k, ⟨a, b⟩, rfl, rfl⟩) | ⟨k, ⟨a, b⟩, rfl, rfl⟩)
    · exact ⟨⟨a, b.1⟩, (rowTime_iff b.1 _).2 (.inr (.inr ⟨b, rfl⟩))⟩
    · exact ⟨⟨a, b.1⟩, (rowTime_iff b.1 _).2 (.inl ⟨b, rfl⟩)⟩
    · exact ⟨⟨a, b.1⟩, (rowTime_iff b.1 _).2 (.inr (.inl ⟨b, rfl⟩))⟩
  · rintro ⟨⟨a, b⟩, c⟩
    rcases (rowTime_iff b t).1 c with ⟨k, rfl⟩ | ⟨k, rfl⟩ | ⟨k, rfl⟩
    · exact .inl (.inr ⟨r, ⟨a, k⟩, rfl, rfl⟩)
    · exact .inr ⟨r, ⟨a, k⟩, rfl, rfl⟩
    · exact .inl (.inl ⟨r, ⟨a, k⟩, rfl, rfl⟩)

/-- The times among which the earliest stands for the open time (10 R195). -/
theorem mem_ownTimes {m : Memory} {rows : List Nat} (ring : ∀ r ∈ rows, ringRow r = true) (n : Nat) (t : DateTime) :
    t ∈ (ownRows m n rows).flatMap (fun e => rowTimes e.2) ↔
      t ∈ (rows.filter (fun r => decide (KindRow m headerLeg n r))).map (fun r => timeAt (rowBytes (rowAt m r)) 18)
        ++ (timedRows m n rows).map (fun x => x.2) := by
  rw [List.mem_append, List.mem_map, List.mem_map, List.mem_flatMap]
  constructor
  · rintro ⟨e, he, c⟩
    obtain ⟨⟨a, b⟩, q⟩ := (mem_ownRows ring n e).1 he
    rw [q] at c
    rcases (rowTimes_iff b t).1 c with ⟨k, rfl⟩ | k
    · exact .inl ⟨e.1, List.mem_filter.2 ⟨a, decide_eq_true k⟩, rfl⟩
    · exact .inr ⟨(e.1, t), (mem_timedRows _).2 ⟨⟨a, b⟩, k⟩, rfl⟩
  · rintro (⟨r, hr, rfl⟩ | ⟨x, hx, rfl⟩)
    · obtain ⟨a, k⟩ := List.mem_filter.1 hr
      have k := of_decide_eq_true k
      exact ⟨rowPair m r, (mem_ownRows ring n _).2 ⟨⟨a, k.1⟩, rfl⟩, (rowTimes_iff k.1 _).2 (.inl ⟨k, rfl⟩)⟩
    · obtain ⟨⟨a, b⟩, k⟩ := (mem_timedRows x).1 hx
      exact ⟨rowPair m x.1, (mem_ownRows ring n _).2 ⟨⟨a, b⟩, rfl⟩, (rowTimes_iff b _).2 (.inr k)⟩

/-- The close time is that of the timed row of the highest sequence number (10 R195). -/
theorem spanCloseTime_spec {m : Memory} {rows : List Nat} (ring : ∀ r ∈ rows, ringRow r = true) (n : Nat)
    {x : Nat × DateTime} (hx : x ∈ timedRows m n rows)
    (top : ∀ y ∈ timedRows m n rows, y.1 ≠ x.1 → seqAt m y.1 < seqAt m x.1) :
    spanCloseTime (ownRows m n rows) = x.2 := by
  obtain ⟨r, t⟩ := x
  have mem : ∀ e, e ∈ (ownRows m n rows).filter (fun e => readable e.2 && (rowTime e.2).isSome) ↔
      ((e.1 ∈ rows ∧ ShiftRow m n e.1) ∧ e.2 = rowAt m e.1) ∧ (rowTime (rowAt m e.1)).isSome = true := by
    intro e
    rw [List.mem_filter, mem_ownRows ring, Bool.and_eq_true]
    constructor
    · rintro ⟨a, -, b⟩; exact ⟨a, a.2 ▸ b⟩
    · rintro ⟨a, b⟩; exact ⟨a, a.2 ▸ a.1.2.1.2, a.2 ▸ b⟩
  obtain ⟨⟨a, b⟩, c⟩ := (mem_timedRows _).1 hx
  have here := (mem (rowPair m r)).2 ⟨⟨⟨a, b⟩, rfl⟩, by simp only; rw [c]; rfl⟩
  have high := highest_of_top (List.mem_map.2 ⟨_, here, rfl⟩ :
      (r, seqAt m r) ∈ ((ownRows m n rows).filter (fun e => readable e.2 && (rowTime e.2).isSome)).map
        (fun e => (e.1, rowSeq e.2))) (by
    intro y hy hne
    obtain ⟨e, he, rfl⟩ := List.mem_map.1 hy
    obtain ⟨⟨p, q⟩, s⟩ := (mem e).1 he
    obtain ⟨u, hu⟩ := Option.isSome_iff_exists.1 s
    simp only [q] at hne ⊢
    exact top (e.1, u) ((mem_timedRows _).2 ⟨p, hu⟩) fun h => hne (by rw [h]))
  unfold spanCloseTime
  simp only [high, Option.bind_some]
  cases hf : ((ownRows m n rows).filter (fun e => readable e.2 && (rowTime e.2).isSome)).find?
      (fun e => decide (e.1 = r)) with
  | none => simpa using List.find?_eq_none.1 hf _ here
  | some e =>
    have hr := List.find?_some hf
    obtain ⟨⟨-, q⟩, -⟩ := (mem e).1 (List.mem_of_find?_eq_some hf)
    simp only [decide_eq_true_eq] at hr
    rw [Option.bind_some, q, hr, c]
    rfl

/-- The ABANDONED record is built from its span as 10 R195 says. -/
theorem abandonedClose_spec {m : Memory} (h : Memory.wf m = true) {d : DirEntry} {f w odometer : Nat} (hf : JournalRow m f)
    (hv : seqAt m f = d.first) (one : ∀ r, JournalRow m r → seqAt m r = d.first → r = f) (hw : ringRow w = true) :
    AbandonedBuilt m d.shift f w odometer (abandonedClose m d w odometer) := by
  have hf' := ring_of_journalRow hf
  have hw' : 32 ≤ w ∧ w < 2048 := by simpa [ringRow] using hw
  have ring : ∀ r ∈ spanRows f w, ringRow r = true := fun r hr => by
    simpa [ringRow] using (((spanRows_spec hf' w).2 r).1 hr).1
  have first := rowOfSeq_eq h hf hv one
  have mine := mine_eq h hf' hw' d.shift
  have sums : ((ringSpan m f w).map (fun e => e.2)).foldl (addSpanRow d.shift) Totals.zero
      = (spanRows f w).foldl (fun t r => addSpanRow d.shift t (rowAt m r)) Totals.zero := by
    rw [totals_foldl_skip, ringSpan_filter h hf' hw' _ (by simp)]
    have back := totals_foldl_skip d.shift ((spanRows f w).map (rowPair m)) Totals.zero
    rw [List.filter_map, List.map_map, List.foldl_map] at back
    exact back.symm
  have legs : ∀ v, (spanRows f w).filter (fun r => legIs m d.shift r v)
      = ((spanRows f w).filter (fun r => decide (KindRow m headerLeg d.shift r))).filter
        (fun r => decide (field (rowBytes (rowAt m r)) 16 1 / 2 % 2 = 1) == v) := fun v => by
    rw [List.filter_filter]
    exact List.filter_congr fun r _ => Bool.and_comm ..
  have paid : (spanRows f w).filter (fun r => legIs m d.shift r false)
      = ((spanRows f w).filter (fun r => decide (KindRow m headerLeg d.shift r))).filter
        (fun r => decide (field (rowBytes (rowAt m r)) 16 1 / 2 % 2 ≠ 1)) := by
    rw [legs]
    exact List.filter_congr fun r _ => by by_cases v : field (rowBytes (rowAt m r)) 16 1 / 2 % 2 = 1 <;> simp [v]
  have voided : (spanRows f w).filter (fun r => legIs m d.shift r true)
      = ((spanRows f w).filter (fun r => decide (KindRow m headerLeg d.shift r))).filter
        (fun r => decide (field (rowBytes (rowAt m r)) 16 1 / 2 % 2 = 1)) := by
    rw [legs]
    exact List.filter_congr fun r _ => by simp
  have shared : (spanRows f w).filter (fun r => legIs m d.shift r false
        && decide (field (rowBytes (rowAt m r)) 11 1 = 2))
      = (((spanRows f w).filter (fun r => decide (KindRow m headerLeg d.shift r))).filter
        (fun r => decide (field (rowBytes (rowAt m r)) 16 1 / 2 % 2 ≠ 1))).filter
          (fun r => decide (field (rowBytes (rowAt m r)) 11 1 = 2)) := by
    rw [← paid, List.filter_filter]
    exact List.filter_congr fun r _ => Bool.and_comm ..
  have events : ∀ k, (spanRows f w).filter (fun r => eventIs m d.shift r k)
      = ((spanRows f w).filter (fun r => decide (KindRow m headerEvent d.shift r))).filter
        (fun r => decide (field (rowBytes (rowAt m r)) 8 1 = k)) := fun k => by
    rw [List.filter_filter]
    exact List.filter_congr fun r _ => Bool.and_comm ..
  obtain ⟨c1, c2, c3, c4, c5, c6, c7, c8, c9, c10, c11, c12, c13, c14, c15⟩ := totals_counts (m := m) ring d.shift
  obtain ⟨m1, m2⟩ := totals_money (m := m) ring d.shift Totals.zero [0, 0, 0, 0, 0] rfl (.inl ⟨rfl, rfl, rfl⟩)
  rw [paid] at m1 m2
  simp only [events] at c4 c5 c11 c12 c13 c14
  rw [paid] at c1
  rw [voided] at c2
  rw [shared] at c3
  refine ⟨rfl, rfl, rfl, ?_, ?_, ?_, ?_⟩
  · have opened := ownRows_open ring d.shift (m := m)
    have times := mem_ownTimes ring d.shift (m := m)
    simp only [abandonedClose, first, mine]
    rw [opened]
    cases none_open : (spanRows f w).filter (fun r => decide (KindRow m headerShiftOpen d.shift r)) with
    | nil =>
      refine ⟨rfl, rfl, fun some_time => ?_⟩
      simp only [timedRows, none_open] at times
      obtain ⟨t, ht⟩ := List.exists_mem_of_ne_nil _ some_time
      obtain ⟨a, b⟩ := earliest_spec (List.ne_nil_of_mem ((times t).2 ht))
      exact ⟨(times _).1 a, fun u hu => b u ((times u).2 hu)⟩
    | cons o l => exact ⟨rfl, rfl, rfl⟩
  · intro x hx top
    simp only [abandonedClose, first, mine]
    exact spanCloseTime_spec ring d.shift hx top
  · simp only [abandonedClose, first, sums]
    exact m1
  · have all : ∀ u v : Totals, u.legsClosed = v.legsClosed → u.legsVoided = v.legsVoided → u.sharedLegs = v.sharedLegs →
        u.fare = v.fare → u.extras = v.extras → u.tips = v.tips → u.card = v.card → u.cash = v.cash →
        u.lateCount = v.lateCount → u.lateSum = v.lateSum → u.hiredMetres = v.hiredMetres →
        u.unhiredMetres = v.unhiredMetres → u.hiredSeconds = v.hiredSeconds → u.sharedSeconds = v.sharedSeconds →
        u.unresolved = v.unresolved → u.interruptions = v.interruptions → u.signFaults = v.signFaults →
        u.unmetered = v.unmetered → u.assists = v.assists → u.notJournalled = v.notJournalled →
        u.moneyHeld = v.moneyHeld → u = v := by
      rintro ⟨⟩ ⟨⟩
      simp only [Totals.mk.injEq]
      tauto
    simp only [abandonedClose, first, sums]
    exact all _ _ c1 c2 c3 rfl rfl rfl rfl rfl c4 c5 c6 c7 c8 c9 c10 c11 c12 c13 c14 c15 m2

end Sys2Proof.Machine
end

