-- ==== Sys2Proof/Laws/Band.lean ====
section
/-!
SUPPORT. The switch point the automatic band is taken from (02 R30).
-/

namespace Sys2Proof.Machine

theorem backward_lt {now moment : Nat} (h : now < 10080) : backward now moment < 10080 := by
  unfold backward
  split <;> omega

/-- The band is that of a moment nearer, going back, than every moment before it, and no farther than one after it. -/
theorem nearestBand_spec {now : Nat} (h : now < 10080) {before after : List (Nat × Nat)} {x : Nat × Nat}
    (hb : ∀ y ∈ before, backward now x.1 < backward now y.1) (ha : ∀ y ∈ after, backward now x.1 ≤ backward now y.1) :
    nearestBand now (before ++ x :: after) = x.2 := by
  have first : ∀ (l : List (Nat × Nat)) (b : Nat × Nat), backward now x.1 < b.1 →
      (∀ y ∈ l, backward now x.1 < backward now y.1) →
      backward now x.1 < (l.foldl (fun (best : Nat × Nat) m =>
        if backward now m.1 < best.1 then (backward now m.1, m.2) else best) b).1 := by
    intro l
    induction l with
    | nil => exact fun b hb _ => hb
    | cons y l ih =>
      intro b hb hl
      refine ih _ ?_ fun z hz => hl z (List.mem_cons_of_mem _ hz)
      show backward now x.1 < (if backward now y.1 < b.1 then (backward now y.1, y.2) else b).1
      split
      · exact hl y List.mem_cons_self
      · exact hb
  have keep : ∀ l : List (Nat × Nat), (∀ y ∈ l, backward now x.1 ≤ backward now y.1) →
      l.foldl (fun (best : Nat × Nat) m => if backward now m.1 < best.1 then (backward now m.1, m.2) else best)
        (backward now x.1, x.2) = (backward now x.1, x.2) := by
    intro l
    induction l with
    | nil => exact fun _ => rfl
    | cons y l ih =>
      intro hl
      rw [List.foldl_cons, if_neg (Nat.not_lt.2 (hl y List.mem_cons_self))]
      exact ih fun z hz => hl z (List.mem_cons_of_mem _ hz)
  rw [nearestBand, List.foldl_append, List.foldl_cons, if_pos (first before _ (backward_lt h) hb), keep after ha]

theorem mem_moments {p : SwitchPoint} {y : Nat × Nat} :
    y ∈ p.moments ↔ ∃ d, (d < 7 ∧ p.days.getLsbD d = true) ∧ y = (d * 1440 + p.minute, p.band) := by
  simp only [SwitchPoint.moments, List.mem_map, List.mem_filter, List.mem_range]
  exact exists_congr fun d => and_congr_right fun _ => eq_comm

/-- The automatic band is 0 with no switch point, and else that of the switch point the shortest way back (02 R30). -/
theorem automaticBand_spec {s : State} {c : TariffSet} (hc : s.tar.committed = some c) (set : s.odo.clockSet = true)
    (ok : s.odo.clock.ok = true) :
    let now := (secondsSince s.odo.clock / 60 + 7200) % 10080
    let due := fun (p : SwitchPoint) (d : Nat) => d < 7 ∧ p.days.getLsbD d = true
    ((∀ p ∈ c.switches, ∀ d, ¬ due p d) → automaticBand s = 0)
      ∧ (∀ (earlier later : List SwitchPoint) (p : SwitchPoint) (d : Nat), c.switches = earlier ++ p :: later → due p d →
          (∀ x ∈ c.switches, ∀ e, due x e → backward now (d * 1440 + p.minute) ≤ backward now (e * 1440 + x.minute)) →
          (∀ x ∈ earlier, ∀ e, due x e → backward now (d * 1440 + p.minute) < backward now (e * 1440 + x.minute)) →
          (automaticBand s).val = p.band % 4) := by
  intro now due
  have hnow : s.odo.clock.minuteOfWeek = now := by
    simp only [DateTime.ok, decide_eq_true_eq] at ok
    obtain ⟨-, -, -, -, -, -, h1, h2, h3⟩ := ok
    show s.odo.clock.minuteOfWeek = (secondsSince s.odo.clock / 60 + 7200) % 10080
    unfold DateTime.minuteOfWeek DateTime.weekday secondsSince
    omega
  have hlt : now < 10080 := Nat.mod_lt _ (by decide)
  simp only [automaticBand, hc, set, if_true, hnow]
  constructor
  · intro none_due
    have : c.switches.flatMap SwitchPoint.moments = [] := by
      refine List.flatMap_eq_nil_iff.2 fun p hp => List.eq_nil_iff_forall_not_mem.2 fun y hy => ?_
      obtain ⟨d, hd, -⟩ := mem_moments.1 hy
      exact none_due p hp d hd
    rw [this]
    rfl
  · intro earlier later p d hs hd least lower
    have mem : (d * 1440 + p.minute, p.band) ∈ p.moments := mem_moments.2 ⟨d, hd, rfl⟩
    have hp : p ∈ c.switches := by rw [hs]; simp
    -- The first moment of p at the least distance.
    have pick : ∀ l : List (Nat × Nat), (∀ y ∈ l, y ∈ p.moments) → (d * 1440 + p.minute, p.band) ∈ l →
        ∃ a x b, l = a ++ x :: b ∧ x.2 = p.band ∧ backward now x.1 = backward now (d * 1440 + p.minute)
          ∧ ∀ y ∈ a, backward now x.1 < backward now y.1 := by
      intro l
      induction l with
      | nil => exact fun _ h => (List.not_mem_nil h).elim
      | cons y l ih =>
        intro own here
        obtain ⟨e, he, rfl⟩ := mem_moments.1 (own y List.mem_cons_self)
        by_cases eq : backward now (e * 1440 + p.minute) = backward now (d * 1440 + p.minute)
        · exact ⟨[], _, l, rfl, rfl, eq, by simp⟩
        · rcases List.mem_cons.1 here with same | here
          · exact absurd (congrArg (fun z : Nat × Nat => backward now z.1) same).symm eq
          · obtain ⟨a, x, b, rfl, h1, h2, h3⟩ := ih (fun z hz => own z (List.mem_cons_of_mem _ hz)) here
            refine ⟨_ :: a, x, b, rfl, h1, h2, fun z hz => ?_⟩
            rcases List.mem_cons.1 hz with rfl | hz
            · have := least p hp e he
              simp only [h2]
              omega
            · exact h3 z hz
    obtain ⟨a, x, b, hl, h1, h2, h3⟩ := pick p.moments (fun _ h => h) mem
    have all : c.switches.flatMap SwitchPoint.moments
        = (earlier.flatMap SwitchPoint.moments ++ a) ++ x :: (b ++ later.flatMap SwitchPoint.moments) := by
      rw [hs]
      simp [hl]
    rw [all, nearestBand_spec hlt, bandOf, h1]
    · intro y hy
      rcases List.mem_append.1 hy with hy | hy
      · obtain ⟨q, hq, hy⟩ := List.mem_flatMap.1 hy
        obtain ⟨e, he, rfl⟩ := mem_moments.1 hy
        rw [h2]
        exact lower q hq e he
      · exact h3 y hy
    · intro y hy
      have : ∃ q ∈ c.switches, y ∈ q.moments := by
        rcases List.mem_append.1 hy with hy | hy
        · exact ⟨p, hp, by rw [hl]; simp [hy]⟩
        · obtain ⟨q, hq, hy⟩ := List.mem_flatMap.1 hy
          exact ⟨q, by rw [hs]; simp [hq], hy⟩
      obtain ⟨q, hq, hy⟩ := this
      obtain ⟨e, he, rfl⟩ := mem_moments.1 hy
      rw [h2]
      exact least q hq e he

end Sys2Proof.Machine
end

