-- ==== Sys2Proof/Laws/State.lean ====
section
/-!
SUPPORT. Lemmas beside the state: the fields of a choice between two states, and groups of fields that a frame
names at once.
-/

namespace Sys2Proof.Machine

/-! ### Groups of fields -/

/-- The two states agree in the waiting commands, the free values, the timebase and the array. -/
@[simp] abbrev Kept.base (t s : State) : Prop :=
  t.pending = s.pending ∧ t.free = s.free ∧ t.time = s.time ∧ t.array = s.array

/-- The two states agree in odometry, the tariff store and the power unit. -/
@[simp] abbrev Kept.outer (t s : State) : Prop :=
  t.odo = s.odo ∧ t.tar = s.tar ∧ t.pwr = s.pwr

/-- The two states agree in the fare engine, the cab state and the accounts. -/
@[simp] abbrev Kept.shift (t s : State) : Prop :=
  t.fare = s.fare ∧ t.cab = s.cab ∧ t.acc = s.acc

/-- The two states agree in the journal store and the fault set. -/
@[simp] abbrev Kept.deep (t s : State) : Prop :=
  t.jnl = s.jnl ∧ t.flt = s.flt

/-- The two states agree in the line interface but its transmitter and stations. -/
@[simp] abbrev Kept.line (t s : State) : Prop :=
  t.lif.address = s.lif.address ∧ t.lif.rx = s.lif.rx ∧ t.lif.queue = s.lif.queue ∧
    t.lif.lineFree = s.lif.lineFree ∧ t.lif.announceDue = s.lif.announceDue

/-- The two states agree in the last sends and the announce slot of the notice scheduler. -/
@[simp] abbrev Kept.sends (t s : State) : Prop :=
  t.nsc.fareSent = s.nsc.fareSent ∧ t.nsc.announce = s.nsc.announce ∧ t.nsc.lastOffer = s.nsc.lastOffer ∧
    t.nsc.lastCall = s.nsc.lastCall ∧ t.nsc.lastFare = s.nsc.lastFare

/-- The two states agree in the notices of legs and the print item. -/
@[simp] abbrev Kept.money (t s : State) : Prop :=
  t.nsc.offers = s.nsc.offers ∧ t.nsc.fares = s.nsc.fares ∧ t.nsc.print = s.nsc.print

/-- The two states agree in the assist notice, the replies and the fleet items. -/
@[simp] abbrev Kept.news (t s : State) : Prop :=
  t.nsc.assist = s.nsc.assist ∧ t.nsc.replies = s.nsc.replies ∧ t.nsc.fleet = s.nsc.fleet

/-- The two states agree in the pulse and distance state. -/
@[simp] abbrev Kept.pulses (t s : State) : Prop :=
  t.odo.pulseLevel = s.odo.pulseLevel ∧ t.odo.pulseQualified = s.odo.pulseQualified ∧
    t.odo.pulseFrom = s.odo.pulseFrom ∧ t.odo.pulseCount = s.odo.pulseCount ∧
    t.odo.lastTaken = s.odo.lastTaken ∧ t.odo.tickDue = s.odo.tickDue ∧ t.odo.window = s.odo.window ∧
    t.odo.moving = s.odo.moving ∧ t.odo.odometer = s.odo.odometer

/-- The two states agree in the straps and direct inputs. -/
@[simp] abbrev Kept.inputs (t s : State) : Prop :=
  t.odo.addrStrap = s.odo.addrStrap ∧ t.odo.calStrap = s.odo.calStrap ∧ t.odo.assistLevel = s.odo.assistLevel ∧
    t.odo.detector = s.odo.detector ∧ t.odo.assistFrom = s.odo.assistFrom ∧ t.odo.powerGood = s.odo.powerGood ∧
    t.odo.powerFrom = s.odo.powerFrom

/-- The two states agree in the clock and its time set. -/
@[simp] abbrev Kept.clock (t s : State) : Prop :=
  t.odo.clock = s.odo.clock ∧ t.odo.clockSet = s.odo.clockSet ∧ t.odo.secondDue = s.odo.secondDue ∧
    t.odo.pendingTime = s.odo.pendingTime

/-- The two states agree in the assist latch and its acknowledgment. -/
@[simp] abbrev Kept.assist (t s : State) : Prop :=
  t.cab.latch = s.cab.latch ∧ t.cab.presses = s.cab.presses ∧ t.cab.pressTime = s.cab.pressTime ∧
    t.cab.wakeMark = s.cab.wakeMark ∧ t.cab.ack = s.cab.ack ∧ t.cab.repeatDue = s.cab.repeatDue

/-- The two states agree in the duty state, share mode and booking. -/
@[simp] abbrev Kept.hire (t s : State) : Prop :=
  t.cab.duty = s.cab.duty ∧ t.cab.share = s.cab.share ∧ t.cab.booking = s.cab.booking

/-- The two states agree in the gains, the output samples and the free-running timers of the intercom. -/
@[simp] abbrev Kept.audio (t s : State) : Prop :=
  t.icm.gains = s.icm.gains ∧ t.icm.out = s.icm.out ∧ t.icm.holdDue = s.icm.holdDue ∧
    t.icm.sampleDue = s.icm.sampleDue

/-- The two states agree in the calls and the talk state. -/
@[simp] abbrev Kept.calls (t s : State) : Prop :=
  t.icm.calls = s.icm.calls ∧ t.icm.queue = s.icm.queue ∧ t.icm.arrivals = s.icm.arrivals ∧
    t.icm.talk = s.icm.talk ∧ t.icm.ringDue = s.icm.ringDue

/-- The two states agree in the prompts and their player. -/
@[simp] abbrev Kept.prompts (t s : State) : Prop :=
  t.icm.prompts = s.icm.prompts ∧ t.icm.player = s.icm.player ∧ t.icm.promptSample = s.icm.promptSample

/-- The two states agree in the late results and the last shift number. -/
@[simp] abbrev Kept.lists (t s : State) : Prop :=
  t.acc.lastShift = s.acc.lastShift ∧ t.acc.late = s.acc.late

/-- The two states agree in the append queue, the write position, what waits there and the directory. -/
@[simp] abbrev Kept.ring (t s : State) : Prop :=
  t.jnl.append = s.jnl.append ∧ t.jnl.writePos = s.jnl.writePos ∧ t.jnl.waitsErase = s.jnl.waitsErase ∧
    t.jnl.nextSeq = s.jnl.nextSeq ∧ t.jnl.directory = s.jnl.directory

/-- The two states agree in the read-out cursor and its credit. -/
@[simp] abbrev Kept.reader (t s : State) : Prop :=
  t.jnl.cursor = s.jnl.cursor ∧ t.jnl.credit = s.jnl.credit

/-! ### The fields of a choice between two states -/

@[simp] theorem State.ite_pending (c : Prop) [Decidable c] (a b : State) :
    (if c then a else b).pending = if c then a.pending else b.pending := apply_ite State.pending c a b
@[simp] theorem State.ite_free (c : Prop) [Decidable c] (a b : State) :
    (if c then a else b).free = if c then a.free else b.free := apply_ite State.free c a b
@[simp] theorem State.ite_time (c : Prop) [Decidable c] (a b : State) :
    (if c then a else b).time = if c then a.time else b.time := apply_ite State.time c a b
@[simp] theorem State.ite_array (c : Prop) [Decidable c] (a b : State) :
    (if c then a else b).array = if c then a.array else b.array := apply_ite State.array c a b
@[simp] theorem State.ite_lif (c : Prop) [Decidable c] (a b : State) :
    (if c then a else b).lif = if c then a.lif else b.lif := apply_ite State.lif c a b
@[simp] theorem State.ite_nsc (c : Prop) [Decidable c] (a b : State) :
    (if c then a else b).nsc = if c then a.nsc else b.nsc := apply_ite State.nsc c a b
@[simp] theorem State.ite_odo (c : Prop) [Decidable c] (a b : State) :
    (if c then a else b).odo = if c then a.odo else b.odo := apply_ite State.odo c a b
@[simp] theorem State.ite_tar (c : Prop) [Decidable c] (a b : State) :
    (if c then a else b).tar = if c then a.tar else b.tar := apply_ite State.tar c a b
@[simp] theorem State.ite_fare (c : Prop) [Decidable c] (a b : State) :
    (if c then a else b).fare = if c then a.fare else b.fare := apply_ite State.fare c a b
@[simp] theorem State.ite_cab (c : Prop) [Decidable c] (a b : State) :
    (if c then a else b).cab = if c then a.cab else b.cab := apply_ite State.cab c a b
@[simp] theorem State.ite_icm (c : Prop) [Decidable c] (a b : State) :
    (if c then a else b).icm = if c then a.icm else b.icm := apply_ite State.icm c a b
@[simp] theorem State.ite_acc (c : Prop) [Decidable c] (a b : State) :
    (if c then a else b).acc = if c then a.acc else b.acc := apply_ite State.acc c a b
@[simp] theorem State.ite_jnl (c : Prop) [Decidable c] (a b : State) :
    (if c then a else b).jnl = if c then a.jnl else b.jnl := apply_ite State.jnl c a b
@[simp] theorem State.ite_flt (c : Prop) [Decidable c] (a b : State) :
    (if c then a else b).flt = if c then a.flt else b.flt := apply_ite State.flt c a b
@[simp] theorem State.ite_pwr (c : Prop) [Decidable c] (a b : State) :
    (if c then a else b).pwr = if c then a.pwr else b.pwr := apply_ite State.pwr c a b
@[simp] theorem Lif.ite_address (c : Prop) [Decidable c] (a b : Lif) :
    (if c then a else b).address = if c then a.address else b.address := apply_ite Lif.address c a b
@[simp] theorem Lif.ite_rx (c : Prop) [Decidable c] (a b : Lif) :
    (if c then a else b).rx = if c then a.rx else b.rx := apply_ite Lif.rx c a b
@[simp] theorem Lif.ite_queue (c : Prop) [Decidable c] (a b : Lif) :
    (if c then a else b).queue = if c then a.queue else b.queue := apply_ite Lif.queue c a b
@[simp] theorem Lif.ite_lineFree (c : Prop) [Decidable c] (a b : Lif) :
    (if c then a else b).lineFree = if c then a.lineFree else b.lineFree := apply_ite Lif.lineFree c a b
@[simp] theorem Lif.ite_tx (c : Prop) [Decidable c] (a b : Lif) :
    (if c then a else b).tx = if c then a.tx else b.tx := apply_ite Lif.tx c a b
@[simp] theorem Lif.ite_stations (c : Prop) [Decidable c] (a b : Lif) :
    (if c then a else b).stations = if c then a.stations else b.stations := apply_ite Lif.stations c a b
@[simp] theorem Lif.ite_announceDue (c : Prop) [Decidable c] (a b : Lif) :
    (if c then a else b).announceDue = if c then a.announceDue else b.announceDue := apply_ite Lif.announceDue c a b
@[simp] theorem Nsc.ite_assist (c : Prop) [Decidable c] (a b : Nsc) :
    (if c then a else b).assist = if c then a.assist else b.assist := apply_ite Nsc.assist c a b
@[simp] theorem Nsc.ite_replies (c : Prop) [Decidable c] (a b : Nsc) :
    (if c then a else b).replies = if c then a.replies else b.replies := apply_ite Nsc.replies c a b
@[simp] theorem Nsc.ite_sign (c : Prop) [Decidable c] (a b : Nsc) :
    (if c then a else b).sign = if c then a.sign else b.sign := apply_ite Nsc.sign c a b
@[simp] theorem Nsc.ite_offers (c : Prop) [Decidable c] (a b : Nsc) :
    (if c then a else b).offers = if c then a.offers else b.offers := apply_ite Nsc.offers c a b
@[simp] theorem Nsc.ite_calls (c : Prop) [Decidable c] (a b : Nsc) :
    (if c then a else b).calls = if c then a.calls else b.calls := apply_ite Nsc.calls c a b
@[simp] theorem Nsc.ite_fares (c : Prop) [Decidable c] (a b : Nsc) :
    (if c then a else b).fares = if c then a.fares else b.fares := apply_ite Nsc.fares c a b
@[simp] theorem Nsc.ite_fareSent (c : Prop) [Decidable c] (a b : Nsc) :
    (if c then a else b).fareSent = if c then a.fareSent else b.fareSent := apply_ite Nsc.fareSent c a b
@[simp] theorem Nsc.ite_fleet (c : Prop) [Decidable c] (a b : Nsc) :
    (if c then a else b).fleet = if c then a.fleet else b.fleet := apply_ite Nsc.fleet c a b
@[simp] theorem Nsc.ite_journal (c : Prop) [Decidable c] (a b : Nsc) :
    (if c then a else b).journal = if c then a.journal else b.journal := apply_ite Nsc.journal c a b
@[simp] theorem Nsc.ite_print (c : Prop) [Decidable c] (a b : Nsc) :
    (if c then a else b).print = if c then a.print else b.print := apply_ite Nsc.print c a b
@[simp] theorem Nsc.ite_announce (c : Prop) [Decidable c] (a b : Nsc) :
    (if c then a else b).announce = if c then a.announce else b.announce := apply_ite Nsc.announce c a b
@[simp] theorem Nsc.ite_lastOffer (c : Prop) [Decidable c] (a b : Nsc) :
    (if c then a else b).lastOffer = if c then a.lastOffer else b.lastOffer := apply_ite Nsc.lastOffer c a b
@[simp] theorem Nsc.ite_lastCall (c : Prop) [Decidable c] (a b : Nsc) :
    (if c then a else b).lastCall = if c then a.lastCall else b.lastCall := apply_ite Nsc.lastCall c a b
@[simp] theorem Nsc.ite_lastFare (c : Prop) [Decidable c] (a b : Nsc) :
    (if c then a else b).lastFare = if c then a.lastFare else b.lastFare := apply_ite Nsc.lastFare c a b
@[simp] theorem Odo.ite_addrStrap (c : Prop) [Decidable c] (a b : Odo) :
    (if c then a else b).addrStrap = if c then a.addrStrap else b.addrStrap := apply_ite Odo.addrStrap c a b
@[simp] theorem Odo.ite_calStrap (c : Prop) [Decidable c] (a b : Odo) :
    (if c then a else b).calStrap = if c then a.calStrap else b.calStrap := apply_ite Odo.calStrap c a b
@[simp] theorem Odo.ite_pulseLevel (c : Prop) [Decidable c] (a b : Odo) :
    (if c then a else b).pulseLevel = if c then a.pulseLevel else b.pulseLevel := apply_ite Odo.pulseLevel c a b
@[simp] theorem Odo.ite_pulseQualified (c : Prop) [Decidable c] (a b : Odo) :
    (if c then a else b).pulseQualified = if c then a.pulseQualified else b.pulseQualified := apply_ite Odo.pulseQualified c a b
@[simp] theorem Odo.ite_pulseFrom (c : Prop) [Decidable c] (a b : Odo) :
    (if c then a else b).pulseFrom = if c then a.pulseFrom else b.pulseFrom := apply_ite Odo.pulseFrom c a b
@[simp] theorem Odo.ite_pulseCount (c : Prop) [Decidable c] (a b : Odo) :
    (if c then a else b).pulseCount = if c then a.pulseCount else b.pulseCount := apply_ite Odo.pulseCount c a b
@[simp] theorem Odo.ite_lastTaken (c : Prop) [Decidable c] (a b : Odo) :
    (if c then a else b).lastTaken = if c then a.lastTaken else b.lastTaken := apply_ite Odo.lastTaken c a b
@[simp] theorem Odo.ite_tickDue (c : Prop) [Decidable c] (a b : Odo) :
    (if c then a else b).tickDue = if c then a.tickDue else b.tickDue := apply_ite Odo.tickDue c a b
@[simp] theorem Odo.ite_window (c : Prop) [Decidable c] (a b : Odo) :
    (if c then a else b).window = if c then a.window else b.window := apply_ite Odo.window c a b
@[simp] theorem Odo.ite_moving (c : Prop) [Decidable c] (a b : Odo) :
    (if c then a else b).moving = if c then a.moving else b.moving := apply_ite Odo.moving c a b
@[simp] theorem Odo.ite_odometer (c : Prop) [Decidable c] (a b : Odo) :
    (if c then a else b).odometer = if c then a.odometer else b.odometer := apply_ite Odo.odometer c a b
@[simp] theorem Odo.ite_clock (c : Prop) [Decidable c] (a b : Odo) :
    (if c then a else b).clock = if c then a.clock else b.clock := apply_ite Odo.clock c a b
@[simp] theorem Odo.ite_clockSet (c : Prop) [Decidable c] (a b : Odo) :
    (if c then a else b).clockSet = if c then a.clockSet else b.clockSet := apply_ite Odo.clockSet c a b
@[simp] theorem Odo.ite_secondDue (c : Prop) [Decidable c] (a b : Odo) :
    (if c then a else b).secondDue = if c then a.secondDue else b.secondDue := apply_ite Odo.secondDue c a b
@[simp] theorem Odo.ite_pendingTime (c : Prop) [Decidable c] (a b : Odo) :
    (if c then a else b).pendingTime = if c then a.pendingTime else b.pendingTime := apply_ite Odo.pendingTime c a b
@[simp] theorem Odo.ite_manualBand (c : Prop) [Decidable c] (a b : Odo) :
    (if c then a else b).manualBand = if c then a.manualBand else b.manualBand := apply_ite Odo.manualBand c a b
@[simp] theorem Odo.ite_vehicleBand (c : Prop) [Decidable c] (a b : Odo) :
    (if c then a else b).vehicleBand = if c then a.vehicleBand else b.vehicleBand := apply_ite Odo.vehicleBand c a b
@[simp] theorem Odo.ite_assistLevel (c : Prop) [Decidable c] (a b : Odo) :
    (if c then a else b).assistLevel = if c then a.assistLevel else b.assistLevel := apply_ite Odo.assistLevel c a b
@[simp] theorem Odo.ite_detector (c : Prop) [Decidable c] (a b : Odo) :
    (if c then a else b).detector = if c then a.detector else b.detector := apply_ite Odo.detector c a b
@[simp] theorem Odo.ite_assistFrom (c : Prop) [Decidable c] (a b : Odo) :
    (if c then a else b).assistFrom = if c then a.assistFrom else b.assistFrom := apply_ite Odo.assistFrom c a b
@[simp] theorem Odo.ite_powerGood (c : Prop) [Decidable c] (a b : Odo) :
    (if c then a else b).powerGood = if c then a.powerGood else b.powerGood := apply_ite Odo.powerGood c a b
@[simp] theorem Odo.ite_powerFrom (c : Prop) [Decidable c] (a b : Odo) :
    (if c then a else b).powerFrom = if c then a.powerFrom else b.powerFrom := apply_ite Odo.powerFrom c a b
@[simp] theorem Tar.ite_committed (c : Prop) [Decidable c] (a b : Tar) :
    (if c then a else b).committed = if c then a.committed else b.committed := apply_ite Tar.committed c a b
@[simp] theorem Tar.ite_window (c : Prop) [Decidable c] (a b : Tar) :
    (if c then a else b).window = if c then a.window else b.window := apply_ite Tar.window c a b
@[simp] theorem Tar.ite_written (c : Prop) [Decidable c] (a b : Tar) :
    (if c then a else b).written = if c then a.written else b.written := apply_ite Tar.written c a b
@[simp] theorem Fare.ite_slots (c : Prop) [Decidable c] (a b : Fare) :
    (if c then a else b).slots = if c then a.slots else b.slots := apply_ite Fare.slots c a b
@[simp] theorem Fare.ite_lastLeg (c : Prop) [Decidable c] (a b : Fare) :
    (if c then a else b).lastLeg = if c then a.lastLeg else b.lastLeg := apply_ite Fare.lastLeg c a b
@[simp] theorem Cab.ite_duty (c : Prop) [Decidable c] (a b : Cab) :
    (if c then a else b).duty = if c then a.duty else b.duty := apply_ite Cab.duty c a b
@[simp] theorem Cab.ite_share (c : Prop) [Decidable c] (a b : Cab) :
    (if c then a else b).share = if c then a.share else b.share := apply_ite Cab.share c a b
@[simp] theorem Cab.ite_booking (c : Prop) [Decidable c] (a b : Cab) :
    (if c then a else b).booking = if c then a.booking else b.booking := apply_ite Cab.booking c a b
@[simp] theorem Cab.ite_latch (c : Prop) [Decidable c] (a b : Cab) :
    (if c then a else b).latch = if c then a.latch else b.latch := apply_ite Cab.latch c a b
@[simp] theorem Cab.ite_presses (c : Prop) [Decidable c] (a b : Cab) :
    (if c then a else b).presses = if c then a.presses else b.presses := apply_ite Cab.presses c a b
@[simp] theorem Cab.ite_pressTime (c : Prop) [Decidable c] (a b : Cab) :
    (if c then a else b).pressTime = if c then a.pressTime else b.pressTime := apply_ite Cab.pressTime c a b
@[simp] theorem Cab.ite_wakeMark (c : Prop) [Decidable c] (a b : Cab) :
    (if c then a else b).wakeMark = if c then a.wakeMark else b.wakeMark := apply_ite Cab.wakeMark c a b
@[simp] theorem Cab.ite_ack (c : Prop) [Decidable c] (a b : Cab) :
    (if c then a else b).ack = if c then a.ack else b.ack := apply_ite Cab.ack c a b
@[simp] theorem Cab.ite_repeatDue (c : Prop) [Decidable c] (a b : Cab) :
    (if c then a else b).repeatDue = if c then a.repeatDue else b.repeatDue := apply_ite Cab.repeatDue c a b
@[simp] theorem Cab.ite_sign (c : Prop) [Decidable c] (a b : Cab) :
    (if c then a else b).sign = if c then a.sign else b.sign := apply_ite Cab.sign c a b
@[simp] theorem Cab.ite_signDue (c : Prop) [Decidable c] (a b : Cab) :
    (if c then a else b).signDue = if c then a.signDue else b.signDue := apply_ite Cab.signDue c a b
@[simp] theorem Cab.ite_watches (c : Prop) [Decidable c] (a b : Cab) :
    (if c then a else b).watches = if c then a.watches else b.watches := apply_ite Cab.watches c a b
@[simp] theorem Icm.ite_calls (c : Prop) [Decidable c] (a b : Icm) :
    (if c then a else b).calls = if c then a.calls else b.calls := apply_ite Icm.calls c a b
@[simp] theorem Icm.ite_queue (c : Prop) [Decidable c] (a b : Icm) :
    (if c then a else b).queue = if c then a.queue else b.queue := apply_ite Icm.queue c a b
@[simp] theorem Icm.ite_arrivals (c : Prop) [Decidable c] (a b : Icm) :
    (if c then a else b).arrivals = if c then a.arrivals else b.arrivals := apply_ite Icm.arrivals c a b
@[simp] theorem Icm.ite_talk (c : Prop) [Decidable c] (a b : Icm) :
    (if c then a else b).talk = if c then a.talk else b.talk := apply_ite Icm.talk c a b
@[simp] theorem Icm.ite_privacy (c : Prop) [Decidable c] (a b : Icm) :
    (if c then a else b).privacy = if c then a.privacy else b.privacy := apply_ite Icm.privacy c a b
@[simp] theorem Icm.ite_forced (c : Prop) [Decidable c] (a b : Icm) :
    (if c then a else b).forced = if c then a.forced else b.forced := apply_ite Icm.forced c a b
@[simp] theorem Icm.ite_gains (c : Prop) [Decidable c] (a b : Icm) :
    (if c then a else b).gains = if c then a.gains else b.gains := apply_ite Icm.gains c a b
@[simp] theorem Icm.ite_out (c : Prop) [Decidable c] (a b : Icm) :
    (if c then a else b).out = if c then a.out else b.out := apply_ite Icm.out c a b
@[simp] theorem Icm.ite_prompts (c : Prop) [Decidable c] (a b : Icm) :
    (if c then a else b).prompts = if c then a.prompts else b.prompts := apply_ite Icm.prompts c a b
@[simp] theorem Icm.ite_player (c : Prop) [Decidable c] (a b : Icm) :
    (if c then a else b).player = if c then a.player else b.player := apply_ite Icm.player c a b
@[simp] theorem Icm.ite_promptSample (c : Prop) [Decidable c] (a b : Icm) :
    (if c then a else b).promptSample = if c then a.promptSample else b.promptSample := apply_ite Icm.promptSample c a b
@[simp] theorem Icm.ite_ringDue (c : Prop) [Decidable c] (a b : Icm) :
    (if c then a else b).ringDue = if c then a.ringDue else b.ringDue := apply_ite Icm.ringDue c a b
@[simp] theorem Icm.ite_holdDue (c : Prop) [Decidable c] (a b : Icm) :
    (if c then a else b).holdDue = if c then a.holdDue else b.holdDue := apply_ite Icm.holdDue c a b
@[simp] theorem Icm.ite_sampleDue (c : Prop) [Decidable c] (a b : Icm) :
    (if c then a else b).sampleDue = if c then a.sampleDue else b.sampleDue := apply_ite Icm.sampleDue c a b
@[simp] theorem Acc.ite_shift (c : Prop) [Decidable c] (a b : Acc) :
    (if c then a else b).shift = if c then a.shift else b.shift := apply_ite Acc.shift c a b
@[simp] theorem Acc.ite_lastShift (c : Prop) [Decidable c] (a b : Acc) :
    (if c then a else b).lastShift = if c then a.lastShift else b.lastShift := apply_ite Acc.lastShift c a b
@[simp] theorem Acc.ite_unresolved (c : Prop) [Decidable c] (a b : Acc) :
    (if c then a else b).unresolved = if c then a.unresolved else b.unresolved := apply_ite Acc.unresolved c a b
@[simp] theorem Acc.ite_late (c : Prop) [Decidable c] (a b : Acc) :
    (if c then a else b).late = if c then a.late else b.late := apply_ite Acc.late c a b
@[simp] theorem Acc.ite_jobs (c : Prop) [Decidable c] (a b : Acc) :
    (if c then a else b).jobs = if c then a.jobs else b.jobs := apply_ite Acc.jobs c a b
@[simp] theorem Acc.ite_credit (c : Prop) [Decidable c] (a b : Acc) :
    (if c then a else b).credit = if c then a.credit else b.credit := apply_ite Acc.credit c a b
@[simp] theorem Jnl.ite_inFlight (c : Prop) [Decidable c] (a b : Jnl) :
    (if c then a else b).inFlight = if c then a.inFlight else b.inFlight := apply_ite Jnl.inFlight c a b
@[simp] theorem Jnl.ite_waiting (c : Prop) [Decidable c] (a b : Jnl) :
    (if c then a else b).waiting = if c then a.waiting else b.waiting := apply_ite Jnl.waiting c a b
@[simp] theorem Jnl.ite_append (c : Prop) [Decidable c] (a b : Jnl) :
    (if c then a else b).append = if c then a.append else b.append := apply_ite Jnl.append c a b
@[simp] theorem Jnl.ite_writePos (c : Prop) [Decidable c] (a b : Jnl) :
    (if c then a else b).writePos = if c then a.writePos else b.writePos := apply_ite Jnl.writePos c a b
@[simp] theorem Jnl.ite_waitsErase (c : Prop) [Decidable c] (a b : Jnl) :
    (if c then a else b).waitsErase = if c then a.waitsErase else b.waitsErase := apply_ite Jnl.waitsErase c a b
@[simp] theorem Jnl.ite_nextSeq (c : Prop) [Decidable c] (a b : Jnl) :
    (if c then a else b).nextSeq = if c then a.nextSeq else b.nextSeq := apply_ite Jnl.nextSeq c a b
@[simp] theorem Jnl.ite_sectors (c : Prop) [Decidable c] (a b : Jnl) :
    (if c then a else b).sectors = if c then a.sectors else b.sectors := apply_ite Jnl.sectors c a b
@[simp] theorem Jnl.ite_directory (c : Prop) [Decidable c] (a b : Jnl) :
    (if c then a else b).directory = if c then a.directory else b.directory := apply_ite Jnl.directory c a b
@[simp] theorem Jnl.ite_cursor (c : Prop) [Decidable c] (a b : Jnl) :
    (if c then a else b).cursor = if c then a.cursor else b.cursor := apply_ite Jnl.cursor c a b
@[simp] theorem Jnl.ite_credit (c : Prop) [Decidable c] (a b : Jnl) :
    (if c then a else b).credit = if c then a.credit else b.credit := apply_ite Jnl.credit c a b
@[simp] theorem Flt.ite_latched (c : Prop) [Decidable c] (a b : Flt) :
    (if c then a else b).latched = if c then a.latched else b.latched := apply_ite Flt.latched c a b
@[simp] theorem Flt.ite_coldFlag (c : Prop) [Decidable c] (a b : Flt) :
    (if c then a else b).coldFlag = if c then a.coldFlag else b.coldFlag := apply_ite Flt.coldFlag c a b
@[simp] theorem Pwr.ite_state (c : Prop) [Decidable c] (a b : Pwr) :
    (if c then a else b).state = if c then a.state else b.state := apply_ite Pwr.state c a b
@[simp] theorem Pwr.ite_retainAt (c : Prop) [Decidable c] (a b : Pwr) :
    (if c then a else b).retainAt = if c then a.retainAt else b.retainAt := apply_ite Pwr.retainAt c a b
@[simp] theorem Pwr.ite_check (c : Prop) [Decidable c] (a b : Pwr) :
    (if c then a else b).check = if c then a.check else b.check := apply_ite Pwr.check c a b
@[simp] theorem Pwr.ite_abandoned (c : Prop) [Decidable c] (a b : Pwr) :
    (if c then a else b).abandoned = if c then a.abandoned else b.abandoned := apply_ite Pwr.abandoned c a b

end Sys2Proof.Machine
end

