-- ==== Sys2Proof/Laws/Frames.lean ====
section
/-!
SUPPORT. The frame of each shared operation: every part of the state it leaves as it was. Where a block stands
as one equation no field of it changes; where its fields or groups stand singly, those not named may change.
-/

namespace Sys2Proof.Machine

/-- A value that no step of a fold changes is not changed by the fold. -/
theorem foldl_inv {α β γ : Type} (g : β → γ) (f : β → α → β) (h : ∀ b a, g (f b a) = g b) (l : List α) (b : β) :
    g (l.foldl f b) = g b := by
  induction l generalizing b with
  | nil => rfl
  | cons a l ih => rw [List.foldl_cons, ih, h]

@[simp] theorem passTo_frame m (s : State) :
    Kept.outer (passTo m s) s ∧ Kept.shift (passTo m s) s ∧ Kept.deep (passTo m s) s ∧
      (passTo m s).pending = s.pending ∧ (passTo m s).free = s.free ∧ (passTo m s).array = s.array ∧
      (passTo m s).lif = s.lif ∧ (passTo m s).nsc = s.nsc ∧ (passTo m s).icm = s.icm := by
  simp [passTo]

@[simp] theorem raise_frame f (s : State) :
    Kept.base (raise f s) s ∧ Kept.outer (raise f s) s ∧ Kept.shift (raise f s) s ∧ (raise f s).lif = s.lif ∧
      (raise f s).nsc = s.nsc ∧ (raise f s).icm = s.icm ∧ (raise f s).jnl = s.jnl ∧
      (raise f s).flt.coldFlag = s.flt.coldFlag := by
  simp [raise]

@[simp] theorem raiseIf_frame c f (s : State) :
    Kept.base (raiseIf c f s) s ∧ Kept.outer (raiseIf c f s) s ∧ Kept.shift (raiseIf c f s) s ∧
      (raiseIf c f s).lif = s.lif ∧ (raiseIf c f s).nsc = s.nsc ∧ (raiseIf c f s).icm = s.icm ∧
      (raiseIf c f s).jnl = s.jnl ∧ (raiseIf c f s).flt.coldFlag = s.flt.coldFlag := by
  simp [raiseIf]

@[simp] theorem renew_frame n (s : State) :
    Kept.base (renew n s) s ∧ Kept.outer (renew n s) s ∧ Kept.shift (renew n s) s ∧ Kept.deep (renew n s) s ∧
      Kept.line (renew n s) s ∧ (renew n s).lif.stations = s.lif.stations ∧ (renew n s).nsc = s.nsc ∧
      (renew n s).icm = s.icm := by
  simp [renew]

@[simp] theorem placeAssist_frame c (s : State) :
    Kept.base (placeAssist c s) s ∧ Kept.outer (placeAssist c s) s ∧ Kept.shift (placeAssist c s) s ∧
      Kept.deep (placeAssist c s) s ∧ Kept.line (placeAssist c s) s ∧ Kept.sends (placeAssist c s) s ∧
      Kept.money (placeAssist c s) s ∧ (placeAssist c s).lif.stations = s.lif.stations ∧
      (placeAssist c s).nsc.replies = s.nsc.replies ∧ (placeAssist c s).nsc.sign = s.nsc.sign ∧
      (placeAssist c s).nsc.calls = s.nsc.calls ∧ (placeAssist c s).nsc.fleet = s.nsc.fleet ∧
      (placeAssist c s).nsc.journal = s.nsc.journal ∧ (placeAssist c s).icm = s.icm := by
  simp [placeAssist]

@[simp] theorem withdrawAssist_frame (s : State) :
    Kept.base (withdrawAssist s) s ∧ Kept.outer (withdrawAssist s) s ∧ Kept.shift (withdrawAssist s) s ∧
      Kept.deep (withdrawAssist s) s ∧ Kept.line (withdrawAssist s) s ∧ Kept.sends (withdrawAssist s) s ∧
      Kept.money (withdrawAssist s) s ∧ (withdrawAssist s).lif.stations = s.lif.stations ∧
      (withdrawAssist s).nsc.replies = s.nsc.replies ∧ (withdrawAssist s).nsc.sign = s.nsc.sign ∧
      (withdrawAssist s).nsc.calls = s.nsc.calls ∧ (withdrawAssist s).nsc.fleet = s.nsc.fleet ∧
      (withdrawAssist s).nsc.journal = s.nsc.journal ∧ (withdrawAssist s).icm = s.icm := by
  simp [withdrawAssist]

@[simp] theorem placeReply_frame r (s : State) :
    Kept.base (placeReply r s) s ∧ Kept.outer (placeReply r s) s ∧ Kept.shift (placeReply r s) s ∧
      Kept.sends (placeReply r s) s ∧ Kept.money (placeReply r s) s ∧ (placeReply r s).lif = s.lif ∧
      (placeReply r s).nsc.assist = s.nsc.assist ∧ (placeReply r s).nsc.sign = s.nsc.sign ∧
      (placeReply r s).nsc.calls = s.nsc.calls ∧ (placeReply r s).nsc.fleet = s.nsc.fleet ∧
      (placeReply r s).nsc.journal = s.nsc.journal ∧ (placeReply r s).icm = s.icm ∧
      (placeReply r s).jnl = s.jnl ∧ (placeReply r s).flt.coldFlag = s.flt.coldFlag := by
  simp [placeReply]

@[simp] theorem accept_frame q v (s : State) :
    Kept.base (accept q v s) s ∧ Kept.outer (accept q v s) s ∧ Kept.shift (accept q v s) s ∧
      Kept.sends (accept q v s) s ∧ Kept.money (accept q v s) s ∧ (accept q v s).lif = s.lif ∧
      (accept q v s).nsc.assist = s.nsc.assist ∧ (accept q v s).nsc.sign = s.nsc.sign ∧
      (accept q v s).nsc.calls = s.nsc.calls ∧ (accept q v s).nsc.fleet = s.nsc.fleet ∧
      (accept q v s).nsc.journal = s.nsc.journal ∧ (accept q v s).icm = s.icm ∧ (accept q v s).jnl = s.jnl ∧
      (accept q v s).flt.coldFlag = s.flt.coldFlag := by
  simp [accept]

@[simp] theorem refuse_frame q c (s : State) :
    Kept.base (refuse q c s) s ∧ Kept.outer (refuse q c s) s ∧ Kept.shift (refuse q c s) s ∧
      Kept.sends (refuse q c s) s ∧ Kept.money (refuse q c s) s ∧ (refuse q c s).lif = s.lif ∧
      (refuse q c s).nsc.assist = s.nsc.assist ∧ (refuse q c s).nsc.sign = s.nsc.sign ∧
      (refuse q c s).nsc.calls = s.nsc.calls ∧ (refuse q c s).nsc.fleet = s.nsc.fleet ∧
      (refuse q c s).nsc.journal = s.nsc.journal ∧ (refuse q c s).icm = s.icm ∧ (refuse q c s).jnl = s.jnl ∧
      (refuse q c s).flt.coldFlag = s.flt.coldFlag := by
  simp [refuse]

@[simp] theorem placeOffer_frame i o (s : State) :
    Kept.base (placeOffer i o s) s ∧ Kept.outer (placeOffer i o s) s ∧ Kept.shift (placeOffer i o s) s ∧
      Kept.deep (placeOffer i o s) s ∧ Kept.line (placeOffer i o s) s ∧ Kept.sends (placeOffer i o s) s ∧
      Kept.news (placeOffer i o s) s ∧ (placeOffer i o s).lif.stations = s.lif.stations ∧
      (placeOffer i o s).nsc.sign = s.nsc.sign ∧ (placeOffer i o s).nsc.calls = s.nsc.calls ∧
      (placeOffer i o s).nsc.fares = s.nsc.fares ∧ (placeOffer i o s).nsc.journal = s.nsc.journal ∧
      (placeOffer i o s).nsc.print = s.nsc.print ∧ (placeOffer i o s).icm = s.icm := by
  simp [placeOffer]

@[simp] theorem withdrawOffer_frame i (s : State) :
    Kept.base (withdrawOffer i s) s ∧ Kept.outer (withdrawOffer i s) s ∧ Kept.shift (withdrawOffer i s) s ∧
      Kept.deep (withdrawOffer i s) s ∧ Kept.line (withdrawOffer i s) s ∧ Kept.sends (withdrawOffer i s) s ∧
      Kept.news (withdrawOffer i s) s ∧ (withdrawOffer i s).lif.stations = s.lif.stations ∧
      (withdrawOffer i s).nsc.sign = s.nsc.sign ∧ (withdrawOffer i s).nsc.calls = s.nsc.calls ∧
      (withdrawOffer i s).nsc.fares = s.nsc.fares ∧ (withdrawOffer i s).nsc.journal = s.nsc.journal ∧
      (withdrawOffer i s).nsc.print = s.nsc.print ∧ (withdrawOffer i s).icm = s.icm := by
  simp [withdrawOffer]

@[simp] theorem placeFareShow_frame i f (s : State) :
    Kept.base (placeFareShow i f s) s ∧ Kept.outer (placeFareShow i f s) s ∧
      Kept.shift (placeFareShow i f s) s ∧ Kept.deep (placeFareShow i f s) s ∧
      Kept.line (placeFareShow i f s) s ∧ Kept.sends (placeFareShow i f s) s ∧
      Kept.news (placeFareShow i f s) s ∧ (placeFareShow i f s).lif.stations = s.lif.stations ∧
      (placeFareShow i f s).nsc.sign = s.nsc.sign ∧ (placeFareShow i f s).nsc.offers = s.nsc.offers ∧
      (placeFareShow i f s).nsc.calls = s.nsc.calls ∧ (placeFareShow i f s).nsc.journal = s.nsc.journal ∧
      (placeFareShow i f s).nsc.print = s.nsc.print ∧ (placeFareShow i f s).icm = s.icm := by
  simp [placeFareShow]

@[simp] theorem placeCallNotice_frame p c (s : State) :
    Kept.base (placeCallNotice p c s) s ∧ Kept.outer (placeCallNotice p c s) s ∧
      Kept.shift (placeCallNotice p c s) s ∧ Kept.deep (placeCallNotice p c s) s ∧
      Kept.line (placeCallNotice p c s) s ∧ Kept.sends (placeCallNotice p c s) s ∧
      Kept.money (placeCallNotice p c s) s ∧ Kept.news (placeCallNotice p c s) s ∧
      (placeCallNotice p c s).lif.stations = s.lif.stations ∧ (placeCallNotice p c s).nsc.sign = s.nsc.sign ∧
      (placeCallNotice p c s).nsc.journal = s.nsc.journal ∧ (placeCallNotice p c s).icm = s.icm := by
  simp [placeCallNotice]

@[simp] theorem placeSign_frame (s : State) :
    Kept.base (placeSign s) s ∧ Kept.outer (placeSign s) s ∧ Kept.shift (placeSign s) s ∧
      Kept.deep (placeSign s) s ∧ Kept.line (placeSign s) s ∧ Kept.sends (placeSign s) s ∧
      Kept.money (placeSign s) s ∧ Kept.news (placeSign s) s ∧ (placeSign s).lif.stations = s.lif.stations ∧
      (placeSign s).nsc.calls = s.nsc.calls ∧ (placeSign s).nsc.journal = s.nsc.journal ∧
      (placeSign s).icm = s.icm := by
  simp [placeSign]

@[simp] theorem placeItem_frame it (s : State) :
    Kept.base (placeItem it s) s ∧ Kept.outer (placeItem it s) s ∧ Kept.shift (placeItem it s) s ∧
      Kept.deep (placeItem it s) s ∧ Kept.line (placeItem it s) s ∧ Kept.sends (placeItem it s) s ∧
      Kept.money (placeItem it s) s ∧ (placeItem it s).lif.stations = s.lif.stations ∧
      (placeItem it s).nsc.assist = s.nsc.assist ∧ (placeItem it s).nsc.replies = s.nsc.replies ∧
      (placeItem it s).nsc.sign = s.nsc.sign ∧ (placeItem it s).nsc.calls = s.nsc.calls ∧
      (placeItem it s).nsc.journal = s.nsc.journal ∧ (placeItem it s).icm = s.icm := by
  simp [placeItem]

@[simp] theorem placeReadFrame_frame f (s : State) :
    Kept.base (placeReadFrame f s) s ∧ Kept.outer (placeReadFrame f s) s ∧ Kept.shift (placeReadFrame f s) s ∧
      Kept.deep (placeReadFrame f s) s ∧ Kept.line (placeReadFrame f s) s ∧ Kept.sends (placeReadFrame f s) s ∧
      Kept.money (placeReadFrame f s) s ∧ Kept.news (placeReadFrame f s) s ∧
      (placeReadFrame f s).lif.stations = s.lif.stations ∧ (placeReadFrame f s).nsc.sign = s.nsc.sign ∧
      (placeReadFrame f s).nsc.calls = s.nsc.calls ∧ (placeReadFrame f s).icm = s.icm := by
  simp [placeReadFrame]

@[simp] theorem withdrawReadFrame_frame (s : State) :
    Kept.base (withdrawReadFrame s) s ∧ Kept.outer (withdrawReadFrame s) s ∧
      Kept.shift (withdrawReadFrame s) s ∧ Kept.deep (withdrawReadFrame s) s ∧
      Kept.line (withdrawReadFrame s) s ∧ Kept.sends (withdrawReadFrame s) s ∧
      Kept.money (withdrawReadFrame s) s ∧ Kept.news (withdrawReadFrame s) s ∧
      (withdrawReadFrame s).lif.stations = s.lif.stations ∧ (withdrawReadFrame s).nsc.sign = s.nsc.sign ∧
      (withdrawReadFrame s).nsc.calls = s.nsc.calls ∧ (withdrawReadFrame s).icm = s.icm := by
  simp [withdrawReadFrame]

@[simp] theorem placePrint_frame it (s : State) :
    Kept.base (placePrint it s) s ∧ Kept.outer (placePrint it s) s ∧ Kept.shift (placePrint it s) s ∧
      Kept.deep (placePrint it s) s ∧ Kept.line (placePrint it s) s ∧ Kept.sends (placePrint it s) s ∧
      Kept.news (placePrint it s) s ∧ (placePrint it s).lif.stations = s.lif.stations ∧
      (placePrint it s).nsc.sign = s.nsc.sign ∧ (placePrint it s).nsc.offers = s.nsc.offers ∧
      (placePrint it s).nsc.calls = s.nsc.calls ∧ (placePrint it s).nsc.fares = s.nsc.fares ∧
      (placePrint it s).nsc.journal = s.nsc.journal ∧ (placePrint it s).icm = s.icm := by
  simp [placePrint]

@[simp] theorem withdrawPrint_frame (s : State) :
    Kept.base (withdrawPrint s) s ∧ Kept.outer (withdrawPrint s) s ∧ Kept.shift (withdrawPrint s) s ∧
      Kept.deep (withdrawPrint s) s ∧ Kept.line (withdrawPrint s) s ∧ Kept.sends (withdrawPrint s) s ∧
      Kept.news (withdrawPrint s) s ∧ (withdrawPrint s).lif.stations = s.lif.stations ∧
      (withdrawPrint s).nsc.sign = s.nsc.sign ∧ (withdrawPrint s).nsc.offers = s.nsc.offers ∧
      (withdrawPrint s).nsc.calls = s.nsc.calls ∧ (withdrawPrint s).nsc.fares = s.nsc.fares ∧
      (withdrawPrint s).nsc.journal = s.nsc.journal ∧ (withdrawPrint s).icm = s.icm := by
  simp [withdrawPrint]

@[simp] theorem placeAnnounce_frame (s : State) :
    Kept.base (placeAnnounce s) s ∧ Kept.outer (placeAnnounce s) s ∧ Kept.shift (placeAnnounce s) s ∧
      Kept.deep (placeAnnounce s) s ∧ Kept.line (placeAnnounce s) s ∧ Kept.money (placeAnnounce s) s ∧
      Kept.news (placeAnnounce s) s ∧ (placeAnnounce s).lif.stations = s.lif.stations ∧
      (placeAnnounce s).nsc.sign = s.nsc.sign ∧ (placeAnnounce s).nsc.calls = s.nsc.calls ∧
      (placeAnnounce s).nsc.fareSent = s.nsc.fareSent ∧ (placeAnnounce s).nsc.journal = s.nsc.journal ∧
      (placeAnnounce s).nsc.lastOffer = s.nsc.lastOffer ∧ (placeAnnounce s).nsc.lastCall = s.nsc.lastCall ∧
      (placeAnnounce s).nsc.lastFare = s.nsc.lastFare ∧ (placeAnnounce s).icm = s.icm := by
  simp [placeAnnounce]

@[simp] theorem updateStation_frame a f (s : State) :
    Kept.base (updateStation a f s) s ∧ Kept.outer (updateStation a f s) s ∧
      Kept.shift (updateStation a f s) s ∧ Kept.deep (updateStation a f s) s ∧
      Kept.line (updateStation a f s) s ∧ (updateStation a f s).lif.tx = s.lif.tx ∧
      (updateStation a f s).nsc = s.nsc ∧ (updateStation a f s).icm = s.icm := by
  simp [updateStation]

@[simp] theorem setLeg_frame i l (s : State) :
    Kept.base (setLeg i l s) s ∧ Kept.outer (setLeg i l s) s ∧ Kept.deep (setLeg i l s) s ∧
      (setLeg i l s).lif = s.lif ∧ (setLeg i l s).nsc = s.nsc ∧ (setLeg i l s).fare.lastLeg = s.fare.lastLeg ∧
      (setLeg i l s).cab = s.cab ∧ (setLeg i l s).icm = s.icm ∧ (setLeg i l s).acc = s.acc := by
  simp [setLeg]

@[simp] theorem clearLeg_frame i (s : State) :
    Kept.base (clearLeg i s) s ∧ Kept.outer (clearLeg i s) s ∧ Kept.deep (clearLeg i s) s ∧
      (clearLeg i s).lif = s.lif ∧ (clearLeg i s).nsc = s.nsc ∧ (clearLeg i s).fare.lastLeg = s.fare.lastLeg ∧
      (clearLeg i s).cab = s.cab ∧ (clearLeg i s).icm = s.icm ∧ (clearLeg i s).acc = s.acc := by
  simp [clearLeg]

@[simp] theorem updateLeg_frame i f (s : State) :
    Kept.base (updateLeg i f s) s ∧ Kept.outer (updateLeg i f s) s ∧ Kept.deep (updateLeg i f s) s ∧
      (updateLeg i f s).lif = s.lif ∧ (updateLeg i f s).nsc = s.nsc ∧
      (updateLeg i f s).fare.lastLeg = s.fare.lastLeg ∧ (updateLeg i f s).cab = s.cab ∧
      (updateLeg i f s).icm = s.icm ∧ (updateLeg i f s).acc = s.acc := by
  unfold updateLeg
  split <;> simp

@[simp] theorem raiseRead_frame c (s : State) :
    Kept.base (raiseRead c s) s ∧ Kept.outer (raiseRead c s) s ∧ Kept.shift (raiseRead c s) s ∧
      (raiseRead c s).lif = s.lif ∧ (raiseRead c s).nsc = s.nsc ∧ (raiseRead c s).icm = s.icm ∧
      (raiseRead c s).jnl = s.jnl ∧ (raiseRead c s).flt.coldFlag = s.flt.coldFlag := by
  unfold raiseRead
  split <;> simp

@[simp] theorem setSector_frame c e (s : State) :
    Kept.base (setSector c e s) s ∧ Kept.outer (setSector c e s) s ∧ Kept.shift (setSector c e s) s ∧
      Kept.ring (setSector c e s) s ∧ Kept.reader (setSector c e s) s ∧ (setSector c e s).lif = s.lif ∧
      (setSector c e s).nsc = s.nsc ∧ (setSector c e s).icm = s.icm ∧
      (setSector c e s).jnl.inFlight = s.jnl.inFlight ∧ (setSector c e s).jnl.waiting = s.jnl.waiting ∧
      (setSector c e s).flt = s.flt := by
  simp [setSector]

@[simp] theorem startOp_frame op (s : State) :
    Kept.base (startOp op s) s ∧ Kept.outer (startOp op s) s ∧ Kept.shift (startOp op s) s ∧
      Kept.sends (startOp op s) s ∧ Kept.money (startOp op s) s ∧ Kept.ring (startOp op s) s ∧
      Kept.reader (startOp op s) s ∧ (startOp op s).lif = s.lif ∧ (startOp op s).nsc.assist = s.nsc.assist ∧
      (startOp op s).nsc.sign = s.nsc.sign ∧ (startOp op s).nsc.calls = s.nsc.calls ∧
      (startOp op s).nsc.fleet = s.nsc.fleet ∧ (startOp op s).nsc.journal = s.nsc.journal ∧
      (startOp op s).icm = s.icm ∧ (startOp op s).jnl.waiting = s.jnl.waiting ∧
      (startOp op s).jnl.sectors = s.jnl.sectors ∧ (startOp op s).flt.coldFlag = s.flt.coldFlag := by
  unfold startOp
  split <;> simp

@[simp] theorem requestOp_frame op (s : State) :
    Kept.base (requestOp op s) s ∧ Kept.outer (requestOp op s) s ∧ Kept.shift (requestOp op s) s ∧
      Kept.sends (requestOp op s) s ∧ Kept.money (requestOp op s) s ∧ Kept.ring (requestOp op s) s ∧
      Kept.reader (requestOp op s) s ∧ (requestOp op s).lif = s.lif ∧
      (requestOp op s).nsc.assist = s.nsc.assist ∧ (requestOp op s).nsc.sign = s.nsc.sign ∧
      (requestOp op s).nsc.calls = s.nsc.calls ∧ (requestOp op s).nsc.fleet = s.nsc.fleet ∧
      (requestOp op s).nsc.journal = s.nsc.journal ∧ (requestOp op s).icm = s.icm ∧
      (requestOp op s).jnl.sectors = s.jnl.sectors ∧ (requestOp op s).flt.coldFlag = s.flt.coldFlag := by
  simp [requestOp]

@[simp] theorem requestOp_journalProgram_frame (r : Nat) (s : State) :
    (requestOp (.journalProgram r) s).nsc = s.nsc ∧ (requestOp (.journalProgram r) s).flt = s.flt := by simp [requestOp, startOp]

@[simp] theorem requestOp_journalErase_frame (c : Nat) (s : State) :
    (requestOp (.journalErase c) s).nsc = s.nsc ∧ (requestOp (.journalErase c) s).flt = s.flt := by simp [requestOp, startOp]

@[simp] theorem requestOp_tariffPart_frame (r : Nat) (x : List Byte) (a : Nat) (s : State) :
    (requestOp (.tariffPart r x a) s).nsc = s.nsc ∧ (requestOp (.tariffPart r x a) s).flt = s.flt := by simp [requestOp, startOp]

@[simp] theorem requestOp_tariffMark_frame (r a : Nat) (s : State) :
    (requestOp (.tariffMark r a) s).nsc = s.nsc ∧ (requestOp (.tariffMark r a) s).flt = s.flt := by simp [requestOp, startOp]

@[simp] theorem requestOp_tariffCommit_frame (r n m a : Nat) (s : State) :
    (requestOp (.tariffCommit r n m a) s).nsc = s.nsc ∧ (requestOp (.tariffCommit r n m a) s).flt = s.flt := by simp [requestOp, startOp]

@[simp] theorem requestOp_tariffErase_frame (a : Nat) (s : State) :
    (requestOp (.tariffErase 1 a) s).nsc = s.nsc ∧ (requestOp (.tariffErase 1 a) s).flt = s.flt := by simp [requestOp, startOp]

@[simp] theorem programDue_frame (s : State) :
    Kept.base (programDue s) s ∧ Kept.outer (programDue s) s ∧ Kept.shift (programDue s) s ∧
      Kept.reader (programDue s) s ∧ (programDue s).lif = s.lif ∧ (programDue s).nsc = s.nsc ∧
      (programDue s).icm = s.icm ∧ (programDue s).jnl.append = s.jnl.append ∧
      (programDue s).jnl.nextSeq = s.jnl.nextSeq ∧ (programDue s).jnl.sectors = s.jnl.sectors ∧
      (programDue s).jnl.directory = s.jnl.directory ∧ (programDue s).flt = s.flt := by
  simp [programDue]

@[simp] theorem eraseAhead_frame (s : State) :
    Kept.base (eraseAhead s) s ∧ Kept.outer (eraseAhead s) s ∧ Kept.shift (eraseAhead s) s ∧
      Kept.ring (eraseAhead s) s ∧ Kept.reader (eraseAhead s) s ∧ (eraseAhead s).lif = s.lif ∧
      (eraseAhead s).nsc = s.nsc ∧ (eraseAhead s).icm = s.icm ∧ (eraseAhead s).flt = s.flt := by
  simp [eraseAhead]

@[simp] theorem enqueueRecord_frame r (s : State) :
    Kept.base (enqueueRecord r s) s ∧ Kept.outer (enqueueRecord r s) s ∧ Kept.shift (enqueueRecord r s) s ∧
      Kept.reader (enqueueRecord r s) s ∧ (enqueueRecord r s).lif = s.lif ∧ (enqueueRecord r s).nsc = s.nsc ∧
      (enqueueRecord r s).icm = s.icm ∧ (enqueueRecord r s).jnl.inFlight = s.jnl.inFlight ∧
      (enqueueRecord r s).jnl.waiting = s.jnl.waiting ∧ (enqueueRecord r s).jnl.writePos = s.jnl.writePos ∧
      (enqueueRecord r s).jnl.waitsErase = s.jnl.waitsErase ∧
      (enqueueRecord r s).jnl.sectors = s.jnl.sectors ∧ (enqueueRecord r s).flt = s.flt := by
  simp [enqueueRecord]

@[simp] theorem claim_frame r (s : State) :
    Kept.base (claim r s) s ∧ Kept.outer (claim r s) s ∧ Kept.shift (claim r s) s ∧ Kept.reader (claim r s) s ∧
      (claim r s).lif = s.lif ∧ (claim r s).nsc = s.nsc ∧ (claim r s).icm = s.icm ∧ (claim r s).flt = s.flt := by
  simp [claim]

@[simp] theorem countShift_frame f (s : State) :
    Kept.base (countShift f s) s ∧ Kept.outer (countShift f s) s ∧ Kept.deep (countShift f s) s ∧
      Kept.lists (countShift f s) s ∧ (countShift f s).lif = s.lif ∧ (countShift f s).nsc = s.nsc ∧
      (countShift f s).fare = s.fare ∧ (countShift f s).cab = s.cab ∧ (countShift f s).icm = s.icm ∧
      (countShift f s).acc.unresolved = s.acc.unresolved ∧ (countShift f s).acc.jobs = s.acc.jobs ∧
      (countShift f s).acc.credit = s.acc.credit := by
  simp [countShift]

@[simp] theorem claimEvent_frame t b (s : State) :
    Kept.base (claimEvent t b s) s ∧ Kept.outer (claimEvent t b s) s ∧ Kept.lists (claimEvent t b s) s ∧
      Kept.reader (claimEvent t b s) s ∧ (claimEvent t b s).lif = s.lif ∧ (claimEvent t b s).nsc = s.nsc ∧
      (claimEvent t b s).fare = s.fare ∧ (claimEvent t b s).cab = s.cab ∧ (claimEvent t b s).icm = s.icm ∧
      (claimEvent t b s).acc.unresolved = s.acc.unresolved ∧ (claimEvent t b s).acc.jobs = s.acc.jobs ∧
      (claimEvent t b s).acc.credit = s.acc.credit ∧ (claimEvent t b s).flt = s.flt := by
  simp [claimEvent]

@[simp] theorem claimEventIfOpen_frame t b (s : State) :
    Kept.base (claimEventIfOpen t b s) s ∧ Kept.outer (claimEventIfOpen t b s) s ∧
      Kept.lists (claimEventIfOpen t b s) s ∧ Kept.reader (claimEventIfOpen t b s) s ∧
      (claimEventIfOpen t b s).lif = s.lif ∧ (claimEventIfOpen t b s).nsc = s.nsc ∧
      (claimEventIfOpen t b s).fare = s.fare ∧ (claimEventIfOpen t b s).cab = s.cab ∧
      (claimEventIfOpen t b s).icm = s.icm ∧ (claimEventIfOpen t b s).acc.unresolved = s.acc.unresolved ∧
      (claimEventIfOpen t b s).acc.jobs = s.acc.jobs ∧ (claimEventIfOpen t b s).acc.credit = s.acc.credit ∧
      (claimEventIfOpen t b s).flt = s.flt := by
  simp [claimEventIfOpen]

@[simp] theorem freeEntries_frame (s : State) :
    Kept.base (freeEntries s) s ∧ Kept.outer (freeEntries s) s ∧ Kept.shift (freeEntries s) s ∧
      Kept.reader (freeEntries s) s ∧ (freeEntries s).lif = s.lif ∧ (freeEntries s).nsc = s.nsc ∧
      (freeEntries s).icm = s.icm ∧ (freeEntries s).jnl.inFlight = s.jnl.inFlight ∧
      (freeEntries s).jnl.waiting = s.jnl.waiting ∧ (freeEntries s).jnl.append = s.jnl.append ∧
      (freeEntries s).jnl.writePos = s.jnl.writePos ∧
      (freeEntries s).jnl.waitsErase = s.jnl.waitsErase ∧ (freeEntries s).jnl.nextSeq = s.jnl.nextSeq ∧
      (freeEntries s).jnl.sectors = s.jnl.sectors ∧ (freeEntries s).flt = s.flt := by
  simp [freeEntries]

@[simp] theorem updateEntry_frame n f (s : State) :
    Kept.base (updateEntry n f s) s ∧ Kept.outer (updateEntry n f s) s ∧ Kept.shift (updateEntry n f s) s ∧
      Kept.reader (updateEntry n f s) s ∧ (updateEntry n f s).lif = s.lif ∧ (updateEntry n f s).nsc = s.nsc ∧
      (updateEntry n f s).icm = s.icm ∧ (updateEntry n f s).jnl.inFlight = s.jnl.inFlight ∧
      (updateEntry n f s).jnl.waiting = s.jnl.waiting ∧ (updateEntry n f s).jnl.append = s.jnl.append ∧
      (updateEntry n f s).jnl.writePos = s.jnl.writePos ∧
      (updateEntry n f s).jnl.waitsErase = s.jnl.waitsErase ∧ (updateEntry n f s).jnl.nextSeq = s.jnl.nextSeq ∧
      (updateEntry n f s).jnl.sectors = s.jnl.sectors ∧ (updateEntry n f s).flt = s.flt := by
  simp [updateEntry]

@[simp] theorem placeEnd_frame (c : Cursor) (s : State) :
    Kept.base (placeEnd c s) s ∧ Kept.outer (placeEnd c s) s ∧ Kept.shift (placeEnd c s) s ∧
      Kept.line (placeEnd c s) s ∧ Kept.sends (placeEnd c s) s ∧ Kept.money (placeEnd c s) s ∧
      Kept.news (placeEnd c s) s ∧ Kept.ring (placeEnd c s) s ∧ (placeEnd c s).lif.stations = s.lif.stations ∧
      (placeEnd c s).nsc.sign = s.nsc.sign ∧ (placeEnd c s).nsc.calls = s.nsc.calls ∧ (placeEnd c s).icm = s.icm ∧
      (placeEnd c s).jnl.inFlight = s.jnl.inFlight ∧ (placeEnd c s).jnl.waiting = s.jnl.waiting ∧
      (placeEnd c s).jnl.sectors = s.jnl.sectors ∧ (placeEnd c s).jnl.credit = s.jnl.credit ∧
      (placeEnd c s).flt = s.flt := by
  simp [placeEnd]

@[simp] theorem makeRead_frame (s : State) :
    Kept.base (makeRead s) s ∧ Kept.outer (makeRead s) s ∧ Kept.shift (makeRead s) s ∧
      Kept.line (makeRead s) s ∧ Kept.sends (makeRead s) s ∧ Kept.money (makeRead s) s ∧
      Kept.news (makeRead s) s ∧ Kept.ring (makeRead s) s ∧ (makeRead s).lif.stations = s.lif.stations ∧
      (makeRead s).nsc.sign = s.nsc.sign ∧ (makeRead s).nsc.calls = s.nsc.calls ∧ (makeRead s).icm = s.icm ∧
      (makeRead s).jnl.inFlight = s.jnl.inFlight ∧ (makeRead s).jnl.waiting = s.jnl.waiting ∧
      (makeRead s).jnl.sectors = s.jnl.sectors ∧ (makeRead s).jnl.credit = s.jnl.credit ∧
      (makeRead s).flt.coldFlag = s.flt.coldFlag := by
  unfold makeRead; (repeat' split) <;> simp

@[simp] theorem placeRow_frame (s : State) :
    Kept.base (placeRow s) s ∧ Kept.outer (placeRow s) s ∧ Kept.shift (placeRow s) s ∧
      Kept.line (placeRow s) s ∧ Kept.sends (placeRow s) s ∧ Kept.money (placeRow s) s ∧
      Kept.news (placeRow s) s ∧ Kept.ring (placeRow s) s ∧ (placeRow s).lif.stations = s.lif.stations ∧
      (placeRow s).nsc.sign = s.nsc.sign ∧ (placeRow s).nsc.calls = s.nsc.calls ∧ (placeRow s).icm = s.icm ∧
      (placeRow s).jnl.inFlight = s.jnl.inFlight ∧ (placeRow s).jnl.waiting = s.jnl.waiting ∧
      (placeRow s).jnl.sectors = s.jnl.sectors ∧ (placeRow s).jnl.credit = s.jnl.credit ∧
      (placeRow s).flt.coldFlag = s.flt.coldFlag := by
  unfold placeRow
  split <;> simp

@[simp] theorem clearCursor_frame (s : State) :
    Kept.base (clearCursor s) s ∧ Kept.outer (clearCursor s) s ∧ Kept.shift (clearCursor s) s ∧
      Kept.line (clearCursor s) s ∧ Kept.sends (clearCursor s) s ∧ Kept.money (clearCursor s) s ∧
      Kept.news (clearCursor s) s ∧ Kept.ring (clearCursor s) s ∧
      (clearCursor s).lif.stations = s.lif.stations ∧ (clearCursor s).nsc.sign = s.nsc.sign ∧
      (clearCursor s).nsc.calls = s.nsc.calls ∧ (clearCursor s).icm = s.icm ∧
      (clearCursor s).jnl.inFlight = s.jnl.inFlight ∧ (clearCursor s).jnl.waiting = s.jnl.waiting ∧
      (clearCursor s).jnl.sectors = s.jnl.sectors ∧ (clearCursor s).jnl.credit = s.jnl.credit ∧
      (clearCursor s).flt = s.flt := by
  simp [clearCursor]

@[simp] theorem completeOp_frame (s : State) :
    Kept.base (completeOp s) s ∧ Kept.outer (completeOp s) s ∧ Kept.shift (completeOp s) s ∧
      Kept.line (completeOp s) s ∧ Kept.sends (completeOp s) s ∧ Kept.money (completeOp s) s ∧
      Kept.news (completeOp s) s ∧ Kept.ring (completeOp s) s ∧ (completeOp s).lif.stations = s.lif.stations ∧
      (completeOp s).nsc.sign = s.nsc.sign ∧ (completeOp s).nsc.calls = s.nsc.calls ∧
      (completeOp s).icm = s.icm ∧ (completeOp s).jnl.waiting = s.jnl.waiting ∧
      (completeOp s).jnl.sectors = s.jnl.sectors ∧ (completeOp s).jnl.credit = s.jnl.credit ∧
      (completeOp s).flt.coldFlag = s.flt.coldFlag := by
  simp [completeOp]

@[simp] theorem startNext_frame (s : State) :
    Kept.base (startNext s) s ∧ Kept.outer (startNext s) s ∧ Kept.shift (startNext s) s ∧
      Kept.sends (startNext s) s ∧ Kept.money (startNext s) s ∧ Kept.ring (startNext s) s ∧
      Kept.reader (startNext s) s ∧ (startNext s).lif = s.lif ∧ (startNext s).nsc.assist = s.nsc.assist ∧
      (startNext s).nsc.sign = s.nsc.sign ∧ (startNext s).nsc.calls = s.nsc.calls ∧
      (startNext s).nsc.fleet = s.nsc.fleet ∧ (startNext s).nsc.journal = s.nsc.journal ∧
      (startNext s).icm = s.icm ∧ (startNext s).jnl.sectors = s.jnl.sectors ∧
      (startNext s).flt.coldFlag = s.flt.coldFlag := by
  unfold startNext; (repeat' split) <;> simp

@[simp] theorem accountTick_frame p (s : State) :
    Kept.base (accountTick p s) s ∧ Kept.outer (accountTick p s) s ∧ Kept.deep (accountTick p s) s ∧
      Kept.lists (accountTick p s) s ∧ (accountTick p s).lif = s.lif ∧ (accountTick p s).nsc = s.nsc ∧
      (accountTick p s).fare = s.fare ∧ (accountTick p s).cab = s.cab ∧ (accountTick p s).icm = s.icm ∧
      (accountTick p s).acc.unresolved = s.acc.unresolved ∧ (accountTick p s).acc.jobs = s.acc.jobs ∧
      (accountTick p s).acc.credit = s.acc.credit := by
  simp [accountTick]

@[simp] theorem joinUnresolved_frame u (s : State) :
    Kept.base (joinUnresolved u s) s ∧ Kept.outer (joinUnresolved u s) s ∧ Kept.deep (joinUnresolved u s) s ∧
      Kept.lists (joinUnresolved u s) s ∧ (joinUnresolved u s).lif = s.lif ∧ (joinUnresolved u s).nsc = s.nsc ∧
      (joinUnresolved u s).fare = s.fare ∧ (joinUnresolved u s).cab = s.cab ∧
      (joinUnresolved u s).icm = s.icm ∧ (joinUnresolved u s).acc.jobs = s.acc.jobs ∧
      (joinUnresolved u s).acc.credit = s.acc.credit := by
  simp [joinUnresolved]

@[simp] theorem dropUnresolved_frame l a (s : State) :
    Kept.base (dropUnresolved l a s) s ∧ Kept.outer (dropUnresolved l a s) s ∧
      Kept.deep (dropUnresolved l a s) s ∧ Kept.lists (dropUnresolved l a s) s ∧
      (dropUnresolved l a s).lif = s.lif ∧ (dropUnresolved l a s).nsc = s.nsc ∧
      (dropUnresolved l a s).fare = s.fare ∧ (dropUnresolved l a s).cab = s.cab ∧
      (dropUnresolved l a s).icm = s.icm ∧ (dropUnresolved l a s).acc.shift = s.acc.shift ∧
      (dropUnresolved l a s).acc.jobs = s.acc.jobs ∧ (dropUnresolved l a s).acc.credit = s.acc.credit := by
  simp [dropUnresolved]

@[simp] theorem enterLate_frame l (s : State) :
    Kept.base (enterLate l s) s ∧ Kept.outer (enterLate l s) s ∧ Kept.deep (enterLate l s) s ∧
      Kept.line (enterLate l s) s ∧ Kept.sends (enterLate l s) s ∧ Kept.money (enterLate l s) s ∧
      (enterLate l s).lif.stations = s.lif.stations ∧ (enterLate l s).nsc.assist = s.nsc.assist ∧
      (enterLate l s).nsc.replies = s.nsc.replies ∧ (enterLate l s).nsc.sign = s.nsc.sign ∧
      (enterLate l s).nsc.calls = s.nsc.calls ∧ (enterLate l s).nsc.journal = s.nsc.journal ∧
      (enterLate l s).fare = s.fare ∧ (enterLate l s).cab = s.cab ∧ (enterLate l s).icm = s.icm ∧
      (enterLate l s).acc.lastShift = s.acc.lastShift ∧ (enterLate l s).acc.unresolved = s.acc.unresolved ∧
      (enterLate l s).acc.jobs = s.acc.jobs ∧ (enterLate l s).acc.credit = s.acc.credit := by
  simp [enterLate]

@[simp] theorem refreshPrint_frame (s : State) :
    Kept.base (refreshPrint s) s ∧ Kept.outer (refreshPrint s) s ∧ Kept.shift (refreshPrint s) s ∧
      Kept.deep (refreshPrint s) s ∧ Kept.line (refreshPrint s) s ∧ Kept.sends (refreshPrint s) s ∧
      Kept.news (refreshPrint s) s ∧ (refreshPrint s).lif.stations = s.lif.stations ∧
      (refreshPrint s).nsc.sign = s.nsc.sign ∧ (refreshPrint s).nsc.offers = s.nsc.offers ∧
      (refreshPrint s).nsc.calls = s.nsc.calls ∧ (refreshPrint s).nsc.fares = s.nsc.fares ∧
      (refreshPrint s).nsc.journal = s.nsc.journal ∧ (refreshPrint s).icm = s.icm := by
  unfold refreshPrint
  split <;> simp

@[simp] theorem joinJobs_frame b (s : State) :
    Kept.base (joinJobs b s) s ∧ Kept.outer (joinJobs b s) s ∧ Kept.line (joinJobs b s) s ∧
      Kept.sends (joinJobs b s) s ∧ Kept.news (joinJobs b s) s ∧ Kept.lists (joinJobs b s) s ∧
      (joinJobs b s).lif.stations = s.lif.stations ∧ (joinJobs b s).nsc.sign = s.nsc.sign ∧
      (joinJobs b s).nsc.offers = s.nsc.offers ∧ (joinJobs b s).nsc.calls = s.nsc.calls ∧
      (joinJobs b s).nsc.fares = s.nsc.fares ∧ (joinJobs b s).nsc.journal = s.nsc.journal ∧
      (joinJobs b s).fare = s.fare ∧ (joinJobs b s).cab = s.cab ∧ (joinJobs b s).icm = s.icm ∧
      (joinJobs b s).acc.shift = s.acc.shift ∧ (joinJobs b s).acc.unresolved = s.acc.unresolved ∧
      (joinJobs b s).acc.credit = s.acc.credit ∧ (joinJobs b s).jnl = s.jnl ∧
      (joinJobs b s).flt.coldFlag = s.flt.coldFlag := by
  unfold joinJobs; dsimp only; split <;> simp

@[simp] theorem placeReceipt_frame r z (s : State) :
    Kept.base (placeReceipt r z s) s ∧ Kept.outer (placeReceipt r z s) s ∧ Kept.line (placeReceipt r z s) s ∧
      Kept.sends (placeReceipt r z s) s ∧ Kept.news (placeReceipt r z s) s ∧ Kept.lists (placeReceipt r z s) s ∧
      (placeReceipt r z s).lif.stations = s.lif.stations ∧ (placeReceipt r z s).nsc.sign = s.nsc.sign ∧
      (placeReceipt r z s).nsc.offers = s.nsc.offers ∧ (placeReceipt r z s).nsc.calls = s.nsc.calls ∧
      (placeReceipt r z s).nsc.fares = s.nsc.fares ∧ (placeReceipt r z s).nsc.journal = s.nsc.journal ∧
      (placeReceipt r z s).fare = s.fare ∧ (placeReceipt r z s).cab = s.cab ∧ (placeReceipt r z s).icm = s.icm ∧
      (placeReceipt r z s).acc.shift = s.acc.shift ∧ (placeReceipt r z s).acc.unresolved = s.acc.unresolved ∧
      (placeReceipt r z s).acc.credit = s.acc.credit ∧ (placeReceipt r z s).jnl = s.jnl ∧
      (placeReceipt r z s).flt.coldFlag = s.flt.coldFlag := by
  unfold placeReceipt; (repeat' split) <;> simp

@[simp] theorem freeTransmitter_frame (s : State) :
    Kept.base (freeTransmitter s) s ∧ Kept.outer (freeTransmitter s) s ∧ Kept.shift (freeTransmitter s) s ∧
      Kept.deep (freeTransmitter s) s ∧ Kept.line (freeTransmitter s) s ∧
      (freeTransmitter s).lif.stations = s.lif.stations ∧ (freeTransmitter s).nsc = s.nsc ∧
      (freeTransmitter s).icm = s.icm := by
  simp [freeTransmitter]

@[simp] theorem letGo_frame (s : State) :
    Kept.base (letGo s) s ∧ Kept.outer (letGo s) s ∧ Kept.shift (letGo s) s ∧ Kept.deep (letGo s) s ∧
      Kept.line (letGo s) s ∧ (letGo s).lif.stations = s.lif.stations ∧ (letGo s).nsc = s.nsc ∧
      (letGo s).icm = s.icm := by
  unfold letGo
  split <;> simp

@[simp] theorem placeReport_frame b (s : State) :
    Kept.base (placeReport b s) s ∧ Kept.outer (placeReport b s) s ∧ Kept.line (placeReport b s) s ∧
      Kept.sends (placeReport b s) s ∧ Kept.news (placeReport b s) s ∧ Kept.lists (placeReport b s) s ∧
      (placeReport b s).lif.stations = s.lif.stations ∧ (placeReport b s).nsc.sign = s.nsc.sign ∧
      (placeReport b s).nsc.offers = s.nsc.offers ∧ (placeReport b s).nsc.calls = s.nsc.calls ∧
      (placeReport b s).nsc.fares = s.nsc.fares ∧ (placeReport b s).nsc.journal = s.nsc.journal ∧
      (placeReport b s).fare = s.fare ∧ (placeReport b s).cab = s.cab ∧ (placeReport b s).icm = s.icm ∧
      (placeReport b s).acc.shift = s.acc.shift ∧ (placeReport b s).acc.unresolved = s.acc.unresolved ∧
      (placeReport b s).acc.credit = s.acc.credit ∧ (placeReport b s).jnl = s.jnl ∧
      (placeReport b s).flt.coldFlag = s.flt.coldFlag := by
  unfold placeReport; dsimp only; (repeat' split) <;> simp

@[simp] theorem rewindHead_frame (s : State) :
    Kept.base (rewindHead s) s ∧ Kept.outer (rewindHead s) s ∧ Kept.deep (rewindHead s) s ∧
      Kept.lists (rewindHead s) s ∧ (rewindHead s).lif = s.lif ∧ (rewindHead s).nsc = s.nsc ∧
      (rewindHead s).fare = s.fare ∧ (rewindHead s).cab = s.cab ∧ (rewindHead s).icm = s.icm ∧
      (rewindHead s).acc.shift = s.acc.shift ∧ (rewindHead s).acc.unresolved = s.acc.unresolved ∧
      (rewindHead s).acc.credit = s.acc.credit := by
  unfold rewindHead
  split <;> simp

@[simp] theorem printerPause_frame (s : State) :
    Kept.base (printerPause s) s ∧ Kept.outer (printerPause s) s ∧ Kept.deep (printerPause s) s ∧
      Kept.line (printerPause s) s ∧ Kept.sends (printerPause s) s ∧ Kept.news (printerPause s) s ∧
      Kept.lists (printerPause s) s ∧ (printerPause s).lif.stations = s.lif.stations ∧
      (printerPause s).nsc.sign = s.nsc.sign ∧ (printerPause s).nsc.offers = s.nsc.offers ∧
      (printerPause s).nsc.calls = s.nsc.calls ∧ (printerPause s).nsc.fares = s.nsc.fares ∧
      (printerPause s).nsc.journal = s.nsc.journal ∧ (printerPause s).fare = s.fare ∧
      (printerPause s).cab = s.cab ∧ (printerPause s).icm = s.icm ∧ (printerPause s).acc.shift = s.acc.shift ∧
      (printerPause s).acc.unresolved = s.acc.unresolved := by
  simp [printerPause]

@[simp] theorem printSent_frame st (s : State) :
    Kept.base (printSent st s) s ∧ Kept.outer (printSent st s) s ∧ Kept.deep (printSent st s) s ∧
      Kept.line (printSent st s) s ∧ Kept.sends (printSent st s) s ∧ Kept.news (printSent st s) s ∧
      Kept.lists (printSent st s) s ∧ (printSent st s).lif.stations = s.lif.stations ∧
      (printSent st s).nsc.sign = s.nsc.sign ∧ (printSent st s).nsc.offers = s.nsc.offers ∧
      (printSent st s).nsc.calls = s.nsc.calls ∧ (printSent st s).nsc.fares = s.nsc.fares ∧
      (printSent st s).nsc.journal = s.nsc.journal ∧ (printSent st s).fare = s.fare ∧
      (printSent st s).cab = s.cab ∧ (printSent st s).icm = s.icm ∧ (printSent st s).acc.shift = s.acc.shift ∧
      (printSent st s).acc.unresolved = s.acc.unresolved := by
  unfold printSent; dsimp only; (repeat' split) <;> simp

@[simp] theorem accountLeg_frame r (s : State) :
    Kept.base (accountLeg r s) s ∧ Kept.outer (accountLeg r s) s ∧ Kept.line (accountLeg r s) s ∧
      Kept.sends (accountLeg r s) s ∧ Kept.news (accountLeg r s) s ∧ Kept.lists (accountLeg r s) s ∧
      (accountLeg r s).lif.stations = s.lif.stations ∧ (accountLeg r s).nsc.sign = s.nsc.sign ∧
      (accountLeg r s).nsc.offers = s.nsc.offers ∧ (accountLeg r s).nsc.calls = s.nsc.calls ∧
      (accountLeg r s).nsc.fares = s.nsc.fares ∧ (accountLeg r s).nsc.journal = s.nsc.journal ∧
      (accountLeg r s).fare = s.fare ∧ (accountLeg r s).cab = s.cab ∧ (accountLeg r s).icm = s.icm ∧
      (accountLeg r s).acc.unresolved = s.acc.unresolved ∧ (accountLeg r s).acc.credit = s.acc.credit ∧
      (accountLeg r s).jnl = s.jnl ∧ (accountLeg r s).flt.coldFlag = s.flt.coldFlag := by
  simp [accountLeg]

@[simp] theorem removeEntry_frame a (s : State) :
    Kept.base (removeEntry a s) s ∧ Kept.outer (removeEntry a s) s ∧ Kept.deep (removeEntry a s) s ∧
      Kept.line (removeEntry a s) s ∧ Kept.sends (removeEntry a s) s ∧ Kept.news (removeEntry a s) s ∧
      Kept.assist (removeEntry a s) s ∧ Kept.hire (removeEntry a s) s ∧ Kept.lists (removeEntry a s) s ∧
      (removeEntry a s).nsc.sign = s.nsc.sign ∧ (removeEntry a s).nsc.offers = s.nsc.offers ∧
      (removeEntry a s).nsc.calls = s.nsc.calls ∧ (removeEntry a s).nsc.fares = s.nsc.fares ∧
      (removeEntry a s).nsc.journal = s.nsc.journal ∧ (removeEntry a s).fare = s.fare ∧
      (removeEntry a s).cab.sign = s.cab.sign ∧ (removeEntry a s).cab.signDue = s.cab.signDue ∧
      (removeEntry a s).icm = s.icm ∧ (removeEntry a s).acc.shift = s.acc.shift ∧
      (removeEntry a s).acc.unresolved = s.acc.unresolved := by
  unfold removeEntry
  split <;> simp

@[simp] theorem endReference_frame a (s : State) :
    Kept.base (endReference a s) s ∧ Kept.outer (endReference a s) s ∧ Kept.deep (endReference a s) s ∧
      Kept.line (endReference a s) s ∧ Kept.sends (endReference a s) s ∧ Kept.news (endReference a s) s ∧
      Kept.assist (endReference a s) s ∧ Kept.hire (endReference a s) s ∧ Kept.lists (endReference a s) s ∧
      (endReference a s).nsc.sign = s.nsc.sign ∧ (endReference a s).nsc.offers = s.nsc.offers ∧
      (endReference a s).nsc.calls = s.nsc.calls ∧ (endReference a s).nsc.fares = s.nsc.fares ∧
      (endReference a s).nsc.journal = s.nsc.journal ∧ (endReference a s).fare = s.fare ∧
      (endReference a s).cab.sign = s.cab.sign ∧ (endReference a s).cab.signDue = s.cab.signDue ∧
      (endReference a s).icm = s.icm ∧ (endReference a s).acc.shift = s.acc.shift ∧
      (endReference a s).acc.unresolved = s.acc.unresolved := by
  unfold endReference
  split <;> simp

@[simp] theorem setCall_frame p c (s : State) :
    Kept.base (setCall p c s) s ∧ Kept.outer (setCall p c s) s ∧ Kept.shift (setCall p c s) s ∧
      Kept.deep (setCall p c s) s ∧ Kept.audio (setCall p c s) s ∧ Kept.prompts (setCall p c s) s ∧
      (setCall p c s).lif = s.lif ∧ (setCall p c s).nsc = s.nsc ∧ (setCall p c s).icm.queue = s.icm.queue ∧
      (setCall p c s).icm.arrivals = s.icm.arrivals ∧ (setCall p c s).icm.talk = s.icm.talk ∧
      (setCall p c s).icm.privacy = s.icm.privacy ∧ (setCall p c s).icm.forced = s.icm.forced ∧
      (setCall p c s).icm.ringDue = s.icm.ringDue := by
  simp [setCall]

@[simp] theorem noticeCall_frame p (s : State) :
    Kept.base (noticeCall p s) s ∧ Kept.outer (noticeCall p s) s ∧ Kept.shift (noticeCall p s) s ∧
      Kept.deep (noticeCall p s) s ∧ Kept.line (noticeCall p s) s ∧ Kept.sends (noticeCall p s) s ∧
      Kept.money (noticeCall p s) s ∧ Kept.news (noticeCall p s) s ∧
      (noticeCall p s).lif.stations = s.lif.stations ∧ (noticeCall p s).nsc.sign = s.nsc.sign ∧
      (noticeCall p s).nsc.journal = s.nsc.journal ∧ (noticeCall p s).icm = s.icm := by
  simp [noticeCall]

@[simp] theorem noticeMoved_frame b (s : State) :
    Kept.base (noticeMoved b s) s ∧ Kept.outer (noticeMoved b s) s ∧ Kept.shift (noticeMoved b s) s ∧
      Kept.deep (noticeMoved b s) s ∧ Kept.line (noticeMoved b s) s ∧ Kept.sends (noticeMoved b s) s ∧
      Kept.money (noticeMoved b s) s ∧ Kept.news (noticeMoved b s) s ∧
      (noticeMoved b s).lif.stations = s.lif.stations ∧ (noticeMoved b s).nsc.sign = s.nsc.sign ∧
      (noticeMoved b s).nsc.journal = s.nsc.journal ∧ (noticeMoved b s).icm = s.icm := by
  simp only [Kept.base, Kept.outer, Kept.shift, Kept.deep, Kept.line, Kept.sends, Kept.money, Kept.news, and_assoc]
  unfold noticeMoved
  refine ⟨foldl_inv (fun u : State => u.pending) _ ?_ _ _, foldl_inv (fun u : State => u.free) _ ?_ _ _,
    foldl_inv (fun u : State => u.time) _ ?_ _ _, foldl_inv (fun u : State => u.array) _ ?_ _ _,
    foldl_inv (fun u : State => u.odo) _ ?_ _ _, foldl_inv (fun u : State => u.tar) _ ?_ _ _,
    foldl_inv (fun u : State => u.pwr) _ ?_ _ _, foldl_inv (fun u : State => u.fare) _ ?_ _ _,
    foldl_inv (fun u : State => u.cab) _ ?_ _ _, foldl_inv (fun u : State => u.acc) _ ?_ _ _,
    foldl_inv (fun u : State => u.jnl) _ ?_ _ _, foldl_inv (fun u : State => u.flt) _ ?_ _ _,
    foldl_inv (fun u : State => u.lif.address) _ ?_ _ _, foldl_inv (fun u : State => u.lif.rx) _ ?_ _ _,
    foldl_inv (fun u : State => u.lif.queue) _ ?_ _ _, foldl_inv (fun u : State => u.lif.lineFree) _ ?_ _ _,
    foldl_inv (fun u : State => u.lif.announceDue) _ ?_ _ _,
    foldl_inv (fun u : State => u.nsc.fareSent) _ ?_ _ _, foldl_inv (fun u : State => u.nsc.announce) _ ?_ _ _,
    foldl_inv (fun u : State => u.nsc.lastOffer) _ ?_ _ _,
    foldl_inv (fun u : State => u.nsc.lastCall) _ ?_ _ _, foldl_inv (fun u : State => u.nsc.lastFare) _ ?_ _ _,
    foldl_inv (fun u : State => u.nsc.offers) _ ?_ _ _, foldl_inv (fun u : State => u.nsc.fares) _ ?_ _ _,
    foldl_inv (fun u : State => u.nsc.print) _ ?_ _ _, foldl_inv (fun u : State => u.nsc.assist) _ ?_ _ _,
    foldl_inv (fun u : State => u.nsc.replies) _ ?_ _ _, foldl_inv (fun u : State => u.nsc.fleet) _ ?_ _ _,
    foldl_inv (fun u : State => u.lif.stations) _ ?_ _ _, foldl_inv (fun u : State => u.nsc.sign) _ ?_ _ _,
    foldl_inv (fun u : State => u.nsc.journal) _ ?_ _ _, foldl_inv (fun u : State => u.icm) _ ?_ _ _⟩ <;>
    (intros; (repeat' split) <;> simp)

@[simp] theorem enterPhase_frame p ph r (s : State) :
    Kept.base (enterPhase p ph r s) s ∧ Kept.outer (enterPhase p ph r s) s ∧
      Kept.shift (enterPhase p ph r s) s ∧ Kept.deep (enterPhase p ph r s) s ∧
      Kept.line (enterPhase p ph r s) s ∧ Kept.sends (enterPhase p ph r s) s ∧
      Kept.money (enterPhase p ph r s) s ∧ Kept.news (enterPhase p ph r s) s ∧
      Kept.audio (enterPhase p ph r s) s ∧ Kept.prompts (enterPhase p ph r s) s ∧
      (enterPhase p ph r s).lif.stations = s.lif.stations ∧ (enterPhase p ph r s).nsc.sign = s.nsc.sign ∧
      (enterPhase p ph r s).nsc.journal = s.nsc.journal ∧ (enterPhase p ph r s).icm.queue = s.icm.queue ∧
      (enterPhase p ph r s).icm.arrivals = s.icm.arrivals ∧ (enterPhase p ph r s).icm.talk = s.icm.talk ∧
      (enterPhase p ph r s).icm.privacy = s.icm.privacy ∧ (enterPhase p ph r s).icm.forced = s.icm.forced ∧
      (enterPhase p ph r s).icm.ringDue = s.icm.ringDue := by
  simp [enterPhase]

@[simp] theorem leaveQueue_frame p (s : State) :
    Kept.base (leaveQueue p s) s ∧ Kept.outer (leaveQueue p s) s ∧ Kept.deep (leaveQueue p s) s ∧
      Kept.line (leaveQueue p s) s ∧ Kept.sends (leaveQueue p s) s ∧ Kept.news (leaveQueue p s) s ∧
      Kept.assist (leaveQueue p s) s ∧ Kept.hire (leaveQueue p s) s ∧ Kept.audio (leaveQueue p s) s ∧
      Kept.prompts (leaveQueue p s) s ∧ Kept.lists (leaveQueue p s) s ∧
      (leaveQueue p s).nsc.sign = s.nsc.sign ∧ (leaveQueue p s).nsc.offers = s.nsc.offers ∧
      (leaveQueue p s).nsc.fares = s.nsc.fares ∧ (leaveQueue p s).nsc.journal = s.nsc.journal ∧
      (leaveQueue p s).fare = s.fare ∧ (leaveQueue p s).cab.sign = s.cab.sign ∧
      (leaveQueue p s).cab.signDue = s.cab.signDue ∧ (leaveQueue p s).icm.calls = s.icm.calls ∧
      (leaveQueue p s).icm.arrivals = s.icm.arrivals ∧ (leaveQueue p s).icm.talk = s.icm.talk ∧
      (leaveQueue p s).icm.privacy = s.icm.privacy ∧ (leaveQueue p s).icm.forced = s.icm.forced ∧
      (leaveQueue p s).icm.ringDue = s.icm.ringDue ∧ (leaveQueue p s).acc.shift = s.acc.shift ∧
      (leaveQueue p s).acc.unresolved = s.acc.unresolved := by
  unfold leaveQueue
  split <;> simp

@[simp] theorem askPrompt_frame k i (s : State) :
    Kept.base (askPrompt k i s) s ∧ Kept.outer (askPrompt k i s) s ∧ Kept.shift (askPrompt k i s) s ∧
      Kept.deep (askPrompt k i s) s ∧ Kept.audio (askPrompt k i s) s ∧ Kept.calls (askPrompt k i s) s ∧
      (askPrompt k i s).lif = s.lif ∧ (askPrompt k i s).nsc = s.nsc ∧
      (askPrompt k i s).icm.privacy = s.icm.privacy ∧ (askPrompt k i s).icm.forced = s.icm.forced ∧
      (askPrompt k i s).icm.player = s.icm.player ∧ (askPrompt k i s).icm.promptSample = s.icm.promptSample := by
  simp [askPrompt]

@[simp] theorem giveSample_frame k d a b c (s : State) :
    Kept.base (giveSample k d a b c s) s ∧ Kept.outer (giveSample k d a b c s) s ∧
      Kept.shift (giveSample k d a b c s) s ∧ Kept.deep (giveSample k d a b c s) s ∧
      Kept.audio (giveSample k d a b c s) s ∧ Kept.calls (giveSample k d a b c s) s ∧
      (giveSample k d a b c s).lif = s.lif ∧ (giveSample k d a b c s).nsc = s.nsc ∧
      (giveSample k d a b c s).icm.privacy = s.icm.privacy ∧
      (giveSample k d a b c s).icm.forced = s.icm.forced ∧ (giveSample k d a b c s).icm.prompts = s.icm.prompts := by
  simp [giveSample]

@[simp] theorem startPlay_frame l (s : State) :
    Kept.base (startPlay s l) s ∧ Kept.outer (startPlay s l) s ∧ Kept.shift (startPlay s l) s ∧
      Kept.deep (startPlay s l) s ∧ Kept.audio (startPlay s l) s ∧ Kept.calls (startPlay s l) s ∧
      (startPlay s l).lif = s.lif ∧ (startPlay s l).nsc = s.nsc ∧ (startPlay s l).icm.privacy = s.icm.privacy ∧
      (startPlay s l).icm.forced = s.icm.forced ∧ (startPlay s l).icm.promptSample = s.icm.promptSample := by
  induction l generalizing s with
  | nil => simp [startPlay]
  | cons e l ih =>
    simp only [Kept.base, Kept.outer, Kept.shift, Kept.deep, Kept.audio, Kept.calls, and_assoc] at ih
    unfold startPlay
    dsimp only
    split <;> simp [ih]

@[simp] theorem nextPlay_frame (s : State) :
    Kept.base (nextPlay s) s ∧ Kept.outer (nextPlay s) s ∧ Kept.shift (nextPlay s) s ∧ Kept.deep (nextPlay s) s ∧
      Kept.audio (nextPlay s) s ∧ Kept.calls (nextPlay s) s ∧ (nextPlay s).lif = s.lif ∧ (nextPlay s).nsc = s.nsc ∧
      (nextPlay s).icm.privacy = s.icm.privacy ∧ (nextPlay s).icm.forced = s.icm.forced ∧
      (nextPlay s).icm.promptSample = 0 := by
  simp [nextPlay]

@[simp] theorem playStep_frame (s : State) :
    Kept.base (playStep s) s ∧ Kept.outer (playStep s) s ∧ Kept.shift (playStep s) s ∧
      Kept.deep (playStep s) s ∧ Kept.audio (playStep s) s ∧ Kept.calls (playStep s) s ∧
      (playStep s).lif = s.lif ∧ (playStep s).nsc = s.nsc ∧ (playStep s).icm.privacy = s.icm.privacy ∧
      (playStep s).icm.forced = s.icm.forced := by
  unfold playStep
  dsimp only
  (repeat' split) <;> simp

@[simp] theorem leaveRinging_frame (s : State) :
    Kept.base (leaveRinging s) s ∧ Kept.outer (leaveRinging s) s ∧ Kept.shift (leaveRinging s) s ∧
      Kept.deep (leaveRinging s) s ∧ Kept.audio (leaveRinging s) s ∧ (leaveRinging s).lif = s.lif ∧
      (leaveRinging s).nsc = s.nsc ∧ (leaveRinging s).icm.calls = s.icm.calls ∧
      (leaveRinging s).icm.queue = s.icm.queue ∧ (leaveRinging s).icm.arrivals = s.icm.arrivals ∧
      (leaveRinging s).icm.talk = s.icm.talk ∧ (leaveRinging s).icm.privacy = s.icm.privacy ∧
      (leaveRinging s).icm.forced = s.icm.forced := by
  unfold leaveRinging; dsimp only; (repeat' split) <;> simp

@[simp] theorem arbitrate_frame (s : State) :
    Kept.base (arbitrate s) s ∧ Kept.outer (arbitrate s) s ∧ Kept.deep (arbitrate s) s ∧
      Kept.line (arbitrate s) s ∧ Kept.sends (arbitrate s) s ∧ Kept.news (arbitrate s) s ∧
      Kept.assist (arbitrate s) s ∧ Kept.hire (arbitrate s) s ∧ Kept.audio (arbitrate s) s ∧
      Kept.lists (arbitrate s) s ∧ (arbitrate s).nsc.sign = s.nsc.sign ∧
      (arbitrate s).nsc.offers = s.nsc.offers ∧ (arbitrate s).nsc.fares = s.nsc.fares ∧
      (arbitrate s).nsc.journal = s.nsc.journal ∧ (arbitrate s).fare = s.fare ∧
      (arbitrate s).cab.sign = s.cab.sign ∧ (arbitrate s).cab.signDue = s.cab.signDue ∧
      (arbitrate s).icm.arrivals = s.icm.arrivals ∧ (arbitrate s).icm.talk = s.icm.talk ∧
      (arbitrate s).icm.privacy = s.icm.privacy ∧ (arbitrate s).icm.forced = s.icm.forced ∧
      (arbitrate s).icm.player = s.icm.player ∧ (arbitrate s).icm.promptSample = s.icm.promptSample ∧
      (arbitrate s).acc.shift = s.acc.shift ∧ (arbitrate s).acc.unresolved = s.acc.unresolved := by
  unfold arbitrate
  split <;> simp

@[simp] theorem release_frame p r (s : State) :
    Kept.base (release p r s) s ∧ Kept.outer (release p r s) s ∧ Kept.shift (release p r s) s ∧
      Kept.deep (release p r s) s ∧ Kept.line (release p r s) s ∧ Kept.sends (release p r s) s ∧
      Kept.money (release p r s) s ∧ Kept.news (release p r s) s ∧ Kept.audio (release p r s) s ∧
      (release p r s).lif.stations = s.lif.stations ∧ (release p r s).nsc.sign = s.nsc.sign ∧
      (release p r s).nsc.journal = s.nsc.journal ∧ (release p r s).icm.queue = s.icm.queue ∧
      (release p r s).icm.arrivals = s.icm.arrivals ∧ (release p r s).icm.talk = s.icm.talk ∧
      (release p r s).icm.privacy = s.icm.privacy ∧ (release p r s).icm.forced = s.icm.forced := by
  simp [release]

@[simp] theorem link_frame p (s : State) :
    Kept.base (link p s) s ∧ Kept.outer (link p s) s ∧ Kept.shift (link p s) s ∧ Kept.deep (link p s) s ∧
      Kept.line (link p s) s ∧ Kept.sends (link p s) s ∧ Kept.money (link p s) s ∧ Kept.news (link p s) s ∧
      Kept.audio (link p s) s ∧ (link p s).lif.stations = s.lif.stations ∧ (link p s).nsc.sign = s.nsc.sign ∧
      (link p s).nsc.journal = s.nsc.journal ∧ (link p s).icm.queue = s.icm.queue ∧
      (link p s).icm.arrivals = s.icm.arrivals ∧ (link p s).icm.talk = s.icm.talk ∧
      (link p s).icm.privacy = s.icm.privacy ∧ (link p s).icm.forced = s.icm.forced := by
  simp [link]

@[simp] theorem unboundCall_frame p (s : State) :
    Kept.base (unboundCall p s) s ∧ Kept.outer (unboundCall p s) s ∧ Kept.deep (unboundCall p s) s ∧
      Kept.line (unboundCall p s) s ∧ Kept.sends (unboundCall p s) s ∧ Kept.news (unboundCall p s) s ∧
      Kept.assist (unboundCall p s) s ∧ Kept.hire (unboundCall p s) s ∧ Kept.audio (unboundCall p s) s ∧
      Kept.lists (unboundCall p s) s ∧ (unboundCall p s).nsc.sign = s.nsc.sign ∧
      (unboundCall p s).nsc.offers = s.nsc.offers ∧ (unboundCall p s).nsc.fares = s.nsc.fares ∧
      (unboundCall p s).nsc.journal = s.nsc.journal ∧ (unboundCall p s).fare = s.fare ∧
      (unboundCall p s).cab.sign = s.cab.sign ∧ (unboundCall p s).cab.signDue = s.cab.signDue ∧
      (unboundCall p s).icm.arrivals = s.icm.arrivals ∧ (unboundCall p s).icm.talk = s.icm.talk ∧
      (unboundCall p s).icm.privacy = s.icm.privacy ∧ (unboundCall p s).icm.forced = s.icm.forced ∧
      (unboundCall p s).acc.shift = s.acc.shift ∧ (unboundCall p s).acc.unresolved = s.acc.unresolved := by
  unfold unboundCall
  split <;> simp

@[simp] theorem endTalkTo_frame p (s : State) :
    Kept.base (endTalkTo p s) s ∧ Kept.outer (endTalkTo p s) s ∧ Kept.shift (endTalkTo p s) s ∧
      Kept.deep (endTalkTo p s) s ∧ Kept.audio (endTalkTo p s) s ∧ Kept.prompts (endTalkTo p s) s ∧
      (endTalkTo p s).lif = s.lif ∧ (endTalkTo p s).nsc = s.nsc ∧ (endTalkTo p s).icm.calls = s.icm.calls ∧
      (endTalkTo p s).icm.queue = s.icm.queue ∧ (endTalkTo p s).icm.arrivals = s.icm.arrivals ∧
      (endTalkTo p s).icm.privacy = s.icm.privacy ∧ (endTalkTo p s).icm.forced = s.icm.forced ∧
      (endTalkTo p s).icm.ringDue = s.icm.ringDue := by
  simp [endTalkTo]

@[simp] theorem portUnbound_frame p (s : State) :
    Kept.base (portUnbound p s) s ∧ Kept.outer (portUnbound p s) s ∧ Kept.deep (portUnbound p s) s ∧
      Kept.line (portUnbound p s) s ∧ Kept.sends (portUnbound p s) s ∧ Kept.news (portUnbound p s) s ∧
      Kept.assist (portUnbound p s) s ∧ Kept.hire (portUnbound p s) s ∧ Kept.audio (portUnbound p s) s ∧
      Kept.lists (portUnbound p s) s ∧ (portUnbound p s).nsc.sign = s.nsc.sign ∧
      (portUnbound p s).nsc.offers = s.nsc.offers ∧ (portUnbound p s).nsc.fares = s.nsc.fares ∧
      (portUnbound p s).nsc.journal = s.nsc.journal ∧ (portUnbound p s).fare = s.fare ∧
      (portUnbound p s).cab.sign = s.cab.sign ∧ (portUnbound p s).cab.signDue = s.cab.signDue ∧
      (portUnbound p s).icm.arrivals = s.icm.arrivals ∧ (portUnbound p s).icm.privacy = s.icm.privacy ∧
      (portUnbound p s).icm.forced = s.icm.forced ∧ (portUnbound p s).acc.shift = s.acc.shift ∧
      (portUnbound p s).acc.unresolved = s.acc.unresolved := by
  simp [portUnbound]

@[simp] theorem lookReleased_frame (s : State) :
    Kept.base (lookReleased s) s ∧ Kept.outer (lookReleased s) s ∧ Kept.deep (lookReleased s) s ∧
      Kept.line (lookReleased s) s ∧ Kept.sends (lookReleased s) s ∧ Kept.news (lookReleased s) s ∧
      Kept.assist (lookReleased s) s ∧ Kept.hire (lookReleased s) s ∧ Kept.audio (lookReleased s) s ∧
      Kept.lists (lookReleased s) s ∧ (lookReleased s).nsc.sign = s.nsc.sign ∧
      (lookReleased s).nsc.offers = s.nsc.offers ∧ (lookReleased s).nsc.fares = s.nsc.fares ∧
      (lookReleased s).nsc.journal = s.nsc.journal ∧ (lookReleased s).fare = s.fare ∧
      (lookReleased s).cab.sign = s.cab.sign ∧ (lookReleased s).cab.signDue = s.cab.signDue ∧
      (lookReleased s).icm.arrivals = s.icm.arrivals ∧ (lookReleased s).icm.talk = s.icm.talk ∧
      (lookReleased s).icm.privacy = s.icm.privacy ∧ (lookReleased s).icm.forced = s.icm.forced ∧
      (lookReleased s).icm.player = s.icm.player ∧ (lookReleased s).icm.promptSample = s.icm.promptSample ∧
      (lookReleased s).acc.shift = s.acc.shift ∧ (lookReleased s).acc.unresolved = s.acc.unresolved := by
  unfold lookReleased
  split <;> simp

@[simp] theorem setForcing_frame c (s : State) :
    Kept.base (setForcing c s) s ∧ Kept.outer (setForcing c s) s ∧ Kept.shift (setForcing c s) s ∧
      Kept.deep (setForcing c s) s ∧ Kept.audio (setForcing c s) s ∧ Kept.calls (setForcing c s) s ∧
      Kept.prompts (setForcing c s) s ∧ (setForcing c s).lif = s.lif ∧ (setForcing c s).nsc = s.nsc := by
  simp [setForcing]

@[simp] theorem boundaryFor_frame m p (s : State) :
    Kept.base (boundaryFor m s p) s ∧ Kept.outer (boundaryFor m s p) s ∧ Kept.shift (boundaryFor m s p) s ∧
      Kept.deep (boundaryFor m s p) s ∧ Kept.line (boundaryFor m s p) s ∧ Kept.sends (boundaryFor m s p) s ∧
      Kept.money (boundaryFor m s p) s ∧ Kept.news (boundaryFor m s p) s ∧ Kept.audio (boundaryFor m s p) s ∧
      (boundaryFor m s p).lif.stations = s.lif.stations ∧ (boundaryFor m s p).nsc.sign = s.nsc.sign ∧
      (boundaryFor m s p).nsc.journal = s.nsc.journal ∧ (boundaryFor m s p).icm.queue = s.icm.queue ∧
      (boundaryFor m s p).icm.arrivals = s.icm.arrivals ∧ (boundaryFor m s p).icm.talk = s.icm.talk ∧
      (boundaryFor m s p).icm.privacy = s.icm.privacy ∧ (boundaryFor m s p).icm.forced = s.icm.forced := by
  simp [boundaryFor]

@[simp] theorem restartSignTimer_frame (s : State) :
    Kept.base (restartSignTimer s) s ∧ Kept.outer (restartSignTimer s) s ∧ Kept.deep (restartSignTimer s) s ∧
      Kept.assist (restartSignTimer s) s ∧ Kept.hire (restartSignTimer s) s ∧
      (restartSignTimer s).lif = s.lif ∧ (restartSignTimer s).nsc = s.nsc ∧
      (restartSignTimer s).fare = s.fare ∧ (restartSignTimer s).cab.sign = s.cab.sign ∧
      (restartSignTimer s).cab.watches = s.cab.watches ∧ (restartSignTimer s).icm = s.icm ∧
      (restartSignTimer s).acc = s.acc := by
  simp [restartSignTimer]

@[simp] theorem recomputeSign_frame (s : State) :
    Kept.base (recomputeSign s) s ∧ Kept.outer (recomputeSign s) s ∧ Kept.deep (recomputeSign s) s ∧
      Kept.line (recomputeSign s) s ∧ Kept.sends (recomputeSign s) s ∧ Kept.money (recomputeSign s) s ∧
      Kept.news (recomputeSign s) s ∧ Kept.assist (recomputeSign s) s ∧ Kept.hire (recomputeSign s) s ∧
      (recomputeSign s).lif.stations = s.lif.stations ∧ (recomputeSign s).nsc.calls = s.nsc.calls ∧
      (recomputeSign s).nsc.journal = s.nsc.journal ∧ (recomputeSign s).fare = s.fare ∧
      (recomputeSign s).cab.watches = s.cab.watches ∧ (recomputeSign s).icm = s.icm ∧
      (recomputeSign s).acc = s.acc := by
  simp [recomputeSign]

@[simp] theorem enterLost_frame (s : State) :
    Kept.base (enterLost s) s ∧ Kept.outer (enterLost s) s ∧ Kept.assist (enterLost s) s ∧
      Kept.hire (enterLost s) s ∧ Kept.lists (enterLost s) s ∧ Kept.reader (enterLost s) s ∧
      (enterLost s).lif = s.lif ∧ (enterLost s).nsc = s.nsc ∧ (enterLost s).fare = s.fare ∧
      (enterLost s).cab.signDue = s.cab.signDue ∧ (enterLost s).cab.watches = s.cab.watches ∧
      (enterLost s).icm = s.icm ∧ (enterLost s).acc.unresolved = s.acc.unresolved ∧
      (enterLost s).acc.jobs = s.acc.jobs ∧ (enterLost s).acc.credit = s.acc.credit ∧ (enterLost s).flt = s.flt := by
  simp [enterLost]

@[simp] theorem signAbsent_frame (s : State) :
    Kept.base (signAbsent s) s ∧ Kept.outer (signAbsent s) s ∧ Kept.assist (signAbsent s) s ∧
      Kept.hire (signAbsent s) s ∧ Kept.lists (signAbsent s) s ∧ Kept.reader (signAbsent s) s ∧
      (signAbsent s).lif = s.lif ∧ (signAbsent s).nsc = s.nsc ∧ (signAbsent s).fare = s.fare ∧
      (signAbsent s).cab.watches = s.cab.watches ∧ (signAbsent s).icm = s.icm ∧
      (signAbsent s).acc.unresolved = s.acc.unresolved ∧ (signAbsent s).acc.jobs = s.acc.jobs ∧
      (signAbsent s).acc.credit = s.acc.credit ∧ (signAbsent s).flt = s.flt := by
  simp [signAbsent]

@[simp] theorem signPresent_frame (s : State) :
    Kept.base (signPresent s) s ∧ Kept.outer (signPresent s) s ∧ Kept.deep (signPresent s) s ∧
      Kept.line (signPresent s) s ∧ Kept.sends (signPresent s) s ∧ Kept.money (signPresent s) s ∧
      Kept.news (signPresent s) s ∧ Kept.assist (signPresent s) s ∧ Kept.hire (signPresent s) s ∧
      (signPresent s).lif.stations = s.lif.stations ∧ (signPresent s).nsc.calls = s.nsc.calls ∧
      (signPresent s).nsc.journal = s.nsc.journal ∧ (signPresent s).fare = s.fare ∧
      (signPresent s).cab.sign = s.cab.sign ∧ (signPresent s).cab.watches = s.cab.watches ∧
      (signPresent s).icm = s.icm ∧ (signPresent s).acc = s.acc := by
  simp [signPresent]

@[simp] theorem bookingItem_frame r o l (s : State) :
    Kept.base (bookingItem r o l s) s ∧ Kept.outer (bookingItem r o l s) s ∧
      Kept.shift (bookingItem r o l s) s ∧ Kept.deep (bookingItem r o l s) s ∧
      Kept.line (bookingItem r o l s) s ∧ Kept.sends (bookingItem r o l s) s ∧
      Kept.money (bookingItem r o l s) s ∧ (bookingItem r o l s).lif.stations = s.lif.stations ∧
      (bookingItem r o l s).nsc.assist = s.nsc.assist ∧ (bookingItem r o l s).nsc.replies = s.nsc.replies ∧
      (bookingItem r o l s).nsc.sign = s.nsc.sign ∧ (bookingItem r o l s).nsc.calls = s.nsc.calls ∧
      (bookingItem r o l s).nsc.journal = s.nsc.journal ∧ (bookingItem r o l s).icm = s.icm := by
  simp [bookingItem]

@[simp] theorem moveDuty_frame d (s : State) :
    Kept.base (moveDuty d s) s ∧ Kept.outer (moveDuty d s) s ∧ Kept.deep (moveDuty d s) s ∧
      Kept.line (moveDuty d s) s ∧ Kept.sends (moveDuty d s) s ∧ Kept.money (moveDuty d s) s ∧
      Kept.news (moveDuty d s) s ∧ Kept.assist (moveDuty d s) s ∧
      (moveDuty d s).lif.stations = s.lif.stations ∧ (moveDuty d s).nsc.calls = s.nsc.calls ∧
      (moveDuty d s).nsc.journal = s.nsc.journal ∧ (moveDuty d s).fare = s.fare ∧
      (moveDuty d s).cab.share = s.cab.share ∧ (moveDuty d s).cab.booking = s.cab.booking ∧
      (moveDuty d s).cab.watches = s.cab.watches ∧ (moveDuty d s).icm = s.icm ∧ (moveDuty d s).acc = s.acc := by
  simp [moveDuty]

@[simp] theorem occupancyDuty_frame n sh (s : State) :
    Kept.base (occupancyDuty n sh s) s ∧ Kept.outer (occupancyDuty n sh s) s ∧
      Kept.deep (occupancyDuty n sh s) s ∧ Kept.assist (occupancyDuty n sh s) s ∧
      (occupancyDuty n sh s).lif = s.lif ∧ (occupancyDuty n sh s).nsc = s.nsc ∧
      (occupancyDuty n sh s).fare = s.fare ∧ (occupancyDuty n sh s).cab.booking = s.cab.booking ∧
      (occupancyDuty n sh s).cab.sign = s.cab.sign ∧ (occupancyDuty n sh s).cab.signDue = s.cab.signDue ∧
      (occupancyDuty n sh s).cab.watches = s.cab.watches ∧ (occupancyDuty n sh s).icm = s.icm ∧
      (occupancyDuty n sh s).acc = s.acc := by
  simp [occupancyDuty]

@[simp] theorem occupancyReport_frame n sh (s : State) :
    Kept.base (occupancyReport n sh s) s ∧ Kept.outer (occupancyReport n sh s) s ∧
      Kept.deep (occupancyReport n sh s) s ∧ Kept.line (occupancyReport n sh s) s ∧
      Kept.sends (occupancyReport n sh s) s ∧ Kept.money (occupancyReport n sh s) s ∧
      Kept.news (occupancyReport n sh s) s ∧ Kept.assist (occupancyReport n sh s) s ∧
      Kept.audio (occupancyReport n sh s) s ∧ Kept.calls (occupancyReport n sh s) s ∧
      Kept.prompts (occupancyReport n sh s) s ∧ (occupancyReport n sh s).lif.stations = s.lif.stations ∧
      (occupancyReport n sh s).nsc.calls = s.nsc.calls ∧ (occupancyReport n sh s).nsc.journal = s.nsc.journal ∧
      (occupancyReport n sh s).fare = s.fare ∧ (occupancyReport n sh s).cab.booking = s.cab.booking ∧
      (occupancyReport n sh s).cab.watches = s.cab.watches ∧ (occupancyReport n sh s).acc = s.acc := by
  simp [occupancyReport]

@[simp] theorem watchFired_frame a (s : State) :
    Kept.base (watchFired a s) s ∧ Kept.outer (watchFired a s) s ∧ Kept.lists (watchFired a s) s ∧
      Kept.reader (watchFired a s) s ∧ (watchFired a s).lif = s.lif ∧ (watchFired a s).nsc = s.nsc ∧
      (watchFired a s).fare = s.fare ∧ (watchFired a s).cab = s.cab ∧ (watchFired a s).icm = s.icm ∧
      (watchFired a s).acc.unresolved = s.acc.unresolved ∧ (watchFired a s).acc.jobs = s.acc.jobs ∧
      (watchFired a s).acc.credit = s.acc.credit ∧ (watchFired a s).flt.coldFlag = s.flt.coldFlag := by
  simp [watchFired]

@[simp] theorem watchTick_frame (s : State) :
    Kept.base (watchTick s) s ∧ Kept.outer (watchTick s) s ∧ Kept.assist (watchTick s) s ∧
      Kept.hire (watchTick s) s ∧ Kept.lists (watchTick s) s ∧ Kept.reader (watchTick s) s ∧
      (watchTick s).lif = s.lif ∧ (watchTick s).nsc = s.nsc ∧ (watchTick s).fare = s.fare ∧
      (watchTick s).cab.sign = s.cab.sign ∧ (watchTick s).cab.signDue = s.cab.signDue ∧
      (watchTick s).icm = s.icm ∧ (watchTick s).acc.unresolved = s.acc.unresolved ∧
      (watchTick s).acc.jobs = s.acc.jobs ∧ (watchTick s).acc.credit = s.acc.credit ∧
      (watchTick s).flt.coldFlag = s.flt.coldFlag := by
  simp only [Kept.base, Kept.outer, Kept.assist, Kept.hire, Kept.lists, Kept.reader, and_assoc]
  unfold watchTick
  split
  · simp
  refine ⟨foldl_inv (fun u : State => u.pending) _ ?_ _ _, foldl_inv (fun u : State => u.free) _ ?_ _ _,
    foldl_inv (fun u : State => u.time) _ ?_ _ _, foldl_inv (fun u : State => u.array) _ ?_ _ _,
    foldl_inv (fun u : State => u.odo) _ ?_ _ _, foldl_inv (fun u : State => u.tar) _ ?_ _ _,
    foldl_inv (fun u : State => u.pwr) _ ?_ _ _, foldl_inv (fun u : State => u.cab.latch) _ ?_ _ _,
    foldl_inv (fun u : State => u.cab.presses) _ ?_ _ _, foldl_inv (fun u : State => u.cab.pressTime) _ ?_ _ _,
    foldl_inv (fun u : State => u.cab.wakeMark) _ ?_ _ _, foldl_inv (fun u : State => u.cab.ack) _ ?_ _ _,
    foldl_inv (fun u : State => u.cab.repeatDue) _ ?_ _ _, foldl_inv (fun u : State => u.cab.duty) _ ?_ _ _,
    foldl_inv (fun u : State => u.cab.share) _ ?_ _ _, foldl_inv (fun u : State => u.cab.booking) _ ?_ _ _,
    foldl_inv (fun u : State => u.acc.lastShift) _ ?_ _ _, foldl_inv (fun u : State => u.acc.late) _ ?_ _ _,
    foldl_inv (fun u : State => u.jnl.cursor) _ ?_ _ _, foldl_inv (fun u : State => u.jnl.credit) _ ?_ _ _,
    foldl_inv (fun u : State => u.lif) _ ?_ _ _, foldl_inv (fun u : State => u.nsc) _ ?_ _ _,
    foldl_inv (fun u : State => u.fare) _ ?_ _ _, foldl_inv (fun u : State => u.cab.sign) _ ?_ _ _,
    foldl_inv (fun u : State => u.cab.signDue) _ ?_ _ _, foldl_inv (fun u : State => u.icm) _ ?_ _ _,
    foldl_inv (fun u : State => u.acc.unresolved) _ ?_ _ _, foldl_inv (fun u : State => u.acc.jobs) _ ?_ _ _,
    foldl_inv (fun u : State => u.acc.credit) _ ?_ _ _, foldl_inv (fun u : State => u.flt.coldFlag) _ ?_ _ _⟩ <;>
    (intros; simp)

@[simp] theorem updateWatch_frame a f (s : State) :
    Kept.base (updateWatch a f s) s ∧ Kept.outer (updateWatch a f s) s ∧ Kept.deep (updateWatch a f s) s ∧
      Kept.assist (updateWatch a f s) s ∧ Kept.hire (updateWatch a f s) s ∧ (updateWatch a f s).lif = s.lif ∧
      (updateWatch a f s).nsc = s.nsc ∧ (updateWatch a f s).fare = s.fare ∧
      (updateWatch a f s).cab.sign = s.cab.sign ∧ (updateWatch a f s).cab.signDue = s.cab.signDue ∧
      (updateWatch a f s).icm = s.icm ∧ (updateWatch a f s).acc = s.acc := by
  simp [updateWatch]

@[simp] theorem restWatches_frame (s : State) :
    Kept.base (restWatches s) s ∧ Kept.outer (restWatches s) s ∧ Kept.deep (restWatches s) s ∧
      Kept.assist (restWatches s) s ∧ Kept.hire (restWatches s) s ∧ (restWatches s).lif = s.lif ∧
      (restWatches s).nsc = s.nsc ∧ (restWatches s).fare = s.fare ∧ (restWatches s).cab.sign = s.cab.sign ∧
      (restWatches s).cab.signDue = s.cab.signDue ∧ (restWatches s).icm = s.icm ∧ (restWatches s).acc = s.acc := by
  simp [restWatches]

@[simp] theorem noticeAssist_frame (s : State) :
    Kept.base (noticeAssist s) s ∧ Kept.outer (noticeAssist s) s ∧ Kept.shift (noticeAssist s) s ∧
      Kept.deep (noticeAssist s) s ∧ Kept.line (noticeAssist s) s ∧ Kept.sends (noticeAssist s) s ∧
      Kept.money (noticeAssist s) s ∧ (noticeAssist s).lif.stations = s.lif.stations ∧
      (noticeAssist s).nsc.replies = s.nsc.replies ∧ (noticeAssist s).nsc.sign = s.nsc.sign ∧
      (noticeAssist s).nsc.calls = s.nsc.calls ∧ (noticeAssist s).nsc.fleet = s.nsc.fleet ∧
      (noticeAssist s).nsc.journal = s.nsc.journal ∧ (noticeAssist s).icm = s.icm := by
  simp [noticeAssist]

@[simp] theorem unack_frame (s : State) :
    Kept.base (unack s) s ∧ Kept.outer (unack s) s ∧ Kept.deep (unack s) s ∧ Kept.hire (unack s) s ∧
      (unack s).lif = s.lif ∧ (unack s).nsc = s.nsc ∧ (unack s).fare = s.fare ∧
      (unack s).cab.latch = s.cab.latch ∧ (unack s).cab.presses = s.cab.presses ∧
      (unack s).cab.pressTime = s.cab.pressTime ∧ (unack s).cab.wakeMark = s.cab.wakeMark ∧
      (unack s).cab.sign = s.cab.sign ∧ (unack s).cab.signDue = s.cab.signDue ∧
      (unack s).cab.watches = s.cab.watches ∧ (unack s).icm = s.icm ∧ (unack s).acc = s.acc := by
  simp [unack]

@[simp] theorem pressEffects_frame (s : State) :
    Kept.base (pressEffects s) s ∧ Kept.outer (pressEffects s) s ∧ Kept.line (pressEffects s) s ∧
      Kept.sends (pressEffects s) s ∧ Kept.money (pressEffects s) s ∧ Kept.hire (pressEffects s) s ∧
      Kept.lists (pressEffects s) s ∧ Kept.reader (pressEffects s) s ∧
      (pressEffects s).lif.stations = s.lif.stations ∧ (pressEffects s).nsc.replies = s.nsc.replies ∧
      (pressEffects s).nsc.calls = s.nsc.calls ∧ (pressEffects s).nsc.fleet = s.nsc.fleet ∧
      (pressEffects s).nsc.journal = s.nsc.journal ∧ (pressEffects s).fare = s.fare ∧
      (pressEffects s).cab.latch = s.cab.latch ∧ (pressEffects s).cab.presses = s.cab.presses ∧
      (pressEffects s).cab.pressTime = s.cab.pressTime ∧ (pressEffects s).cab.wakeMark = s.cab.wakeMark ∧
      (pressEffects s).cab.watches = s.cab.watches ∧ (pressEffects s).icm = s.icm ∧
      (pressEffects s).acc.unresolved = s.acc.unresolved ∧ (pressEffects s).acc.jobs = s.acc.jobs ∧
      (pressEffects s).acc.credit = s.acc.credit ∧ (pressEffects s).flt = s.flt := by
  simp [pressEffects]

@[simp] theorem press_frame (s : State) :
    Kept.base (press s) s ∧ Kept.outer (press s) s ∧ Kept.line (press s) s ∧ Kept.sends (press s) s ∧
      Kept.money (press s) s ∧ Kept.hire (press s) s ∧ Kept.lists (press s) s ∧ Kept.reader (press s) s ∧
      (press s).lif.stations = s.lif.stations ∧ (press s).nsc.replies = s.nsc.replies ∧
      (press s).nsc.calls = s.nsc.calls ∧ (press s).nsc.fleet = s.nsc.fleet ∧
      (press s).nsc.journal = s.nsc.journal ∧ (press s).fare = s.fare ∧
      (press s).cab.wakeMark = s.cab.wakeMark ∧ (press s).cab.watches = s.cab.watches ∧ (press s).icm = s.icm ∧
      (press s).acc.unresolved = s.acc.unresolved ∧ (press s).acc.jobs = s.acc.jobs ∧
      (press s).acc.credit = s.acc.credit ∧ (press s).flt = s.flt := by
  simp [press]

@[simp] theorem retainPress_frame (s : State) :
    Kept.base (retainPress s) s ∧ Kept.outer (retainPress s) s ∧ Kept.deep (retainPress s) s ∧
      Kept.hire (retainPress s) s ∧ (retainPress s).lif = s.lif ∧ (retainPress s).nsc = s.nsc ∧
      (retainPress s).fare = s.fare ∧ (retainPress s).cab.ack = s.cab.ack ∧
      (retainPress s).cab.repeatDue = s.cab.repeatDue ∧ (retainPress s).cab.sign = s.cab.sign ∧
      (retainPress s).cab.signDue = s.cab.signDue ∧ (retainPress s).cab.watches = s.cab.watches ∧
      (retainPress s).icm = s.icm ∧ (retainPress s).acc = s.acc := by
  simp [retainPress]

@[simp] theorem lifRefuses_frame k q c (s : State) :
    Kept.base (lifRefuses k q c s) s ∧ Kept.outer (lifRefuses k q c s) s ∧ Kept.shift (lifRefuses k q c s) s ∧
      Kept.sends (lifRefuses k q c s) s ∧ Kept.money (lifRefuses k q c s) s ∧
      (lifRefuses k q c s).lif = s.lif ∧ (lifRefuses k q c s).nsc.assist = s.nsc.assist ∧
      (lifRefuses k q c s).nsc.sign = s.nsc.sign ∧ (lifRefuses k q c s).nsc.calls = s.nsc.calls ∧
      (lifRefuses k q c s).nsc.fleet = s.nsc.fleet ∧ (lifRefuses k q c s).nsc.journal = s.nsc.journal ∧
      (lifRefuses k q c s).icm = s.icm ∧ (lifRefuses k q c s).jnl = s.jnl ∧
      (lifRefuses k q c s).flt.coldFlag = s.flt.coldFlag := by
  simp [lifRefuses]

@[simp] theorem acknowledge_frame f (s : State) :
    Kept.base (acknowledge f s) s ∧ Kept.outer (acknowledge f s) s ∧ Kept.shift (acknowledge f s) s ∧
      (acknowledge f s).lif = s.lif ∧ (acknowledge f s).nsc = s.nsc ∧ (acknowledge f s).icm = s.icm ∧
      (acknowledge f s).jnl = s.jnl ∧ (acknowledge f s).flt.coldFlag = s.flt.coldFlag := by
  simp [acknowledge]

@[simp] theorem evaluateBand_frame (s : State) :
    Kept.base (evaluateBand s) s ∧ Kept.shift (evaluateBand s) s ∧ Kept.deep (evaluateBand s) s ∧
      Kept.pulses (evaluateBand s) s ∧ Kept.inputs (evaluateBand s) s ∧ Kept.clock (evaluateBand s) s ∧
      (evaluateBand s).lif = s.lif ∧ (evaluateBand s).nsc = s.nsc ∧
      (evaluateBand s).odo.manualBand = s.odo.manualBand ∧ (evaluateBand s).tar = s.tar ∧
      (evaluateBand s).icm = s.icm ∧ (evaluateBand s).pwr = s.pwr := by
  simp [evaluateBand]

@[simp] theorem applyTime_frame t (s : State) :
    Kept.base (applyTime t s) s ∧ Kept.pulses (applyTime t s) s ∧ Kept.inputs (applyTime t s) s ∧
      Kept.lists (applyTime t s) s ∧ Kept.reader (applyTime t s) s ∧ (applyTime t s).lif = s.lif ∧
      (applyTime t s).nsc = s.nsc ∧ (applyTime t s).odo.manualBand = s.odo.manualBand ∧
      (applyTime t s).odo.vehicleBand = s.odo.vehicleBand ∧ (applyTime t s).tar = s.tar ∧
      (applyTime t s).fare = s.fare ∧ (applyTime t s).cab = s.cab ∧ (applyTime t s).icm = s.icm ∧
      (applyTime t s).acc.unresolved = s.acc.unresolved ∧ (applyTime t s).acc.jobs = s.acc.jobs ∧
      (applyTime t s).acc.credit = s.acc.credit ∧ (applyTime t s).flt = s.flt ∧ (applyTime t s).pwr = s.pwr := by
  simp [applyTime]

@[simp] theorem applyPending_frame (s : State) :
    Kept.base (applyPending s) s ∧ Kept.line (applyPending s) s ∧ Kept.sends (applyPending s) s ∧
      Kept.money (applyPending s) s ∧ Kept.pulses (applyPending s) s ∧ Kept.inputs (applyPending s) s ∧
      Kept.lists (applyPending s) s ∧ Kept.reader (applyPending s) s ∧
      (applyPending s).lif.stations = s.lif.stations ∧ (applyPending s).nsc.assist = s.nsc.assist ∧
      (applyPending s).nsc.replies = s.nsc.replies ∧ (applyPending s).nsc.sign = s.nsc.sign ∧
      (applyPending s).nsc.calls = s.nsc.calls ∧ (applyPending s).nsc.journal = s.nsc.journal ∧
      (applyPending s).odo.manualBand = s.odo.manualBand ∧
      (applyPending s).odo.vehicleBand = s.odo.vehicleBand ∧ (applyPending s).tar = s.tar ∧
      (applyPending s).fare = s.fare ∧ (applyPending s).cab = s.cab ∧ (applyPending s).icm = s.icm ∧
      (applyPending s).acc.unresolved = s.acc.unresolved ∧ (applyPending s).acc.jobs = s.acc.jobs ∧
      (applyPending s).acc.credit = s.acc.credit ∧ (applyPending s).flt = s.flt ∧ (applyPending s).pwr = s.pwr := by
  unfold applyPending
  split <;> simp

@[simp] theorem showLeg_frame i (s : State) :
    Kept.base (showLeg i s) s ∧ Kept.outer (showLeg i s) s ∧ Kept.shift (showLeg i s) s ∧
      Kept.deep (showLeg i s) s ∧ Kept.line (showLeg i s) s ∧ Kept.sends (showLeg i s) s ∧
      Kept.news (showLeg i s) s ∧ (showLeg i s).lif.stations = s.lif.stations ∧
      (showLeg i s).nsc.sign = s.nsc.sign ∧ (showLeg i s).nsc.offers = s.nsc.offers ∧
      (showLeg i s).nsc.calls = s.nsc.calls ∧ (showLeg i s).nsc.journal = s.nsc.journal ∧
      (showLeg i s).nsc.print = s.nsc.print ∧ (showLeg i s).icm = s.icm := by
  unfold showLeg
  split <;> simp

@[simp] theorem fareTick_frame p (s : State) :
    Kept.base (fareTick p s) s ∧ Kept.outer (fareTick p s) s ∧ Kept.deep (fareTick p s) s ∧
      Kept.line (fareTick p s) s ∧ Kept.sends (fareTick p s) s ∧ Kept.news (fareTick p s) s ∧
      (fareTick p s).lif.stations = s.lif.stations ∧ (fareTick p s).nsc.sign = s.nsc.sign ∧
      (fareTick p s).nsc.offers = s.nsc.offers ∧ (fareTick p s).nsc.calls = s.nsc.calls ∧
      (fareTick p s).nsc.journal = s.nsc.journal ∧ (fareTick p s).nsc.print = s.nsc.print ∧
      (fareTick p s).fare.lastLeg = s.fare.lastLeg ∧ (fareTick p s).cab = s.cab ∧ (fareTick p s).icm = s.icm ∧
      (fareTick p s).acc = s.acc := by
  simp only [Kept.base, Kept.outer, Kept.deep, Kept.line, Kept.sends, Kept.news, and_assoc]
  unfold fareTick
  refine ⟨foldl_inv (fun u : State => u.pending) _ ?_ _ _, foldl_inv (fun u : State => u.free) _ ?_ _ _,
    foldl_inv (fun u : State => u.time) _ ?_ _ _, foldl_inv (fun u : State => u.array) _ ?_ _ _,
    foldl_inv (fun u : State => u.odo) _ ?_ _ _, foldl_inv (fun u : State => u.tar) _ ?_ _ _,
    foldl_inv (fun u : State => u.pwr) _ ?_ _ _, foldl_inv (fun u : State => u.jnl) _ ?_ _ _,
    foldl_inv (fun u : State => u.flt) _ ?_ _ _, foldl_inv (fun u : State => u.lif.address) _ ?_ _ _,
    foldl_inv (fun u : State => u.lif.rx) _ ?_ _ _, foldl_inv (fun u : State => u.lif.queue) _ ?_ _ _,
    foldl_inv (fun u : State => u.lif.lineFree) _ ?_ _ _,
    foldl_inv (fun u : State => u.lif.announceDue) _ ?_ _ _,
    foldl_inv (fun u : State => u.nsc.fareSent) _ ?_ _ _, foldl_inv (fun u : State => u.nsc.announce) _ ?_ _ _,
    foldl_inv (fun u : State => u.nsc.lastOffer) _ ?_ _ _,
    foldl_inv (fun u : State => u.nsc.lastCall) _ ?_ _ _, foldl_inv (fun u : State => u.nsc.lastFare) _ ?_ _ _,
    foldl_inv (fun u : State => u.nsc.assist) _ ?_ _ _, foldl_inv (fun u : State => u.nsc.replies) _ ?_ _ _,
    foldl_inv (fun u : State => u.nsc.fleet) _ ?_ _ _, foldl_inv (fun u : State => u.lif.stations) _ ?_ _ _,
    foldl_inv (fun u : State => u.nsc.sign) _ ?_ _ _, foldl_inv (fun u : State => u.nsc.offers) _ ?_ _ _,
    foldl_inv (fun u : State => u.nsc.calls) _ ?_ _ _, foldl_inv (fun u : State => u.nsc.journal) _ ?_ _ _,
    foldl_inv (fun u : State => u.nsc.print) _ ?_ _ _, foldl_inv (fun u : State => u.fare.lastLeg) _ ?_ _ _,
    foldl_inv (fun u : State => u.cab) _ ?_ _ _, foldl_inv (fun u : State => u.icm) _ ?_ _ _,
    foldl_inv (fun u : State => u.acc) _ ?_ _ _⟩ <;>
    (intros; split <;> simp)

@[simp] theorem offerLeg_frame i (s : State) :
    Kept.base (offerLeg i s) s ∧ Kept.outer (offerLeg i s) s ∧ Kept.shift (offerLeg i s) s ∧
      Kept.deep (offerLeg i s) s ∧ Kept.line (offerLeg i s) s ∧ Kept.sends (offerLeg i s) s ∧
      Kept.news (offerLeg i s) s ∧ (offerLeg i s).lif.stations = s.lif.stations ∧
      (offerLeg i s).nsc.sign = s.nsc.sign ∧ (offerLeg i s).nsc.calls = s.nsc.calls ∧
      (offerLeg i s).nsc.fares = s.nsc.fares ∧ (offerLeg i s).nsc.journal = s.nsc.journal ∧
      (offerLeg i s).nsc.print = s.nsc.print ∧ (offerLeg i s).icm = s.icm := by
  unfold offerLeg
  split <;> simp

@[simp] theorem endClaim_frame i (s : State) :
    Kept.base (endClaim i s) s ∧ Kept.outer (endClaim i s) s ∧ Kept.deep (endClaim i s) s ∧
      Kept.line (endClaim i s) s ∧ Kept.sends (endClaim i s) s ∧ Kept.news (endClaim i s) s ∧
      Kept.assist (endClaim i s) s ∧ Kept.hire (endClaim i s) s ∧ Kept.lists (endClaim i s) s ∧
      (endClaim i s).nsc.sign = s.nsc.sign ∧ (endClaim i s).nsc.offers = s.nsc.offers ∧
      (endClaim i s).nsc.calls = s.nsc.calls ∧ (endClaim i s).nsc.fares = s.nsc.fares ∧
      (endClaim i s).nsc.journal = s.nsc.journal ∧ (endClaim i s).fare.lastLeg = s.fare.lastLeg ∧
      (endClaim i s).cab.sign = s.cab.sign ∧ (endClaim i s).cab.signDue = s.cab.signDue ∧
      (endClaim i s).icm = s.icm ∧ (endClaim i s).acc.shift = s.acc.shift ∧
      (endClaim i s).acc.unresolved = s.acc.unresolved := by
  unfold endClaim; (repeat' split) <;> simp

@[simp] theorem closeLeg_frame i l (s : State) :
    Kept.base (closeLeg i l s) s ∧ Kept.outer (closeLeg i l s) s ∧ Kept.line (closeLeg i l s) s ∧
      Kept.sends (closeLeg i l s) s ∧ Kept.news (closeLeg i l s) s ∧ Kept.assist (closeLeg i l s) s ∧
      Kept.audio (closeLeg i l s) s ∧ Kept.calls (closeLeg i l s) s ∧ Kept.prompts (closeLeg i l s) s ∧
      Kept.lists (closeLeg i l s) s ∧ Kept.reader (closeLeg i l s) s ∧
      (closeLeg i l s).lif.stations = s.lif.stations ∧ (closeLeg i l s).nsc.offers = s.nsc.offers ∧
      (closeLeg i l s).nsc.calls = s.nsc.calls ∧ (closeLeg i l s).nsc.journal = s.nsc.journal ∧
      (closeLeg i l s).fare.lastLeg = s.fare.lastLeg ∧ (closeLeg i l s).cab.booking = s.cab.booking ∧
      (closeLeg i l s).cab.watches = s.cab.watches ∧ (closeLeg i l s).acc.unresolved = s.acc.unresolved ∧
      (closeLeg i l s).acc.credit = s.acc.credit ∧ (closeLeg i l s).flt.coldFlag = s.flt.coldFlag := by
  simp [closeLeg]

@[simp] theorem endPanelReference_frame l (s : State) :
    Kept.base (endPanelReference l s) s ∧ Kept.outer (endPanelReference l s) s ∧
      Kept.deep (endPanelReference l s) s ∧ Kept.line (endPanelReference l s) s ∧
      Kept.sends (endPanelReference l s) s ∧ Kept.news (endPanelReference l s) s ∧
      Kept.assist (endPanelReference l s) s ∧ Kept.hire (endPanelReference l s) s ∧
      Kept.lists (endPanelReference l s) s ∧ (endPanelReference l s).nsc.sign = s.nsc.sign ∧
      (endPanelReference l s).nsc.offers = s.nsc.offers ∧ (endPanelReference l s).nsc.calls = s.nsc.calls ∧
      (endPanelReference l s).nsc.fares = s.nsc.fares ∧ (endPanelReference l s).nsc.journal = s.nsc.journal ∧
      (endPanelReference l s).fare = s.fare ∧ (endPanelReference l s).cab.sign = s.cab.sign ∧
      (endPanelReference l s).cab.signDue = s.cab.signDue ∧ (endPanelReference l s).icm = s.icm ∧
      (endPanelReference l s).acc.shift = s.acc.shift ∧
      (endPanelReference l s).acc.unresolved = s.acc.unresolved := by
  unfold endPanelReference
  split <;> simp

@[simp] theorem endClaimReference_frame l (s : State) :
    Kept.base (endClaimReference l s) s ∧ Kept.outer (endClaimReference l s) s ∧
      Kept.deep (endClaimReference l s) s ∧ Kept.line (endClaimReference l s) s ∧
      Kept.sends (endClaimReference l s) s ∧ Kept.news (endClaimReference l s) s ∧
      Kept.assist (endClaimReference l s) s ∧ Kept.hire (endClaimReference l s) s ∧
      Kept.lists (endClaimReference l s) s ∧ (endClaimReference l s).nsc.sign = s.nsc.sign ∧
      (endClaimReference l s).nsc.offers = s.nsc.offers ∧ (endClaimReference l s).nsc.calls = s.nsc.calls ∧
      (endClaimReference l s).nsc.fares = s.nsc.fares ∧ (endClaimReference l s).nsc.journal = s.nsc.journal ∧
      (endClaimReference l s).fare = s.fare ∧ (endClaimReference l s).cab.sign = s.cab.sign ∧
      (endClaimReference l s).cab.signDue = s.cab.signDue ∧ (endClaimReference l s).icm = s.icm ∧
      (endClaimReference l s).acc.shift = s.acc.shift ∧
      (endClaimReference l s).acc.unresolved = s.acc.unresolved := by
  unfold endClaimReference
  split <;> simp

@[simp] theorem freeSlot_frame i l (s : State) :
    Kept.base (freeSlot i l s) s ∧ Kept.line (freeSlot i l s) s ∧ Kept.sends (freeSlot i l s) s ∧
      Kept.pulses (freeSlot i l s) s ∧ Kept.inputs (freeSlot i l s) s ∧ Kept.assist (freeSlot i l s) s ∧
      Kept.hire (freeSlot i l s) s ∧ Kept.lists (freeSlot i l s) s ∧ Kept.reader (freeSlot i l s) s ∧
      (freeSlot i l s).nsc.assist = s.nsc.assist ∧ (freeSlot i l s).nsc.replies = s.nsc.replies ∧
      (freeSlot i l s).nsc.sign = s.nsc.sign ∧ (freeSlot i l s).nsc.offers = s.nsc.offers ∧
      (freeSlot i l s).nsc.calls = s.nsc.calls ∧ (freeSlot i l s).nsc.journal = s.nsc.journal ∧
      (freeSlot i l s).odo.manualBand = s.odo.manualBand ∧
      (freeSlot i l s).odo.vehicleBand = s.odo.vehicleBand ∧ (freeSlot i l s).tar = s.tar ∧
      (freeSlot i l s).fare.lastLeg = s.fare.lastLeg ∧ (freeSlot i l s).cab.sign = s.cab.sign ∧
      (freeSlot i l s).cab.signDue = s.cab.signDue ∧ (freeSlot i l s).icm = s.icm ∧
      (freeSlot i l s).acc.unresolved = s.acc.unresolved ∧ (freeSlot i l s).flt = s.flt ∧
      (freeSlot i l s).pwr = s.pwr := by
  simp [freeSlot]

@[simp] theorem legProgrammed_frame n (s : State) :
    Kept.base (legProgrammed n s) s ∧ Kept.line (legProgrammed n s) s ∧ Kept.sends (legProgrammed n s) s ∧
      Kept.pulses (legProgrammed n s) s ∧ Kept.inputs (legProgrammed n s) s ∧
      Kept.assist (legProgrammed n s) s ∧ Kept.hire (legProgrammed n s) s ∧ Kept.lists (legProgrammed n s) s ∧
      Kept.reader (legProgrammed n s) s ∧ (legProgrammed n s).nsc.assist = s.nsc.assist ∧
      (legProgrammed n s).nsc.replies = s.nsc.replies ∧ (legProgrammed n s).nsc.sign = s.nsc.sign ∧
      (legProgrammed n s).nsc.offers = s.nsc.offers ∧ (legProgrammed n s).nsc.calls = s.nsc.calls ∧
      (legProgrammed n s).nsc.journal = s.nsc.journal ∧ (legProgrammed n s).odo.manualBand = s.odo.manualBand ∧
      (legProgrammed n s).odo.vehicleBand = s.odo.vehicleBand ∧ (legProgrammed n s).tar = s.tar ∧
      (legProgrammed n s).fare.lastLeg = s.fare.lastLeg ∧ (legProgrammed n s).cab.sign = s.cab.sign ∧
      (legProgrammed n s).cab.signDue = s.cab.signDue ∧ (legProgrammed n s).icm = s.icm ∧
      (legProgrammed n s).acc.unresolved = s.acc.unresolved ∧ (legProgrammed n s).flt = s.flt ∧
      (legProgrammed n s).pwr = s.pwr := by
  unfold legProgrammed; (repeat' split) <;> simp

@[simp] theorem bookingTaken_frame l (s : State) :
    Kept.base (bookingTaken l s) s ∧ Kept.outer (bookingTaken l s) s ∧ Kept.shift (bookingTaken l s) s ∧
      Kept.deep (bookingTaken l s) s ∧ Kept.line (bookingTaken l s) s ∧ Kept.sends (bookingTaken l s) s ∧
      Kept.money (bookingTaken l s) s ∧ (bookingTaken l s).lif.stations = s.lif.stations ∧
      (bookingTaken l s).nsc.assist = s.nsc.assist ∧ (bookingTaken l s).nsc.replies = s.nsc.replies ∧
      (bookingTaken l s).nsc.sign = s.nsc.sign ∧ (bookingTaken l s).nsc.calls = s.nsc.calls ∧
      (bookingTaken l s).nsc.journal = s.nsc.journal ∧ (bookingTaken l s).icm = s.icm := by
  unfold bookingTaken
  split <;> simp

@[simp] theorem openLeg_frame q i (s : State) :
    Kept.base (openLeg q i s) s ∧ Kept.outer (openLeg q i s) s ∧ Kept.line (openLeg q i s) s ∧
      Kept.sends (openLeg q i s) s ∧ Kept.assist (openLeg q i s) s ∧ Kept.audio (openLeg q i s) s ∧
      Kept.calls (openLeg q i s) s ∧ Kept.prompts (openLeg q i s) s ∧
      (openLeg q i s).lif.stations = s.lif.stations ∧ (openLeg q i s).nsc.assist = s.nsc.assist ∧
      (openLeg q i s).nsc.offers = s.nsc.offers ∧ (openLeg q i s).nsc.calls = s.nsc.calls ∧
      (openLeg q i s).nsc.journal = s.nsc.journal ∧ (openLeg q i s).nsc.print = s.nsc.print ∧
      (openLeg q i s).cab.watches = s.cab.watches ∧ (openLeg q i s).acc = s.acc ∧ (openLeg q i s).jnl = s.jnl ∧
      (openLeg q i s).flt.coldFlag = s.flt.coldFlag := by
  simp [openLeg]

@[simp] theorem totalChanged_frame i l (s : State) :
    Kept.base (totalChanged i l s) s ∧ Kept.outer (totalChanged i l s) s ∧ Kept.deep (totalChanged i l s) s ∧
      Kept.line (totalChanged i l s) s ∧ Kept.sends (totalChanged i l s) s ∧ Kept.news (totalChanged i l s) s ∧
      (totalChanged i l s).lif.stations = s.lif.stations ∧ (totalChanged i l s).nsc.sign = s.nsc.sign ∧
      (totalChanged i l s).nsc.calls = s.nsc.calls ∧ (totalChanged i l s).nsc.journal = s.nsc.journal ∧
      (totalChanged i l s).nsc.print = s.nsc.print ∧ (totalChanged i l s).fare.lastLeg = s.fare.lastLeg ∧
      (totalChanged i l s).cab = s.cab ∧ (totalChanged i l s).icm = s.icm ∧ (totalChanged i l s).acc = s.acc := by
  simp [totalChanged]

@[simp] theorem releaseClaim_frame i (s : State) :
    Kept.base (releaseClaim i s) s ∧ Kept.outer (releaseClaim i s) s ∧ Kept.deep (releaseClaim i s) s ∧
      Kept.line (releaseClaim i s) s ∧ Kept.sends (releaseClaim i s) s ∧ Kept.news (releaseClaim i s) s ∧
      Kept.assist (releaseClaim i s) s ∧ Kept.hire (releaseClaim i s) s ∧ Kept.lists (releaseClaim i s) s ∧
      (releaseClaim i s).nsc.sign = s.nsc.sign ∧ (releaseClaim i s).nsc.calls = s.nsc.calls ∧
      (releaseClaim i s).nsc.fares = s.nsc.fares ∧ (releaseClaim i s).nsc.journal = s.nsc.journal ∧
      (releaseClaim i s).fare.lastLeg = s.fare.lastLeg ∧ (releaseClaim i s).cab.sign = s.cab.sign ∧
      (releaseClaim i s).cab.signDue = s.cab.signDue ∧ (releaseClaim i s).icm = s.icm ∧
      (releaseClaim i s).acc.shift = s.acc.shift ∧ (releaseClaim i s).acc.unresolved = s.acc.unresolved := by
  simp [releaseClaim]

@[simp] theorem holderAbsent_frame a (s : State) :
    Kept.base (holderAbsent a s) s ∧ Kept.outer (holderAbsent a s) s ∧ Kept.deep (holderAbsent a s) s ∧
      Kept.line (holderAbsent a s) s ∧ Kept.sends (holderAbsent a s) s ∧ Kept.news (holderAbsent a s) s ∧
      Kept.assist (holderAbsent a s) s ∧ Kept.hire (holderAbsent a s) s ∧ Kept.lists (holderAbsent a s) s ∧
      (holderAbsent a s).nsc.sign = s.nsc.sign ∧ (holderAbsent a s).nsc.calls = s.nsc.calls ∧
      (holderAbsent a s).nsc.fares = s.nsc.fares ∧ (holderAbsent a s).nsc.journal = s.nsc.journal ∧
      (holderAbsent a s).fare.lastLeg = s.fare.lastLeg ∧ (holderAbsent a s).cab.sign = s.cab.sign ∧
      (holderAbsent a s).cab.signDue = s.cab.signDue ∧ (holderAbsent a s).icm = s.icm ∧
      (holderAbsent a s).acc.shift = s.acc.shift ∧ (holderAbsent a s).acc.unresolved = s.acc.unresolved := by
  simp only [Kept.base, Kept.outer, Kept.deep, Kept.line, Kept.sends, Kept.news, Kept.assist, Kept.hire, Kept.lists, and_assoc]
  unfold holderAbsent
  refine ⟨foldl_inv (fun u : State => u.pending) _ ?_ _ _, foldl_inv (fun u : State => u.free) _ ?_ _ _,
    foldl_inv (fun u : State => u.time) _ ?_ _ _, foldl_inv (fun u : State => u.array) _ ?_ _ _,
    foldl_inv (fun u : State => u.odo) _ ?_ _ _, foldl_inv (fun u : State => u.tar) _ ?_ _ _,
    foldl_inv (fun u : State => u.pwr) _ ?_ _ _, foldl_inv (fun u : State => u.jnl) _ ?_ _ _,
    foldl_inv (fun u : State => u.flt) _ ?_ _ _, foldl_inv (fun u : State => u.lif.address) _ ?_ _ _,
    foldl_inv (fun u : State => u.lif.rx) _ ?_ _ _, foldl_inv (fun u : State => u.lif.queue) _ ?_ _ _,
    foldl_inv (fun u : State => u.lif.lineFree) _ ?_ _ _,
    foldl_inv (fun u : State => u.lif.announceDue) _ ?_ _ _,
    foldl_inv (fun u : State => u.nsc.fareSent) _ ?_ _ _, foldl_inv (fun u : State => u.nsc.announce) _ ?_ _ _,
    foldl_inv (fun u : State => u.nsc.lastOffer) _ ?_ _ _,
    foldl_inv (fun u : State => u.nsc.lastCall) _ ?_ _ _, foldl_inv (fun u : State => u.nsc.lastFare) _ ?_ _ _,
    foldl_inv (fun u : State => u.nsc.assist) _ ?_ _ _, foldl_inv (fun u : State => u.nsc.replies) _ ?_ _ _,
    foldl_inv (fun u : State => u.nsc.fleet) _ ?_ _ _, foldl_inv (fun u : State => u.cab.latch) _ ?_ _ _,
    foldl_inv (fun u : State => u.cab.presses) _ ?_ _ _, foldl_inv (fun u : State => u.cab.pressTime) _ ?_ _ _,
    foldl_inv (fun u : State => u.cab.wakeMark) _ ?_ _ _, foldl_inv (fun u : State => u.cab.ack) _ ?_ _ _,
    foldl_inv (fun u : State => u.cab.repeatDue) _ ?_ _ _, foldl_inv (fun u : State => u.cab.duty) _ ?_ _ _,
    foldl_inv (fun u : State => u.cab.share) _ ?_ _ _, foldl_inv (fun u : State => u.cab.booking) _ ?_ _ _,
    foldl_inv (fun u : State => u.acc.lastShift) _ ?_ _ _, foldl_inv (fun u : State => u.acc.late) _ ?_ _ _,
    foldl_inv (fun u : State => u.nsc.sign) _ ?_ _ _, foldl_inv (fun u : State => u.nsc.calls) _ ?_ _ _,
    foldl_inv (fun u : State => u.nsc.fares) _ ?_ _ _, foldl_inv (fun u : State => u.nsc.journal) _ ?_ _ _,
    foldl_inv (fun u : State => u.fare.lastLeg) _ ?_ _ _, foldl_inv (fun u : State => u.cab.sign) _ ?_ _ _,
    foldl_inv (fun u : State => u.cab.signDue) _ ?_ _ _, foldl_inv (fun u : State => u.icm) _ ?_ _ _,
    foldl_inv (fun u : State => u.acc.shift) _ ?_ _ _, foldl_inv (fun u : State => u.acc.unresolved) _ ?_ _ _⟩ <;>
    (intros; (repeat' split) <;> simp)

@[simp] theorem settle_frame i (s : State) :
    Kept.base (settle i s) s ∧ Kept.outer (settle i s) s ∧ Kept.line (settle i s) s ∧
      Kept.sends (settle i s) s ∧ Kept.news (settle i s) s ∧ Kept.assist (settle i s) s ∧
      Kept.audio (settle i s) s ∧ Kept.calls (settle i s) s ∧ Kept.lists (settle i s) s ∧
      Kept.reader (settle i s) s ∧ (settle i s).nsc.calls = s.nsc.calls ∧
      (settle i s).nsc.journal = s.nsc.journal ∧ (settle i s).fare.lastLeg = s.fare.lastLeg ∧
      (settle i s).cab.booking = s.cab.booking ∧ (settle i s).icm.player = s.icm.player ∧
      (settle i s).icm.promptSample = s.icm.promptSample ∧ (settle i s).acc.unresolved = s.acc.unresolved ∧
      (settle i s).flt.coldFlag = s.flt.coldFlag := by
  unfold settle; dsimp only; (repeat' split) <;> simp

@[simp] theorem cardApproval_frame q i l a v r (s : State) :
    Kept.base (cardApproval q i l a v r s) s ∧ Kept.outer (cardApproval q i l a v r s) s ∧
      Kept.line (cardApproval q i l a v r s) s ∧ Kept.sends (cardApproval q i l a v r s) s ∧
      Kept.assist (cardApproval q i l a v r s) s ∧ Kept.audio (cardApproval q i l a v r s) s ∧
      Kept.calls (cardApproval q i l a v r s) s ∧ Kept.lists (cardApproval q i l a v r s) s ∧
      Kept.reader (cardApproval q i l a v r s) s ∧ (cardApproval q i l a v r s).nsc.assist = s.nsc.assist ∧
      (cardApproval q i l a v r s).nsc.calls = s.nsc.calls ∧
      (cardApproval q i l a v r s).nsc.fleet = s.nsc.fleet ∧
      (cardApproval q i l a v r s).nsc.journal = s.nsc.journal ∧
      (cardApproval q i l a v r s).fare.lastLeg = s.fare.lastLeg ∧
      (cardApproval q i l a v r s).cab.booking = s.cab.booking ∧
      (cardApproval q i l a v r s).icm.player = s.icm.player ∧
      (cardApproval q i l a v r s).icm.promptSample = s.icm.promptSample ∧
      (cardApproval q i l a v r s).acc.unresolved = s.acc.unresolved ∧
      (cardApproval q i l a v r s).flt.coldFlag = s.flt.coldFlag := by
  simp [cardApproval]

@[simp] theorem cardDecline_frame i l a o (s : State) :
    Kept.base (cardDecline i l a o s) s ∧ Kept.outer (cardDecline i l a o s) s ∧
      Kept.deep (cardDecline i l a o s) s ∧ Kept.line (cardDecline i l a o s) s ∧
      Kept.sends (cardDecline i l a o s) s ∧ Kept.news (cardDecline i l a o s) s ∧
      Kept.audio (cardDecline i l a o s) s ∧ Kept.calls (cardDecline i l a o s) s ∧
      (cardDecline i l a o s).lif.stations = s.lif.stations ∧ (cardDecline i l a o s).nsc.sign = s.nsc.sign ∧
      (cardDecline i l a o s).nsc.calls = s.nsc.calls ∧ (cardDecline i l a o s).nsc.journal = s.nsc.journal ∧
      (cardDecline i l a o s).nsc.print = s.nsc.print ∧ (cardDecline i l a o s).fare.lastLeg = s.fare.lastLeg ∧
      (cardDecline i l a o s).cab = s.cab ∧ (cardDecline i l a o s).icm.privacy = s.icm.privacy ∧
      (cardDecline i l a o s).icm.forced = s.icm.forced ∧ (cardDecline i l a o s).icm.player = s.icm.player ∧
      (cardDecline i l a o s).icm.promptSample = s.icm.promptSample ∧ (cardDecline i l a o s).acc = s.acc := by
  simp [cardDecline]

@[simp] theorem listLate_frame q l a m r (s : State) :
    Kept.base (listLate q l a m r s) s ∧ Kept.outer (listLate q l a m r s) s ∧
      Kept.line (listLate q l a m r s) s ∧ Kept.sends (listLate q l a m r s) s ∧
      Kept.money (listLate q l a m r s) s ∧ Kept.reader (listLate q l a m r s) s ∧
      (listLate q l a m r s).lif.stations = s.lif.stations ∧ (listLate q l a m r s).nsc.assist = s.nsc.assist ∧
      (listLate q l a m r s).nsc.sign = s.nsc.sign ∧ (listLate q l a m r s).nsc.calls = s.nsc.calls ∧
      (listLate q l a m r s).nsc.journal = s.nsc.journal ∧ (listLate q l a m r s).fare = s.fare ∧
      (listLate q l a m r s).cab = s.cab ∧ (listLate q l a m r s).icm = s.icm ∧
      (listLate q l a m r s).acc.lastShift = s.acc.lastShift ∧ (listLate q l a m r s).acc.jobs = s.acc.jobs ∧
      (listLate q l a m r s).acc.credit = s.acc.credit ∧ (listLate q l a m r s).flt.coldFlag = s.flt.coldFlag := by
  simp [listLate]

@[simp] theorem applyLate_frame q i l a m r (s : State) :
    Kept.base (applyLate q i l a m r s) s ∧ Kept.outer (applyLate q i l a m r s) s ∧
      Kept.line (applyLate q i l a m r s) s ∧ Kept.sends (applyLate q i l a m r s) s ∧
      Kept.assist (applyLate q i l a m r s) s ∧ Kept.audio (applyLate q i l a m r s) s ∧
      Kept.calls (applyLate q i l a m r s) s ∧ Kept.lists (applyLate q i l a m r s) s ∧
      Kept.reader (applyLate q i l a m r s) s ∧ (applyLate q i l a m r s).nsc.assist = s.nsc.assist ∧
      (applyLate q i l a m r s).nsc.calls = s.nsc.calls ∧ (applyLate q i l a m r s).nsc.fleet = s.nsc.fleet ∧
      (applyLate q i l a m r s).nsc.journal = s.nsc.journal ∧
      (applyLate q i l a m r s).fare.lastLeg = s.fare.lastLeg ∧
      (applyLate q i l a m r s).cab.booking = s.cab.booking ∧
      (applyLate q i l a m r s).icm.player = s.icm.player ∧
      (applyLate q i l a m r s).icm.promptSample = s.icm.promptSample ∧
      (applyLate q i l a m r s).flt.coldFlag = s.flt.coldFlag := by
  simp [applyLate]

@[simp] theorem runOut_frame i l a (s : State) :
    Kept.base (runOut i l a s) s ∧ Kept.outer (runOut i l a s) s ∧ Kept.deep (runOut i l a s) s ∧
      Kept.line (runOut i l a s) s ∧ Kept.sends (runOut i l a s) s ∧ Kept.news (runOut i l a s) s ∧
      Kept.assist (runOut i l a s) s ∧ Kept.hire (runOut i l a s) s ∧ Kept.lists (runOut i l a s) s ∧
      (runOut i l a s).nsc.sign = s.nsc.sign ∧ (runOut i l a s).nsc.offers = s.nsc.offers ∧
      (runOut i l a s).nsc.calls = s.nsc.calls ∧ (runOut i l a s).nsc.journal = s.nsc.journal ∧
      (runOut i l a s).fare.lastLeg = s.fare.lastLeg ∧ (runOut i l a s).cab.sign = s.cab.sign ∧
      (runOut i l a s).cab.signDue = s.cab.signDue ∧ (runOut i l a s).icm = s.icm := by
  simp [runOut]

@[simp] theorem joinCalls_frame p a u (s : State) :
    Kept.base (joinCalls p a u s) s ∧ Kept.outer (joinCalls p a u s) s ∧ Kept.deep (joinCalls p a u s) s ∧
      Kept.line (joinCalls p a u s) s ∧ Kept.sends (joinCalls p a u s) s ∧ Kept.news (joinCalls p a u s) s ∧
      Kept.assist (joinCalls p a u s) s ∧ Kept.hire (joinCalls p a u s) s ∧ Kept.audio (joinCalls p a u s) s ∧
      Kept.lists (joinCalls p a u s) s ∧ (joinCalls p a u s).nsc.sign = s.nsc.sign ∧
      (joinCalls p a u s).nsc.offers = s.nsc.offers ∧ (joinCalls p a u s).nsc.fares = s.nsc.fares ∧
      (joinCalls p a u s).nsc.journal = s.nsc.journal ∧ (joinCalls p a u s).fare = s.fare ∧
      (joinCalls p a u s).cab.sign = s.cab.sign ∧ (joinCalls p a u s).cab.signDue = s.cab.signDue ∧
      (joinCalls p a u s).icm.talk = s.icm.talk ∧ (joinCalls p a u s).icm.privacy = s.icm.privacy ∧
      (joinCalls p a u s).icm.forced = s.icm.forced ∧ (joinCalls p a u s).icm.player = s.icm.player ∧
      (joinCalls p a u s).icm.promptSample = s.icm.promptSample ∧ (joinCalls p a u s).acc.shift = s.acc.shift ∧
      (joinCalls p a u s).acc.unresolved = s.acc.unresolved := by
  simp [joinCalls]

@[simp] theorem raiseUrgent_frame p (s : State) :
    Kept.base (raiseUrgent p s) s ∧ Kept.outer (raiseUrgent p s) s ∧ Kept.shift (raiseUrgent p s) s ∧
      Kept.deep (raiseUrgent p s) s ∧ Kept.line (raiseUrgent p s) s ∧ Kept.sends (raiseUrgent p s) s ∧
      Kept.money (raiseUrgent p s) s ∧ Kept.news (raiseUrgent p s) s ∧ Kept.audio (raiseUrgent p s) s ∧
      Kept.prompts (raiseUrgent p s) s ∧ (raiseUrgent p s).lif.stations = s.lif.stations ∧
      (raiseUrgent p s).nsc.sign = s.nsc.sign ∧ (raiseUrgent p s).nsc.journal = s.nsc.journal ∧
      (raiseUrgent p s).icm.calls = s.icm.calls ∧ (raiseUrgent p s).icm.arrivals = s.icm.arrivals ∧
      (raiseUrgent p s).icm.talk = s.icm.talk ∧ (raiseUrgent p s).icm.privacy = s.icm.privacy ∧
      (raiseUrgent p s).icm.forced = s.icm.forced ∧ (raiseUrgent p s).icm.ringDue = s.icm.ringDue := by
  unfold raiseUrgent
  split <;> simp

@[simp] theorem raiseReads_frame l (s : State) :
    Kept.base (raiseReads l s) s ∧ Kept.outer (raiseReads l s) s ∧ Kept.shift (raiseReads l s) s ∧
      (raiseReads l s).lif = s.lif ∧ (raiseReads l s).nsc = s.nsc ∧ (raiseReads l s).icm = s.icm ∧
      (raiseReads l s).jnl = s.jnl ∧ (raiseReads l s).flt.coldFlag = s.flt.coldFlag := by
  simp only [Kept.base, Kept.outer, Kept.shift, and_assoc]
  unfold raiseReads
  refine ⟨foldl_inv (fun u : State => u.pending) _ ?_ _ _, foldl_inv (fun u : State => u.free) _ ?_ _ _,
    foldl_inv (fun u : State => u.time) _ ?_ _ _, foldl_inv (fun u : State => u.array) _ ?_ _ _,
    foldl_inv (fun u : State => u.odo) _ ?_ _ _, foldl_inv (fun u : State => u.tar) _ ?_ _ _,
    foldl_inv (fun u : State => u.pwr) _ ?_ _ _, foldl_inv (fun u : State => u.fare) _ ?_ _ _,
    foldl_inv (fun u : State => u.cab) _ ?_ _ _, foldl_inv (fun u : State => u.acc) _ ?_ _ _,
    foldl_inv (fun u : State => u.lif) _ ?_ _ _, foldl_inv (fun u : State => u.nsc) _ ?_ _ _,
    foldl_inv (fun u : State => u.icm) _ ?_ _ _, foldl_inv (fun u : State => u.jnl) _ ?_ _ _,
    foldl_inv (fun u : State => u.flt.coldFlag) _ ?_ _ _⟩ <;>
    (intros; simp)

@[simp] theorem handOver_frame t (s : State) :
    Kept.base (handOver t s) s ∧ Kept.deep (handOver t s) s ∧ Kept.line (handOver t s) s ∧
      Kept.sends (handOver t s) s ∧ Kept.money (handOver t s) s ∧ Kept.news (handOver t s) s ∧
      Kept.assist (handOver t s) s ∧ Kept.hire (handOver t s) s ∧
      (handOver t s).lif.stations = s.lif.stations ∧ (handOver t s).nsc.calls = s.nsc.calls ∧
      (handOver t s).nsc.journal = s.nsc.journal ∧ (handOver t s).odo = s.odo ∧
      (handOver t s).tar.window = s.tar.window ∧ (handOver t s).tar.written = s.tar.written ∧
      (handOver t s).fare = s.fare ∧ (handOver t s).icm = s.icm ∧ (handOver t s).acc = s.acc ∧
      (handOver t s).pwr = s.pwr := by
  simp [handOver]

@[simp] theorem readTariff_frame (s : State) :
    Kept.base (readTariff s) s ∧ Kept.line (readTariff s) s ∧ Kept.sends (readTariff s) s ∧
      Kept.money (readTariff s) s ∧ Kept.news (readTariff s) s ∧ Kept.assist (readTariff s) s ∧
      Kept.hire (readTariff s) s ∧ (readTariff s).lif.stations = s.lif.stations ∧
      (readTariff s).nsc.calls = s.nsc.calls ∧ (readTariff s).nsc.journal = s.nsc.journal ∧
      (readTariff s).odo = s.odo ∧ (readTariff s).tar.window = s.tar.window ∧
      (readTariff s).tar.written = s.tar.written ∧ (readTariff s).fare = s.fare ∧ (readTariff s).icm = s.icm ∧
      (readTariff s).acc = s.acc ∧ (readTariff s).jnl = s.jnl ∧ (readTariff s).flt.coldFlag = s.flt.coldFlag ∧
      (readTariff s).pwr = s.pwr := by
  simp [readTariff]

@[simp] theorem partWritten_frame a (s : State) :
    Kept.base (partWritten a s) s ∧ Kept.shift (partWritten a s) s ∧ Kept.sends (partWritten a s) s ∧
      Kept.money (partWritten a s) s ∧ (partWritten a s).lif = s.lif ∧
      (partWritten a s).nsc.assist = s.nsc.assist ∧ (partWritten a s).nsc.sign = s.nsc.sign ∧
      (partWritten a s).nsc.calls = s.nsc.calls ∧ (partWritten a s).nsc.fleet = s.nsc.fleet ∧
      (partWritten a s).nsc.journal = s.nsc.journal ∧ (partWritten a s).odo = s.odo ∧
      (partWritten a s).tar.committed = s.tar.committed ∧ (partWritten a s).tar.written = s.tar.written ∧
      (partWritten a s).icm = s.icm ∧ (partWritten a s).jnl = s.jnl ∧
      (partWritten a s).flt.coldFlag = s.flt.coldFlag ∧ (partWritten a s).pwr = s.pwr := by
  simp [partWritten]

@[simp] theorem odoTick_frame (s : State) :
    Kept.base (odoTick s) s ∧ Kept.shift (odoTick s) s ∧ Kept.inputs (odoTick s) s ∧ Kept.clock (odoTick s) s ∧
      (odoTick s).lif = s.lif ∧ (odoTick s).nsc = s.nsc ∧ (odoTick s).odo.pulseLevel = s.odo.pulseLevel ∧
      (odoTick s).odo.pulseQualified = s.odo.pulseQualified ∧ (odoTick s).odo.pulseFrom = s.odo.pulseFrom ∧
      (odoTick s).odo.tickDue = s.odo.tickDue ∧ (odoTick s).odo.manualBand = s.odo.manualBand ∧
      (odoTick s).tar = s.tar ∧ (odoTick s).icm = s.icm ∧ (odoTick s).jnl = s.jnl ∧
      (odoTick s).flt.coldFlag = s.flt.coldFlag ∧ (odoTick s).pwr = s.pwr := by
  simp [odoTick]

@[simp] theorem sampleAssist_frame (s : State) :
    Kept.base (sampleAssist s) s ∧ Kept.shift (sampleAssist s) s ∧ Kept.deep (sampleAssist s) s ∧
      Kept.pulses (sampleAssist s) s ∧ Kept.clock (sampleAssist s) s ∧ (sampleAssist s).lif = s.lif ∧
      (sampleAssist s).nsc = s.nsc ∧ (sampleAssist s).odo.addrStrap = s.odo.addrStrap ∧
      (sampleAssist s).odo.calStrap = s.odo.calStrap ∧ (sampleAssist s).odo.manualBand = s.odo.manualBand ∧
      (sampleAssist s).odo.vehicleBand = s.odo.vehicleBand ∧
      (sampleAssist s).odo.assistLevel = s.odo.assistLevel ∧
      (sampleAssist s).odo.assistFrom = s.odo.assistFrom ∧ (sampleAssist s).odo.powerGood = s.odo.powerGood ∧
      (sampleAssist s).odo.powerFrom = s.odo.powerFrom ∧ (sampleAssist s).tar = s.tar ∧
      (sampleAssist s).icm = s.icm ∧ (sampleAssist s).pwr = s.pwr := by
  simp [sampleAssist]

@[simp] theorem bookingEnds_frame o (s : State) :
    Kept.base (bookingEnds o s) s ∧ Kept.outer (bookingEnds o s) s ∧ Kept.deep (bookingEnds o s) s ∧
      Kept.line (bookingEnds o s) s ∧ Kept.sends (bookingEnds o s) s ∧ Kept.money (bookingEnds o s) s ∧
      Kept.assist (bookingEnds o s) s ∧ (bookingEnds o s).lif.stations = s.lif.stations ∧
      (bookingEnds o s).nsc.assist = s.nsc.assist ∧ (bookingEnds o s).nsc.replies = s.nsc.replies ∧
      (bookingEnds o s).nsc.sign = s.nsc.sign ∧ (bookingEnds o s).nsc.calls = s.nsc.calls ∧
      (bookingEnds o s).nsc.journal = s.nsc.journal ∧ (bookingEnds o s).fare = s.fare ∧
      (bookingEnds o s).cab.duty = s.cab.duty ∧ (bookingEnds o s).cab.share = s.cab.share ∧
      (bookingEnds o s).cab.sign = s.cab.sign ∧ (bookingEnds o s).cab.signDue = s.cab.signDue ∧
      (bookingEnds o s).cab.watches = s.cab.watches ∧ (bookingEnds o s).icm = s.icm ∧
      (bookingEnds o s).acc = s.acc := by
  unfold bookingEnds
  split <;> simp

@[simp] theorem dutyEffect_frame n (s : State) :
    Kept.base (dutyEffect n s) s ∧ Kept.outer (dutyEffect n s) s ∧ Kept.deep (dutyEffect n s) s ∧
      Kept.line (dutyEffect n s) s ∧ Kept.sends (dutyEffect n s) s ∧ Kept.money (dutyEffect n s) s ∧
      Kept.assist (dutyEffect n s) s ∧ (dutyEffect n s).lif.stations = s.lif.stations ∧
      (dutyEffect n s).nsc.assist = s.nsc.assist ∧ (dutyEffect n s).nsc.replies = s.nsc.replies ∧
      (dutyEffect n s).nsc.calls = s.nsc.calls ∧ (dutyEffect n s).nsc.journal = s.nsc.journal ∧
      (dutyEffect n s).fare = s.fare ∧ (dutyEffect n s).cab.share = s.cab.share ∧
      (dutyEffect n s).cab.watches = s.cab.watches ∧ (dutyEffect n s).icm = s.icm ∧ (dutyEffect n s).acc = s.acc := by
  unfold dutyEffect
  split <;> simp

@[simp] theorem openShiftBody_frame d (s : State) :
    Kept.base (openShiftBody d s) s ∧ Kept.line (openShiftBody d s) s ∧ Kept.sends (openShiftBody d s) s ∧
      Kept.money (openShiftBody d s) s ∧ Kept.news (openShiftBody d s) s ∧ Kept.assist (openShiftBody d s) s ∧
      Kept.reader (openShiftBody d s) s ∧ (openShiftBody d s).lif.stations = s.lif.stations ∧
      (openShiftBody d s).nsc.calls = s.nsc.calls ∧ (openShiftBody d s).nsc.journal = s.nsc.journal ∧
      (openShiftBody d s).odo = s.odo ∧ (openShiftBody d s).tar.committed = s.tar.committed ∧
      (openShiftBody d s).tar.written = s.tar.written ∧ (openShiftBody d s).fare.slots = s.fare.slots ∧
      (openShiftBody d s).cab.share = s.cab.share ∧ (openShiftBody d s).cab.booking = s.cab.booking ∧
      (openShiftBody d s).cab.watches = s.cab.watches ∧ (openShiftBody d s).icm = s.icm ∧
      (openShiftBody d s).acc.jobs = s.acc.jobs ∧ (openShiftBody d s).acc.credit = s.acc.credit ∧
      (openShiftBody d s).flt = s.flt ∧ (openShiftBody d s).pwr = s.pwr := by
  simp [openShiftBody]

@[simp] theorem closeShiftBody_frame (s : State) :
    Kept.base (closeShiftBody s) s ∧ Kept.line (closeShiftBody s) s ∧ Kept.sends (closeShiftBody s) s ∧
      Kept.pulses (closeShiftBody s) s ∧ Kept.inputs (closeShiftBody s) s ∧ Kept.clock (closeShiftBody s) s ∧
      Kept.assist (closeShiftBody s) s ∧ Kept.lists (closeShiftBody s) s ∧ Kept.reader (closeShiftBody s) s ∧
      (closeShiftBody s).lif.stations = s.lif.stations ∧ (closeShiftBody s).nsc.assist = s.nsc.assist ∧
      (closeShiftBody s).nsc.replies = s.nsc.replies ∧ (closeShiftBody s).nsc.offers = s.nsc.offers ∧
      (closeShiftBody s).nsc.calls = s.nsc.calls ∧ (closeShiftBody s).nsc.fares = s.nsc.fares ∧
      (closeShiftBody s).nsc.journal = s.nsc.journal ∧ (closeShiftBody s).odo.vehicleBand = s.odo.vehicleBand ∧
      (closeShiftBody s).tar = s.tar ∧ (closeShiftBody s).fare = s.fare ∧
      (closeShiftBody s).cab.share = s.cab.share ∧ (closeShiftBody s).cab.booking = s.cab.booking ∧
      (closeShiftBody s).cab.watches = s.cab.watches ∧ (closeShiftBody s).icm = s.icm ∧
      (closeShiftBody s).acc.unresolved = s.acc.unresolved ∧ (closeShiftBody s).acc.credit = s.acc.credit ∧
      (closeShiftBody s).flt.coldFlag = s.flt.coldFlag ∧ (closeShiftBody s).pwr = s.pwr := by
  simp [closeShiftBody]

@[simp] theorem programmed_frame q (s : State) :
    Kept.base (programmed q s) s ∧ Kept.line (programmed q s) s ∧ Kept.sends (programmed q s) s ∧
      Kept.pulses (programmed q s) s ∧ Kept.inputs (programmed q s) s ∧ Kept.assist (programmed q s) s ∧
      Kept.hire (programmed q s) s ∧ Kept.lists (programmed q s) s ∧ Kept.reader (programmed q s) s ∧
      (programmed q s).nsc.assist = s.nsc.assist ∧ (programmed q s).nsc.replies = s.nsc.replies ∧
      (programmed q s).nsc.sign = s.nsc.sign ∧ (programmed q s).nsc.offers = s.nsc.offers ∧
      (programmed q s).nsc.calls = s.nsc.calls ∧ (programmed q s).nsc.journal = s.nsc.journal ∧
      (programmed q s).odo.manualBand = s.odo.manualBand ∧
      (programmed q s).odo.vehicleBand = s.odo.vehicleBand ∧ (programmed q s).tar = s.tar ∧
      (programmed q s).fare.lastLeg = s.fare.lastLeg ∧ (programmed q s).cab.sign = s.cab.sign ∧
      (programmed q s).cab.signDue = s.cab.signDue ∧ (programmed q s).icm = s.icm ∧
      (programmed q s).acc.unresolved = s.acc.unresolved ∧ (programmed q s).flt = s.flt ∧
      (programmed q s).pwr = s.pwr := by
  unfold programmed
  split <;> simp

@[simp] theorem endSent_frame c o (s : State) :
    Kept.base (endSent c o s) s ∧ Kept.outer (endSent c o s) s ∧ Kept.shift (endSent c o s) s ∧
      Kept.line (endSent c o s) s ∧ Kept.sends (endSent c o s) s ∧ Kept.money (endSent c o s) s ∧
      Kept.news (endSent c o s) s ∧ (endSent c o s).lif.stations = s.lif.stations ∧
      (endSent c o s).nsc.sign = s.nsc.sign ∧ (endSent c o s).nsc.calls = s.nsc.calls ∧
      (endSent c o s).icm = s.icm ∧ (endSent c o s).jnl.inFlight = s.jnl.inFlight ∧
      (endSent c o s).jnl.waiting = s.jnl.waiting ∧ (endSent c o s).jnl.append = s.jnl.append ∧
      (endSent c o s).jnl.writePos = s.jnl.writePos ∧
      (endSent c o s).jnl.waitsErase = s.jnl.waitsErase ∧ (endSent c o s).jnl.nextSeq = s.jnl.nextSeq ∧
      (endSent c o s).jnl.sectors = s.jnl.sectors ∧ (endSent c o s).jnl.credit = s.jnl.credit ∧
      (endSent c o s).flt = s.flt := by
  simp [endSent]

@[simp] theorem rowSent_frame c (s : State) :
    Kept.base (rowSent c s) s ∧ Kept.outer (rowSent c s) s ∧ Kept.shift (rowSent c s) s ∧
      Kept.line (rowSent c s) s ∧ Kept.sends (rowSent c s) s ∧ Kept.money (rowSent c s) s ∧
      Kept.news (rowSent c s) s ∧ Kept.ring (rowSent c s) s ∧ (rowSent c s).lif.stations = s.lif.stations ∧
      (rowSent c s).nsc.sign = s.nsc.sign ∧ (rowSent c s).nsc.calls = s.nsc.calls ∧ (rowSent c s).icm = s.icm ∧
      (rowSent c s).jnl.inFlight = s.jnl.inFlight ∧ (rowSent c s).jnl.waiting = s.jnl.waiting ∧
      (rowSent c s).jnl.sectors = s.jnl.sectors ∧ (rowSent c s).jnl.credit = s.jnl.credit ∧
      (rowSent c s).flt.coldFlag = s.flt.coldFlag := by
  unfold rowSent
  split <;> simp

@[simp] theorem readFrameSent_frame (s : State) :
    Kept.base (readFrameSent s) s ∧ Kept.outer (readFrameSent s) s ∧ Kept.shift (readFrameSent s) s ∧
      Kept.line (readFrameSent s) s ∧ Kept.sends (readFrameSent s) s ∧ Kept.money (readFrameSent s) s ∧
      Kept.news (readFrameSent s) s ∧ (readFrameSent s).lif.stations = s.lif.stations ∧
      (readFrameSent s).nsc.sign = s.nsc.sign ∧ (readFrameSent s).nsc.calls = s.nsc.calls ∧
      (readFrameSent s).icm = s.icm ∧ (readFrameSent s).jnl.inFlight = s.jnl.inFlight ∧
      (readFrameSent s).jnl.waiting = s.jnl.waiting ∧ (readFrameSent s).jnl.append = s.jnl.append ∧
      (readFrameSent s).jnl.writePos = s.jnl.writePos ∧
      (readFrameSent s).jnl.waitsErase = s.jnl.waitsErase ∧ (readFrameSent s).jnl.nextSeq = s.jnl.nextSeq ∧
      (readFrameSent s).jnl.sectors = s.jnl.sectors ∧ (readFrameSent s).flt.coldFlag = s.flt.coldFlag := by
  unfold readFrameSent; (repeat' split) <;> simp

@[simp] theorem hearChar_frame (s : State) :
    Kept.outer (hearChar s) s ∧ Kept.shift (hearChar s) s ∧ Kept.deep (hearChar s) s ∧
      (hearChar s).pending = s.pending ∧ (hearChar s).free = s.free ∧ (hearChar s).array = s.array ∧
      (hearChar s).lif.address = s.lif.address ∧ (hearChar s).lif.rx = s.lif.rx ∧
      (hearChar s).lif.queue = s.lif.queue ∧ (hearChar s).lif.tx = s.lif.tx ∧
      (hearChar s).lif.stations = s.lif.stations ∧ (hearChar s).lif.announceDue = s.lif.announceDue ∧
      (hearChar s).nsc = s.nsc ∧ (hearChar s).icm = s.icm := by
  simp [hearChar]

@[simp] theorem becomePresent_frame e (s : State) :
    Kept.base (becomePresent e s) s ∧ Kept.outer (becomePresent e s) s ∧ Kept.deep (becomePresent e s) s ∧
      Kept.line (becomePresent e s) s ∧ Kept.sends (becomePresent e s) s ∧ Kept.money (becomePresent e s) s ∧
      Kept.news (becomePresent e s) s ∧ Kept.assist (becomePresent e s) s ∧ Kept.hire (becomePresent e s) s ∧
      (becomePresent e s).lif.stations = s.lif.stations ∧ (becomePresent e s).nsc.calls = s.nsc.calls ∧
      (becomePresent e s).nsc.journal = s.nsc.journal ∧ (becomePresent e s).fare = s.fare ∧
      (becomePresent e s).cab.sign = s.cab.sign ∧ (becomePresent e s).cab.watches = s.cab.watches ∧
      (becomePresent e s).icm = s.icm ∧ (becomePresent e s).acc = s.acc := by
  simp [becomePresent]

@[simp] theorem refreshPresence_frame a (s : State) :
    Kept.base (refreshPresence a s) s ∧ Kept.outer (refreshPresence a s) s ∧
      Kept.deep (refreshPresence a s) s ∧ Kept.line (refreshPresence a s) s ∧
      Kept.sends (refreshPresence a s) s ∧ Kept.money (refreshPresence a s) s ∧
      Kept.news (refreshPresence a s) s ∧ Kept.assist (refreshPresence a s) s ∧
      Kept.hire (refreshPresence a s) s ∧ (refreshPresence a s).nsc.calls = s.nsc.calls ∧
      (refreshPresence a s).nsc.journal = s.nsc.journal ∧ (refreshPresence a s).fare = s.fare ∧
      (refreshPresence a s).cab.sign = s.cab.sign ∧ (refreshPresence a s).cab.watches = s.cab.watches ∧
      (refreshPresence a s).icm = s.icm ∧ (refreshPresence a s).acc = s.acc := by
  unfold refreshPresence
  split <;> simp

@[simp] theorem enqueue_frame q (s : State) :
    Kept.base (enqueue q s) s ∧ Kept.outer (enqueue q s) s ∧ Kept.shift (enqueue q s) s ∧
      (enqueue q s).lif.address = s.lif.address ∧ (enqueue q s).lif.rx = s.lif.rx ∧
      (enqueue q s).lif.lineFree = s.lif.lineFree ∧ (enqueue q s).lif.tx = s.lif.tx ∧
      (enqueue q s).lif.stations = s.lif.stations ∧ (enqueue q s).lif.announceDue = s.lif.announceDue ∧
      (enqueue q s).nsc = s.nsc ∧ (enqueue q s).icm = s.icm ∧ (enqueue q s).jnl = s.jnl ∧
      (enqueue q s).flt.coldFlag = s.flt.coldFlag := by
  simp [enqueue]

@[simp] theorem acceptFrame_frame a ch (s : State) :
    Kept.base (acceptFrame a ch s) s ∧ Kept.outer (acceptFrame a ch s) s ∧ Kept.sends (acceptFrame a ch s) s ∧
      Kept.money (acceptFrame a ch s) s ∧ Kept.news (acceptFrame a ch s) s ∧
      Kept.assist (acceptFrame a ch s) s ∧ Kept.hire (acceptFrame a ch s) s ∧
      (acceptFrame a ch s).lif.address = s.lif.address ∧ (acceptFrame a ch s).lif.rx = s.lif.rx ∧
      (acceptFrame a ch s).lif.lineFree = s.lif.lineFree ∧
      (acceptFrame a ch s).lif.announceDue = s.lif.announceDue ∧ (acceptFrame a ch s).nsc.calls = s.nsc.calls ∧
      (acceptFrame a ch s).nsc.journal = s.nsc.journal ∧ (acceptFrame a ch s).fare = s.fare ∧
      (acceptFrame a ch s).cab.sign = s.cab.sign ∧ (acceptFrame a ch s).cab.watches = s.cab.watches ∧
      (acceptFrame a ch s).icm = s.icm ∧ (acceptFrame a ch s).acc = s.acc ∧ (acceptFrame a ch s).jnl = s.jnl ∧
      (acceptFrame a ch s).flt.coldFlag = s.flt.coldFlag := by
  simp [acceptFrame]

@[simp] theorem judgeFrame_frame o ch k (s : State) :
    Kept.base (judgeFrame o ch k s) s ∧ Kept.outer (judgeFrame o ch k s) s ∧
      Kept.sends (judgeFrame o ch k s) s ∧ Kept.money (judgeFrame o ch k s) s ∧
      Kept.news (judgeFrame o ch k s) s ∧ Kept.assist (judgeFrame o ch k s) s ∧
      Kept.hire (judgeFrame o ch k s) s ∧ (judgeFrame o ch k s).lif.address = s.lif.address ∧
      (judgeFrame o ch k s).lif.rx = s.lif.rx ∧ (judgeFrame o ch k s).lif.lineFree = s.lif.lineFree ∧
      (judgeFrame o ch k s).lif.announceDue = s.lif.announceDue ∧
      (judgeFrame o ch k s).nsc.calls = s.nsc.calls ∧ (judgeFrame o ch k s).nsc.journal = s.nsc.journal ∧
      (judgeFrame o ch k s).fare = s.fare ∧ (judgeFrame o ch k s).cab.sign = s.cab.sign ∧
      (judgeFrame o ch k s).cab.watches = s.cab.watches ∧ (judgeFrame o ch k s).icm = s.icm ∧
      (judgeFrame o ch k s).acc = s.acc ∧ (judgeFrame o ch k s).jnl = s.jnl ∧
      (judgeFrame o ch k s).flt.coldFlag = s.flt.coldFlag := by
  unfold judgeFrame; (repeat' split) <;> simp

@[simp] theorem takePort_frame p a (s : State) :
    Kept.base (takePort p a s) s ∧ Kept.outer (takePort p a s) s ∧ Kept.shift (takePort p a s) s ∧
      Kept.deep (takePort p a s) s ∧ Kept.line (takePort p a s) s ∧ (takePort p a s).lif.tx = s.lif.tx ∧
      (takePort p a s).nsc = s.nsc ∧ (takePort p a s).icm = s.icm := by
  simp [takePort]

@[simp] theorem bindPort_frame a n (s : State) :
    Kept.base (bindPort a n s) s ∧ Kept.outer (bindPort a n s) s ∧ Kept.shift (bindPort a n s) s ∧
      Kept.line (bindPort a n s) s ∧ (bindPort a n s).lif.tx = s.lif.tx ∧ (bindPort a n s).nsc = s.nsc ∧
      (bindPort a n s).icm = s.icm ∧ (bindPort a n s).jnl = s.jnl ∧
      (bindPort a n s).flt.coldFlag = s.flt.coldFlag := by
  unfold bindPort; (repeat' split) <;> simp

@[simp] theorem unbindPort_frame e (s : State) :
    Kept.base (unbindPort e s) s ∧ Kept.outer (unbindPort e s) s ∧ Kept.deep (unbindPort e s) s ∧
      Kept.line (unbindPort e s) s ∧ Kept.sends (unbindPort e s) s ∧ Kept.news (unbindPort e s) s ∧
      Kept.assist (unbindPort e s) s ∧ Kept.hire (unbindPort e s) s ∧ Kept.audio (unbindPort e s) s ∧
      Kept.lists (unbindPort e s) s ∧ (unbindPort e s).nsc.sign = s.nsc.sign ∧
      (unbindPort e s).nsc.offers = s.nsc.offers ∧ (unbindPort e s).nsc.fares = s.nsc.fares ∧
      (unbindPort e s).nsc.journal = s.nsc.journal ∧ (unbindPort e s).fare = s.fare ∧
      (unbindPort e s).cab.sign = s.cab.sign ∧ (unbindPort e s).cab.signDue = s.cab.signDue ∧
      (unbindPort e s).icm.arrivals = s.icm.arrivals ∧ (unbindPort e s).icm.privacy = s.icm.privacy ∧
      (unbindPort e s).icm.forced = s.icm.forced ∧ (unbindPort e s).acc.shift = s.acc.shift ∧
      (unbindPort e s).acc.unresolved = s.acc.unresolved := by
  unfold unbindPort
  split <;> simp

@[simp] theorem addEntry_frame r a (s : State) :
    Kept.base (addEntry r a s) s ∧ Kept.outer (addEntry r a s) s ∧ Kept.deep (addEntry r a s) s ∧
      Kept.line (addEntry r a s) s ∧ Kept.assist (addEntry r a s) s ∧ Kept.hire (addEntry r a s) s ∧
      (addEntry r a s).lif.tx = s.lif.tx ∧ (addEntry r a s).nsc = s.nsc ∧ (addEntry r a s).fare = s.fare ∧
      (addEntry r a s).cab.sign = s.cab.sign ∧ (addEntry r a s).cab.signDue = s.cab.signDue ∧
      (addEntry r a s).icm = s.icm ∧ (addEntry r a s).acc = s.acc := by
  simp [addEntry]

@[simp] theorem bindIfPanel_frame r q (s : State) :
    Kept.base (bindIfPanel r q s) s ∧ Kept.outer (bindIfPanel r q s) s ∧ Kept.shift (bindIfPanel r q s) s ∧
      Kept.line (bindIfPanel r q s) s ∧ (bindIfPanel r q s).lif.tx = s.lif.tx ∧
      (bindIfPanel r q s).nsc = s.nsc ∧ (bindIfPanel r q s).icm = s.icm ∧ (bindIfPanel r q s).jnl = s.jnl ∧
      (bindIfPanel r q s).flt.coldFlag = s.flt.coldFlag := by
  simp [bindIfPanel]

@[simp] theorem createEntry_frame r q (s : State) :
    Kept.base (createEntry r q s) s ∧ Kept.outer (createEntry r q s) s ∧ Kept.line (createEntry r q s) s ∧
      Kept.sends (createEntry r q s) s ∧ Kept.money (createEntry r q s) s ∧ Kept.news (createEntry r q s) s ∧
      Kept.assist (createEntry r q s) s ∧ Kept.hire (createEntry r q s) s ∧
      (createEntry r q s).nsc.calls = s.nsc.calls ∧ (createEntry r q s).nsc.journal = s.nsc.journal ∧
      (createEntry r q s).fare = s.fare ∧ (createEntry r q s).cab.sign = s.cab.sign ∧
      (createEntry r q s).icm = s.icm ∧ (createEntry r q s).acc = s.acc ∧ (createEntry r q s).jnl = s.jnl ∧
      (createEntry r q s).flt.coldFlag = s.flt.coldFlag := by
  simp [createEntry]

@[simp] theorem replaceEntry_frame e r q (s : State) :
    Kept.base (replaceEntry e r q s) s ∧ Kept.outer (replaceEntry e r q s) s ∧
      Kept.line (replaceEntry e r q s) s ∧ Kept.sends (replaceEntry e r q s) s ∧
      Kept.news (replaceEntry e r q s) s ∧ Kept.assist (replaceEntry e r q s) s ∧
      Kept.hire (replaceEntry e r q s) s ∧ Kept.audio (replaceEntry e r q s) s ∧
      Kept.lists (replaceEntry e r q s) s ∧ (replaceEntry e r q s).nsc.offers = s.nsc.offers ∧
      (replaceEntry e r q s).nsc.fares = s.nsc.fares ∧ (replaceEntry e r q s).nsc.journal = s.nsc.journal ∧
      (replaceEntry e r q s).fare = s.fare ∧ (replaceEntry e r q s).cab.sign = s.cab.sign ∧
      (replaceEntry e r q s).icm.arrivals = s.icm.arrivals ∧
      (replaceEntry e r q s).icm.privacy = s.icm.privacy ∧ (replaceEntry e r q s).icm.forced = s.icm.forced ∧
      (replaceEntry e r q s).acc.shift = s.acc.shift ∧
      (replaceEntry e r q s).acc.unresolved = s.acc.unresolved ∧ (replaceEntry e r q s).jnl = s.jnl ∧
      (replaceEntry e r q s).flt.coldFlag = s.flt.coldFlag := by
  simp [replaceEntry]

@[simp] theorem announced_frame r q (s : State) :
    Kept.base (announced r q s) s ∧ Kept.outer (announced r q s) s ∧ Kept.line (announced r q s) s ∧
      Kept.sends (announced r q s) s ∧ Kept.news (announced r q s) s ∧ Kept.assist (announced r q s) s ∧
      Kept.hire (announced r q s) s ∧ Kept.audio (announced r q s) s ∧ Kept.lists (announced r q s) s ∧
      (announced r q s).nsc.offers = s.nsc.offers ∧ (announced r q s).nsc.fares = s.nsc.fares ∧
      (announced r q s).nsc.journal = s.nsc.journal ∧ (announced r q s).fare = s.fare ∧
      (announced r q s).cab.sign = s.cab.sign ∧ (announced r q s).icm.arrivals = s.icm.arrivals ∧
      (announced r q s).icm.privacy = s.icm.privacy ∧ (announced r q s).icm.forced = s.icm.forced ∧
      (announced r q s).acc.shift = s.acc.shift ∧ (announced r q s).acc.unresolved = s.acc.unresolved ∧
      (announced r q s).jnl = s.jnl ∧ (announced r q s).flt.coldFlag = s.flt.coldFlag := by
  unfold announced
  split <;> simp

@[simp] theorem readerAbsent_frame a (s : State) :
    Kept.base (readerAbsent a s) s ∧ Kept.outer (readerAbsent a s) s ∧ Kept.shift (readerAbsent a s) s ∧
      Kept.line (readerAbsent a s) s ∧ Kept.sends (readerAbsent a s) s ∧ Kept.money (readerAbsent a s) s ∧
      Kept.news (readerAbsent a s) s ∧ Kept.ring (readerAbsent a s) s ∧
      (readerAbsent a s).lif.stations = s.lif.stations ∧ (readerAbsent a s).nsc.sign = s.nsc.sign ∧
      (readerAbsent a s).nsc.calls = s.nsc.calls ∧ (readerAbsent a s).icm = s.icm ∧
      (readerAbsent a s).jnl.inFlight = s.jnl.inFlight ∧ (readerAbsent a s).jnl.waiting = s.jnl.waiting ∧
      (readerAbsent a s).jnl.sectors = s.jnl.sectors ∧ (readerAbsent a s).flt = s.flt := by
  simp [readerAbsent]

@[simp] theorem tellCabAbsent_frame e (s : State) :
    Kept.base (tellCabAbsent e s) s ∧ Kept.outer (tellCabAbsent e s) s ∧ Kept.assist (tellCabAbsent e s) s ∧
      Kept.hire (tellCabAbsent e s) s ∧ Kept.lists (tellCabAbsent e s) s ∧ Kept.reader (tellCabAbsent e s) s ∧
      (tellCabAbsent e s).lif = s.lif ∧ (tellCabAbsent e s).nsc = s.nsc ∧ (tellCabAbsent e s).fare = s.fare ∧
      (tellCabAbsent e s).icm = s.icm ∧ (tellCabAbsent e s).acc.unresolved = s.acc.unresolved ∧
      (tellCabAbsent e s).acc.jobs = s.acc.jobs ∧ (tellCabAbsent e s).acc.credit = s.acc.credit ∧
      (tellCabAbsent e s).flt = s.flt := by
  unfold tellCabAbsent
  split <;> simp

@[simp] theorem tellCreditAbsent_frame e (s : State) :
    Kept.base (tellCreditAbsent e s) s ∧ Kept.outer (tellCreditAbsent e s) s ∧
      Kept.line (tellCreditAbsent e s) s ∧ Kept.sends (tellCreditAbsent e s) s ∧
      Kept.news (tellCreditAbsent e s) s ∧ Kept.lists (tellCreditAbsent e s) s ∧
      Kept.ring (tellCreditAbsent e s) s ∧ (tellCreditAbsent e s).lif.stations = s.lif.stations ∧
      (tellCreditAbsent e s).nsc.sign = s.nsc.sign ∧ (tellCreditAbsent e s).nsc.offers = s.nsc.offers ∧
      (tellCreditAbsent e s).nsc.calls = s.nsc.calls ∧ (tellCreditAbsent e s).nsc.fares = s.nsc.fares ∧
      (tellCreditAbsent e s).fare = s.fare ∧ (tellCreditAbsent e s).cab = s.cab ∧
      (tellCreditAbsent e s).icm = s.icm ∧ (tellCreditAbsent e s).acc.shift = s.acc.shift ∧
      (tellCreditAbsent e s).acc.unresolved = s.acc.unresolved ∧
      (tellCreditAbsent e s).jnl.inFlight = s.jnl.inFlight ∧
      (tellCreditAbsent e s).jnl.waiting = s.jnl.waiting ∧ (tellCreditAbsent e s).jnl.sectors = s.jnl.sectors ∧
      (tellCreditAbsent e s).flt = s.flt := by
  unfold tellCreditAbsent
  split <;> simp

@[simp] theorem tellAbsent_frame e (s : State) :
    Kept.base (tellAbsent e s) s ∧ Kept.outer (tellAbsent e s) s ∧ Kept.line (tellAbsent e s) s ∧
      Kept.sends (tellAbsent e s) s ∧ Kept.news (tellAbsent e s) s ∧ Kept.assist (tellAbsent e s) s ∧
      Kept.hire (tellAbsent e s) s ∧ Kept.audio (tellAbsent e s) s ∧ Kept.lists (tellAbsent e s) s ∧
      (tellAbsent e s).nsc.sign = s.nsc.sign ∧ (tellAbsent e s).nsc.fares = s.nsc.fares ∧
      (tellAbsent e s).fare.lastLeg = s.fare.lastLeg ∧ (tellAbsent e s).icm.arrivals = s.icm.arrivals ∧
      (tellAbsent e s).icm.privacy = s.icm.privacy ∧ (tellAbsent e s).icm.forced = s.icm.forced ∧
      (tellAbsent e s).acc.unresolved = s.acc.unresolved ∧ (tellAbsent e s).flt = s.flt := by
  simp [tellAbsent]

@[simp] theorem beginAttempt_frame (s : State) :
    Kept.base (beginAttempt s) s ∧ Kept.outer (beginAttempt s) s ∧ Kept.shift (beginAttempt s) s ∧
      Kept.deep (beginAttempt s) s ∧ (beginAttempt s).lif.address = s.lif.address ∧
      (beginAttempt s).lif.queue = s.lif.queue ∧ (beginAttempt s).lif.lineFree = s.lif.lineFree ∧
      (beginAttempt s).lif.stations = s.lif.stations ∧ (beginAttempt s).lif.announceDue = s.lif.announceDue ∧
      (beginAttempt s).nsc = s.nsc ∧ (beginAttempt s).icm = s.icm := by
  unfold beginAttempt; (repeat' split) <;> simp

@[simp] theorem dropNotice_frame n (s : State) :
    Kept.base (dropNotice n s) s ∧ Kept.outer (dropNotice n s) s ∧ Kept.shift (dropNotice n s) s ∧
      Kept.deep (dropNotice n s) s ∧ (dropNotice n s).lif = s.lif ∧
      (dropNotice n s).nsc.fareSent = s.nsc.fareSent ∧ (dropNotice n s).nsc.journal = s.nsc.journal ∧
      (dropNotice n s).nsc.print = s.nsc.print ∧ (dropNotice n s).nsc.lastOffer = s.nsc.lastOffer ∧
      (dropNotice n s).nsc.lastCall = s.nsc.lastCall ∧ (dropNotice n s).nsc.lastFare = s.nsc.lastFare ∧
      (dropNotice n s).icm = s.icm := by
  unfold dropNotice
  split <;> simp

@[simp] theorem noticeSent_frame n r (s : State) :
    Kept.base (noticeSent n r s) s ∧ Kept.outer (noticeSent n r s) s ∧ Kept.line (noticeSent n r s) s ∧
      Kept.lists (noticeSent n r s) s ∧ (noticeSent n r s).lif.stations = s.lif.stations ∧
      (noticeSent n r s).fare = s.fare ∧ (noticeSent n r s).cab = s.cab ∧ (noticeSent n r s).icm = s.icm ∧
      (noticeSent n r s).acc.shift = s.acc.shift ∧ (noticeSent n r s).acc.unresolved = s.acc.unresolved ∧
      (noticeSent n r s).jnl.inFlight = s.jnl.inFlight ∧ (noticeSent n r s).jnl.waiting = s.jnl.waiting ∧
      (noticeSent n r s).jnl.append = s.jnl.append ∧ (noticeSent n r s).jnl.writePos = s.jnl.writePos ∧
      (noticeSent n r s).jnl.waitsErase = s.jnl.waitsErase ∧
      (noticeSent n r s).jnl.nextSeq = s.jnl.nextSeq ∧ (noticeSent n r s).jnl.sectors = s.jnl.sectors ∧
      (noticeSent n r s).flt.coldFlag = s.flt.coldFlag := by
  unfold noticeSent
  split <;> simp

@[simp] theorem stopEvents_frame (s : State) :
    Kept.base (stopEvents s) s ∧ Kept.deep (stopEvents s) s ∧ Kept.inputs (stopEvents s) s ∧
      Kept.clock (stopEvents s) s ∧ Kept.hire (stopEvents s) s ∧ Kept.audio (stopEvents s) s ∧
      Kept.prompts (stopEvents s) s ∧ (stopEvents s).lif.address = s.lif.address ∧
      (stopEvents s).lif.lineFree = s.lif.lineFree ∧ (stopEvents s).lif.stations = s.lif.stations ∧
      (stopEvents s).lif.announceDue = s.lif.announceDue ∧ (stopEvents s).nsc = s.nsc ∧
      (stopEvents s).odo.pulseLevel = s.odo.pulseLevel ∧
      (stopEvents s).odo.pulseQualified = s.odo.pulseQualified ∧
      (stopEvents s).odo.lastTaken = s.odo.lastTaken ∧ (stopEvents s).odo.tickDue = s.odo.tickDue ∧
      (stopEvents s).odo.window = s.odo.window ∧ (stopEvents s).odo.moving = s.odo.moving ∧
      (stopEvents s).odo.odometer = s.odo.odometer ∧ (stopEvents s).odo.manualBand = s.odo.manualBand ∧
      (stopEvents s).odo.vehicleBand = s.odo.vehicleBand ∧ (stopEvents s).tar = s.tar ∧
      (stopEvents s).fare = s.fare ∧ (stopEvents s).cab.latch = s.cab.latch ∧
      (stopEvents s).cab.presses = s.cab.presses ∧ (stopEvents s).cab.pressTime = s.cab.pressTime ∧
      (stopEvents s).cab.wakeMark = s.cab.wakeMark ∧ (stopEvents s).cab.ack = s.cab.ack ∧
      (stopEvents s).cab.sign = s.cab.sign ∧ (stopEvents s).cab.watches = s.cab.watches ∧
      (stopEvents s).icm.calls = s.icm.calls ∧ (stopEvents s).icm.queue = s.icm.queue ∧
      (stopEvents s).icm.arrivals = s.icm.arrivals ∧ (stopEvents s).icm.talk = s.icm.talk ∧
      (stopEvents s).icm.privacy = s.icm.privacy ∧ (stopEvents s).icm.forced = s.icm.forced ∧
      (stopEvents s).acc = s.acc ∧ (stopEvents s).pwr = s.pwr := by
  simp [stopEvents]

@[simp] theorem sampleInputs_frame st (s : State) :
    Kept.base (sampleInputs st s) s ∧ Kept.shift (sampleInputs st s) s ∧ Kept.deep (sampleInputs st s) s ∧
      Kept.pulses (sampleInputs st s) s ∧ Kept.clock (sampleInputs st s) s ∧
      (sampleInputs st s).lif.rx = s.lif.rx ∧ (sampleInputs st s).lif.queue = s.lif.queue ∧
      (sampleInputs st s).lif.lineFree = s.lif.lineFree ∧ (sampleInputs st s).lif.tx = s.lif.tx ∧
      (sampleInputs st s).lif.stations = s.lif.stations ∧
      (sampleInputs st s).lif.announceDue = s.lif.announceDue ∧ (sampleInputs st s).nsc = s.nsc ∧
      (sampleInputs st s).odo.manualBand = s.odo.manualBand ∧
      (sampleInputs st s).odo.vehicleBand = s.odo.vehicleBand ∧
      (sampleInputs st s).odo.assistLevel = s.odo.assistLevel ∧
      (sampleInputs st s).odo.assistFrom = s.odo.assistFrom ∧
      (sampleInputs st s).odo.powerGood = s.odo.powerGood ∧
      (sampleInputs st s).odo.powerFrom = s.odo.powerFrom ∧ (sampleInputs st s).tar = s.tar ∧
      (sampleInputs st s).icm = s.icm ∧ (sampleInputs st s).pwr = s.pwr := by
  simp [sampleInputs]

@[simp] theorem resumeTariff_frame (s : State) :
    Kept.base (resumeTariff s) s ∧ Kept.shift (resumeTariff s) s ∧ (resumeTariff s).lif = s.lif ∧
      (resumeTariff s).nsc = s.nsc ∧ (resumeTariff s).odo = s.odo ∧ (resumeTariff s).icm = s.icm ∧
      (resumeTariff s).jnl = s.jnl ∧ (resumeTariff s).flt.coldFlag = s.flt.coldFlag ∧
      (resumeTariff s).pwr = s.pwr := by
  simp [resumeTariff]

@[simp] theorem resumeLine_frame (s : State) :
    Kept.base (resumeLine s) s ∧ Kept.outer (resumeLine s) s ∧ Kept.deep (resumeLine s) s ∧
      Kept.assist (resumeLine s) s ∧ Kept.hire (resumeLine s) s ∧ (resumeLine s).lif.address = s.lif.address ∧
      (resumeLine s).lif.announceDue = s.lif.announceDue ∧ (resumeLine s).nsc = s.nsc ∧
      (resumeLine s).fare = s.fare ∧ (resumeLine s).cab.sign = s.cab.sign ∧
      (resumeLine s).cab.signDue = s.cab.signDue ∧ (resumeLine s).icm = s.icm ∧ (resumeLine s).acc = s.acc := by
  simp [resumeLine]

@[simp] theorem resumeIntercom_frame (s : State) :
    Kept.base (resumeIntercom s) s ∧ Kept.outer (resumeIntercom s) s ∧ Kept.shift (resumeIntercom s) s ∧
      Kept.deep (resumeIntercom s) s ∧ (resumeIntercom s).lif = s.lif ∧ (resumeIntercom s).nsc = s.nsc ∧
      (resumeIntercom s).icm.arrivals = s.icm.arrivals ∧ (resumeIntercom s).icm.privacy = s.icm.privacy ∧
      (resumeIntercom s).icm.forced = s.icm.forced ∧ (resumeIntercom s).icm.out = s.icm.out ∧
      (resumeIntercom s).icm.holdDue = s.icm.holdDue ∧ (resumeIntercom s).icm.sampleDue = s.icm.sampleDue := by
  simp [resumeIntercom]

@[simp] theorem resumeSlot_frame i (s : State) :
    Kept.base (resumeSlot s i) s ∧ Kept.outer (resumeSlot s i) s ∧ Kept.deep (resumeSlot s i) s ∧
      Kept.line (resumeSlot s i) s ∧ Kept.sends (resumeSlot s i) s ∧ Kept.news (resumeSlot s i) s ∧
      Kept.assist (resumeSlot s i) s ∧ Kept.hire (resumeSlot s i) s ∧ Kept.lists (resumeSlot s i) s ∧
      (resumeSlot s i).nsc.sign = s.nsc.sign ∧ (resumeSlot s i).nsc.offers = s.nsc.offers ∧
      (resumeSlot s i).nsc.calls = s.nsc.calls ∧ (resumeSlot s i).nsc.journal = s.nsc.journal ∧
      (resumeSlot s i).fare.lastLeg = s.fare.lastLeg ∧ (resumeSlot s i).cab.sign = s.cab.sign ∧
      (resumeSlot s i).cab.signDue = s.cab.signDue ∧ (resumeSlot s i).icm = s.icm := by
  unfold resumeSlot; (repeat' split) <;> simp

@[simp] theorem resumeLegs_frame (s : State) :
    Kept.base (resumeLegs s) s ∧ Kept.outer (resumeLegs s) s ∧ Kept.deep (resumeLegs s) s ∧
      Kept.line (resumeLegs s) s ∧ Kept.sends (resumeLegs s) s ∧ Kept.news (resumeLegs s) s ∧
      Kept.assist (resumeLegs s) s ∧ Kept.hire (resumeLegs s) s ∧ Kept.lists (resumeLegs s) s ∧
      (resumeLegs s).nsc.sign = s.nsc.sign ∧ (resumeLegs s).nsc.offers = s.nsc.offers ∧
      (resumeLegs s).nsc.calls = s.nsc.calls ∧ (resumeLegs s).nsc.journal = s.nsc.journal ∧
      (resumeLegs s).fare.lastLeg = s.fare.lastLeg ∧ (resumeLegs s).cab.sign = s.cab.sign ∧
      (resumeLegs s).cab.signDue = s.cab.signDue ∧ (resumeLegs s).icm = s.icm := by
  simp only [Kept.base, Kept.outer, Kept.deep, Kept.line, Kept.sends, Kept.news, Kept.assist, Kept.hire, Kept.lists, and_assoc]
  unfold resumeLegs
  refine ⟨foldl_inv (fun u : State => u.pending) _ ?_ _ _, foldl_inv (fun u : State => u.free) _ ?_ _ _,
    foldl_inv (fun u : State => u.time) _ ?_ _ _, foldl_inv (fun u : State => u.array) _ ?_ _ _,
    foldl_inv (fun u : State => u.odo) _ ?_ _ _, foldl_inv (fun u : State => u.tar) _ ?_ _ _,
    foldl_inv (fun u : State => u.pwr) _ ?_ _ _, foldl_inv (fun u : State => u.jnl) _ ?_ _ _,
    foldl_inv (fun u : State => u.flt) _ ?_ _ _, foldl_inv (fun u : State => u.lif.address) _ ?_ _ _,
    foldl_inv (fun u : State => u.lif.rx) _ ?_ _ _, foldl_inv (fun u : State => u.lif.queue) _ ?_ _ _,
    foldl_inv (fun u : State => u.lif.lineFree) _ ?_ _ _,
    foldl_inv (fun u : State => u.lif.announceDue) _ ?_ _ _,
    foldl_inv (fun u : State => u.nsc.fareSent) _ ?_ _ _, foldl_inv (fun u : State => u.nsc.announce) _ ?_ _ _,
    foldl_inv (fun u : State => u.nsc.lastOffer) _ ?_ _ _,
    foldl_inv (fun u : State => u.nsc.lastCall) _ ?_ _ _, foldl_inv (fun u : State => u.nsc.lastFare) _ ?_ _ _,
    foldl_inv (fun u : State => u.nsc.assist) _ ?_ _ _, foldl_inv (fun u : State => u.nsc.replies) _ ?_ _ _,
    foldl_inv (fun u : State => u.nsc.fleet) _ ?_ _ _, foldl_inv (fun u : State => u.cab.latch) _ ?_ _ _,
    foldl_inv (fun u : State => u.cab.presses) _ ?_ _ _, foldl_inv (fun u : State => u.cab.pressTime) _ ?_ _ _,
    foldl_inv (fun u : State => u.cab.wakeMark) _ ?_ _ _, foldl_inv (fun u : State => u.cab.ack) _ ?_ _ _,
    foldl_inv (fun u : State => u.cab.repeatDue) _ ?_ _ _, foldl_inv (fun u : State => u.cab.duty) _ ?_ _ _,
    foldl_inv (fun u : State => u.cab.share) _ ?_ _ _, foldl_inv (fun u : State => u.cab.booking) _ ?_ _ _,
    foldl_inv (fun u : State => u.acc.lastShift) _ ?_ _ _, foldl_inv (fun u : State => u.acc.late) _ ?_ _ _,
    foldl_inv (fun u : State => u.nsc.sign) _ ?_ _ _, foldl_inv (fun u : State => u.nsc.offers) _ ?_ _ _,
    foldl_inv (fun u : State => u.nsc.calls) _ ?_ _ _, foldl_inv (fun u : State => u.nsc.journal) _ ?_ _ _,
    foldl_inv (fun u : State => u.fare.lastLeg) _ ?_ _ _, foldl_inv (fun u : State => u.cab.sign) _ ?_ _ _,
    foldl_inv (fun u : State => u.cab.signDue) _ ?_ _ _, foldl_inv (fun u : State => u.icm) _ ?_ _ _⟩ <;>
    (intros; simp)

@[simp] theorem resumeJournal_frame (s : State) :
    Kept.base (resumeJournal s) s ∧ Kept.outer (resumeJournal s) s ∧ Kept.shift (resumeJournal s) s ∧
      (resumeJournal s).lif = s.lif ∧ (resumeJournal s).nsc = s.nsc ∧ (resumeJournal s).icm = s.icm ∧
      (resumeJournal s).jnl.append = s.jnl.append ∧ (resumeJournal s).jnl.nextSeq = s.jnl.nextSeq ∧
      (resumeJournal s).jnl.directory = s.jnl.directory ∧
      (resumeJournal s).flt = s.flt := by
  unfold resumeJournal; dsimp only; (repeat' split) <;> simp

@[simp] theorem resumeAccounts_frame (s : State) :
    Kept.base (resumeAccounts s) s ∧ Kept.outer (resumeAccounts s) s ∧ Kept.deep (resumeAccounts s) s ∧
      Kept.lists (resumeAccounts s) s ∧ (resumeAccounts s).lif = s.lif ∧ (resumeAccounts s).nsc = s.nsc ∧
      (resumeAccounts s).fare = s.fare ∧ (resumeAccounts s).cab = s.cab ∧ (resumeAccounts s).icm = s.icm ∧
      (resumeAccounts s).acc.shift = s.acc.shift ∧ (resumeAccounts s).acc.unresolved = s.acc.unresolved := by
  simp [resumeAccounts]

@[simp] theorem resumeSign_frame (s : State) :
    Kept.base (resumeSign s) s ∧ Kept.outer (resumeSign s) s ∧ Kept.deep (resumeSign s) s ∧
      Kept.hire (resumeSign s) s ∧ (resumeSign s).lif = s.lif ∧ (resumeSign s).nsc = s.nsc ∧
      (resumeSign s).fare = s.fare ∧ (resumeSign s).cab.latch = s.cab.latch ∧
      (resumeSign s).cab.presses = s.cab.presses ∧ (resumeSign s).cab.pressTime = s.cab.pressTime ∧
      (resumeSign s).cab.wakeMark = s.cab.wakeMark ∧ (resumeSign s).cab.repeatDue = s.cab.repeatDue ∧
      (resumeSign s).cab.signDue = s.cab.signDue ∧ (resumeSign s).cab.watches = s.cab.watches ∧
      (resumeSign s).icm = s.icm ∧ (resumeSign s).acc = s.acc := by
  simp [resumeSign]

@[simp] theorem placeOffers_frame (s : State) :
    Kept.base (placeOffers s) s ∧ Kept.outer (placeOffers s) s ∧ Kept.shift (placeOffers s) s ∧
      Kept.deep (placeOffers s) s ∧ Kept.line (placeOffers s) s ∧ Kept.sends (placeOffers s) s ∧
      Kept.news (placeOffers s) s ∧ (placeOffers s).lif.stations = s.lif.stations ∧
      (placeOffers s).nsc.sign = s.nsc.sign ∧ (placeOffers s).nsc.calls = s.nsc.calls ∧
      (placeOffers s).nsc.fares = s.nsc.fares ∧ (placeOffers s).nsc.journal = s.nsc.journal ∧
      (placeOffers s).nsc.print = s.nsc.print ∧ (placeOffers s).icm = s.icm := by
  simp only [Kept.base, Kept.outer, Kept.shift, Kept.deep, Kept.line, Kept.sends, Kept.news, and_assoc]
  unfold placeOffers
  refine ⟨foldl_inv (fun u : State => u.pending) _ ?_ _ _, foldl_inv (fun u : State => u.free) _ ?_ _ _,
    foldl_inv (fun u : State => u.time) _ ?_ _ _, foldl_inv (fun u : State => u.array) _ ?_ _ _,
    foldl_inv (fun u : State => u.odo) _ ?_ _ _, foldl_inv (fun u : State => u.tar) _ ?_ _ _,
    foldl_inv (fun u : State => u.pwr) _ ?_ _ _, foldl_inv (fun u : State => u.fare) _ ?_ _ _,
    foldl_inv (fun u : State => u.cab) _ ?_ _ _, foldl_inv (fun u : State => u.acc) _ ?_ _ _,
    foldl_inv (fun u : State => u.jnl) _ ?_ _ _, foldl_inv (fun u : State => u.flt) _ ?_ _ _,
    foldl_inv (fun u : State => u.lif.address) _ ?_ _ _, foldl_inv (fun u : State => u.lif.rx) _ ?_ _ _,
    foldl_inv (fun u : State => u.lif.queue) _ ?_ _ _, foldl_inv (fun u : State => u.lif.lineFree) _ ?_ _ _,
    foldl_inv (fun u : State => u.lif.announceDue) _ ?_ _ _,
    foldl_inv (fun u : State => u.nsc.fareSent) _ ?_ _ _, foldl_inv (fun u : State => u.nsc.announce) _ ?_ _ _,
    foldl_inv (fun u : State => u.nsc.lastOffer) _ ?_ _ _,
    foldl_inv (fun u : State => u.nsc.lastCall) _ ?_ _ _, foldl_inv (fun u : State => u.nsc.lastFare) _ ?_ _ _,
    foldl_inv (fun u : State => u.nsc.assist) _ ?_ _ _, foldl_inv (fun u : State => u.nsc.replies) _ ?_ _ _,
    foldl_inv (fun u : State => u.nsc.fleet) _ ?_ _ _, foldl_inv (fun u : State => u.lif.stations) _ ?_ _ _,
    foldl_inv (fun u : State => u.nsc.sign) _ ?_ _ _, foldl_inv (fun u : State => u.nsc.calls) _ ?_ _ _,
    foldl_inv (fun u : State => u.nsc.fares) _ ?_ _ _, foldl_inv (fun u : State => u.nsc.journal) _ ?_ _ _,
    foldl_inv (fun u : State => u.nsc.print) _ ?_ _ _, foldl_inv (fun u : State => u.icm) _ ?_ _ _⟩ <;>
    (intros; (repeat' split) <;> simp)

@[simp] theorem placeShows_frame (s : State) :
    Kept.base (placeShows s) s ∧ Kept.outer (placeShows s) s ∧ Kept.shift (placeShows s) s ∧
      Kept.deep (placeShows s) s ∧ Kept.line (placeShows s) s ∧ Kept.sends (placeShows s) s ∧
      Kept.news (placeShows s) s ∧ (placeShows s).lif.stations = s.lif.stations ∧
      (placeShows s).nsc.sign = s.nsc.sign ∧ (placeShows s).nsc.offers = s.nsc.offers ∧
      (placeShows s).nsc.calls = s.nsc.calls ∧ (placeShows s).nsc.journal = s.nsc.journal ∧
      (placeShows s).nsc.print = s.nsc.print ∧ (placeShows s).icm = s.icm := by
  simp only [Kept.base, Kept.outer, Kept.shift, Kept.deep, Kept.line, Kept.sends, Kept.news, and_assoc]
  unfold placeShows
  refine ⟨foldl_inv (fun u : State => u.pending) _ ?_ _ _, foldl_inv (fun u : State => u.free) _ ?_ _ _,
    foldl_inv (fun u : State => u.time) _ ?_ _ _, foldl_inv (fun u : State => u.array) _ ?_ _ _,
    foldl_inv (fun u : State => u.odo) _ ?_ _ _, foldl_inv (fun u : State => u.tar) _ ?_ _ _,
    foldl_inv (fun u : State => u.pwr) _ ?_ _ _, foldl_inv (fun u : State => u.fare) _ ?_ _ _,
    foldl_inv (fun u : State => u.cab) _ ?_ _ _, foldl_inv (fun u : State => u.acc) _ ?_ _ _,
    foldl_inv (fun u : State => u.jnl) _ ?_ _ _, foldl_inv (fun u : State => u.flt) _ ?_ _ _,
    foldl_inv (fun u : State => u.lif.address) _ ?_ _ _, foldl_inv (fun u : State => u.lif.rx) _ ?_ _ _,
    foldl_inv (fun u : State => u.lif.queue) _ ?_ _ _, foldl_inv (fun u : State => u.lif.lineFree) _ ?_ _ _,
    foldl_inv (fun u : State => u.lif.announceDue) _ ?_ _ _,
    foldl_inv (fun u : State => u.nsc.fareSent) _ ?_ _ _, foldl_inv (fun u : State => u.nsc.announce) _ ?_ _ _,
    foldl_inv (fun u : State => u.nsc.lastOffer) _ ?_ _ _,
    foldl_inv (fun u : State => u.nsc.lastCall) _ ?_ _ _, foldl_inv (fun u : State => u.nsc.lastFare) _ ?_ _ _,
    foldl_inv (fun u : State => u.nsc.assist) _ ?_ _ _, foldl_inv (fun u : State => u.nsc.replies) _ ?_ _ _,
    foldl_inv (fun u : State => u.nsc.fleet) _ ?_ _ _, foldl_inv (fun u : State => u.lif.stations) _ ?_ _ _,
    foldl_inv (fun u : State => u.nsc.sign) _ ?_ _ _, foldl_inv (fun u : State => u.nsc.offers) _ ?_ _ _,
    foldl_inv (fun u : State => u.nsc.calls) _ ?_ _ _, foldl_inv (fun u : State => u.nsc.journal) _ ?_ _ _,
    foldl_inv (fun u : State => u.nsc.print) _ ?_ _ _, foldl_inv (fun u : State => u.icm) _ ?_ _ _⟩ <;>
    (intros; (repeat' split) <;> simp)

@[simp] theorem resumeNotices_frame (s : State) :
    Kept.base (resumeNotices s) s ∧ Kept.outer (resumeNotices s) s ∧ Kept.shift (resumeNotices s) s ∧
      Kept.deep (resumeNotices s) s ∧ Kept.line (resumeNotices s) s ∧
      (resumeNotices s).lif.stations = s.lif.stations ∧ (resumeNotices s).icm = s.icm := by
  simp [resumeNotices]

@[simp] theorem resumeTimers_frame (s : State) :
    Kept.base (resumeTimers s) s ∧ Kept.clock (resumeTimers s) s ∧ Kept.hire (resumeTimers s) s ∧
      Kept.calls (resumeTimers s) s ∧ Kept.prompts (resumeTimers s) s ∧ Kept.ring (resumeTimers s) s ∧
      Kept.reader (resumeTimers s) s ∧ (resumeTimers s).lif.address = s.lif.address ∧
      (resumeTimers s).lif.rx = s.lif.rx ∧ (resumeTimers s).lif.queue = s.lif.queue ∧
      (resumeTimers s).lif.lineFree = s.lif.lineFree ∧ (resumeTimers s).lif.tx = s.lif.tx ∧
      (resumeTimers s).lif.stations = s.lif.stations ∧ (resumeTimers s).nsc = s.nsc ∧
      (resumeTimers s).odo.addrStrap = s.odo.addrStrap ∧ (resumeTimers s).odo.calStrap = s.odo.calStrap ∧
      (resumeTimers s).odo.pulseLevel = s.odo.pulseLevel ∧ (resumeTimers s).odo.lastTaken = s.odo.lastTaken ∧
      (resumeTimers s).odo.odometer = s.odo.odometer ∧ (resumeTimers s).odo.manualBand = s.odo.manualBand ∧
      (resumeTimers s).odo.assistLevel = s.odo.assistLevel ∧ (resumeTimers s).odo.detector = s.odo.detector ∧
      (resumeTimers s).odo.assistFrom = s.odo.assistFrom ∧ (resumeTimers s).odo.powerGood = s.odo.powerGood ∧
      (resumeTimers s).tar = s.tar ∧ (resumeTimers s).fare = s.fare ∧
      (resumeTimers s).cab.latch = s.cab.latch ∧ (resumeTimers s).cab.presses = s.cab.presses ∧
      (resumeTimers s).cab.pressTime = s.cab.pressTime ∧ (resumeTimers s).cab.wakeMark = s.cab.wakeMark ∧
      (resumeTimers s).cab.ack = s.cab.ack ∧ (resumeTimers s).cab.sign = s.cab.sign ∧
      (resumeTimers s).cab.watches = s.cab.watches ∧ (resumeTimers s).icm.privacy = s.icm.privacy ∧
      (resumeTimers s).icm.forced = s.icm.forced ∧ (resumeTimers s).icm.gains = s.icm.gains ∧
      (resumeTimers s).icm.out = s.icm.out ∧ (resumeTimers s).acc = s.acc ∧ (resumeTimers s).flt = s.flt ∧
      (resumeTimers s).pwr = s.pwr := by
  simp [resumeTimers]

@[simp] theorem interruption_frame (s : State) :
    Kept.base (interruption s) s ∧ Kept.outer (interruption s) s ∧ Kept.line (interruption s) s ∧
      Kept.sends (interruption s) s ∧ Kept.money (interruption s) s ∧ Kept.hire (interruption s) s ∧
      Kept.lists (interruption s) s ∧ Kept.reader (interruption s) s ∧
      (interruption s).lif.stations = s.lif.stations ∧ (interruption s).nsc.replies = s.nsc.replies ∧
      (interruption s).nsc.calls = s.nsc.calls ∧ (interruption s).nsc.fleet = s.nsc.fleet ∧
      (interruption s).nsc.journal = s.nsc.journal ∧ (interruption s).fare = s.fare ∧
      (interruption s).cab.latch = s.cab.latch ∧ (interruption s).cab.presses = s.cab.presses ∧
      (interruption s).cab.pressTime = s.cab.pressTime ∧ (interruption s).cab.watches = s.cab.watches ∧
      (interruption s).icm = s.icm ∧ (interruption s).acc.unresolved = s.acc.unresolved ∧
      (interruption s).acc.jobs = s.acc.jobs ∧ (interruption s).acc.credit = s.acc.credit ∧
      (interruption s).flt = s.flt := by
  simp [interruption]

@[simp] theorem resumed_frame (s : State) :
    Kept.base (resumed s) s ∧ Kept.clock (resumed s) s ∧ Kept.hire (resumed s) s ∧
      Kept.lists (resumed s) s ∧ (resumed s).lif.address = s.lif.address ∧
      (resumed s).odo.addrStrap = s.odo.addrStrap ∧ (resumed s).odo.calStrap = s.odo.calStrap ∧
      (resumed s).odo.pulseLevel = s.odo.pulseLevel ∧
      (resumed s).odo.lastTaken = s.odo.lastTaken ∧ (resumed s).odo.odometer = s.odo.odometer ∧
      (resumed s).odo.manualBand = s.odo.manualBand ∧
      (resumed s).odo.assistLevel = s.odo.assistLevel ∧
      (resumed s).odo.detector = s.odo.detector ∧
      (resumed s).odo.assistFrom = s.odo.assistFrom ∧
      (resumed s).odo.powerGood = s.odo.powerGood ∧ (resumed s).fare.lastLeg = s.fare.lastLeg ∧
      (resumed s).cab.latch = s.cab.latch ∧ (resumed s).cab.presses = s.cab.presses ∧
      (resumed s).cab.pressTime = s.cab.pressTime ∧ (resumed s).icm.arrivals = s.icm.arrivals ∧
      (resumed s).icm.privacy = s.icm.privacy ∧ (resumed s).icm.forced = s.icm.forced ∧
      (resumed s).icm.out = s.icm.out ∧ (resumed s).flt.coldFlag = s.flt.coldFlag ∧
      (resumed s).pwr.retainAt = s.pwr.retainAt ∧ (resumed s).pwr.check = s.pwr.check := by
  simp [resumed]

@[simp] theorem resumeProcedure_frame (s : State) :
    Kept.base (resumeProcedure s) s ∧ Kept.clock (resumeProcedure s) s ∧ Kept.hire (resumeProcedure s) s ∧
      Kept.lists (resumeProcedure s) s ∧ (resumeProcedure s).lif.address = s.lif.address ∧
      (resumeProcedure s).odo.addrStrap = s.odo.addrStrap ∧ (resumeProcedure s).odo.calStrap = s.odo.calStrap ∧
      (resumeProcedure s).odo.pulseLevel = s.odo.pulseLevel ∧
      (resumeProcedure s).odo.lastTaken = s.odo.lastTaken ∧ (resumeProcedure s).odo.odometer = s.odo.odometer ∧
      (resumeProcedure s).odo.manualBand = s.odo.manualBand ∧
      (resumeProcedure s).odo.assistLevel = s.odo.assistLevel ∧
      (resumeProcedure s).odo.detector = s.odo.detector ∧
      (resumeProcedure s).odo.assistFrom = s.odo.assistFrom ∧
      (resumeProcedure s).odo.powerGood = s.odo.powerGood ∧ (resumeProcedure s).fare.lastLeg = s.fare.lastLeg ∧
      (resumeProcedure s).cab.latch = s.cab.latch ∧ (resumeProcedure s).cab.presses = s.cab.presses ∧
      (resumeProcedure s).cab.pressTime = s.cab.pressTime ∧ (resumeProcedure s).icm.arrivals = s.icm.arrivals ∧
      (resumeProcedure s).icm.privacy = s.icm.privacy ∧ (resumeProcedure s).icm.forced = s.icm.forced ∧
      (resumeProcedure s).icm.out = s.icm.out ∧ (resumeProcedure s).flt.coldFlag = s.flt.coldFlag ∧
      (resumeProcedure s).pwr.retainAt = s.pwr.retainAt ∧ (resumeProcedure s).pwr.check = s.pwr.check := by
  simp [resumeProcedure]

end Sys2Proof.Machine
end

