-- ==== Sys2Proof/Laws/Transmitter.lean ====
section
/-!
SUPPORT. The operations that touch the transmitter at most by marking that its notice's content was placed anew: what
it holds, its contention count and what it sends stand.
-/

namespace Sys2Proof.Machine

/-- The two states agree in the transmitter but for its mark. -/
@[simp] abbrev Kept.tx (t s : State) : Prop :=
  t.lif.tx.held = s.lif.tx.held ∧ t.lif.tx.contention = s.lif.tx.contention ∧ t.lif.tx.sending = s.lif.tx.sending

@[simp] theorem Transmitter.ite_held (c : Prop) [Decidable c] (a b : Transmitter) :
    (if c then a else b).held = if c then a.held else b.held := apply_ite Transmitter.held c a b
@[simp] theorem Transmitter.ite_contention (c : Prop) [Decidable c] (a b : Transmitter) :
    (if c then a else b).contention = if c then a.contention else b.contention := apply_ite Transmitter.contention c a b
@[simp] theorem Transmitter.ite_sending (c : Prop) [Decidable c] (a b : Transmitter) :
    (if c then a else b).sending = if c then a.sending else b.sending := apply_ite Transmitter.sending c a b
@[simp] theorem Transmitter.ite_renewed (c : Prop) [Decidable c] (a b : Transmitter) :
    (if c then a else b).renewed = if c then a.renewed else b.renewed := apply_ite Transmitter.renewed c a b

@[simp] theorem renew_tx n (s : State) : Kept.tx (renew n s) s := by
  simp [renew]

@[simp] theorem placeAssist_tx c (s : State) : Kept.tx (placeAssist c s) s := by
  simp [placeAssist]

@[simp] theorem withdrawAssist_tx (s : State) : Kept.tx (withdrawAssist s) s := by
  simp [withdrawAssist]

@[simp] theorem placeOffer_tx i o (s : State) : Kept.tx (placeOffer i o s) s := by
  simp [placeOffer]

@[simp] theorem withdrawOffer_tx i (s : State) : Kept.tx (withdrawOffer i s) s := by
  simp [withdrawOffer]

@[simp] theorem placeFareShow_tx i f (s : State) : Kept.tx (placeFareShow i f s) s := by
  simp [placeFareShow]

@[simp] theorem placeCallNotice_tx p c (s : State) : Kept.tx (placeCallNotice p c s) s := by
  simp [placeCallNotice]

@[simp] theorem placeSign_tx (s : State) : Kept.tx (placeSign s) s := by
  simp [placeSign]

@[simp] theorem placeItem_tx it (s : State) : Kept.tx (placeItem it s) s := by
  simp [placeItem]

@[simp] theorem placeReadFrame_tx f (s : State) : Kept.tx (placeReadFrame f s) s := by
  simp [placeReadFrame]

@[simp] theorem withdrawReadFrame_tx (s : State) : Kept.tx (withdrawReadFrame s) s := by
  simp [withdrawReadFrame]

@[simp] theorem placePrint_tx it (s : State) : Kept.tx (placePrint it s) s := by
  simp [placePrint]

@[simp] theorem withdrawPrint_tx (s : State) : Kept.tx (withdrawPrint s) s := by
  simp [withdrawPrint]

@[simp] theorem placeAnnounce_tx (s : State) : Kept.tx (placeAnnounce s) s := by
  simp [placeAnnounce]

@[simp] theorem placeEnd_tx (c : Cursor) (s : State) : Kept.tx (placeEnd c s) s := by
  simp [placeEnd]

@[simp] theorem makeRead_tx (s : State) : Kept.tx (makeRead s) s := by
  unfold makeRead
  (repeat' split) <;> simp

@[simp] theorem placeRow_tx (s : State) : Kept.tx (placeRow s) s := by
  unfold placeRow
  split <;> simp

@[simp] theorem clearCursor_tx (s : State) : Kept.tx (clearCursor s) s := by
  simp [clearCursor]

@[simp] theorem completeOp_tx (s : State) : Kept.tx (completeOp s) s := by
  simp [completeOp]

@[simp] theorem enterLate_tx l (s : State) : Kept.tx (enterLate l s) s := by
  simp [enterLate]

@[simp] theorem refreshPrint_tx (s : State) : Kept.tx (refreshPrint s) s := by
  unfold refreshPrint
  split <;> simp

@[simp] theorem joinJobs_tx b (s : State) : Kept.tx (joinJobs b s) s := by
  unfold joinJobs
  dsimp only
  split <;> simp

@[simp] theorem placeReceipt_tx r z (s : State) : Kept.tx (placeReceipt r z s) s := by
  unfold placeReceipt
  split <;> simp

@[simp] theorem printerPause_tx (s : State) : Kept.tx (printerPause s) s := by
  simp [printerPause]

@[simp] theorem printSent_tx st (s : State) : Kept.tx (printSent st s) s := by
  unfold printSent
  dsimp only
  (repeat' split) <;> simp

@[simp] theorem accountLeg_tx r (s : State) : Kept.tx (accountLeg r s) s := by
  simp [accountLeg]

@[simp] theorem removeEntry_tx a (s : State) : Kept.tx (removeEntry a s) s := by
  unfold removeEntry
  split <;> simp

@[simp] theorem endReference_tx a (s : State) : Kept.tx (endReference a s) s := by
  unfold endReference
  split <;> simp

@[simp] theorem noticeCall_tx p (s : State) : Kept.tx (noticeCall p s) s := by
  simp [noticeCall]

@[simp] theorem noticeMoved_tx b (s : State) : Kept.tx (noticeMoved b s) s := by
  simp only [Kept.tx]
  unfold noticeMoved
  refine ⟨foldl_inv (fun u : State => u.lif.tx.held) _ ?_ _ _,
    foldl_inv (fun u : State => u.lif.tx.contention) _ ?_ _ _,
    foldl_inv (fun u : State => u.lif.tx.sending) _ ?_ _ _⟩ <;>
    (intros; (repeat' split) <;> simp)

@[simp] theorem enterPhase_tx p ph r (s : State) : Kept.tx (enterPhase p ph r s) s := by
  simp [enterPhase]

@[simp] theorem leaveQueue_tx p (s : State) : Kept.tx (leaveQueue p s) s := by
  unfold leaveQueue
  split <;> simp

@[simp] theorem arbitrate_tx (s : State) : Kept.tx (arbitrate s) s := by
  unfold arbitrate
  split <;> simp

@[simp] theorem release_tx p r (s : State) : Kept.tx (release p r s) s := by
  simp [release]

@[simp] theorem link_tx p (s : State) : Kept.tx (link p s) s := by
  simp [link]

@[simp] theorem unboundCall_tx p (s : State) : Kept.tx (unboundCall p s) s := by
  unfold unboundCall
  split <;> simp

@[simp] theorem portUnbound_tx p (s : State) : Kept.tx (portUnbound p s) s := by
  simp [portUnbound]

@[simp] theorem lookReleased_tx (s : State) : Kept.tx (lookReleased s) s := by
  unfold lookReleased
  split <;> simp

@[simp] theorem boundaryFor_tx m p (s : State) : Kept.tx (boundaryFor m s p) s := by
  simp [boundaryFor]

@[simp] theorem recomputeSign_tx (s : State) : Kept.tx (recomputeSign s) s := by
  simp [recomputeSign]

@[simp] theorem signPresent_tx (s : State) : Kept.tx (signPresent s) s := by
  simp [signPresent]

@[simp] theorem bookingItem_tx r o l (s : State) : Kept.tx (bookingItem r o l s) s := by
  simp [bookingItem]

@[simp] theorem moveDuty_tx d (s : State) : Kept.tx (moveDuty d s) s := by
  simp [moveDuty]

@[simp] theorem occupancyReport_tx n sh (s : State) : Kept.tx (occupancyReport n sh s) s := by
  simp [occupancyReport]

@[simp] theorem noticeAssist_tx (s : State) : Kept.tx (noticeAssist s) s := by
  simp [noticeAssist]

@[simp] theorem pressEffects_tx (s : State) : Kept.tx (pressEffects s) s := by
  simp [pressEffects]

@[simp] theorem press_tx (s : State) : Kept.tx (press s) s := by
  simp [press]

@[simp] theorem applyPending_tx (s : State) : Kept.tx (applyPending s) s := by
  unfold applyPending
  split <;> simp

@[simp] theorem showLeg_tx i (s : State) : Kept.tx (showLeg i s) s := by
  unfold showLeg
  split <;> simp

@[simp] theorem fareTick_tx p (s : State) : Kept.tx (fareTick p s) s := by
  simp only [Kept.tx]
  unfold fareTick
  refine ⟨(foldl_inv (fun u : State => u.lif.tx.held) _ ?_ _ _),
    (foldl_inv (fun u : State => u.lif.tx.contention) _ ?_ _ _),
    (foldl_inv (fun u : State => u.lif.tx.sending) _ ?_ _ _)⟩ <;>
    (intros; split <;> simp)

@[simp] theorem offerLeg_tx i (s : State) : Kept.tx (offerLeg i s) s := by
  unfold offerLeg
  split <;> simp

@[simp] theorem endClaim_tx i (s : State) : Kept.tx (endClaim i s) s := by
  unfold endClaim
  (repeat' split) <;> simp

@[simp] theorem closeLeg_tx i l (s : State) : Kept.tx (closeLeg i l s) s := by
  simp [closeLeg]

@[simp] theorem endPanelReference_tx l (s : State) : Kept.tx (endPanelReference l s) s := by
  unfold endPanelReference
  split <;> simp

@[simp] theorem endClaimReference_tx l (s : State) : Kept.tx (endClaimReference l s) s := by
  unfold endClaimReference
  split <;> simp

@[simp] theorem freeSlot_tx i l (s : State) : Kept.tx (freeSlot i l s) s := by
  simp [freeSlot]

@[simp] theorem legProgrammed_tx n (s : State) : Kept.tx (legProgrammed n s) s := by
  unfold legProgrammed
  (repeat' split) <;> simp

@[simp] theorem bookingTaken_tx l (s : State) : Kept.tx (bookingTaken l s) s := by
  unfold bookingTaken
  split <;> simp

@[simp] theorem openLeg_tx q i (s : State) : Kept.tx (openLeg q i s) s := by
  simp [openLeg]

@[simp] theorem totalChanged_tx i l (s : State) : Kept.tx (totalChanged i l s) s := by
  simp [totalChanged]

@[simp] theorem releaseClaim_tx i (s : State) : Kept.tx (releaseClaim i s) s := by
  simp [releaseClaim]

@[simp] theorem holderAbsent_tx a (s : State) : Kept.tx (holderAbsent a s) s := by
  simp only [Kept.tx]
  unfold holderAbsent
  refine ⟨foldl_inv (fun u : State => u.lif.tx.held) _ ?_ _ _,
    foldl_inv (fun u : State => u.lif.tx.contention) _ ?_ _ _,
    foldl_inv (fun u : State => u.lif.tx.sending) _ ?_ _ _⟩ <;>
    (intros; (repeat' split) <;> simp)

@[simp] theorem settle_tx i (s : State) : Kept.tx (settle i s) s := by
  unfold settle
  dsimp only
  (repeat' split) <;> simp

@[simp] theorem cardApproval_tx q i l a v r (s : State) : Kept.tx (cardApproval q i l a v r s) s := by
  simp [cardApproval]

@[simp] theorem cardDecline_tx i l a o (s : State) : Kept.tx (cardDecline i l a o s) s := by
  simp [cardDecline]

@[simp] theorem listLate_tx q l a m r (s : State) : Kept.tx (listLate q l a m r s) s := by
  simp [listLate]

@[simp] theorem applyLate_tx q i l a m r (s : State) : Kept.tx (applyLate q i l a m r s) s := by
  simp [applyLate]

@[simp] theorem runOut_tx i l a (s : State) : Kept.tx (runOut i l a s) s := by
  simp [runOut]

@[simp] theorem joinCalls_tx p a u (s : State) : Kept.tx (joinCalls p a u s) s := by
  simp [joinCalls]

@[simp] theorem raiseUrgent_tx p (s : State) : Kept.tx (raiseUrgent p s) s := by
  unfold raiseUrgent
  split <;> simp

@[simp] theorem handOver_tx t (s : State) : Kept.tx (handOver t s) s := by
  simp [handOver]

@[simp] theorem readTariff_tx (s : State) : Kept.tx (readTariff s) s := by
  simp [readTariff]

@[simp] theorem bookingEnds_tx o (s : State) : Kept.tx (bookingEnds o s) s := by
  unfold bookingEnds
  split <;> simp

@[simp] theorem dutyEffect_tx n (s : State) : Kept.tx (dutyEffect n s) s := by
  unfold dutyEffect
  split <;> simp

@[simp] theorem openShiftBody_tx d (s : State) : Kept.tx (openShiftBody d s) s := by
  simp [openShiftBody]

/-- The transmitter stands as it was but for its mark, or has let its notice go. -/
abbrev Kept.hold (t s : State) : Prop := t.lif.tx = Transmitter.free ∨ Kept.tx t s

theorem renew_free n {s : State} (h : s.lif.tx = Transmitter.free) : (renew n s).lif.tx = Transmitter.free := by
  unfold renew
  split
  · simp_all [Transmitter.free]
  · exact h

theorem letGo_hold (s : State) : Kept.hold (letGo s) s := by
  unfold letGo
  (repeat' split) <;> simp [freeTransmitter, Kept.hold]

theorem headWithdrawn_hold (s : State) : Kept.hold (refreshPrint (letGo (withdrawPrint s))) s := by
  rcases letGo_hold (withdrawPrint s) with h | h
  · refine .inl ?_
    unfold refreshPrint
    split <;> exact renew_free _ h
  · exact .inr (by simpa using h)

/-- Where a new report pushes the head out, the transmitter may let the head's item go (01 R14, 08 R156). -/
theorem placeReport_hold b (s : State) : Kept.hold (placeReport b s) s := by
  unfold placeReport
  dsimp only
  split
  · exact .inr (by simp)
  · split
    · exact .inr (by simp)
    · split
      · simpa [Kept.hold] using headWithdrawn_hold
          { raise FaultName.printLost s with
            acc.jobs := (raise FaultName.printLost s).acc.jobs.eraseIdx _ ++ [⟨b, 0⟩] }
      · exact .inr (by simp)

@[simp] theorem programmed_tx q (s : State) : Kept.tx (programmed q s) s := by
  unfold programmed
  split <;> simp

@[simp] theorem endSent_tx c o (s : State) : Kept.tx (endSent c o s) s := by
  simp [endSent]

@[simp] theorem rowSent_tx c (s : State) : Kept.tx (rowSent c s) s := by
  unfold rowSent
  split <;> simp

@[simp] theorem readFrameSent_tx (s : State) : Kept.tx (readFrameSent s) s := by
  unfold readFrameSent
  (repeat' split) <;> simp

@[simp] theorem becomePresent_tx e (s : State) : Kept.tx (becomePresent e s) s := by
  simp [becomePresent]

@[simp] theorem refreshPresence_tx a (s : State) : Kept.tx (refreshPresence a s) s := by
  unfold refreshPresence
  split <;> simp

@[simp] theorem acceptFrame_tx a ch (s : State) : Kept.tx (acceptFrame a ch s) s := by
  simp [acceptFrame]

@[simp] theorem judgeFrame_tx o ch k (s : State) : Kept.tx (judgeFrame o ch k s) s := by
  unfold judgeFrame
  (repeat' split) <;> simp

@[simp] theorem unbindPort_tx e (s : State) : Kept.tx (unbindPort e s) s := by
  unfold unbindPort
  split <;> simp

@[simp] theorem createEntry_tx r q (s : State) : Kept.tx (createEntry r q s) s := by
  simp [createEntry]

@[simp] theorem replaceEntry_tx e r q (s : State) : Kept.tx (replaceEntry e r q s) s := by
  simp [replaceEntry]

@[simp] theorem announced_tx r q (s : State) : Kept.tx (announced r q s) s := by
  unfold announced
  split <;> simp

@[simp] theorem readerAbsent_tx a (s : State) : Kept.tx (readerAbsent a s) s := by
  simp [readerAbsent]

@[simp] theorem tellCreditAbsent_tx e (s : State) : Kept.tx (tellCreditAbsent e s) s := by
  unfold tellCreditAbsent
  split <;> simp

@[simp] theorem tellAbsent_tx e (s : State) : Kept.tx (tellAbsent e s) s := by
  simp [tellAbsent]

@[simp] theorem noticeSent_tx n r (s : State) : Kept.tx (noticeSent n r s) s := by
  unfold noticeSent
  split <;> simp

@[simp] theorem resumeSlot_tx i (s : State) : Kept.tx (resumeSlot s i) s := by
  unfold resumeSlot
  (repeat' split) <;> simp

@[simp] theorem resumeLegs_tx (s : State) : Kept.tx (resumeLegs s) s := by
  simp only [Kept.tx]
  unfold resumeLegs
  refine ⟨foldl_inv (fun u : State => u.lif.tx.held) _ ?_ _ _,
    foldl_inv (fun u : State => u.lif.tx.contention) _ ?_ _ _,
    foldl_inv (fun u : State => u.lif.tx.sending) _ ?_ _ _⟩ <;>
    (intros; simp)

@[simp] theorem placeOffers_tx (s : State) : Kept.tx (placeOffers s) s := by
  simp only [Kept.tx]
  unfold placeOffers
  refine ⟨foldl_inv (fun u : State => u.lif.tx.held) _ ?_ _ _,
    foldl_inv (fun u : State => u.lif.tx.contention) _ ?_ _ _,
    foldl_inv (fun u : State => u.lif.tx.sending) _ ?_ _ _⟩ <;>
    (intros; (repeat' split) <;> simp)

@[simp] theorem placeShows_tx (s : State) : Kept.tx (placeShows s) s := by
  simp only [Kept.tx]
  unfold placeShows
  refine ⟨foldl_inv (fun u : State => u.lif.tx.held) _ ?_ _ _,
    foldl_inv (fun u : State => u.lif.tx.contention) _ ?_ _ _,
    foldl_inv (fun u : State => u.lif.tx.sending) _ ?_ _ _⟩ <;>
    (intros; (repeat' split) <;> simp)

@[simp] theorem resumeNotices_tx (s : State) : Kept.tx (resumeNotices s) s := by
  simp [resumeNotices]

@[simp] theorem interruption_tx (s : State) : Kept.tx (interruption s) s := by
  simp [interruption]

end Sys2Proof.Machine
end

