-- ==== Sys2Proof/Laws/Effects.lean ====
section
/-!
SUPPORT. What the shared operations do: the values they write, how a request that passes the line's checks is taken,
what its answer and the letting go of a held notice leave, the next play, and the look at the write position.
-/

namespace Sys2Proof.Machine

/-! ### Fixed numbers of things -/

@[simp] theorem Four.get_set {α : Type} (f : Four α) (i j : Fin 4) (x : α) :
    (f.set i x).get j = if j = i then x else f.get j := by
  fin_cases i <;> fin_cases j <;> rfl

@[simp] theorem Four.get_map {α β : Type} (g : α → β) (f : Four α) (i : Fin 4) : (f.map g).get i = g (f.get i) := by
  fin_cases i <;> rfl

@[simp] theorem Four.get_all {α : Type} (x : α) (i : Fin 4) : (Four.all x).get i = x := by
  fin_cases i <;> rfl

@[simp] theorem Four.set_set {α : Type} (f : Four α) (i : Fin 4) (x y : α) : (f.set i x).set i y = f.set i y := by
  fin_cases i <;> rfl

theorem Four.set_get {α : Type} (f : Four α) (i : Fin 4) : f.set i (f.get i) = f := by
  fin_cases i <;> rfl

@[simp] theorem Three.get_set {α : Type} (f : Three α) (p q : Port) (x : α) :
    (f.set p x).get q = if q = p then x else f.get q := by
  cases p <;> cases q <;> rfl

@[simp] theorem Three.set_set {α : Type} (f : Three α) (p : Port) (x y : α) : (f.set p x).set p y = f.set p y := by
  cases p <;> rfl

/-! ### Time, faults and notices -/

@[simp] theorem passTo_time (m : Moment) (s : State) : (passTo m s).time = max s.time m := rfl

@[simp] theorem raise_latched (f : FaultName) (s : State) :
    (raise f s).flt.latched = s.flt.latched ||| BitVec.ofNat 16 (2 ^ f.index) := rfl

/-- Raising a fault sets its bit and no other. -/
theorem raise_bit (f : FaultName) (s : State) (i : Nat) :
    (raise f s).flt.latched.getLsbD i = (s.flt.latched.getLsbD i || decide (i = f.index)) := by
  rw [raise_latched, BitVec.getLsbD_or]
  congr 1
  by_cases h : i < 16
  · cases f <;> interval_cases i <;> rfl
  · rw [BitVec.getLsbD_of_ge _ _ (by omega)]
    have hf : f.index < 16 := by cases f <;> decide
    simp; omega

@[simp] theorem placeAssist_assist (c : AssistNotice) (s : State) : (placeAssist c s).nsc.assist = some c := by
  simp [placeAssist]

@[simp] theorem withdrawAssist_assist (s : State) : (withdrawAssist s).nsc.assist = none := by simp [withdrawAssist]

@[simp] theorem placeOffer_offers (i : Fin 4) (o : Offer) (s : State) :
    (placeOffer i o s).nsc.offers = s.nsc.offers.set i (some o) := by simp [placeOffer]

@[simp] theorem withdrawOffer_offers (i : Fin 4) (s : State) :
    (withdrawOffer i s).nsc.offers = s.nsc.offers.set i none := by simp [withdrawOffer]

@[simp] theorem placeFareShow_fares (i : Fin 4) (f : FareShow) (s : State) :
    (placeFareShow i f s).nsc.fares = s.nsc.fares.set i (some f) := by simp [placeFareShow]

@[simp] theorem placeCallNotice_calls (p : Port) (c : CallNotice) (s : State) :
    (placeCallNotice p c s).nsc.calls = s.nsc.calls.set p (some c) := by simp [placeCallNotice]

@[simp] theorem placeSign_sign (s : State) :
    (placeSign s).nsc.sign = some ⟨s.cab.sign.pattern, s.cab.sign.flag, s.cab.sign.seq⟩ := by simp [placeSign]

@[simp] theorem placeReadFrame_journal (f : ReadFrame) (s : State) : (placeReadFrame f s).nsc.journal = some f := by
  simp [placeReadFrame]

/-- JOURNAL_END stands with the cursor at no row (09 R177). -/
@[simp] theorem placeEnd_journal (c : Cursor) (s : State) :
    (placeEnd c s).nsc.journal
      = some (.fin c.shift c.sent ((dirEntry s c.shift).any (fun d => decide (d.state = .opened)))) := by
  simp [placeEnd]

@[simp] theorem withdrawReadFrame_journal (s : State) : (withdrawReadFrame s).nsc.journal = none := by
  simp [withdrawReadFrame]

@[simp] theorem placePrint_print (it : PrintItem) (s : State) : (placePrint it s).nsc.print = some it := by
  simp [placePrint]

@[simp] theorem withdrawPrint_print (s : State) : (withdrawPrint s).nsc.print = none := by simp [withdrawPrint]

@[simp] theorem placeAnnounce_announce (s : State) : (placeAnnounce s).nsc.announce = true := by simp [placeAnnounce]

/-- An item placed in class 6 stands there, and items of the other kinds stand as they were. -/
theorem placeItem_fleet (it : FleetItem) (s : State) :
    it ∈ (placeItem it s).nsc.fleet ∧ ∀ k, k ≠ it.kind →
      (placeItem it s).nsc.fleet.filter (fun x => decide (x.kind = k)) = s.nsc.fleet.filter (fun x => decide (x.kind = k)) := by
  unfold placeItem
  split
  · rename_i h
    obtain ⟨x, hx, hk⟩ := List.any_eq_true.1 h
    refine ⟨?_, ?_⟩
    · simp only [renew_frame]
      exact List.mem_map.2 ⟨x, hx, by simp_all⟩
    · intro k hk'
      simp only [renew_frame]
      clear h hx hk
      induction s.nsc.fleet with
      | nil => rfl
      | cons y ys ih =>
        by_cases hy : y.kind = it.kind
        · simp [hy, Ne.symm hk', ih]
        · by_cases hk2 : y.kind = k <;> simp [hy, hk2, ih, List.filter_cons]
          simp_all
  · refine ⟨by simp, ?_⟩
    intro k hk
    simp [List.filter_append, Ne.symm hk]

/-! ### Legs -/

@[simp] theorem legAt_setLeg (i j : Fin 4) (l : Leg) (s : State) :
    legAt (setLeg i l s) j = if j = i then some l else legAt s j := by simp [legAt, setLeg]

@[simp] theorem setLeg_slots (i : Fin 4) (l : Leg) (s : State) :
    (setLeg i l s).fare.slots = s.fare.slots.set i (some l) := rfl

@[simp] theorem legAt_clearLeg (i j : Fin 4) (s : State) :
    legAt (clearLeg i s) j = if j = i then none else legAt s j := by simp [legAt, clearLeg]

/-- What stands in the slots depends on the leg table alone. -/
theorem legAt_congr {s t : State} (h : t.fare = s.fare) (i : Fin 4) : legAt t i = legAt s i := by simp [legAt, h]

theorem offerLeg_offers {i : Fin 4} {l : Leg} {s : State} (h : legAt s i = some l) :
    (offerLeg i s).nsc.offers = s.nsc.offers.set i (some (offerOf l)) := by simp [offerLeg, h]

theorem showLeg_fares {i : Fin 4} {l : Leg} {s : State} (h : legAt s i = some l) :
    (showLeg i s).nsc.fares = s.nsc.fares.set i (some (showOf l)) := by simp [showLeg, h]

/-! ### Requests and their answers -/

/-- Letting go of the held notice keeps the transmitter or frees it. -/
theorem letGo_or (s : State) : letGo s = s ∨ letGo s = freeTransmitter s := by
  unfold letGo
  split
  · split <;> simp
  · simp

/-- A request or report that passes the line's checks is acted on, with its frame taken from the queue. -/
theorem takes_asks {k : ReqKind} {q : QFrame} {e : Station} {rest : List QFrame} {s : State}
    (act : QFrame → Station → State → State) (h : Asks k q e rest s) :
    takes k act s = .next (letGo (act q e { s with lif.queue := rest })) := by
  obtain ⟨h1, h2, h3, h4, h5, h6⟩ := h
  have h7 : stationOf { s with lif.queue := rest } q.src = some e := h4
  have h8 : (lengths k).contains q.payload.length = true := by simpa using h6
  simp only [takes, whenActive, h1, if_true, taken, h2, h3, h7, h5, h8]
  simp

/-- After letting go no notice that is not sendable is held between attempts. -/
theorem letGo_sendable (s : State) (h : (letGo s).lif.tx.sending = none) (n : Notice)
    (hn : (letGo s).lif.tx.held = some n) : sendable (letGo s) n = true := by
  unfold letGo at *
  split at h <;> simp_all
  split at hn <;> simp_all [freeTransmitter, Transmitter.free]

/-- What a command leaves of the transmitter, when its own effect kept or freed it. -/
theorem transmitterKept_letGo {s u : State}
    (hu : u.lif.tx = Transmitter.free ∨ u.lif.tx = { s.lif.tx with renewed := u.lif.tx.renewed }) :
    TransmitterKept s (letGo u) := by
  refine ⟨?_, letGo_sendable u⟩
  rcases letGo_or u with h | h <;> rw [h]
  · exact hu
  · exact .inl rfl

/-- What a request leaves of the line interface, when its own effect did no more than mark the transmitter. -/
theorem lineKept_letGo {s u : State} {rest : List QFrame}
    (hu : u.lif = { s.lif with queue := rest, tx := { s.lif.tx with renewed := u.lif.tx.renewed } }) :
    LineKept rest s (letGo u) := by
  refine ⟨?_, transmitterKept_letGo (.inr (by conv_lhs => rw [hu]))⟩
  rcases letGo_or u with h | h <;> rw [h]
  · conv_lhs => rw [hu]
    rw [hu]
  · simp only [freeTransmitter]
    rw [hu]

theorem replied_placeReply {r : Reply} {s u : State} (h : u.nsc.replies = s.nsc.replies) :
    Replied r s (placeReply r u) := by
  unfold Replied placeReply
  rw [h]
  split
  · simp [*]
  · simp [raise, FaultName.index, h]

theorem faultsKept_placeReply {r : Reply} {s u : State} (hr : u.nsc.replies = s.nsc.replies) (h : u.flt = s.flt) :
    FaultsKept s (placeReply r u) := by
  unfold FaultsKept placeReply
  rw [hr]
  split
  · simp [h]
  · refine ⟨by simp [h], fun i hi => ?_, fun hl => absurd hl ‹_›⟩
    rw [raise_bit, h]
    simp [FaultName.index, hi]

theorem replied_letGo {r : Reply} {s u : State} (h : Replied r s u) : Replied r s (letGo u) := by
  simpa [Replied] using h

theorem faultsKept_letGo {s u : State} (h : FaultsKept s u) : FaultsKept s (letGo u) := by
  simpa [FaultsKept] using h

theorem answered_accept {q : QFrame} {v : List Byte} {s u : State} (h : u.nsc.replies = s.nsc.replies) :
    Answered q (.accepted v) s (letGo (accept q v u)) := replied_letGo (replied_placeReply h)

theorem answered_refuse {q : QFrame} {c : RefusalCode} {s u : State} (h : u.nsc.replies = s.nsc.replies) :
    Answered q (.refused c) s (letGo (refuse q c u)) := replied_letGo (replied_placeReply h)

theorem faultsKept_accept {q : QFrame} {v : List Byte} {s u : State} (hr : u.nsc.replies = s.nsc.replies)
    (h : u.flt = s.flt) : FaultsKept s (letGo (accept q v u)) := faultsKept_letGo (faultsKept_placeReply hr h)

theorem faultsKept_refuse {q : QFrame} {c : RefusalCode} {s u : State} (hr : u.nsc.replies = s.nsc.replies)
    (h : u.flt = s.flt) : FaultsKept s (letGo (refuse q c u)) := faultsKept_letGo (faultsKept_placeReply hr h)

/-! ### The journal's work depends on the journal, the array and the power state alone -/

section
variable {s u : State} (hj : s.jnl = u.jnl) (ha : s.array = u.array) (hp : s.pwr.state = u.pwr.state)
include hj

theorem sectorErased_congr (c : Nat) : sectorErased s c = sectorErased u c := by
  simp [sectorErased, sectorEntry, hj]

theorem reclaimable_congr (c : Nat) : reclaimable s c = reclaimable u c := by
  simp [reclaimable, sectorErased, sectorEntry, hj]

theorem erasedRun_congr (n : Nat) : ∀ c, erasedRun s n c = erasedRun u n c := by
  induction n with
  | zero => intro c; rfl
  | succ n ih => intro c; simp [erasedRun, sectorErased_congr hj, ih]

theorem aheadSector_congr : aheadSector s = aheadSector u := by
  simp [aheadSector, sectorErased_congr hj, erasedRun_congr hj, hj]

include ha

theorem freeHere_congr : freeHere s = freeHere u := by
  simp [freeHere, rowFree, hj, ha]

theorem look_congr (n : Nat) : ∀ w, look s n w = look u n w := by
  induction n with
  | zero => intro w; rfl
  | succ n ih =>
    intro w
    have hf : ∀ r, rowFree s r = rowFree u r := fun r => by simp [rowFree, ha]
    have hn : nextFreeInSector s w = nextFreeInSector u w := by simp [nextFreeInSector, hf]
    simp only [look, sectorErased_congr hj, reclaimable_congr hj, hf, hn]
    split <;> simp [ih]

include hp

omit ha in
theorem requestOp_jnl_congr (op : ArrayOp) : (requestOp op s).jnl = (requestOp op u).jnl := by
  simp only [requestOp, hj, hp]
  split
  · unfold startOp
    dsimp only
    split <;> simp [hj]
  · simp

theorem programDue_jnl_congr : (programDue s).jnl = (programDue u).jnl := by
  simp only [programDue, opPending, look_congr hj ha, hj]
  split
  · exact hj
  · split
    · exact requestOp_jnl_congr (by simp) (by simpa using hp) _
    · simp

theorem eraseAhead_jnl_congr : (eraseAhead s).jnl = (eraseAhead u).jnl := by
  have hr := requestOp_jnl_congr
    (s := setSector (aheadSector u) { sectorEntry s (aheadSector u) with eraseFlag := true } s)
    (u := setSector (aheadSector u) { sectorEntry u (aheadSector u) with eraseFlag := true } u)
    (by simp [setSector, sectorEntry, hj]) (by simpa using hp) (.journalErase (aheadSector u))
  have h1 : erasedRowsAhead s = erasedRowsAhead u := by
    simp [erasedRowsAhead, freeHere_congr hj ha, erasedRun_congr hj, hj]
  have h2 : ∀ p, opPending p s = opPending p u := fun p => by simp [opPending, hj]
  unfold eraseAhead
  dsimp only
  rw [aheadSector_congr hj, h1, reclaimable_congr hj, h2, h2]
  split
  · exact hr
  · exact hj

/-- A claim does the same to the journal in two states that agree in journal, array and power state. -/
theorem claim_jnl_congr (r : Record) : (claim r s).jnl = (claim r u).jnl := by
  have h := programDue_jnl_congr (s := enqueueRecord r s) (u := enqueueRecord r u)
    (by simp [enqueueRecord, hj]) (by simpa using ha) (by simpa using hp)
  exact eraseAhead_jnl_congr h (by simpa using ha) (by simpa using hp)

end

/-! ### The prompt player (07 R129, R139) -/

/-- The next play of a queue, with no sample given yet (R139). -/
theorem startPlay_starts (s : State) (h : s.icm.player = .idle) :
    ∀ queue : List Prompt, PlayStarts 0 queue s (startPlay s queue)
  | [] => ⟨fun _ => ⟨h, rfl⟩, fun before x rest e => by simp at e⟩
  | y :: queue => by
    obtain ⟨none, some⟩ := startPlay_starts s h queue
    by_cases hy : noDest (boundDests s y.dests) = true
    · have e : startPlay s (y :: queue) = startPlay s queue := by simp [startPlay, hy]
      rw [e]
      refine ⟨fun all => none fun x hx => all x (List.mem_cons_of_mem _ hx), fun before x rest eq all hx => ?_⟩
      cases before with
      | nil => cases eq; simp [hy] at hx
      | cons b before =>
        cases eq
        exact some before x rest rfl (fun z hz => all z (List.mem_cons_of_mem _ hz)) hx
    · refine ⟨fun all => absurd (all y List.mem_cons_self) hy, fun before x rest eq all hx => ?_⟩
      cases before with
      | nil => cases eq; simp [startPlay, hx]
      | cons b before => cases eq; exact absurd (all y List.mem_cons_self) hy

/-- What leaving RINGING does to the ring timer, the prompts and the player (R129). -/
theorem leaveRinging_left (s : State) : RingingLeft s.icm.prompts s (leaveRinging s) := by
  unfold RingingLeft leaveRinging
  dsimp only
  cases h : s.icm.player with
  | idle => simp
  | playing k d seg left phase =>
    cases k with
    | ring => exact ⟨by simp, startPlay_starts { s with icm := { s.icm with
        ringDue := none, prompts := s.icm.prompts.filter (fun x => decide (x.kind ≠ .ring))
        player := .idle, promptSample := 0 } } rfl _, by simp⟩
    | _ => simp

/-! ### The write position (09 R165) -/

/-- JNL asks for no program while the head waits for an erase (R165, log 44). -/
theorem programDue_waits {s : State} (h : s.jnl.waitsErase = true) : programDue s = s := by simp [programDue, h]

/-- At a row that decides, the look ends there: held, due, or waiting for the erase. -/
theorem look_decides (s : State) (n w : Nat)
    (h : rowFree s w = true ∨ (w % 16 = 0 ∧ sectorErased s (w / 16) = false)) :
    look s (n + 1) w = (w, if w % 16 = 0 ∧ sectorErased s (w / 16) = false ∧ reclaimable s (w / 16) = false then .held
      else if rowFree s w = true then .due else .waits) := by
  rcases Bool.eq_false_or_eq_true (rowFree s w) with hf | hf <;>
    rcases Bool.eq_false_or_eq_true (sectorErased s (w / 16)) with he | he <;>
    rcases Bool.eq_false_or_eq_true (reclaimable s (w / 16)) with hr | hr <;>
    by_cases hw : w % 16 = 0 <;> simp_all [look]

/-! ### The close of a leg (04 R69, R70, 08 R149, R150, 05 R81) -/

theorem legRecord_closing (s : State) (l : Leg) : legRecord s l = closingRecord s l := by
  simp [legRecord, closingRecord, openShift, shiftIsOpen, metresOf, Leg.total]

theorem addLeg_closed (r : LegRecord) (c : Totals) : addLeg r c = closedTotals r c := by
  have card : isCard = fun x : Tender => decide (x.kind ≠ .cash) := by
    funext x; cases h : x.kind <;> simp [isCard, h]
  cases hv : r.voided <;> cases hs : r.share <;>
    simp [addLeg, addLegCounts, addMoney, closedTotals, cardSum, cashSum, maxMoney, satAdd, card, hv, hs]

/-- A report of a count that has not risen from 0. -/
theorem occupancyReport_reported {s : State} {before : Nat} (h : occupied s ≤ before) :
    OccupancyReported s (occupancyReport before none s) := by
  have same : ∀ u : State, u.fare = s.fare → occupied u = occupied s := fun u hu => by
    have : slotOccupied u = slotOccupied s := by funext i; simp [slotOccupied, legAt, hu]
    simp [occupied, this]
  by_cases h0 : occupied s = 0
  · simp [OccupancyReported, occupancyReport, occupancyDuty, setForcing, sharedHire, h0, same]
  · have hb : before ≠ 0 := by omega
    simp [OccupancyReported, occupancyReport, occupancyDuty, setForcing, sharedHire, h0, hb, same]

/-! ### Claims (06 R99) -/

/-- A station holds a leg's claim exactly when the claim names its address and its role. -/
theorem Leg.heldBy_iff (l : Leg) (a : Nat) (r : Role) :
    l.heldBy a r = true ↔ ∃ c, l.claim = some c ∧ c.holder = a ∧ c.role = r := by
  simp [Leg.heldBy, Option.any_eq_true]

/-- A station that does not hold a leg's claim finds none, or one of another address or role. -/
theorem Leg.not_heldBy (l : Leg) (a : Nat) (r : Role) :
    (!l.heldBy a r) = l.claim.all (fun c => decide (c.holder ≠ a ∨ c.role ≠ r)) := by
  cases h : l.claim with
  | none => simp [Leg.heldBy, h]
  | some c => by_cases ha : c.holder = a <;> by_cases hr : c.role = r <;> simp [Leg.heldBy, h, ha, hr]

/-! ### Characters (01 R1) -/

/-- A character the part sends has odd parity and its stop bit, so no receiver finds it in error. -/
@[simp] theorem sentChar_good (b : Byte) : charBad (sentChar b) = false := by
  rcases Nat.mod_two_eq_zero_or_one (onesOf b) with h | h <;> simp [charBad, sentChar, h]
  omega

end Sys2Proof.Machine
end

