-- ==== Sys2Proof/Laws/PerInstr.lean ====
section
/-!
SUPPORT. A law of every command, stated command by command: a well-formed command upsets only words the array has.
-/

namespace Sys2Proof.Laws

/-- The upsets a well-formed command carries name a row and a word of the array (09 R162). -/
def Bounds.Statement (i : Instr) : Prop := i.wellFormed = true → ∀ u ∈ i.upsets, u.row < 2048 ∧ u.word < 64

/-- Upsets that pass the check lie in the array. -/
theorem upsets_in_array (l : List Upset) (h : l.all Upset.inArray = true) : ∀ u ∈ l, u.row < 2048 ∧ u.word < 64 := by
  simpa [List.all_eq_true, Upset.inArray] using h

/-- A command that carries no upset keeps the law. -/
theorem bounds_of_nil (i : Instr) (h : i.upsets = []) : Bounds.Statement i := by
  intro _ u hu
  rw [h] at hu
  cases hu

namespace Bounds

theorem rxFrameComplete (check : LineChar) : Statement (.rxFrameComplete check) := bounds_of_nil _ rfl
theorem lineBreak (past : Nat) : Statement (.lineBreak past) := bounds_of_nil _ rfl
theorem txAttemptStart : Statement .txAttemptStart := bounds_of_nil _ rfl
theorem attemptLost : Statement .attemptLost := bounds_of_nil _ rfl
theorem txSuccess : Statement .txSuccess := bounds_of_nil _ rfl
theorem silenceTimeout (addr : Nat) : Statement (.silenceTimeout addr) := bounds_of_nil _ rfl
theorem stationRemoval (addr : Nat) : Statement (.stationRemoval addr) := bounds_of_nil _ rfl
theorem announceTimer : Statement .announceTimer := bounds_of_nil _ rfl
theorem announce : Statement .announce := bounds_of_nil _ rfl
theorem pulseEdge : Statement .pulseEdge := bounds_of_nil _ rfl
theorem fareTick : Statement .fareTick := bounds_of_nil _ rfl
theorem watchFires (panel : Nat) : Statement (.watchFires panel) := bounds_of_nil _ rfl
theorem clockSecond : Statement .clockSecond := bounds_of_nil _ rfl
theorem timeSet : Statement .timeSet := bounds_of_nil _ rfl
theorem band : Statement .band := bounds_of_nil _ rfl
theorem assistInputChange (high : Bool) : Statement (.assistInputChange high) := bounds_of_nil _ rfl
theorem assistPress : Statement .assistPress := bounds_of_nil _ rfl
theorem powerGoodChange (high : Bool) : Statement (.powerGoodChange high) := bounds_of_nil _ rfl
theorem powerLoss : Statement .powerLoss := bounds_of_nil _ rfl
theorem retainEntryComplete : Statement .retainEntryComplete := bounds_of_nil _ rfl
theorem backupSupplyFail (left : List Upset) : Statement (.backupSupplyFail left) := fun h => upsets_in_array _ h
theorem wake (straps : Straps) (lost : DataWord) (upsets : List Upset) : Statement (.wake straps lost upsets) := fun h => upsets_in_array _ h
theorem coldStart (straps : Straps) (extent : StartExtent) (upsets : List Upset) : Statement (.coldStart straps extent upsets) := fun h => upsets_in_array _ h
theorem tariffBegin : Statement .tariffBegin := bounds_of_nil _ rfl
theorem tariffEraseComplete : Statement .tariffEraseComplete := bounds_of_nil _ rfl
theorem tariffPart : Statement .tariffPart := bounds_of_nil _ rfl
theorem tariffPartProgramComplete : Statement .tariffPartProgramComplete := bounds_of_nil _ rfl
theorem tariffMarkProgramComplete : Statement .tariffMarkProgramComplete := bounds_of_nil _ rfl
theorem tariffCommit : Statement .tariffCommit := bounds_of_nil _ rfl
theorem tariffCommitProgramComplete (upsets : List Upset) : Statement (.tariffCommitProgramComplete upsets) := fun h => upsets_in_array _ h
theorem shiftOpen : Statement .shiftOpen := bounds_of_nil _ rfl
theorem shiftClose : Statement .shiftClose := bounds_of_nil _ rfl
theorem duty : Statement .duty := bounds_of_nil _ rfl
theorem book : Statement .book := bounds_of_nil _ rfl
theorem hire : Statement .hire := bounds_of_nil _ rfl
theorem hold : Statement .hold := bounds_of_nil _ rfl
theorem resume : Statement .resume := bounds_of_nil _ rfl
theorem void : Statement .void := bounds_of_nil _ rfl
theorem extra : Statement .extra := bounds_of_nil _ rfl
theorem flat : Statement .flat := bounds_of_nil _ rfl
theorem payClaim : Statement .payClaim := bounds_of_nil _ rfl
theorem claimDeadline (slot : Fin 4) : Statement (.claimDeadline slot) := bounds_of_nil _ rfl
theorem payStart : Statement .payStart := bounds_of_nil _ rfl
theorem payResult : Statement .payResult := bounds_of_nil _ rfl
theorem payCancel : Statement .payCancel := bounds_of_nil _ rfl
theorem attemptDeadline (slot : Fin 4) : Statement (.attemptDeadline slot) := bounds_of_nil _ rfl
theorem cash : Statement .cash := bounds_of_nil _ rfl
theorem tip : Statement .tip := bounds_of_nil _ rfl
theorem signResendTimer : Statement .signResendTimer := bounds_of_nil _ rfl
theorem signState : Statement .signState := bounds_of_nil _ rfl
theorem seat : Statement .seat := bounds_of_nil _ rfl
theorem assistRepeatTimer : Statement .assistRepeatTimer := bounds_of_nil _ rfl
theorem assistAck : Statement .assistAck := bounds_of_nil _ rfl
theorem assistClear : Statement .assistClear := bounds_of_nil _ rfl
theorem samplePeriod (m0 m1 m2 m3 : Sample) : Statement (.samplePeriod m0 m1 m2 m3) := bounds_of_nil _ rfl
theorem call : Statement .call := bounds_of_nil _ rfl
theorem ringTimer : Statement .ringTimer := bounds_of_nil _ rfl
theorem holdBoundary : Statement .holdBoundary := bounds_of_nil _ rfl
theorem answer : Statement .answer := bounds_of_nil _ rfl
theorem endCall : Statement .endCall := bounds_of_nil _ rfl
theorem talk : Statement .talk := bounds_of_nil _ rfl
theorem privacy : Statement .privacy := bounds_of_nil _ rfl
theorem printCredit : Statement .printCredit := bounds_of_nil _ rfl
theorem journalRead : Statement .journalRead := bounds_of_nil _ rfl
theorem journalCredit : Statement .journalCredit := bounds_of_nil _ rfl
theorem journalRelease : Statement .journalRelease := bounds_of_nil _ rfl
theorem journalProgramComplete : Statement .journalProgramComplete := bounds_of_nil _ rfl
theorem journalEraseComplete : Statement .journalEraseComplete := bounds_of_nil _ rfl
theorem faultAck : Statement .faultAck := bounds_of_nil _ rfl
theorem lineCharacter (c : LineChar) : Statement (.lineCharacter c) := bounds_of_nil _ rfl
theorem receiverIdleGap : Statement .receiverIdleGap := bounds_of_nil _ rfl
theorem fareShowSendInterval (slot : Fin 4) : Statement (.fareShowSendInterval slot) := bounds_of_nil _ rfl
theorem pulseInputChange (high : Bool) : Statement (.pulseInputChange high) := bounds_of_nil _ rfl
theorem discardedKindFrame : Statement .discardedKindFrame := bounds_of_nil _ rfl

end Bounds

end Sys2Proof.Laws
end

