-- ==== Sys2Proof/Tests/Slice0.lean ====
section
/-!
SUPPORT. Tests of the model: the checks of well-formedness, the manual's worked examples step by step, and for every
statement with hypotheses a concrete state that meets them.
-/

open Sys2Proof Sys2Proof.Machine

namespace Sys2Proof.Tests

-- Each theorem is checked where it stands: the tests of one text then need one thread, not one each.
set_option Elab.async false

/-! ### Well-formedness: a term that each check refuses -/

theorem test_silence_address_0 : (Instr.silenceTimeout 0).wellFormed = false := by decide
theorem test_silence_address_31 : (Instr.silenceTimeout 31).wellFormed = false := by decide
theorem test_removal_address_0 : (Instr.stationRemoval 0).wellFormed = false := by decide
theorem test_removal_address_31 : (Instr.stationRemoval 31).wellFormed = false := by decide
theorem test_watch_address_31 : (Instr.watchFires 31).wellFormed = false := by decide
theorem test_backup_row_2048 : (Instr.backupSupplyFail [⟨2048, 0, .erased⟩]).wellFormed = false := by decide
theorem test_backup_word_64 : (Instr.backupSupplyFail [⟨0, 64, .erased⟩]).wellFormed = false := by decide
theorem test_wake_row_2048 : (Instr.wake ⟨0, false⟩ 0 [⟨2048, 0, .good 1⟩]).wellFormed = false := by decide
theorem test_wake_word_64 : (Instr.wake ⟨0, false⟩ 0 [⟨2047, 64, .good 1⟩]).wellFormed = false := by decide
theorem test_cold_row_2048 : (Instr.coldStart ⟨0, false⟩ .whole [⟨2048, 0, .good 1⟩]).wellFormed = false := by decide
theorem test_cold_word_64 : (Instr.coldStart ⟨0, false⟩ .cut [⟨0, 64, .good 1⟩]).wellFormed = false := by decide
theorem test_commit_row_2048 : (Instr.tariffCommitProgramComplete [⟨2048, 0, .good 1⟩]).wellFormed = false := by
  decide
theorem test_commit_word_64 : (Instr.tariffCommitProgramComplete [⟨0, 64, .good 1⟩]).wellFormed = false := by decide
theorem test_edges_are_well_formed :
    (Instr.silenceTimeout 30).wellFormed = true
      ∧ (Instr.wake ⟨7, true⟩ 0 [⟨2047, 63, .good 1⟩, ⟨0, 0, .erased⟩]).wellFormed = true := by decide

/-! ### Small states -/

/-- The state a command leaves. -/
def after (c : Instr) (s : State) : State :=
  match exec c s with
  | .next t => t
  | .fault _ => s
  | .refused _ => s

/-- A frame of kind k from station a stands alone at the head of the queue, and no reply waits. -/
def asking (a : Nat) (k : ReqKind) (payload : List Byte) (s : State) : State :=
  { s with lif := { s.lif with queue := [⟨a, k.code, payload, false⟩] }, nsc := { s.nsc with replies := [] } }

/-- The state a request leaves. -/
def asked (a : Nat) (k : ReqKind) (payload : List Byte) (s : State) : State :=
  after (commandOf k) (asking a k payload s)

/-- What a request draws: nothing, a refusal, or the bytes of ACCEPTED. -/
def answers (a : Nat) (k : ReqKind) (payload : List Byte) (s : State) : List Answer :=
  (asked a k payload s).nsc.replies.map (fun r => r.answer)

def entry (a : Nat) (r : Role) (p : Option Port) : Station := ⟨a, r, p, true, 0⟩

/-- The bands of the worked examples of 03 section 3.5 and 04 section 4.6. -/
def band0 : BandRates := ⟨false, 300, 4, 50, 200, 40, 700, 550, 400⟩
def band1 : BandRates := ⟨false, 350, 3, 60, 160, 32, 700, 600, 500⟩

def tariff : TariffSet :=
  { general := ⟨5000, .both, 3, true, true, 0⟩, bands := ⟨some band0, some band1, none, none⟩
    switches := [⟨0x1F, 360, 0⟩, ⟨0x1F, 1200, 1⟩]
    extras := [some ⟨100, 1, true⟩, some ⟨500, 3, false⟩, none, none, none, none, none, none]
    zones := [none, none, some 45000, none, none, none] }

/-- A part on shift, with a station of each role and no hire. -/
def cab : State := { State.reset with
  tar := { State.reset.tar with committed := some tariff }
  lif := { State.reset.lif with
    stations := [entry 3 .console none, entry 11 .panel (some .a1), entry 12 .panel (some .a2),
                 entry 9 .sign none, entry 5 .fleet none, entry 6 .printer none, entry 20 .calibrator none] }
  odo := { State.reset.odo with clock := ⟨2041, 3, 8, 19, 59, 59⟩, clockSet := true }
  acc := { State.reset.acc with
    shift := { ShiftRecord.none with state := .opened, number := 31, driver := 42 }, lastShift := 31 }
  jnl := { State.reset.jnl with directory := [⟨31, 1, none, .opened⟩], nextSeq := 2, writePos := 33 }
  cab := { State.reset.cab with duty := .vacant, watches := [Watch.empty 11, Watch.empty 12] } }

def leg12 : Leg :=
  { phase := .opened, number := 12, panel := some 11, share := .shared, openTime := ⟨2041, 3, 8, 19, 0, 0⟩
    booking := none, openBand := 0, regBand := 0, kind := .metered, reg := 399000000000, steps := 10
    farePart := 600, extraCounts := [1, 0, 0, 0, 0, 0, 0, 0], extrasTotal := 100, ceiling := false
    voided := false, interrupted := false, hiredPulses := 0, hiredTicks := 0, sharedTicks := 0, tip := none
    tenders := [], attempts := [], claim := none }

def leg13 : Leg := { leg12 with number := 13, panel := none, reg := 100000000000, steps := 3, farePart := 300 }

/-- The part with legs in its slots and 5 edges counted since the tick. -/
def hired (a b c d : Option Leg) : State := { cab with
  fare := ⟨⟨a, b, c, d⟩, 13⟩
  cab := { cab.cab with duty := .hired, share := some .shared
                        sign := ⟨.share1, false, 43, false, false, false, .waiting, 3⟩ }
  icm := { cab.icm with forced := true }
  odo := { cab.odo with pulseCount := 5 } }

def money3 (s : State) (i : Fin 4) : Option (Nat × Nat × Nat × Nat) :=
  (legAt s i).map (fun l => (l.reg, l.steps, l.farePart, l.extrasTotal))

/-! ### The worked examples of the manual -/

/-- 11 section 11.1: HOLD of leg 300 from address 3 to address 4. -/
theorem test_check_of_hold : buildFrame 3 4 0x15 (le 2 300) = [0xB8, 0x04, 0x15, 0x02, 0x2C, 0x01, 0xFE] := by decide

/-- 01 R1: 0x04 and 0xB8 as characters: start 0, data from the least significant bit, odd parity, stop 1. -/
theorem test_character_bits :
    charBits (sentChar 0x04) = [false, false, false, true, false, false, false, false, false, false, true]
      ∧ charBits (sentChar 0xB8) = [false, false, false, false, true, true, true, false, true, true, true] := by decide

/-- 03 section 3.5: the constants of band 1. -/
theorem test_constants_of_band1 :
    (band1.S 5000, band1.aD, band1.aT 5000, band1.T 5000) = (256000000, 320000, 800000, 256000000000) := by decide

/-- 04 section 4.6, tick 1: leg 12 takes its eleventh step, leg 13 none. -/
theorem test_tick_1 :
    let t := after .fareTick (hired (some leg12) (some leg13) none none)
    money3 t 0 = some (400000000, 11, 650, 100) ∧ money3 t 1 = some (101400000000, 3, 300, 100) := by decide

/-- Tick 2, at 20:00:00: both registers are rescaled to band 1 and gain 1,120,000,000. -/
theorem test_tick_2 :
    let s := hired (some { leg12 with reg := 400000000, steps := 11, farePart := 650 })
      (some { leg13 with reg := 101400000000 }) none none
    let t := after .fareTick { s with odo := { s.odo with clock := ⟨2041, 3, 8, 20, 0, 0⟩ } }
    money3 t 0 = some (1376000000, 11, 650, 100) ∧ money3 t 1 = some (66016000000, 3, 300, 100) := by decide

/-- Tick 4, stopped at a light: the held leg counts in n and stands still. -/
theorem test_tick_4 :
    let s := hired (some { leg12 with phase := .held, reg := 2336000000, regBand := 1 })
      (some { leg13 with reg := 66976000000, regBand := 1 })
      (some { leg13 with number := 14, reg := 960000000, regBand := 1, openBand := 1, steps := 0 }) none
    let t := after .fareTick { s with odo := { s.odo with clock := ⟨2041, 3, 8, 20, 0, 0⟩, pulseCount := 0 } }
    (money3 t 0).map (·.1) = some 2336000000 ∧ (money3 t 1).map (·.1) = some 67456000000
      ∧ (money3 t 2).map (·.1) = some 1440000000 := by decide

/-- 04 section 4.6, the ceiling: the step carries 19 of 50 and sets CEILING. -/
theorem test_tick_at_ceiling :
    let t := after .fareTick (hired (some { leg12 with steps := 65535, farePart := 9999880, reg := 399999999999 })
      none none none)
    (legAt t 0).map (fun l => (l.steps, l.farePart, l.total, l.ceiling)) = some (65535, 9999899, 9999999, true) := by
  decide

/-- 04 section 4.6: an extra at the ceiling is counted and adds nothing; a FLAT replaces the fare part. -/
theorem test_extra_and_flat_at_ceiling :
    let s := hired (some { leg12 with farePart := 9999899, ceiling := true }) none none none
    money3 (asked 3 .extra [12, 0, 1] s) 0 = some (399000000000, 10, 9999899, 100)
      ∧ answers 3 .extra [12, 0, 1] s = [.accepted [12, 0, 1, 1]]
      ∧ money3 (asked 3 .flat [12, 0, 2] s) 0 = some (0, 10, 45000, 100) := by decide

/-- 02 section 2.4: with K = 5,000 a window sum of 7 moves, one of 6 does not. -/
theorem test_moving_threshold :
    (after .fareTick { cab with odo := { cab.odo with window := [9, 0, 0, 0, 1, 1, 1, 1, 1, 1], pulseCount := 1 } }).odo.moving
        = true
      ∧ (after .fareTick { cab with odo := { cab.odo with window := [9, 0, 0, 0, 1, 1, 1, 1, 1, 0], pulseCount := 1 } }).odo.moving
        = false := by decide

/-- 02 section 2.6: Saturday 03:15, Monday 05:59 and Monday 06:00. -/
theorem test_automatic_band :
    let s (t : DateTime) : State := { cab with
      odo := { cab.odo with clock := t }
      tar := { cab.tar with committed := some { tariff with
        bands := ⟨some band0, some band1, some band1, none⟩
        switches := [⟨0x1F, 360, 0⟩, ⟨0x1F, 1200, 1⟩, ⟨0x60, 0, 2⟩] } } }
    automaticBand (s ⟨2041, 3, 9, 3, 15, 0⟩) = 2 ∧ automaticBand (s ⟨2041, 3, 11, 5, 59, 0⟩) = 2
      ∧ automaticBand (s ⟨2041, 3, 11, 6, 0, 0⟩) = 0 := by decide

/-- 07 section 7.2, the mixing examples. -/
theorem test_mixing :
    mix ⟨⟨0, 4096, 0, 0⟩, 2048⟩ ⟨0, 30000, 0, 0⟩ 12000 = 32767 ∧ mix ⟨⟨0, 2048, 0, 0⟩, 0⟩ ⟨0, -1, 0, 0⟩ 0 = -1
      ∧ mix ⟨⟨0, 0, 2048, 0⟩, 0⟩ ⟨0, 0, 1, 0⟩ 0 = 0
      ∧ mix ⟨⟨0, 0, 0, 1024⟩, 2048⟩ ⟨0, 0, 0, -20000⟩ (-16000) = -13000 := by decide

/-- 02 section 2.5: a TIME_SET during a ride is held, answered HELD. -/
theorem test_time_set_during_ride :
    let s := hired (some leg12) none none none
    (asked 5 .timeSet [41, 3, 8, 18, 0, 10] s).odo.pendingTime = some ⟨2041, 3, 8, 18, 0, 10⟩
      ∧ answers 5 .timeSet [41, 3, 8, 18, 0, 10] s = [.accepted [2]] := by decide

/-- 02 R27: a leap day is a date in 2024 and none in 2023; the last second of 2099 wraps. -/
theorem test_calendar :
    answers 5 .timeSet [24, 2, 29, 23, 59, 59] cab = [.accepted [1]]
      ∧ answers 5 .timeSet [23, 2, 29, 0, 0, 0] cab = [.refused .range]
      ∧ answers 5 .timeSet [99, 12, 31, 24, 0, 0] cab = [.refused .range]
      ∧ (⟨2099, 12, 31, 23, 59, 59⟩ : DateTime).next = ⟨2000, 1, 1, 0, 0, 0⟩
      ∧ (⟨2024, 2, 28, 23, 59, 59⟩ : DateTime).next = ⟨2024, 2, 29, 0, 0, 0⟩ := by decide +kernel

/-- 02 R31: bands 0 and 1 are present, 2 is not, 4 is no band, 255 is AUTO. -/
theorem test_band_answers :
    [0, 1, 2, 3, 4, 254, 255].map (fun b => answers 3 .band [b] cab)
      = [[.accepted []], [.accepted []], [.refused .range], [.refused .range], [.refused .range], [.refused .range],
         [.accepted []]] := by decide

/-- 05 R79's table. -/
theorem test_duty_table :
    let s (d : Duty) : State := { cab with cab := { cab.cab with duty := d } }
    [Duty.vacant, .offDuty, .booked, .hired].map (fun d => (answers 3 .duty [1] (s d), answers 3 .duty [2] (s d)))
        = [([.accepted [1]], [.accepted [2]]), ([.accepted [1]], [.accepted [2]]),
           ([.accepted [1]], [.refused .state]), ([.refused .state], [.refused .state])]
      ∧ answers 3 .duty [0] cab = [.refused .range] ∧ answers 3 .duty [3] cab = [.refused .range] := by decide

/-- 05 R80: SET, CANCEL without a booking, and lengths that fit no action. -/
theorem test_book_answers :
    answers 5 .book [1, 1, 2, 3, 4, 5, 6, 7, 8] cab = [.accepted []] ∧ answers 5 .book [2] cab = [.refused .state]
      ∧ answers 5 .book [1] cab = [.refused .range] ∧ answers 5 .book [3] cab = [.refused .range]
      ∧ (asked 5 .book [1, 1, 2, 3, 4, 5, 6, 7, 8] cab).cab.booking = some [1, 2, 3, 4, 5, 6, 7, 8] := by decide

/-- 04 R54 and R55: the flag fall and the automatic extra at open, in the lowest FREE slot. -/
theorem test_hire_opens :
    let s := hired (some leg12) (some leg13) none none
    answers 3 .hire [12, 1, 255] s = [.accepted [14, 0, 2]]
      ∧ money3 (asked 3 .hire [12, 1, 255] s) 2 = some (0, 0, 300, 100)
      ∧ (asked 3 .hire [12, 1, 255] s).cab.sign.pattern = .hired := by decide +kernel

/-- 04 R54, at the edges of its fields: share 2, zones 5 and 6, a SOLO hire into a shared cab, an absent panel. -/
theorem test_hire_refusals :
    answers 3 .hire [0, 2, 255] cab = [.refused .range] ∧ answers 3 .hire [0, 0, 5] cab = [.refused .range]
      ∧ answers 3 .hire [0, 0, 6] cab = [.refused .range] ∧ answers 3 .hire [0, 0, 2] cab = [.accepted [1, 0, 0]]
      ∧ answers 3 .hire [0, 0, 255] (hired (some leg12) none none none) = [.refused .noSlot]
      ∧ answers 3 .hire [13, 0, 255] cab = [.refused .absent]
      ∧ answers 3 .hire [11, 1, 255] (hired (some leg12) none none none) = [.refused .state] := by decide +kernel

/-- 06, worked example: the leg of its tables. -/
def leg21 : Leg := { leg12 with number := 21, phase := .held, farePart := 4600, extrasTotal := 250, share := .solo }

def held (l : Leg) : State := hired none (some l) none none

/-- HOLD of leg 21 offers it, and a FARE prompt goes to A1. -/
theorem test_hold_offers :
    let t := asked 3 .hold [21, 0] (held { leg21 with phase := .opened })
    t.nsc.offers.get 1 = some ⟨21, 4850, 0, 4850, 1, 0, 0⟩ ∧ t.icm.prompts = [⟨.fare, onlySpk 1⟩] := by decide

/-- 04 R58: a RESUME of leg 12 in band 1 rescales its register, and one with a tender is refused. -/
theorem test_resume_rescales :
    let s := held { leg21 with reg := 400000000 }
    (money3 (asked 3 .resume [21, 0] { s with odo := { s.odo with vehicleBand := 1 } }) 1).map (·.1) = some 256000000
      ∧ answers 3 .resume [21, 0] (held { leg21 with tenders := [⟨.cash, 1⟩] }) = [.refused .state] := by decide

/-- 04 R59: a leg with no step is voided, one with a step is not. -/
theorem test_void :
    answers 3 .void [21, 0] (held { leg21 with phase := .opened, steps := 0 }) = [.accepted []]
      ∧ answers 3 .void [21, 0] (held { leg21 with phase := .opened, steps := 1 }) = [.refused .state] := by decide +kernel

theorem test_claims :
    answers 11 .payClaim [21, 0] (held leg21) = [.accepted [21, 0, 60, 0, 0, 0]]
      ∧ answers 3 .payClaim [21, 0] (held { leg21 with claim := some ⟨11, .panel, some 0⟩ }) = [.refused .claimed] := by decide

/-- Attempt 1 of leg 21: tip 150, amount 2,500. -/
theorem test_pay_start :
    let s := held { leg21 with claim := some ⟨11, .panel, some 864000000⟩ }
    let t := asked 11 .payStart ([21, 0, 1] ++ le 4 150 ++ le 4 2500) s
    (legAt t 1).map (fun l => (l.phase, l.due, l.claim)) = some (.paying, 5000, some ⟨11, .panel, none⟩)
      ∧ t.nsc.offers.get 1 = none
      ∧ answers 11 .payStart ([21, 0, 1] ++ le 4 100000 ++ le 4 2500) s = [.refused .range]
      ∧ answers 11 .payStart ([21, 0, 1] ++ le 4 150 ++ le 4 5001) s = [.refused .range]
      ∧ answers 11 .payStart ([21, 0, 2] ++ le 4 150 ++ le 4 2500) s = [.refused .range] := by decide

/-- Leg 21 with its first card applied and its second attempt in the state st. -/
def second (st : AttemptState) (p : LegPhase) : State :=
  held { leg21 with phase := p, tip := some 150, tenders := [⟨.card 1 [1, 2, 3, 4, 5, 6], 2500⟩]
                    attempts := [⟨1, 11, 2500, .approved⟩, ⟨2, 11, 2500, st⟩]
                    claim := if p = .paying then some ⟨11, .panel, none⟩ else none }

/-- The second card approved in time settles the leg. -/
theorem test_pay_result_settles :
    let t := asked 11 .payResult ([21, 0, 2, 1] ++ le 4 2500 ++ [1, 2, 3, 4, 5, 6]) (second (.inFlight 1296000000) .paying)
    (legAt t 1).map (fun l => (l.phase, l.due)) = some (.closing, 0) ∧ t.acc.shift.totals.card = 5000
      ∧ t.acc.shift.totals.tips = 150 := by decide +kernel

/-- 06 R99: address and role are the holder's identity, so a console at the address of a panel's claim is not its holder,
neither of the attempt kept in flight nor of a claim on a HELD leg. -/
theorem test_console_is_not_panel :
    let console (s : State) : State := { s with lif := { s.lif with stations := [entry 11 .console none] } }
    let flying := console (second (.inFlight 1296000000) .paying)
    answers 11 .payResult ([21, 0, 2, 2] ++ le 4 0 ++ [1, 2, 3, 4, 5, 6]) flying = [.refused .notHolder]
      ∧ answers 11 .payCancel [21, 0] flying = [.refused .notHolder]
      ∧ answers 11 .payClaim [21, 0] (console (held { leg21 with claim := some ⟨11, .panel, some 0⟩ }))
        = [.refused .claimed] := by decide +kernel

/-- 90 s pass: INDETERMINATE, listed, offered again with next attempt 3. -/
theorem test_attempt_deadline :
    let t := after (.attemptDeadline 1) (second (.inFlight 1296000000) .paying)
    t.acc.unresolved = [⟨21, 2, 2500, 11⟩] ∧ t.nsc.offers.get 1 = some ⟨21, 4850, 150, 2500, 3, 1, 0⟩
      ∧ t.icm.prompts = [⟨.timeout, onlySpk 1⟩] := by decide

/-- CASH of 3,000 settles leg 21: tender 2,500, change 500. -/
theorem test_cash_settles :
    let s := second .indeterminate .held
    answers 3 .cash ([21, 0] ++ le 4 3000) s
        = [.accepted ([21, 0] ++ le 4 2500 ++ le 4 500 ++ le 4 0 ++ [1])]
      ∧ (asked 3 .cash ([21, 0] ++ le 4 3000) s).acc.shift.totals.cash = 2500
      ∧ answers 3 .cash ([21, 0] ++ le 4 0) s = [.refused .range]
      ∧ answers 3 .cash ([21, 0] ++ le 4 100000000) s = [.refused .range] := by decide +kernel

/-- The late answer: listed and TOO_LATE for the closed leg, applied while the leg is HELD, BUSY while PAYING. -/
theorem test_late_answer :
    let late := [21, 0, 2, 1] ++ le 4 2500 ++ [1, 2, 3, 4, 5, 6]
    let gone : State := { cab with acc := { cab.acc with unresolved := [⟨21, 2, 2500, 11⟩] } }
    answers 11 .payResult late gone = [.refused .tooLate] ∧ (asked 11 .payResult late gone).acc.late.length = 1
      ∧ answers 11 .payResult late cab = [.refused .unknownLeg]
      ∧ (legAt (asked 11 .payResult late (second .indeterminate .held)) 1).map (fun l => (l.phase, l.due))
        = some (.closing, 0)
      ∧ answers 11 .payResult late (second .indeterminate .held) = [.accepted (le 4 2500 ++ le 4 0 ++ [1])]
      ∧ answers 11 .payResult late (second .indeterminate .paying) = [.refused .busy] := by decide +kernel

/-- 06 R114: the tip's range, and a tip with a tender applied. -/
theorem test_tip :
    answers 3 .tip ([21, 0] ++ le 4 99999) (held leg21) = [.accepted ([21, 0] ++ le 4 99999 ++ le 4 104849)]
      ∧ answers 3 .tip ([21, 0] ++ le 4 100000) (held leg21) = [.refused .range]
      ∧ answers 3 .tip ([21, 0] ++ le 4 1) (second .indeterminate .held) = [.refused .state] := by decide

/-- 06 R108: a PAY_CANCEL of the attempt in flight returns the leg to HELD. -/
theorem test_pay_cancel :
    (legAt (asked 11 .payCancel [21, 0] (second (.inFlight 5) .paying)) 1).map (fun l => l.phase) = some .held
      ∧ answers 3 .payCancel [21, 0] (second (.inFlight 5) .paying) = [.refused .notHolder] := by decide

/-- 05 section 5.2: a report one behind is old; the one that agrees confirms and reports the rear lamps. -/
theorem test_sign_state :
    (asked 9 .signState [6, 42, 0] (hired none none none none)).cab.sign.confirm = .waiting
      ∧ (asked 9 .signState [5, 43, 2] (hired none none none none)).cab.sign
        = ⟨.share1, false, 43, false, true, false, .confirmed, 0⟩ := by decide

/-- 05 R83 at a party capacity of 3: the pattern counts the places left. -/
theorem test_sign_table :
    let l := some leg12
    (hired l none none none).cab.share = some .shared ∧ commandedPattern (hired l none none none) = .share2
      ∧ commandedPattern (hired l l none none) = .share1 ∧ commandedPattern (hired l l l none) = .hired
      ∧ commandedPattern { hired l none none none with cab := { (hired l none none none).cab with share := some .solo } } = .hired
      ∧ commandedPattern cab = .vacant := by decide +kernel

/-- 05 section 5.2: the 4 s expiry makes the record LOST and counts a sign fault. -/
theorem test_sign_lost :
    let s := hired none none none none
    let t := after .signResendTimer { s with cab := { s.cab with signDue := some 5 } }
    t.cab.sign.confirm = .lost ∧ t.acc.shift.totals.signFaults = 1 ∧ t.cab.signDue = some 72000005 := by decide +kernel

/-- 05 section 5.3: panel 12's watch fires at 600 while panel 11's seat is covered. -/
theorem test_seat_watch_fires :
    let s := hired (some leg12) none none none
    let t := after (.watchFires 12) { s with
      cab := { s.cab with watches := [⟨11, true, 0, false⟩, ⟨12, true, 599, false⟩] }
      odo := { s.odo with window := [9, 9, 9, 9, 9, 9, 9, 9, 9, 9] } }
    t.cab.watches = [⟨11, true, 0, false⟩, ⟨12, true, 600, true⟩] ∧ t.acc.shift.totals.unmetered = 1
      ∧ t.flt.latched = 0x440 := by decide +kernel

theorem test_seat_report :
    (asked 11 .seat [1] cab).cab.watches = [⟨11, true, 0, false⟩, Watch.empty 12]
      ∧ (asked 11 .seat [3] cab).cab.watches = cab.cab.watches := by decide

/-- A state with A1 in a phase and A2 waiting. -/
def calls (a1 : CallPhase) (q : List QEntry) : State := { cab with
  icm := { cab.icm with calls := ⟨⟨a1, .none, 43200000, 7⟩, ⟨if q = [] then .idle else .queued, .none, 0, 0⟩, CallRec.idle⟩
                        queue := q, holdDue := 1728000000, ringDue := some 86400000
                        prompts := if a1 = .ringing then [⟨.ring, onlySpk 0⟩] else [] } }

def waiting12 : QEntry := ⟨.a2, 12, true, 0⟩

/-- 07, worked example: the first call rings, the second waits, URGENT moves none from the driver's speaker. -/
theorem test_call :
    callPhase (asked 11 .call [1] cab) .a1 = .ringing ∧ callPhase (asked 12 .call [1] (calls .ringing [])) .a2 = .queued
      ∧ ((asked 12 .call [2] (calls .linked [{ waiting12 with urgent := false }])).nsc.calls.get .a2)
        = some ⟨12, .queued, .none, true, 1⟩ := by decide

theorem test_answer :
    let t := asked 3 .answer [] (calls .ringing [])
    callPhase t .a1 = .linked ∧ t.icm.prompts = [] ∧ t.icm.ringDue = none
      ∧ answers 3 .answer [] (calls .ringing []) = [.accepted [1]] ∧ answers 3 .answer [] cab = [.refused .state] := by
  decide

/-- 07 R139: an answer cuts off the RING in play, and the waiting PAID entry becomes the play. -/
theorem test_answer_starts_next_play :
    let s := calls .ringing []
    let t := asked 3 .answer [] { s with icm := { s.icm with
      prompts := [⟨.paid, onlySpk 0⟩], player := .playing .ring (onlySpk 0) 0 9 0 } }
    t.icm.player = .playing .paid (onlySpk 0) 0 1920 0 ∧ t.icm.prompts = [] := by decide

/-- The eighth boundary times A1 out; an END_CALL after it changes nothing and is accepted. -/
theorem test_hold_limit :
    let t := after .holdBoundary (calls .linked [waiting12])
    callRec t .a1 = ⟨.releasing, .timedOut, 43200000, 8⟩ ∧ callPhase t .a2 = .queued
      ∧ t.icm.prompts = [⟨.timeout, onlySpk 1⟩] := by decide

theorem test_end_call :
    answers 3 .endCall [] (calls .releasing [waiting12]) = [.accepted [1, 4]]
      ∧ callPhase (asked 3 .endCall [] (calls .linked [])) .a1 = .releasing
      ∧ answers 3 .endCall [] cab = [.refused .state] := by decide

/-- The sample period that finds A1's microphone silent frees it and grants A2. -/
theorem test_release_grants :
    let t := after (.samplePeriod 0 0 0 0) (calls .releasing [waiting12])
    callPhase t .a1 = .idle ∧ callPhase t .a2 = .ringing ∧ t.icm.queue = [] := by decide

/-- 07 R123: a gain moves by 32, and a target within 32 is reached. -/
theorem test_ramp : rampStep 4096 1024 = 4064 ∧ rampStep 0 2048 = 32 ∧ rampStep 1040 1024 = 1024 := by decide

theorem test_talk_answers :
    [[1, 1], [1, 3], [1, 4], [1, 5], [2, 0], [3, 1]].map (fun p => answers 3 .talk p cab)
      = [[.accepted [1, 1]], [.refused .absent], [.accepted [1, 4]], [.refused .range], [.accepted [2, 0]],
         [.refused .range]] := by decide

theorem test_privacy_answers :
    [0, 1, 2, 3].map (fun b => answers 3 .privacy [b] cab)
        = [[.refused .range], [.accepted [1, 0]], [.accepted [0, 0]], [.refused .range]]
      ∧ answers 3 .privacy [2] (hired none none none none) = [.refused .state] := by decide

/-- 10 R182, R184: a set latched fault without its cause clears; index 16 is no fault. -/
theorem test_fault_ack :
    (asked 3 .faultAck [10] State.reset).flt = State.reset.flt
      ∧ (asked 3 .faultAck [10] { cab with flt := ⟨0x400, true⟩ }).flt = ⟨0, false⟩
      ∧ answers 3 .faultAck [16] cab = [.refused .range] := by decide

/-- 10 R182, R185: an UNSET clock and a LOST sign are live; the mask of the committed tariff, or its absence, sets the warning. -/
theorem test_warning :
    let s (mask : BitVec 16) : State := { cab with
      flt := ⟨0, false⟩, odo := { cab.odo with clockSet := false }
      cab := { cab.cab with sign := { cab.cab.sign with confirm := .lost } }
      tar := { cab.tar with committed := some { tariff with general := { tariff.general with mask := mask } } } }
    faultWord (s 0) = 0x1800 ∧ warning (s 0) = false ∧ warning (s 0x1000) = true ∧ warning (s 0xE7FF) = false
      ∧ warning { s 0 with tar := State.reset.tar } = true
      ∧ ({ cab with nsc := { cab.nsc with announce := true } } : State).nsc.announce = true := by decide +kernel

/-- 09, worked example: 3 free rows for 2 occupied legs refuse a HIRE and decline no leg row. -/
theorem test_reserve_near_full :
    let s := hired (some leg12) (some leg13) none none
    let j : State := { s with jnl := { s.jnl with
      writePos := 925, sectors := List.replicate 126 ⟨false, some (1, 9), false⟩ } }
    freeRows j = 3 ∧ answers 3 .hire [0, 1, 255] j = [.refused .journalFull] := by decide

/-- 09, worked example: the release of shift 23 makes three sectors reclaimable and starts the erase of the first. -/
theorem test_release_starts_erase :
    let j : State := { cab with jnl := { cab.jnl with
      writePos := 925
      directory := [⟨23, 1000, some 1052, .read⟩, ⟨24, 1053, some 1100, .closed⟩, ⟨31, 4000, none, .opened⟩]
      sectors := List.replicate 55 ⟨false, some (4000, 4001), false⟩ ++ [⟨false, some (4048, 4059), false⟩,
        ⟨false, some (1000, 1015), false⟩, ⟨false, some (1016, 1031), false⟩, ⟨false, some (1032, 1047), false⟩,
        ⟨false, some (1048, 1063), false⟩] ++ List.replicate 66 ⟨false, some (1100, 1101), false⟩ } }
    let t := asked 5 .journalRelease [23, 0] j
    freeRows j = 3 ∧ freeRows t = 51 ∧ t.jnl.inFlight = some (.journalErase 58)
      ∧ t.jnl.directory.map (fun d => d.state) = [.released, .closed, .opened] := by decide

/-- 09 R173: the last sector whose range a RELEASED entry meets holds it in the directory until it is erased. -/
theorem test_released_entry_leaves :
    let j (range : Nat × Nat) (op : Option ArrayOp) (state : DirState) : State := { cab with jnl := { cab.jnl with
      inFlight := op, directory := [⟨23, 1000, some 1052, state⟩, ⟨31, 4000, none, .opened⟩]
      sectors := List.replicate 125 ⟨true, none, false⟩ ++ [⟨false, some range, true⟩] } }
    let kept (t : State) : List Nat := t.jnl.directory.map (fun d => d.shift)
    kept (asked 5 .journalRelease [23, 0] (j (1052, 1060) none .read)) = [23, 31]
      ∧ kept (asked 5 .journalRelease [23, 0] (j (1053, 1060) none .read)) = [31]
      ∧ kept (after .journalEraseComplete (j (1052, 1060) (some (.journalErase 127)) .released)) = [31]
      ∧ kept (after .journalEraseComplete (j (1052, 1060) (some (.journalErase 126)) .released)) = [23, 31] := by
  decide +kernel

/-- A record's program waits at FREE row 0 of sector 4, which the shift `state` holds. -/
def waitingAt4 (state : DirState) : State := { cab with jnl := { cab.jnl with
  writePos := 64, waitsErase := true, append := [⟨4048, .event ⟨31, DateTime.epoch, .assist 1⟩⟩], nextSeq := 4049
  directory := [⟨23, 1000, some 1052, state⟩, ⟨31, 4000, none, .opened⟩]
  sectors := List.replicate 2 ⟨false, some (4000, 4001), false⟩ ++ [⟨false, some (1000, 1015), false⟩, ⟨true, none, false⟩]
    ++ List.replicate 122 ⟨false, some (4000, 4001), false⟩ } }

/-- 09 R165, first case: the release makes the sector reclaimable, and the program still waits for its erase; R167: no
row beyond the held sector is counted. -/
theorem test_program_waits_for_erase :
    let s := waitingAt4 .read
    let t := asked 5 .journalRelease [23, 0] s
    freeRows s = 15 ∧ opPending isJournalProgram t = false ∧ t.jnl.inFlight = some (.journalErase 4)
      ∧ (after .journalEraseComplete t).jnl.inFlight = some (.journalProgram 64) := by decide +kernel

/-- 09 R164, R176: a DAMAGED row's content is its words as read, any other row's the corrected ones. -/
theorem test_damaged_row_is_as_read :
    let x : Row := (rowOfRecord ⟨1, .event ⟨31, DateTime.epoch, .assist 1⟩⟩).set 9 (.corrected 0x0102 (some 3))
    ((contentBytes x).drop 18).take 2 = [0x02, 0x01]
      ∧ ((contentBytes (x.set 20 (.uncorrectable 5))).drop 18).take 2 = [0x0A, 0x01] := by decide +kernel

/-- 09 R170, R174: what a row holds when its program completes, and the first frame of a read-out of it. -/
def stored : State := { cab with
  array := [(32, rowOfRecord ⟨1, .shiftOpen ⟨31, 42, ⟨2041, 3, 8, 8, 0, 0⟩, 77⟩⟩)] }

theorem test_journal_read :
    (asked 5 .journalRead [31, 0] stored).nsc.journal.isSome = true
      ∧ answers 5 .journalRead [31, 0] stored = [.accepted [31, 0, 1, 0, 0, 0, 1]]
      ∧ answers 5 .journalRead [31, 0, 2, 0] stored = [.refused .range]
      ∧ answers 5 .journalRead [30, 0] stored = [.refused .range] := by decide

/-- 09 R177: a read that waited for the array and finds no row of its index gives JOURNAL_END. -/
theorem test_waiting_read_without_row :
    let s : State := { stored with jnl := { stored.jnl with
      inFlight := some (.journalErase 9), cursor := some ⟨31, 5, 4, 0, 4, true, none, true⟩ } }
    (after .journalEraseComplete s).nsc.journal = some (.fin 31 4 true) := by decide +kernel

theorem test_credits :
    (asked 6 .printCredit [16] cab).acc.credit = 16 ∧ (asked 6 .printCredit [17] cab).acc.credit = 0
      ∧ (asked 6 .printCredit [16] { cab with acc := { cab.acc with credit := 20 } }).acc.credit = 32
      ∧ (asked 5 .journalCredit [16] cab).jnl.credit = 0 := by decide

/-- 03, worked example: the commit checks of the calibration session, before and after the shares are in order. -/
def area (f4 : Nat) : State :=
  let part (n : Nat) (p : List Byte) : Nat × Row := (n, rowOfPart n p)
  { cab with
    tar := ⟨none, .loading, 3⟩
    array := [part 0 ([1, 0] ++ le 2 5000 ++ [3, 3, 1, 1] ++ le 2 0),
      part 1 ([2, 0, 1] ++ le 4 300 ++ [4] ++ le 2 50 ++ le 2 200 ++ le 2 40 ++ le 2 700 ++ le 2 550 ++ le 2 400),
      part 2 ([2, 1, 1] ++ le 4 350 ++ [3] ++ le 2 60 ++ le 2 160 ++ le 2 32 ++ le 2 700 ++ le 2 600 ++ le 2 f4)] }

theorem test_commit_checks :
    answers 20 .tariffCommit [] (area 650) = [.refused .range]
      ∧ (asked 20 .tariffCommit [] (area 500)).tar.window = .writing
      ∧ answers 20 .tariffCommit [] cab = [.refused .state] := by decide

/-- The program of the commit row makes the set of the live rows the committed tariff. -/
theorem test_commit_reads_back :
    let s := area 500
    let t := after (.tariffCommitProgramComplete []) { s with jnl := { s.jnl with inFlight :=
      (asked 20 .tariffCommit [] s).jnl.inFlight } }
    t.tar.committed.map (fun c => (c.general.K, c.bands)) = some (5000, ⟨some band0, some band1, none, none⟩)
      ∧ t.tar.window = .closed ∧ t.nsc.replies.map (fun r => r.answer) = [.accepted []] := by decide

/-- 03 R39: with a part row before it wiped to FREE the commit row makes no set. -/
theorem test_commit_needs_every_row :
    let s := area 500
    let live := liveRows s.array
    let whole := s.array ++ [(3, rowOfCommit 3 live.length (contentSums live))]
    (committedIn whole).isSome = true ∧ committedIn (whole.filter (fun e => decide (e.1 ≠ 2))) = none := by
  decide +kernel

/-- 03 R43: section 6, GENERAL index 1, K below 1,000, and a good GENERAL. -/
theorem test_part_checks :
    let s := area 500
    answers 20 .tariffPart ([6, 0] ++ le 2 5000 ++ [3, 3, 1, 1] ++ le 2 0) s = [.refused .range]
      ∧ answers 20 .tariffPart ([1, 1] ++ le 2 5000 ++ [3, 3, 1, 1] ++ le 2 0) s = [.refused .range]
      ∧ answers 20 .tariffPart ([1, 0] ++ le 2 999 ++ [3, 3, 1, 1] ++ le 2 0) s = [.refused .range]
      ∧ (asked 20 .tariffPart ([1, 0] ++ le 2 1000 ++ [3, 3, 1, 1] ++ le 2 0) s).tar.window = .writing
      ∧ answers 20 .tariffPart ([1, 0] ++ le 2 1000 ++ [3, 3, 1, 1] ++ le 2 0)
          { s with tar := { s.tar with written := 31 } } = [.refused .limit] := by decide

theorem test_tariff_begin :
    answers 20 .tariffBegin [] cab = [.refused .state]
      ∧ (asked 20 .tariffBegin [] { cab with tar := { cab.tar with window := .opened } }).tar
        = ⟨none, .erasing, 0⟩ := by decide

/-- 08 R145: a driver of 0 and of 1,000,000; a shift already open. -/
theorem test_shift_open :
    let s : State := { cab with acc := { cab.acc with shift := ShiftRecord.none }, jnl := { cab.jnl with directory := [] } }
    answers 3 .shiftOpen (le 4 0) s = [.refused .range] ∧ answers 3 .shiftOpen (le 4 1000000) s = [.refused .range]
      ∧ answers 3 .shiftOpen (le 4 999999) s = [.accepted [32, 0]]
      ∧ answers 3 .shiftOpen (le 4 1) cab = [.refused .state] := by decide +kernel

theorem test_shift_close :
    answers 3 .shiftClose [] cab = [.accepted [31, 0]]
      ∧ answers 3 .shiftClose [] (hired (some leg12) none none none) = [.refused .state]
      ∧ (asked 3 .shiftClose [] cab).cab.duty = .noShift := by decide +kernel

/-- 10, worked example: a cold start finds the shift that was left open and closes it as ABANDONED. -/
theorem test_cold_start_abandons :
    let t := after (.coldStart ⟨3, false⟩ .whole []) { stored with pwr := { cab.pwr with state := .off } }
    t.odo.odometer = 77 ∧ t.acc.lastShift = 31 ∧ t.jnl.append.length = 1 ∧ t.jnl.nextSeq = 3
      ∧ t.lif.address = 4 := by decide +kernel

/-- 01 section 1.6: the frame of R2 arrives character by character; this is its last. -/
theorem test_frame_enters_queue :
    let t := after (.rxFrameComplete ⟨0xFE, false, true⟩)
      { cab with lif := { cab.lif with address := 4, rx := .frame false [0xB8, 0x04, 0x15, 0x02, 0x2C, 0x01] } }
    t.lif.queue = [⟨3, 0x15, [0x2C, 0x01], false⟩] ∧ t.lif.rx = .skip := by decide

/-- 01 R18, R19: a break's end, and ANNOUNCE. -/
theorem test_break :
    let t := after (.lineBreak 100) (asking 3 .hold [21, 0] cab)
    t.lif.queue = [] ∧ t.nsc.announce = true ∧ t.lif.announceDue = t.time + 28800000 := by decide

/-- 01 R6: a new panel that names A3 is bound to it. -/
theorem test_announce_binds :
    stationOf (asked 13 .announce [2, 3] cab) 13 = some ⟨13, .panel, some .a3, true, 0⟩
      ∧ stationOf (asked 13 .announce [2, 1] cab) 13 = some ⟨13, .panel, none, true, 0⟩
      ∧ (asked 11 .announce [1, 0] cab).flt.latched = 0x408 := by decide

/-- 01 R8, R9: the times of an entry's silence. -/
theorem test_silence :
    (stationOf (after (.silenceTimeout 12) cab) 12).map (fun e => e.present) = some false
      ∧ (after (.silenceTimeout 12) cab).time = 86400000 := by decide

/-- 05 R85, R87: a SIGN entry that falls silent makes the record LOST, counts a sign fault and starts the 5 s timer. -/
theorem test_sign_silence :
    let t := after (.silenceTimeout 9) cab
    t.cab.sign.confirm = .lost ∧ t.cab.signDue = some 158400000 ∧ t.acc.shift.totals.signFaults = 1
      ∧ t.jnl.append.length = 1 := by decide +kernel

/-- 08 R150: the money totals rise as a group up to 999,999,999, and one that would pass it holds them all; 05 R81, 07
R137: the settled leg leaves the cab VACANT and privacy no longer forced. -/
theorem test_settled_leg_is_counted :
    let s (tips : Nat) : State := { second .indeterminate .held with acc := { cab.acc with
      shift := { cab.acc.shift with totals := { Totals.zero with tips := tips } } } }
    let t (tips : Nat) := asked 3 .cash ([21, 0] ++ le 4 2500) (s tips)
    (t 999999849).acc.shift.totals.tips = 999999999 ∧ (t 999999849).acc.shift.totals.moneyHeld = 0
      ∧ (t 999999850).acc.shift.totals = { Totals.zero with legsClosed := 1, tips := 999999850, moneyHeld := 1 }
      ∧ (t 0).cab.duty = .vacant ∧ (t 0).icm.forced = false ∧ (t 0).acc.jobs.length = 1 := by decide +kernel

/-- 02 R23: 256 edges are taken as 255 with PULSE_OVERRUN, 255 as they are. -/
theorem test_pulse_overrun :
    (after .fareTick { cab with odo := { cab.odo with pulseCount := 256 } }).odo.odometer = 255
      ∧ (after .fareTick { cab with odo := { cab.odo with pulseCount := 256 } }).flt.latched = 0x420
      ∧ (after .fareTick { cab with odo := { cab.odo with pulseCount := 255 } }).flt.latched = 0x400 := by decide

/-- 05 R91: the first press counts 1, the 256th stays 255. -/
theorem test_press :
    let s : State := { cab with odo := { cab.odo with detector := .timing } }
    (after .assistPress s).cab.presses = 1
      ∧ (after .assistPress { s with cab := { s.cab with latch := true, presses := 255 } }).cab.presses = 255 := by decide +kernel

/-- 01 R14: the sixteenth loss drops the frame with LINE_CONTENTION. -/
theorem test_sixteen_losses :
    let s (n : Nat) : State := { cab with
      lif := { cab.lif with tx := ⟨some .announce, n, some [sentChar 1], false⟩ } }
    (after .attemptLost (s 14)).lif.tx = ⟨some .announce, 15, none, false⟩
      ∧ (after .attemptLost (s 15)).lif.tx = Transmitter.free ∧ (after .attemptLost (s 15)).flt.latched = 0x401 := by decide

/-- 01 R14: the end of the claim of a printer silent for 36 s takes its credit, and the item held between attempts is let
go. -/
theorem test_unsendable_item_is_let_go :
    let l : Leg := { leg21 with claim := some ⟨6, .panel, some 600000000⟩ }
    let s := held l
    let t := after (.claimDeadline 1) { s with
      lif := { s.lif with stations := [⟨6, .printer, none, false, 0⟩], tx := ⟨some .print, 2, none, false⟩ }
      acc := { s.acc with credit := 3 }, nsc := { s.nsc with print := some ⟨1, 1, []⟩ } }
    t.lif.stations = [] ∧ t.acc.credit = 0 ∧ t.lif.tx = Transmitter.free := by decide +kernel

/-- A part whose print queue is full, its first and third jobs receipts of which no item was sent. -/
def printing : State :=
  let record := legRecord cab leg21
  let report : Job := ⟨.report ⟨30, false, 42, DateTime.epoch, DateTime.epoch, 0, 0, Totals.zero⟩ [] [], 0⟩
  { cab with
    acc := { cab.acc with credit := 3, jobs := [⟨.receipt record 0, 0⟩, report, ⟨.receipt record 0, 0⟩, report] }
    nsc := { cab.nsc with print := (jobItems (.receipt record 0))[0]? }
    lif := { cab.lif with tx := ⟨some .print, 2, none, false⟩ } }

/-- 08 R156: a close that finds the print queue full pushes out its oldest receipt of which no item was sent, whose held
item is withdrawn. -/
theorem test_full_print_queue :
    let t := asked 3 .shiftClose [] printing
    t.acc.jobs.length = 4 ∧ t.acc.jobs.take 3 = printing.acc.jobs.drop 1 ∧ t.flt.latched = 0x600
      ∧ t.lif.tx = Transmitter.free := by decide +kernel

/-! ### Witnesses: for each statement a state and operands that meet its hypotheses together -/

/-- The frame that asks. -/
def frame (a : Nat) (k : ReqKind) (payload : List Byte) : QFrame := ⟨a, k.code, payload, false⟩

theorem witness_step_runs_front_command :
    ({ cab with pending := [.fareTick, .clockSecond] } : State).pending = .fareTick :: [.clockSecond] := by decide

theorem witness_every_command_answers :
    (Instr.wake ⟨0, false⟩ 0 [⟨2047, 63, .good 1⟩]).upsets.all Upset.inArray = true
      ∧ (Instr.wake ⟨0, false⟩ 0 [⟨2048, 0, .good 1⟩]).upsets.all Upset.inArray = false
      ∧ (Instr.wake ⟨0, false⟩ 0 [⟨0, 64, .good 1⟩]).upsets.all Upset.inArray = false := by decide

/-- From SKIP, and in a frame: LEN 48, and 49, which is no LEN. -/
theorem witness_characters_move_receiver :
    cab.pwr.state = .active ∧ completesFrame ⟨48, true, true⟩ cab.lif.rx = false ∧ cab.lif.rx ≠ .ready
      ∧ completesFrame ⟨48, true, true⟩ (.frame false [0xB8, 4, 0x15]) = false
      ∧ completesFrame ⟨49, false, true⟩ (.frame false [0xB8, 4, 0x15]) = false
      ∧ completesFrame ⟨0xB8, true, true⟩ .ready = false := by decide

theorem witness_complete_frame :
    let s : State := { cab with lif := { cab.lif with rx := .frame false [0xB8, 0x04, 0x15, 0x02, 0x2C, 0x01] } }
    s.pwr.state = .active ∧ s.lif.rx = .frame false [0xB8, 0x04, 0x15, 0x02, 0x2C, 0x01]
      ∧ wantsCheck [0xB8, 0x04, 0x15, 0x02, 0x2C, 0x01] = true ∧ charBad ⟨0xFE, false, true⟩ = false
      ∧ leadAddress ([0xB8, 0x04, 0x15, 0x02, 0x2C, 0x01].getD 0 0) = some 3 := by decide

/-- A kind that is none of R10's; a request from no entry, one from a role that may not send it, one of a wrong length. -/
theorem witness_failed_line_checks :
    ReqKind.ofCode 0x99 = none ∧ ReqKind.ofCode (frame 3 .tip []).kind = some .tip
      ∧ (asking 30 .tip [] cab).lif.queue = [frame 30 .tip []]
      ∧ ((stationOf (asking 30 .tip [] cab) 30).all (fun e => !mayRole e.role .tip || !(lengths .tip).contains 0)) = true
      ∧ ((stationOf (asking 9 .tip [] cab) 9).all (fun e => !mayRole e.role .tip || !(lengths .tip).contains 6)) = true
      ∧ ((stationOf (asking 3 .tip [] cab) 3).all (fun e => !mayRole e.role .tip || !(lengths .tip).contains 5)) = true := by
  decide +kernel

theorem witness_announce_timer_and_break : cab.pwr.state = .active := by decide

/-- The reset state's SIGN_SET is sendable once a sign is PRESENT, and it is the choice. -/
theorem witness_choice : chooseNotice cab = some .sign ∧ sendable cab .sign = true ∧ sendable cab .announce = true := by
  decide

theorem witness_attempt_begins :
    cab.pwr.state = .active ∧ cab.lif.tx.sending = none ∧ cab.lif.tx.held = none
      ∧ chooseNotice { cab with time := max cab.time (cab.lif.lineFree + 5500) } = some .sign
      ∧ (frameFor { cab with time := max cab.time (cab.lif.lineFree + 5500) } .sign).isSome = true := by decide

theorem witness_frame_is_sent : ∃ f, frameFor cab .sign = some f := ⟨_, rfl⟩

theorem witness_fare_show_interval :
    let s : State := { cab with nsc := { cab.nsc with
      fares := cab.nsc.fares.set 2 (some (showOf leg12)), fareSent := cab.nsc.fareSent.set 2 (some 40000) } }
    s.pwr.state = .active ∧ s.lif.tx = Transmitter.free ∧ s.nsc.fares.get 2 = some (showOf leg12)
      ∧ s.nsc.fareSent.get 2 = some 40000 ∧ s.lif.lineFree + 5500 ≤ max s.time (40000 + 7200000) := by decide

/-- A notice in sending, for the loss (also the sixteenth) and the success. -/
theorem witness_lost_and_sent :
    let s (n : Nat) : State := { cab with lif := { cab.lif with tx := ⟨some .announce, n, some [sentChar 1], false⟩ } }
    (s 15).pwr.state = .active ∧ (s 15).lif.tx.held = some .announce ∧ (s 15).lif.tx.sending = some [sentChar 1]
      ∧ (s 14).lif.tx.sending = some [sentChar 1] := by decide

/-- A JOURNAL_ROW of quarter 3 and a JOURNAL_END in sending, at their cursor. -/
theorem witness_read_out_sent :
    let c : Cursor := ⟨31, 5, 0, 3, 0, true, some (List.replicate 128 7, false), false⟩
    let s (g : ReadFrame) : State := { cab with
      lif := { cab.lif with tx := ⟨some .journal, 0, some [sentChar 1], false⟩ }
      jnl := { cab.jnl with cursor := some c }, nsc := { cab.nsc with journal := some g } }
    (s (.row 31 0 3 false [])).lif.tx.held = some .journal ∧ (s (.fin 31 1 false)).lif.tx.renewed = false
      ∧ (s (.row 31 0 3 false [])).nsc.journal = some (.row 31 0 3 false [])
      ∧ (s (.fin 31 1 false)).nsc.journal = some (.fin 31 1 false) ∧ (s (.fin 31 1 false)).jnl.cursor = some c
      ∧ ¬ c.quarter < 3 := by decide

theorem witness_silence :
    stationOf cab 12 = some (entry 12 .panel (some .a2)) ∧ (entry 12 .panel (some .a2)).present = true
      ∧ cab.time ≤ (entry 12 .panel (some .a2)).silenceFrom + 86400000 := by decide

/-- The clauses of a silence: a sign not yet LOST, a fleet station that set the cursor, a panel whose port is RINGING with
its RING in play, one whose port waits with an entry of its address, and a claim on a HELD leg. -/
theorem witness_silence_clauses :
    let ringing : State := { calls .ringing [] with
      icm := { (calls .ringing []).icm with player := .playing .ring (onlySpk 0) 0 1 7 } }
    let read : State := { cab with jnl := { cab.jnl with cursor := some ⟨31, 5, 0, 0, 0, true, none, false⟩ } }
    stationOf cab 9 = some (entry 9 .sign none) ∧ cab.cab.sign.confirm ≠ .lost
      ∧ stationOf read 5 = some (entry 5 .fleet none) ∧ read.jnl.cursor.any (fun c => decide (c.station = 5)) = true
      ∧ stationOf ringing 11 = some (entry 11 .panel (some .a1)) ∧ callPhase ringing .a1 = .ringing
      ∧ callPhase (calls .linked [waiting12]) .a2 = .queued
      ∧ (calls .linked [waiting12]).icm.queue.find? (fun x => x.port = .a2) = some waiting12 ∧ waiting12.addr = 12
      ∧ (legAt (held { leg21 with claim := some ⟨11, .panel, some 0⟩ }) 1).map (fun l => (l.phase, l.claim))
        = some (.held, some ⟨11, .panel, some 0⟩) := by decide

theorem witness_removal :
    let s : State := { cab with lif := { cab.lif with stations := [⟨12, .panel, some .a2, false, 0⟩] } }
    stationOf s 12 = some ⟨12, .panel, some .a2, false, 0⟩ ∧ referenced s 12 = false := by decide

theorem witness_announce :
    let s := asking 13 .announce [2, 3] cab
    s.pwr.state = .active ∧ s.lif.queue = [frame 13 .announce [2, 3]]
      ∧ ReqKind.ofCode (frame 13 .announce [2, 3]).kind = some .announce
      ∧ Role.ofCode ((frame 13 .announce [2, 3]).at 0 1) = some .panel := by decide

/-- A port that another panel holds; a second port; an ABSENT entry's port; and what is discarded: a length of 1, and
a role that is none. -/
theorem witness_announce_clauses :
    portClash cab 13 none (some .a1) .panel = true ∧ portClash cab 11 (some .a1) (some .a3) .panel = true
      ∧ bystander { cab with lif := { cab.lif with stations := [⟨12, .panel, some .a2, false, 0⟩] } } 13 none (some .a2)
          .panel ⟨12, .panel, some .a2, false, 0⟩ = ⟨12, .panel, none, false, 0⟩
      ∧ (asking 13 .announce [2] cab).lif.queue = [frame 13 .announce [2]]
      ∧ (frame 13 .announce [2]).payload.length = 1 ∧ Role.ofCode ((frame 13 .announce [9, 0]).at 0 1) = none := by
  decide

/-- An ABSENT panel whose port's call waits in the name of a printer silent for 36 s. -/
def givingWay : State :=
  let s := calls .linked [waiting12]
  { s with
    time := 518400000
    lif := { s.lif with stations := [⟨11, .panel, some .a2, false, 0⟩, ⟨12, .printer, none, false, 0⟩] }
    acc := { s.acc with credit := 3 } }

/-- An entry that gives way to a sign's. -/
theorem witness_announce_replaces :
    stationOf givingWay 11 = some ⟨11, .panel, some .a2, false, 0⟩ ∧ referenced givingWay 11 = false
      ∧ callPhase givingWay .a2 = .queued ∧ Role.ofCode ((frame 11 .announce [3, 0]).at 0 1) = some .sign := by decide

/-- The entry gives way (01 R6, R9): its call leaves the queue, the printer that the call named leaves with it and takes its
credit, and the sign draws SIGN_SET (05 R87). -/
theorem test_announce_replaces :
    let t := asked 11 .announce [3, 0] givingWay
    t.lif.stations = [⟨11, .sign, none, true, 518400000⟩] ∧ callPhase t .a2 = .idle ∧ t.icm.queue = []
      ∧ t.acc.credit = 0 ∧ t.nsc.sign.isSome = true ∧ t.cab.watches = [] := by decide +kernel

theorem witness_pulse :
    true ≠ cab.odo.pulseLevel
      ∧ ({ cab with odo := { cab.odo with pulseFrom := some 7 } } : State).odo.pulseFrom = some 7 := by decide

/-- 50 included steps, the most a band may have, and a total at the ceiling. -/
theorem witness_steps :
    let t : TariffSet := { tariff with bands := ⟨some { band0 with N := 50 }, none, none, none⟩ }
    let l : Leg := { leg12 with steps := 65535, farePart := 9999899 }
    l.steps ≤ 65535 ∧ l.total ≤ 9999999 ∧ (ratesIn (some t) l.openBand).N ≤ 50 := by decide

theorem witness_fare_tick_counts : cab.pwr.state = .active ∧ cab.acc.shift.sharedTicks ≤ 4294967295 := by decide

theorem witness_watch_fires :
    let h := hired (some leg12) none none none
    let s : State := { h with
      cab := { h.cab with watches := [⟨12, true, 599, false⟩] }
      odo := { h.odo with window := [0, 0, 0, 0, 0, 0, 0, 1, 1, 0], pulseCount := 5 } }
    s.tar.committed = some tariff ∧ tariff.general.watch = true ∧ ⟨12, true, 599, false⟩ ∈ s.cab.watches
      ∧ (∀ w' ∈ s.cab.watches, w'.addr = 12 → w'.fired = false)
      ∧ stationOf s 12 = some (entry 12 .panel (some .a2)) ∧ covered s 12 = false
      ∧ s.cab.watches.filter (fun x => decide (x.addr = 12)) = [⟨12, true, 599, false⟩]
      ∧ (∀ x ∈ s.cab.watches, x.addr ≠ 12 → x.fired = true ∨ x.occupied = false ∨ x.count < 599)
      ∧ 5 * tariff.general.K ≤ 3600 * (s.odo.window.tail ++ [min 255 s.odo.pulseCount]).sum := by decide +kernel

theorem witness_clock :
    (⟨2099, 12, 31, 23, 59, 59⟩ : DateTime).ok = true ∧ (⟨2000, 2, 29, 23, 59, 59⟩ : DateTime).ok = true
      ∧ ({ cab with pwr := { cab.pwr with state := .retain } } : State).pwr.state = .retain := by decide

/-- Requests on an ACTIVE part: each kind's frame from a station that may send it. -/
theorem witness_asks :
    Asks .timeSet (frame 5 .timeSet [41, 3, 8, 18, 0, 10]) (entry 5 .fleet none) [] (asking 5 .timeSet [41, 3, 8, 18, 0, 10] cab)
      ∧ Asks .band (frame 3 .band [3]) (entry 3 .console none) [] (asking 3 .band [3] cab)
      ∧ Asks .tariffBegin (frame 20 .tariffBegin []) (entry 20 .calibrator none) [] (asking 20 .tariffBegin [] cab)
      ∧ Asks .tariffPart (frame 20 .tariffPart [5, 5, 1, 0, 0, 0]) (entry 20 .calibrator none) []
        (asking 20 .tariffPart [5, 5, 1, 0, 0, 0] (area 500))
      ∧ Asks .tariffCommit (frame 20 .tariffCommit []) (entry 20 .calibrator none) [] (asking 20 .tariffCommit [] (area 500))
      ∧ Asks .shiftOpen (frame 3 .shiftOpen (le 4 999999)) (entry 3 .console none) []
        (asking 3 .shiftOpen (le 4 999999) cab) := by decide +kernel

theorem witness_asks_cab :
    ∀ x ∈ [(ReqKind.shiftClose, 3, ([] : List Byte), Role.console, (none : Option Port), cab),
      (ReqKind.duty, 3, ([2] : List Byte), Role.console, none, cab),
      (ReqKind.book, 5, ([2] : List Byte), Role.fleet, none, cab),
      (ReqKind.hire, 3, ([0, 0, 255] : List Byte), Role.console, none, cab),
      (ReqKind.signState, 9, ([0, 0, 7] : List Byte), Role.sign, none, cab),
      (ReqKind.seat, 11, ([2] : List Byte), Role.panel, some Port.a1, cab),
      (ReqKind.assistAck, 5, ([] : List Byte), Role.fleet, none, cab),
      (ReqKind.assistClear, 5, ([] : List Byte), Role.fleet, none, cab),
      (ReqKind.faultAck, 3, ([15] : List Byte), Role.console, none, cab)],
      Asks x.1 (frame x.2.1 x.1 x.2.2.1) (entry x.2.1 x.2.2.2.1 x.2.2.2.2.1) []
        (asking x.2.1 x.1 x.2.2.1 x.2.2.2.2.2) := by
  decide +kernel

theorem witness_asks_intercom_and_journal :
    ∀ x ∈ [(ReqKind.call, 11, ([3] : List Byte), Role.panel, some Port.a1, cab),
      (ReqKind.answer, 3, ([] : List Byte), Role.console, none, cab),
      (ReqKind.endCall, 3, ([] : List Byte), Role.console, none, cab),
      (ReqKind.talk, 3, ([1, 4] : List Byte), Role.console, none, cab),
      (ReqKind.privacy, 3, ([2] : List Byte), Role.console, none, cab),
      (ReqKind.printCredit, 6, ([16] : List Byte), Role.printer, none, cab),
      (ReqKind.journalCredit, 5, ([16] : List Byte), Role.fleet, none, cab),
      (ReqKind.journalRead, 5, ([31, 0] : List Byte), Role.fleet, none, stored),
      (ReqKind.journalRelease, 5, ([31, 0] : List Byte), Role.fleet, none, cab)],
      Asks x.1 (frame x.2.1 x.1 x.2.2.1) (entry x.2.1 x.2.2.2.1 x.2.2.2.2.1) []
        (asking x.2.1 x.1 x.2.2.1 x.2.2.2.2.2) := by
  decide +kernel

/-- A full print queue, whose first job is the one that leaves. -/
theorem witness_full_print_queue :
    printing.acc.jobs.length = 4
      ∧ printing.acc.jobs.findIdx? (fun j => decide (j.pos = 0) && isReceipt j) = some 0 := by decide

/-- A lone RELEASING port whose microphone is silent, with an empty queue and with a waiting port; one whose
microphone is not; and the player IDLE, in a play, and at its end. -/
theorem witness_sample_period :
    let s (q : List QEntry) (g : Nat) (pl : Player) : State := { calls .releasing q with
      icm := { (calls .releasing q).icm with
        gains := (Four.all Gains.zero).set 0 ⟨⟨0, g, 0, 0⟩, 0⟩, player := pl, prompts := [⟨.paid, onlySpk 0⟩] } }
    callPhase (s [waiting12] 32 .idle) .a1 = .releasing
      ∧ (∀ x ∈ (s [waiting12] 32 .idle).icm.queue, x.port ≠ .a1)
      ∧ ([Port.a2, .a3].all (fun r => !(callPhase (s [waiting12] 32 .idle) r).granted)) = true
      ∧ ((after (.samplePeriod 0 0 0 0) (s [waiting12] 32 .idle)).icm.gains.get 0).mic.get 1 = 0
      ∧ (s [] 32 .idle).icm.queue = []
      ∧ ((after (.samplePeriod 0 0 0 0) (s [] 33 .idle)).icm.gains.get 0).mic.get 1 = 1
      ∧ (s [] 32 (.playing .fare (onlySpk 0) 1 0 7)).icm.player = .playing .fare (onlySpk 0) 1 0 7
      ∧ (s [] 32 (.playing .fare (onlySpk 0) 0 1 7)).icm.player = .playing .fare (onlySpk 0) 0 1 7 := by decide +kernel

/-- The clauses of CALL by the port's phase, of which several stand at the boundary of the call queue. -/
theorem witness_call_clauses :
    let f := frame 12 .call [1]
    Asks .call f (entry 12 .panel (some .a2)) [] (asking 12 .call [1] (calls .ringing []))
      ∧ callPhase (calls .ringing []) .a2 = .idle ∧ (grantedPort (calls .ringing [])).isSome = true
      ∧ grantedPort cab = none ∧ cab.icm.queue = [] ∧ callPhase (calls .linked [waiting12]) .a2 = .queued
      ∧ (calls .linked [waiting12]).icm.queue.find? (fun x => x.port = .a2) = some waiting12
      ∧ callPhase (calls .releasing []) .a1 = .releasing ∧ callPhase (calls .linked []) .a1 = .linked
      ∧ callPhase (calls .ringing []) .a1 = .ringing ∧ (frame 11 .call [3]).at 0 1 = 3 := by decide +kernel

/-- A ringing port at its eighth boundary, the only one granted; and a port at its seventh. -/
theorem witness_ring_timer_and_boundary :
    callPhase (calls .ringing []) .a1 = .ringing ∧ (calls .ringing []).icm.ringDue = some 86400000
      ∧ (callRec (calls .ringing []) .a1).grantAt < (calls .ringing []).icm.holdDue
      ∧ (callRec (calls .ringing []) .a1).boundaries = 7
      ∧ ([Port.a2, .a3].all (fun r => decide (callPhase (calls .ringing []) r ≠ .ringing
          ∧ callPhase (calls .ringing []) r ≠ .linked))) = true
      ∧ (calls .linked []).pwr.state = .active := by decide

/-- ANSWER and END_CALL with one port RINGING, and with none granted. -/
theorem witness_answer_clauses :
    callPhase (calls .ringing []) .a1 = .ringing
      ∧ ([Port.a2, .a3].all (fun r => decide (callPhase (calls .ringing []) r ≠ .ringing))) = true
      ∧ ([Port.a1, .a2, .a3].all (fun r => !(callPhase cab r).granted)) = true
      ∧ ([CallPhase.ringing, .linked, .releasing].all (fun c => decide (callPhase (calls c []) .a1 = c)
          && (callPhase (calls c []) .a1).granted && [Port.a2, .a3].all (fun r => !(callPhase (calls c []) r).granted)))
        = true := by decide

theorem witness_unknown_leg :
    Asks .hold (frame 3 .hold [0, 0]) (entry 3 .console none) [] (asking 3 .hold [0, 0] cab)
      ∧ ∀ i l, legAt (asking 3 .hold [0, 0] cab) i = some l → l.number ≠ (frame 3 .hold [0, 0]).at 0 2 := by
  refine ⟨by decide, fun i l h => ?_⟩
  have free : ∀ i, legAt (asking 3 .hold [0, 0] cab) i = none := by decide
  rw [free i] at h
  cases h

/-- The requests that name a leg, on leg 21 in slot 1. -/
theorem witness_leg_requests :
    (∀ k ∈ [ReqKind.hold, .resume, .void, .payClaim, .payCancel],
      Asks k (frame 3 k [21, 0]) (entry 3 .console none) [] (asking 3 k [21, 0] (held leg21))
        ∧ LegNamed (frame 3 k [21, 0]) 1 leg21 (asking 3 k [21, 0] (held leg21)))
      ∧ (∀ k ∈ [ReqKind.extra, .flat],
        Asks k (frame 3 k [21, 0, 7]) (entry 3 .console none) [] (asking 3 k [21, 0, 7] (held leg21))
          ∧ LegNamed (frame 3 k [21, 0, 7]) 1 leg21 (asking 3 k [21, 0, 7] (held leg21)))
      ∧ (∀ k ∈ [ReqKind.cash, .tip],
        Asks k (frame 3 k ([21, 0] ++ le 4 99999)) (entry 3 .console none) [] (asking 3 k ([21, 0] ++ le 4 99999) (held leg21))
          ∧ LegNamed (frame 3 k ([21, 0] ++ le 4 99999)) 1 leg21 (asking 3 k ([21, 0] ++ le 4 99999) (held leg21))) := by
  decide +kernel

/-- A CLOSING leg is found too. -/
theorem witness_closing_leg_is_named :
    LegNamed (frame 3 .hold [21, 0]) 1 { leg21 with phase := .closing }
      (asking 3 .hold [21, 0] (held { leg21 with phase := .closing })) := by decide +kernel

theorem witness_pay_start :
    let p := [21, 0, 8] ++ le 4 99999 ++ le 4 4294967295
    Asks .payStart (frame 11 .payStart p) (entry 11 .panel (some .a1)) [] (asking 11 .payStart p (held leg21))
      ∧ LegNamed (frame 11 .payStart p) 1 leg21 (asking 11 .payStart p (held leg21)) := by decide +kernel

/-- A result of attempt 2 in flight, INDETERMINATE, and already ended; outcomes 1 with money, and 3. -/
theorem witness_pay_result :
    let p := [21, 0, 2, 1] ++ le 4 1 ++ [1, 2, 3, 4, 5, 6]
    let s (st : AttemptState) := asking 11 .payResult p (second st .paying)
    Asks .payResult (frame 11 .payResult p) (entry 11 .panel (some .a1)) [] (s (.inFlight 5))
      ∧ (∀ st ∈ [AttemptState.inFlight 5, .indeterminate, .declined], findLeg (s st) 21 = some 1
        ∧ (legAt (s st) 1).map (fun l => l.attempts.find? (fun x => x.number = (frame 11 .payResult p).at 2 1))
          = some (some ⟨2, 11, 2500, st⟩))
      ∧ (frame 11 .payResult p).at 3 1 = 1 ∧ (frame 11 .payResult p).at 4 4 ≠ 0 := by decide +kernel

/-- PAY_RESULTs of no outcome (0 and 4), of an approval of 0, and for attempt 3, which the leg does not have. -/
theorem witness_pay_result_range :
    let p (n o : Nat) := [21, 0, BitVec.ofNat 8 n, BitVec.ofNat 8 o] ++ le 4 0 ++ [1, 2, 3, 4, 5, 6]
    let s (n o : Nat) := asking 11 .payResult (p n o) (second .indeterminate .held)
    (∀ o ∈ [0, 1, 4], Asks .payResult (frame 11 .payResult (p 2 o)) (entry 11 .panel (some .a1)) [] (s 2 o)
        ∧ (frame 11 .payResult (p 2 o)).at 3 1 = o ∧ (frame 11 .payResult (p 2 o)).at 4 4 = 0
        ∧ (legAt (s 2 o) 1).map (fun l => l.attempts.find? (fun x => x.number = 2))
          = some (some ⟨2, 11, 2500, .indeterminate⟩))
      ∧ findLeg (s 3 1) ((frame 11 .payResult (p 3 1)).at 0 2) = some 1
      ∧ (legAt (s 3 1) 1).all (fun l => l.attempts.all (fun a => a.number ≠ 3)) = true := by decide +kernel

/-- A result for a leg no slot holds. -/
theorem witness_closed_leg_result :
    let p := [21, 0, 2, 3] ++ le 4 0 ++ [1, 2, 3, 4, 5, 6]
    Asks .payResult (frame 11 .payResult p) (entry 11 .panel (some .a1)) [] (asking 11 .payResult p cab)
      ∧ (∀ i, legAt (asking 11 .payResult p cab) i = none) ∧ (frame 11 .payResult p).at 3 1 = 3 := by decide +kernel

theorem witness_deadlines :
    let l : Leg := { leg21 with claim := some ⟨11, .panel, some 864000000⟩ }
    legAt (held l) 1 = some l ∧ l.phase = .held ∧ l.claim = some ⟨11, .panel, some 864000000⟩
      ∧ (legAt (second (.inFlight 5) .paying) 1).map (fun l => (l.phase, l.flying, l.claim))
        = some (.paying, some (⟨2, 11, 2500, .inFlight 5⟩, 5), some ⟨11, .panel, none⟩) := by decide

theorem witness_sign_resend :
    cab.cab.signDue = some 14400000 ∧ cab.cab.sign.confirm ≠ .confirmed := by decide

theorem witness_assist :
    let s : State := { cab with
      cab := { cab.cab with latch := true, ack := some .unacked, repeatDue := some 144000000 }
      odo := { cab.odo with detector := .timing } }
    s.cab.repeatDue = some 144000000 ∧ s.cab.latch = true ∧ s.odo.detector = .timing ∧ false ≠ cab.odo.assistLevel := by
  decide

/-- Of two switch points at one moment the first is the one the automatic band is taken from. -/
theorem witness_automatic_band :
    let p : SwitchPoint := ⟨0x1F, 360, 0⟩
    let x : SwitchPoint := ⟨0x01, 360, 1⟩
    let s : State := { cab with tar := { cab.tar with committed := some { tariff with switches := [p, x] } } }
    let now := (secondsSince s.odo.clock / 60 + 7200) % 10080
    let back := fun (m : Nat) => if m ≤ now then now - m else now + 10080 - m
    s.odo.clockSet = true ∧ s.odo.clock.ok = true ∧ p.days.getLsbD 4 = true
      ∧ (∀ y ∈ [p, x], ∀ e, e < 7 → y.days.getLsbD e = true → back (4 * 1440 + p.minute) ≤ back (e * 1440 + y.minute)) := by
  decide +kernel

theorem witness_power_loss :
    let s : State := { cab with odo := { cab.odo with powerGood := false } }
    s.pwr.state = .active ∧ s.odo.powerGood = false ∧ false ≠ cab.odo.powerGood := by decide

theorem witness_retain_entry :
    let s : State := { cab with pwr := { cab.pwr with state := .entering } }
    s.pwr.state = .entering ∧ s.jnl.inFlight = none
      ∧ ({ s with jnl := { s.jnl with inFlight := some (.journalErase 127) } } : State).jnl.inFlight = some (.journalErase 127)
      ∧ [(⟨2047, 63, .erased⟩ : Upset)].all Upset.inArray = true
      ∧ Memory.wf s.array = true := by decide

/-- 06 R118, 04 R76, 10 R191: of two legs with an attempt in flight, the one whose deadline passed in RETAIN is HELD with an
unresolved entry, the other goes on; both are marked, and their fares stand. -/
theorem test_resume_ends_late_attempt :
    let s := second (.inFlight 5) .paying
    let late := resumeProcedure { s with time := 5 }
    let soon := resumeProcedure { s with time := 4 }
    (legAt late 1).map (fun l => (l.phase, l.claim, l.interrupted, l.total)) = some (.held, none, true, 4850)
      ∧ late.acc.unresolved = [⟨21, 2, 2500, 11⟩] ∧ (late.nsc.offers.get 1).isSome = true
      ∧ (legAt soon 1).map (fun l => (l.phase, l.claim, l.interrupted, l.total))
        = some (.paying, some ⟨11, .panel, none⟩, true, 4850)
      ∧ soon.acc.unresolved = [] := by decide +kernel

/-- A part in RETAIN whose check word agrees with retention memory. -/
def resting : State :=
  let s : State := { cab with pwr := { cab.pwr with state := .retain } }
  { s with pwr := { s.pwr with check := retentionSum s } }

theorem witness_intact_wake :
    resting.pwr.state = .retain ∧ resting.odo.powerGood = true ∧ retentionSum resting + 0 = resting.pwr.check :=
  ⟨rfl, rfl, BitVec.add_zero _⟩

theorem witness_spoiled_wake : resting.pwr.state = .retain ∧ retentionSum resting + 1 ≠ resting.pwr.check := by
  refine ⟨rfl, fun h => ?_⟩
  have e : retentionSum resting + 1 = retentionSum resting := h
  bv_omega

theorem witness_cold_start :
    ({ cab with pwr := { cab.pwr with state := .off } } : State).odo.powerGood = true
      ∧ ({ cab with pwr := { cab.pwr with state := .starting } } : State).pwr.state = .starting := by decide

/-- An array with one row that can be read, the first row of the shift it leaves OPEN. -/
theorem witness_abandoned :
    Memory.wf stored.array = true ∧ JournalRow stored.array 32 ∧ seqAt stored.array 32 = 1
      ∧ (∀ r, JournalRow stored.array r → seqAt stored.array r = 1 → r = 32) ∧ ringRow 2047 = true := by
  have wf : Memory.wf stored.array = true := by decide +kernel
  refine ⟨wf, by decide +kernel, by decide +kernel, fun r hr hv => ?_, by decide⟩
  have h := (mem_readableSeqs wf r 1).2 ⟨hr, hv⟩
  rw [show readableSeqs stored.array = [(32, 1)] by decide +kernel] at h
  simpa using h

/-- The array's operations in flight; 2,047 is the last row. -/
theorem witness_array_work :
    let s (op : ArrayOp) : State := { cab with jnl := { cab.jnl with inFlight := some op } }
    (s (.tariffErase 1 20)).jnl.inFlight = some (.tariffErase 1 20) ∧ Memory.wf (area 500).array = true
      ∧ (s (.tariffPart 30 [5, 5, 1, 0, 0, 0] 20)).jnl.inFlight = some (.tariffPart 30 [5, 5, 1, 0, 0, 0] 20)
      ∧ (s (.tariffMark 30 20)).jnl.inFlight = some (.tariffMark 30 20)
      ∧ (s (.tariffCommit 31 5 7 20)).jnl.inFlight = some (.tariffCommit 31 5 7 20)
      ∧ (s (.journalErase 127)).jnl.inFlight = some (.journalErase 127) := by decide +kernel

theorem witness_journal_program :
    let x : Queued := ⟨7, .event ⟨31, DateTime.epoch, .assist 1⟩⟩
    let s : State := { cab with jnl := { cab.jnl with inFlight := some (.journalProgram 2047), append := [x] } }
    s.jnl.inFlight = some (.journalProgram 2047) ∧ s.jnl.append = [x] ∧ Memory.wf s.array = true
      ∧ s.jnl.sectors.length = 126 := by decide +kernel

/-- A record waits behind the head when its program completes; the erase of the sector the write position waits at; and a
write position of the ring. -/
theorem witness_write_position :
    let x : Queued := ⟨7, .event ⟨31, DateTime.epoch, .assist 1⟩⟩
    let s : State := { cab with jnl := { cab.jnl with
      inFlight := some (.journalProgram 47), append := [x, { x with seq := 8 }] } }
    s.jnl.inFlight = some (.journalProgram 47) ∧ s.jnl.append = x :: [{ x with seq := 8 }] ∧ s.odo.pendingTime = none
      ∧ s.pwr.state = .active ∧ s.jnl.waiting = [] ∧ s.jnl.waitsErase = false ∧ Memory.wf s.array = true
      ∧ s.jnl.sectors.length = 126 ∧ (waitingAt4 .released).jnl.writePos = 4 * 16
      ∧ (waitingAt4 .released).jnl.append ≠ [] ∧ (waitingAt4 .released).jnl.sectors.length = 126
      ∧ 32 ≤ cab.jnl.writePos ∧ cab.jnl.writePos < 2048 := by decide +kernel

theorem witness_sign_in_force : SignInForce (hired (some leg12) (some leg13) none none) := by
  intro _
  decide +kernel

/-- The reset state and the state on shift have the properties that every step keeps. -/
theorem witness_invariants :
    Memory.wf cab.array = true ∧ PartiesApart cab ∧ OneVoice cab ∧ ClocksLegal cab := by
  refine ⟨by decide, ⟨fun p q => by cases p <;> cases q <;> decide +kernel, by decide +kernel⟩,
    ⟨fun p q => by cases p <;> cases q <;> decide +kernel, fun p => by cases p <;> decide +kernel⟩, by decide +kernel, fun t h => ?_⟩
  have free : cab.odo.pendingTime = none := by decide +kernel
  rw [free] at h
  cases h

theorem witness_ceiling : LegsUnderCeiling (held { leg21 with farePart := 9999749 }) := by
  have one : ∀ i, (legAt (held { leg21 with farePart := 9999749 }) i).all (fun l => decide (l.total ≤ 9999999)) = true := by
    decide +kernel
  intro i l h
  have := one i
  rw [h] at this
  simpa using this

/-- Commands wait in front of states that have the properties, so the steps the invariants speak of exist. -/
theorem witness_steps_exist :
    (∃ t, step { cab with pending := [.fareTick] } = .next t)
      ∧ (∃ t, step { held leg21 with pending := [.fareTick] } = .next t)
      ∧ (∃ t, step { resting with pending := [.clockSecond] } = .next t ∧ t.pwr.state = .retain) :=
  ⟨⟨_, rfl⟩, ⟨_, rfl⟩, ⟨_, rfl, rfl⟩⟩

end Sys2Proof.Tests
end

section
/-!
SUPPORT. The duty requests of the cab state unit (05 R79): what a refusal leaves, what the end of a booking and a move
of the duty state write, and the effect of an accepted DUTY by the duty state it finds.
-/

namespace Sys2Proof.Machine

/-! ### A refused request, and the line after an accepted one -/

/-- A request that is refused draws its answer and changes nothing else. -/
theorem onlyRefused_letGo_refuse (q : QFrame) (c : RefusalCode) (rest : List QFrame) (s : State) :
    OnlyRefused q c rest s (letGo (refuse q c { s with lif.queue := rest })) :=
  ⟨answered_refuse rfl, lineKept_letGo (by simp), faultsKept_refuse rfl rfl, by
    apply State.ext <;> simp
    apply Nsc.ext <;> simp⟩

/-- An operation that keeps the line and at most marks the transmitter does no more to the line interface. -/
theorem lif_eq_of_kept {s u : State} (hline : Kept.line u s) (htx : Kept.tx u s)
    (hst : u.lif.stations = s.lif.stations) :
    u.lif = { s.lif with tx := { s.lif.tx with renewed := u.lif.tx.renewed } } := by
  obtain ⟨haddr, hrx, hqueue, hfree, hann⟩ := hline
  obtain ⟨hheld, hcont, hsend⟩ := htx
  exact Lif.ext haddr hrx hqueue hfree (Transmitter.ext hheld hcont hsend rfl) hst hann

/-! ### The end of a booking (05 R80) -/

/-- Placing an item leaves the items of the other kinds, in their order. -/
theorem placeItem_fleet_otherKinds (it : FleetItem) (s : State) :
    (placeItem it s).nsc.fleet.filter (fun x => decide (x.kind ≠ it.kind))
      = s.nsc.fleet.filter (fun x => decide (x.kind ≠ it.kind)) := by
  unfold placeItem
  split
  · simp only [renew_frame]
    induction s.nsc.fleet with
    | nil => rfl
    | cons y ys ih => by_cases hy : y.kind = it.kind <;> simp_all
  · simp [List.filter_append]

@[simp] theorem bookingEnds_booking (o : BookOutcome) (s : State) : (bookingEnds o s).cab.booking = none := by
  unfold bookingEnds
  split
  · simp [bookingItem]
  · assumption

/-- The fleet is told the outcome of the booking that ends. -/
theorem bookingEnds_tells_fleet {o : BookOutcome} {s : State} {r : List Byte} (h : s.cab.booking = some r) :
    .booking r o 0 ∈ (bookingEnds o s).nsc.fleet := by
  simp only [bookingEnds, h, bookingItem]
  exact (placeItem_fleet _ _).1

@[simp] theorem bookingEnds_fleet_otherKinds (o : BookOutcome) (s : State) :
    (bookingEnds o s).nsc.fleet.filter (fun x => decide (x.kind ≠ .booking))
      = s.nsc.fleet.filter (fun x => decide (x.kind ≠ .booking)) := by
  unfold bookingEnds
  split
  · exact placeItem_fleet_otherKinds (.booking _ o 0) _
  · rfl

/-! ### DUTY (05 R79) -/

@[simp] theorem moveDuty_duty (d : Duty) (s : State) : (moveDuty d s).cab.duty = d := by
  simp [moveDuty]

/-- The checks of a DUTY, with the first of them read as an equation. -/
theorem dutyRefusal_eq (wanted : Nat) (s : State) :
    dutyRefusal wanted s =
      if shiftIsOpen s = false then some .noShift
      else if wanted ≠ 1 ∧ wanted ≠ 2 then some .range
      else if s.cab.duty = .hired then some .state
      else if s.cab.duty = .booked ∧ wanted = 2 then some .state
      else none := by
  simp only [dutyRefusal, Bool.not_eq_eq_eq_not, Bool.not_true]

/-- What the checks leave to a DUTY that passes. -/
theorem wanted_of_dutyRefusal_none {wanted : Nat} {s : State} (h : dutyRefusal wanted s = none) :
    (wanted = 1 ∨ wanted = 2) ∧ s.cab.duty ≠ .hired ∧ ¬ (s.cab.duty = .booked ∧ wanted = 2) := by
  unfold dutyRefusal at h
  repeat (split at h; · cases h)
  exact ⟨by omega, by assumption, by assumption⟩

theorem dutyEffect_of_noShift {s : State} (h : s.cab.duty = .noShift) (wanted : Nat) : dutyEffect wanted s = s := by
  simp [dutyEffect, h]

theorem dutyEffect_of_booked {s : State} (h : s.cab.duty = .booked) (wanted : Nat) :
    dutyEffect wanted s = moveDuty .vacant (bookingEnds .cancelled s) := by
  simp [dutyEffect, h]

/-- With no booking held, a DUTY at most moves the duty state. -/
theorem dutyEffect_of_not_booked {s : State} (h : s.cab.duty ≠ .booked) (wanted : Nat) :
    dutyEffect wanted s = s ∨ ∃ d, dutyEffect wanted s = moveDuty d s := by
  unfold dutyEffect
  split
  case h_1 | h_2 => split; exacts [.inr ⟨_, rfl⟩, .inl rfl]
  case h_3 hb => exact absurd hb h
  case h_4 => exact .inl rfl

/-- An accepted DUTY leaves the duty state it asks for, in a shift's duty states. -/
theorem dutyEffect_duty {wanted : Nat} {s : State} (h : dutyRefusal wanted s = none) (hs : s.cab.duty ≠ .noShift) :
    (dutyEffect wanted s).cab.duty = if wanted = 1 then .vacant else .offDuty := by
  obtain ⟨hw, hhired, hoff⟩ := wanted_of_dutyRefusal_none h
  cases hd : s.cab.duty with
  | noShift => exact absurd hd hs
  | hired => exact absurd hd hhired
  | vacant => rcases hw with rfl | rfl <;> simp [dutyEffect, hd]
  | offDuty => rcases hw with rfl | rfl <;> simp [dutyEffect, hd]
  | booked =>
    have hone : wanted = 1 := hw.resolve_right fun h2 => hoff ⟨hd, h2⟩
    simp [dutyEffect_of_booked hd, hone]

/-- A DUTY in BOOKED ends the booking as CANCELLED. -/
theorem dutyEffect_cancels {s : State} (h : s.cab.duty = .booked) (wanted : Nat) :
    (dutyEffect wanted s).cab.booking = none
      ∧ ∀ r, s.cab.booking = some r → .booking r .cancelled 0 ∈ (dutyEffect wanted s).nsc.fleet := by
  rw [dutyEffect_of_booked h]
  exact ⟨by simp, fun r hr => by simpa using bookingEnds_tells_fleet hr⟩

theorem dutyEffect_keeps_booking {s : State} (h : s.cab.duty ≠ .booked) (wanted : Nat) :
    (dutyEffect wanted s).cab.booking = s.cab.booking ∧ (dutyEffect wanted s).nsc.fleet = s.nsc.fleet := by
  rcases dutyEffect_of_not_booked h wanted with he | ⟨d, he⟩ <;> simp [he]

theorem dutyEffect_fleet_otherKinds (wanted : Nat) (s : State) :
    (dutyEffect wanted s).nsc.fleet.filter (fun x => decide (x.kind ≠ .booking))
      = s.nsc.fleet.filter (fun x => decide (x.kind ≠ .booking)) := by
  by_cases h : s.cab.duty = .booked
  · rw [dutyEffect_of_booked h]
    simpa using bookingEnds_fleet_otherKinds .cancelled s
  · rw [(dutyEffect_keeps_booking h wanted).2]

/-- A DUTY that passes the checks of R79 draws ACCEPTED with the duty state it leaves. -/
theorem dutyBody_of_passes {q : QFrame} {s : State} (h : dutyRefusal (q.at 0 1) s = none) (e : Station) :
    dutyBody q e s = accept q (le 1 (dutyEffect (q.at 0 1) s).cab.duty.code) (dutyEffect (q.at 0 1) s) := by
  simp [dutyBody, h]

theorem dutyBody_of_refused {q : QFrame} {c : RefusalCode} {s : State} (h : dutyRefusal (q.at 0 1) s = some c)
    (e : Station) : dutyBody q e s = refuse q c s := by
  simp [dutyBody, h]

/-- What a taken DUTY does to the line interface, the fault set and the rest of the part when it is accepted. -/
theorem accepted_duty_frame (q : QFrame) (v : List Byte) (wanted : Nat) (rest : List QFrame) (s : State) :
    let t := letGo (accept q v (dutyEffect wanted { s with lif.queue := rest }))
    LineKept rest s t ∧ FaultsKept s t ∧ Answered q (.accepted v) s t
      ∧ t = { s with lif := t.lif, flt := t.flt
                     nsc := { s.nsc with replies := t.nsc.replies, sign := t.nsc.sign, fleet := t.nsc.fleet }
                     cab := { s.cab with duty := t.cab.duty, booking := t.cab.booking, sign := t.cab.sign
                                         signDue := t.cab.signDue } } := by
  have hline := lif_eq_of_kept (s := { s with lif.queue := rest }) (u := dutyEffect wanted { s with lif.queue := rest })
    (by simp) (by simp) (by simp)
  refine ⟨lineKept_letGo (by simpa using hline), faultsKept_accept (by simp) (by simp), answered_accept (by simp), ?_⟩
  apply State.ext <;> simp
  · apply Nsc.ext <;> simp
  · apply Cab.ext <;> simp

/-- Settles O34: a DUTY that fails a check is refused and no more; one that passes acts by R79's table, which
`dutyEffect_duty`, `dutyEffect_cancels` and `dutyEffect_keeps_booking` read off. -/
theorem dutyMovesCabState : Obligations.DutyMovesCabState := by
  intro q e rest s hasks wanted code
  have hcode : dutyRefusal wanted { s with lif.queue := rest } = code := dutyRefusal_eq _ _
  refine ⟨_, takes_asks dutyBody hasks, ?_⟩
  cases hc : code with
  | some c =>
    rw [dutyBody_of_refused (hcode.trans hc)]
    obtain ⟨hans, hline, hflt, hrest⟩ := onlyRefused_letGo_refuse q c rest s
    exact ⟨hline, hflt, hans, hrest⟩
  | none =>
    have hpass := hcode.trans hc
    rw [dutyBody_of_passes hpass]
    set u : State := { s with lif.queue := rest }
    obtain ⟨hline, hflt, hans, hrest⟩ := accepted_duty_frame q (le 1 (dutyEffect wanted u).cab.duty.code) wanted rest s
    refine ⟨hline, hflt, fun hs => ?_, fun hs => ?_, ?_, fun hb => ?_, fun hb => ?_, ?_, hrest⟩
    · simpa using dutyEffect_duty hpass hs
    · simpa [dutyEffect_of_noShift (s := u) hs] using hs
    · simpa using hans
    · simpa using dutyEffect_cancels (s := u) hb wanted
    · simpa using dutyEffect_keeps_booking (s := u) hb wanted
    · simpa using dutyEffect_fleet_otherKinds wanted u

end Sys2Proof.Machine
end

section
/-!
SUPPORT. The fault unit (10 R182–R185): the indices of the faults, the fault set read bit by bit, the warning, and what
an acknowledgment clears.
-/

namespace Sys2Proof.Machine

/-! ### The indices of the faults -/

/-- An index names one fault, or is past the last of them. -/
theorem FaultName.ofIndex_cases (i : Nat) :
    (15 < i ∧ FaultName.ofIndex i = none) ∨ ∃ f : FaultName, f.index = i ∧ FaultName.ofIndex i = some f := by
  by_cases h : 15 < i
  · obtain ⟨n, rfl⟩ := Nat.exists_eq_add_of_le' h
    exact .inl ⟨h, rfl⟩
  · right
    interval_cases i <;> exact ⟨_, Eq.refl (FaultName.index _), rfl⟩

@[simp] theorem FaultName.ofIndex_index (f : FaultName) : FaultName.ofIndex f.index = some f := by cases f <;> rfl

theorem FaultName.index_lt (f : FaultName) : f.index < 16 := by cases f <;> decide

theorem not_isLive (f : FaultName) : (!isLive f) = decide (f.index < 11) := by
  simp [isLive, ← decide_not]

/-! ### The fault set (10 R182) -/

/-- Distinct powers of two below `2 ^ n` stay below it in sum. -/
theorem sum_flagged_pow_lt (b : Nat → Bool) (n : Nat) :
    ((List.range n).map (fun i => if b i then 2 ^ i else 0)).sum < 2 ^ n := by
  induction n with
  | zero => simp
  | succ n ih =>
    have hlast : (if b n then 2 ^ n else 0) ≤ 2 ^ n := by split <;> simp
    simp only [List.range_succ, List.map_append, List.sum_append, List.map_singleton, List.sum_singleton, pow_succ]
    omega

/-- The sum of the flagged powers of two has the flags as its bits. -/
theorem testBit_sum_flagged_pow (b : Nat → Bool) (n i : Nat) :
    ((List.range n).map (fun i => if b i then 2 ^ i else 0)).sum.testBit i = (decide (i < n) && b i) := by
  induction n with
  | zero => simp
  | succ n ih =>
    have hlast : (if b n then 2 ^ n else 0) = 2 ^ n * (b n).toNat := by cases b n <;> simp
    simp only [List.range_succ, List.map_append, List.sum_append, List.map_singleton, List.sum_singleton]
    rw [hlast, Nat.add_comm, Nat.testBit_two_pow_mul_add _ (sum_flagged_pow_lt b n), ih]
    rcases Nat.lt_trichotomy i n with hi | rfl | hi
    · simp [hi, hi.trans (Nat.lt_succ_self n)]
    · cases b i <;> simp
    · have hoff : ((b n).toNat).testBit (i - n) = false :=
        Nat.testBit_lt_two_pow ((Bool.toNat_lt _).trans_le (Nat.one_lt_two_pow (by omega)))
      simp [hoff, hi.not_gt, Nat.not_lt.2 hi]

theorem faultWord_bit (s : State) (i : Nat) : (faultWord s).getLsbD i = (decide (i < 16) && faultBit s i) := by
  rw [faultWord, BitVec.getLsbD_ofNat, testBit_sum_flagged_pow]
  simp

theorem faultBit_index (s : State) (f : FaultName) : faultBit s f.index = faultSet s f := by
  simp [faultBit]

/-- The fault of each index: the live ones by their conditions, the others as they are latched. -/
theorem faultBit_eq {i : Nat} (hi : i < 16) (s : State) :
    faultBit s i = if i = 11 then !s.odo.clockSet
      else if i = 12 then decide (s.cab.sign.confirm = .lost)
      else if i = 13 then s.cab.sign.front || s.cab.sign.rear || s.cab.sign.side
      else if i = 14 then s.cab.latch
      else if i = 15 then decide (freeRows s < 128)
      else s.flt.latched.getLsbD i := by
  obtain ⟨hover, -⟩ | ⟨f, rfl, -⟩ := FaultName.ofIndex_cases i
  · exact absurd hover (by omega)
  · rw [faultBit_index]
    cases f <;> rfl

theorem runRows_congr (s u : State) (test : Nat → Bool) (n : Nat) : ∀ c, runRows s test n c = runRows u test n c := by
  induction n with
  | zero => intro c; rfl
  | succ n ih => intro c; simp only [runRows, ih]

/-- The free rows depend on the journal and the array alone. -/
theorem freeRows_congr {s u : State} (hj : s.jnl = u.jnl) (ha : s.array = u.array) : freeRows s = freeRows u := by
  simp only [freeRows, grossFreeRows, freeHere_congr hj ha, sectorErased_congr hj, reclaimable_congr hj, hj,
    runRows_congr s u]

/-- The fault set depends on the latched faults and on the units whose conditions are live. -/
theorem faultSet_congr {s u : State} (hf : s.flt = u.flt) (ho : s.odo = u.odo) (hc : s.cab = u.cab)
    (hj : s.jnl = u.jnl) (ha : s.array = u.array) : faultSet s = faultSet u := by
  funext f
  unfold faultSet
  rw [hf]
  split
  · cases f <;> simp only [liveHolds, ho, hc, freeRows_congr hj ha]
  · rfl

theorem faultWord_congr {s u : State} (h : faultSet s = faultSet u) : faultWord s = faultWord u := by
  unfold faultWord faultBit
  rw [h]

/-! ### The warning (10 R185) -/

/-- The mask as each fault finds it: the committed tariff's flag, or set while there is no tariff. -/
theorem faultMask_bit {i : Nat} (hi : i < 16) (s : State) :
    (faultMask s).getLsbD i = (s.tar.committed.map (fun c => c.general.mask.getLsbD i)).getD true := by
  cases h : s.tar.committed with
  | none =>
    rw [faultMask, h]
    exact BitVec.getLsbD_allOnes.trans (decide_eq_true hi)
  | some c => simp [faultMask, h]

/-- The warning is set exactly when a fault is set whose mask flag is set. -/
theorem warning_eq (s : State) :
    warning s = (List.range 16).any (fun i =>
      faultBit s i && (s.tar.committed.map (fun c => c.general.mask.getLsbD i)).getD true) := by
  have hzero : faultWord s &&& faultMask s = 0 ↔ ∀ i, (faultWord s &&& faultMask s).getLsbD i = false :=
    BitVec.zero_iff_eq_false
  rw [Bool.eq_iff_iff, warning, decide_eq_true_iff, ne_eq, hzero, not_forall, List.any_eq_true]
  refine exists_congr fun i => ?_
  rw [Bool.not_eq_false, BitVec.getLsbD_and, faultWord_bit, List.mem_range]
  by_cases hi : i < 16
  · simp only [faultMask_bit hi, hi, decide_true, Bool.true_and, true_and]
  · simp [hi]

/-! ### FAULT_ACK (10 R183, R184) -/

/-- The causes of R183 by the fault's index. -/
theorem causeHolds_eq (s : State) (f : FaultName) :
    causeHolds s f = if f.index = 1 then decide (8 ≤ s.lif.queue.length)
      else if f.index = 2 then decide (6 ≤ s.nsc.replies.length)
      else if f.index = 4 then decide (12 ≤ s.lif.stations.length)
      else if f.index = 5 then decide (255 < s.odo.lastTaken)
      else if f.index = 6 then s.cab.watches.any (fun w => w.fired)
      else if f.index = 9 then decide (4 ≤ s.acc.jobs.length)
      else false := by
  cases f <;> rfl

/-- The word with one fault's flag has that bit alone. -/
theorem flag_bit (f : FaultName) (i : Nat) : (BitVec.ofNat 16 (2 ^ f.index)).getLsbD i = decide (i = f.index) := by
  rw [BitVec.getLsbD_ofNat, Nat.testBit_two_pow]
  by_cases h : i = f.index
  · simp [h, f.index_lt]
  · simp [h, Ne.symm h]

/-- An acknowledgment clears the fault's own bit, if the fault is latched and its cause is over, and no other. -/
theorem acknowledge_bit (f : FaultName) (s : State) {i : Nat} (hi : i < 16) :
    (acknowledge f s).flt.latched.getLsbD i
      = (s.flt.latched.getLsbD i && !(decide (i = f.index) && !isLive f && !causeHolds s f)) := by
  unfold acknowledge
  split
  case isTrue hkept => rcases Bool.or_eq_true_iff.1 hkept with h | h <;> simp [h]
  case isFalse hover =>
    obtain ⟨hlatched, hcause⟩ := Bool.or_eq_false_iff.1 (Bool.eq_false_iff.2 hover)
    rw [BitVec.getLsbD_and, BitVec.getLsbD_not, flag_bit, hlatched, hcause]
    simp [hi]

/-- Of an answer that finds class 1 full nothing is left to tell it from another. -/
theorem answered_congr {q : QFrame} {a b : Answer} {s t : State} (h : s.nsc.replies.length < 6 → a = b)
    (ha : Answered q a s t) : Answered q b s t := by
  unfold Answered Replied at *
  split
  case isTrue hroom => simpa [hroom, h hroom] using ha
  case isFalse hfull => simpa [hfull] using ha

theorem faultAckBody_of_range {q : QFrame} (h : 15 < q.at 0 1) (e : Station) (s : State) :
    faultAckBody q e s = refuse q .range s := by
  obtain ⟨-, hnone⟩ | ⟨f, hf, -⟩ := FaultName.ofIndex_cases (q.at 0 1)
  · simp [faultAckBody, hnone]
  · have := f.index_lt
    omega

theorem faultAckBody_of_fault {q : QFrame} {f : FaultName} (h : f.index = q.at 0 1) (e : Station) (s : State) :
    faultAckBody q e s =
      let u := acknowledge f { s with flt.coldFlag := false }
      accept q (le 1 f.index ++ [flagByte (faultSet u f)] ++ le 2 (faultWord u).toNat) u := by
  simp [faultAckBody, ← h]

/-- What a taken FAULT_ACK of the fault f leaves: the cold-start flag clear, the latched faults as acknowledged, and the
answer with the fault set as it stands then. -/
theorem accepted_faultAck {q : QFrame} {f : FaultName} (hf : f.index = q.at 0 1) (e : Station) (rest : List QFrame)
    (s : State) :
    let u := acknowledge f { s with lif.queue := rest, flt.coldFlag := false }
    let t := letGo (faultAckBody q e { s with lif.queue := rest })
    LineKept rest s t ∧ t.flt.coldFlag = false
      ∧ (∀ i, (i ≠ 2 ∨ s.nsc.replies.length < 6) → t.flt.latched.getLsbD i = u.flt.latched.getLsbD i)
      ∧ Answered q (.accepted (le 1 f.index ++ [flagByte (faultBit t f.index)] ++ le 2 (faultWord t).toNat)) s t
      ∧ t = { s with lif := t.lif, flt := t.flt, nsc := { s.nsc with replies := t.nsc.replies } } := by
  intro u t
  obtain ⟨v, hv, ht⟩ : ∃ v, v = le 1 f.index ++ [flagByte (faultSet u f)] ++ le 2 (faultWord u).toNat
      ∧ t = letGo (accept q v u) := ⟨_, rfl, congrArg letGo (faultAckBody_of_fault hf e _)⟩
  have hreplies : u.nsc.replies = s.nsc.replies := by simp [u]
  have hans : Answered q (.accepted v) s (letGo (accept q v u)) := answered_accept hreplies
  obtain ⟨hcold, hbits, hroom⟩ : FaultsKept u (letGo (accept q v u)) := faultsKept_accept rfl rfl
  rw [← ht] at hans hcold hbits hroom
  rw [hreplies] at hroom
  refine ⟨?_, by simp [hcold, u], ?_, ?_, ?_⟩
  · rw [ht]
    exact lineKept_letGo (by simp [u])
  · rintro i (hi | hi)
    · exact hbits i hi
    · rw [hroom hi]
  · refine answered_congr (fun hr => ?_) hans
    have hset : faultSet u = faultSet t :=
      faultSet_congr (hroom hr).symm (by simp [ht]) (by simp [ht]) (by simp [ht]) (by simp [ht])
    rw [hv, faultBit_index, faultWord_congr hset, hset]
  · rw [ht]
    apply State.ext <;> simp [u]
    apply Nsc.ext <;> simp

/-- Settles O54: an index past the last fault is refused; FAULT_ACK of a fault is `accepted_faultAck`, with the bits that
`acknowledge_bit` reads off; the fault set, the warning and ANNOUNCE as `faultBit_eq` and `warning_eq` give them. -/
theorem faultAckClearsEndedFault : Obligations.FaultAckClearsEndedFault := by
  refine ⟨fun q e rest s hasks => ?_, fun i s hi => ?_, fun s => ?_⟩
  · intro cause
    refine ⟨_, takes_asks faultAckBody hasks, ?_⟩
    obtain ⟨hover, -⟩ | ⟨f, hf, -⟩ := FaultName.ofIndex_cases (q.at 0 1)
    · rw [if_pos hover, faultAckBody_of_range hover]
      obtain ⟨hans, hline, hflt, hrest⟩ := onlyRefused_letGo_refuse q .range rest s
      exact ⟨hline, ⟨hans, hflt⟩, hrest⟩
    · obtain ⟨hline, hcold, hbits, hans, hrest⟩ := accepted_faultAck hf e rest s
      have hin : ¬ 15 < q.at 0 1 := by have := f.index_lt; omega
      rw [if_neg hin, ← hf]
      refine ⟨hline, ⟨hcold, fun i hi hroom => ?_, hans⟩, hrest⟩
      have hcause : causeHolds { s with lif.queue := rest, flt.coldFlag := false } f = cause f.index := causeHolds_eq _ f
      rw [hbits i hroom, acknowledge_bit f _ hi, hcause]
      by_cases hown : i = f.index <;> simp [hown, not_isLive]
  · exact ⟨by rw [faultWord_bit]; simp [hi], faultBit_eq hi s⟩
  · intro masked
    exact ⟨warning_eq s, fun hann => if_pos hann⟩

end Sys2Proof.Machine
end

section
/-!
SUPPORT. The frame of each command's body: the blocks that it leaves as they were, for the invariants that every step
keeps.
-/

namespace Sys2Proof.Machine

/-- The two states agree in the waiting commands and the array. -/
@[simp] abbrev Kept.store (t s : State) : Prop := t.pending = s.pending ∧ t.array = s.array

/-- The two states agree in the gains and the calls of the intercom. -/
@[simp] abbrev Kept.speech (t s : State) : Prop := t.icm.gains = s.icm.gains ∧ t.icm.calls = s.icm.calls

@[simp] theorem lateApproval_frame q i l a v r (s : State) :
    Kept.store (lateApproval q i l a v r s) s ∧ Kept.outer (lateApproval q i l a v r s) s ∧
      Kept.speech (lateApproval q i l a v r s) s := by
  unfold lateApproval
  dsimp only
  (repeat' split) <;> simp

@[simp] theorem resultOnLeg_frame q r i l a (s : State) :
    Kept.store (resultOnLeg q r i l a s) s ∧ Kept.outer (resultOnLeg q r i l a s) s ∧
      Kept.speech (resultOnLeg q r i l a s) s := by
  unfold resultOnLeg
  (repeat' split) <;> simp

@[simp] theorem resultOnClosed_frame q (s : State) :
    Kept.store (resultOnClosed q s) s ∧ Kept.outer (resultOnClosed q s) s ∧ (resultOnClosed q s).fare = s.fare ∧
      (resultOnClosed q s).icm = s.icm := by
  unfold resultOnClosed
  (repeat' split) <;> simp

@[simp] theorem signReport_frame p n m (s : State) :
    Kept.base (signReport p n m s) s ∧ Kept.outer (signReport p n m s) s ∧ Kept.deep (signReport p n m s) s ∧
      (signReport p n m s).fare = s.fare ∧ (signReport p n m s).icm = s.icm ∧
      (signReport p n m s).acc = s.acc := by
  unfold signReport
  dsimp only
  (repeat' split) <;> simp

@[simp] theorem faultAckBody_frame q e (s : State) :
    Kept.store (faultAckBody q e s) s ∧ Kept.outer (faultAckBody q e s) s ∧
      (faultAckBody q e s).fare = s.fare ∧ (faultAckBody q e s).icm = s.icm ∧
      (faultAckBody q e s).cab = s.cab ∧ (faultAckBody q e s).acc = s.acc ∧
      (faultAckBody q e s).jnl = s.jnl := by
  unfold faultAckBody
  split <;> simp

@[simp] theorem timeSetBody_frame q e (s : State) :
    Kept.store (timeSetBody q e s) s ∧ (timeSetBody q e s).tar = s.tar ∧ (timeSetBody q e s).pwr = s.pwr ∧
      (timeSetBody q e s).fare = s.fare ∧ (timeSetBody q e s).icm = s.icm ∧
      (timeSetBody q e s).cab = s.cab := by
  simp [timeSetBody]

@[simp] theorem bandBody_frame q e (s : State) :
    Kept.store (bandBody q e s) s ∧ Kept.clock (bandBody q e s) s ∧ (bandBody q e s).tar = s.tar ∧
      (bandBody q e s).pwr = s.pwr ∧ (bandBody q e s).fare = s.fare ∧ (bandBody q e s).icm = s.icm ∧
      (bandBody q e s).cab = s.cab ∧ (bandBody q e s).acc = s.acc ∧ (bandBody q e s).jnl = s.jnl := by
  simp [bandBody]

@[simp] theorem hireBody_frame q e (s : State) :
    Kept.store (hireBody q e s) s ∧ Kept.outer (hireBody q e s) s ∧ Kept.speech (hireBody q e s) s ∧
      (hireBody q e s).acc = s.acc ∧ (hireBody q e s).jnl = s.jnl := by
  unfold hireBody
  split <;> simp

@[simp] theorem holdBody_frame q e (s : State) :
    Kept.store (holdBody q e s) s ∧ Kept.outer (holdBody q e s) s ∧ Kept.speech (holdBody q e s) s ∧
      (holdBody q e s).cab = s.cab ∧ (holdBody q e s).acc = s.acc ∧ (holdBody q e s).jnl = s.jnl := by
  simp only [holdBody, withLeg]
  (repeat' split) <;> simp

@[simp] theorem resumeBody_frame q e (s : State) :
    Kept.store (resumeBody q e s) s ∧ Kept.outer (resumeBody q e s) s ∧ (resumeBody q e s).icm = s.icm ∧
      (resumeBody q e s).cab = s.cab ∧ (resumeBody q e s).acc = s.acc ∧ (resumeBody q e s).jnl = s.jnl := by
  simp only [resumeBody, withLeg]
  (repeat' split) <;> simp

@[simp] theorem voidBody_frame q e (s : State) :
    Kept.store (voidBody q e s) s ∧ Kept.outer (voidBody q e s) s ∧ Kept.speech (voidBody q e s) s := by
  simp only [voidBody, withLeg]
  (repeat' split) <;> simp

@[simp] theorem extraBody_frame q e (s : State) :
    Kept.store (extraBody q e s) s ∧ Kept.outer (extraBody q e s) s ∧ (extraBody q e s).icm = s.icm ∧
      (extraBody q e s).cab = s.cab ∧ (extraBody q e s).acc = s.acc ∧ (extraBody q e s).jnl = s.jnl := by
  simp only [extraBody, withLeg]
  (repeat' split) <;> simp

@[simp] theorem flatBody_frame q e (s : State) :
    Kept.store (flatBody q e s) s ∧ Kept.outer (flatBody q e s) s ∧ (flatBody q e s).icm = s.icm ∧
      (flatBody q e s).cab = s.cab ∧ (flatBody q e s).acc = s.acc ∧ (flatBody q e s).jnl = s.jnl := by
  simp only [flatBody, withLeg]
  (repeat' split) <;> simp

@[simp] theorem payClaimBody_frame q e (s : State) :
    Kept.store (payClaimBody q e s) s ∧ Kept.outer (payClaimBody q e s) s ∧ (payClaimBody q e s).icm = s.icm ∧
      (payClaimBody q e s).cab = s.cab ∧ (payClaimBody q e s).acc = s.acc ∧
      (payClaimBody q e s).jnl = s.jnl := by
  simp only [payClaimBody, withLeg]
  (repeat' split) <;> simp

@[simp] theorem payStartBody_frame q e (s : State) :
    Kept.store (payStartBody q e s) s ∧ Kept.outer (payStartBody q e s) s ∧ (payStartBody q e s).icm = s.icm ∧
      (payStartBody q e s).cab = s.cab ∧ (payStartBody q e s).acc = s.acc ∧
      (payStartBody q e s).jnl = s.jnl := by
  simp only [payStartBody, withLeg]
  (repeat' split) <;> simp

@[simp] theorem payResultBody_frame q e (s : State) :
    Kept.store (payResultBody q e s) s ∧ Kept.outer (payResultBody q e s) s ∧
      Kept.speech (payResultBody q e s) s := by
  unfold payResultBody
  (repeat' split) <;> simp

@[simp] theorem payCancelBody_frame q e (s : State) :
    Kept.store (payCancelBody q e s) s ∧ Kept.outer (payCancelBody q e s) s ∧
      Kept.speech (payCancelBody q e s) s ∧ (payCancelBody q e s).jnl = s.jnl := by
  simp only [payCancelBody, withLeg]
  (repeat' split) <;> simp

@[simp] theorem cashBody_frame q e (s : State) :
    Kept.store (cashBody q e s) s ∧ Kept.outer (cashBody q e s) s ∧ Kept.speech (cashBody q e s) s := by
  simp only [cashBody, withLeg]
  (repeat' split) <;> simp

@[simp] theorem tipBody_frame q e (s : State) :
    Kept.store (tipBody q e s) s ∧ Kept.outer (tipBody q e s) s ∧ (tipBody q e s).icm = s.icm ∧
      (tipBody q e s).cab = s.cab ∧ (tipBody q e s).acc = s.acc ∧ (tipBody q e s).jnl = s.jnl := by
  simp only [tipBody, withLeg]
  (repeat' split) <;> simp

@[simp] theorem callBody_frame q e (s : State) :
    Kept.store (callBody q e s) s ∧ Kept.outer (callBody q e s) s ∧ (callBody q e s).fare = s.fare ∧
      (callBody q e s).icm.gains = s.icm.gains ∧ (callBody q e s).jnl = s.jnl := by
  unfold callBody
  (repeat' split) <;> simp

@[simp] theorem answerBody_frame q e (s : State) :
    Kept.store (answerBody q e s) s ∧ Kept.outer (answerBody q e s) s ∧ (answerBody q e s).fare = s.fare ∧
      (answerBody q e s).icm.gains = s.icm.gains ∧ (answerBody q e s).cab = s.cab ∧
      (answerBody q e s).acc = s.acc ∧ (answerBody q e s).jnl = s.jnl := by
  unfold answerBody
  split <;> simp

@[simp] theorem endCallBody_frame q e (s : State) :
    Kept.store (endCallBody q e s) s ∧ Kept.outer (endCallBody q e s) s ∧ (endCallBody q e s).fare = s.fare ∧
      (endCallBody q e s).icm.gains = s.icm.gains ∧ (endCallBody q e s).cab = s.cab ∧
      (endCallBody q e s).acc = s.acc ∧ (endCallBody q e s).jnl = s.jnl := by
  unfold endCallBody
  split <;> simp

@[simp] theorem talkBody_frame q e (s : State) :
    Kept.store (talkBody q e s) s ∧ Kept.outer (talkBody q e s) s ∧ (talkBody q e s).fare = s.fare ∧
      Kept.speech (talkBody q e s) s ∧ (talkBody q e s).cab = s.cab ∧ (talkBody q e s).acc = s.acc ∧
      (talkBody q e s).jnl = s.jnl := by
  unfold talkBody
  (repeat' split) <;> simp

@[simp] theorem privacyBody_frame q e (s : State) :
    Kept.store (privacyBody q e s) s ∧ Kept.outer (privacyBody q e s) s ∧ (privacyBody q e s).fare = s.fare ∧
      (privacyBody q e s).icm.gains = s.icm.gains ∧ (privacyBody q e s).cab = s.cab ∧
      (privacyBody q e s).acc = s.acc ∧ (privacyBody q e s).jnl = s.jnl := by
  simp only [privacyBody]
  (repeat' split) <;> simp

@[simp] theorem tariffBeginBody_frame q e (s : State) :
    Kept.store (tariffBeginBody q e s) s ∧ (tariffBeginBody q e s).odo = s.odo ∧
      (tariffBeginBody q e s).pwr = s.pwr ∧ (tariffBeginBody q e s).fare = s.fare ∧
      (tariffBeginBody q e s).icm = s.icm ∧ (tariffBeginBody q e s).acc = s.acc := by
  unfold tariffBeginBody
  split <;> simp

@[simp] theorem tariffPartBody_frame q e (s : State) :
    Kept.store (tariffPartBody q e s) s ∧ (tariffPartBody q e s).odo = s.odo ∧
      (tariffPartBody q e s).pwr = s.pwr ∧ (tariffPartBody q e s).fare = s.fare ∧
      (tariffPartBody q e s).icm = s.icm ∧ (tariffPartBody q e s).cab = s.cab ∧
      (tariffPartBody q e s).acc = s.acc := by
  unfold tariffPartBody
  split <;> simp

@[simp] theorem tariffCommitBody_frame q e (s : State) :
    Kept.store (tariffCommitBody q e s) s ∧ (tariffCommitBody q e s).odo = s.odo ∧
      (tariffCommitBody q e s).pwr = s.pwr ∧ (tariffCommitBody q e s).fare = s.fare ∧
      (tariffCommitBody q e s).icm = s.icm ∧ (tariffCommitBody q e s).cab = s.cab ∧
      (tariffCommitBody q e s).acc = s.acc := by
  unfold tariffCommitBody
  split <;> simp

@[simp] theorem dutyBody_frame q e (s : State) :
    Kept.store (dutyBody q e s) s ∧ Kept.outer (dutyBody q e s) s ∧ (dutyBody q e s).fare = s.fare ∧
      (dutyBody q e s).icm = s.icm ∧ (dutyBody q e s).acc = s.acc ∧ (dutyBody q e s).jnl = s.jnl := by
  unfold dutyBody
  split <;> simp

@[simp] theorem bookBody_frame q e (s : State) :
    Kept.store (bookBody q e s) s ∧ Kept.outer (bookBody q e s) s ∧ (bookBody q e s).fare = s.fare ∧
      (bookBody q e s).icm = s.icm ∧ (bookBody q e s).acc = s.acc ∧ (bookBody q e s).jnl = s.jnl := by
  unfold bookBody
  (repeat' split) <;> simp

@[simp] theorem signStateBody_frame q e (s : State) :
    Kept.store (signStateBody q e s) s ∧ Kept.outer (signStateBody q e s) s ∧
      (signStateBody q e s).fare = s.fare ∧ (signStateBody q e s).icm = s.icm ∧
      (signStateBody q e s).acc = s.acc ∧ (signStateBody q e s).jnl = s.jnl := by
  unfold signStateBody
  split <;> simp

@[simp] theorem seatBody_frame q e (s : State) :
    Kept.store (seatBody q e s) s ∧ Kept.outer (seatBody q e s) s ∧ (seatBody q e s).fare = s.fare ∧
      (seatBody q e s).icm = s.icm ∧ (seatBody q e s).acc = s.acc ∧ (seatBody q e s).jnl = s.jnl := by
  unfold seatBody
  split <;> simp

@[simp] theorem assistAckBody_frame q e (s : State) :
    Kept.store (assistAckBody q e s) s ∧ Kept.outer (assistAckBody q e s) s ∧
      (assistAckBody q e s).fare = s.fare ∧ (assistAckBody q e s).icm = s.icm ∧
      (assistAckBody q e s).acc = s.acc ∧ (assistAckBody q e s).jnl = s.jnl := by
  simp [assistAckBody]

@[simp] theorem assistClearBody_frame q e (s : State) :
    Kept.store (assistClearBody q e s) s ∧ Kept.outer (assistClearBody q e s) s ∧
      (assistClearBody q e s).fare = s.fare ∧ (assistClearBody q e s).icm = s.icm ∧
      (assistClearBody q e s).acc = s.acc ∧ (assistClearBody q e s).jnl = s.jnl := by
  simp [assistClearBody]

@[simp] theorem shiftOpenBody_frame q e (s : State) :
    Kept.store (shiftOpenBody q e s) s ∧ (shiftOpenBody q e s).odo = s.odo ∧
      (shiftOpenBody q e s).pwr = s.pwr ∧ (shiftOpenBody q e s).fare.slots = s.fare.slots ∧
      (shiftOpenBody q e s).icm = s.icm := by
  unfold shiftOpenBody
  split <;> simp

@[simp] theorem shiftCloseBody_frame q e (s : State) :
    Kept.store (shiftCloseBody q e s) s ∧ Kept.clock (shiftCloseBody q e s) s ∧
      (shiftCloseBody q e s).tar = s.tar ∧ (shiftCloseBody q e s).pwr = s.pwr ∧
      (shiftCloseBody q e s).fare = s.fare ∧ (shiftCloseBody q e s).icm = s.icm := by
  unfold shiftCloseBody
  split <;> simp

@[simp] theorem printCreditBody_frame q e (s : State) :
    Kept.store (printCreditBody q e s) s ∧ Kept.outer (printCreditBody q e s) s ∧
      (printCreditBody q e s).fare = s.fare ∧ (printCreditBody q e s).icm = s.icm ∧
      (printCreditBody q e s).cab = s.cab ∧ (printCreditBody q e s).jnl = s.jnl := by
  simp [printCreditBody]

@[simp] theorem journalReadBody_frame q e (s : State) :
    Kept.store (journalReadBody q e s) s ∧ Kept.outer (journalReadBody q e s) s ∧
      (journalReadBody q e s).fare = s.fare ∧ (journalReadBody q e s).icm = s.icm ∧
      (journalReadBody q e s).cab = s.cab ∧ (journalReadBody q e s).acc = s.acc := by
  unfold journalReadBody
  (repeat' split) <;> simp

@[simp] theorem journalCreditBody_frame q e (s : State) :
    Kept.store (journalCreditBody q e s) s ∧ Kept.outer (journalCreditBody q e s) s ∧
      (journalCreditBody q e s).fare = s.fare ∧ (journalCreditBody q e s).icm = s.icm ∧
      (journalCreditBody q e s).cab = s.cab ∧ (journalCreditBody q e s).acc = s.acc := by
  simp [journalCreditBody]

@[simp] theorem journalReleaseBody_frame q e (s : State) :
    Kept.store (journalReleaseBody q e s) s ∧ Kept.outer (journalReleaseBody q e s) s ∧
      (journalReleaseBody q e s).fare = s.fare ∧ (journalReleaseBody q e s).icm = s.icm ∧
      (journalReleaseBody q e s).cab = s.cab ∧ (journalReleaseBody q e s).acc = s.acc := by
  unfold journalReleaseBody
  split <;> simp

@[simp] theorem rxFrameCompleteBody_frame c (s : State) :
    Kept.store (rxFrameCompleteBody c s) s ∧ Kept.outer (rxFrameCompleteBody c s) s ∧
      (rxFrameCompleteBody c s).fare = s.fare ∧ (rxFrameCompleteBody c s).icm = s.icm ∧
      (rxFrameCompleteBody c s).acc = s.acc ∧ (rxFrameCompleteBody c s).jnl = s.jnl := by
  unfold rxFrameCompleteBody
  split <;> simp

@[simp] theorem breakBody_frame n (s : State) :
    Kept.store (breakBody n s) s ∧ Kept.outer (breakBody n s) s ∧ (breakBody n s).fare = s.fare ∧
      (breakBody n s).icm = s.icm ∧ (breakBody n s).cab = s.cab ∧ (breakBody n s).acc = s.acc ∧
      (breakBody n s).jnl = s.jnl := by
  simp [breakBody]

@[simp] theorem txAttemptBody_frame (s : State) :
    Kept.store (txAttemptBody s) s ∧ Kept.outer (txAttemptBody s) s ∧ (txAttemptBody s).fare = s.fare ∧
      (txAttemptBody s).icm = s.icm ∧ (txAttemptBody s).cab = s.cab ∧ (txAttemptBody s).acc = s.acc ∧
      (txAttemptBody s).jnl = s.jnl := by
  simp [txAttemptBody]

@[simp] theorem attemptLostBody_frame (s : State) :
    Kept.store (attemptLostBody s) s ∧ Kept.outer (attemptLostBody s) s ∧ (attemptLostBody s).fare = s.fare ∧
      (attemptLostBody s).icm = s.icm ∧ (attemptLostBody s).cab = s.cab ∧ (attemptLostBody s).acc = s.acc ∧
      (attemptLostBody s).jnl = s.jnl := by
  unfold attemptLostBody
  split <;> simp

@[simp] theorem txSuccessBody_frame (s : State) :
    Kept.store (txSuccessBody s) s ∧ Kept.outer (txSuccessBody s) s ∧ (txSuccessBody s).fare = s.fare ∧
      (txSuccessBody s).icm = s.icm ∧ (txSuccessBody s).cab = s.cab := by
  unfold txSuccessBody
  split <;> simp

@[simp] theorem silenceBody_frame n (s : State) :
    Kept.store (silenceBody n s) s ∧ Kept.outer (silenceBody n s) s ∧
      (silenceBody n s).icm.gains = s.icm.gains := by
  unfold silenceBody
  split <;> simp

@[simp] theorem removalBody_frame n (s : State) :
    Kept.store (removalBody n s) s ∧ Kept.outer (removalBody n s) s ∧ (removalBody n s).fare = s.fare ∧
      (removalBody n s).icm = s.icm ∧ (removalBody n s).jnl = s.jnl := by
  unfold removalBody
  split <;> simp

@[simp] theorem announceTimerBody_frame (s : State) :
    Kept.store (announceTimerBody s) s ∧ Kept.outer (announceTimerBody s) s ∧
      (announceTimerBody s).fare = s.fare ∧ (announceTimerBody s).icm = s.icm ∧
      (announceTimerBody s).cab = s.cab ∧ (announceTimerBody s).acc = s.acc ∧
      (announceTimerBody s).jnl = s.jnl := by
  simp [announceTimerBody]

@[simp] theorem announceBody_frame (s : State) :
    Kept.store (announceBody s) s ∧ Kept.outer (announceBody s) s ∧ (announceBody s).fare = s.fare ∧
      (announceBody s).icm.gains = s.icm.gains ∧ (announceBody s).jnl = s.jnl := by
  unfold announceBody
  (repeat' split) <;> simp

@[simp] theorem pulseEdgeBody_frame (s : State) :
    Kept.store (pulseEdgeBody s) s ∧ Kept.clock (pulseEdgeBody s) s ∧ (pulseEdgeBody s).tar = s.tar ∧
      (pulseEdgeBody s).pwr = s.pwr ∧ (pulseEdgeBody s).fare = s.fare ∧ (pulseEdgeBody s).icm = s.icm ∧
      (pulseEdgeBody s).cab = s.cab ∧ (pulseEdgeBody s).acc = s.acc ∧ (pulseEdgeBody s).jnl = s.jnl := by
  unfold pulseEdgeBody
  split <;> simp

@[simp] theorem tickBody_frame (s : State) :
    Kept.store (tickBody s) s ∧ Kept.clock (tickBody s) s ∧ (tickBody s).tar = s.tar ∧
      (tickBody s).pwr = s.pwr ∧ (tickBody s).icm = s.icm := by
  simp [tickBody]

@[simp] theorem clockSecondBody_frame (s : State) :
    Kept.store (clockSecondBody s) s ∧ (clockSecondBody s).tar = s.tar ∧ (clockSecondBody s).pwr = s.pwr ∧
      (clockSecondBody s).fare = s.fare ∧ (clockSecondBody s).icm = s.icm ∧
      (clockSecondBody s).cab = s.cab ∧ (clockSecondBody s).acc = s.acc ∧
      (clockSecondBody s).jnl = s.jnl := by
  simp [clockSecondBody]

@[simp] theorem assistInputBody_frame b (s : State) :
    Kept.store (assistInputBody b s) s ∧ Kept.clock (assistInputBody b s) s ∧
      (assistInputBody b s).tar = s.tar ∧ (assistInputBody b s).pwr = s.pwr ∧
      (assistInputBody b s).fare = s.fare ∧ (assistInputBody b s).icm = s.icm ∧
      (assistInputBody b s).cab = s.cab ∧ (assistInputBody b s).acc = s.acc ∧
      (assistInputBody b s).jnl = s.jnl := by
  simp [assistInputBody]

@[simp] theorem assistPressBody_frame (s : State) :
    Kept.store (assistPressBody s) s ∧ Kept.clock (assistPressBody s) s ∧ (assistPressBody s).tar = s.tar ∧
      (assistPressBody s).pwr = s.pwr ∧ (assistPressBody s).fare = s.fare ∧
      (assistPressBody s).icm = s.icm := by
  simp [assistPressBody]

@[simp] theorem powerGoodBody_frame b (s : State) :
    Kept.store (powerGoodBody b s) s ∧ Kept.clock (powerGoodBody b s) s ∧ (powerGoodBody b s).tar = s.tar ∧
      (powerGoodBody b s).pwr = s.pwr ∧ (powerGoodBody b s).fare = s.fare ∧
      (powerGoodBody b s).icm = s.icm ∧ (powerGoodBody b s).cab = s.cab ∧ (powerGoodBody b s).acc = s.acc ∧
      (powerGoodBody b s).jnl = s.jnl := by
  simp [powerGoodBody]

@[simp] theorem powerLossBody_frame (s : State) :
    Kept.store (powerLossBody s) s ∧ Kept.clock (powerLossBody s) s ∧ (powerLossBody s).tar = s.tar ∧
      (powerLossBody s).fare = s.fare ∧ Kept.speech (powerLossBody s) s ∧ (powerLossBody s).acc = s.acc ∧
      (powerLossBody s).jnl = s.jnl := by
  simp [powerLossBody]

@[simp] theorem tariffEraseBody_frame (s : State) :
    (tariffEraseBody s).pending = s.pending ∧ (tariffEraseBody s).odo = s.odo ∧
      (tariffEraseBody s).pwr = s.pwr ∧ (tariffEraseBody s).fare = s.fare ∧
      (tariffEraseBody s).icm = s.icm ∧ (tariffEraseBody s).cab = s.cab ∧
      (tariffEraseBody s).acc = s.acc := by
  unfold tariffEraseBody
  split <;> simp

@[simp] theorem tariffPartProgramBody_frame (s : State) :
    (tariffPartProgramBody s).pending = s.pending ∧ (tariffPartProgramBody s).odo = s.odo ∧
      (tariffPartProgramBody s).pwr = s.pwr ∧ (tariffPartProgramBody s).fare = s.fare ∧
      (tariffPartProgramBody s).icm = s.icm ∧ (tariffPartProgramBody s).cab = s.cab ∧
      (tariffPartProgramBody s).acc = s.acc := by
  simp only [tariffPartProgramBody]
  (repeat' split) <;> simp

@[simp] theorem tariffMarkBody_frame (s : State) :
    (tariffMarkBody s).pending = s.pending ∧ (tariffMarkBody s).odo = s.odo ∧ (tariffMarkBody s).pwr = s.pwr ∧
      (tariffMarkBody s).fare = s.fare ∧ (tariffMarkBody s).icm = s.icm ∧ (tariffMarkBody s).cab = s.cab ∧
      (tariffMarkBody s).acc = s.acc := by
  unfold tariffMarkBody
  split <;> simp

@[simp] theorem claimDeadlineBody_frame i (s : State) :
    Kept.store (claimDeadlineBody i s) s ∧ Kept.outer (claimDeadlineBody i s) s ∧
      (claimDeadlineBody i s).icm = s.icm ∧ (claimDeadlineBody i s).jnl = s.jnl := by
  unfold claimDeadlineBody
  split <;> simp

@[simp] theorem attemptDeadlineBody_frame i (s : State) :
    Kept.store (attemptDeadlineBody i s) s ∧ Kept.outer (attemptDeadlineBody i s) s ∧
      Kept.speech (attemptDeadlineBody i s) s ∧ (attemptDeadlineBody i s).jnl = s.jnl := by
  unfold attemptDeadlineBody
  split <;> simp

@[simp] theorem signResendBody_frame (s : State) :
    Kept.store (signResendBody s) s ∧ Kept.outer (signResendBody s) s ∧ (signResendBody s).fare = s.fare ∧
      (signResendBody s).icm = s.icm := by
  simp only [signResendBody]
  (repeat' split) <;> simp

@[simp] theorem assistRepeatBody_frame (s : State) :
    Kept.store (assistRepeatBody s) s ∧ Kept.outer (assistRepeatBody s) s ∧
      (assistRepeatBody s).fare = s.fare ∧ (assistRepeatBody s).icm = s.icm ∧
      (assistRepeatBody s).acc = s.acc ∧ (assistRepeatBody s).jnl = s.jnl := by
  unfold assistRepeatBody
  split <;> simp

@[simp] theorem ringTimerBody_frame (s : State) :
    Kept.store (ringTimerBody s) s ∧ Kept.outer (ringTimerBody s) s ∧ (ringTimerBody s).fare = s.fare ∧
      Kept.speech (ringTimerBody s) s ∧ (ringTimerBody s).cab = s.cab ∧ (ringTimerBody s).acc = s.acc ∧
      (ringTimerBody s).jnl = s.jnl := by
  unfold ringTimerBody
  split <;> simp

@[simp] theorem holdBoundaryBody_frame (s : State) :
    Kept.store (holdBoundaryBody s) s ∧ Kept.outer (holdBoundaryBody s) s ∧
      (holdBoundaryBody s).fare = s.fare ∧ (holdBoundaryBody s).icm.gains = s.icm.gains ∧
      (holdBoundaryBody s).cab = s.cab ∧ (holdBoundaryBody s).acc = s.acc ∧
      (holdBoundaryBody s).jnl = s.jnl := by
  simp only [Kept.store, Kept.outer]
  unfold holdBoundaryBody
  refine ⟨⟨foldl_inv (fun u : State => u.pending) _ ?_ _ _, foldl_inv (fun u : State => u.array) _ ?_ _ _⟩,
    ⟨foldl_inv (fun u : State => u.odo) _ ?_ _ _, foldl_inv (fun u : State => u.tar) _ ?_ _ _,
      foldl_inv (fun u : State => u.pwr) _ ?_ _ _⟩, foldl_inv (fun u : State => u.fare) _ ?_ _ _,
    foldl_inv (fun u : State => u.icm.gains) _ ?_ _ _, foldl_inv (fun u : State => u.cab) _ ?_ _ _,
    foldl_inv (fun u : State => u.acc) _ ?_ _ _, foldl_inv (fun u : State => u.jnl) _ ?_ _ _⟩ <;>
    (intros; simp)

@[simp] theorem journalProgramBody_frame (s : State) :
    (journalProgramBody s).pending = s.pending ∧ (journalProgramBody s).tar = s.tar ∧
      (journalProgramBody s).pwr = s.pwr ∧ (journalProgramBody s).icm = s.icm := by
  unfold journalProgramBody
  split <;> simp

@[simp] theorem journalEraseBody_frame (s : State) :
    (journalEraseBody s).pending = s.pending ∧ Kept.outer (journalEraseBody s) s ∧
      (journalEraseBody s).fare = s.fare ∧ (journalEraseBody s).icm = s.icm ∧
      (journalEraseBody s).cab = s.cab ∧ (journalEraseBody s).acc = s.acc := by
  unfold journalEraseBody
  split <;> simp

@[simp] theorem lineCharacterBody_frame c (s : State) :
    Kept.store (lineCharacterBody c s) s ∧ Kept.outer (lineCharacterBody c s) s ∧
      (lineCharacterBody c s).fare = s.fare ∧ (lineCharacterBody c s).icm = s.icm ∧
      (lineCharacterBody c s).cab = s.cab ∧ (lineCharacterBody c s).acc = s.acc ∧
      (lineCharacterBody c s).jnl = s.jnl := by
  simp [lineCharacterBody]

@[simp] theorem idleGapBody_frame (s : State) :
    Kept.store (idleGapBody s) s ∧ Kept.outer (idleGapBody s) s ∧ (idleGapBody s).fare = s.fare ∧
      (idleGapBody s).icm = s.icm ∧ (idleGapBody s).cab = s.cab ∧ (idleGapBody s).acc = s.acc ∧
      (idleGapBody s).jnl = s.jnl := by
  unfold idleGapBody
  split <;> simp

@[simp] theorem fareIntervalBody_frame i (s : State) :
    Kept.store (fareIntervalBody i s) s ∧ Kept.outer (fareIntervalBody i s) s ∧
      (fareIntervalBody i s).fare = s.fare ∧ (fareIntervalBody i s).icm = s.icm ∧
      (fareIntervalBody i s).cab = s.cab ∧ (fareIntervalBody i s).acc = s.acc ∧
      (fareIntervalBody i s).jnl = s.jnl := by
  unfold fareIntervalBody
  split <;> simp

@[simp] theorem pulseInputBody_frame b (s : State) :
    Kept.store (pulseInputBody b s) s ∧ Kept.clock (pulseInputBody b s) s ∧ (pulseInputBody b s).tar = s.tar ∧
      (pulseInputBody b s).pwr = s.pwr ∧ (pulseInputBody b s).fare = s.fare ∧
      (pulseInputBody b s).icm = s.icm ∧ (pulseInputBody b s).cab = s.cab ∧
      (pulseInputBody b s).acc = s.acc ∧ (pulseInputBody b s).jnl = s.jnl := by
  simp [pulseInputBody]

@[simp] theorem discardBody_frame (s : State) :
    Kept.store (discardBody s) s ∧ Kept.outer (discardBody s) s ∧ (discardBody s).fare = s.fare ∧
      (discardBody s).icm = s.icm ∧ (discardBody s).cab = s.cab ∧ (discardBody s).acc = s.acc ∧
      (discardBody s).jnl = s.jnl := by
  unfold discardBody
  split <;> simp

@[simp] theorem samplePeriodBody_frame m (s : State) :
    Kept.store (samplePeriodBody m s) s ∧ Kept.outer (samplePeriodBody m s) s ∧
      (samplePeriodBody m s).fare = s.fare ∧ (samplePeriodBody m s).jnl = s.jnl := by
  simp [samplePeriodBody]

@[simp] theorem tariffCommitProgramBody_frame us (s : State) :
    (tariffCommitProgramBody us s).pending = s.pending ∧ (tariffCommitProgramBody us s).odo = s.odo ∧
      (tariffCommitProgramBody us s).pwr = s.pwr ∧ (tariffCommitProgramBody us s).fare = s.fare ∧
      (tariffCommitProgramBody us s).icm = s.icm ∧ (tariffCommitProgramBody us s).acc = s.acc := by
  unfold tariffCommitProgramBody
  split <;> simp

end Sys2Proof.Machine
end

section
/-!
SUPPORT. How a command answers: what holds of the next state of a command that acts in one power state, of a request
taken from the receive queue, and of a command that carries array upsets; and the parts of the state that only a few
commands touch.
-/

namespace Sys2Proof.Machine

/-! ### A property of the next state -/

/-- A command answers a next state that has a property. -/
def Answers (P : State → Prop) (o : Out) : Prop := ∃ t, o = .next t ∧ P t

theorem Answers.of_next {P : State → Prop} {o : Out} {t : State} (h : Answers P o) (ht : o = .next t) : P t := by
  obtain ⟨u, hu, hP⟩ := h
  cases hu.symm.trans ht
  exact hP

theorem answers_next {P : State → Prop} {t : State} (h : P t) : Answers P (.next t) := ⟨t, rfl, h⟩

/-- A property that the line interface, the classes of notices and the fault set have no part in. -/
def LineBlind (P : State → Prop) : Prop :=
  ∀ (s : State) (l : Lif) (n : Nsc) (f : Flt), P s → P { s with lif := l, nsc := n, flt := f }

theorem LineBlind.letGo {P : State → Prop} (hP : LineBlind P) {s : State} (h : P s) : P (letGo s) := by
  rcases letGo_or s with e | e <;> rw [e]
  · exact h
  · exact hP s _ s.nsc s.flt h

theorem LineBlind.placeReply {P : State → Prop} (hP : LineBlind P) {s : State} (h : P s) (r : Reply) :
    P (placeReply r s) := by
  unfold Machine.placeReply
  split
  · exact hP s s.lif _ s.flt h
  · exact hP s s.lif s.nsc _ h

theorem LineBlind.lifRefuses {P : State → Prop} (hP : LineBlind P) {s : State} (h : P s) (k : ReqKind) (q : QFrame)
    (c : RefusalCode) : P (lifRefuses k q c s) := by
  unfold Machine.lifRefuses
  split
  · exact h
  · exact hP.placeReply h _

section
variable {P : State → Prop} {s : State} (hs : P s)
include hs

theorem answers_ite {b : Prop} [Decidable b] {t : State} (ht : b → P t) :
    Answers P (.next (if b then t else s)) := by
  refine answers_next ?_
  split
  · exact ht (by assumption)
  · exact hs

theorem answers_whenActive {f : State → State} (hf : s.pwr.state = .active → P (f s)) : Answers P (whenActive f s) :=
  answers_ite hs hf

theorem answers_whenPowered {f : State → State} (hf : P (f s)) : Answers P (whenPowered f s) :=
  answers_ite hs fun _ => hf

/-- A request that is taken keeps a property that its own action keeps (01 R10). -/
theorem answers_takes (hP : LineBlind P) {k : ReqKind} {act : QFrame → Station → State → State}
    (hact : ∀ q e u, u.pwr = s.pwr → P u → P (act q e u)) : Answers P (takes k act s) := by
  refine answers_whenActive hs fun _ => hP.letGo ?_
  have hrest : ∀ rest, P { s with lif.queue := rest } := fun rest => hP s _ s.nsc s.flt hs
  unfold taken
  dsimp only
  split
  · exact hs
  · split
    · split
      · exact hP.lifRefuses (hrest _) k _ _
      · split
        · exact hP.lifRefuses (hrest _) k _ _
        · split
          · exact hP.lifRefuses (hrest _) k _ _
          · exact hact _ _ _ rfl (hrest _)
    · exact hs

end

/-- A command's upsets lie in the array, so that it does not stop at them (log 12). -/
theorem withArray_of_inArray {us : List Upset} (h : us.all Upset.inArray = true) (o : Out) : withArray us o = o := by
  have : badUpset us = none := by
    rw [badUpset, List.find?_eq_none]
    intro u hu
    simpa using List.all_eq_true.1 h u hu
  simp [withArray, this]

/-- An upset outside the array stops the command (log 12). -/
theorem withArray_of_outside {us : List Upset} (h : us.all Upset.inArray = false) (o : Out) :
    ∃ u : Upset, u.inArray = false ∧ withArray us o = .fault (.outsideArray u.row u.word) := by
  cases hb : badUpset us with
  | none =>
    rw [badUpset, List.find?_eq_none] at hb
    simp only [Bool.not_eq_true', Bool.not_eq_false] at hb
    rw [List.all_eq_true.2 hb] at h
    cases h
  | some u =>
    refine ⟨u, ?_, by simp [withArray, hb]⟩
    rw [badUpset] at hb
    simpa using List.find?_some hb

/-- A command that answers a next state has its upsets in the array. -/
theorem inArray_of_next {us : List Upset} {o : Out} {t : State} (h : withArray us o = .next t) :
    us.all Upset.inArray = true ∧ o = .next t := by
  cases hb : us.all Upset.inArray with
  | true => exact ⟨rfl, (withArray_of_inArray hb o).symm.trans h⟩
  | false =>
    obtain ⟨u, -, hu⟩ := withArray_of_outside hb o
    cases hu.symm.trans h

theorem rows_of_inArray {us : List Upset} (h : us.all Upset.inArray = true) : ∀ u ∈ us, u.row < 2048 := by
  intro u hu
  have hin := List.all_eq_true.1 h u hu
  simp only [Upset.inArray, decide_eq_true_eq] at hin
  exact hin.1

/-! ### The commands that touch a part of the state -/

/-- The commands that write the array. -/
def writesArray : Instr → Bool
  | .backupSupplyFail _ => true
  | .wake .. => true
  | .coldStart .. => true
  | .tariffEraseComplete => true
  | .tariffPartProgramComplete => true
  | .tariffMarkProgramComplete => true
  | .tariffCommitProgramComplete _ => true
  | .journalProgramComplete => true
  | .journalEraseComplete => true
  | _ => false

/-- The commands that move or set the clock. -/
def movesClock : Instr → Bool
  | .backupSupplyFail _ => true
  | .coldStart .. => true
  | .clockSecond => true
  | .timeSet => true
  | .journalProgramComplete => true
  | _ => false

/-- The commands that change a leg. -/
def changesLegs : Instr → Bool
  | .backupSupplyFail _ => true
  | .wake .. => true
  | .coldStart .. => true
  | .fareTick => true
  | .watchFires _ => true
  | .hire => true
  | .hold => true
  | .resume => true
  | .void => true
  | .extra => true
  | .flat => true
  | .payClaim => true
  | .claimDeadline _ => true
  | .payStart => true
  | .payResult => true
  | .payCancel => true
  | .attemptDeadline _ => true
  | .cash => true
  | .tip => true
  | .silenceTimeout _ => true
  | .journalProgramComplete => true
  | _ => false

/-- The commands that move a gain or a call of the intercom. -/
def movesCalls : Instr → Bool
  | .backupSupplyFail _ => true
  | .wake .. => true
  | .coldStart .. => true
  | .silenceTimeout _ => true
  | .announce => true
  | .samplePeriod .. => true
  | .call => true
  | .holdBoundary => true
  | .answer => true
  | .endCall => true
  | .privacy => true
  | _ => false

/-- The frame of a command: the queue of commands, and each of the parts above unless it is one of the commands that
touch it. -/
def Framed (c : Instr) (s t : State) : Prop :=
  t.pending = s.pending ∧ (writesArray c = false → t.array = s.array)
    ∧ (movesClock c = false → t.odo.clock = s.odo.clock ∧ t.odo.pendingTime = s.odo.pendingTime)
    ∧ (changesLegs c = false → t.fare.slots = s.fare.slots)
    ∧ (movesCalls c = false → t.icm.gains = s.icm.gains ∧ t.icm.calls = s.icm.calls)

theorem framed_refl (c : Instr) (s : State) : Framed c s s := by simp [Framed]

theorem Framed.trans {c : Instr} {s u t : State} (h : Framed c s u) (h' : Framed c u t) : Framed c s t := by
  obtain ⟨hpending, harray, hclock, hlegs, hcalls⟩ := h
  obtain ⟨hpending', harray', hclock', hlegs', hcalls'⟩ := h'
  refine ⟨hpending'.trans hpending, fun hc => (harray' hc).trans (harray hc), fun hc => ?_,
    fun hc => (hlegs' hc).trans (hlegs hc), fun hc => ?_⟩
  · exact ⟨(hclock' hc).1.trans (hclock hc).1, (hclock' hc).2.trans (hclock hc).2⟩
  · exact ⟨(hcalls' hc).1.trans (hcalls hc).1, (hcalls' hc).2.trans (hcalls hc).2⟩

theorem framed_lineBlind (c : Instr) (s : State) : LineBlind (Framed c s) := fun _ _ _ _ h => h

theorem framed_letGo (c : Instr) (s : State) : Framed c s (letGo s) := (framed_lineBlind c s).letGo (framed_refl c s)

theorem takes_framed {c : Instr} {k : ReqKind} {act : QFrame → Station → State → State} (s : State)
    (h : ∀ q e u, Framed c u (act q e u)) : Answers (Framed c s) (takes k act s) :=
  answers_takes (framed_refl c s) (framed_lineBlind c s) fun q e u _ hu => hu.trans (h q e u)

theorem whenActive_framed {c : Instr} {f : State → State} {s : State} (h : Framed c s (f s)) :
    Answers (Framed c s) (whenActive f s) :=
  answers_whenActive (framed_refl c s) fun _ => h

theorem whenPowered_framed {c : Instr} {f : State → State} {s : State} (h : Framed c s (f s)) :
    Answers (Framed c s) (whenPowered f s) :=
  answers_whenPowered (framed_refl c s) h

theorem whenActive_letGo_framed {c : Instr} {f : State → State} {s : State} (h : Framed c s (f s)) :
    Answers (Framed c s) (whenActive (fun s => letGo (f s)) s) :=
  whenActive_framed (h.trans (framed_letGo c _))

theorem next_framed {c : Instr} {b : Prop} [Decidable b] {s t : State} (h : Framed c s t) :
    Answers (Framed c s) (.next (if b then t else s)) :=
  answers_ite (framed_refl c s) fun _ => h

@[simp] theorem amending_frame (f : State → State) (s : State) :
    Kept.store (amending f s) (f s) ∧ (amending f s).odo = (f s).odo ∧ (amending f s).fare = (f s).fare ∧
      (amending f s).icm = (f s).icm := by
  unfold amending
  dsimp only
  split <;> simp



@[simp] theorem watchFiresBody_frame n (s : State) :
    Kept.store (watchFiresBody n s) s ∧ Kept.clock (watchFiresBody n s) s ∧ (watchFiresBody n s).tar = s.tar ∧
      (watchFiresBody n s).pwr = s.pwr ∧ (watchFiresBody n s).icm = s.icm := by
  simp [watchFiresBody]

@[simp] theorem retainEntryBody_frame (s : State) :
    Kept.store (retainEntryBody s) s ∧ Kept.clock (retainEntryBody s) s ∧ (retainEntryBody s).tar = s.tar ∧
      (retainEntryBody s).fare = s.fare ∧ (retainEntryBody s).icm = s.icm := by
  unfold retainEntryBody
  dsimp only
  split <;> simp

@[simp] theorem wakeBody_frame st d us (s : State) :
    (wakeBody st d us s).pending = s.pending ∧ Kept.clock (wakeBody st d us s) s := by
  unfold wakeBody
  dsimp only
  split <;> simp

@[simp] theorem coldStartBody_pending st x us (s : State) : (coldStartBody st x us s).pending = s.pending := by
  unfold coldStartBody
  dsimp only
  split <;> simp [coldProcedure, coldValues, startInputs]

/-- What a command leaves as it was. -/
theorem exec_framed (c : Instr) (s : State) (h : c.upsets.all Upset.inArray = true) :
    Answers (Framed c s) (exec c s) := by
  cases c with
  | timeSet | band | hire | hold | resume | void | extra | flat | payClaim | payStart | payResult | payCancel | cash | tip
  | faultAck | shiftOpen | shiftClose | duty | book | signState | seat | assistAck | assistClear | call | answer | endCall
  | talk | privacy | printCredit | journalRead | journalCredit | journalRelease | tariffBegin | tariffPart | tariffCommit =>
    exact takes_framed s fun q e u => by unfold Framed writesArray movesClock changesLegs movesCalls; simp
  | rxFrameComplete | lineBreak | txAttemptStart | attemptLost | txSuccess | silenceTimeout | stationRemoval | announceTimer
  | pulseEdge | fareTick | watchFires | signResendTimer | assistRepeatTimer | ringTimer | holdBoundary | lineCharacter
  | receiverIdleGap | fareShowSendInterval | discardedKindFrame =>
    exact whenActive_framed (by unfold Framed writesArray movesClock changesLegs movesCalls; simp)
  | samplePeriod m0 m1 m2 m3 =>
    exact whenActive_letGo_framed
      ⟨by simp, fun _ => by simp, fun _ => by simp, fun _ => by simp, fun h => Bool.noConfusion h⟩
  | announce =>
    exact whenActive_letGo_framed
      ⟨by simp, fun _ => by simp, fun _ => by simp, fun _ => by simp, fun h => Bool.noConfusion h⟩
  | claimDeadline | attemptDeadline =>
    exact whenActive_letGo_framed
      ⟨by simp, fun _ => by simp, fun _ => by simp, fun h => Bool.noConfusion h, fun _ => by simp⟩
  | tariffEraseComplete | tariffPartProgramComplete | tariffMarkProgramComplete | journalEraseComplete =>
    exact whenPowered_framed
      ⟨by simp, fun h => Bool.noConfusion h, fun _ => by simp, fun _ => by simp, fun _ => by simp⟩
  | journalProgramComplete =>
    exact whenPowered_framed (f := fun s => letGo (journalProgramBody s))
      ⟨by simp, fun h => Bool.noConfusion h, fun h => Bool.noConfusion h, fun h => Bool.noConfusion h, fun _ => by simp⟩
  | assistInputChange | powerGoodChange | pulseInputChange =>
    exact answers_next (by unfold Framed writesArray movesClock changesLegs movesCalls; simp)
  | clockSecond | assistPress | powerLoss | retainEntryComplete =>
    exact next_framed (by unfold Framed writesArray movesClock changesLegs movesCalls; simp)
  | backupSupplyFail left =>
    rw [exec, execBackupSupplyFail, withArray_of_inArray (us := left) h]
    exact next_framed (by unfold Framed writesArray movesClock changesLegs movesCalls; simp [offState])
  | wake straps lost us =>
    rw [exec, execWake, withArray_of_inArray (us := us) h]
    exact next_framed (by unfold Framed writesArray movesClock changesLegs movesCalls; simp)
  | coldStart straps extent us =>
    rw [exec, execColdStart, withArray_of_inArray (us := us) h]
    exact next_framed (by unfold Framed writesArray movesClock changesLegs movesCalls; simp)
  | tariffCommitProgramComplete us =>
    rw [exec, execTariffCommitProgramComplete, withArray_of_inArray (us := us) h]
    exact whenPowered_framed (by unfold Framed writesArray movesClock changesLegs movesCalls; simp)

/-- Settles O2: the upsets a command carries decide whether it answers (`withArray_of_inArray`,
`withArray_of_outside`), and its frame holds the queue of commands. -/
theorem everyCommandAnswers : Obligations.EveryCommandAnswers := by
  refine fun c s => ⟨fun h => ?_, fun h => ?_⟩
  · obtain ⟨t, ht, hframe⟩ := exec_framed c s h
    exact ⟨t, ht, hframe.1⟩
  · obtain ⟨o, ho⟩ : ∃ o, exec c s = withArray c.upsets o := by
      cases c <;> exact ⟨_, rfl⟩
    obtain ⟨u, hu, hfault⟩ := withArray_of_outside h o
    exact ⟨u.row, u.word, ho.trans hfault, by simpa [Upset.inArray] using hu⟩

/-- Settles O1, by the definition of a step. -/
theorem stepRunsFrontCommand : Obligations.StepRunsFrontCommand := by
  intro c rest s h
  simp [step, h]
end Sys2Proof.Machine
end

section
/-!
SUPPORT. The invariants of the array (09 section 9.1) and of the clock (02 R27, R28): the commands that touch the one
or the other keep its form.
-/

namespace Sys2Proof.Machine

/-! ### From commands to steps -/

/-- What every command keeps of a state with any queue of commands, every step keeps. -/
theorem step_keeps {P : State → Prop} (hpending : ∀ (s : State) (p : List Instr), P s → P { s with pending := p })
    (hexec : ∀ (c : Instr) (s t : State), P s → exec c s = .next t → P t) {s t : State} (hs : P s)
    (ht : step s = .next t) : P t := by
  unfold step at ht
  split at ht
  · cases ht; exact hs
  · exact hexec _ _ t (hpending s _ hs) ht

/-- A command that answers a next state has its upsets in the array. -/
theorem inArray_of_exec {c : Instr} {s t : State} (h : exec c s = .next t) : c.upsets.all Upset.inArray = true := by
  obtain ⟨o, ho⟩ : ∃ o, exec c s = withArray c.upsets o := by cases c <;> exact ⟨_, rfl⟩
  exact (inArray_of_next (ho.symm.trans h)).1

theorem framed_of_exec {c : Instr} {s t : State} (h : exec c s = .next t) : Framed c s t :=
  (exec_framed c s (inArray_of_exec h)).of_next h

/-! ### The array -/

/-- The array stands in its canonical form. -/
abbrev ArrayCanonical (s : State) : Prop := Memory.wf s.array = true

theorem tariffEraseBody_wf {s : State} (h : ArrayCanonical s) : ArrayCanonical (tariffEraseBody s) := by
  unfold ArrayCanonical tariffEraseBody
  (repeat' split) <;> simp_all [eraseRows_wf]

theorem tariffPartProgramBody_wf {s : State} (h : ArrayCanonical s) : ArrayCanonical (tariffPartProgramBody s) := by
  unfold ArrayCanonical tariffPartProgramBody
  dsimp only
  (repeat' split) <;> simp_all [programRow_wf, rowOfPart_length]

theorem tariffMarkBody_wf {s : State} (h : ArrayCanonical s) : ArrayCanonical (tariffMarkBody s) := by
  unfold ArrayCanonical tariffMarkBody
  split <;> simp_all [programMark_wf]

theorem tariffCommitProgramBody_wf {s : State} {us : List Upset} (hus : ∀ u ∈ us, u.row < 2048)
    (h : ArrayCanonical s) : ArrayCanonical (tariffCommitProgramBody us s) := by
  have hrow := fun row count sum => withUpsets_wf (programRow_wf h row (rowOfCommit_length row count sum)) hus
  unfold ArrayCanonical tariffCommitProgramBody
  dsimp only
  (repeat' split) <;> simp_all

theorem journalProgramBody_wf {s : State} (h : ArrayCanonical s) : ArrayCanonical (journalProgramBody s) := by
  unfold ArrayCanonical journalProgramBody
  split <;> simp_all [programRow_wf, rowOfRecord_length]

theorem journalEraseBody_wf {s : State} (h : ArrayCanonical s) : ArrayCanonical (journalEraseBody s) := by
  unfold ArrayCanonical journalEraseBody
  split <;> simp_all [eraseRows_wf]

theorem offState_wf {s : State} {left : List Upset} (hleft : ∀ u ∈ left, u.row < 2048) (h : ArrayCanonical s) :
    ArrayCanonical (offState left s) :=
  withUpsets_wf h fun u hu => hleft u (List.mem_of_mem_filter hu)

theorem wakeBody_wf {s : State} {straps : Straps} {lost : DataWord} {us : List Upset} (hus : ∀ u ∈ us, u.row < 2048)
    (h : ArrayCanonical s) : ArrayCanonical (wakeBody straps lost us s) := by
  have hread := withUpsets_wf h hus
  unfold ArrayCanonical wakeBody
  dsimp only
  split <;> simpa using hread

theorem coldStartBody_wf {s : State} {straps : Straps} {extent : StartExtent} {us : List Upset}
    (hus : ∀ u ∈ us, u.row < 2048) (h : ArrayCanonical s) : ArrayCanonical (coldStartBody straps extent us s) := by
  have hread := withUpsets_wf h hus
  unfold ArrayCanonical coldStartBody
  dsimp only
  split <;> simpa [coldProcedure, coldValues, startInputs] using hread

theorem exec_keeps_wf (c : Instr) (s t : State) (h : ArrayCanonical s) (ht : exec c s = .next t) :
    ArrayCanonical t := by
  have hus : ∀ u ∈ c.upsets, u.row < 2048 := rows_of_inArray (inArray_of_exec ht)
  cases hw : writesArray c with
  | false =>
    obtain ⟨-, harray, -⟩ := framed_of_exec ht
    rwa [ArrayCanonical, harray hw]
  | true =>
    cases c with
    | tariffEraseComplete => exact (answers_whenPowered h (tariffEraseBody_wf h)).of_next ht
    | tariffPartProgramComplete => exact (answers_whenPowered h (tariffPartProgramBody_wf h)).of_next ht
    | tariffMarkProgramComplete => exact (answers_whenPowered h (tariffMarkBody_wf h)).of_next ht
    | journalProgramComplete =>
      refine (answers_whenPowered h (f := fun u => letGo (journalProgramBody u)) ?_).of_next ht
      simpa [ArrayCanonical] using journalProgramBody_wf h
    | journalEraseComplete => exact (answers_whenPowered h (journalEraseBody_wf h)).of_next ht
    | tariffCommitProgramComplete us =>
      exact (answers_whenPowered h (tariffCommitProgramBody_wf hus h)).of_next (inArray_of_next ht).2
    | backupSupplyFail left => exact (answers_ite h fun _ => offState_wf hus h).of_next (inArray_of_next ht).2
    | wake straps lost us => exact (answers_ite h fun _ => wakeBody_wf hus h).of_next (inArray_of_next ht).2
    | coldStart straps extent us =>
      exact (answers_ite h fun _ => coldStartBody_wf hus h).of_next (inArray_of_next ht).2
    | _ => cases hw

/-- Settles O55: the commands that write the array write rows of 64 words, or erase sectors. -/
theorem memoryStaysCanonical : Obligations.MemoryStaysCanonical := fun _ _ hs ht =>
  step_keeps (P := ArrayCanonical) (fun _ _ h => h) exec_keeps_wf hs ht

/-! ### The clock (02 R27, R28) -/

theorem DateTime.ok_iff (t : DateTime) :
    t.ok = true ↔ (2000 ≤ t.year ∧ t.year ≤ 2099) ∧ (1 ≤ t.month ∧ t.month ≤ 12)
      ∧ (1 ≤ t.day ∧ t.day ≤ daysIn t.year t.month) ∧ t.hour ≤ 23 ∧ t.minute ≤ 59 ∧ t.second ≤ 59 := by
  simp [DateTime.ok, and_assoc]

theorem daysIn_pos (year month : Nat) : 1 ≤ daysIn year month := by
  unfold daysIn
  (repeat' split) <;> omega

/-- A second after a legal date and time stands a legal one (R27). -/
theorem DateTime.next_ok {t : DateTime} (h : t.ok = true) : t.next.ok = true := by
  obtain ⟨hyear, hmonth, hday, hhour, hminute, hsecond⟩ := t.ok_iff.1 h
  have hfirst : ∀ year month, 1 ≤ 1 ∧ 1 ≤ daysIn year month := fun year month => ⟨le_rfl, daysIn_pos year month⟩
  rw [DateTime.next]
  split
  · exact (DateTime.ok_iff _).2 ⟨hyear, hmonth, hday, hhour, hminute, Nat.succ_le_of_lt (by omega)⟩
  split
  · exact (DateTime.ok_iff _).2 ⟨hyear, hmonth, hday, hhour, Nat.succ_le_of_lt (by omega), Nat.zero_le _⟩
  split
  · exact (DateTime.ok_iff _).2 ⟨hyear, hmonth, hday, Nat.succ_le_of_lt (by omega), Nat.zero_le _, Nat.zero_le _⟩
  split
  case isTrue hlater =>
    exact (DateTime.ok_iff _).2
      ⟨hyear, hmonth, ⟨Nat.le_add_left _ _, hlater⟩, Nat.zero_le _, Nat.zero_le _, Nat.zero_le _⟩
  split
  case isTrue hlater =>
    exact (DateTime.ok_iff _).2
      ⟨hyear, ⟨Nat.le_add_left _ _, hlater⟩, hfirst _ _, Nat.zero_le _, Nat.zero_le _, Nat.zero_le _⟩
  split
  case isTrue hlater =>
    exact (DateTime.ok_iff _).2 ⟨⟨Nat.le_succ_of_le hyear.1, hlater⟩, (by decide : 1 ≤ 1 ∧ 1 ≤ 12), hfirst _ _, Nat.zero_le _,
      Nat.zero_le _, Nat.zero_le _⟩
  · decide

theorem applyTime_legal {d : DateTime} (hd : d.ok = true) (s : State) : ClocksLegal (applyTime d s) := by
  simp [ClocksLegal, applyTime, hd]

theorem applyPending_legal {s : State} (h : ClocksLegal s) : ClocksLegal (applyPending s) := by
  unfold applyPending
  split
  case h_1 d hd =>
    split
    · simpa [ClocksLegal] using applyTime_legal (h.2 d hd) s
    · exact h
  · exact h

theorem timeSetBody_legal (q : QFrame) (e : Station) {s : State} (h : ClocksLegal s) :
    ClocksLegal (timeSetBody q e s) := by
  unfold timeSetBody
  dsimp only
  cases hok : (timeAt q.payload 0).ok with
  | false => simpa [ClocksLegal] using h
  | true =>
    simp only [Bool.not_true, Bool.false_eq_true, if_false]
    split
    · simpa [ClocksLegal] using applyTime_legal hok s
    · simpa [ClocksLegal, hok] using h.1

theorem freeSlot_legal (i : Fin 4) (l : Leg) {s : State} (h : ClocksLegal s) : ClocksLegal (freeSlot i l s) := by
  have := applyPending_legal (s := endClaimReference l (endPanelReference l (clearLeg i s)))
    (by simpa [ClocksLegal] using h)
  simpa [ClocksLegal, freeSlot] using this

theorem legProgrammed_legal (n : Nat) {s : State} (h : ClocksLegal s) : ClocksLegal (legProgrammed n s) := by
  unfold legProgrammed
  (repeat' split) <;> first | exact h | exact freeSlot_legal _ _ h

theorem programmed_legal (q : Queued) {s : State} (h : ClocksLegal s) : ClocksLegal (programmed q s) := by
  unfold programmed
  split
  · exact legProgrammed_legal _ h
  · simpa [ClocksLegal] using h
  · exact h

theorem journalProgramBody_legal {s : State} (h : ClocksLegal s) : ClocksLegal (journalProgramBody s) := by
  unfold journalProgramBody
  split
  case h_1 row q rest _ _ =>
    dsimp only
    generalize hu : programDue (completeOp _) = u
    have hu' : ClocksLegal u := by rw [← hu]; simpa [ClocksLegal] using h
    simpa [ClocksLegal] using programmed_legal q hu'
  · exact h

theorem clockSecondBody_legal {s : State} (h : ClocksLegal s) : ClocksLegal (amending clockSecondBody s) := by
  have hpending : ∀ d, s.odo.pendingTime.map DateTime.next = some d → d.ok = true := by
    intro d hd
    obtain ⟨c, hc, rfl⟩ := Option.map_eq_some_iff.1 hd
    exact DateTime.next_ok (h.2 c hc)
  simpa [ClocksLegal, clockSecondBody] using ⟨DateTime.next_ok h.1, by simpa using hpending⟩

theorem coldStartBody_legal (straps : Straps) (extent : StartExtent) (us : List Upset) {s : State}
    (h : ClocksLegal s) : ClocksLegal (coldStartBody straps extent us s) := by
  cases extent with
  | whole => simpa [ClocksLegal, coldStartBody, coldProcedure, coldValues] using (by decide : DateTime.epoch.ok = true)
  | cut => simpa [ClocksLegal, coldStartBody, startInputs] using h

theorem exec_keeps_clocks (c : Instr) (s t : State) (h : ClocksLegal s) (ht : exec c s = .next t) : ClocksLegal t := by
  cases hm : movesClock c with
  | false =>
    obtain ⟨-, -, hclock, -⟩ := framed_of_exec ht
    obtain ⟨hnow, hpending⟩ := hclock hm
    rwa [ClocksLegal, hnow, hpending]
  | true =>
    cases c with
    | clockSecond => exact (answers_ite h fun _ => clockSecondBody_legal h).of_next ht
    | timeSet => exact (answers_takes h (fun _ _ _ _ h => h) fun q e _ _ => timeSetBody_legal q e).of_next ht
    | journalProgramComplete =>
      refine (answers_whenPowered h (f := fun u => letGo (journalProgramBody u)) ?_).of_next ht
      simpa [ClocksLegal] using journalProgramBody_legal h
    | backupSupplyFail left =>
      refine (answers_ite h fun _ => ?_).of_next (inArray_of_next ht).2
      exact ⟨(by decide : DateTime.epoch.ok = true), nofun⟩
    | coldStart straps extent us =>
      exact (answers_ite h fun _ => coldStartBody_legal straps extent us h).of_next (inArray_of_next ht).2
    | _ => cases hm

/-- Settles O58: the clock is only ever set to a time that TIME_SET checked, or moved on by a second
(`DateTime.next_ok`). -/
theorem clocksStayLegal : Obligations.ClocksStayLegal := fun _ _ hs ht =>
  step_keeps (P := ClocksLegal) (fun _ _ h => h) exec_keeps_clocks hs ht

end Sys2Proof.Machine
end

section
/-!
SUPPORT. The part in RETAIN (10 R187, R189): the few commands that still act there, and the check word that they amend.
-/

namespace Sys2Proof.Machine

/-! ### Commands that wait for main power -/

theorem whenActive_of_not_active {s : State} (h : s.pwr.state ≠ .active) (f : State → State) :
    whenActive f s = .next s := by
  simp [whenActive, h]

theorem takes_of_not_active {s : State} (h : s.pwr.state ≠ .active) (k : ReqKind)
    (act : QFrame → Station → State → State) : takes k act s = .next s :=
  whenActive_of_not_active h _

theorem whenPowered_of_retain {s : State} (h : s.pwr.state = .retain) (f : State → State) :
    whenPowered f s = .next s := by
  simp [whenPowered, h]

/-! ### The check word -/

/-- The sum of retention memory depends on what it holds alone. -/
theorem retentionSum_congr {s u : State} (h : retained s = retained u) : retentionSum s = retentionSum u := by
  rw [retentionSum, h, retentionSum]

/-- The check word is kept at the sum of retention memory while the part is in RETAIN. -/
abbrev CheckAgrees (s : State) : Prop := s.pwr.state = .retain → s.pwr.check = retentionSum s

/-- A change in RETAIN that goes with its amendment keeps the agreement (R187). -/
theorem amending_agrees {f : State → State} {s : State} (hs : CheckAgrees s) (hf : (f s).pwr = s.pwr) :
    CheckAgrees (amending f s) := by
  intro h
  have hret : s.pwr.state = .retain := by
    unfold amending at h
    dsimp only at h
    split at h
    · assumption
    · rwa [hf] at h
  have hsum : retentionSum (amending f s) = retentionSum (f s) := retentionSum_congr (by simp [amending, hret, retained])
  have hcheck : (amending f s).pwr.check = s.pwr.check + (retentionSum (f s) - retentionSum s) := by
    simp [amending, hret, hf]
  rw [hcheck, hs hret, hsum, add_sub_cancel]

theorem resumeProcedure_active (s : State) : (resumeProcedure s).pwr.state = .active := by
  simp [resumeProcedure, resumed]

theorem wakeBody_leaves_retain (straps : Straps) (lost : DataWord) (us : List Upset) (s : State) :
    (wakeBody straps lost us s).pwr.state ≠ .retain := by
  unfold wakeBody
  dsimp only
  split <;> simp [resumeProcedure_active]

theorem assistInputBody_agrees (high : Bool) {s : State} (hs : CheckAgrees s) : CheckAgrees (assistInputBody high s) := by
  unfold assistInputBody
  dsimp only
  (repeat' split) <;> exact hs

theorem powerGoodBody_agrees (high : Bool) {s : State} (hs : CheckAgrees s) : CheckAgrees (powerGoodBody high s) := by
  unfold powerGoodBody
  split <;> exact hs

theorem pulseInputBody_agrees (high : Bool) {s : State} (hs : CheckAgrees s) : CheckAgrees (pulseInputBody high s) := by
  unfold pulseInputBody
  dsimp only
  (repeat' split) <;> exact hs

/-- Every command keeps the agreement of a part in RETAIN: those that do not act there, those that amend the check word,
those whose change is no part of retention memory, and those that leave RETAIN. -/
theorem exec_keeps_check (c : Instr) (s t : State) (hret : s.pwr.state = .retain) (hs : CheckAgrees s)
    (ht : exec c s = .next t) : CheckAgrees t := by
  have hact : s.pwr.state ≠ .active := by simp [hret]
  have hstands : ∀ {o : Out}, o = .next s → exec c s = o → CheckAgrees t := by
    rintro o rfl ho
    cases ho.symm.trans ht
    exact hs
  cases c with
  | clockSecond => exact (answers_ite hs fun _ => amending_agrees hs (by simp)).of_next ht
  | assistPress => exact (answers_ite hs fun _ => amending_agrees hs (by simp)).of_next ht
  | assistInputChange high => exact (answers_next (assistInputBody_agrees high hs)).of_next ht
  | powerGoodChange high => exact (answers_next (powerGoodBody_agrees high hs)).of_next ht
  | pulseInputChange high => exact (answers_next (pulseInputBody_agrees high hs)).of_next ht
  | backupSupplyFail left =>
    refine (answers_ite hs fun _ h => ?_).of_next (inArray_of_next ht).2
    cases h
  | wake straps lost us =>
    refine (answers_ite hs fun _ h => ?_).of_next (inArray_of_next ht).2
    exact absurd h (wakeBody_leaves_retain straps lost us s)
  | coldStart straps extent us =>
    refine (answers_ite hs fun h => ?_).of_next (inArray_of_next ht).2
    simp [hret] at h
  | powerLoss => exact (answers_ite hs fun h => by simp [hret] at h).of_next ht
  | retainEntryComplete => exact (answers_ite hs fun h => by simp [hret] at h).of_next ht
  | tariffEraseComplete | tariffPartProgramComplete | tariffMarkProgramComplete | journalEraseComplete =>
    exact hstands (whenPowered_of_retain hret _) rfl
  | journalProgramComplete => exact hstands (whenPowered_of_retain hret fun s => letGo (journalProgramBody s)) rfl
  | tariffCommitProgramComplete us =>
    exact hstands (whenPowered_of_retain hret (tariffCommitProgramBody us)) (ht.trans (inArray_of_next ht).2.symm)
  | announce => exact hstands (whenActive_of_not_active hact fun s => letGo (announceBody s)) rfl
  | claimDeadline i => exact hstands (whenActive_of_not_active hact fun s => letGo (claimDeadlineBody i s)) rfl
  | attemptDeadline i => exact hstands (whenActive_of_not_active hact fun s => letGo (attemptDeadlineBody i s)) rfl
  | samplePeriod m0 m1 m2 m3 =>
    exact hstands (whenActive_of_not_active hact fun s => letGo (samplePeriodBody ⟨m0, m1, m2, m3⟩ s)) rfl
  | rxFrameComplete | lineBreak | txAttemptStart | attemptLost | txSuccess | silenceTimeout | stationRemoval | announceTimer
  | pulseEdge | fareTick | watchFires | signResendTimer | assistRepeatTimer | ringTimer | holdBoundary | lineCharacter
  | receiverIdleGap | fareShowSendInterval | discardedKindFrame =>
    exact hstands (whenActive_of_not_active hact _) rfl
  | _ => exact hstands (takes_of_not_active hact _ _) rfl

/-- Settles O59: what changes retention memory in RETAIN amends the check word by the difference (`amending_agrees`), and
no other command that leaves the part there changes it. -/
theorem retainKeepsCheck : Obligations.RetainKeepsCheck := by
  intro s t hret hcheck ht hret'
  unfold step at ht
  split at ht
  case h_1 => cases ht; exact hcheck
  case h_2 c rest _ => exact exec_keeps_check c { s with pending := rest } t hret (fun _ => hcheck) ht hret'

end Sys2Proof.Machine
end

section
/-!
SUPPORT. The ceiling of a leg's total (04 R53): what each operation on the leg table writes, and that no leg it writes
stands above the ceiling.
-/

namespace Sys2Proof.Machine

/-! ### The money of a leg -/

/-- A leg's total is at or below the ceiling. -/
abbrev Leg.underCeiling (l : Leg) : Prop := l.total ≤ 9999999

theorem Leg.addFare_underCeiling {l : Leg} (h : l.underCeiling) (v : Nat) : (l.addFare v).underCeiling := by
  simp only [underCeiling, total, addFare, room, ceilingTotal] at *
  omega

theorem Leg.addExtra_underCeiling {l : Leg} (h : l.underCeiling) (v : Nat) : (l.addExtra v).underCeiling := by
  simp only [underCeiling, total, addExtra, room, ceilingTotal] at *
  omega

theorem Leg.convert_underCeiling {l : Leg} (h : l.underCeiling) (z f : Nat) : (l.convert z f).underCeiling := by
  simp only [underCeiling, total, convert, ceilingTotal] at *
  omega

theorem Leg.stepN_underCeiling (t : Option TariffSet) (n : Nat) {l : Leg} (h : l.underCeiling) :
    (Leg.stepN t n l).underCeiling := by
  induction n generalizing l with
  | zero => exact h
  | succ n ih =>
    refine ih ?_
    unfold Leg.step
    dsimp only
    split
    · exact h
    · exact addFare_underCeiling (l := { l with steps := _ }) h _

/-- The tick takes a leg's whole steps, which R53 bounds. -/
theorem Leg.tick_underCeiling (s : State) (n m p : Nat) {l : Leg} (h : l.underCeiling) :
    ((l.accrue s n p).count m p).underCeiling := by
  have hcount : ∀ k : Leg, (k.count m p).total = k.total := fun k => by
    unfold Leg.count
    split <;> rfl
  rw [underCeiling, hcount]
  unfold Leg.accrue
  dsimp only
  (repeat' split) <;> first | exact h | exact Leg.stepN_underCeiling _ _ h

theorem withAutomatics_underCeiling (s : State) {l : Leg} (h : l.underCeiling) : (withAutomatics s l).underCeiling := by
  unfold withAutomatics
  induction List.range 8 generalizing l with
  | nil => exact h
  | cons k ks ih =>
    refine ih ?_
    dsimp only
    split
    · exact h
    · split
      · exact Leg.addExtra_underCeiling (l := { l with extraCounts := _ }) h _
      · exact h

theorem newLeg_underCeiling (q : QFrame) (s : State) : (newLeg q s).underCeiling := by
  refine withAutomatics_underCeiling s ?_
  simp only [Leg.underCeiling, Leg.total, openFare, ceilingTotal]
  omega

/-! ### The leg table -/

/-- No leg of the slots is above the ceiling. -/
def SlotsUnder (f : Four (Option Leg)) : Prop := ∀ i l, f.get i = some l → l.underCeiling

theorem SlotsUnder.set {f : Four (Option Leg)} (h : SlotsUnder f) (i : Fin 4) {l : Leg} (hl : l.underCeiling) :
    SlotsUnder (f.set i (some l)) := by
  intro j k hk
  rw [Four.get_set] at hk
  split at hk
  · cases hk; exact hl
  · exact h j k hk

theorem SlotsUnder.clear {f : Four (Option Leg)} (h : SlotsUnder f) (i : Fin 4) : SlotsUnder (f.set i none) := by
  intro j k hk
  rw [Four.get_set] at hk
  split at hk
  · cases hk
  · exact h j k hk

theorem SlotsUnder.map {f : Four (Option Leg)} (h : SlotsUnder f) {g : Leg → Leg}
    (hg : ∀ l : Leg, l.underCeiling → (g l).underCeiling) : SlotsUnder (f.map (Option.map g)) := by
  intro i l hl
  rw [Four.get_map] at hl
  obtain ⟨k, hk, rfl⟩ := Option.map_eq_some_iff.1 hl
  exact hg k (h i k hk)

theorem slotsUnder_reset : SlotsUnder State.reset.fare.slots := by
  intro i l h
  fin_cases i <;> cases h

/-- The leg that a request names has a total under the ceiling. -/
theorem SlotsUnder.of_legAt {s : State} (h : SlotsUnder s.fare.slots) {i : Fin 4} {l : Leg} (hl : legAt s i = some l) :
    l.underCeiling := h i l hl

@[simp] theorem clearLeg_slots (i : Fin 4) (s : State) : (clearLeg i s).fare.slots = s.fare.slots.set i none := rfl

@[simp] theorem closeLeg_slots (i : Fin 4) (l : Leg) (s : State) :
    (closeLeg i l s).fare.slots = s.fare.slots.set i (some { l with phase := .closing }) := by
  simp [closeLeg]

theorem endClaim_slots (i : Fin 4) (s : State) :
    (endClaim i s).fare.slots = s.fare.slots
      ∨ ∃ l, legAt s i = some l ∧ (endClaim i s).fare.slots = s.fare.slots.set i (some { l with claim := none }) := by
  unfold endClaim
  (repeat' split) <;> simp_all

theorem SlotsUnder.endClaim {s : State} (h : SlotsUnder s.fare.slots) (i : Fin 4) :
    SlotsUnder (endClaim i s).fare.slots := by
  rcases endClaim_slots i s with e | ⟨l, hl, e⟩ <;> rw [e]
  · exact h
  · exact h.set i (h.of_legAt hl : l.underCeiling)

theorem SlotsUnder.foldl {f : State → Fin 4 → State} (hf : ∀ s i, SlotsUnder s.fare.slots → SlotsUnder (f s i).fare.slots)
    (is : List (Fin 4)) {s : State} (h : SlotsUnder s.fare.slots) : SlotsUnder (is.foldl f s).fare.slots := by
  induction is generalizing s with
  | nil => exact h
  | cons i is ih => exact ih (hf s i h)

/-! ### Opening, holding and closing (04.3–04.5, 04.7) -/

section
variable {s : State} (h : SlotsUnder s.fare.slots)
include h

theorem withLeg_under {q : QFrame} {act : Fin 4 → Leg → State → State}
    (hact : ∀ i l, l.underCeiling → SlotsUnder (act i l s).fare.slots) : SlotsUnder (withLeg q act s).fare.slots := by
  unfold withLeg
  split
  · simpa using h
  · split
    · simpa using h
    · exact hact _ _ (h.of_legAt (by assumption))

theorem hireBody_under (q : QFrame) (e : Station) : SlotsUnder (hireBody q e s).fare.slots := by
  unfold hireBody
  split
  · simpa using h
  · simpa [openLeg] using h.set _ (newLeg_underCeiling q s)
  · simpa using h

theorem holdBody_under (q : QFrame) (e : Station) : SlotsUnder (holdBody q e s).fare.slots := by
  refine withLeg_under h fun i l hl => ?_
  split
  · simpa using h
  · simpa using h.set i (l := { l with phase := .held }) hl

theorem resumeBody_under (q : QFrame) (e : Station) : SlotsUnder (resumeBody q e s).fare.slots := by
  refine withLeg_under h fun i l hl => ?_
  have hopen : ∀ k : Leg, k.underCeiling → SlotsUnder (accept q [] (showLeg i (withdrawOffer i
      (setLeg i { k with phase := .opened } s)))).fare.slots := fun k hk => by
    simpa using h.set i (l := { k with phase := .opened }) hk
  split
  · simpa using h
  split
  · simpa using h
  split
  · simpa using h
  · refine hopen _ ?_
    split <;> exact hl

theorem voidBody_under (q : QFrame) (e : Station) : SlotsUnder (voidBody q e s).fare.slots := by
  refine withLeg_under h fun i l hl => ?_
  (repeat' split) <;> first | simpa using h | skip
  simpa using h.set i (by simp [Leg.total])

theorem totalChanged_under (i : Fin 4) {l : Leg} (hl : l.underCeiling) : SlotsUnder (totalChanged i l s).fare.slots := by
  simpa [totalChanged] using h.set i hl

theorem extraBody_under (q : QFrame) (e : Station) : SlotsUnder (extraBody q e s).fare.slots := by
  refine withLeg_under h fun i l hl => ?_
  split
  · simpa using h
  · dsimp only
    split
    · simpa using h
    · split
      · have hcounted : ∀ counts, Leg.underCeiling { l with extraCounts := counts } := fun _ => hl
        simpa using totalChanged_under h i (Leg.addExtra_underCeiling (hcounted _) _)
      · simpa using h

theorem flatBody_under (q : QFrame) (e : Station) : SlotsUnder (flatBody q e s).fare.slots := by
  refine withLeg_under h fun i l hl => ?_
  split
  · simpa using h
  · dsimp only
    split
    · simpa using h
    · simpa using totalChanged_under h i (l.convert_underCeiling hl _ _)

/-! ### Settlement (06) -/

theorem payClaimBody_under (q : QFrame) (e : Station) : SlotsUnder (payClaimBody q e s).fare.slots := by
  refine withLeg_under h fun i l hl => ?_
  have hclaimed : ∀ c, Leg.underCeiling { l with claim := c } := fun _ => hl
  dsimp only
  (repeat' split) <;> first | simpa using h | simpa using h.set i (hclaimed _)

theorem payStartBody_under (q : QFrame) (e : Station) : SlotsUnder (payStartBody q e s).fare.slots := by
  refine withLeg_under h fun i l hl => ?_
  split
  · simpa using h
  · simpa using h.set i (l := startedLeg q s.time l) hl

theorem settle_under (i : Fin 4) : SlotsUnder (settle i s).fare.slots := by
  have hended := h.endClaim i
  unfold settle
  dsimp only
  split
  · simpa using hended
  · next l hl =>
    have hl' : l.underCeiling := SlotsUnder.of_legAt (s := withdrawOffer i (endClaim i s)) (by simpa using hended) hl
    simpa using hended.set i (l := { l with phase := .closing }) hl'

theorem cardApproval_under (q : QFrame) (i : Fin 4) {l : Leg} (hl : l.underCeiling) (a : Attempt) (v : Nat)
    (r : List Byte) : SlotsUnder (cardApproval q i l a v r s).fare.slots := by
  unfold cardApproval
  dsimp only
  split
  · simpa using h
  · generalize hk : (l.cardTender a.number (min v a.requested) r).setAttempt a.number .approved = k
    have hk' : k.underCeiling := by rw [← hk]; exact hl
    split
    · simpa using settle_under (s := showLeg i (setLeg i k s)) (by simpa using h.set i hk') i
    · simpa using h.set i (l := k.backToHeld s.time) hk'

theorem cardDecline_under (i : Fin 4) {l : Leg} (hl : l.underCeiling) (a : Attempt) (o : AttemptState) :
    SlotsUnder (cardDecline i l a o s).fare.slots := by
  have hback : ((l.setAttempt a.number o).backToHeld s.time).underCeiling := hl
  simpa [cardDecline] using h.set i hback

theorem applyLate_under (q : QFrame) (i : Fin 4) {l : Leg} (hl : l.underCeiling) (a : Attempt) (v : Nat)
    (r : List Byte) : SlotsUnder (applyLate q i l a v r s).fare.slots := by
  unfold applyLate
  dsimp only
  generalize hk : (l.cardTender a.number v r).setAttempt a.number .approvedLate = k
  have hk' : k.underCeiling := by rw [← hk]; exact hl
  split
  · simpa using settle_under (s := showLeg i (dropUnresolved k.number a.number (setLeg i k s)))
      (by simpa using h.set i hk') i
  · simpa using h.set i hk'

theorem lateApproval_under (q : QFrame) (i : Fin 4) {l : Leg} (hl : l.underCeiling) (a : Attempt) (v : Nat)
    (r : List Byte) : SlotsUnder (lateApproval q i l a v r s).fare.slots := by
  have hlisted := h.set i (l := l.setAttempt a.number .approvedLate) hl
  unfold lateApproval
  dsimp only
  split
  · split
    · exact applyLate_under h q i hl a _ r
    · simpa using hlisted
  · simpa using h
  · simpa using h
  · simpa using hlisted

theorem resultOnLeg_under (q : QFrame) (r : Role) (i : Fin 4) {l : Leg} (hl : l.underCeiling) (a : Attempt) :
    SlotsUnder (resultOnLeg q r i l a s).fare.slots := by
  unfold resultOnLeg
  split
  · simpa using h
  · split
    · split
      · simpa using h
      · split
        · exact cardApproval_under h q i hl a _ _
        · simpa using cardDecline_under h i hl a _
    · split
      · simpa using h
      · split
        · exact lateApproval_under h q i hl a _ _
        · next o _ _ _ _ _ => simpa using h.set i (l := l.setAttempt a.number o.attempt) hl
    · simpa using h

theorem payResultBody_under (q : QFrame) (e : Station) : SlotsUnder (payResultBody q e s).fare.slots := by
  unfold payResultBody
  split
  · simpa using h
  · split
    · simpa using h
    · split
      · simpa using h
      · exact resultOnLeg_under h q e.role _ (h.of_legAt (by assumption)) _

theorem releaseClaim_under (i : Fin 4) : SlotsUnder (releaseClaim i s).fare.slots := by
  simpa [releaseClaim] using h.endClaim i

theorem payCancelBody_under (q : QFrame) (e : Station) : SlotsUnder (payCancelBody q e s).fare.slots := by
  refine withLeg_under h fun i l hl => ?_
  split
  · simpa using h
  split
  · simpa using h
  split
  · simpa using releaseClaim_under h i
  split
  · simpa using h
  · simpa using cardDecline_under h i hl _ _

theorem cashBody_under (q : QFrame) (e : Station) : SlotsUnder (cashBody q e s).fare.slots := by
  refine withLeg_under h fun i l hl => ?_
  dsimp only
  split
  · simpa using h
  · generalize hk : l.cashTender (min (q.at 2 4) l.due) = k
    have hk' : k.underCeiling := by
      rw [← hk]
      unfold Leg.cashTender
      split <;> exact hl
    generalize hu : (if min (q.at 2 4) l.due = 0 then setLeg i k s else showLeg i (setLeg i k s)) = u
    have hended : SlotsUnder (endClaim i u).fare.slots := by
      refine SlotsUnder.endClaim ?_ i
      rw [← hu]
      split <;> simpa using h.set i hk'
    split
    · simpa using settle_under hended i
    · simpa using hended

theorem tipBody_under (q : QFrame) (e : Station) : SlotsUnder (tipBody q e s).fare.slots := by
  refine withLeg_under h fun i l hl => ?_
  have htip : ∀ v, Leg.underCeiling { l with tip := v } := fun _ => hl
  dsimp only
  (repeat' split) <;> first | simpa using h | simpa using h.set i (htip _)

theorem claimDeadlineBody_under (i : Fin 4) : SlotsUnder (claimDeadlineBody i s).fare.slots := by
  unfold claimDeadlineBody
  split
  · exact h
  · exact releaseClaim_under (s := passTo _ s) h i

theorem runOut_under (i : Fin 4) {l : Leg} (hl : l.underCeiling) (a : Attempt) :
    SlotsUnder (runOut i l a s).fare.slots := by
  unfold runOut
  dsimp only
  generalize hk : ({ l.setAttempt a.number .indeterminate with phase := .held } : Leg) = k
  have hk' : k.underCeiling := by rw [← hk]; exact hl
  simpa using SlotsUnder.endClaim (s := showLeg i (setLeg i k s)) (by simpa using h.set i hk') i

theorem flyingAt_under {i : Fin 4} {l : Leg} {f : Attempt × Moment} (hf : flyingAt s i = some (l, f)) : l.underCeiling := by
  obtain ⟨k, hk, hmap⟩ := Option.bind_eq_some_iff.1 hf
  split at hmap
  · obtain ⟨_, _, heq⟩ := Option.map_eq_some_iff.1 hmap
    cases heq
    exact h.of_legAt hk
  · cases hmap

theorem attemptDeadlineBody_under (i : Fin 4) : SlotsUnder (attemptDeadlineBody i s).fare.slots := by
  unfold attemptDeadlineBody
  split
  · exact h
  · next l a due hf => simpa using runOut_under (s := passTo due s) h i (flyingAt_under h hf) a

theorem holderAbsent_under (a : Nat) : SlotsUnder (holderAbsent a s).fare.slots := by
  refine SlotsUnder.foldl (fun u i hu => ?_) _ h
  (repeat' split) <;> first | exact hu | exact releaseClaim_under hu i

theorem silenceBody_under (a : Nat) : SlotsUnder (silenceBody a s).fare.slots := by
  unfold silenceBody
  (repeat' split) <;> first | exact h | skip
  simpa [tellAbsent] using holderAbsent_under (by simpa using h) _

/-! ### The tick, the programmed LEG row and the starts -/

omit h in
/-- What a fare tick makes of the slots (R62). -/
theorem fareTick_slots (p : Nat) :
    (fareTick p s).fare.slots
      = s.fare.slots.map (Option.map (fun l => (l.accrue s (occupied s) p).count (occupied s) p)) := by
  refine foldl_inv (fun u : State => u.fare.slots) _ (fun u i => ?_) allSlots _
  split <;> simp

theorem fareTick_under (p : Nat) : SlotsUnder (fareTick p s).fare.slots := by
  rw [fareTick_slots]
  exact h.map fun l hl => l.tick_underCeiling s _ _ p hl

theorem tickBody_under : SlotsUnder (tickBody s).fare.slots := by
  simpa [tickBody] using fareTick_under (s := odoTick (passTo s.odo.tickDue
    { s with odo.tickDue := s.odo.tickDue + tickTime })) (by simpa using h) (clampPulses s.odo.pulseCount)

theorem watchFiresBody_under (a : Nat) : SlotsUnder (watchFiresBody a s).fare.slots := by
  unfold watchFiresBody
  split
  · exact tickBody_under h
  · exact h

theorem legProgrammed_under (n : Nat) : SlotsUnder (legProgrammed n s).fare.slots := by
  unfold legProgrammed
  (repeat' split) <;> first | exact h | skip
  simpa [freeSlot] using h.clear _

theorem programmed_under (q : Queued) : SlotsUnder (programmed q s).fare.slots := by
  unfold programmed
  split
  · exact legProgrammed_under h _
  · simpa using h
  · exact h

theorem journalProgramBody_under : SlotsUnder (journalProgramBody s).fare.slots := by
  unfold journalProgramBody
  split
  case h_1 row q rest _ _ =>
    dsimp only
    generalize hu : programDue (completeOp _) = u
    simpa using programmed_under (s := u) (by rw [← hu]; simpa using h) q
  · exact h

theorem resumeSlot_under (i : Fin 4) : SlotsUnder (resumeSlot s i).fare.slots := by
  unfold resumeSlot
  split
  · exact h
  · next l hl =>
    have hfreed : Leg.underCeiling { l with claim := none } := (h.of_legAt hl : l.underCeiling)
    split
    · simpa using h.set i hfreed
    · split
      · next k a due hf =>
        split
        · exact runOut_under h i (flyingAt_under h hf) a
        · exact h
      · exact h

theorem resumeLegs_under : SlotsUnder (resumeLegs s).fare.slots := by
  refine SlotsUnder.map (SlotsUnder.foldl (fun u i hu => resumeSlot_under hu i) _ h) fun l hl => ?_
  unfold Leg.interrupt
  split <;> exact hl

theorem resumeProcedure_under : SlotsUnder (resumeProcedure s).fare.slots := by
  simpa [resumeProcedure, resumed] using resumeLegs_under (s := resumeIntercom (resumeLine (resumeTariff
    { s with pwr.state := .active, pwr.abandoned := false }))) (by simpa using h)

theorem wakeBody_under (straps : Straps) (lost : DataWord) (us : List Upset) :
    SlotsUnder (wakeBody straps lost us s).fare.slots := by
  unfold wakeBody
  dsimp only
  split
  · exact resumeProcedure_under (by simpa using h)
  · simpa using h

theorem coldStartBody_under (straps : Straps) (extent : StartExtent) (us : List Upset) :
    SlotsUnder (coldStartBody straps extent us s).fare.slots := by
  cases extent with
  | whole => simpa [coldStartBody, coldProcedure, coldValues] using slotsUnder_reset
  | cut => simpa [coldStartBody, startInputs] using h

end

/-! ### Every command -/

/-- No leg of the leg table is above the ceiling. -/
abbrev TableUnder (s : State) : Prop := SlotsUnder s.fare.slots

theorem takes_under {k : ReqKind} {act : QFrame → Station → State → State} {s : State} (h : TableUnder s)
    (hact : ∀ {u : State}, SlotsUnder u.fare.slots → ∀ q e, SlotsUnder (act q e u).fare.slots) :
    Answers TableUnder (takes k act s) :=
  answers_takes h (fun _ _ _ _ hu => hu) fun q e _ _ hu => hact hu q e

theorem whenActive_letGo_under {f : State → State} {s : State} (h : TableUnder s)
    (hf : SlotsUnder (f s).fare.slots) : Answers TableUnder (whenActive (fun u => letGo (f u)) s) :=
  answers_whenActive h fun _ => by simpa [TableUnder] using hf

theorem exec_keeps_ceiling (c : Instr) (s t : State) (h : TableUnder s) (ht : exec c s = .next t) : TableUnder t := by
  cases hc : changesLegs c with
  | false =>
    obtain ⟨-, -, -, hlegs, -⟩ := framed_of_exec ht
    rwa [TableUnder, hlegs hc]
  | true =>
    cases c with
    | hire => exact (takes_under h hireBody_under).of_next ht
    | hold => exact (takes_under h holdBody_under).of_next ht
    | resume => exact (takes_under h resumeBody_under).of_next ht
    | void => exact (takes_under h voidBody_under).of_next ht
    | extra => exact (takes_under h extraBody_under).of_next ht
    | flat => exact (takes_under h flatBody_under).of_next ht
    | payClaim => exact (takes_under h payClaimBody_under).of_next ht
    | payStart => exact (takes_under h payStartBody_under).of_next ht
    | payResult => exact (takes_under h payResultBody_under).of_next ht
    | payCancel => exact (takes_under h payCancelBody_under).of_next ht
    | cash => exact (takes_under h cashBody_under).of_next ht
    | tip => exact (takes_under h tipBody_under).of_next ht
    | fareTick => exact (answers_whenActive h fun _ => tickBody_under h).of_next ht
    | watchFires a => exact (answers_whenActive h fun _ => watchFiresBody_under h a).of_next ht
    | silenceTimeout a => exact (answers_whenActive h fun _ => silenceBody_under h a).of_next ht
    | claimDeadline i => exact (whenActive_letGo_under h (claimDeadlineBody_under h i)).of_next ht
    | attemptDeadline i => exact (whenActive_letGo_under h (attemptDeadlineBody_under h i)).of_next ht
    | journalProgramComplete =>
      refine (answers_whenPowered h (f := fun u => letGo (journalProgramBody u)) ?_).of_next ht
      simpa [TableUnder] using journalProgramBody_under h
    | backupSupplyFail left => exact (answers_ite (t := offState left s) h fun _ => slotsUnder_reset).of_next (inArray_of_next ht).2
    | wake straps lost us => exact (answers_ite h fun _ => wakeBody_under h straps lost us).of_next (inArray_of_next ht).2
    | coldStart straps extent us =>
      exact (answers_ite h fun _ => coldStartBody_under h straps extent us).of_next (inArray_of_next ht).2
    | _ => cases hc

/-- Settles O57: what adds to a leg's money adds no more than the room under the ceiling, and every other command
writes back the money it found. -/
theorem noLegAboveCeiling : Obligations.NoLegAboveCeiling := fun _ _ hs ht =>
  step_keeps (P := TableUnder) (fun _ _ h => h) exec_keeps_ceiling hs ht

end Sys2Proof.Machine
end

section
/-!
SUPPORT. Who is heard where (07 R122, R125, R128, R132): which ports are granted after each operation of the intercom,
and the gains after a ramp step.
-/

namespace Sys2Proof.Machine

/-! ### Call states and grants -/

theorem callRec_congr {s t : State} (h : t.icm.calls = s.icm.calls) (p : Port) : callRec t p = callRec s p := by
  simp [callRec, h]

theorem callPhase_congr {s t : State} (h : t.icm.calls = s.icm.calls) (p : Port) : callPhase t p = callPhase s p := by
  simp [callPhase, callRec, h]

theorem callRec_setCall (p q : Port) (c : CallRec) (s : State) :
    callRec (setCall p c s) q = if q = p then c else callRec s q := by
  simp [callRec, setCall]

theorem callRec_enterPhase (p q : Port) (ph : CallPhase) (r : Reason) (s : State) :
    callRec (enterPhase p ph r s) q = if q = p then { callRec s p with phase := ph, reason := r } else callRec s q := by
  simp [enterPhase, callRec, setCall]

theorem callPhase_enterPhase (p q : Port) (ph : CallPhase) (r : Reason) (s : State) :
    callPhase (enterPhase p ph r s) q = if q = p then ph else callPhase s q := by
  rw [callPhase, callRec_enterPhase]
  split <;> rfl

/-- A port is granted (R125). -/
abbrev granted (s : State) (p : Port) : Bool := (callPhase s p).granted

theorem grantedPort_eq_none {s : State} : grantedPort s = none ↔ ∀ p, granted s p = false := by
  rw [grantedPort, List.find?_eq_none]
  refine ⟨fun h p => ?_, fun h p _ => by simpa using h p⟩
  simpa using h p (by cases p <;> simp [Port.list])

theorem granted_of_grantedPort {s : State} {p : Port} (h : grantedPort s = some p) : granted s p = true := by
  simpa using List.find?_some h

/-- The gains stand, and the ports granted are the ones that were. -/
def GrantsKept (s t : State) : Prop := t.icm.gains = s.icm.gains ∧ ∀ p, granted t p = granted s p

theorem GrantsKept.trans {s u t : State} (h : GrantsKept s u) (h' : GrantsKept u t) : GrantsKept s t :=
  ⟨h'.1.trans h.1, fun p => (h'.2 p).trans (h.2 p)⟩

theorem grantsKept_of_calls {s t : State} (hg : t.icm.gains = s.icm.gains) (hc : t.icm.calls = s.icm.calls) :
    GrantsKept s t :=
  ⟨hg, fun p => by rw [granted, callPhase_congr hc]⟩

/-- A port that moves among the granted phases, or among the others, changes no grant. -/
theorem enterPhase_grantsKept {p : Port} {ph : CallPhase} (r : Reason) {s : State} (h : ph.granted = granted s p) :
    GrantsKept s (enterPhase p ph r s) := by
  refine ⟨by simp, fun q => ?_⟩
  rw [granted, callPhase_enterPhase]
  split
  · simp_all
  · rfl

/-- The call record a grant leaves (R128): the head of the queue is RINGING or LINKED. -/
theorem callPhase_arbitrate {s : State} {e : QEntry} {rest : List QEntry} (hnone : grantedPort s = none)
    (hqueue : s.icm.queue = e :: rest) (q : Port) :
    callPhase (arbitrate s) q
      = if q = e.port then (if s.icm.privacy then .ringing else .linked) else callPhase s q := by
  cases hp : s.icm.privacy <;>
    simp [arbitrate, hnone, hqueue, hp, callPhase, callRec, enterPhase, setCall] <;> split <;> simp_all

/-- The arbiter grants a port only while none is granted (R128). -/
theorem arbitrate_granted (s : State) :
    GrantsKept s (arbitrate s)
      ∨ ∃ p, (∀ q, granted s q = false) ∧ ∀ q, granted (arbitrate s) q = decide (q = p) := by
  cases hnone : grantedPort s with
  | some p => exact .inl (by simp [arbitrate, hnone, GrantsKept])
  | none =>
    cases hqueue : s.icm.queue with
    | nil => exact .inl (by simp [arbitrate, hnone, hqueue, GrantsKept])
    | cons e rest =>
      have hidle := grantedPort_eq_none.1 hnone
      refine .inr ⟨e.port, hidle, fun q => ?_⟩
      rw [granted, callPhase_arbitrate hnone hqueue]
      by_cases hq : q = e.port
      · cases s.icm.privacy <;> simp [hq, CallPhase.granted]
      · simpa [hq] using hidle q

/-! ### The invariant -/

/-- No rear party is heard in a rear compartment, and at most the granted port in the driver's speaker. -/
abbrev VoicesApart (s : State) : Prop := PartiesApart s ∧ OneVoice s

theorem voicesApart_of_grantsKept {s t : State} (h : VoicesApart s) (hk : GrantsKept s t) : VoicesApart t := by
  obtain ⟨hapart, hone, hmute⟩ := h
  obtain ⟨hgains, hgrants⟩ := hk
  simp only [granted] at hgrants
  refine ⟨by simpa [PartiesApart, hgains] using hapart, ?_, ?_⟩
  · simpa only [hgrants] using hone
  · simpa only [hgrants, hgains] using hmute

theorem voicesApart_of_calls {s t : State} (h : VoicesApart s) (hg : t.icm.gains = s.icm.gains)
    (hc : t.icm.calls = s.icm.calls) : VoicesApart t :=
  voicesApart_of_grantsKept h (grantsKept_of_calls hg hc)

/-- A grant while no port is granted keeps the one voice. -/
theorem arbitrate_voicesApart {s : State} (h : VoicesApart s) : VoicesApart (arbitrate s) := by
  rcases arbitrate_granted s with hk | ⟨p, hidle, hgrant⟩
  · exact voicesApart_of_grantsKept h hk
  · obtain ⟨hapart, -, hmute⟩ := h
    simp only [granted] at hgrant hidle
    refine ⟨by simpa [PartiesApart] using hapart, fun q r hq hr => ?_, fun q _ => ?_⟩
    · rw [hgrant, decide_eq_true_eq] at hq hr
      rw [hq, hr]
    · simpa using hmute q (hidle q)

/-! ### The operations of the intercom -/

theorem leaveRinging_grantsKept (s : State) : GrantsKept s (leaveRinging s) := grantsKept_of_calls (by simp) (by simp)

theorem leaveQueue_grantsKept (p : Port) (s : State) : GrantsKept s (leaveQueue p s) :=
  grantsKept_of_calls (by simp) (by simp)

theorem release_grantsKept {p : Port} (r : Reason) {s : State} (h : granted s p = true) :
    GrantsKept s (release p r s) := by
  have henter := enterPhase_grantsKept (ph := .releasing) r h.symm
  unfold release
  dsimp only
  split
  · exact henter.trans (leaveRinging_grantsKept _)
  · exact henter

theorem link_grantsKept {p : Port} {s : State} (h : granted s p = true) : GrantsKept s (link p s) :=
  (enterPhase_grantsKept (ph := .linked) .none h.symm).trans (leaveRinging_grantsKept _)

theorem endQueued_grantsKept {p : Port} (r : Reason) {s : State} (h : callPhase s p = .queued) :
    GrantsKept s (leaveQueue p (enterPhase p .idle r s)) :=
  (enterPhase_grantsKept (ph := .idle) r (by rw [granted, h]; rfl)).trans (leaveQueue_grantsKept p _)

theorem granted_of_phase {s : State} {p : Port} {ph : CallPhase} (h : callPhase s p = ph) : granted s p = ph.granted := by
  rw [granted, h]

theorem unboundCall_grantsKept (p : Port) (s : State) : GrantsKept s (unboundCall p s) := by
  unfold unboundCall
  split
  case h_1 h => exact endQueued_grantsKept .absent h
  case h_2 h => exact release_grantsKept .absent (granted_of_phase h)
  case h_3 h => exact release_grantsKept .absent (granted_of_phase h)
  case h_4 => exact grantsKept_of_calls rfl rfl

theorem endTalkTo_grantsKept (p : Port) (s : State) : GrantsKept s (endTalkTo p s) :=
  grantsKept_of_calls (by simp) (by simp)

theorem portUnbound_grantsKept (p : Port) (s : State) : GrantsKept s (portUnbound p s) :=
  (unboundCall_grantsKept p s).trans (endTalkTo_grantsKept p _)

theorem unbindPort_grantsKept (e : Station) (s : State) : GrantsKept s (unbindPort e s) := by
  unfold unbindPort
  split
  · exact portUnbound_grantsKept _ s
  · exact grantsKept_of_calls rfl rfl

theorem ringing_granted {s : State} {p : Port} (h : ringingPort s = some p) : granted s p = true := by
  have hring : callPhase s p = .ringing := by simpa using List.find?_some h
  exact granted_of_phase hring

theorem boundaryFor_grantsKept (m : Moment) (p : Port) (s : State) : GrantsKept s (boundaryFor m s p) := by
  unfold boundaryFor
  dsimp only
  have hset : ∀ c : CallRec, c.phase = (callRec s p).phase → GrantsKept s (setCall p c s) := by
    intro c hc
    refine ⟨by simp, fun q => ?_⟩
    rw [granted, callPhase, callRec_setCall]
    split
    · simp_all [granted, callPhase]
    · rfl
  split
  · next hgrant =>
    have hup : ∀ u, GrantsKept s u → GrantsKept u (enterPhase p .releasing .timedOut u) := by
      refine fun u hu => enterPhase_grantsKept (ph := .releasing) .timedOut ?_
      rw [hu.2 p]
      rcases hgrant.1 with h | h <;> exact (granted_of_phase h).symm
    have hcounted := hset { callRec s p with boundaries := (callRec s p).boundaries + 1 } rfl
    have hreleased := hcounted.trans (hup _ hcounted)
    split
    · exact hcounted
    · split <;> exact hreleased.trans (grantsKept_of_calls (by simp) (by simp))
  · exact grantsKept_of_calls rfl rfl

/-! ### A ramp step (07 R122, R123, R132) -/

theorem rampStep_zero : rampStep 0 0 = 0 := rfl

/-- The rear microphones have no target in the rear speakers. -/
theorem micTarget_rear (s : State) (p q : Port) : micTarget s q.index p.index = 0 := by
  have : callTarget s q.index p.index = 0 := by cases p <;> cases q <;> rfl
  simp [micTarget, this]

theorem micTarget_driver (s : State) : micTarget s 0 0 = 0 := by simp [micTarget, callTarget, portOfIndex]

/-- The microphone of a port that is not granted has no target in the driver's speaker. -/
theorem micTarget_ungranted {s : State} {p : Port} (h : granted s p = false) : micTarget s p.index 0 = 0 := by
  have hnot : callPhase s p ≠ .linked := fun hl => by simp [granted, hl, CallPhase.granted] at h
  have : callTarget s p.index 0 = 0 := by cases p <;> simp [callTarget, portOfIndex, Port.index, hnot]
  simp [micTarget, this]

/-- The gain of a microphone in a speaker after a ramp step. -/
theorem rampGains_mic (s : State) (spk mic : Fin 4) :
    (rampGains s spk).mic.get mic = rampStep ((s.icm.gains.get spk).mic.get mic) (micTarget s mic spk) := by
  fin_cases mic <;> rfl

/-- The gains after step 3 of a sample period. -/
abbrev ramped (s : State) : Four Gains := ⟨rampGains s 0, rampGains s 1, rampGains s 2, rampGains s 3⟩

theorem ramped_get (s : State) (spk : Fin 4) : (ramped s).get spk = rampGains s spk := by
  fin_cases spk <;> rfl

theorem ramped_voicesApart {s : State} (h : VoicesApart s) (out : Four Sample) :
    VoicesApart { s with icm.out := out, icm.gains := ramped s } := by
  obtain ⟨⟨hrear, hdriver⟩, hone, hmute⟩ := h
  refine ⟨⟨fun p q => ?_, ?_⟩, hone, fun p hp => ?_⟩ <;>
    simp only [ramped_get, rampGains_mic]
  · rw [hrear, micTarget_rear, rampStep_zero]
  · rw [hdriver, micTarget_driver, rampStep_zero]
  · have hp' : granted s p = false := hp
    have htarget := micTarget_ungranted hp'
    rw [hmute p hp']
    exact (congrArg (rampStep 0) htarget).trans rampStep_zero

theorem lookReleased_voicesApart {s : State} (h : VoicesApart s) : VoicesApart (lookReleased s) := by
  unfold lookReleased
  split
  · exact h
  · next p hfind =>
    refine arbitrate_voicesApart ?_
    have hp := List.find?_some hfind
    simp only [Bool.and_eq_true, decide_eq_true_eq] at hp
    obtain ⟨-, hsilent⟩ := hp
    obtain ⟨hapart, hone, hmute⟩ := h
    have hgrant : ∀ r q, (callPhase (enterPhase p .idle r s) q).granted = (decide (q ≠ p) && granted s q) := by
      intro r q
      rw [callPhase_enterPhase]
      split
      · simp_all [CallPhase.granted]
      · simp [granted, *]
    refine ⟨by simpa [PartiesApart] using hapart, fun q r hq hr => ?_, fun q hq => ?_⟩
    · rw [hgrant, Bool.and_eq_true] at hq hr
      exact hone q r hq.2 hr.2
    · rw [hgrant, Bool.and_eq_false_iff] at hq
      rcases hq with hq | hq
      · have : q = p := by simpa using hq
        simpa [this] using hsilent
      · simpa using hmute q hq

theorem playStep_voicesApart {s : State} (h : VoicesApart s) : VoicesApart (playStep s) :=
  voicesApart_of_calls h (by simp) (by simp)

theorem samplePeriodBody_voicesApart (m : Four Sample) {s : State} (h : VoicesApart s) :
    VoicesApart (samplePeriodBody m s) := by
  unfold samplePeriodBody
  dsimp only
  generalize hu : passTo s.icm.sampleDue _ = u
  have hu' : VoicesApart u := by rw [← hu]; exact h
  exact playStep_voicesApart (lookReleased_voicesApart (ramped_voicesApart hu' _))

/-! ### Requests and timers of the intercom -/

section
variable {s : State} (h : VoicesApart s)
include h

theorem joinCalls_voicesApart {p : Port} (a : Nat) (urgent : Bool) (hidle : callPhase s p = .idle) :
    VoicesApart (joinCalls p a urgent s) := by
  unfold joinCalls
  refine arbitrate_voicesApart (voicesApart_of_grantsKept h ?_)
  have hkept := enterPhase_grantsKept (p := p) (ph := .queued) .none (granted_of_phase hidle).symm
  exact ⟨by simp, fun q => by rw [← hkept.2 q]; exact congrArg _ (callPhase_congr (by simp [enterPhase, setCall, callRec]) q)⟩

theorem raiseUrgent_voicesApart (p : Port) : VoicesApart (raiseUrgent p s) :=
  voicesApart_of_calls h (by simp) (by simp)

theorem callBody_voicesApart (q : QFrame) (e : Station) : VoicesApart (callBody q e s) := by
  unfold callBody
  split
  · split
    · exact joinCalls_voicesApart h _ _ (by assumption)
    · exact h
  · split
    · exact joinCalls_voicesApart h _ _ (by assumption)
    · exact raiseUrgent_voicesApart h _
    · exact h
  · split
    · exact voicesApart_of_grantsKept h (endQueued_grantsKept .ended (by assumption))
    · exact voicesApart_of_grantsKept h (release_grantsKept .ended (granted_of_phase (by assumption)))
    · exact voicesApart_of_grantsKept h (release_grantsKept .ended (granted_of_phase (by assumption)))
    · exact h
  · exact h

theorem accept_voicesApart (q : QFrame) (x : List Byte) : VoicesApart (accept q x s) :=
  voicesApart_of_calls h (by simp) (by simp)

theorem refuse_voicesApart (q : QFrame) (r : RefusalCode) : VoicesApart (refuse q r s) :=
  voicesApart_of_calls h (by simp) (by simp)

theorem letGo_voicesApart : VoicesApart (letGo s) := voicesApart_of_calls h (by simp) (by simp)

theorem answerBody_voicesApart (q : QFrame) (e : Station) : VoicesApart (answerBody q e s) := by
  unfold answerBody
  split
  · exact refuse_voicesApart h q _
  · next hring =>
    exact accept_voicesApart (voicesApart_of_grantsKept h (link_grantsKept (ringing_granted hring))) q _

theorem endCallBody_voicesApart (q : QFrame) (e : Station) : VoicesApart (endCallBody q e s) := by
  unfold endCallBody
  split
  · exact refuse_voicesApart h q _
  · next hgrant =>
    refine accept_voicesApart ?_ q _
    split
    · exact h
    · exact voicesApart_of_grantsKept h (release_grantsKept .ended (granted_of_grantedPort hgrant))

theorem privacyBody_voicesApart (q : QFrame) (e : Station) : VoicesApart (privacyBody q e s) := by
  have hoff : VoicesApart { s with icm.privacy := false } := voicesApart_of_calls h rfl rfl
  unfold privacyBody
  split
  · exact accept_voicesApart (s := { s with icm.privacy := true }) (voicesApart_of_calls h rfl rfl) q _
  · split
    · exact refuse_voicesApart h q _
    · refine accept_voicesApart ?_ q _
      split
      · next hring => exact voicesApart_of_grantsKept hoff (link_grantsKept (ringing_granted hring))
      · exact hoff
  · exact refuse_voicesApart h q _

theorem boundaries_voicesApart (m : Moment) (ps : List Port) : VoicesApart (ps.foldl (boundaryFor m) s) := by
  induction ps generalizing s with
  | nil => exact h
  | cons p ps ih => exact ih (voicesApart_of_grantsKept h (boundaryFor_grantsKept m p s))

theorem holdBoundaryBody_voicesApart : VoicesApart (holdBoundaryBody s) :=
  boundaries_voicesApart (s := passTo s.icm.holdDue { s with icm.holdDue := s.icm.holdDue + seconds 15 })
    (voicesApart_of_calls h rfl rfl) s.icm.holdDue Port.list

/-! ### Stations that go, and the power commands -/

theorem unbindPort_voicesApart (e : Station) : VoicesApart (unbindPort e s) :=
  voicesApart_of_grantsKept h (unbindPort_grantsKept e s)

theorem tellAbsent_voicesApart (e : Station) : VoicesApart (tellAbsent e s) :=
  voicesApart_of_calls (unbindPort_voicesApart (voicesApart_of_calls h (t := tellCabAbsent e s) (by simp) (by simp)) e)
    (by simp [tellAbsent]) (by simp [tellAbsent])

theorem silenceBody_voicesApart (a : Nat) : VoicesApart (silenceBody a s) := by
  unfold silenceBody
  dsimp only
  split
  · exact h
  · split
    · exact letGo_voicesApart (tellAbsent_voicesApart (voicesApart_of_calls h (by simp) (by simp)) _)
    · exact h

theorem announced_voicesApart (r : Role) (q : QFrame) : VoicesApart (announced r q s) := by
  unfold announced
  split
  · split <;> exact voicesApart_of_calls h (by simp) (by simp)
  · next e _ =>
    split
    · exact voicesApart_of_calls h (by simp) (by simp)
    · split
      · have hgone : VoicesApart (unbindPort e (removeEntry e.addr s)) :=
          unbindPort_voicesApart (voicesApart_of_calls h (by simp) (by simp)) e
        exact voicesApart_of_calls hgone (by simp [replaceEntry]) (by simp [replaceEntry])
      · exact voicesApart_of_calls h (by simp) (by simp)

theorem announceBody_voicesApart : VoicesApart (announceBody s) := by
  have htaken : ∀ rest, VoicesApart { s with lif.queue := rest } := fun _ => voicesApart_of_calls h rfl rfl
  unfold announceBody
  dsimp only
  split
  · exact h
  · split
    · split
      · exact htaken _
      · split
        · exact htaken _
        · exact announced_voicesApart (htaken _) _ _
    · exact h

end

theorem voicesApart_reset : VoicesApart State.reset := by
  refine ⟨⟨fun p q => ?_, rfl⟩, fun p q hp => ?_, fun p _ => ?_⟩
  · cases p <;> cases q <;> rfl
  · cases p <;> cases hp
  · cases p <;> rfl

theorem wakeBody_voicesApart {s : State} (h : VoicesApart s) (straps : Straps) (lost : DataWord) (us : List Upset) :
    VoicesApart (wakeBody straps lost us s) := by
  unfold wakeBody
  dsimp only
  split
  · exact voicesApart_of_calls voicesApart_reset (by simp [resumeProcedure, resumed, resumeIntercom, State.reset])
      (by simp [resumeProcedure, resumed, resumeIntercom, State.reset])
  · exact voicesApart_of_calls h (by simp) (by simp)

theorem coldStartBody_voicesApart {s : State} (h : VoicesApart s) (straps : Straps) (extent : StartExtent)
    (us : List Upset) : VoicesApart (coldStartBody straps extent us s) := by
  cases extent with
  | whole =>
    exact voicesApart_of_calls voicesApart_reset (by simp [coldStartBody, coldProcedure, coldValues])
      (by simp [coldStartBody, coldProcedure, coldValues])
  | cut => exact voicesApart_of_calls h (by simp [coldStartBody, startInputs]) (by simp [coldStartBody, startInputs])

/-! ### Every command -/

theorem takes_voicesApart {k : ReqKind} {act : QFrame → Station → State → State} {s : State} (h : VoicesApart s)
    (hact : ∀ {u : State}, VoicesApart u → ∀ q e, VoicesApart (act q e u)) : Answers VoicesApart (takes k act s) :=
  answers_takes h (fun _ _ _ _ hu => hu) fun q e _ _ hu => hact hu q e

theorem whenActive_letGo_voicesApart {f : State → State} {s : State} (h : VoicesApart s) (hf : VoicesApart (f s)) :
    Answers VoicesApart (whenActive (fun u => letGo (f u)) s) :=
  answers_whenActive h fun _ => letGo_voicesApart hf

theorem exec_keeps_voices (c : Instr) (s t : State) (h : VoicesApart s) (ht : exec c s = .next t) : VoicesApart t := by
  cases hc : movesCalls c with
  | false =>
    obtain ⟨-, -, -, -, hspeech⟩ := framed_of_exec ht
    exact voicesApart_of_calls h (hspeech hc).1 (hspeech hc).2
  | true =>
    cases c with
    | call => exact (takes_voicesApart h callBody_voicesApart).of_next ht
    | answer => exact (takes_voicesApart h answerBody_voicesApart).of_next ht
    | endCall => exact (takes_voicesApart h endCallBody_voicesApart).of_next ht
    | privacy => exact (takes_voicesApart h privacyBody_voicesApart).of_next ht
    | samplePeriod m0 m1 m2 m3 =>
      exact (whenActive_letGo_voicesApart h (samplePeriodBody_voicesApart _ h)).of_next ht
    | holdBoundary => exact (answers_whenActive h fun _ => holdBoundaryBody_voicesApart h).of_next ht
    | silenceTimeout a => exact (answers_whenActive h fun _ => silenceBody_voicesApart h a).of_next ht
    | announce => exact (whenActive_letGo_voicesApart h (announceBody_voicesApart h)).of_next ht
    | backupSupplyFail left =>
      exact (answers_ite (t := offState left s) h fun _ => voicesApart_reset).of_next (inArray_of_next ht).2
    | wake straps lost us => exact (answers_ite h fun _ => wakeBody_voicesApart h straps lost us).of_next (inArray_of_next ht).2
    | coldStart straps extent us =>
      exact (answers_ite h fun _ => coldStartBody_voicesApart h straps extent us).of_next (inArray_of_next ht).2
    | _ => cases hc

/-- Settles O56: a ramp step moves the gain of a microphone without a target only down to 0, and the arbiter grants a
port only while none is granted. -/
theorem rearPartiesStayApart : Obligations.RearPartiesStayApart := fun _ _ hapart hone ht =>
  step_keeps (P := VoicesApart) (fun _ _ h => h) exec_keeps_voices ⟨hapart, hone⟩ ht

end Sys2Proof.Machine
end

section
/-!
SETTLED OBLIGATIONS. Reset, the receiver, the pulse input, the assist detector, and the loss of main power.
-/

namespace Sys2Proof.Machine

/-! ### Reset -/

theorem legsUnderCeiling_reset : LegsUnderCeiling State.reset := by
  intro i l hl
  fin_cases i <;> cases hl

theorem scannedSectors_nil : scannedSectors [] = State.reset.jnl.sectors := by
  have hfree : ∀ c, scannedSector [] c = SectorEntry.free := fun _ => rfl
  simp only [scannedSectors, hfree, List.map_const', List.length_range]
  rfl

theorem scannedJnl_nil : scannedJnl [] = State.reset.jnl := by
  unfold scannedJnl
  rw [scannedSectors_nil]
  rfl

theorem sixteen_le_erasedRun {s : State} {n c : Nat} (h : sectorErased s c = true) :
    16 ≤ (erasedRun s (n + 1) c).1 := by
  simp [erasedRun, h]

/-- Two erased sectors are ahead already: the write position's own and the next. -/
theorem erasedRowsAhead_reset : 32 ≤ erasedRowsAhead State.reset := by
  have hrun : 16 ≤ (erasedRun State.reset 125 3).1 := sixteen_le_erasedRun rfl
  have hhere : freeHere State.reset = 16 := rfl
  have hpos : nextSector (State.reset.jnl.writePos / 16) = 3 := rfl
  have hqueue : State.reset.jnl.append.length = 0 := rfl
  unfold erasedRowsAhead
  rw [hhere, hpos, hqueue]
  omega

theorem jnlWork_reset : eraseAhead (programDue State.reset) = State.reset := by
  have hdue : programDue State.reset = State.reset := rfl
  have hahead := erasedRowsAhead_reset
  rw [hdue]
  unfold eraseAhead
  dsimp only
  rw [if_neg]
  omega

/-- A blank part in STARTING, with the inputs of a cold start sampled. -/
def blankStart : State := startInputs ⟨0#3, false⟩ [] { State.reset with pwr.state := .starting }

theorem raiseReads_nil (s : State) : raiseReads [] s = s := by
  simp [raiseReads]

theorem coldValues_blankStart : coldValues (raise .retentionLost blankStart) = State.reset := by
  have harray : (raise .retentionLost blankStart).array = [] := rfl
  unfold coldValues
  rw [harray, scannedJnl_nil]
  rfl

theorem coldProcedure_blankStart : coldProcedure blankStart = State.reset := by
  have hrows : ringRows blankStart.array = [] ∧ areaRows blankStart.array = [] := ⟨rfl, rfl⟩
  unfold coldProcedure
  rw [hrows.1, hrows.2, raiseReads_nil, raiseReads_nil]
  dsimp only
  rw [coldValues_blankStart, jnlWork_reset]

/-- A cold start in STARTING that gets to its end runs the whole procedure. -/
theorem coldStart_of_starting (straps : Straps) {s : State} (h : s.pwr.state = .starting) :
    exec (.coldStart straps .whole []) s = .next (coldProcedure (startInputs straps [] s)) := by
  simp [exec, execColdStart, coldStartBody, withArray, badUpset, h]

/-- Settles O60: the scan of an erased array finds nothing, so every block has its cold-start values, which are those of
reset. -/
theorem resetIsBlankColdStart : Obligations.ResetIsBlankColdStart :=
  ⟨(coldStart_of_starting _ rfl).trans (congrArg _ coldProcedure_blankStart), rfl, voicesApart_reset.1, voicesApart_reset.2, legsUnderCeiling_reset,
    ⟨rfl, fun _ h => by cases h⟩, fun _ => ⟨rfl, rfl⟩⟩

/-! ### Commands that act while ACTIVE -/

theorem whenActive_of_active {s : State} (h : s.pwr.state = .active) (f : State → State) :
    whenActive f s = .next (f s) := by
  simp [whenActive, h]

/-! ### The receiver (01 R4) -/

/-- A character that completes no frame is heard, and the receiver moves by it. -/
theorem lineCharacterBody_of_incomplete {c : LineChar} {s : State} (h : completesFrame c s.lif.rx = false) :
    lineCharacterBody c s = { s with
      time := max s.time (s.lif.lineFree + 1375)
      lif.rx := receive s.lif.tx.sending.isSome c s.lif.rx
      lif.lineFree := max s.time (s.lif.lineFree + 1375) } := by
  simp [lineCharacterBody, h, hearChar, passTo, charTime]

theorem receive_ready (sending : Bool) (c : LineChar) :
    receive sending c .ready
      = if charBad c = false ∧ (leadAddress c.data).isSome then .frame sending [c.data] else .skip := by
  cases hb : charBad c <;> cases hl : leadAddress c.data <;> simp [receive, hb, hl]

theorem receive_frame (sending own : Bool) (c : LineChar) (chars : List Byte) :
    receive sending c (.frame own chars)
      = if charBad c = true ∨ (chars.length = 3 ∧ 48 < c.data.toNat) then .skip
        else .frame own (chars ++ [c.data]) := by
  cases hb : charBad c <;> simp [receive, hb]

/-- Settles O3, case by case of the receiver's state. -/
theorem charactersMoveReceiver : Obligations.CharactersMoveReceiver := by
  refine ⟨fun c s hact hc => ?_, fun s hact hrx => ?_⟩
  · refine ⟨_, (whenActive_of_active hact _).trans (congrArg _ (lineCharacterBody_of_incomplete hc)), rfl, rfl, rfl, ?_, ?_,
      fun own chars h => ?_⟩
    · intro h; simp [h, receive]
    · intro h; simp only [h, receive_ready]
    · simp only [h, receive_frame]
  · refine (whenActive_of_active hact _).trans (congrArg _ ?_)
    cases h : s.lif.rx <;> simp_all [idleGapBody, passTo, gapTime, charTime]

/-! ### The pulse input (02 R22, R23) -/

theorem edgeMode_counts (s : State) (high : Bool) :
    (edgeMode s).counts high = (match s.tar.committed.map (fun t => t.general.mode) with
      | some .falling => !high
      | some .both => true
      | _ => high) := by
  unfold edgeMode
  cases s.tar.committed with
  | none => rfl
  | some t =>
    cases h : t.general.mode <;> simp [EdgeMode.counts, h]

/-- Settles O14. -/
theorem qualifiedEdgesAreCounted : Obligations.QualifiedEdgesAreCounted := by
  refine ⟨fun high s hact hnew => ?_, fun m s hact hm => ?_⟩
  · simp [exec, execPulseInputChange, pulseInputBody, hnew, hact]
  · refine (whenActive_of_active hact _).trans (congrArg _ ?_)
    simp only [pulseEdgeBody, hm, passTo, edgeMode_counts]
    rfl

/-! ### The assist input (02 R33) -/

/-- Settles O23: the detector runs in each of the three power states. -/
theorem assistInputMovesDetector : Obligations.AssistInputMovesDetector := by
  intro high s hnew hpwr
  have hruns : detectorRuns s.pwr.state = true := by rcases hpwr with h | h | h <;> simp [h, detectorRuns, clockRuns]
  cases high <;> by_cases harmed : s.odo.detector = .armed <;>
    simp [exec, execAssistInputChange, assistInputBody, hnew, hruns, harmed]

/-! ### The loss of main power (10 R188) -/

/-- Settles O25. -/
theorem powerLossBeginsRetainEntry : Obligations.PowerLossBeginsRetainEntry := by
  refine ⟨fun high s hnew => ?_, fun s hstate hlow => ?_⟩
  · simp [exec, execPowerGoodChange, powerGoodBody, hnew]
  · have hloss : exec .powerLoss s = .next (powerLossBody s) := by
      simp only [exec, execPowerLoss, hstate, hlow, and_self, if_true]
    rw [hloss]
    rfl

end Sys2Proof.Machine
end

section
/-!
SETTLED OBLIGATIONS. The line's checks, the announce timer and the break, NSC's choice, and an attempt's start and loss.
-/

namespace Sys2Proof.Machine

/-! ### The checks of 01 R10 -/

theorem exec_commandOf {k : ReqKind} (h : k ≠ .announce) (s : State) :
    ∃ act, exec (commandOf k) s = takes k act s := by
  cases k
  case announce => exact absurd rfl h
  all_goals exact ⟨_, rfl⟩

/-- A frame that fails one of checks 2 to 4 is refused by LIF with the code of the first one it fails. -/
theorem taken_fails {k : ReqKind} (act : QFrame → Station → State → State) {q : QFrame} {rest : List QFrame} {s : State}
    (hqueue : s.lif.queue = q :: rest) (hkind : ReqKind.ofCode q.kind = some k)
    (hfail : (stationOf s q.src).all (fun e => !mayRole e.role k || !(lengths k).contains q.payload.length) = true) :
    taken k act s = lifRefuses k q
      (if (stationOf s q.src).all (fun e => !mayRole e.role k) then .notAllowed else .range)
      { s with lif.queue := rest } := by
  have hstation : stationOf { s with lif.queue := rest } q.src = stationOf s q.src := rfl
  simp only [taken, hqueue, hkind, if_true, hstation]
  cases he : stationOf s q.src with
  | none => simp
  | some e =>
    rw [he] at hfail
    cases hrole : mayRole e.role k
    · simp [hrole]
    · have hlen : q.payload.length ∉ lengths k := by simpa [hrole] using hfail
      simp [hrole, hlen]

/-- Settles O5. -/
theorem failedLineChecksRefuse : Obligations.FailedLineChecksRefuse := by
  refine ⟨fun q rest s hact hqueue hkind => ?_, fun k q rest s hne hact hqueue hkind hfail => ?_⟩
  · refine (whenActive_of_active hact _).trans (congrArg _ ?_)
    simp [discardBody, hqueue, hkind]
  · obtain ⟨act, hexec⟩ := exec_commandOf hne s
    refine ⟨_, hexec.trans (whenActive_of_active hact (fun u => letGo (taken k act u))), ?_⟩
    rw [taken_fails act hqueue hkind hfail]
    unfold lifRefuses
    cases hr : isReport k
    · obtain ⟨hanswer, hline, hfaults, hframe⟩ := onlyRefused_letGo_refuse q
        (if (stationOf s q.src).all (fun e => !mayRole e.role k) then RefusalCode.notAllowed else .range) rest s
      exact ⟨hline, hfaults, hanswer, hframe⟩
    · refine ⟨lineKept_letGo rfl, faultsKept_letGo ⟨rfl, fun _ _ => rfl, fun _ => rfl⟩, by simp, ?_⟩
      apply State.ext <;> simp

/-! ### The announce timer and the break (01 R18, R19) -/

/-- Settles O6. -/
theorem announceTimerAndBreakAct : Obligations.AnnounceTimerAndBreakAct := by
  refine ⟨fun s hact => ⟨_, whenActive_of_active hact _, ?_⟩, fun past s hact => ⟨_, whenActive_of_active hact _, ?_⟩⟩
  · refine ⟨by simp [announceTimerBody, placeAnnounce], by simp [announceTimerBody, placeAnnounce, announceTime, seconds],
      by simp [announceTimerBody, placeAnnounce, passTo], ?_⟩
    apply State.ext
    case lif =>
      apply Lif.ext <;> simp [announceTimerBody, placeAnnounce]
      apply Transmitter.ext <;> simp
    all_goals simp [announceTimerBody, placeAnnounce]
  · refine ⟨by simp [breakBody, placeAnnounce, passTo, breakTime, charTime], by simp [breakBody, placeAnnounce],
      by simp [breakBody, placeAnnounce],
      renew_free _ rfl, by simp [breakBody, placeAnnounce],
      by simp [breakBody, placeAnnounce, announceTime, seconds], by simp [breakBody, placeAnnounce],
      by simp [breakBody, placeAnnounce], ?_⟩
    apply State.ext <;> simp [breakBody, placeAnnounce]

/-! ### NSC's choice (01 R17) -/

/-- What a list's first match is to every other match, in a list ordered by a relation. -/
theorem rel_of_find? {α : Type} {R : α → α → Prop} {p : α → Bool} (hrefl : ∀ a, R a a) {l : List α} (hl : l.Pairwise R)
    {a b : α} (ha : l.find? p = some a) (hb : b ∈ l) (hp : p b = true) : R a b := by
  obtain ⟨-, before, after, rfl, hbefore⟩ := List.find?_eq_some_iff_append.1 ha
  rcases List.mem_append.1 hb with hb | hb
  · simp_all
  · rcases List.mem_cons.1 hb with rfl | hb
    · exact hrefl _
    · exact (List.pairwise_cons.1 (List.pairwise_append.1 hl).2.1).1 b hb

/-- A sendable notice stands in NSC's order. -/
theorem mem_askingOrder {s : State} {n : Notice} (h : sendable s n = true) : n ∈ askingOrder s := by
  have hround : ∀ last i : Fin 4, i ∈ roundFour last := by decide
  have hports : ∀ last p : Port, p ∈ roundPorts last := fun last p => by cases last <;> cases p <;> decide
  cases n with
  | offer i => simpa [askingOrder] using hround s.nsc.lastOffer i
  | call p => simpa [askingOrder] using hports s.nsc.lastCall p
  | fare i => simpa [askingOrder] using hround s.nsc.lastFare i
  | fleet k =>
    have : ∃ x ∈ s.nsc.fleet, x.kind = k := by
      simp only [sendable, Bool.and_eq_true, List.any_eq_true, decide_eq_true_eq] at h
      exact h.1
    simpa [askingOrder] using this
  | _ => simp [askingOrder]

/-- A notice's place in NSC's order: by class, and in classes 3 to 5 by turn. -/
def askRank (s : State) : Notice → Nat
  | .offer i => 4 * 3 + (i - s.nsc.lastOffer - 1).val
  | .call p => 4 * 4 + (p.number + 2 - s.nsc.lastCall.number) % 3
  | .fare i => 4 * 5 + (i - s.nsc.lastFare - 1).val
  | n => 4 * noticeClass n

theorem askRank_class (s : State) (n : Notice) : askRank s n / 4 = noticeClass n := by
  cases n <;> simp only [askRank, noticeClass] <;> omega

theorem map_askRank (s : State) : (askingOrder s).map (askRank s)
    = [0, 4, 8, 12, 13, 14, 15, 16, 17, 18, 20, 21, 22, 23] ++ List.replicate s.nsc.fleet.length 24 ++ [28, 32, 36] := by
  have hround : ∀ (c : Nat) (last : Fin 4),
      (roundFour last).map (fun i => c + (i - last - 1).val) = [c, c + 1, c + 2, c + 3] := by
    intro c last
    fin_cases last <;> rfl
  have hports : ∀ (c : Nat) (last : Port),
      (roundPorts last).map (fun p => c + (p.number + 2 - last.number) % 3) = [c, c + 1, c + 2] := by
    intro c last
    cases last <;> rfl
  have hoffers : (roundFour s.nsc.lastOffer).map (fun i => askRank s (.offer i)) = [12, 13, 14, 15] :=
    hround 12 s.nsc.lastOffer
  have hcalls : (roundPorts s.nsc.lastCall).map (fun p => askRank s (.call p)) = [16, 17, 18] :=
    hports 16 s.nsc.lastCall
  have hfares : (roundFour s.nsc.lastFare).map (fun i => askRank s (.fare i)) = [20, 21, 22, 23] :=
    hround 20 s.nsc.lastFare
  have hfleet : s.nsc.fleet.map (fun x => askRank s (.fleet x.kind)) = List.replicate s.nsc.fleet.length 24 :=
    List.map_const' ..
  simp only [askingOrder, List.map_append, List.map_map, Function.comp_def, hoffers, hcalls, hfares, hfleet]
  rfl

theorem askingOrder_sorted (s : State) : (askingOrder s).Pairwise (fun n m => askRank s n ≤ askRank s m) := by
  rw [← List.pairwise_map (f := askRank s) (R := (· ≤ ·)), map_askRank]
  have hfront : ∀ a ∈ [0, 4, 8, 12, 13, 14, 15, 16, 17, 18, 20, 21, 22, 23], a ≤ 23 := by decide
  have hback : ∀ b ∈ [28, 32, 36], 28 ≤ b := by decide
  refine List.pairwise_append.2 ⟨List.pairwise_append.2 ⟨by decide, by simp [List.pairwise_replicate], ?_⟩, by decide, ?_⟩
  · intro a ha b hb
    have := hfront a ha
    have := List.eq_of_mem_replicate hb
    omega
  · intro a ha b hb
    have := hback b hb
    rcases List.mem_append.1 ha with ha | ha
    · have := hfront a ha
      omega
    · have := List.eq_of_mem_replicate ha
      omega

/-- Where NSC chooses class 6, it takes the oldest item. -/
theorem chooseNotice_fleet {s : State} {k : FleetKind} (h : chooseNotice s = some (.fleet k)) :
    s.nsc.fleet.head?.map (fun x => x.kind) = some k := by
  have hsend : sendable s (.fleet k) = true := List.find?_some h
  obtain ⟨x, hx, hk⟩ : ∃ x ∈ s.nsc.fleet, x.kind = k := by
    simp only [sendable, Bool.and_eq_true, List.any_eq_true, decide_eq_true_eq] at hsend
    exact hsend.1
  cases hfleet : s.nsc.fleet with
  | nil => simp [hfleet] at hx
  | cons y ys =>
    have hy : sendable s (.fleet y.kind) = true := by
      simp only [sendable, Bool.and_eq_true] at hsend ⊢
      exact ⟨by simp [hfleet], hsend.2⟩
    have hfront : List.find? (sendable s) ([.assist, .reply, .sign] ++ (roundFour s.nsc.lastOffer).map .offer
        ++ (roundPorts s.nsc.lastCall).map .call ++ (roundFour s.nsc.lastFare).map .fare) ≠ some (.fleet k) :=
      fun hfind => by simpa using List.mem_of_find?_eq_some hfind
    rw [chooseNotice, askingOrder, List.append_assoc, List.find?_append] at h
    rcases Option.or_eq_some_iff.1 h with hfind | ⟨-, hrest⟩
    · exact absurd hfind hfront
    · simpa [hfleet, hy] using hrest

/-- Settles O7: NSC takes the first sendable notice of an order sorted by class and turn. -/
theorem choiceIsOfLowestSendableClass : Obligations.ChoiceIsOfLowestSendableClass := by
  refine fun s => ⟨fun n h => ?_, fun m hm => ?_⟩
  · have hrank : ∀ m, sendable s m = true → askRank s n ≤ askRank s m := fun m hm =>
      rel_of_find? (R := fun n m => askRank s n ≤ askRank s m) (fun _ => le_rfl) (askingOrder_sorted s) h (mem_askingOrder hm) hm
    refine ⟨List.find?_some h, fun m hm => ?_, fun k hk => chooseNotice_fleet (hk ▸ h), fun i j hi hj => ?_,
      fun p r hp hr => ?_, fun i j hi hj => ?_⟩
    · rw [← askRank_class s n, ← askRank_class s m]
      exact Nat.div_le_div_right (hrank m hm)
    · have := hrank _ hj
      rw [hi] at this
      exact Fin.le_def.2 (Nat.le_of_add_le_add_left this)
    · have := hrank _ hr
      rw [hp] at this
      exact Nat.le_of_add_le_add_left this
    · have := hrank _ hj
      rw [hi] at this
      exact Fin.le_def.2 (Nat.le_of_add_le_add_left this)
  · exact List.find?_isSome.2 ⟨m, mem_askingOrder hm, hm⟩

/-! ### An attempt (01 R12, R13, R14) -/

/-- A sendable notice has content and a destination. -/
theorem frameFor_of_sendable {s : State} {n : Notice} (h : sendable s n = true) : ∃ f, frameFor s n = some f := by
  suffices (contentOf s n).isSome = true by
    obtain ⟨c, hc⟩ := Option.isSome_iff_exists.1 this
    exact ⟨_, by rw [frameFor, hc]; rfl⟩
  cases n with
  | reply =>
    cases hr : s.nsc.replies with
    | nil => simp [sendable, hr] at h
    | cons r rs => simp [contentOf, hr]
  | fare i =>
    simp only [sendable, Bool.and_eq_true] at h
    simpa [contentOf] using h.1
  | fleet k =>
    simp only [sendable, Bool.and_eq_true, Option.isSome_iff_exists] at h
    obtain ⟨hany, a, ha⟩ := h
    have hfind : (s.nsc.fleet.find? (fun x => decide (x.kind = k))).isSome = true := by
      simpa [List.find?_isSome] using hany
    obtain ⟨it, hit⟩ := Option.isSome_iff_exists.1 hfind
    simp [contentOf, hit, ha]
  | journal =>
    simp only [sendable, Bool.and_eq_true, Option.isSome_iff_exists] at h
    obtain ⟨⟨⟨f, hf⟩, c, hc⟩, -⟩ := h
    simp [contentOf, hf, hc]
  | print =>
    simp only [sendable, Bool.and_eq_true, Option.isSome_iff_exists] at h
    obtain ⟨⟨⟨f, hf⟩, a, ha⟩, -⟩ := h
    simp [contentOf, hf, ha]
  | announce =>
    have h' : s.nsc.announce = true := h
    simp [contentOf, h']
  | _ => simpa [contentOf, sendable] using h

/-- An attempt of the notice held, or of NSC's choice, sends the frame of its content. -/
theorem beginAttempt_of_frame {s : State} {n : Notice} {f : List LineChar}
    (hn : s.lif.tx.held = some n ∨ (s.lif.tx.held = none ∧ chooseNotice s = some n)) (hf : frameFor s n = some f) :
    beginAttempt s = { s with
      lif.rx := .ready, lif.tx := { s.lif.tx with held := some n, sending := some f, renewed := false } } := by
  have hpick : s.lif.tx.held.orElse (fun _ => chooseNotice s) = some n := by
    rcases hn with h | ⟨h, hc⟩ <;> simp [*]
  simp only [beginAttempt, hpick, hf]

theorem accessGap_eq (s : State) :
    accessGap s = if s.lif.tx.contention = 0 then 5500 else (4 + 2 * s.lif.address) * 1375 := rfl

theorem onesOf_sentChar (b : Byte) : (onesOf b + (sentChar b).parity.toNat) % 2 = 1 := by
  rcases Nat.mod_two_eq_zero_or_one (onesOf b) with h | h <;> simp [sentChar, h]
  omega

/-- Settles O8. -/
theorem attemptBeginsWithNotice : Obligations.AttemptBeginsWithNotice := by
  refine ⟨?_, ?_, fun s n f hf => ?_⟩
  · intro s hact hfree gap u n f hn hf
    refine (whenActive_of_active hact _).trans (congrArg _ ?_)
    have hu : passTo (s.lif.lineFree + accessGap s) s = u := rfl
    have hnot : ¬ (u.lif.tx.held.isNone ∧ (chooseNotice u).isNone) := by
      rcases hn with h | ⟨-, h⟩
      · exact fun hh => by simp [u, h] at hh
      · exact fun hh => by simp [h] at hh
    simp only [txAttemptBody, hfree, Option.isSome_none, Bool.false_eq_true, if_false, hu, if_neg hnot]
    exact beginAttempt_of_frame hn hf
  · intro i f m s hact htx hshow hsent u hidle
    have hsend : sendable u (.fare i) = true := by
      simp [sendable, u, hshow, hsent, fareShowInterval, milliseconds]
    obtain ⟨n, hn⟩ := Option.isSome_iff_exists.1 ((choiceIsOfLowestSendableClass u).2 _ hsend)
    obtain ⟨b, hb⟩ := frameFor_of_sendable (List.find?_some hn)
    refine ⟨n, b, hn, hb, (whenActive_of_active hact _).trans (congrArg _ ?_)⟩
    have hu : passTo (m + fareShowInterval) s = u := rfl
    have hgap : u.lif.tx.held.isNone ∧ u.lif.tx.sending.isNone ∧ u.lif.lineFree + accessGap u ≤ u.time := by
      have htx' : u.lif.tx = Transmitter.free := htx
      refine ⟨by rw [htx']; rfl, by rw [htx']; rfl, ?_⟩
      rw [accessGap_eq, htx']
      exact hidle
    simp only [fareIntervalBody, hsent, hshow, hu, if_pos hgap]
    have hnone : u.lif.tx.held = none := congrArg Transmitter.held htx
    refine (beginAttempt_of_frame (.inr ⟨hnone, hn⟩) hb).trans ?_
    simp [u, htx, Transmitter.free]
  · obtain ⟨⟨dest, kind, payload⟩, hc, rfl⟩ := Option.map_eq_some_iff.1 hf
    refine ⟨⟨dest, kind, payload, hc, ?_⟩, fun c hmem => ?_⟩
    · simp [List.map_map, Function.comp_def, sentChar]
    · obtain ⟨b, -, rfl⟩ := List.mem_map.1 hmem
      exact ⟨sentChar_good b, rfl, onesOf_sentChar b, rfl⟩

/-- A notice of classes 0 to 6 and 9 that has been dropped is no longer sendable. -/
theorem not_sendable_of_dropped {n : Notice} {s t : State} (hdrop : t.nsc = (dropNotice n s).nsc) (hreply : n ≠ .reply)
    (hclass : noticeClass n ≤ 6 ∨ n = .announce) : sendable t n = false := by
  cases n with
  | reply => exact absurd rfl hreply
  | journal => simp [noticeClass] at hclass
  | print => simp [noticeClass] at hclass
  | _ => simp [sendable, hdrop, dropNotice]

theorem dropNotice_nsc (n : Notice) (s : State) :
    (dropNotice n s).nsc.replies = (if n = .reply then s.nsc.replies.tail else s.nsc.replies)
      ∧ (dropNotice n s).nsc.journal = s.nsc.journal ∧ (dropNotice n s).nsc.print = s.nsc.print := by
  cases n <;> simp [dropNotice]

theorem letGo_of_held {s : State} {n : Notice} (hheld : s.lif.tx.held = some n) (hfree : s.lif.tx.sending = none) :
    letGo s = if sendable s n then s else freeTransmitter s := by
  simp only [letGo, hheld, hfree]

/-- The part as it is after a lost attempt, before the loss is counted out (01 R13). -/
def lostOnce (s : State) : State :=
  { s with lif.rx := loseOwn s.lif.rx
           lif.tx := { s.lif.tx with sending := none, contention := s.lif.tx.contention + 1 } }

theorem attemptLostBody_eq {n : Notice} {f : List LineChar} {s : State} (hheld : s.lif.tx.held = some n)
    (hsending : s.lif.tx.sending = some f) :
    attemptLostBody s = if 16 ≤ s.lif.tx.contention + 1
      then raise .lineContention (freeTransmitter (dropNotice n (lostOnce s))) else letGo (lostOnce s) := by
  unfold attemptLostBody lostOnce
  rw [hheld, hsending]
  rfl

/-- Below 16 losses the notice stays held while it is sendable (01 R13). -/
theorem attemptLostBody_below {n : Notice} {f : List LineChar} {s : State} (hheld : s.lif.tx.held = some n)
    (hsending : s.lif.tx.sending = some f) (hcount : s.lif.tx.contention + 1 < 16) :
    attemptLostBody s = if sendable s n then lostOnce s else freeTransmitter (lostOnce s) := by
  have hsame : sendable (lostOnce s) n = sendable s n := by cases n <;> rfl
  rw [attemptLostBody_eq hheld hsending, if_neg (by omega), letGo_of_held (s := lostOnce s) hheld rfl,
    hsame]

/-- At 16 losses the notice is dropped (01 R14). -/
theorem attemptLostBody_last {n : Notice} {f : List LineChar} {s : State} (hheld : s.lif.tx.held = some n)
    (hsending : s.lif.tx.sending = some f) (hcount : 16 ≤ s.lif.tx.contention + 1) :
    attemptLostBody s = raise .lineContention (freeTransmitter (dropNotice n (lostOnce s))) := by
  rw [attemptLostBody_eq hheld hsending, if_pos hcount]

/-- Settles O9: below 16 losses the notice stays held while it is sendable; at 16 it is dropped. -/
theorem lostAttemptCountsToSixteen : Obligations.LostAttemptCountsToSixteen := by
  intro n f s hact hheld hsending
  refine ⟨_, whenActive_of_active hact _, ?_⟩
  by_cases hcount : s.lif.tx.contention + 1 < 16
  · rw [attemptLostBody_below hheld hsending hcount]
    cases sendable s n <;> simp [freeTransmitter, lostOnce, hcount]
  · rw [attemptLostBody_last hheld hsending (by omega), if_neg hcount]
    obtain ⟨hreplies, hjournal, hprint⟩ := dropNotice_nsc n (lostOnce s)
    refine ⟨⟨by simp [freeTransmitter], by simp [FaultName.index, freeTransmitter, lostOnce],
      not_sendable_of_dropped (s := lostOnce s) rfl, hreplies, hjournal, hprint⟩, by simp [freeTransmitter, lostOnce],
      by simp [freeTransmitter, lostOnce], ?_⟩
    apply State.ext <;> simp [freeTransmitter, lostOnce]

end Sys2Proof.Machine
end

section
/-!
SUPPORT. What asking the journal for a row does (09 R168, R169), read off the state that is asked: a claimed row, a granted or
declined EVENT row, and the totals counted with it.
-/

namespace Sys2Proof.Machine

/-! ### Two states of which JNL is asked alike -/

/-- The two states agree in all that asking for an EVENT row looks at and changes. -/
abbrev AskedAlike (u s : State) : Prop :=
  u.jnl = s.jnl ∧ u.array = s.array ∧ u.pwr.state = s.pwr.state ∧ u.acc = s.acc ∧ occupied u = occupied s

theorem occupied_congr {u s : State} (h : u.fare.slots = s.fare.slots) : occupied u = occupied s := by
  have : slotOccupied u = slotOccupied s := by funext i; simp [slotOccupied, legAt, h]
  simp [occupied, this]

theorem eventGranted_congr {u s : State} (h : AskedAlike u s) (b : EventBody) : eventGranted u b = eventGranted s b := by
  obtain ⟨hj, ha, -, -, hf⟩ := h
  unfold eventGranted eventNeeds
  rw [hf, freeRows_congr hj ha, hj]

/-! ### A claimed row -/

theorem rowClaimed_of_jnl {r : Record} {s t : State} (h : t.jnl = (claim r s).jnl) : RowClaimed r s t := by
  refine ⟨?_, ?_, ?_, ?_, ?_, h⟩ <;> simp [h, claim, enqueueRecord]

/-! ### An EVENT row -/

theorem claimEventIfOpen_acc (time : DateTime) (b : EventBody) (s : State) :
    (claimEventIfOpen time b s).acc = if shiftIsOpen s = true ∧ eventGranted s b = false then
      { s.acc with shift.totals.notJournalled := min 65535 (s.acc.shift.totals.notJournalled + 1) } else s.acc := by
  unfold claimEventIfOpen claimEvent countShift
  cases shiftIsOpen s <;> cases eventGranted s b <;> simp [satAdd]

/-- Of the accounts, asking touches at most the count of events not journalled. -/
theorem claimEventIfOpen_shift (time : DateTime) (b : EventBody) (s : State) :
    (claimEventIfOpen time b s).acc.shift = { s.acc.shift with totals := { s.acc.shift.totals with
      notJournalled := (claimEventIfOpen time b s).acc.shift.totals.notJournalled } } := by
  rw [claimEventIfOpen_acc]
  split <;> rfl

theorem claimEventIfOpen_jnl (time : DateTime) (b : EventBody) (s : State) :
    (claimEventIfOpen time b s).jnl = if shiftIsOpen s = true ∧ eventGranted s b = true then
      (claim (.event ⟨s.acc.shift.number, time, b⟩) s).jnl else s.jnl := by
  unfold claimEventIfOpen claimEvent
  cases hopen : shiftIsOpen s <;> cases eventGranted s b <;> simp [openShift, hopen]

/-- JNL answers alike where it is asked alike. -/
theorem eventAsked_of_alike {time : DateTime} {b : EventBody} {s u t : State} (h : AskedAlike u s)
    (hj : t.jnl = (claimEventIfOpen time b u).jnl) (ha : t.acc = (claimEventIfOpen time b u).acc) :
    EventAsked time b s t := by
  have hgrant := eventGranted_congr h b
  obtain ⟨hjnl, harray, hpwr, hacc, -⟩ := h
  have hopen : shiftIsOpen u = shiftIsOpen s := by simp [shiftIsOpen, hacc]
  rw [claimEventIfOpen_jnl, hgrant, hopen, hacc, claim_jnl_congr hjnl harray hpwr, hjnl] at hj
  rw [claimEventIfOpen_acc, hgrant, hopen, hacc] at ha
  unfold EventAsked
  cases ho : shiftIsOpen s
  · simp [hj, ha, ho]
  · cases hg : eventGranted s b
    · simp [hj, ha, ho, hg]
    · simp only [ho, hg, and_self, if_true] at hj
      simpa [hg, ho, ha] using rowClaimed_of_jnl hj

theorem countShift_eq_counting (f : Totals → Totals) (s : State) : countShift f s = counting f s := rfl

theorem shiftIsOpen_counting (f : Totals → Totals) (s : State) : shiftIsOpen (counting f s) = shiftIsOpen s := by
  unfold counting
  split <;> rfl

/-- An open shift counts what happened, and is then asked for the row. -/
theorem claimEvent_counting (time : DateTime) (b : EventBody) (f : Totals → Totals) (s : State) :
    (if shiftIsOpen s then claimEvent time b (countShift f s) else s) = claimEventIfOpen time b (counting f s) := by
  unfold claimEventIfOpen
  rw [shiftIsOpen_counting, countShift_eq_counting]
  split
  · rfl
  · simp [*]

theorem AskedAlike.counting {u s : State} (h : AskedAlike u s) (f : Totals → Totals) :
    AskedAlike (Machine.counting f u) (Machine.counting f s) := by
  obtain ⟨hj, ha, hp, hacc, hf⟩ := h
  have hopen : shiftIsOpen u = shiftIsOpen s := by simp [shiftIsOpen, hacc]
  simp only [Machine.counting, hopen]
  split
  · exact ⟨hj, ha, hp, by simp [hacc], hf⟩
  · exact ⟨hj, ha, hp, hacc, hf⟩

end Sys2Proof.Machine
end

section
/-!
SETTLED OBLIGATIONS. The fare steps, the tick's counts, the clock, the manual band, the assist press, and the removal of a
station.
-/

namespace Sys2Proof.Machine

/-! ### Steps (04 R53, R67) -/

/-- Money carried in two parts is carried as a whole: the ceiling cuts off what is beyond it. -/
theorem Leg.addFare_addFare (a b : Nat) {l : Leg} (h : l.total ≤ 9999999) :
    (l.addFare a).addFare b = l.addFare (a + b) := by
  have hroom : (l.addFare a).room = l.room - min a l.room := by
    simp only [Leg.addFare, Leg.room, Leg.total, ceilingTotal] at h ⊢
    omega
  have hmoney : min a l.room + min b (l.room - min a l.room) = min (a + b) l.room := by omega
  have hflag : (l.room < a ∨ l.room - min a l.room < b) ↔ l.room < a + b := by omega
  rw [Leg.addFare, hroom]
  simp only [Leg.addFare, Nat.add_assoc, hmoney, Bool.or_assoc, ← Bool.decide_or, hflag]

theorem Leg.addFare_zero (l : Leg) : l.addFare 0 = l := by
  simp [Leg.addFare]

/-- What k steps come to. -/
theorem Leg.stepN_eq (t : Option TariffSet) (k : Nat) (l : Leg) (hsteps : l.steps ≤ 65535) (htotal : l.total ≤ 9999999)
    (hN : (ratesIn t l.openBand).N ≤ 50) :
    Leg.stepN t k l = Leg.addFare ((k - ((ratesIn t l.openBand).N - l.steps)) * (ratesIn t l.regBand).U)
      { l with steps := min 65535 (l.steps + k) } := by
  induction k generalizing l with
  | zero => simp [Leg.stepN, Leg.addFare_zero, hsteps]
  | succ k ih =>
    rw [Leg.stepN]
    by_cases hfree : l.steps + 1 ≤ (ratesIn t l.openBand).N
    · have hstep : l.step t = { l with steps := l.steps + 1 } := by
        simp only [Leg.step, if_pos hfree]
        congr 1
        omega
      have hpaid : k - ((ratesIn t l.openBand).N - (l.steps + 1)) = k + 1 - ((ratesIn t l.openBand).N - l.steps) := by
        omega
      rw [hstep]
      refine (ih { l with steps := l.steps + 1 } (by dsimp only; omega) htotal hN).trans ?_
      dsimp only
      rw [hpaid, Nat.add_assoc, Nat.add_comm 1 k]
    · have hstep : l.step t = Leg.addFare (ratesIn t l.regBand).U { l with steps := min 65535 (l.steps + 1) } := by
        simp only [Leg.step, if_neg hfree]
      have hpaid : k + 1 - ((ratesIn t l.openBand).N - l.steps) = k + 1 := by omega
      have hpaid' : k - ((ratesIn t l.openBand).N - min 65535 (l.steps + 1)) = k := by omega
      have hcount : min 65535 (min 65535 (l.steps + 1) + k) = min 65535 (l.steps + (k + 1)) := by omega
      rw [hstep]
      refine (ih _ (Nat.min_le_left _ _) (Leg.addFare_underCeiling (l := { l with steps := min 65535 (l.steps + 1) }) htotal _) hN).trans ?_
      have htwo := Leg.addFare_addFare (ratesIn t l.regBand).U (k * (ratesIn t l.regBand).U)
        (l := { l with steps := min 65535 (l.steps + (k + 1)) }) htotal
      rw [hpaid, Nat.add_mul, Nat.one_mul, Nat.add_comm (k * _), ← htwo]
      simp only [Leg.addFare, Leg.room, Leg.total, hpaid', hcount]
      rfl

/-- Settles O16. -/
theorem stepsCarryTheirMoney : Obligations.StepsCarryTheirMoney := fun t k l hsteps htotal hN => by
  rw [Leg.stepN_eq t k l hsteps htotal hN]
  rfl

/-! ### The clock (02 R27, R29) -/

theorem daysBefore_succ (year m : Nat) : daysBefore year (m + 1) = daysBefore year m + daysIn year (m + 1) := rfl

theorem daysBefore_eleven (year : Nat) : daysBefore year 11 = if year % 4 = 0 then 335 else 334 := by
  by_cases h : year % 4 = 0 <;> simp [daysBefore, daysIn, h]

/-- The days of a year are over at its last day. -/
theorem dayNumber_newYear {t : DateTime} (hyear : 2000 ≤ t.year) (hmonth : t.month = 12) (hday : t.day = 31) :
    DateTime.dayNumber ⟨t.year + 1, 1, 1, 0, 0, 0⟩ = t.dayNumber + 1 := by
  have hnone : daysBefore (t.year + 1) (1 - 1) = 0 := rfl
  have hover : daysBefore t.year (12 - 1) = if t.year % 4 = 0 then 335 else 334 := daysBefore_eleven t.year
  simp only [DateTime.dayNumber, hmonth, hday, hnone, hover]
  split <;> omega

/-- The days of a month are over at its last day. -/
theorem dayNumber_newMonth {t : DateTime} (hmonth : 1 ≤ t.month) (hday : t.day = daysIn t.year t.month) (hpos : 1 ≤ t.day) :
    DateTime.dayNumber ⟨t.year, t.month + 1, 1, 0, 0, 0⟩ = t.dayNumber + 1 := by
  obtain ⟨m, hm⟩ : ∃ m, t.month = m + 1 := ⟨t.month - 1, by omega⟩
  have hover := daysBefore_succ t.year m
  simp only [DateTime.dayNumber, hm, Nat.add_sub_cancel] at hday ⊢
  omega

/-- One second on, by each way the calendar carries. -/
theorem secondsSince_next {t : DateTime} (h : t.ok = true) (hlast : t ≠ ⟨2099, 12, 31, 23, 59, 59⟩) :
    secondsSince t.next = secondsSince t + 1 := by
  obtain ⟨⟨hyear, hyear'⟩, ⟨hmonth, hmonth'⟩, ⟨hday, hday'⟩, hhour, hminute, hsecond⟩ := t.ok_iff.1 h
  unfold DateTime.next
  split
  · simp only [secondsSince, DateTime.dayNumber]
    omega
  · split
    · simp only [secondsSince, DateTime.dayNumber]
      omega
    · split
      · simp only [secondsSince, DateTime.dayNumber]
        omega
      · split
        · simp only [secondsSince, DateTime.dayNumber]
          omega
        · split
          · have hnew := dayNumber_newMonth hmonth (by omega) hday
            simp only [secondsSince, hnew]
            omega
          · have hm : t.month = 12 := by omega
            have hd : t.day = 31 := by
              have : daysIn t.year t.month = 31 := by rw [hm]; rfl
              omega
            split
            · have hnew := dayNumber_newYear hyear hm hd
              simp only [secondsSince, hnew]
              omega
            · refine absurd ?_ hlast
              obtain ⟨year, month, day, hour, minute, second⟩ := t
              simp only [DateTime.mk.injEq] at *
              omega

theorem clockRuns_of {p : Power} (h : p = .active ∨ p = .entering ∨ p = .retain) : clockRuns p = true := by
  rcases h with rfl | rfl | rfl <;> rfl

/-- A change in RETAIN amends the check word by what it does to the sum; elsewhere nothing is amended (10 R187). -/
theorem amending_check (f : State → State) (s : State) :
    amending f s = { f s with pwr.check := if s.pwr.state = .retain
      then (f s).pwr.check + (retentionSum (f s) - retentionSum s) else (f s).pwr.check } := by
  unfold amending
  split <;> rfl

/-- Settles O20. -/
theorem clockFollowsCalendar : Obligations.ClockFollowsCalendar := by
  refine ⟨fun t h => ⟨DateTime.next_ok h, by rintro rfl; rfl, secondsSince_next h⟩, fun s hpwr => ?_⟩
  refine ⟨amending clockSecondBody s, ?_, ?_⟩
  · simp [exec, execClockSecond, clockRuns_of hpwr]
  · rw [amending_check]
    exact ⟨rfl, rfl, rfl, rfl⟩

/-! ### The manual band (02 R31) -/

theorem bandOf_eq {n : Nat} (h : n < 4) : bandOf n = ⟨n, h⟩ := Fin.ext (Nat.mod_eq_of_lt h)

/-- A BAND by its checks in order: a shift is open, the band is one of the four, and it is present. -/
theorem bandBody_eq (q : QFrame) (e : Station) (s : State) :
    bandBody q e s = if shiftIsOpen s = false then refuse q .noShift s
      else if q.at 0 1 = 255 then accept q [] { s with odo.manualBand := none }
      else if h : q.at 0 1 < 4 then
        if bandPresent s ⟨q.at 0 1, h⟩ = true then accept q [] { s with odo.manualBand := some ⟨q.at 0 1, h⟩ }
        else refuse q .range s
      else refuse q .range s := by
  unfold bandBody
  cases hopen : shiftIsOpen s
  · simp
  · by_cases h255 : q.at 0 1 = 255
    · simp [h255]
    · by_cases h4 : q.at 0 1 < 4
      · have h3 : ¬ 3 < q.at 0 1 := by omega
        cases hp : bandPresent s ⟨q.at 0 1, h4⟩ <;> simp [h255, h4, h3, bandOf_eq h4, hp]
      · have h3 : 3 < q.at 0 1 := by omega
        simp [h255, h4, h3]

/-- Settles O22. -/
theorem bandSetsManualBand : Obligations.BandSetsManualBand := by
  intro q e rest s h
  refine ⟨_, takes_asks bandBody h, ?_⟩
  have hrefused : ∀ c, let t := letGo (refuse q c { s with lif.queue := rest })
      LineKept rest s t ∧ FaultsKept s t ∧ Answered q (.refused c) s t ∧ t.odo = s.odo ∧ t = { s with
        lif := t.lif, nsc := { s.nsc with replies := t.nsc.replies }, odo := t.odo, flt := t.flt } := fun c => by
    obtain ⟨hans, hline, hflt, hrest⟩ := onlyRefused_letGo_refuse q c rest s
    exact ⟨hline, hflt, hans, by simp, hrest.trans (by simp)⟩
  have haccepted : ∀ b, let t := letGo (accept q [] { s with lif.queue := rest, odo.manualBand := b })
      LineKept rest s t ∧ FaultsKept s t ∧ Answered q (.accepted []) s t ∧ t.odo = { s.odo with manualBand := b }
        ∧ t = { s with
          lif := t.lif, nsc := { s.nsc with replies := t.nsc.replies }, odo := t.odo, flt := t.flt } := fun b => by
    refine ⟨lineKept_letGo (by simp), faultsKept_accept rfl rfl, answered_accept rfl, by simp, ?_⟩
    apply State.ext <;> simp
    apply Nsc.ext <;> simp
  have hopen : shiftIsOpen { s with lif.queue := rest } = shiftIsOpen s := rfl
  have hpresent : ∀ b, bandPresent { s with lif.queue := rest } b = bandPresent s b := fun _ => rfl
  simp only [bandBody_eq, hopen, hpresent]
  split
  · simpa using hrefused .noShift
  · split
    · simpa using haccepted none
    · split
      · split
        · simpa using haccepted (some _)
        · simpa using hrefused .range
      · simpa using hrefused .range

end Sys2Proof.Machine
end

section
/-!
SETTLED OBLIGATIONS. Time sets, the assist press, and the end of RETAIN entry.
-/

namespace Sys2Proof.Machine

/-! ### Time sets (02 R28) -/

/-- A TIME_SET that is applied leaves the clock, its timer and its flag, and has asked for its row. -/
theorem applyTime_odo (w : DateTime) (s : State) : (applyTime w s).odo
    = { s.odo with clock := w, secondDue := s.time + 14400000, clockSet := true, pendingTime := none } := by
  simp [applyTime, seconds]

/-- Settles O21. -/
theorem timeSetIsAppliedOrHeld : Obligations.TimeSetIsAppliedOrHeld := by
  intro q e rest s h w
  refine ⟨_, takes_asks timeSetBody h, ?_⟩
  have hfree : allFree { s with lif.queue := rest } = allFree s := rfl
  simp only [timeSetBody, hfree]
  cases hok : w.ok
  · obtain ⟨hans, hline, hflt, hrest⟩ := onlyRefused_letGo_refuse q .range rest s
    simp only [Bool.not_false, if_true]
    exact ⟨hline, hflt, ⟨hans, by simp, by simp, by simp⟩, hrest.trans (by simp)⟩
  · simp only [Bool.not_true, Bool.false_eq_true, if_false, reduceCtorEq]
    cases allFree s
    · simp only [Bool.false_eq_true, if_false]
      refine ⟨lineKept_letGo (by simp), faultsKept_accept rfl rfl,
        ⟨answered_accept rfl, by simp [w], by simp, by simp⟩, ?_⟩
      apply State.ext <;> simp
      apply Nsc.ext <;> simp
    · simp only [if_true]
      refine ⟨lineKept_letGo (by simp [applyTime]), faultsKept_accept (by simp [applyTime]) (by simp [applyTime]),
        ⟨answered_accept (by simp [applyTime]), by simp [applyTime_odo, w], ?_⟩, ?_⟩
      · exact eventAsked_of_alike (u := { s with
          lif.queue := rest, odo.clock := w, odo.secondDue := s.time + seconds 1, odo.clockSet := true
          odo.pendingTime := none }) ⟨rfl, rfl, rfl, rfl, rfl⟩ (by simp [applyTime, w]) (by simp [applyTime, w])
      · apply State.ext <;> simp [applyTime]
        apply Nsc.ext <;> simp

/-! ### The assist press (05 R91, 10 R189) -/

/-- The sign record at a press: a sign in force gains the flag, with a new sequence number, unless it has it. -/
theorem recomputeSign_pressed {s : State} (hlatch : s.cab.latch = true) (hpattern : s.cab.sign.pattern = commandedPattern s) :
    (recomputeSign s).cab.sign.flag = true ∧ (recomputeSign s).cab.sign.pattern = s.cab.sign.pattern
      ∧ (recomputeSign s).cab.sign.seq = (if s.cab.sign.flag then s.cab.sign.seq else (s.cab.sign.seq + 1) % 256)
      ∧ (recomputeSign s).nsc.sign = (if s.cab.sign.flag then s.nsc.sign
          else some ⟨(recomputeSign s).cab.sign.pattern, true, (recomputeSign s).cab.sign.seq⟩) := by
  unfold recomputeSign
  cases hflag : s.cab.sign.flag
  · simp only [hlatch, hflag, ← hpattern, and_false, if_false, reduceCtorEq, Bool.false_eq_true]
    split <;> simp [restartSignTimer, placeSign]
  · simp [hlatch, hflag, hpattern]

/-- The shift's count of presses with one more (08 R152). -/
def countAssist (c : Totals) : Totals := { c with assists := satAdd 65535 c.assists 1 }

theorem pressEffects_eq (s : State) : pressEffects s = claimEventIfOpen s.odo.clock (.assist s.cab.presses)
    (counting countAssist (noticeAssist (unack (recomputeSign s)))) := by
  unfold pressEffects
  dsimp only
  refine (claimEvent_counting _ _ countAssist _).trans ?_
  simp [noticeAssist, unack]

/-- What a press makes of the part before the journal is asked (R91). -/
def pressed (s : State) : State :=
  noticeAssist (unack (recomputeSign { s with
    cab.latch := true, cab.pressTime := s.odo.clock
    cab.presses := if s.cab.latch then satAdd 255 s.cab.presses 1 else 1 }))

theorem press_eq (s : State) : press s
    = claimEventIfOpen s.odo.clock (.assist (pressed s).cab.presses) (counting countAssist (pressed s)) :=
  (pressEffects_eq _).trans (by simp [pressed, noticeAssist, unack])

theorem pressed_askedAlike (s : State) : AskedAlike (pressed s) s := by
  refine ⟨by simp [pressed], by simp [pressed], by simp [pressed], by simp [pressed], occupied_congr ?_⟩
  simp [pressed]

/-- Settles O24. -/
theorem pressSetsAssistLatch : Obligations.PressSetsAssistLatch := by
  intro s hdet hpwr
  have hruns : detectorRuns s.pwr.state = true := clockRuns_of hpwr
  refine ⟨amending assistPressBody s, ?_, ?_⟩
  · simp [exec, execAssistPress, hruns, hdet]
  · rw [amending_check]
    by_cases hact : s.pwr.state = .active
    · have hbody : assistPressBody s = press (passTo (s.odo.assistFrom + pressTime) { s with odo.detector := .down }) := by
        simp [assistPressBody, hact]
      simp only [hact, hbody, press_eq, reduceCtorEq, if_false, if_true]
      set u : State := passTo (s.odo.assistFrom + pressTime) { s with odo.detector := .down }
      have halike : AskedAlike (pressed u) s := pressed_askedAlike u
      refine ⟨by simp [u, pressed], by simp [u, pressed, passTo, pressTime, milliseconds], ?_, ?_, ?_, ?_, ?_, ?_⟩
      · cases hl : s.cab.latch <;> simp [u, pressed, noticeAssist, unack, satAdd, hl]
      · cases hl : s.cab.latch <;> simp [u, pressed, noticeAssist, unack, satAdd, hl]
      · intro hflag hpattern
        have hsign := recomputeSign_pressed (s := { u with
          cab.latch := true, cab.pressTime := u.odo.clock
          cab.presses := if u.cab.latch then satAdd 255 u.cab.presses 1 else 1 }) rfl hpattern
        simpa [pressed, noticeAssist, unack, u, hflag] using hsign
      · intro hopen
        obtain ⟨-, -, -, hacc, -⟩ := halike
        rw [claimEventIfOpen_shift]
        simp [counting, shiftIsOpen, hacc, countAssist, satAdd, (by simpa [shiftIsOpen] using hopen : _ = ShiftState.opened)]
      · refine eventAsked_of_alike (halike.counting countAssist) ?_ ?_
        · simp [u]
        · simp [u]
      · apply State.ext <;> simp [u, pressed]
        · apply Lif.ext <;> simp
          apply Transmitter.ext <;> simp
        · apply Nsc.ext <;> simp
        · apply Cab.ext <;> simp [unack, assistRepeat, seconds]
    · have hbody : assistPressBody s = retainPress (passTo (s.odo.assistFrom + pressTime) { s with odo.detector := .down }) := by
        simp [assistPressBody, hact]
      simp only [hact, hbody]
      exact ⟨rfl, rfl, rfl⟩

/-! ### RETAIN entry and the failure of the backup supply (10 R186, R188, R197) -/

theorem failingCheck_ne (n : Nat) (sum : DataWord) : failingCheck n sum ≠ sum := by
  unfold failingCheck
  split
  · next h =>
    rw [h]
    intro hsum
    have := congrArg (· - sum) hsum
    simp at this
  · assumption

/-- Rows that no upset names read as before. -/
theorem rowAt_withUpsets {us : List Upset} (hin : us.all Upset.inArray = true) {r : Nat} (hr : ∀ u ∈ us, u.row ≠ r) {m : Memory}
    (h : Memory.wf m = true) : rowAt (withUpsets m us) r = rowAt m r := by
  induction us generalizing m with
  | nil => rfl
  | cons u us ih =>
    simp only [List.all_cons, Bool.and_eq_true] at hin
    obtain ⟨hu, hus⟩ := hin
    simp only [List.forall_mem_cons] at hr
    obtain ⟨hur, hrest⟩ := hr
    have hrow : u.row < 2048 := by
      simp only [Upset.inArray, decide_eq_true_eq] at hu
      omega
    refine (ih hus hrest (putWord_wf h hrow u.word u.reads)).trans ?_
    rw [rowAt_putWord h, if_neg (Ne.symm hur)]

/-- The part in RETAIN before its check word is written. -/
def entered (s : State) : State :=
  { s with jnl.waiting := [], pwr.retainAt := s.time, pwr.state := .retain, odo.powerFrom := s.time }

theorem retainEntryBody_eq (s : State) : retainEntryBody s = if s.pwr.abandoned = true
    then { entered s with pwr.check := failingCheck s.free (retentionSum (entered s)), free := s.free + 1 }
    else { entered s with pwr.check := retentionSum (entered s) } := rfl

/-- Settles O26. -/
theorem retainEntryWritesCheck : Obligations.RetainEntryWritesCheck := by
  refine ⟨fun s hent hidle => ⟨retainEntryBody s, ?_, ?_⟩, fun left s hpwr hin => ⟨offState left s, ?_, ?_⟩⟩
  · simp [exec, execRetainEntryComplete, hent, hidle]
  · rw [retainEntryBody_eq]
    by_cases hab : s.pwr.abandoned = true
    · rw [if_pos hab]
      exact ⟨rfl, rfl, fun h => absurd (hab.symm.trans h) (by decide), fun _ => failingCheck_ne _ _, rfl⟩
    · rw [if_neg hab]
      exact ⟨rfl, rfl, fun _ => rfl, fun h => absurd h hab, rfl⟩
  · simp only [exec, execBackupSupplyFail, if_pos hpwr]
    exact withArray_of_inArray (us := left) hin _
  · have harray : (offState left s).array
        = withUpsets s.array (left.filter (fun u => s.jnl.inFlight.any (fun op => worksOn op u.row))) := rfl
    refine ⟨fun hidle => ?_, fun r hr hwf => ?_, fun op hop => ?_, rfl⟩
    · rw [harray, hidle]
      simp [withUpsets]
    · rw [harray]
      refine rowAt_withUpsets ?_ (fun u hu hur => ?_) hwf
      · exact List.all_eq_true.2 fun u hu => List.all_eq_true.1 hin u (List.mem_filter.1 hu).1
      · have := (List.mem_filter.1 hu).2
        rw [hur, hr] at this
        cases this
    · rw [harray, hop]
      rfl

end Sys2Proof.Machine
end

section
/-!
SUPPORT. Stations that leave the table (01 R9): what the removal of an entry and the end of a reference do to the stations, the
watches and the print jobs.
-/

namespace Sys2Proof.Machine

/-! ### The print jobs of a printer that goes (08 R159, R160) -/

theorem headItem_eq (s : State) : headItem s = firstItem s.acc.jobs := by
  unfold headItem firstItem
  cases s.acc.jobs <;> rfl

theorem refreshPrint_print (s : State) : (refreshPrint s).nsc.print = firstItem s.acc.jobs := by
  rw [← headItem_eq]
  unfold refreshPrint
  cases headItem s <;> simp [placePrint, withdrawPrint]

theorem rewindHead_jobs (s : State) : (rewindHead s).acc.jobs = rewoundJobs s.acc.jobs := by
  unfold rewindHead rewoundJobs
  cases h : s.acc.jobs <;> simp [h]

theorem rewoundJobs_eq_nil (jobs : List Job) : rewoundJobs jobs = [] ↔ jobs = [] := by
  cases jobs <;> simp

theorem printerPause_acc (s : State) :
    (printerPause s).acc = { s.acc with credit := 0, jobs := rewoundJobs s.acc.jobs } := by
  apply Acc.ext <;> simp [printerPause, rewindHead_jobs]

theorem printerPause_print (s : State) : (printerPause s).nsc.print
    = if s.acc.jobs = [] then s.nsc.print else firstItem (rewoundJobs s.acc.jobs) := by
  have hjobs := rewindHead_jobs { s with acc.credit := 0 }
  unfold printerPause
  dsimp only
  rw [hjobs]
  cases h : s.acc.jobs with
  | nil => simp
  | cons j rest => simp [refreshPrint_print, rewindHead_jobs]

theorem printerPause_nsc (s : State) :
    (printerPause s).nsc = { s.nsc with print := (printerPause s).nsc.print } := by
  apply Nsc.ext <;> simp

/-! ### The removal of an entry (01 R9) -/

section
variable {s : State} {a : Nat} {e : Station} (he : stationOf s a = some e)
include he

theorem removeEntry_stations : (removeEntry a s).lif.stations = s.lif.stations.filter (fun x => decide (x.addr ≠ a)) := by
  simp [removeEntry, he]

theorem removeEntry_cab :
    (removeEntry a s).cab = { s.cab with watches := s.cab.watches.filter (fun w => decide (w.addr ≠ a)) } := by
  simp [removeEntry, he]

theorem removeEntry_acc : (removeEntry a s).acc
    = if e.role = .printer then { s.acc with credit := 0, jobs := rewoundJobs s.acc.jobs } else s.acc := by
  simp [removeEntry, he, printerPause_acc]

theorem removeEntry_print : (removeEntry a s).nsc.print = if e.role = .printer ∧ s.acc.jobs ≠ []
    then firstItem (rewoundJobs s.acc.jobs) else s.nsc.print := by
  by_cases hrole : e.role = .printer <;> simp [removeEntry, he, printerPause_print, hrole]

theorem removeEntry_nsc_of_not_printer (hrole : e.role ≠ .printer) : (removeEntry a s).nsc = s.nsc := by
  simp [removeEntry, he, hrole]

/-- The entry itself is among those that leave. -/
theorem removeEntry_stations_ne : (removeEntry a s).lif.stations ≠ s.lif.stations := by
  have haddr : e.addr = a := by simpa using List.find?_some he
  have hmem : e ∈ s.lif.stations := List.mem_of_find?_eq_some he
  rw [removeEntry_stations he]
  intro hsame
  rw [← hsame] at hmem
  simpa [haddr] using (List.mem_filter.1 hmem).2

theorem removeEntry_gone : stationOf (removeEntry a s) a = none := by
  simp [stationOf, removeEntry_stations he]

end

/-! ### The end of a reference -/

/-- The part is told of an ended reference: it removes nothing, or the ABSENT entry named, past its 36 s. -/
theorem endReference_cases (a : Nat) (s : State) : endReference a s = s
    ∨ ∃ e, stationOf s a = some e ∧ e.present = false ∧ e.silenceFrom + 518400000 ≤ s.time
      ∧ endReference a s = removeEntry a s := by
  unfold endReference
  cases he : stationOf s a with
  | none => exact .inl rfl
  | some e =>
    by_cases hgone : !e.present ∧ removalMoment e ≤ s.time ∧ !referenced s a
    · obtain ⟨hpresent, htime, -⟩ := id hgone
      exact .inr ⟨e, rfl, by simpa using hpresent, htime, by simp only [if_pos hgone]⟩
    · exact .inl (by simp only [if_neg hgone])

/-- What a part that has been told of an ended reference shows, by the state it was told in. -/
theorem endReference_ended {a : Nat} {s u t : State} (hst : u.lif.stations = s.lif.stations)
    (hw : u.cab.watches = s.cab.watches) (hc : u.acc.credit = s.acc.credit) (htime : t.time = u.time)
    (hst' : t.lif.stations = (endReference a u).lif.stations) (hw' : t.cab.watches = (endReference a u).cab.watches)
    (hc' : t.acc.credit = (endReference a u).acc.credit) : ReferenceEnded a s t := by
  have hstation : stationOf u a = stationOf s a := by simp [stationOf, hst]
  rcases endReference_cases a u with h | ⟨e, he, hpresent, hdue, h⟩
  · exact .inl ⟨by rw [hst', h, hst], by rw [hw', h, hw], by rw [hc', h, hc]⟩
  · refine .inr ⟨e, hstation ▸ he, hpresent, htime ▸ hdue, ?_, ?_, ?_⟩
    · rw [hst', h, removeEntry_stations he, hst]
    · rw [hw', h, removeEntry_cab he, hw]
    · rw [hc', h, removeEntry_acc he]
      by_cases hrole : e.role = .printer
      · exact .inr hrole
      · exact .inl (by rw [if_neg hrole, hc])

/-- A printer is gone with an ended reference exactly when its entry was removed. -/
theorem printerGone_endReference {a : Nat} {s u t : State} (hst : u.lif.stations = s.lif.stations)
    (hst' : t.lif.stations = (endReference a u).lif.stations) :
    (printerGone (some a) s t = false ∧ (endReference a u).acc.jobs = u.acc.jobs ∧ (endReference a u).nsc.print = u.nsc.print)
      ∨ (printerGone (some a) s t = true ∧ (endReference a u).acc.jobs = rewoundJobs u.acc.jobs
        ∧ (endReference a u).nsc.print
          = if u.acc.jobs ≠ [] then firstItem (rewoundJobs u.acc.jobs) else u.nsc.print) := by
  have hstation : stationOf u a = stationOf s a := by simp [stationOf, hst]
  rcases endReference_cases a u with h | ⟨e, he, -, -, h⟩
  · exact .inl ⟨by simp [printerGone, hst', h, hst], by rw [h], by rw [h]⟩
  · have hne : t.lif.stations ≠ s.lif.stations := by
      rw [hst', h, ← hst]
      exact removeEntry_stations_ne he
    have hnamed : (some a).bind (stationOf s) = some e := hstation.symm.trans he
    by_cases hrole : e.role = .printer
    · refine .inr ⟨?_, ?_, ?_⟩
      · simp [printerGone, hne, hnamed, hrole]
      · rw [h, removeEntry_acc he, if_pos hrole]
      · rw [h, removeEntry_print he]
        simp [hrole]
    · refine .inl ⟨?_, ?_, ?_⟩
      · simp [printerGone, hnamed, hrole]
      · rw [h, removeEntry_acc he, if_neg hrole]
      · rw [h, removeEntry_print he]
        simp [hrole]

theorem endReference_jobs {a : Nat} {s u t : State} (hst : u.lif.stations = s.lif.stations) (hj : u.acc.jobs = s.acc.jobs)
    (hst' : t.lif.stations = (endReference a u).lif.stations) :
    (endReference a u).acc.jobs = pausedJobs (some a) s t := by
  rcases printerGone_endReference hst hst' with ⟨hgone, hjobs, -⟩ | ⟨hgone, hjobs, -⟩
  · rw [hjobs, hj, pausedJobs, hgone]; rfl
  · rw [hjobs, hj, pausedJobs, hgone]; rfl

theorem endReference_print {a : Nat} {s u t : State} (hst : u.lif.stations = s.lif.stations) (hj : u.acc.jobs = s.acc.jobs)
    (hp : u.nsc.print = s.nsc.print) (hst' : t.lif.stations = (endReference a u).lif.stations) :
    (endReference a u).nsc.print = pausedPrint (some a) s t := by
  rcases printerGone_endReference hst hst' with ⟨hgone, -, hprint⟩ | ⟨hgone, -, hprint⟩
  · rw [hprint, hp, pausedPrint, hgone]
    simp
  · rw [hprint, hj, hp, pausedPrint, hgone]
    simp

theorem tx_eq_of_kept {s u : State} (h : Kept.tx u s) : u.lif.tx = { s.lif.tx with renewed := u.lif.tx.renewed } := by
  obtain ⟨hheld, hcount, hsending⟩ := h
  exact Transmitter.ext hheld hcount hsending rfl

/-- Settles O12. -/
theorem silentEntryIsRemoved : Obligations.SilentEntryIsRemoved := by
  intro a e s hact he habsent hfree
  refine ⟨_, whenActive_of_active hact _, ?_⟩
  have hbody : removalBody a s = letGo (removeEntry a (passTo (removalMoment e) s)) := by
    simp [removalBody, he, habsent, hfree]
  set u : State := passTo (removalMoment e) s with hu
  have heu : stationOf u a = some e := he
  rw [hbody]
  have hprint : (letGo (removeEntry a u)).nsc.print = (removeEntry a u).nsc.print := by simp
  have hacc : (letGo (removeEntry a u)).acc = (removeEntry a u).acc := by simp
  refine ⟨by simp [u, removalMoment, passTo, seconds], ?_, ?_, transmitterKept_letGo (.inr (tx_eq_of_kept (s := u) (by simp))),
    ?_, fun hrole => ?_, fun hrole => ?_, ?_⟩
  · simpa [u] using removeEntry_stations heu
  · simpa [stationOf] using removeEntry_gone heu
  · simpa [u] using removeEntry_cab heu
  · simp [removeEntry_acc heu, removeEntry_nsc_of_not_printer heu, hrole, u]
  · rw [hprint, hacc, removeEntry_acc heu, if_pos hrole, removeEntry_print heu]
    refine ⟨rfl, rfl, ?_⟩
    by_cases hjobs : s.acc.jobs = [] <;> simp [hrole, hjobs, u]
  · apply State.ext <;> simp [u]
    · apply Lif.ext <;> simp
    · apply Nsc.ext <;> simp
    · apply Acc.ext <;> simp

end Sys2Proof.Machine
end

section
/-!
SETTLED OBLIGATIONS. Leg numbers that no slot holds, BOOK, SEAT and the assist latch's requests.
-/

namespace Sys2Proof.Machine

/-! ### Accepted requests -/

/-- What an accepted request leaves, when its action keeps the line, class 1 and the fault set. -/
theorem accepted_leaves {q : QFrame} {v : List Byte} {rest : List QFrame} {s u : State}
    (hline : u.lif = { s.lif with queue := rest, tx := { s.lif.tx with renewed := u.lif.tx.renewed } })
    (hreplies : u.nsc.replies = s.nsc.replies) (hflt : u.flt = s.flt) :
    LineKept rest s (letGo (accept q v u)) ∧ FaultsKept s (letGo (accept q v u))
      ∧ Answered q (.accepted v) s (letGo (accept q v u)) :=
  ⟨lineKept_letGo (by simpa using hline), faultsKept_accept hreplies hflt, answered_accept hreplies⟩

/-! ### Leg numbers (04 R50) -/

theorem findLeg_eq_none {s : State} {n : Nat} (h : ∀ i l, legAt s i = some l → l.number ≠ n) : findLeg s n = none := by
  refine List.find?_eq_none.2 fun i _ => ?_
  cases hl : legAt s i with
  | none => simp
  | some l => simpa using h i l hl

theorem withLeg_of_none {q : QFrame} {s : State} (h : findLeg s q.leg = none) (act : Fin 4 → Leg → State → State) :
    withLeg q act s = refuse q .unknownLeg s := by
  simp only [withLeg, h]

/-- The ten leg requests search for their leg before anything else. -/
theorem exec_withLeg {k : ReqKind}
    (hk : k ∈ [ReqKind.hold, .resume, .void, .extra, .flat, .payClaim, .payStart, .payCancel, .cash, .tip]) (s : State) :
    ∃ act : QFrame → Station → Fin 4 → Leg → State → State,
      exec (commandOf k) s = takes k (fun q e => withLeg q (act q e)) s := by
  simp only [List.mem_cons, List.not_mem_nil, or_false] at hk
  rcases hk with rfl | rfl | rfl | rfl | rfl | rfl | rfl | rfl | rfl | rfl <;> exact ⟨_, rfl⟩

/-- Settles O36. -/
theorem unknownLegIsRefused : Obligations.UnknownLegIsRefused := by
  intro k q e rest s hk hasks hnone
  obtain ⟨act, hexec⟩ := exec_withLeg hk s
  refine ⟨_, hexec.trans (takes_asks _ hasks), ?_⟩
  rw [withLeg_of_none (findLeg_eq_none (s := { s with lif.queue := rest }) hnone)]
  obtain ⟨hans, hline, hflt, hrest⟩ := onlyRefused_letGo_refuse q .unknownLeg rest s
  exact ⟨hline, hflt, hans, hrest⟩

/-! ### BOOK (05 R80) -/

/-- The checks of a BOOK, in their order. -/
def bookRefusal (q : QFrame) (s : State) : Option RefusalCode :=
  let set := decide (q.at 0 1 = 1 ∧ q.payload.length = 9)
  let cancel := decide (q.at 0 1 = 2 ∧ q.payload.length = 1)
  if shiftIsOpen s = false then some .noShift
  else if set = false ∧ cancel = false then some .range
  else if set = true ∧ (s.cab.duty = .offDuty ∨ s.cab.duty = .hired) then some .state
  else if cancel = true ∧ s.cab.duty ≠ .booked then some .state
  else none

/-- What an accepted BOOK makes of the cab state: the booking it replaces or cancels has ended. -/
def bookEffect (q : QFrame) (s : State) : State :=
  if q.at 0 1 = 1 then moveDuty .booked { bookingEnds .replaced s with cab.booking := some (q.payload.drop 1) }
  else moveDuty .vacant (bookingEnds .cancelled s)

theorem bookAction_eq (q : QFrame) : q.bookAction
    = if q.at 0 1 = 1 ∧ q.payload.length = 9 then some (.set (q.payload.drop 1))
      else if q.at 0 1 = 2 ∧ q.payload.length = 1 then some .cancel else none := by
  unfold QFrame.bookAction
  split
  · simp [*]
  · simp [*]
  · next hset hcancel =>
    rw [if_neg (fun h => hset h.1 h.2), if_neg (fun h => hcancel h.1 h.2)]

/-- A BOOK is refused by its first failed check, and else acts. -/
theorem bookBody_eq (q : QFrame) (e : Station) (s : State) : bookBody q e s = match bookRefusal q s with
    | some c => refuse q c s
    | none => accept q [] (bookEffect q s) := by
  unfold bookBody bookRefusal
  rw [bookAction_eq]
  cases hopen : shiftIsOpen s
  · simp
  · by_cases hset : q.at 0 1 = 1 ∧ q.payload.length = 9
    · have hcancel : ¬ (q.at 0 1 = 2 ∧ q.payload.length = 1) := by omega
      by_cases hduty : s.cab.duty = .offDuty ∨ s.cab.duty = .hired <;>
        simp [hset, hduty, bookEffect]
    · by_cases hcancel : q.at 0 1 = 2 ∧ q.payload.length = 1
      · by_cases hduty : s.cab.duty = .booked <;> simp [hcancel, hduty, bookEffect]
      · simp [hset, hcancel]

/-- What a taken BOOK does to the line interface, the fault set and the rest of the part when it is accepted. -/
theorem accepted_book_frame (q : QFrame) (rest : List QFrame) (s : State) :
    let t := letGo (accept q [] (bookEffect q { s with lif.queue := rest }))
    LineKept rest s t ∧ FaultsKept s t ∧ Answered q (.accepted []) s t
      ∧ t = { s with lif := t.lif, flt := t.flt
                     nsc := { s.nsc with replies := t.nsc.replies, sign := t.nsc.sign, fleet := t.nsc.fleet }
                     cab := { s.cab with duty := t.cab.duty, booking := t.cab.booking, sign := t.cab.sign
                                         signDue := t.cab.signDue } } := by
  have hkept : Kept.line (bookEffect q { s with lif.queue := rest }) { s with lif.queue := rest }
      ∧ Kept.tx (bookEffect q { s with lif.queue := rest }) { s with lif.queue := rest }
      ∧ (bookEffect q { s with lif.queue := rest }).lif.stations = s.lif.stations
      ∧ (bookEffect q { s with lif.queue := rest }).nsc.replies = s.nsc.replies
      ∧ (bookEffect q { s with lif.queue := rest }).flt = s.flt := by
    unfold bookEffect
    split <;> simp
  obtain ⟨hline, htx, hst, hreplies, hflt⟩ := hkept
  obtain ⟨hlk, hfk, hans⟩ := accepted_leaves (q := q) (v := []) (rest := rest) (s := s)
    (by simpa using lif_eq_of_kept hline htx hst) hreplies hflt
  refine ⟨hlk, hfk, hans, ?_⟩
  unfold bookEffect
  split
  · apply State.ext <;> simp
    · apply Nsc.ext <;> simp
    · apply Cab.ext <;> simp
  · apply State.ext <;> simp
    · apply Nsc.ext <;> simp
    · apply Cab.ext <;> simp

/-- Settles O35. -/
theorem bookSetsOrCancels : Obligations.BookSetsOrCancels := by
  intro q e rest s hasks set cancel code
  have hcode : bookRefusal q { s with lif.queue := rest } = code := rfl
  refine ⟨_, takes_asks bookBody hasks, ?_⟩
  rw [bookBody_eq, hcode]
  cases hc : code with
  | some c =>
    obtain ⟨hans, hline, hflt, hrest⟩ := onlyRefused_letGo_refuse q c rest s
    exact ⟨hline, hflt, hans, hrest⟩
  | none =>
    obtain ⟨hline, hflt, hans, hrest⟩ := accepted_book_frame q rest s
    refine ⟨hline, hflt, hans, fun hset => ?_, fun hcancel => ?_, fun hnone => ?_, ?_, hrest⟩
    · have hone : q.at 0 1 = 1 := (of_decide_eq_true hset).1
      simp only [bookEffect, if_pos hone]
      refine ⟨by simp [moveDuty], by simp, fun r hr => ?_⟩
      simpa [moveDuty] using bookingEnds_tells_fleet (s := { s with lif.queue := rest }) hr
    · have htwo : q.at 0 1 ≠ 1 := by have := (of_decide_eq_true hcancel).1; omega
      simp only [bookEffect, if_neg htwo]
      refine ⟨by simp [moveDuty], by simp, fun r hr => ?_⟩
      simpa [moveDuty] using bookingEnds_tells_fleet (s := { s with lif.queue := rest }) hr
    · have hkept : ∀ o, (bookingEnds o { s with lif.queue := rest }).nsc.fleet = s.nsc.fleet := fun o => by
        simp [bookingEnds, hnone]
      unfold bookEffect
      split <;> simp [moveDuty, hkept]
    · have hkept := fun o => bookingEnds_fleet_otherKinds o { s with lif.queue := rest }
      by_cases hone : q.at 0 1 = 1
      · simpa [bookEffect, hone, moveDuty] using hkept .replaced
      · simpa [bookEffect, hone, moveDuty] using hkept .cancelled

/-! ### SEAT and the assist latch (05 R88, R92, R93) -/

/-- A SEAT sets or empties the seat of the sender's watch. -/
theorem seatBody_eq (q : QFrame) (e : Station) (s : State) : seatBody q e s = { s with
    cab.watches := s.cab.watches.map (fun w =>
      if w.addr ≠ q.src then w
      else if q.at 0 1 = 1 then { w with occupied := true }
      else if q.at 0 1 = 2 then { w with occupied := false, count := 0, fired := false }
      else w) } := by
  have hmap : ∀ f : Watch → Watch, (fun w : Watch => if w.addr = q.src then f w else w)
      = fun w => if w.addr ≠ q.src then w else f w := fun f => by
    funext w
    by_cases h : w.addr = q.src <;> simp [h]
  unfold seatBody
  split
  · next h => simp [updateWatch, hmap, h]
  · next h => simp [updateWatch, hmap, h, Watch.empty]
  · next h1 h2 =>
    have h1' : ¬ q.at 0 1 = 1 := h1
    have h2' : ¬ q.at 0 1 = 2 := h2
    simp [h1', h2']

/-- An expiry of the repeat timer notices an UNACKED latch again. -/
theorem assistRepeatBody_eq {s : State} {due : Moment} (hdue : s.cab.repeatDue = some due) (hlatch : s.cab.latch = true) :
    assistRepeatBody s = if s.cab.ack = some .unacked
      then noticeAssist { passTo due s with cab.repeatDue := some ((passTo due s).time + assistRepeat) }
      else passTo due s := by
  simp [assistRepeatBody, hdue, hlatch]

theorem recomputeSign_cleared {s : State} (hlatch : s.cab.latch = false) (hflag : s.cab.sign.flag = true) :
    (recomputeSign s).cab.sign.flag = false ∧ (recomputeSign s).cab.sign.seq = (s.cab.sign.seq + 1) % 256
      ∧ (recomputeSign s).nsc.sign
        = some ⟨(recomputeSign s).cab.sign.pattern, false, (recomputeSign s).cab.sign.seq⟩ := by
  unfold recomputeSign
  simp only [hlatch, hflag, Bool.false_eq_true, and_false, if_false]
  split <;> simp [restartSignTimer, placeSign]

theorem assistAckBody_eq (q : QFrame) (e : Station) (s : State) : assistAckBody q e s
    = if s.cab.latch = false then refuse q .state s
      else if s.cab.ack = some .acked then accept q [] s
      else accept q [] (withdrawAssist { s with cab.ack := some .acked, cab.repeatDue := none }) := by
  unfold assistAckBody
  cases s.cab.latch <;> rfl

theorem assistClearBody_eq (q : QFrame) (e : Station) (s : State) : assistClearBody q e s
    = if s.cab.latch = false then refuse q .state s
      else accept q [] (recomputeSign (withdrawAssist { s with
        cab.latch := false, cab.presses := 0, cab.ack := none, cab.repeatDue := none })) := by
  unfold assistClearBody
  cases s.cab.latch <;> rfl

/-- Settles O47. -/
theorem seatAndAssistRequestsAct : Obligations.SeatAndAssistRequestsAct := by
  refine ⟨fun q e rest s hasks => ?_, fun due s hact hdue hlatch => ?_, fun q e rest s hasks => ?_,
    fun q e rest s hasks => ?_⟩
  · refine ⟨_, takes_asks seatBody hasks, ?_⟩
    rw [seatBody_eq]
    refine ⟨lineKept_letGo rfl, by simp, ?_⟩
    apply State.ext <;> simp
  · refine ⟨_, whenActive_of_active hact _, ?_⟩
    rw [assistRepeatBody_eq hdue hlatch]
    by_cases hack : s.cab.ack = some .unacked
    · rw [if_pos hack]
      refine ⟨by simp [noticeAssist, passTo], fun _ => ⟨?_, ?_⟩, fun h => absurd hack h, ?_⟩
      · simp [noticeAssist, placeAssist, hlatch]
      · simp [noticeAssist, assistRepeat, seconds]
      · apply State.ext <;> simp [noticeAssist]
        apply Lif.ext <;> simp
        apply Transmitter.ext <;> simp
    · rw [if_neg hack]
      exact ⟨rfl, fun h => absurd h hack, fun _ => ⟨rfl, rfl⟩, rfl⟩
  · refine ⟨_, takes_asks assistAckBody hasks, ?_⟩
    rw [assistAckBody_eq]
    by_cases hlatch : s.cab.latch = false
    · obtain ⟨hans, hline, hflt, hrest⟩ := onlyRefused_letGo_refuse q .state rest s
      simp only [if_pos hlatch]
      exact ⟨hline, hflt, ⟨hans, by simp, by simp⟩, hrest.trans (by simp)⟩
    · simp only [if_neg hlatch]
      by_cases hack : s.cab.ack = some .acked
      · simp only [if_pos hack]
        obtain ⟨hline, hflt, hans⟩ := accepted_leaves (q := q) (v := []) (rest := rest) (s := s)
          (u := { s with lif.queue := rest }) rfl rfl rfl
        refine ⟨hline, hflt, ⟨hans, by simp, by simp⟩, ?_⟩
        apply State.ext <;> simp
        apply Nsc.ext <;> simp
      · simp only [if_neg hack]
        obtain ⟨hline, hflt, hans⟩ := accepted_leaves (q := q) (v := []) (rest := rest) (s := s)
          (u := withdrawAssist { s with lif.queue := rest, cab.ack := some .acked, cab.repeatDue := none })
          (lif_eq_of_kept (s := { s with lif.queue := rest }) (by simp) (by simp) (by simp)) (by simp) (by simp)
        refine ⟨hline, hflt, ⟨hans, by simp, by simp [withdrawAssist]⟩, ?_⟩
        apply State.ext <;> simp
        apply Nsc.ext <;> simp
  · refine ⟨_, takes_asks assistClearBody hasks, ?_⟩
    rw [assistClearBody_eq]
    by_cases hlatch : s.cab.latch = false
    · obtain ⟨hans, hline, hflt, hrest⟩ := onlyRefused_letGo_refuse q .state rest s
      simp only [if_pos hlatch]
      exact ⟨hline, hflt, ⟨hans, by simp, by simp, by simp⟩, hrest.trans (by simp)⟩
    · simp only [if_neg hlatch]
      set u : State := withdrawAssist { s with
        lif.queue := rest, cab.latch := false, cab.presses := 0, cab.ack := none, cab.repeatDue := none }
      obtain ⟨hline, hflt, hans⟩ := accepted_leaves (q := q) (v := []) (rest := rest) (s := s) (u := recomputeSign u)
        (lif_eq_of_kept (s := { s with lif.queue := rest }) (by simp [u]) (by simp [u]) (by simp [u]))
        (by simp [u]) (by simp [u])
      refine ⟨hline, hflt, ⟨hans, ?_, by simp [u, withdrawAssist], fun hflag => ?_⟩, ?_⟩
      · apply Cab.ext <;> simp [u]
      · have hsign : u.cab.sign = s.cab.sign := by simp [u]
        have hcleared := recomputeSign_cleared (s := u) (by simp [u]) (hsign ▸ hflag)
        rw [hsign] at hcleared
        simpa using hcleared
      · apply State.ext <;> simp [u]
        apply Nsc.ext <;> simp

end Sys2Proof.Machine
end

section
/-!
SETTLED OBLIGATIONS. ANSWER, END_CALL, TALK and PRIVACY (07.3 to 07.5): what a port's move between call states writes, and the
actions of leaving RINGING.
-/

namespace Sys2Proof.Machine

/-! ### A port's move between call states (07 R125) -/

theorem enterPhase_calls (p q : Port) (ph : CallPhase) (r : Reason) (s : State) :
    (enterPhase p ph r s).nsc.calls.get q
      = if q = p then some (callNotice (setCall p { callRec s p with phase := ph, reason := r } s) p)
        else s.nsc.calls.get q := by
  simp [enterPhase, noticeCall, placeCallNotice]

/-- CALL_STATE tells the phase entered and its reason. -/
theorem enterPhase_tells (p : Port) (ph : CallPhase) (r : Reason) (s : State) :
    ((enterPhase p ph r s).nsc.calls.get p).any (fun c => decide (c.phase = ph ∧ c.reason = r)) = true := by
  rw [enterPhase_calls]
  simp [callNotice, callRec, setCall]

/-- The other ports keep their call states and their notices. -/
theorem enterPhase_others {p q : Port} (ph : CallPhase) (r : Reason) (s : State) (h : q ≠ p) :
    callRec (enterPhase p ph r s) q = callRec s q ∧ (enterPhase p ph r s).nsc.calls.get q = s.nsc.calls.get q := by
  rw [callRec_enterPhase, enterPhase_calls, if_neg h, if_neg h]
  exact ⟨rfl, rfl⟩

/-! ### Leaving RINGING (07 R129) -/

theorem bound_congr {s u : State} (h : u.lif.stations = s.lif.stations) (p : Port) : bound u p = bound s p := by
  simp [bound, panelOn, h]

theorem boundDests_congr {s u : State} (h : u.lif.stations = s.lif.stations) (d : Four Bool) :
    boundDests u d = boundDests s d := by
  simp [boundDests, bound_congr h]

/-- The actions of leaving RINGING, read off a part that agrees with the one they are done in. -/
theorem ringingLeft_of {s u t : State} (hst : u.lif.stations = s.lif.stations) (hprompts : u.icm.prompts = s.icm.prompts)
    (hplayer : u.icm.player = s.icm.player) (hsample : u.icm.promptSample = s.icm.promptSample)
    (hring : t.icm.ringDue = (leaveRinging u).icm.ringDue) (hprompts' : t.icm.prompts = (leaveRinging u).icm.prompts)
    (hplayer' : t.icm.player = (leaveRinging u).icm.player)
    (hsample' : t.icm.promptSample = (leaveRinging u).icm.promptSample) : RingingLeft s.icm.prompts s t := by
  have h := leaveRinging_left u
  have hdests : ∀ d, boundDests u d = boundDests s d := boundDests_congr hst
  unfold RingingLeft PlayStarts at *
  simpa only [hring, hprompts', hplayer', hsample', hdests, hprompts, hplayer, hsample] using h

/-! ### ANSWER and END_CALL (07 R130, R131) -/

theorem ringingPort_eq_some {s : State} {p : Port} (hring : callPhase s p = .ringing)
    (hone : ∀ r, r ≠ p → callPhase s r ≠ .ringing) : ringingPort s = some p := by
  cases h : ringingPort s with
  | none =>
    have := List.find?_eq_none.1 h p (by cases p <;> simp [Port.list])
    simp [hring] at this
  | some r =>
    have hr : callPhase s r = .ringing := by simpa using List.find?_some h
    by_cases hrp : r = p
    · rw [hrp]
    · exact absurd hr (hone r hrp)

theorem ringingPort_eq_none {s : State} (h : ∀ p, callPhase s p ≠ .ringing) : ringingPort s = none :=
  List.find?_eq_none.2 fun p _ => by simpa using h p

theorem grantedPort_eq_some {s : State} {p : Port} (hgrant : (callPhase s p).granted = true)
    (hone : ∀ r, r ≠ p → (callPhase s r).granted = false) : grantedPort s = some p := by
  cases h : grantedPort s with
  | none =>
    have := grantedPort_eq_none.1 h p
    simp [granted, hgrant] at this
  | some r =>
    have hr := granted_of_grantedPort h
    by_cases hrp : r = p
    · rw [hrp]
    · exact absurd hr (by simp [granted, hone r hrp])

/-- What a port's move writes: its call state and its notice. -/
theorem enterPhase_moves {p : Port} {ph : CallPhase} {r : Reason} {s t : State}
    (hcalls : t.icm.calls = (enterPhase p ph r s).icm.calls)
    (hnotices : t.nsc.calls = (enterPhase p ph r s).nsc.calls) :
    callRec t p = { callRec s p with phase := ph, reason := r }
      ∧ (∀ q, q ≠ p → callRec t q = callRec s q ∧ t.nsc.calls.get q = s.nsc.calls.get q)
      ∧ (t.nsc.calls.get p).any (fun c => decide (c.phase = ph ∧ c.reason = r)) = true := by
  refine ⟨?_, fun q hq => ?_, ?_⟩
  · rw [callRec_congr hcalls, callRec_enterPhase, if_pos rfl]
  · rw [callRec_congr hcalls, hnotices]
    exact enterPhase_others ph r s hq
  · rw [hnotices]
    exact enterPhase_tells p ph r s

/-- What an end of RINGING writes: the port's call state, its notice, and the actions of leaving RINGING. -/
theorem leaveRinging_enterPhase {p : Port} {ph : CallPhase} {r : Reason} {s t : State}
    (hicm : t.icm = (leaveRinging (enterPhase p ph r s)).icm)
    (hnotices : t.nsc.calls = (leaveRinging (enterPhase p ph r s)).nsc.calls) :
    callRec t p = { callRec s p with phase := ph, reason := r }
      ∧ (∀ q, q ≠ p → callRec t q = callRec s q ∧ t.nsc.calls.get q = s.nsc.calls.get q)
      ∧ (t.nsc.calls.get p).any (fun c => decide (c.phase = ph ∧ c.reason = r)) = true
      ∧ RingingLeft s.icm.prompts s t := by
  obtain ⟨hrec, hothers, htells⟩ := enterPhase_moves (p := p) (ph := ph) (r := r) (s := s) (t := t)
    (by rw [hicm]; simp) (by rw [hnotices]; simp)
  refine ⟨hrec, hothers, htells, ?_⟩
  exact ringingLeft_of (u := enterPhase p ph r s) (by simp) (by simp) (by simp) (by simp) (by rw [hicm]) (by rw [hicm])
    (by rw [hicm]) (by rw [hicm])

/-- A RINGING port that leaves its call state keeps the line, class 1 and the fault set. -/
theorem leaveRinging_accepted (q : QFrame) (v : List Byte) (p : Port) (ph : CallPhase) (r : Reason) (rest : List QFrame)
    (s : State) :
    let t := letGo (accept q v (leaveRinging (enterPhase p ph r { s with lif.queue := rest })))
    LineKept rest s t ∧ FaultsKept s t ∧ Answered q (.accepted v) s t
      ∧ t = { s with lif := t.lif, flt := t.flt
                     nsc := { s.nsc with replies := t.nsc.replies, calls := t.nsc.calls }
                     icm := { s.icm with calls := t.icm.calls, ringDue := t.icm.ringDue, prompts := t.icm.prompts
                                         player := t.icm.player, promptSample := t.icm.promptSample } } := by
  obtain ⟨hline, hflt, hans⟩ := accepted_leaves (q := q) (v := v) (rest := rest) (s := s)
    (u := leaveRinging (enterPhase p ph r { s with lif.queue := rest }))
    (lif_eq_of_kept (s := { s with lif.queue := rest }) (by simp) (by simp) (by simp)) (by simp) (by simp)
  refine ⟨hline, hflt, hans, ?_⟩
  apply State.ext <;> simp
  · apply Nsc.ext <;> simp
  · apply Icm.ext <;> simp

/-- A port whose call state moves without leaving RINGING. -/
theorem enterPhase_accepted (q : QFrame) (v : List Byte) (p : Port) (ph : CallPhase) (r : Reason) (rest : List QFrame)
    (s : State) :
    let t := letGo (accept q v (enterPhase p ph r { s with lif.queue := rest }))
    LineKept rest s t ∧ FaultsKept s t ∧ Answered q (.accepted v) s t ∧ t.icm = { s.icm with calls := t.icm.calls }
      ∧ t = { s with lif := t.lif, flt := t.flt
                     nsc := { s.nsc with replies := t.nsc.replies, calls := t.nsc.calls }
                     icm := { s.icm with calls := t.icm.calls } } := by
  obtain ⟨hline, hflt, hans⟩ := accepted_leaves (q := q) (v := v) (rest := rest) (s := s)
    (u := enterPhase p ph r { s with lif.queue := rest })
    (lif_eq_of_kept (s := { s with lif.queue := rest }) (by simp) (by simp) (by simp)) (by simp) (by simp)
  refine ⟨hline, hflt, hans, ?_, ?_⟩
  · apply Icm.ext <;> simp
  · apply State.ext <;> simp
    · apply Nsc.ext <;> simp
    · apply Icm.ext <;> simp

theorem grantedPhase_cases {ph : CallPhase} (h : ph.granted = true) : ph = .ringing ∨ ph = .linked ∨ ph = .releasing := by
  cases ph <;> simp_all [CallPhase.granted]

/-- The granted call after an END_CALL (R131). -/
def endedCall (p : Port) (s : State) : State := if callPhase s p = .releasing then s else release p .ended s

theorem endedCall_ringing {p : Port} {s : State} (h : callPhase s p = .ringing) :
    endedCall p s = leaveRinging (enterPhase p .releasing .ended s) := by
  simp [endedCall, release, h]

theorem endedCall_linked {p : Port} {s : State} (h : callPhase s p = .linked) :
    endedCall p s = enterPhase p .releasing .ended s := by
  simp [endedCall, release, h]

theorem endedCall_releasing {p : Port} {s : State} (h : callPhase s p = .releasing) : endedCall p s = s := by
  simp [endedCall, h]

theorem endedCall_phase {p : Port} {s : State} (h : (callPhase s p).granted = true) :
    callPhase (endedCall p s) p = .releasing := by
  have henter : callPhase (enterPhase p .releasing .ended s) p = .releasing := by rw [callPhase_enterPhase, if_pos rfl]
  rcases grantedPhase_cases h with hph | hph | hph
  · rw [endedCall_ringing hph]
    exact (callPhase_congr (by simp) p).trans henter
  · rw [endedCall_linked hph, henter]
  · rw [endedCall_releasing hph, hph]

theorem endCallBody_of_granted {p : Port} {s : State} (hp : grantedPort s = some p) (q : QFrame) (e : Station) :
    endCallBody q e s = accept q (le 1 p.number ++ le 1 4) (endedCall p s) := by
  unfold endCallBody
  rw [hp]
  change accept q (le 1 p.number ++ le 1 (callPhase (endedCall p s) p).code) (endedCall p s) = _
  rw [endedCall_phase (granted_of_grantedPort hp)]
  rfl

/-- Settles O50. -/
theorem answerAndEndCallAct : Obligations.AnswerAndEndCallAct := by
  refine ⟨fun q e rest s hasks => ?_, fun q e rest s hasks => ?_⟩
  · refine ⟨_, takes_asks answerBody hasks, ?_⟩
    unfold answerBody
    have hport : ringingPort { s with lif.queue := rest } = ringingPort s := rfl
    rw [hport]
    cases hp : ringingPort s with
    | none =>
      obtain ⟨hans, hline, hflt, hrest⟩ := onlyRefused_letGo_refuse q .state rest s
      refine ⟨hline, hflt, fun _ => ⟨hans, by simp, by simp⟩, fun p hring hone => ?_, hrest.trans (by simp)⟩
      rw [ringingPort_eq_some hring hone] at hp
      cases hp
    | some p =>
      obtain ⟨hline, hflt, hans, hframe⟩ := leaveRinging_accepted q (le 1 p.number) p .linked .none rest s
      refine ⟨hline, hflt, fun hnone => ?_, fun p' hring hone => ?_, hframe⟩
      · rw [ringingPort_eq_none hnone] at hp
        cases hp
      · rw [ringingPort_eq_some hring hone] at hp
        cases hp
        exact ⟨hans, leaveRinging_enterPhase (s := { s with lif.queue := rest }) (by simp [link]) (by simp [link])⟩
  · refine ⟨_, takes_asks endCallBody hasks, ?_⟩
    have hport : grantedPort { s with lif.queue := rest } = grantedPort s := rfl
    have hphase : ∀ p, callPhase { s with lif.queue := rest } p = callPhase s p := fun _ => rfl
    cases hp : grantedPort s with
    | none =>
      have hbody : endCallBody q e { s with lif.queue := rest } = refuse q .state { s with lif.queue := rest } := by
        simp [endCallBody, hport, hp]
      rw [hbody]
      obtain ⟨hans, hline, hflt, hrest⟩ := onlyRefused_letGo_refuse q .state rest s
      refine ⟨hline, hflt, fun _ => ⟨hans, by simp, by simp⟩, fun p hgrant hone => ?_, hrest.trans (by simp)⟩
      rw [grantedPort_eq_some hgrant hone] at hp
      cases hp
    | some p =>
      have hgranted : (callPhase s p).granted = true := granted_of_grantedPort hp
      have hsame : ∀ p', (callPhase s p').granted = true → (∀ r, r ≠ p' → (callPhase s r).granted = false) → p' = p := by
        intro p' hgrant hone
        rw [grantedPort_eq_some hgrant hone] at hp
        exact Option.some.inj hp
      have hany : ¬ ∀ p, (callPhase s p).granted = false := fun h => by simp [h p] at hgranted
      have hbody : endCallBody q e { s with lif.queue := rest }
          = accept q (le 1 p.number ++ le 1 4) (endedCall p { s with lif.queue := rest }) :=
        endCallBody_of_granted (hport.trans hp) q e
      rw [hbody]
      rcases grantedPhase_cases hgranted with hph | hph | hph
      · rw [endedCall_ringing (by rw [hphase, hph])]
        obtain ⟨hline, hflt, hans, hframe⟩ := leaveRinging_accepted q (le 1 p.number ++ le 1 4) p .releasing .ended rest s
        refine ⟨hline, hflt, fun h => absurd h hany, fun p' hgrant hone => ?_, hframe⟩
        rw [hsame p' hgrant hone, hph, if_neg (by decide)]
        obtain ⟨hrec, hothers, htells, hleft⟩ := leaveRinging_enterPhase (p := p) (ph := .releasing) (r := .ended)
          (t := letGo (accept q (le 1 p.number ++ le 1 4) (leaveRinging (enterPhase p .releasing .ended { s with lif.queue := rest }))))
          (s := { s with lif.queue := rest }) (by simp) (by simp)
        exact ⟨hans, ⟨hrec, hothers, htells⟩, fun _ => hleft, fun h => absurd h (by decide)⟩
      · rw [endedCall_linked (by rw [hphase, hph])]
        obtain ⟨hline, hflt, hans, hicm, hframe⟩ :=
          enterPhase_accepted q (le 1 p.number ++ le 1 4) p .releasing .ended rest s
        refine ⟨hline, hflt, fun h => absurd h hany, fun p' hgrant hone => ?_, hframe.trans (by simp)⟩
        rw [hsame p' hgrant hone, hph, if_neg (by decide)]
        exact ⟨hans, enterPhase_moves (s := { s with lif.queue := rest }) (by simp) (by simp),
          fun h => absurd h (by decide), fun _ => hicm⟩
      · rw [endedCall_releasing (by rw [hphase, hph])]
        obtain ⟨hline, hflt, hans⟩ := accepted_leaves (q := q) (v := le 1 p.number ++ le 1 4) (rest := rest) (s := s)
          (u := { s with lif.queue := rest }) rfl rfl rfl
        refine ⟨hline, hflt, fun h => absurd h hany, fun p' hgrant hone => ?_, ?_⟩
        · rw [hsame p' hgrant hone, hph]
          exact ⟨hans, by simp, fun h => absurd h (by decide), fun h => absurd h (by decide)⟩
        · apply State.ext <;> simp
          apply Nsc.ext <;> simp

/-! ### TALK and PRIVACY (07 R135, R136) -/

theorem talkTarget_eq (n : Nat) :
    talkTarget n = if n = 4 then some .all else (Port.ofNumber n).map TalkTarget.one := by
  unfold talkTarget Port.ofNumber
  split <;> simp_all

/-- A TALK by its action and its target. -/
theorem talkBody_eq (q : QFrame) (e : Station) (s : State) : talkBody q e s
    = if q.at 0 1 = 2 then accept q [2, 0] { s with icm.talk := .up }
      else if q.at 0 1 ≠ 1 then refuse q .range s
      else if q.at 1 1 = 4 then accept q [1, 4] { s with icm.talk := .down .all }
      else match Port.ofNumber (q.at 1 1) with
        | none => refuse q .range s
        | some p => if bound s p = true then accept q (1 :: le 1 p.number) { s with icm.talk := .down (.one p) }
          else refuse q .absent s := by
  unfold talkBody
  split
  · next h1 =>
    rw [talkTarget_eq, h1]
    by_cases h4 : q.at 1 1 = 4
    · simp [h4]
    · cases hp : Port.ofNumber (q.at 1 1) with
      | none => simp [h4]
      | some p => simp [h4]; rfl
  · next h2 => simp [h2]
  · next h1 h2 =>
    have h1' : ¬ q.at 0 1 = 1 := h1
    have h2' : ¬ q.at 0 1 = 2 := h2
    simp [h1', h2']

/-- A PRIVACY by its checks in order. -/
theorem privacyBody_eq (q : QFrame) (e : Station) (s : State) : privacyBody q e s
    = if q.at 0 1 = 1 then accept q [1, flagByte s.icm.forced] { s with icm.privacy := true }
      else if q.at 0 1 ≠ 2 then refuse q .range s
      else if s.icm.forced = true then refuse q .state s
      else accept q [0, 0] (match ringingPort s with
        | some p => link p { s with icm.privacy := false }
        | none => { s with icm.privacy := false }) := by
  unfold privacyBody
  split
  · next h1 => simp [h1]
  · next h2 =>
    have h1 : ¬ q.at 0 1 = 1 := by omega
    rw [if_neg h1, if_neg (not_not.2 h2)]
    rfl
  · next h1 h2 => rw [if_neg h1, if_pos h2]

/-- Settles O51. -/
theorem talkAndPrivacyAct : Obligations.TalkAndPrivacyAct := by
  refine ⟨fun q e rest s hasks => ?_, fun q e rest s hasks => ?_⟩
  · refine ⟨_, takes_asks talkBody hasks, ?_⟩
    rw [talkBody_eq]
    have hbound : ∀ p, bound { s with lif.queue := rest } p = bound s p := fun _ => rfl
    have hrefused : ∀ c, let t := letGo (refuse q c { s with lif.queue := rest })
        LineKept rest s t ∧ FaultsKept s t ∧ (Answered q (.refused c) s t ∧ t.icm = s.icm) ∧ t = { s with
          lif := t.lif, icm := t.icm, flt := t.flt, nsc := { s.nsc with replies := t.nsc.replies } } := fun c => by
      obtain ⟨hans, hline, hflt, hrest⟩ := onlyRefused_letGo_refuse q c rest s
      exact ⟨hline, hflt, ⟨hans, by simp⟩, hrest.trans (by simp)⟩
    have haccepted : ∀ v k, let t := letGo (accept q v { s with lif.queue := rest, icm.talk := k })
        LineKept rest s t ∧ FaultsKept s t ∧ (Answered q (.accepted v) s t ∧ t.icm = { s.icm with talk := k })
          ∧ t = { s with
            lif := t.lif, icm := t.icm, flt := t.flt, nsc := { s.nsc with replies := t.nsc.replies } } := fun v k => by
      obtain ⟨hline, hflt, hans⟩ := accepted_leaves (q := q) (v := v) (rest := rest) (s := s)
        (u := { s with lif.queue := rest, icm.talk := k }) rfl rfl rfl
      refine ⟨hline, hflt, ⟨hans, by simp⟩, ?_⟩
      apply State.ext <;> simp
      apply Nsc.ext <;> simp
    by_cases hup : q.at 0 1 = 2
    · rw [if_pos hup, if_pos hup]
      exact haccepted _ _
    by_cases hdown : q.at 0 1 ≠ 1
    · rw [if_neg hup, if_pos hdown, if_neg hup, if_pos hdown]
      exact hrefused _
    by_cases hall : q.at 1 1 = 4
    · rw [if_neg hup, if_neg hdown, if_pos hall, if_neg hup, if_neg hdown, if_pos hall]
      exact haccepted _ _
    rw [if_neg hup, if_neg hdown, if_neg hall, if_neg hup, if_neg hdown, if_neg hall]
    cases hport : Port.ofNumber (q.at 1 1) with
    | none => exact hrefused _
    | some p =>
      dsimp only
      rw [hbound]
      by_cases hb : bound s p = true
      · rw [if_pos hb, if_pos hb]
        exact haccepted _ _
      · rw [if_neg hb, if_neg hb]
        exact hrefused _
  · refine ⟨_, takes_asks privacyBody hasks, ?_⟩
    rw [privacyBody_eq]
    have hport : ringingPort { s with lif.queue := rest } = ringingPort s := rfl
    have hrefused : ∀ c, let t := letGo (refuse q c { s with lif.queue := rest })
        LineKept rest s t ∧ FaultsKept s t ∧ (Answered q (.refused c) s t ∧ t.icm = s.icm) ∧ t = { s with
          lif := t.lif, flt := t.flt
          icm := { s.icm with privacy := t.icm.privacy, calls := t.icm.calls, ringDue := t.icm.ringDue
                              prompts := t.icm.prompts, player := t.icm.player, promptSample := t.icm.promptSample }
          nsc := { s.nsc with replies := t.nsc.replies, calls := t.nsc.calls } } := fun c => by
      obtain ⟨hans, hline, hflt, hrest⟩ := onlyRefused_letGo_refuse q c rest s
      exact ⟨hline, hflt, ⟨hans, by simp⟩, hrest.trans (by simp)⟩
    have haccepted : ∀ v b, let t := letGo (accept q v { s with lif.queue := rest, icm.privacy := b })
        LineKept rest s t ∧ FaultsKept s t ∧ (Answered q (.accepted v) s t ∧ t.icm = { s.icm with privacy := b })
          ∧ t = { s with
            lif := t.lif, flt := t.flt
            icm := { s.icm with privacy := t.icm.privacy, calls := t.icm.calls, ringDue := t.icm.ringDue
                                prompts := t.icm.prompts, player := t.icm.player, promptSample := t.icm.promptSample }
            nsc := { s.nsc with replies := t.nsc.replies, calls := t.nsc.calls } } := fun v b => by
      obtain ⟨hline, hflt, hans⟩ := accepted_leaves (q := q) (v := v) (rest := rest) (s := s)
        (u := { s with lif.queue := rest, icm.privacy := b }) rfl rfl rfl
      refine ⟨hline, hflt, ⟨hans, by simp⟩, ?_⟩
      apply State.ext <;> simp
      apply Nsc.ext <;> simp
    simp only [hport]
    split
    · exact haccepted _ _
    · split
      · exact hrefused _
      · split
        · exact hrefused _
        · cases hp : ringingPort s with
          | none =>
            obtain ⟨hline, hflt, ⟨hans, hicm⟩, hframe⟩ := haccepted [0, 0] false
            refine ⟨hline, hflt, ⟨hans, by simp, fun _ => hicm, fun p hring hone => ?_⟩, hframe⟩
            rw [ringingPort_eq_some hring hone] at hp
            cases hp
          | some p =>
            set u : State := link p { s with lif.queue := rest, icm.privacy := false }
            obtain ⟨hline, hflt, hans⟩ := accepted_leaves (q := q) (v := [0, 0]) (rest := rest) (s := s) (u := u)
              (lif_eq_of_kept (s := { s with lif.queue := rest }) (by simp [u]) (by simp [u]) (by simp [u]))
              (by simp [u]) (by simp [u])
            refine ⟨hline, hflt, ⟨hans, by simp, fun hnone => ?_, fun p' hring hone => ?_⟩, ?_⟩
            · rw [ringingPort_eq_none hnone] at hp
              cases hp
            · rw [ringingPort_eq_some hring hone] at hp
              cases hp
              obtain ⟨hrec, hothers, htells, hleft⟩ := leaveRinging_enterPhase (p := p) (ph := .linked) (r := .none)
                (s := { s with lif.queue := rest, icm.privacy := false }) (t := letGo (accept q [0, 0] u))
                (by simp [u, link]) (by simp [u, link])
              exact ⟨hrec, hleft, htells, hothers⟩
            · apply State.ext <;> simp
              · apply Nsc.ext <;> simp
              · apply Icm.ext <;> simp

end Sys2Proof.Machine
end

section
/-!
SETTLED OBLIGATIONS. What a complete frame makes of the line interface and the roof sign (01 R5, R8, 05 R87).
-/

namespace Sys2Proof.Machine

theorem stationOf_eq_none {s : State} {a : Nat} (h : stationOf s a = none) : ∀ e ∈ s.lif.stations, e.addr ≠ a := by
  simpa [stationOf] using h

theorem updateStation_of_none {s : State} {a : Nat} (f : Station → Station) (h : stationOf s a = none) :
    updateStation a f s = s := by
  have hmap : s.lif.stations.map (fun e => if e.addr = a then f e else e) = s.lif.stations := by
    conv_rhs => rw [← List.map_id s.lif.stations]
    exact List.map_congr_left fun e he => if_neg (stationOf_eq_none h e he)
  unfold updateStation
  rw [hmap]

/-- The refresh of a station's presence, by whether a SIGN entry becomes PRESENT with it. -/
theorem refreshPresence_eq (a : Nat) (s : State) : refreshPresence a s
    = if (stationOf s a).any (fun e => decide (e.role = .sign) && !e.present) = true
      then signPresent (updateStation a (fun e => { e with present := true, silenceFrom := s.time }) s)
      else updateStation a (fun e => { e with present := true, silenceFrom := s.time }) s := by
  unfold refreshPresence becomePresent
  cases h : stationOf s a with
  | none => simp [updateStation_of_none _ h]
  | some e => cases hp : e.present <;> simp [hp]

theorem signPresent_nsc (s : State) : (signPresent s).nsc
    = { s.nsc with sign := some ⟨s.cab.sign.pattern, s.cab.sign.flag, s.cab.sign.seq⟩ } := by
  apply Nsc.ext <;> simp [signPresent, restartSignTimer, placeSign]

theorem signPresent_cab (s : State) : (signPresent s).cab = { s.cab with signDue := match s.cab.sign.confirm with
    | .confirmed => none
    | .waiting => some (s.time + 14400000)
    | .lost => some (s.time + 72000000) } := by
  simp only [signPresent, restartSignTimer, signWait, signLostWait, seconds, placeSign, renew_frame] <;> rfl

/-- The character that completes a frame has been heard. -/
def frameHeard (s : State) : State :=
  { s with time := max s.time (s.lif.lineFree + 1375)
           lif := { s.lif with rx := .skip, lineFree := max s.time (s.lif.lineFree + 1375) } }

theorem rxFrameCompleteBody_eq {c : LineChar} {own : Bool} {chars : List Byte} {s : State}
    (hrx : s.lif.rx = .frame own chars) (hwants : wantsCheck chars = true) (hgood : charBad c = false) :
    rxFrameCompleteBody c s = judgeFrame own chars c.data (frameHeard s) := by
  unfold rxFrameCompleteBody
  rw [hrx]
  have hcompletes : completesFrame c (.frame own chars) = true := by simp [completesFrame, hwants, hgood]
  exact if_pos hcompletes

/-- The judgement of a frame whose LEAD names a station. -/
theorem judgeFrame_eq {own : Bool} {chars : List Byte} {check : Byte} {a : Nat} {s : State}
    (hlead : leadAddress (chars.getD 0 0) = some a) : judgeFrame own chars check s
    = if check ≠ checkOf chars
          ∨ ((chars.getD 1 0).toNat ≠ s.lif.address ∧ (chars.getD 1 0).toNat ≠ 31) ∨ own = true then s
      else acceptFrame a chars s := by
  unfold judgeFrame
  rw [hlead]
  grind

/-- The frame of another station: the receive queue takes it, or it is dropped with RX_OVERRUN. -/
theorem enqueue_leaves (q : QFrame) (s : State) :
    (if s.lif.queue.length < 8 then
        (enqueue q s).lif.queue = s.lif.queue ++ [q] ∧ (enqueue q s).flt = s.flt
      else (enqueue q s).lif.queue = s.lif.queue
        ∧ (enqueue q s).flt = { s.flt with latched := s.flt.latched ||| 2#16 })
    ∧ enqueue q s = { s with lif.queue := (enqueue q s).lif.queue, flt := (enqueue q s).flt } := by
  unfold enqueue queueSize
  split
  · exact ⟨⟨rfl, rfl⟩, rfl⟩
  · exact ⟨⟨rfl, rfl⟩, rfl⟩

/-- Settles O4, by the cases of R5: the frame that is dropped, the part's own address, and the frame of another
station, whose entry is refreshed before the frame joins the queue or overruns it. -/
theorem completeFrameIsJudged : Obligations.CompleteFrameIsJudged := by
  intro c own chars a s hact hrx hwants hgood hlead signBack
  refine ⟨_, whenActive_of_active hact _, ?_⟩
  rw [rxFrameCompleteBody_eq hrx hwants hgood, judgeFrame_eq hlead]
  refine ⟨by simp only [apply_ite State.time]; simp [frameHeard], ?_⟩
  have haddr : (frameHeard s).lif.address = s.lif.address := rfl
  rw [haddr]
  by_cases hdropped : c.data ≠ checkOf chars
      ∨ ((chars.getD 1 0).toNat ≠ s.lif.address ∧ (chars.getD 1 0).toNat ≠ 31) ∨ own = true
  · rw [if_pos hdropped, if_pos hdropped]
    rfl
  rw [if_neg hdropped, if_neg hdropped]
  unfold acceptFrame
  rw [haddr]
  by_cases hown : a = s.lif.address
  · rw [if_pos hown, if_pos hown]
    rfl
  rw [if_neg hown, if_neg hown]
  have habsent : (stationOf (frameHeard s) a).any (fun e => !e.present)
      = (stationOf s a).any (fun e => !e.present) := rfl
  dsimp only
  rw [habsent]
  set v : State := refreshPresence a (frameHeard s) with hv
  obtain ⟨hqueue, hrest⟩ := enqueue_leaves
    ⟨a, chars.getD 2 0, chars.drop 4, (stationOf s a).any (fun e => !e.present)⟩ v
  have hlen : v.lif.queue = s.lif.queue := by simp [v, frameHeard]
  have hstations : v.lif.stations = s.lif.stations.map (fun e =>
      if e.addr = a then { e with present := true, silenceFrom := (frameHeard s).time } else e) := by
    rw [hv, refreshPresence_eq]
    split <;> simp [frameHeard, updateStation, signPresent, placeSign, restartSignTimer]
  rw [hlen, show v.flt = s.flt by simp [v, frameHeard]] at hqueue
  have htime : v.time = (frameHeard s).time := by simp [v]
  refine ⟨by simpa [htime] using hstations, hqueue, ?_, ?_⟩
  · have hback : (stationOf (frameHeard s) a).any (fun e => decide (e.role = .sign) && !e.present) = signBack := rfl
    rw [refreshPresence_eq, hback] at hv
    by_cases hsign : signBack = true
    · rw [if_pos hsign] at hv
      rw [if_pos hsign]
      rw [hrest]
      dsimp only
      rw [htime]
      exact ⟨(congrArg State.nsc hv).trans (signPresent_nsc _), (congrArg State.cab hv).trans (signPresent_cab _)⟩
    · rw [if_neg hsign] at hv
      rw [if_neg hsign, hrest, hv]
      exact ⟨rfl, rfl, rfl⟩
  · apply State.ext <;> simp [v, frameHeard]
    apply Lif.ext <;> simp
    apply Transmitter.ext <;> simp

end Sys2Proof.Machine
end

section
/-!
SUPPORT. The fare tick (02 R24): what ODO makes of it, what it leaves of the accounts, and the watches that fire at it.
-/

namespace Sys2Proof.Machine

/-! ### The watches at a tick (05 R89) -/

/-- The count of a watch that fires. -/
def countUnmetered (c : Totals) : Totals := { c with unmetered := min 65535 (c.unmetered + 1) }

theorem watchFired_eq (a : Nat) (s : State) : watchFired a s
    = claimEventIfOpen s.odo.clock (.unmetered a) (counting countUnmetered (raise .unmetered s)) :=
  claimEvent_counting _ _ countUnmetered (raise .unmetered s)

/-- The panels whose watches fire, in the list's order. -/
def firing (s : State) : List Nat :=
  (s.cab.watches.filter (fun w => !w.fired && (advanceWatch s w).fired)).map (·.addr)

theorem watchTick_of_enabled {s : State} (h : watchEnabled s = true) : watchTick s
    = (firing s).foldl (fun s a => watchFired a s) { s with cab.watches := s.cab.watches.map (advanceWatch s) } := by
  have hzip : s.cab.watches.zip (s.cab.watches.map (advanceWatch s))
      = s.cab.watches.map (fun w => (w, advanceWatch s w)) := by
    simp [List.zip_eq_zipWith, List.zipWith_map_right, List.zipWith_self]
  unfold watchTick
  rw [if_neg (by simp [h])]
  dsimp only
  rw [hzip, List.filter_map, List.map_map]
  rfl

theorem watchTick_watches {s : State} (h : watchEnabled s = true) :
    (watchTick s).cab.watches = s.cab.watches.map (advanceWatch s) := by
  rw [watchTick_of_enabled h]
  exact foldl_inv (fun u : State => u.cab.watches) _ (fun u a => by simp) _ _

theorem watchFired_bit (a : Nat) (s : State) (i : Nat) :
    (watchFired a s).flt.latched.getLsbD i = (s.flt.latched.getLsbD i || decide (i = 6)) := by
  rw [watchFired_eq, ← show FaultName.unmetered.index = 6 from rfl, ← raise_bit]
  simp

theorem foldl_watchFired_bit (as : List Nat) (s : State) (i : Nat) :
    (as.foldl (fun s a => watchFired a s) s).flt.latched.getLsbD i
      = (s.flt.latched.getLsbD i || (!as.isEmpty && decide (i = 6))) := by
  induction as generalizing s with
  | nil => simp
  | cons a as ih =>
    rw [List.foldl_cons, ih, watchFired_bit]
    cases as.isEmpty <;> simp

theorem watchTick_bit {i : Nat} (h : i ≠ 6) (s : State) :
    (watchTick s).flt.latched.getLsbD i = s.flt.latched.getLsbD i := by
  by_cases he : watchEnabled s = true
  · rw [watchTick_of_enabled he, foldl_watchFired_bit]
    simp [h]
  · simp [watchTick, he]

theorem counting_acc (f : Totals → Totals) (s : State) : (counting f s).acc
    = if shiftIsOpen s = true then { s.acc with shift.totals := f s.acc.shift.totals } else s.acc := by
  unfold counting
  split <;> rfl

/-- With no shift open a watch that fires leaves the accounts. -/
theorem watchFired_acc_of_closed {s : State} (h : shiftIsOpen s = false) (a : Nat) :
    (watchFired a s).acc = s.acc := by
  have hopen : shiftIsOpen (counting countUnmetered (raise .unmetered s)) = false :=
    (shiftIsOpen_counting _ _).trans h
  have hraised : shiftIsOpen (raise .unmetered s) = false := h
  rw [watchFired_eq, claimEventIfOpen_acc, hopen, if_neg (by simp), counting_acc, if_neg (by simp [hraised])]
  simp

/-- Of the shift's record, the two counts alone that a firing watch touches differ. -/
def WatchCounts (s t : State) : Prop :=
  t.acc.shift = { s.acc.shift with totals := { s.acc.shift.totals with
    unmetered := t.acc.shift.totals.unmetered, notJournalled := t.acc.shift.totals.notJournalled } }

theorem WatchCounts.trans {s t u : State} (h : WatchCounts s t) (h' : WatchCounts t u) : WatchCounts s u := by
  unfold WatchCounts at *
  rw [h', h]

theorem watchFired_counts (a : Nat) (s : State) : WatchCounts s (watchFired a s) := by
  unfold WatchCounts
  rw [watchFired_eq, claimEventIfOpen_shift, counting_acc]
  split <;> simp [countUnmetered]

theorem foldl_watchFired_counts (as : List Nat) (s : State) :
    WatchCounts s (as.foldl (fun s a => watchFired a s) s) := by
  induction as generalizing s with
  | nil => rfl
  | cons a as ih => exact (watchFired_counts a s).trans (ih _)

theorem watchTick_counts (s : State) : WatchCounts s (watchTick s) := by
  by_cases he : watchEnabled s = true
  · rw [watchTick_of_enabled he]
    exact foldl_watchFired_counts (firing s) { s with cab.watches := s.cab.watches.map (advanceWatch s) }
  · simp [watchTick, he, WatchCounts]

/-- An open shift counts each watch that fires. -/
theorem watchFired_unmetered {s : State} (h : shiftIsOpen s = true) (a : Nat) :
    shiftIsOpen (watchFired a s) = true
      ∧ (watchFired a s).acc.shift.totals.unmetered = min 65535 (s.acc.shift.totals.unmetered + 1) := by
  have hraised : shiftIsOpen (raise .unmetered s) = true := h
  have hcounts : (watchFired a s).acc.shift.state = s.acc.shift.state := by rw [watchFired_counts a s]
  refine ⟨by rw [← h]; simp [shiftIsOpen, hcounts], ?_⟩
  rw [watchFired_eq, claimEventIfOpen_shift, counting_acc, if_pos hraised]
  simp [countUnmetered]

theorem foldl_watchFired_unmetered (as : List Nat) {s : State} (h : shiftIsOpen s = true)
    (hle : s.acc.shift.totals.unmetered ≤ 65535) :
    (as.foldl (fun s a => watchFired a s) s).acc.shift.totals.unmetered
      = min 65535 (s.acc.shift.totals.unmetered + as.length) := by
  induction as generalizing s with
  | nil => simp [hle]
  | cons a as ih =>
    obtain ⟨hopen, hcount⟩ := watchFired_unmetered h a
    rw [List.foldl_cons, ih hopen (by omega), hcount, List.length_cons]
    omega

theorem foldl_watchFired_acc_of_closed (as : List Nat) {s : State} (h : shiftIsOpen s = false) :
    (as.foldl (fun s a => watchFired a s) s).acc = s.acc := by
  induction as generalizing s with
  | nil => rfl
  | cons a as ih =>
    have hacc := watchFired_acc_of_closed h a
    rw [List.foldl_cons, ih (by rw [← h]; simp [shiftIsOpen, hacc]), hacc]

theorem watchTick_acc_of_closed {s : State} (h : shiftIsOpen s = false) : (watchTick s).acc = s.acc := by
  by_cases he : watchEnabled s = true
  · rw [watchTick_of_enabled he]
    exact foldl_watchFired_acc_of_closed (firing s) (s := { s with cab.watches := s.cab.watches.map (advanceWatch s) }) h
  · simp [watchTick, he]

/-! ### What ODO makes of a tick (02 R24) -/

theorem raiseIf_flt (c : Bool) (f : FaultName) (s : State) : ∃ x, raiseIf c f s = { s with flt := x } := by
  cases c
  · exact ⟨s.flt, rfl⟩
  · exact ⟨_, rfl⟩

theorem movingNow_eq (s : State) : movingNow s
    = s.tar.committed.any (fun c => decide (5 * c.general.K ≤ 3600 * s.odo.window.sum)) := by
  unfold movingNow
  cases s.tar.committed <;> rfl

/-- The part after ODO's steps of a tick. -/
def ticked (s : State) : State := odoTick (passTo s.odo.tickDue { s with odo.tickDue := s.odo.tickDue + tickTime })

theorem tickBody_eq (s : State) : tickBody s = watchTick (accountTick (min 255 s.odo.pulseCount)
    (fareTick (min 255 s.odo.pulseCount) (ticked s))) := rfl

theorem ticked_odo (s : State) : (ticked s).odo = { s.odo with
    tickDue := s.odo.tickDue + 1440000
    lastTaken := s.odo.pulseCount, pulseCount := 0
    window := s.odo.window.tail ++ [min 255 s.odo.pulseCount]
    odometer := (s.odo.odometer + min 255 s.odo.pulseCount) % 4294967296
    moving := s.tar.committed.any (fun c =>
      decide (5 * c.general.K ≤ 3600 * (s.odo.window.tail ++ [min 255 s.odo.pulseCount]).sum))
    vehicleBand := s.odo.manualBand.getD (automaticBand s) } := by
  have hodo : (ticked s).odo = { s.odo with
      tickDue := s.odo.tickDue + 1440000
      lastTaken := s.odo.pulseCount, pulseCount := 0
      window := s.odo.window.tail ++ [min 255 s.odo.pulseCount]
      odometer := (s.odo.odometer + min 255 s.odo.pulseCount) % 4294967296
      moving := (ticked s).odo.moving
      vehicleBand := s.odo.manualBand.getD (automaticBand s) } := by
    obtain ⟨x, hx⟩ := raiseIf_flt (decide (255 < s.odo.pulseCount)) .pulseOverrun
      (passTo s.odo.tickDue { s with odo.tickDue := s.odo.tickDue + tickTime })
    unfold ticked odoTick
    dsimp only
    erw [hx]
    rfl
  have hmoving : (ticked s).odo.moving = movingNow (ticked s) := by
    simp only [ticked, odoTick, evaluateBand]
    rfl
  rw [hodo, hmoving, movingNow_eq, hodo, show (ticked s).tar = s.tar by simp [ticked]]

theorem ticked_rest (s : State) : ticked s = { s with
    time := max s.time s.odo.tickDue, odo := (ticked s).odo, flt := (ticked s).flt } := by
  apply State.ext <;> simp [ticked]

theorem ticked_latched (s : State) : (ticked s).flt.latched.getLsbD 5
    = (s.flt.latched.getLsbD 5 || decide (255 < s.odo.pulseCount)) := by
  by_cases h : 255 < s.odo.pulseCount
  · simp [ticked, odoTick, raiseIf, h, evaluateBand, FaultName.index]
  · simp [ticked, odoTick, raiseIf, h, evaluateBand]

/-! ### The legs at a tick (04 R62 to R68, R74) -/

theorem Leg.step_same (t : Option TariffSet) (l : Leg) : l.step t = { l with
    steps := (l.step t).steps, farePart := (l.step t).farePart, ceiling := (l.step t).ceiling } := by
  unfold Leg.step
  dsimp only
  split <;> rfl

/-- Steps touch the step count, the fare part and the ceiling flag alone. -/
theorem Leg.stepN_same (t : Option TariffSet) (k : Nat) (l : Leg) : Leg.stepN t k l = { l with
    steps := (Leg.stepN t k l).steps, farePart := (Leg.stepN t k l).farePart
    ceiling := (Leg.stepN t k l).ceiling } := by
  induction k generalizing l with
  | zero => rfl
  | succ k ih =>
    rw [Leg.stepN]
    refine (ih _).trans ?_
    rw [Leg.step_same]

/-- Steps do not look at the register. -/
theorem Leg.stepN_reg (t : Option TariffSet) (k r : Nat) (l : Leg) :
    Leg.stepN t k { l with reg := r } = { Leg.stepN t k l with reg := r } := by
  induction k generalizing l with
  | zero => rfl
  | succ k ih =>
    have hstep : Leg.step t { l with reg := r } = { l.step t with reg := r } := by
      unfold Leg.step
      dsimp only
      split <;> rfl
    rw [Leg.stepN, Leg.stepN, hstep, ih]

/-- A leg after a tick that finds n legs occupied. -/
def Leg.afterTick (s : State) (n p : Nat) (l : Leg) : Leg := (l.accrue s n p).count n p

theorem Leg.accrue_of_not {l : Leg} (h : ¬ (l.phase = .opened ∧ l.kind = .metered)) (s : State) (n p : Nat) :
    l.accrue s n p = l := by
  unfold Leg.accrue
  rw [if_neg (by simpa [Leg.isMetered] using h)]

/-- The gain of an OPEN metered leg: its register, rescaled to the vehicle band, takes the shared cost of the tick. -/
theorem Leg.accrue_of_metered {l : Leg} (h : l.phase = .opened ∧ l.kind = .metered) (s : State) (n p : Nat) :
    let v := s.odo.vehicleBand
    let r := bandRates s v
    let old := if l.regBand = v then l.reg else l.reg * r.S (tariffK s) / (bandRates s l.regBand).S (tariffK s)
    let gained := old + contribution (tariffK s) r p * r.share n
    l.accrue s n p = { Leg.stepN s.tar.committed (gained / r.T (tariffK s)) { l with regBand := v } with
      reg := gained % r.T (tariffK s) } := by
  intro v r old gained
  unfold Leg.accrue
  rw [if_pos (by simpa [Leg.isMetered] using h)]
  have hbanded : (if l.regBand = v then l else l.rescale s v) = { l with regBand := v, reg := old } := by
    by_cases hv : l.regBand = v
    · simp only [old, if_pos hv]
      rw [← hv]
    · simp only [old, if_neg hv]
      rfl
  rw [← Leg.stepN_reg]
  dsimp only
  rw [hbanded]

/-- The gain of a tick touches the band, register, steps, fare part and ceiling flag. -/
theorem Leg.accrue_same (s : State) (n p : Nat) (l : Leg) : l.accrue s n p = { l with
    regBand := (l.accrue s n p).regBand, reg := (l.accrue s n p).reg, steps := (l.accrue s n p).steps
    farePart := (l.accrue s n p).farePart, ceiling := (l.accrue s n p).ceiling } := by
  by_cases h : l.phase = .opened ∧ l.kind = .metered
  · rw [Leg.accrue_of_metered h]
    dsimp only
    rw [Leg.stepN_same]
  · rw [Leg.accrue_of_not h]

/-- A tick touches the band, register, steps, fare part, ceiling flag and counters of a leg, and nothing else. -/
theorem Leg.afterTick_same (s : State) (n p : Nat) (l : Leg) : l.afterTick s n p = { l with
    regBand := (l.afterTick s n p).regBand, reg := (l.afterTick s n p).reg, steps := (l.afterTick s n p).steps
    farePart := (l.afterTick s n p).farePart, ceiling := (l.afterTick s n p).ceiling
    hiredPulses := (l.afterTick s n p).hiredPulses, hiredTicks := (l.afterTick s n p).hiredTicks
    sharedTicks := (l.afterTick s n p).sharedTicks } := by
  unfold Leg.afterTick Leg.count
  split
  · rw [Leg.accrue_same]
  · rw [Leg.accrue_same]

theorem Leg.afterTick_of_closing {l : Leg} (h : l.phase = .closing) (s : State) (n p : Nat) :
    l.afterTick s n p = l := by
  unfold Leg.afterTick
  rw [Leg.accrue_of_not (by simp [h])]
  simp [Leg.count, Leg.occupied, h]

theorem Leg.afterTick_counters {l : Leg} (h : l.phase ≠ .closing) (s : State) (n p : Nat) :
    (l.afterTick s n p).hiredTicks = min 4294967295 (l.hiredTicks + 1)
      ∧ (l.afterTick s n p).hiredPulses
        = (if l.phase = .opened then min 4294967295 (l.hiredPulses + p) else l.hiredPulses)
      ∧ (l.afterTick s n p).sharedTicks
        = (if 2 ≤ n then min 4294967295 (l.sharedTicks + 1) else l.sharedTicks) := by
  have hoccupied : (l.accrue s n p).occupied = true := by
    rw [Leg.accrue_same]
    simpa [Leg.occupied] using h
  unfold Leg.afterTick Leg.count
  rw [if_pos hoccupied, Leg.accrue_same]
  exact ⟨rfl, rfl, rfl⟩

/-- Of what a tick gains, the counters take nothing. -/
theorem Leg.afterTick_gain (s : State) (n p : Nat) (l : Leg) :
    (l.afterTick s n p).regBand = (l.accrue s n p).regBand ∧ (l.afterTick s n p).reg = (l.accrue s n p).reg
      ∧ (l.afterTick s n p).steps = (l.accrue s n p).steps ∧ (l.afterTick s n p).farePart = (l.accrue s n p).farePart
      ∧ (l.afterTick s n p).ceiling = (l.accrue s n p).ceiling := by
  unfold Leg.afterTick Leg.count
  split
  · exact ⟨rfl, rfl, rfl, rfl, rfl⟩
  · exact ⟨rfl, rfl, rfl, rfl, rfl⟩

theorem mem_allSlots (i : Fin 4) : i ∈ allSlots := by fin_cases i <;> decide

theorem occupied_pos {s : State} {i : Fin 4} {l : Leg} (hl : legAt s i = some l) (ho : l.occupied = true) :
    0 < occupied s :=
  List.length_pos_of_mem (List.mem_filter.2 ⟨mem_allSlots i, by simpa [slotOccupied, hl] using ho⟩)

theorem BandRates.share_eq (r : BandRates) {n : Nat} (h : 0 < n) :
    r.share n = if n = 1 then 1000 else if n = 2 then r.f2 else if n = 3 then r.f3 else r.f4 := by
  match n with
  | 1 | 2 | 3 => rfl
  | n + 4 => simp [BandRates.share]

theorem legAt_fareTick (p : Nat) (s : State) (i : Fin 4) :
    legAt (fareTick p s) i = (legAt s i).map (Leg.afterTick s (occupied s) p) := by
  unfold legAt
  rw [fareTick_slots, Four.get_map]
  rfl

/-- A fare tick leaves every slot as occupied as it was. -/
theorem occupied_fareTick (p : Nat) (s : State) : occupied (fareTick p s) = occupied s := by
  have : slotOccupied (fareTick p s) = slotOccupied s := by
    funext i
    unfold slotOccupied
    rw [legAt_fareTick]
    cases legAt s i with
    | none => rfl
    | some l =>
      show (l.afterTick s (occupied s) p).occupied = l.occupied
      rw [Leg.afterTick_same]
      rfl
  simp [occupied, this]

theorem showLeg_fares_get (j i : Fin 4) (s : State) : (showLeg j s).nsc.fares.get i
    = if i = j then (legAt s i).elim (s.nsc.fares.get i) (fun l => some (showOf l)) else s.nsc.fares.get i := by
  by_cases hi : i = j
  · subst hi
    cases h : legAt s i with
    | none => simp [showLeg, h]
    | some l => simp [showLeg_fares h]
  · cases h : legAt s j with
    | none => simp [showLeg, h, hi]
    | some l => simp [showLeg_fares h, hi]

/-- The shows of a list of slots, but for those that a test leaves out. -/
theorem foldl_showLeg_fares (unchanged : Fin 4 → Prop) [DecidablePred unchanged] (js : List (Fin 4)) (s : State)
    (i : Fin 4) :
    (js.foldl (fun u j => if unchanged j then u else showLeg j u) s).nsc.fares.get i
      = if i ∈ js ∧ ¬ unchanged i then (legAt s i).elim (s.nsc.fares.get i) (fun l => some (showOf l))
        else s.nsc.fares.get i := by
  induction js generalizing s with
  | nil => simp
  | cons j js ih =>
    rw [List.foldl_cons, ih]
    by_cases hj : unchanged j
    · by_cases hi : i = j
      · simp [hi, hj]
      · simp [hi, hj]
    · have hleg : legAt (showLeg j s) i = legAt s i := legAt_congr (by simp) i
      rw [if_neg hj, hleg, showLeg_fares_get]
      by_cases hi : i = j
      · subst hi
        cases hl : legAt s i <;> simp [hj]
      · simp [hi]

/-- The state once a tick has reached the slots, with no FARE_SHOW placed yet. -/
def slotsTicked (p : Nat) (s : State) : State :=
  { s with fare.slots := s.fare.slots.map (Option.map (Leg.afterTick s (occupied s) p)) }

theorem fareTick_eq (p : Nat) (s : State) : fareTick p s = allSlots.foldl (fun u i =>
    if (legAt s i).map showOf = (legAt (slotsTicked p s) i).map showOf then u else showLeg i u) (slotsTicked p s) := rfl

theorem legAt_slotsTicked (p : Nat) (s : State) (i : Fin 4) :
    legAt (slotsTicked p s) i = (legAt s i).map (Leg.afterTick s (occupied s) p) :=
  Four.get_map _ _ _

/-- A FARE_SHOW is placed for each leg whose shown values a tick changes. -/
theorem fareTick_fares (p : Nat) (s : State) (i : Fin 4) : (fareTick p s).nsc.fares.get i
    = (legAt s i).elim (s.nsc.fares.get i) (fun l =>
        let l' := l.afterTick s (occupied s) p
        if showOf l' = showOf l then s.nsc.fares.get i else some (showOf l')) := by
  have hsame : (slotsTicked p s).nsc.fares = s.nsc.fares := rfl
  rw [fareTick_eq, foldl_showLeg_fares, legAt_slotsTicked, hsame]
  cases legAt s i with
  | none => simp
  | some l => simp [mem_allSlots i, eq_comm]

end Sys2Proof.Machine
end

section
/-!
SETTLED OBLIGATIONS. The fare tick in ODO, the legs, the shift and the watches (02 R23 to R32, 04 R62 to R68, 08 R151, 05 R89).
-/

namespace Sys2Proof.Machine

/-- Settles O15; the switch point of the automatic band is `automaticBand_spec`'s. -/
theorem fareTickAdvancesOdometry : Obligations.FareTickAdvancesOdometry := by
  refine ⟨fun s hact => ⟨_, whenActive_of_active hact _, ?_⟩, fun s h => ?_,
    fun c s hc hset hok => automaticBand_spec hc hset hok⟩
  · rw [tickBody_eq]
    have hlatched := ticked_latched s
    have htime : (ticked s).time = max s.time s.odo.tickDue := by rw [ticked_rest]
    have hbit : (watchTick (accountTick (min 255 s.odo.pulseCount)
          (fareTick (min 255 s.odo.pulseCount) (ticked s)))).flt.latched.getLsbD 5
        = (s.flt.latched.getLsbD 5 || decide (255 < s.odo.pulseCount)) := by
      rw [watchTick_bit (by decide), ← hlatched]
      simp
    refine ⟨by simpa using htime, by rw [← ticked_odo]; simp, hbit, ?_⟩
    rw [ticked_rest]
    refine ⟨by simp, by simp, by simp, by simp, by simp, by simp, ?_, by simp, ?_, by simp, by simp, by simp⟩
    · apply Cab.ext <;> simp
    · apply Acc.ext <;> simp
  · rcases h with h | h
    · simp [automaticBand, h]
    · unfold automaticBand
      split <;> simp [h]

theorem accountTick_of_closed {s : State} (h : shiftIsOpen s = false) (p : Nat) : accountTick p s = s := by
  simp [accountTick, h]

/-- The counts of a tick in an OPEN record. -/
theorem accountTick_of_open {s : State} (h : shiftIsOpen s = true) (hmax : s.acc.shift.sharedTicks ≤ 4294967295)
    (p : Nat) : (accountTick p s).acc.shift = { s.acc.shift with
      unhiredPulses := if occupied s = 0 then min 4294967295 (s.acc.shift.unhiredPulses + p)
        else s.acc.shift.unhiredPulses
      hiredPulses := if occupied s = 0 then s.acc.shift.hiredPulses
        else min 4294967295 (s.acc.shift.hiredPulses + p)
      hiredTicks := if occupied s = 0 then s.acc.shift.hiredTicks
        else min 4294967295 (s.acc.shift.hiredTicks + 1)
      sharedTicks := if 2 ≤ occupied s then min 4294967295 (s.acc.shift.sharedTicks + 1)
        else s.acc.shift.sharedTicks } := by
  unfold accountTick
  rw [if_pos h]
  by_cases h0 : occupied s = 0
  · simp [h0, satAdd, max32]
  · by_cases h2 : 2 ≤ occupied s
    · simp [h0, h2, satAdd, max32]
    · simp [h0, h2, satAdd, max32, hmax]

/-- Settles O18. -/
theorem fareTickCountsShift : Obligations.FareTickCountsShift := by
  intro s hact hmax
  refine ⟨_, whenActive_of_active hact _, ?_⟩
  rw [tickBody_eq]
  set u : State := fareTick (min 255 s.odo.pulseCount) (ticked s) with hu
  have hacc : u.acc = s.acc := by rw [hu, ticked_rest]; simp
  have hopen : shiftIsOpen u = shiftIsOpen s := by simp [shiftIsOpen, hacc]
  have hoccupied : occupied u = occupied s := (occupied_fareTick _ _).trans (occupied_congr (by rw [ticked_rest]))
  cases h : shiftIsOpen s with
  | false =>
    rw [h] at hopen
    rw [if_pos rfl, accountTick_of_closed hopen, watchTick_acc_of_closed hopen, hacc]
  | true =>
    rw [h] at hopen
    have hcounts := watchTick_counts (accountTick (min 255 s.odo.pulseCount) u)
    unfold WatchCounts at hcounts
    rw [accountTick_of_open hopen (by rw [hacc]; exact hmax), hacc, hoccupied] at hcounts
    rw [if_neg (by simp)]
    dsimp only
    rw [hcounts]
    exact ⟨rfl, rfl⟩

/-- Settles O17. -/
theorem fareTickAccruesLegs : Obligations.FareTickAccruesLegs := by
  intro s hact p v n K
  refine ⟨_, whenActive_of_active hact _, fun i => ?_⟩
  have hoccupied : occupied (ticked s) = n := occupied_congr (by rw [ticked_rest])
  have hleg : legAt (tickBody s) i = (legAt s i).map (Leg.afterTick (ticked s) n p) := by
    have hticked : legAt (ticked s) i = legAt s i := legAt_congr (by rw [ticked_rest]) i
    rw [← hticked, ← hoccupied, ← legAt_fareTick]
    exact legAt_congr (by simp [tickBody_eq, p]) i
  have hfares : (tickBody s).nsc.fares.get i = (legAt s i).elim (s.nsc.fares.get i) (fun l =>
      if showOf (l.afterTick (ticked s) n p) = showOf l then s.nsc.fares.get i
      else some (showOf (l.afterTick (ticked s) n p))) := by
    have htick := fareTick_fares p (ticked s) i
    rw [hoccupied, legAt_congr (show (ticked s).fare = s.fare by rw [ticked_rest]) i,
      show (ticked s).nsc = s.nsc by rw [ticked_rest]] at htick
    rw [← htick]
    simp [tickBody_eq, p]
  rw [hleg, hfares]
  cases h : legAt s i with
  | none => exact ⟨rfl, rfl⟩
  | some l =>
    refine ⟨_, rfl, rfl, Leg.afterTick_same _ _ _ _, ?_, ?_⟩
    · by_cases hclosing : l.phase = .closing
      · rw [if_pos hclosing]
        exact Leg.afterTick_of_closing hclosing _ _ _
      · rw [if_neg hclosing]
        exact Leg.afterTick_counters hclosing _ _ _
    · obtain ⟨hband, hreg, hsteps, hfare, hceiling⟩ := Leg.afterTick_gain (ticked s) n p l
      rw [hband, hreg, hsteps, hfare, hceiling]
      by_cases hmetered : l.phase = .opened ∧ l.kind = .metered
      · rw [if_pos hmetered, Leg.accrue_of_metered hmetered]
        intro r old f c T
        have htar : (ticked s).tar = s.tar := by rw [ticked_rest]
        have hv : (ticked s).odo.vehicleBand = v := by rw [ticked_odo]
        have hrates : ∀ b, bandRates (ticked s) b = bandRates s b := fun b => by simp [bandRates, htar]
        have hK : tariffK (ticked s) = K := by simp [tariffK, K, htar]
        have hshare : (bandRates s v).share n = f :=
          BandRates.share_eq _ (occupied_pos h (by simp [Leg.occupied, hmetered.1]))
        dsimp only
        rw [hv, hK, hrates, hrates, hshare, htar]
        exact ⟨congrArg Leg.regBand (Leg.stepN_same _ _ _), rfl, _, rfl, rfl, rfl, rfl⟩
      · rw [if_neg hmetered, Leg.accrue_of_not hmetered]
        exact ⟨rfl, rfl, rfl, rfl, rfl⟩

/-! ### A watch fires (05 R89) -/

/-- The state the watches see at a tick. -/
def beforeWatches (s : State) : State :=
  accountTick (min 255 s.odo.pulseCount) (fareTick (min 255 s.odo.pulseCount) (ticked s))

theorem tickBody_eq_watchTick (s : State) : tickBody s = watchTick (beforeWatches s) := rfl

theorem stationOf_beforeWatches (s : State) (a : Nat) : stationOf (beforeWatches s) a = stationOf s a := by
  simp [stationOf, beforeWatches, ticked]

theorem covered_beforeWatches (s : State) (a : Nat) : covered (beforeWatches s) a = covered s a := by
  have hleg : ∀ i, legAt (beforeWatches s) i
      = (legAt s i).map (Leg.afterTick (ticked s) (occupied (ticked s)) (min 255 s.odo.pulseCount)) := fun i => by
    have hticked : legAt (ticked s) i = legAt s i := legAt_congr (by rw [ticked_rest]) i
    rw [← hticked, ← legAt_fareTick]
    exact legAt_congr (by simp [beforeWatches]) i
  unfold covered anyOccupied
  congr 1
  funext i
  rw [hleg]
  cases legAt s i with
  | none => rfl
  | some l =>
    dsimp only [Option.map_some]
    rw [Leg.afterTick_same]
    rfl

theorem accountTick_acc (p : Nat) {s t : State} (hacc : t.acc = s.acc) (ho : occupied t = occupied s) :
    (accountTick p t).acc = (accountTick p s).acc := by
  have hopen : shiftIsOpen t = shiftIsOpen s := by simp [shiftIsOpen, hacc]
  unfold accountTick
  rw [hopen, ho, hacc]
  split
  · rfl
  · exact hacc

/-- The totals of a shift are formed from the tick's counts at its close, not at the tick. -/
theorem accountTick_totals (p : Nat) (s : State) : (accountTick p s).acc.shift.totals = s.acc.shift.totals
    ∧ (accountTick p s).acc.shift.state = s.acc.shift.state := by
  cases hopen : shiftIsOpen s with
  | false => simp [accountTick_of_closed hopen]
  | true => by_cases h0 : occupied s = 0 <;> simp [accountTick, hopen, h0]

theorem beforeWatches_acc (s : State) :
    (beforeWatches s).acc = (accountTick (min 255 s.odo.pulseCount) s).acc := by
  refine accountTick_acc _ (by simp [ticked]) ?_
  rw [occupied_fareTick]
  exact occupied_congr (by simp [ticked])

/-- JNL is asked after a tick as it would be with the tick's counts alone. -/
theorem beforeWatches_askedAlike (s : State) :
    AskedAlike (beforeWatches s) (accountTick (min 255 s.odo.pulseCount) s) := by
  have hoccupied : occupied (beforeWatches s) = occupied s := by
    have hfare : occupied (fareTick (min 255 s.odo.pulseCount) (ticked s)) = occupied s := by
      rw [occupied_fareTick]
      exact occupied_congr (by simp [ticked])
    rw [← hfare]
    exact occupied_congr (by simp [beforeWatches])
  refine ⟨by simp [beforeWatches, ticked], by simp [beforeWatches, ticked], by simp [beforeWatches, ticked],
    beforeWatches_acc s, hoccupied.trans (occupied_congr ?_).symm⟩
  simp

/-- A watch that is not at its 599th count, or has no one in its seat, does not come to fire. -/
theorem not_firing_of {s : State} {w : Watch} (h : w.fired = true ∨ w.occupied = false ∨ w.count < 599) :
    (!w.fired && (advanceWatch s w).fired) = false := by
  unfold advanceWatch Watch.tick
  (repeat' split) <;> grind

/-- Settles O19. -/
theorem watchFiresAtSixHundred : Obligations.WatchFiresAtSixHundred := by
  intro w e c s hact hc hwatch hw hnone hseat hcount hstation hpresent hcover hmoving
  set u := beforeWatches s with hu
  have htar : u.tar = s.tar := by simp [u, beforeWatches, ticked]
  have hodo : u.odo = (ticked s).odo := by simp [u, beforeWatches]
  have hwatches : u.cab.watches = s.cab.watches := by simp [u, beforeWatches, ticked]
  have henabled : watchEnabled u = true := by simp [watchEnabled, htar, hc, hwatch]
  have hmoves : u.odo.moving = true := by
    rw [hodo, ticked_odo, hc]
    simpa using hmoving
  have hfires : advanceWatch u w = { w with count := 600, fired := true } := by
    simp [advanceWatch, u, stationOf_beforeWatches, hstation, hpresent, covered_beforeWatches, hcover, Watch.tick,
      hseat, ← hu, hmoves, hnone w hw rfl, hcount]
  have hfired : { w with count := 600, fired := true } ∈ (tickBody s).cab.watches := by
    rw [tickBody_eq_watchTick, watchTick_watches henabled, hwatches, ← hfires]
    exact List.mem_map_of_mem hw
  have hfiring : w.addr ∈ firing u := by
    refine List.mem_map.2 ⟨w, List.mem_filter.2 ⟨by rwa [hwatches], ?_⟩, rfl⟩
    rw [hfires]
    simp [hnone w hw rfl]
  have hbefore : watchHasFired s w.addr = false := by
    simpa [watchHasFired] using hnone
  have hafter : watchHasFired (tickBody s) w.addr = true :=
    List.any_eq_true.2 ⟨_, hfired, by simp⟩
  have hbody : watchFiresBody w.addr s = tickBody s := by simp [watchFiresBody, hbefore, hafter]
  refine ⟨tickBody s, ?_, whenActive_of_active hact _, hfired, ?_, ?_, ?_⟩
  · rw [← hbody]
    exact whenActive_of_active hact _
  · rw [tickBody_eq_watchTick, watchTick_of_enabled henabled, foldl_watchFired_bit]
    cases hlist : firing u with
    | nil => simp [hlist] at hfiring
    | cons a as => simp
  · intro hopen hroom
    have htotals : u.acc.shift.totals = s.acc.shift.totals ∧ u.acc.shift.state = s.acc.shift.state := by
      rw [hu, beforeWatches_acc]
      exact accountTick_totals _ _
    have hcounted := foldl_watchFired_unmetered (firing u)
      (s := { u with cab.watches := u.cab.watches.map (advanceWatch u) })
      (by simpa [shiftIsOpen, htotals.2] using hopen) (by simp only [htotals.1]; omega)
    rw [tickBody_eq_watchTick, watchTick_of_enabled henabled, hcounted]
    simp only [htotals.1]
    have := List.length_pos_of_mem hfiring
    omega
  · intro halone hothers
    have hlist : firing u = [w.addr] := by
      have hsame : u.cab.watches.filter (fun x => !x.fired && (advanceWatch u x).fired) = [w] := by
        rw [hwatches, ← halone]
        refine List.filter_congr fun x hx => ?_
        by_cases haddr : x.addr = w.addr
        · have : x ∈ [w] := by rw [← halone]; exact List.mem_filter.2 ⟨hx, by simpa using haddr⟩
          cases List.mem_singleton.1 this
          rw [hfires]
          simp [hnone w hw rfl]
        · rw [not_firing_of (hothers x hx haddr)]
          simp [haddr]
      simp [firing, hsame]
    have hclock : u.odo.clock = s.odo.clock := by rw [hodo, ticked_odo]
    rw [tickBody_eq_watchTick, watchTick_of_enabled henabled, hlist, List.foldl_cons, List.foldl_nil, watchFired_eq]
    obtain ⟨hj, ha, hp, hacc, ho⟩ := beforeWatches_askedAlike s
    have halike : AskedAlike (raise .unmetered { u with cab.watches := u.cab.watches.map (advanceWatch u) })
        (accountTick (min 255 s.odo.pulseCount) s) := ⟨hj, ha, hp, hacc, ho⟩
    rw [← hclock]
    exact eventAsked_of_alike (halike.counting countUnmetered) rfl rfl

end Sys2Proof.Machine
end

section
/-!
SETTLED OBLIGATIONS. The sign record and the sign table (05 R83, R84): a state that a step takes out of it.
-/

namespace Sys2Proof.Machine

/-! ### A decline that reopens a CLOSING leg -/

/-- A leg without money. -/
def bareLeg (number : Nat) (phase : LegPhase) : Leg :=
  { phase, number, panel := none, share := .shared, openTime := DateTime.epoch, booking := none
    openBand := 0, regBand := 0, kind := .metered, reg := 0, steps := 0, farePart := 0, extraCounts := []
    extrasTotal := 0, ceiling := false, voided := false, interrupted := false, hiredPulses := 0, hiredTicks := 0
    sharedTicks := 0, tip := none, tenders := [], attempts := [], claim := none }

/-- A CLOSING leg with an attempt in flight, which the console at 5 started. -/
def attemptedLeg (number : Nat) : Leg :=
  { bareLeg number .closing with attempts := [⟨1, 5, 100, .inFlight 0⟩], claim := some ⟨5, .console, none⟩ }

/-- A PAY_RESULT of the console 5 that declines attempt 1 of leg 2. -/
def declineOfTwo : QFrame := ⟨5, 0x32, [2, 0, 1, 2, 0, 0, 0, 0, 0, 0, 0, 0, 0, 0], false⟩

/-- A tariff of a party of 3, with sharing. -/
def partyOfThree : TariffSet :=
  { general := ⟨5000, .both, 3, true, true, 0⟩
    bands := Four.all none
    switches := []
    extras := []
    zones := [] }

/-- Two SHARED legs of a party of 3, of which leg 2 is CLOSING with an attempt in flight, and the sign shows the one
that is occupied. The PAY_RESULT that declines the attempt waits. -/
def decliningClosed : State := { State.reset with
  pending := [.payResult]
  lif := { State.reset.lif with queue := [declineOfTwo], stations := [⟨5, .console, none, true, 0⟩] }
  tar := { State.reset.tar with committed := some partyOfThree }
  fare := ⟨⟨some (bareLeg 1 .opened), some (attemptedLeg 2), none, none⟩, 2⟩
  cab := { State.reset.cab with
    duty := .hired
    share := some .shared
    sign := { SignRecord.cold with pattern := .share2 } } }

/-- Refutes O46: its clause on every step fails. A PAY_RESULT that declines an attempt in flight returns the leg to
HELD whatever state the leg was in. Of a CLOSING leg that makes one more occupied, and the sign is not told. -/
theorem not_signIsResentAndConfirmed : ¬ Obligations.SignIsResentAndConfirmed := by
  intro ⟨_, _, hstep, _⟩
  have hforce : SignInForce decliningClosed := fun _ => ⟨rfl, rfl⟩
  obtain ⟨t, ht, hpattern, hcommanded, hact⟩ : ∃ t, step decliningClosed = .next t ∧ t.cab.sign.pattern = .share2
      ∧ commandedPattern t = .share1 ∧ t.pwr.state = .active :=
    ⟨_, rfl, rfl, rfl, rfl⟩
  have hnow := (hstep decliningClosed t hforce ht hact).1
  rw [hpattern, hcommanded] at hnow
  cases hnow

end Sys2Proof.Machine
end

section
/-!
SUPPORT. The journal's read-out (09 R174 to R177): what coming to a row places in class 7 and keeps in the cursor.
-/

namespace Sys2Proof.Machine

/-- The two states have the same rows to read, and the same directory. -/
abbrev RowsAlike (u s : State) : Prop :=
  u.array = s.array ∧ u.jnl.directory = s.jnl.directory ∧ u.jnl.writePos = s.jnl.writePos

theorem RowsAlike.dirEntry {u s : State} (h : RowsAlike u s) (n : Nat) : dirEntry u n = dirEntry s n := by
  obtain ⟨-, hd, -⟩ := h
  simp [Machine.dirEntry, hd]

theorem RowsAlike.shiftRows {u s : State} (h : RowsAlike u s) (d : DirEntry) : shiftRows u d = shiftRows s d := by
  obtain ⟨ha, -, hw⟩ := h
  have hring : ringList u = ringList s := by
    unfold ringList
    rw [ha, hw]
  unfold Machine.shiftRows
  rw [hring]

/-- What is kept of a row that is read: its content, and whether it is DAMAGED. -/
def keptRow (s : State) (r : Nat) : List Byte × Bool :=
  (contentBytes (rowAt s.array r), decide (classify (rowAt s.array r) = .damaged))

theorem raiseRead_flt {u s : State} (h : u.flt = s.flt) (x : RowClass) : (raiseRead x u).flt = (raiseRead x s).flt := by
  unfold raiseRead
  cases x <;> simp [raise, h]

/-- The read of a row that the walk has. -/
theorem makeRead_of_row {s : State} {c : Cursor} {d : DirEntry} {r : Nat} (hc : s.jnl.cursor = some c)
    (hd : dirEntry s c.shift = some d) (hr : (shiftRows s d)[c.index]? = some r) :
    (makeRead s).jnl.cursor = some { c with row := some (keptRow s r), readWaits := false }
      ∧ (makeRead s).nsc.journal = some (frameOfRow c (keptRow s r))
      ∧ (makeRead s).flt = (raiseRead (classify (rowAt s.array r)) s).flt := by
  unfold makeRead
  rw [hc]
  dsimp only
  rw [hd, Option.bind_some, hr]
  refine ⟨?_, ?_, ?_⟩
  · simp [placeReadFrame, keptRow]
  · simp [placeReadFrame, keptRow, frameOfRow]
  · simp only [placeReadFrame, renew_frame]
    generalize classify (rowAt s.array r) = x
    cases x <;> rfl

/-- JNL comes to a row that the walk has, with the array free: it is read. -/
theorem placeRow_of_row {s : State} {c : Cursor} {d : DirEntry} {r : Nat} (hc : s.jnl.cursor = some c)
    (hd : dirEntry s c.shift = some d) (hr : (shiftRows s d)[c.index]? = some r) (hfree : s.jnl.inFlight = none) :
    (placeRow s).jnl.cursor = some { c with row := some (keptRow s r), readWaits := false }
      ∧ (placeRow s).nsc.journal = some (frameOfRow c (keptRow s r))
      ∧ (placeRow s).flt = (raiseRead (classify (rowAt s.array r)) s).flt := by
  have hlt : c.index < (shiftRows s d).length := (List.getElem?_eq_some_iff.1 hr).1
  unfold placeRow
  rw [hc]
  dsimp only
  rw [hd]
  set u : State := withdrawReadFrame { s with jnl.cursor := some { c with row := none, readWaits := true } } with hu
  have halike : RowsAlike u s := ⟨by simp [u, withdrawReadFrame], by simp [u, withdrawReadFrame],
    by simp [u, withdrawReadFrame]⟩
  rw [if_pos (by simpa using hlt), if_pos (by simp [u, withdrawReadFrame, hfree])]
  obtain ⟨hcursor, hframe, hflt⟩ := makeRead_of_row (s := u) (c := { c with row := none, readWaits := true }) (d := d)
    (r := r) (by simp [u, withdrawReadFrame]) (by rw [halike.dirEntry]; exact hd) (by rw [halike.shiftRows]; exact hr)
  have hkept : keptRow u r = keptRow s r := by simp [keptRow, halike.1]
  rw [hkept] at hcursor hframe
  refine ⟨hcursor, hframe, hflt.trans ?_⟩
  rw [halike.1]
  exact raiseRead_flt (by simp [u, withdrawReadFrame]) _

/-- JNL comes to a row that the walk has while the array works: the read waits. -/
theorem placeRow_of_busy {s : State} {c : Cursor} {d : DirEntry} (hc : s.jnl.cursor = some c)
    (hd : dirEntry s c.shift = some d) (hlt : c.index < (shiftRows s d).length) (hbusy : s.jnl.inFlight ≠ none) :
    (placeRow s).jnl.cursor = some { c with row := none, readWaits := true }
      ∧ (placeRow s).nsc.journal = none ∧ (placeRow s).flt = s.flt := by
  unfold placeRow
  rw [hc]
  dsimp only
  rw [hd, if_pos (by simpa using hlt), if_neg (by simpa [withdrawReadFrame] using hbusy)]
  simp [withdrawReadFrame]

/-- JNL comes to the end of the walk: JOURNAL_END is placed. -/
theorem placeRow_of_end {s : State} {c : Cursor} {d : DirEntry} (hc : s.jnl.cursor = some c)
    (hd : dirEntry s c.shift = some d) (hend : ¬ c.index < (shiftRows s d).length) :
    (placeRow s).jnl.cursor = some { c with row := none, readWaits := false }
      ∧ (placeRow s).nsc.journal = some (.fin c.shift c.sent (decide (d.state = .opened)))
      ∧ (placeRow s).flt = s.flt := by
  unfold placeRow
  rw [hc]
  dsimp only
  rw [hd, if_neg (by simpa using hend)]
  simp [placeEnd, placeReadFrame, hd]

/-! ### The reads and the reply they follow -/

/-- A read raises the faults of its row and no other. -/
theorem placeRow_bit {i : Nat} (hcorrected : i ≠ FaultName.journalCorrected.index)
    (hdamaged : i ≠ FaultName.journalDamaged.index) (s : State) :
    (placeRow s).flt.latched.getLsbD i = s.flt.latched.getLsbD i := by
  have hread : ∀ x (u : State), (raiseRead x u).flt.latched.getLsbD i = u.flt.latched.getLsbD i := fun x u => by
    unfold raiseRead
    cases x with
    | corrected => rw [raise_bit]; simp [hcorrected]
    | damaged => rw [raise_bit]; simp [hdamaged]
    | _ => rfl
  have hmake : ∀ u : State, (makeRead u).flt.latched.getLsbD i = u.flt.latched.getLsbD i := fun u => by
    unfold makeRead
    split
    · rfl
    · split
      · simp [placeEnd, placeReadFrame]
      · simpa [placeReadFrame] using hread _ { u with jnl.cursor := _ }
  unfold placeRow
  split
  · rfl
  · dsimp only
    split
    · split
      · rw [hmake]; simp [withdrawReadFrame]
      · simp [withdrawReadFrame]
    · simp [placeEnd, placeReadFrame]

/-- What follows an answer leaves it, where it touches neither class 1 nor TX_OVERRUN. -/
theorem Replied.trans {r : Reply} {s u t : State} (h : Replied r s u) (hreplies : t.nsc.replies = u.nsc.replies)
    (hbit : t.flt.latched.getLsbD 2 = u.flt.latched.getLsbD 2) : Replied r s t := by
  unfold Replied at *
  rw [hreplies, hbit]
  exact h

end Sys2Proof.Machine
end

section
/-!
SETTLED OBLIGATIONS. Printer credit, and the journal's read-out, credit and release (08 R159, 09 R171 to R179).
-/

namespace Sys2Proof.Machine

theorem inRange_iff (lo hi v : Nat) : inRange lo hi v = true ↔ lo ≤ v ∧ v ≤ hi := by simp [inRange]

/-! ### JOURNAL_READ (09 R174) -/

/-- The cursor of a read from a start. -/
def cursorAt (d : DirEntry) (station start : Nat) : Cursor :=
  ⟨d.shift, station, start, 0, 0, decide (start = 0), none, false⟩

/-- The starting row that a JOURNAL_READ gives, or 0. -/
def startOf (q : QFrame) : Nat := if q.payload.length = 4 then q.at 2 2 else 0

theorem startRow_getD (q : QFrame) : q.startRow.getD 0 = startOf q := by
  unfold QFrame.startRow startOf
  split <;> rfl

/-- What a JOURNAL_READ is answered with. -/
def readValues (q : QFrame) (s : State) (d : DirEntry) : List Byte :=
  le 2 d.shift ++ le 2 (rowCount s d) ++ le 2 (startOf q) ++ [flagByte (decide (d.state = .opened))]

/-- The cursor stands at the start of the read, and its answer has joined class 1. -/
def readBegun (q : QFrame) (d : DirEntry) (s : State) : State :=
  accept q (readValues q s d) (withdrawReadFrame { s with
    jnl.cursor := some (cursorAt d q.src (startOf q)), jnl.credit := 0 })

/-- A JOURNAL_READ of a listed shift by its checks in order. -/
theorem journalReadBody_of_entry {q : QFrame} {e : Station} {s : State} {d : DirEntry}
    (hd : dirEntry s (q.at 0 2) = some d) : journalReadBody q e s
    = if d.state = .released then refuse q .state s
      else if 2015 < startOf q ∨ rowCount s d < startOf q then refuse q .range s
      else placeRow (readBegun q d s) := by
  have hrange : q.startRow.any (fun i => decide (2015 < i) || decide (rowCount s d < i)) = true
      ↔ 2015 < startOf q ∨ rowCount s d < startOf q := by
    unfold QFrame.startRow startOf
    split <;> simp
  unfold journalReadBody readRefusal
  rw [hd]
  dsimp only
  by_cases hreleased : d.state = .released
  · rw [if_pos hreleased, if_pos hreleased]
  · rw [if_neg hreleased, if_neg hreleased]
    by_cases hout : 2015 < startOf q ∨ rowCount s d < startOf q
    · rw [if_pos (hrange.2 hout), if_pos hout]
    · rw [if_neg (fun h => hout (hrange.1 h)), if_neg hout, startRow_getD]
      rfl

/-! ### Erase-ahead and the directory (09 R171, R173, R179) -/

/-- The erase that erase-ahead asks for. -/
def aheadErase (s : State) : Option ArrayOp :=
  if erasedRowsAhead s < 32 ∧ reclaimable s (aheadSector s) = true ∧ opPending isJournalErase s = false
    ∧ opPending (programsInto (aheadSector s)) s = false then some (.journalErase (aheadSector s)) else none

/-- Erase-ahead flags the next sector and asks for its erase, which starts where the array is free. -/
theorem eraseAhead_jnl {s : State} (hact : s.pwr.state = .active) : (eraseAhead s).jnl = { s.jnl with
    sectors := if (aheadErase s).isSome then
        s.jnl.sectors.set (aheadSector s - 2) { sectorEntry s (aheadSector s) with eraseFlag := true }
      else s.jnl.sectors
    inFlight := if s.jnl.inFlight = none ∧ s.jnl.waiting = [] then aheadErase s else s.jnl.inFlight
    waiting := if s.jnl.inFlight = none ∧ s.jnl.waiting = [] then []
      else s.jnl.waiting ++ (aheadErase s).toList } := by
  have hpending : ∀ test, (¬ opPending test s = true) = (opPending test s = false) := by simp
  unfold eraseAhead aheadErase
  dsimp only
  simp only [hpending]
  by_cases hask : erasedRowsAhead s < 32 ∧ reclaimable s (aheadSector s) = true ∧ opPending isJournalErase s = false
    ∧ opPending (programsInto (aheadSector s)) s = false
  · rw [if_pos hask]
    by_cases hstart : s.jnl.inFlight = none ∧ s.jnl.waiting = []
    · simp [requestOp, setSector, hact, hstart, hask, startOp]
    · simp [requestOp, setSector, hact, hstart, hask]
  · rw [if_neg hask]
    by_cases hstart : s.jnl.inFlight = none ∧ s.jnl.waiting = []
    · apply Jnl.ext <;> simp [hask, hstart]
    · simp [hask, hstart]

/-- Whether a range meets an IN_USE sector does not depend on erase flags. -/
theorem any_inUse_set (sectors : List SectorEntry) (i : Nat) (used : Option (Nat × Nat) → Bool) :
    (sectors.set i { sectors.getD i SectorEntry.free with eraseFlag := true }).any (fun e => !e.erased && used e.range)
      = sectors.any (fun e => !e.erased && used e.range) := by
  induction sectors generalizing i with
  | nil => rfl
  | cons e es ih =>
    cases i with
    | zero => rfl
    | succ i =>
      rw [List.set_cons_succ, List.any_cons, List.any_cons]
      exact congrArg _ (ih i)

theorem freeEntries_directory (s : State) : (freeEntries s).jnl.directory
    = s.jnl.directory.filter (fun d =>
        decide (d.state ≠ .released) || s.jnl.sectors.any (fun e => !e.erased && e.range.any (meets d))) := by
  unfold freeEntries
  simp [List.any_filter]

/-- The release of a shift's entry. -/
def releaseEntry (shift : Nat) (s : State) : State := { s with jnl.directory := s.jnl.directory.map (fun x =>
  if x.shift = shift then { x with state := .released } else x) }

theorem journalReleaseBody_of_entry {q : QFrame} {e : Station} {s : State} {d : DirEntry}
    (hd : dirEntry s (q.at 0 2) = some d) : journalReleaseBody q e s
    = if d.state ≠ .read then refuse q .state s
      else if s.jnl.cursor.any (fun c => decide (c.shift = d.shift)) = true then refuse q .busy s
      else freeEntries (eraseAhead (accept q (le 2 d.shift) (releaseEntry d.shift s))) := by
  unfold journalReleaseBody
  rw [hd]
  rfl

/-! ### The obligation -/

/-- A JOURNAL_READ that passes its checks: its answer, the cursor at the start, and the first frame. -/
theorem journalRead_accepted {q : QFrame} {rest : List QFrame} {s : State} {d : DirEntry}
    (hd : dirEntry s (q.at 0 2) = some d) :
    let t := letGo (placeRow (readBegun q d { s with lif.queue := rest }))
    LineKept rest s t
      ∧ (Answered q (.accepted (readValues q s d)) s t ∧ t.jnl.credit = 0
        ∧ (∃ c, t.jnl.cursor = some c ∧ c.shift = d.shift ∧ c.station = q.src ∧ c.index = startOf q ∧ c.quarter = 0
          ∧ c.sent = 0 ∧ c.fromZero = decide (startOf q = 0)
          ∧ (startOf q < rowCount s d → s.jnl.inFlight = none → ∃ r, (shiftRows s d)[startOf q]? = some r
              ∧ c.row = some (contentBytes (rowAt s.array r), decide (classify (rowAt s.array r) = .damaged))
              ∧ t.nsc.journal = some (frameOfRow c (contentBytes (rowAt s.array r),
                  decide (classify (rowAt s.array r) = .damaged))))
          ∧ (startOf q < rowCount s d → s.jnl.inFlight ≠ none → c.readWaits = true ∧ t.nsc.journal = none)
          ∧ (startOf q = rowCount s d → t.nsc.journal = some (.fin d.shift 0 (decide (d.state = .opened))))))
      ∧ t = { s with lif := t.lif, flt := t.flt
                     nsc := { s.nsc with replies := t.nsc.replies, journal := t.nsc.journal }
                     jnl := { s.jnl with cursor := t.jnl.cursor, credit := t.jnl.credit } } := by
  obtain ⟨u, hu⟩ : ∃ u, u = readBegun q d { s with lif.queue := rest } := ⟨_, rfl⟩
  rw [← hu]
  have hcursor : u.jnl.cursor = some (cursorAt d q.src (startOf q)) := by simp [hu, readBegun, withdrawReadFrame]
  have halike : RowsAlike u s := ⟨by simp [hu, readBegun, withdrawReadFrame], by simp [hu, readBegun, withdrawReadFrame],
    by simp [hu, readBegun, withdrawReadFrame]⟩
  have hshift : d.shift = q.at 0 2 := by simpa using List.find?_some hd
  have hentry : dirEntry u d.shift = some d := by rw [halike.dirEntry, hshift]; exact hd
  have hflight : u.jnl.inFlight = s.jnl.inFlight := by simp [hu, readBegun, withdrawReadFrame]
  have hrows : rowCount s d = (shiftRows u d).length := by rw [halike.shiftRows]; rfl
  have hans : Answered q (.accepted (readValues q s d)) s (letGo u) := by
    rw [hu]
    exact answered_accept (by simp [withdrawReadFrame])
  have hbit := placeRow_bit (i := 2) (by decide) (by decide) u
  refine ⟨lineKept_letGo (lif_eq_of_kept (s := { s with lif.queue := rest }) (by simp [hu, readBegun, withdrawReadFrame])
    (by simp [hu, readBegun, withdrawReadFrame]) (by simp [hu, readBegun, withdrawReadFrame])),
    ⟨hans.trans (by simp) (by simpa using hbit), by simp [hu, readBegun, withdrawReadFrame], ?_⟩, ?_⟩
  · simp only [letGo_frame]
    rcases lt_or_ge (startOf q) (rowCount s d) with hlt | hge
    · by_cases hfree : s.jnl.inFlight = none
      · obtain ⟨r, hr⟩ : ∃ r, (shiftRows s d)[startOf q]? = some r := ⟨_, List.getElem?_eq_getElem hlt⟩
        obtain ⟨hc, hf, -⟩ := placeRow_of_row hcursor hentry (r := r) (by rw [halike.shiftRows]; exact hr)
          (hflight.trans hfree)
        have hkept : keptRow u r = keptRow s r := by simp [keptRow, halike.1]
        rw [hkept] at hc hf
        exact ⟨_, hc, rfl, rfl, rfl, rfl, rfl, rfl, fun _ _ => ⟨r, hr, rfl, hf⟩, fun _ hbusy => absurd hfree hbusy,
          fun heq => absurd heq (Nat.ne_of_lt hlt)⟩
      · obtain ⟨hc, hf, -⟩ := placeRow_of_busy hcursor hentry (by rw [← hrows]; exact hlt) (by rw [hflight]; exact hfree)
        exact ⟨_, hc, rfl, rfl, rfl, rfl, rfl, rfl, fun _ hnone => absurd hnone hfree, fun _ _ => ⟨rfl, hf⟩,
          fun heq => absurd heq (Nat.ne_of_lt hlt)⟩
    · obtain ⟨hc, hf, -⟩ := placeRow_of_end hcursor hentry (by rw [← hrows]; exact Nat.not_lt.2 hge)
      exact ⟨_, hc, rfl, rfl, rfl, rfl, rfl, rfl, fun hlt => absurd hlt (Nat.not_lt.2 hge),
        fun hlt => absurd hlt (Nat.not_lt.2 hge), fun _ => hf⟩
  · apply State.ext <;> simp [hu, readBegun, withdrawReadFrame]
    · apply Nsc.ext <;> simp
    · apply Jnl.ext <;> simp

/-- A JOURNAL_RELEASE that passes its checks: its answer, the RELEASED entries that stay, and the erase it starts. -/
theorem journalRelease_accepted {q : QFrame} {rest : List QFrame} {s : State} {d : DirEntry}
    (hact : s.pwr.state = .active) :
    let u := releaseEntry d.shift s
    let t := letGo (freeEntries (eraseAhead (accept q (le 2 d.shift)
      (releaseEntry d.shift { s with lif.queue := rest }))))
    LineKept rest s t ∧ FaultsKept s t
      ∧ (Answered q (.accepted (le 2 d.shift)) s t
        ∧ (∀ x ∈ t.jnl.directory, x.shift = d.shift → x.state = .released)
        ∧ t.jnl.directory = u.jnl.directory.filter (fun x =>
            decide (x.state ≠ .released) || s.jnl.sectors.any (fun e => !e.erased && e.range.any (meets x)))
        ∧ t.jnl.sectors = (if (aheadErase u).isSome then
            s.jnl.sectors.set (aheadSector u - 2) { sectorEntry s (aheadSector u) with eraseFlag := true }
          else s.jnl.sectors)
        ∧ t.jnl.inFlight = (if decide (s.jnl.inFlight = none ∧ s.jnl.waiting = []) then aheadErase u
            else s.jnl.inFlight)
        ∧ t.jnl.waiting = (if decide (s.jnl.inFlight = none ∧ s.jnl.waiting = []) then []
            else s.jnl.waiting ++ (aheadErase u).toList))
      ∧ t = { s with lif := t.lif, flt := t.flt, nsc := { s.nsc with replies := t.nsc.replies }
                     jnl := { s.jnl with directory := t.jnl.directory, inFlight := t.jnl.inFlight
                                         waiting := t.jnl.waiting, sectors := t.jnl.sectors } } := by
  intro u
  obtain ⟨w, hw⟩ : ∃ w, w = accept q (le 2 d.shift) (releaseEntry d.shift { s with lif.queue := rest }) := ⟨_, rfl⟩
  rw [← hw]
  have hjnl : (eraseAhead w).jnl = (eraseAhead u).jnl :=
    eraseAhead_jnl_congr (by simp [hw, u, releaseEntry]) (by simp [hw, u, releaseEntry]) (by simp [hw, u, releaseEntry])
  have hahead := eraseAhead_jnl (s := u) hact
  have hsectors : (eraseAhead w).jnl.sectors = (if (aheadErase u).isSome then
      s.jnl.sectors.set (aheadSector u - 2) { sectorEntry s (aheadSector u) with eraseFlag := true }
    else s.jnl.sectors) := by rw [hjnl, hahead]; rfl
  have hflight : (eraseAhead w).jnl.inFlight = (if s.jnl.inFlight = none ∧ s.jnl.waiting = [] then aheadErase u
      else s.jnl.inFlight) := by rw [hjnl, hahead]; rfl
  have hwaiting : (eraseAhead w).jnl.waiting = (if s.jnl.inFlight = none ∧ s.jnl.waiting = [] then []
      else s.jnl.waiting ++ (aheadErase u).toList) := by rw [hjnl, hahead]; rfl
  have hused : ∀ x, (eraseAhead w).jnl.sectors.any (fun e => !e.erased && e.range.any (meets x))
      = s.jnl.sectors.any (fun e => !e.erased && e.range.any (meets x)) := fun x => by
    rw [hsectors]
    split
    · exact any_inUse_set s.jnl.sectors _ (fun r => r.any (meets x))
    · rfl
  have hdirectory : (freeEntries (eraseAhead w)).jnl.directory = u.jnl.directory.filter (fun x =>
      decide (x.state ≠ .released) || s.jnl.sectors.any (fun e => !e.erased && e.range.any (meets x))) := by
    rw [freeEntries_directory]
    simp only [hused]
    rw [hjnl, hahead]
  obtain ⟨-, hflt, hans⟩ := accepted_leaves (q := q) (v := le 2 d.shift) (rest := rest) (s := s)
    (u := releaseEntry d.shift { s with lif.queue := rest }) rfl rfl rfl
  rw [← hw] at hflt hans
  refine ⟨lineKept_letGo (by simp [hw, releaseEntry]), by simpa [FaultsKept] using hflt,
    ⟨hans.trans (by simp) (by simp), ?_, by simpa using hdirectory, by simpa [freeEntries] using hsectors, ?_, ?_⟩, ?_⟩
  · intro x hx hshift
    have hreleased : x ∈ u.jnl.directory := by
      have hkept : x ∈ (freeEntries (eraseAhead w)).jnl.directory := by simpa using hx
      rw [hdirectory] at hkept
      exact (List.mem_filter.1 hkept).1
    obtain ⟨y, -, rfl⟩ := List.mem_map.1 hreleased
    by_cases hy : y.shift = d.shift
    · simp [hy]
    · rw [if_neg hy] at hshift
      exact absurd hshift hy
  · simpa [freeEntries] using hflight
  · simpa [freeEntries] using hwaiting
  · apply State.ext <;> simp [hw, releaseEntry]
    · apply Nsc.ext <;> simp
    · apply Jnl.ext <;> simp [freeEntries]

/-- Settles O52. -/
theorem creditsReadAndReleaseAct : Obligations.CreditsReadAndReleaseAct := by
  refine ⟨fun q e rest s hasks => ⟨_, takes_asks printCreditBody hasks, ?_⟩,
    fun q e rest s hasks => ⟨_, takes_asks journalCreditBody hasks, ?_⟩,
    fun q e rest s hasks => ⟨_, takes_asks journalReadBody hasks, ?_⟩,
    fun q e rest s hasks => ⟨_, takes_asks journalReleaseBody hasks, ?_⟩⟩
  · have hbody : printCreditBody q e { s with lif.queue := rest } = { s with
        lif.queue := rest
        acc.credit := if 1 ≤ q.at 0 1 ∧ q.at 0 1 ≤ 16 then min 32 (s.acc.credit + q.at 0 1) else s.acc.credit } := by
      simp only [printCreditBody, inRange_iff, addCredit]
      split <;> rfl
    rw [hbody]
    refine ⟨lineKept_letGo rfl, by simp, by simp, ?_⟩
    apply State.ext <;> simp
  · have hbody : journalCreditBody q e { s with lif.queue := rest } = { s with
        lif.queue := rest
        jnl.credit := if 1 ≤ q.at 0 1 ∧ q.at 0 1 ≤ 16
            ∧ (s.jnl.cursor.any (fun c => decide (c.station = q.src))) = true then min 32 (s.jnl.credit + q.at 0 1)
          else s.jnl.credit } := by
      simp only [journalCreditBody, inRange_iff, addCredit, and_assoc]
      split <;> rfl
    rw [hbody]
    refine ⟨lineKept_letGo rfl, by simp, by simp, ?_⟩
    apply State.ext <;> simp
  · have hrefused : ∀ c, let t := letGo (refuse q c { s with lif.queue := rest })
        LineKept rest s t ∧ (Answered q (.refused c) s t ∧ t.jnl = s.jnl) ∧ t = { s with
          lif := t.lif, flt := t.flt, nsc := { s.nsc with replies := t.nsc.replies, journal := t.nsc.journal }
          jnl := { s.jnl with cursor := t.jnl.cursor, credit := t.jnl.credit } } := fun c => by
      obtain ⟨hans, hline, hflt, hrest⟩ := onlyRefused_letGo_refuse q c rest s
      exact ⟨hline, ⟨hans, by simp⟩, hrest.trans (by simp)⟩
    have hfind : s.jnl.directory.find? (fun d => d.shift = q.at 0 2) = dirEntry s (q.at 0 2) := rfl
    rw [hfind]
    cases hd : dirEntry s (q.at 0 2) with
    | none =>
      rw [show journalReadBody q e { s with lif.queue := rest } = refuse q .range { s with lif.queue := rest } by
        unfold journalReadBody
        rw [show dirEntry { s with lif.queue := rest } (q.at 0 2) = none from hd]]
      exact hrefused _
    | some d =>
      rw [journalReadBody_of_entry (s := { s with lif.queue := rest }) hd]
      by_cases hreleased : d.state = .released
      · simp only [if_pos hreleased]
        exact hrefused _
      · simp only [if_neg hreleased]
        have hstart : (if q.payload.length = 4 then q.at 2 2 else 0) = startOf q := rfl
        have hrows : (shiftRows s d).length = rowCount s d := rfl
        have hcount : rowCount { s with lif.queue := rest } d = rowCount s d := rfl
        simp only [hstart, hrows, hcount]
        by_cases hout : 2015 < startOf q ∨ rowCount s d < startOf q
        · simp only [if_pos hout]
          exact hrefused _
        · simp only [if_neg hout]
          exact journalRead_accepted hd
  · have hrefused : ∀ c, let t := letGo (refuse q c { s with lif.queue := rest })
        LineKept rest s t ∧ FaultsKept s t ∧ (Answered q (.refused c) s t ∧ t.jnl = s.jnl) ∧ t = { s with
          lif := t.lif, flt := t.flt, nsc := { s.nsc with replies := t.nsc.replies }
          jnl := { s.jnl with directory := t.jnl.directory, inFlight := t.jnl.inFlight
                              waiting := t.jnl.waiting, sectors := t.jnl.sectors } } := fun c => by
      obtain ⟨hans, hline, hflt, hrest⟩ := onlyRefused_letGo_refuse q c rest s
      exact ⟨hline, hflt, ⟨hans, by simp⟩, hrest.trans (by simp)⟩
    have hfind : s.jnl.directory.find? (fun d => d.shift = q.at 0 2) = dirEntry s (q.at 0 2) := rfl
    rw [hfind]
    cases hd : dirEntry s (q.at 0 2) with
    | none =>
      rw [show journalReleaseBody q e { s with lif.queue := rest } = refuse q .range { s with lif.queue := rest } by
        unfold journalReleaseBody
        rw [show dirEntry { s with lif.queue := rest } (q.at 0 2) = none from hd]]
      exact hrefused _
    | some d =>
      rw [journalReleaseBody_of_entry (s := { s with lif.queue := rest }) hd]
      by_cases hread : d.state ≠ .read
      · simp only [if_pos hread]
        exact hrefused _
      · simp only [if_neg hread]
        by_cases hbusy : (s.jnl.cursor.any (fun c => decide (c.shift = d.shift))) = true
        · simp only [if_pos hbusy]
          exact hrefused _
        · simp only [if_neg hbusy]
          exact journalRelease_accepted hasks.1

end Sys2Proof.Machine
end

section
/-!
SETTLED OBLIGATIONS. The requests that act on a named leg without closing it: HOLD, RESUME, PAY_CLAIM, PAY_START (04 R57, R58,
06 R99, R100, R103, R104).
-/

namespace Sys2Proof.Machine

/-! ### A request that names a leg -/

theorem withLeg_named {q : QFrame} {i : Fin 4} {l : Leg} {s : State} (h : LegNamed q i l s) (rest : List QFrame)
    (act : Fin 4 → Leg → State → State) :
    withLeg q act { s with lif.queue := rest } = act i l { s with lif.queue := rest } := by
  obtain ⟨hfind, hleg⟩ := h
  have hfind' : findLeg { s with lif.queue := rest } q.leg = some i := hfind
  have hleg' : legAt { s with lif.queue := rest } i = some l := hleg
  simp only [withLeg, hfind', hleg']

theorem askPrompt_prompts {k : PromptKind} (h : k ≠ .ring) (spk : Fin 4) (s : State) :
    (askPrompt k spk s).icm.prompts = prompted s.icm.prompts k spk := by
  unfold askPrompt prompted
  by_cases hfull : 8 ≤ s.icm.prompts.length
  · rw [if_pos hfull, if_neg (by omega)]
  · rw [if_neg hfull, if_neg (by simp [h]), if_pos (by omega)]

theorem promptSpeaker_rest (s : State) (rest : List QFrame) (l : Leg) :
    promptSpeaker { s with lif.queue := rest } l = promptSpeaker s l := rfl

theorem legAt_setLeg_same (i : Fin 4) (l : Leg) (s : State) : legAt (setLeg i l s) i = some l := by simp

theorem setLeg_fare (i : Fin 4) (l : Leg) (s : State) :
    (setLeg i l s).fare = { s.fare with slots := s.fare.slots.set i (some l) } := rfl

/-! ### HOLD and RESUME (04 R57, R58) -/

/-- What an accepted HOLD makes of the part. -/
def held (i : Fin 4) (l : Leg) (s : State) : State :=
  showLeg i (askPrompt .fare (promptSpeaker s l) (offerLeg i (setLeg i { l with phase := .held } s)))

theorem held_offers (i : Fin 4) (l : Leg) (s : State) :
    (held i l s).nsc.offers = s.nsc.offers.set i (some (offerOf { l with phase := .held })) := by
  have := offerLeg_offers (legAt_setLeg_same i { l with phase := .held } s)
  simpa [held] using this

theorem held_fares (i : Fin 4) (l : Leg) (s : State) :
    (held i l s).nsc.fares = s.nsc.fares.set i (some (showOf { l with phase := .held })) := by
  have hleg : legAt (askPrompt .fare (promptSpeaker s l) (offerLeg i (setLeg i { l with phase := .held } s))) i
      = some { l with phase := .held } := by
    rw [← legAt_setLeg_same i { l with phase := .held } s]
    exact legAt_congr (by simp) i
  have := showLeg_fares hleg
  simpa [held] using this

theorem held_prompts (i : Fin 4) (l : Leg) (s : State) :
    (held i l s).icm.prompts = prompted s.icm.prompts .fare (promptSpeaker s l) := by
  have := askPrompt_prompts (k := .fare) (by decide) (promptSpeaker s l) (offerLeg i (setLeg i { l with phase := .held } s))
  simpa [held] using this

/-- The leg that a RESUME opens again. -/
def reopened (s : State) (l : Leg) : Leg :=
  let v := s.odo.vehicleBand
  { l with
    phase := .opened
    regBand := if l.kind = .metered then v else l.regBand
    reg := if l.kind = .metered ∧ l.regBand ≠ v then
        l.reg * (bandRates s v).S (tariffK s) / (bandRates s l.regBand).S (tariffK s) else l.reg }

/-- What an accepted RESUME makes of the part. -/
def runsAgain (i : Fin 4) (l : Leg) (s : State) : State := showLeg i (withdrawOffer i (setLeg i (reopened s l) s))

theorem runsAgain_fares (i : Fin 4) (l : Leg) (s : State) :
    (runsAgain i l s).nsc.fares = s.nsc.fares.set i (some (showOf (reopened s l))) := by
  have hleg : legAt (withdrawOffer i (setLeg i (reopened s l) s)) i = some (reopened s l) := by
    rw [← legAt_setLeg_same i (reopened s l) s]
    exact legAt_congr (by simp) i
  have := showLeg_fares hleg
  simpa [runsAgain] using this

theorem reopened_eq (s : State) (l : Leg) :
    ({ (if l.isMetered ∧ l.regBand ≠ s.odo.vehicleBand then l.rescale s s.odo.vehicleBand else l) with
      phase := .opened } : Leg) = reopened s l := by
  by_cases hmetered : l.kind = .metered
  · by_cases hband : l.regBand = s.odo.vehicleBand
    · simp [reopened, Leg.isMetered, hmetered, hband]
    · simp [reopened, Leg.isMetered, hmetered, hband, Leg.rescale]
  · simp [reopened, Leg.isMetered, hmetered]

/-- A RESUME of a named leg by its checks. -/
theorem resumeBody_named {q : QFrame} {i : Fin 4} {l : Leg} {s : State} (h : LegNamed q i l s) (e : Station)
    (rest : List QFrame) : resumeBody q e { s with lif.queue := rest }
    = if l.phase ≠ .held ∨ l.tenders ≠ [] ∨ l.claim ≠ none then refuse q .state { s with lif.queue := rest }
      else accept q [] (runsAgain i l { s with lif.queue := rest }) := by
  rw [show resumeBody q e { s with lif.queue := rest } = _ from withLeg_named h rest _, runsAgain, ← reopened_eq]
  by_cases hphase : l.phase ≠ .held
  · rw [if_pos hphase, if_pos (.inl hphase)]
  · by_cases htenders : l.tenders = []
    · by_cases hclaim : l.claim = none
      · have hpass : ¬ (l.phase ≠ .held ∨ l.tenders ≠ [] ∨ l.claim ≠ none) := by
          simpa [htenders, hclaim] using hphase
        rw [if_neg hphase, if_neg (by simp [htenders]), if_neg (by simp [hclaim]), if_neg hpass]
      · rw [if_neg hphase, if_neg (by simp [htenders]), if_pos (by simpa [Option.isSome_iff_ne_none] using hclaim),
          if_pos (.inr (.inr hclaim))]
    · rw [if_neg hphase, if_pos (by simpa using htenders), if_pos (.inr (.inl htenders))]

/-- Settles O38. -/
theorem holdAndResumeMoveLeg : Obligations.HoldAndResumeMoveLeg := by
  refine ⟨fun q e rest i l s hasks hnamed => ⟨_, takes_asks holdBody hasks, ?_⟩,
    fun q e rest i l s hasks hnamed => ⟨_, takes_asks resumeBody hasks, ?_⟩⟩
  · have hbody : holdBody q e { s with lif.queue := rest }
        = if l.phase ≠ .opened then refuse q .state { s with lif.queue := rest }
          else accept q [] (held i l { s with lif.queue := rest }) := withLeg_named hnamed rest _
    rw [hbody]
    by_cases hphase : l.phase ≠ .opened
    · rw [if_pos hphase, if_pos hphase]
      obtain ⟨hans, hline, hflt, hrest⟩ := onlyRefused_letGo_refuse q .state rest s
      exact ⟨hline, hflt, ⟨hans, by simp, by simp, by simp, by simp⟩, hrest.trans (by simp)⟩
    · rw [if_neg hphase, if_neg hphase]
      obtain ⟨hline, hflt, hans⟩ := accepted_leaves (q := q) (v := []) (rest := rest) (s := s)
        (u := held i l { s with lif.queue := rest })
        (lif_eq_of_kept (s := { s with lif.queue := rest }) (by simp [held]) (by simp [held]) (by simp [held]))
        (by simp [held]) (by simp [held])
      refine ⟨hline, hflt, ⟨hans, ?_, by simp [held_offers], by simp [held_fares], by simp [held_prompts, promptSpeaker_rest]⟩, ?_⟩
      · simp [held, setLeg_fare]
      · apply State.ext <;> simp [held]
        · apply Nsc.ext <;> simp
        · apply Icm.ext <;> simp
  · rw [resumeBody_named hnamed]
    by_cases hrefused : l.phase ≠ .held ∨ l.tenders ≠ [] ∨ l.claim ≠ none
    · rw [if_pos hrefused, if_pos hrefused]
      obtain ⟨hans, hline, hflt, hrest⟩ := onlyRefused_letGo_refuse q .state rest s
      exact ⟨hline, hflt, ⟨hans, by simp, by simp, by simp⟩, hrest.trans (by simp)⟩
    · rw [if_neg hrefused, if_neg hrefused]
      obtain ⟨hline, hflt, hans⟩ := accepted_leaves (q := q) (v := []) (rest := rest) (s := s)
        (u := runsAgain i l { s with lif.queue := rest })
        (lif_eq_of_kept (s := { s with lif.queue := rest }) (by simp [runsAgain]) (by simp [runsAgain])
          (by simp [runsAgain])) (by simp [runsAgain]) (by simp [runsAgain])
      refine ⟨hline, hflt, ⟨hans, ?_, ?_, ?_⟩, ?_⟩
      · simp [runsAgain, setLeg_fare]
        rfl
      · simp [runsAgain, withdrawOffer]
      · simp [runsAgain_fares]
        rfl
      · apply State.ext <;> simp [runsAgain]
        apply Nsc.ext <;> simp

/-! ### Shows and offers of a leg just set -/

theorem showLeg_of_set {i : Fin 4} {l : Leg} {s u : State} (hu : u.fare = (setLeg i l s).fare) :
    (showLeg i u).nsc.fares = u.nsc.fares.set i (some (showOf l)) :=
  showLeg_fares ((legAt_congr hu i).trans (legAt_setLeg_same i l s))

theorem offerLeg_of_set {i : Fin 4} {l : Leg} {s u : State} (hu : u.fare = (setLeg i l s).fare) :
    (offerLeg i u).nsc.offers = u.nsc.offers.set i (some (offerOf l)) :=
  offerLeg_offers ((legAt_congr hu i).trans (legAt_setLeg_same i l s))

/-! ### PAY_CLAIM and its deadline (06 R99, R100) -/

/-- What an accepted PAY_CLAIM makes of the part: the claim is the sender's, and a fresh one is offered. -/
def claimed (i : Fin 4) (l : Leg) (a : Nat) (r : Role) (s : State) : State :=
  let u := setLeg i { l with claim := some ⟨a, r, some (s.time + 864000000)⟩ } s
  if l.claim = none then offerLeg i u else u

/-- A PAY_CLAIM of a named leg by its checks. -/
theorem payClaimBody_named {q : QFrame} {i : Fin 4} {l : Leg} {s : State} (h : LegNamed q i l s) (e : Station)
    (rest : List QFrame) : payClaimBody q e { s with lif.queue := rest }
    = if l.phase ≠ .held then refuse q .state { s with lif.queue := rest }
      else if ∃ c, l.claim = some c ∧ (c.holder ≠ q.src ∨ c.role ≠ e.role) then
        refuse q .claimed { s with lif.queue := rest }
      else accept q (le 2 l.number ++ le 4 60) (claimed i l q.src e.role { s with lif.queue := rest }) := by
  have hclaimed : (l.claim.isSome ∧ !l.heldBy q.src e.role)
      ↔ ∃ c, l.claim = some c ∧ (c.holder ≠ q.src ∨ c.role ≠ e.role) := by
    rw [Leg.not_heldBy]
    cases l.claim <;> simp
  rw [show payClaimBody q e { s with lif.queue := rest } = _ from withLeg_named h rest _]
  by_cases hphase : l.phase ≠ .held
  · rw [if_pos hphase, if_pos hphase]
  · rw [if_neg hphase, if_neg hphase]
    by_cases hother : ∃ c, l.claim = some c ∧ (c.holder ≠ q.src ∨ c.role ≠ e.role)
    · rw [if_pos (hclaimed.2 hother), if_pos hother]
    · rw [if_neg (fun h => hother (hclaimed.1 h)), if_neg hother]
      unfold claimed
      cases l.claim <;> rfl

theorem claimed_offers (i : Fin 4) (l : Leg) (a : Nat) (r : Role) (s : State) : (claimed i l a r s).nsc.offers
    = if l.claim = none then
        s.nsc.offers.set i (some (offerOf { l with claim := some ⟨a, r, some (s.time + 864000000)⟩ }))
      else s.nsc.offers := by
  unfold claimed
  dsimp only
  split
  · exact offerLeg_of_set rfl
  · rfl

/-- The end of a claim that stands: the leg has none, and the reference to its holder ends. -/
theorem endClaim_of_claim {i : Fin 4} {l : Leg} {c : Claim} {s : State} (hl : legAt s i = some l)
    (hc : l.claim = some c) : endClaim i s = endReference c.holder (setLeg i { l with claim := none } s) := by
  simp [endClaim, hl, hc]

theorem claimDeadlineBody_eq {i : Fin 4} {l : Leg} {h : Nat} {r : Role} {due : Moment} {s : State}
    (hl : legAt s i = some l) (hphase : l.phase = .held) (hclaim : l.claim = some ⟨h, r, some due⟩) :
    claimDeadlineBody i s
      = offerLeg i (endReference h (setLeg i { l with claim := none } (passTo due s))) := by
  have hdue : claimDue s i = some due := by simp [claimDue, hl, hphase, hclaim]
  unfold claimDeadlineBody
  rw [hdue]
  dsimp only
  rw [releaseClaim, endClaim_of_claim (s := passTo due s) hl hclaim]

/-- Settles O40. -/
theorem claimIsTakenAndRunsOut : Obligations.ClaimIsTakenAndRunsOut := by
  refine ⟨fun q e rest i l s hasks hnamed => ⟨_, takes_asks payClaimBody hasks, ?_⟩,
    fun i l h r due s hact hl hphase hclaim =>
      ⟨_, whenActive_of_active hact (fun u => letGo (claimDeadlineBody i u)), ?_⟩⟩
  · rw [payClaimBody_named hnamed]
    have hrefused : ∀ c, let t := letGo (refuse q c { s with lif.queue := rest })
        LineKept rest s t ∧ FaultsKept s t
          ∧ (Answered q (.refused c) s t ∧ t.fare = s.fare ∧ t.nsc.offers = s.nsc.offers)
          ∧ t = { s with lif := t.lif, fare := t.fare, flt := t.flt
                         nsc := { s.nsc with replies := t.nsc.replies, offers := t.nsc.offers } } := fun c => by
      obtain ⟨hans, hline, hflt, hrest⟩ := onlyRefused_letGo_refuse q c rest s
      exact ⟨hline, hflt, ⟨hans, by simp, by simp⟩, hrest.trans (by simp)⟩
    by_cases hphase : l.phase ≠ .held
    · rw [if_pos hphase, if_pos hphase]
      exact hrefused _
    rw [if_neg hphase, if_neg hphase]
    by_cases hother : ∃ c, l.claim = some c ∧ (c.holder ≠ q.src ∨ c.role ≠ e.role)
    · rw [if_pos hother, if_pos hother]
      exact hrefused _
    rw [if_neg hother, if_neg hother]
    obtain ⟨hline, hflt, hans⟩ := accepted_leaves (q := q) (v := le 2 l.number ++ le 4 60) (rest := rest) (s := s)
      (u := claimed i l q.src e.role { s with lif.queue := rest })
      (lif_eq_of_kept (s := { s with lif.queue := rest }) (by simp [claimed]) (by simp [claimed]) (by simp [claimed]))
      (by simp [claimed]) (by simp [claimed])
    refine ⟨hline, hflt, ⟨hans, ?_, by simp [claimed_offers]⟩, ?_⟩
    · simp [claimed, setLeg_fare]
    · apply State.ext <;> simp [claimed]
      apply Nsc.ext <;> simp
  · rw [claimDeadlineBody_eq hl hphase hclaim]
    obtain ⟨u, hu⟩ : ∃ u, u = setLeg i { l with claim := none } (passTo due s) := ⟨_, rfl⟩
    have hoffers := offerLeg_of_set (i := i) (l := { l with claim := none }) (s := passTo due s)
      (u := endReference h u) (by simp [hu])
    rw [← hu]
    refine ⟨by simp [hu, passTo], endReference_ended (u := u) (by simp [hu]) (by simp [hu]) (by simp [hu]) (by simp)
      (by simp) (by simp) (by simp), transmitterKept_letGo (.inr (tx_eq_of_kept (by simp [hu]))), ?_, ?_, ?_⟩
    · simp [hu, setLeg_fare]
    · simpa [hu] using hoffers
    · apply State.ext <;> simp [hu]
      · apply Lif.ext <;> simp
      · apply Nsc.ext <;> simp
      · apply Cab.ext <;> simp
      · apply Acc.ext <;> simp

end Sys2Proof.Machine
end

section
/-!
SETTLED OBLIGATIONS. PAY_START, PAY_CANCEL and the deadline of an attempt (06 R103, R104, R107 to R109).
-/

namespace Sys2Proof.Machine

/-! ### PAY_START (06 R103, R104) -/

/-- The due that a PAY_START sees, with its tip taken in. -/
def startDue (q : QFrame) (l : Leg) : Nat :=
  if l.tenders = [] ∧ q.at 3 4 ≠ 4294967295 then l.total + q.at 3 4 else l.due

theorem startTip_eq (q : QFrame) : q.startTip = if q.at 3 4 ≠ 4294967295 then some (q.at 3 4) else none := by
  unfold QFrame.startTip
  split <;> simp [*]

theorem dueWithTip_eq (q : QFrame) (l : Leg) : dueWithTip l q.startTip = startDue q l := by
  rw [startTip_eq]
  unfold dueWithTip startDue
  by_cases htip : q.at 3 4 = 4294967295 <;> simp [htip]

/-- The checks of a PAY_START in order. -/
def startCode (q : QFrame) (e : Station) (l : Leg) : Option RefusalCode :=
  if (l.claim.all (fun c => decide (c.holder ≠ q.src ∨ c.role ≠ e.role))) = true then some .notHolder
  else if l.phase ≠ .held then some .state
  else if q.at 2 1 ≠ l.attempts.length + 1 then some .range
  else if 8 ≤ l.attempts.length then some .limit
  else if q.at 3 4 ≠ 4294967295 ∧ 99999 < q.at 3 4 then some .range
  else if l.tenders ≠ [] ∧ q.at 3 4 ≠ 4294967295 ∧ q.at 3 4 ≠ l.tip.getD 0 then some .state
  else if q.at 7 4 = 0 ∨ startDue q l < q.at 7 4 then some .range
  else if 3 ≤ l.tenders.length ∧ q.at 7 4 ≠ startDue q l then some .limit
  else none

theorem startRefusal_eq (q : QFrame) (e : Station) (l : Leg) : startRefusal q e.role l = startCode q e l := by
  have hlimit : q.startTip.any (fun t => decide (99999 < t)) = true ↔ q.at 3 4 ≠ 4294967295 ∧ 99999 < q.at 3 4 := by
    rw [startTip_eq]
    by_cases htip : q.at 3 4 = 4294967295 <;> simp [htip]
  have hother : (!l.tenders.isEmpty ∧ q.startTip.any (fun t => decide (t ≠ l.tip.getD 0)))
      ↔ l.tenders ≠ [] ∧ q.at 3 4 ≠ 4294967295 ∧ q.at 3 4 ≠ l.tip.getD 0 := by
    rw [startTip_eq]
    by_cases htip : q.at 3 4 = 4294967295 <;> simp [htip]
  unfold startRefusal startCode
  simp only [Leg.not_heldBy, dueWithTip_eq, hlimit, hother]

/-- The leg whose attempt a PAY_START has put in flight. -/
def startedBy (q : QFrame) (now : Moment) (l : Leg) : Leg :=
  { l with
    phase := .paying
    tip := if l.tenders = [] ∧ q.at 3 4 ≠ 4294967295 then some (q.at 3 4) else l.tip
    attempts := l.attempts ++ [⟨q.at 2 1, q.src, q.at 7 4, .inFlight (now + 1296000000)⟩]
    claim := l.claim.map (fun c => { c with deadline := none }) }

theorem startedLeg_eq (q : QFrame) (now : Moment) (l : Leg) : startedLeg q now l = startedBy q now l := by
  unfold startedLeg startedBy
  rw [startTip_eq]
  by_cases htip : q.at 3 4 = 4294967295 <;> cases l.tenders <;> simp [htip] <;> rfl

/-- The tip of a PAY_START is in the due of the leg it leaves. -/
theorem startedBy_due (q : QFrame) (now : Moment) (l : Leg) : (startedBy q now l).due = startDue q l := by
  unfold startedBy startDue Leg.due Leg.total Leg.paid
  by_cases hfresh : l.tenders = [] ∧ q.at 3 4 ≠ 4294967295
  · simp [hfresh]
  · simp [hfresh]

/-- What an accepted PAY_START makes of the part. -/
def started (q : QFrame) (i : Fin 4) (l : Leg) (s : State) : State :=
  withdrawOffer i (showLeg i (setLeg i (startedBy q s.time l) s))

theorem started_fares (q : QFrame) (i : Fin 4) (l : Leg) (s : State) :
    (started q i l s).nsc.fares = s.nsc.fares.set i (some (showOf (startedBy q s.time l))) := by
  have := showLeg_of_set (i := i) (l := startedBy q s.time l) (s := s) rfl
  simpa [started] using this

/-- What an accepted PAY_START is answered with. -/
def startAnswer (q : QFrame) (now : Moment) (l : Leg) : List Byte :=
  le 2 l.number ++ le 1 (q.at 2 1) ++ le 4 (q.at 7 4) ++ le 4 ((startedBy q now l).tip.getD 0) ++ le 4 (startDue q l)

theorem payStartBody_named {q : QFrame} {i : Fin 4} {l : Leg} {s : State} (h : LegNamed q i l s) (e : Station)
    (rest : List QFrame) : payStartBody q e { s with lif.queue := rest }
    = match startCode q e l with
      | some c => refuse q c { s with lif.queue := rest }
      | none => accept q (startAnswer q s.time l) (started q i l { s with lif.queue := rest }) := by
  rw [show payStartBody q e { s with lif.queue := rest } = _ from withLeg_named h rest _, ← startRefusal_eq]
  cases startRefusal q e.role l with
  | some c => rfl
  | none =>
    dsimp only
    rw [startedLeg_eq]
    unfold startValues started startAnswer
    rw [startedBy_due]
    rfl

/-- Settles O41. -/
theorem payStartPutsAttemptInFlight : Obligations.PayStartPutsAttemptInFlight := by
  intro q e rest i l s hasks hnamed n tip amount none' due code
  refine ⟨_, takes_asks payStartBody hasks, ?_⟩
  have hcode : code = startCode q e l := rfl
  rw [payStartBody_named hnamed, ← hcode]
  cases code with
  | some c =>
    obtain ⟨hans, hline, hflt, hrest⟩ := onlyRefused_letGo_refuse q c rest s
    exact ⟨hline, hflt, ⟨hans, by simp, by simp, by simp⟩, hrest.trans (by simp)⟩
  | none =>
    obtain ⟨hline, hflt, hans⟩ := accepted_leaves (q := q) (v := startAnswer q s.time l) (rest := rest) (s := s)
      (u := started q i l { s with lif.queue := rest })
      (lif_eq_of_kept (s := { s with lif.queue := rest }) (by simp [started]) (by simp [started]) (by simp [started]))
      (by simp [started]) (by simp [started])
    refine ⟨hline, hflt, ⟨hans, ?_, by simp [started, withdrawOffer], by simp [started_fares]; rfl⟩, ?_⟩
    · simp [started, setLeg_fare]
      rfl
    · apply State.ext <;> simp [started]
      apply Nsc.ext <;> simp

/-! ### The end of a claim (06 R100, R101) -/

theorem endClaim_of_none {i : Fin 4} {l : Leg} {s : State} (hl : legAt s i = some l) (hc : l.claim = none) :
    endClaim i s = s := by
  simp [endClaim, hl, hc]

theorem Leg.claim_gone_of_none {l : Leg} (hc : l.claim = none) : ({ l with claim := none } : Leg) = l := by
  rw [← hc]

/-- The leg of an ended claim has none. -/
theorem endClaim_fare {i : Fin 4} {l : Leg} {s u : State} (hu : u.fare = (setLeg i l s).fare) :
    (endClaim i u).fare = (setLeg i { l with claim := none } s).fare := by
  have hl : legAt u i = some l := (legAt_congr hu i).trans (legAt_setLeg_same i l s)
  cases hc : l.claim with
  | none => rw [endClaim_of_none hl hc, Leg.claim_gone_of_none hc, hu]
  | some c =>
    rw [endClaim_of_claim hl hc]
    simp only [endReference_frame]
    rw [setLeg_fare, hu, setLeg_fare, setLeg_fare]
    simp

/-- The address whose reference ends with a leg's claim. -/
abbrev Leg.holder (l : Leg) : Option Nat := l.claim.map (fun c => c.holder)

section
variable {i : Fin 4} {l : Leg} {s u t : State} (hl : legAt u i = some l)
  (hst : u.lif.stations = s.lif.stations) (hst' : t.lif.stations = (endClaim i u).lif.stations)
include hl hst hst'

/-- What a request that ends a claim leaves of the line interface. -/
theorem lineLosing_endClaim {rest : List QFrame} (hw : u.cab.watches = s.cab.watches)
    (hc : u.acc.credit = s.acc.credit) (htime : t.time = u.time)
    (hw' : t.cab.watches = (endClaim i u).cab.watches) (hc' : t.acc.credit = (endClaim i u).acc.credit)
    (hlif : t.lif = { s.lif with queue := rest, tx := t.lif.tx, stations := t.lif.stations })
    (htx : TransmitterKept s t) : LineLosing rest l.holder s t := by
  refine ⟨hlif, htx, ?_⟩
  cases hclaim : l.claim with
  | none =>
    rw [endClaim_of_none hl hclaim] at hst' hw' hc'
    simp only [Leg.holder, hclaim, Option.map_none]
    exact ⟨hst'.trans hst, hw'.trans hw, hc'.trans hc⟩
  | some c =>
    rw [endClaim_of_claim hl hclaim] at hst' hw' hc'
    simp only [Leg.holder, hclaim, Option.map_some]
    exact endReference_ended (u := setLeg i { l with claim := none } u) hst hw hc htime hst' hw' hc'

theorem endClaim_jobs (hj : u.acc.jobs = s.acc.jobs) : (endClaim i u).acc.jobs = pausedJobs l.holder s t := by
  cases hclaim : l.claim with
  | none => simp [endClaim_of_none hl hclaim, Leg.holder, hclaim, hj, printerGone]
  | some c =>
    rw [endClaim_of_claim hl hclaim] at hst' ⊢
    simp only [Leg.holder, hclaim, Option.map_some]
    exact endReference_jobs (u := setLeg i { l with claim := none } u) hst hj hst'

theorem endClaim_print (hj : u.acc.jobs = s.acc.jobs) (hp : u.nsc.print = s.nsc.print) :
    (endClaim i u).nsc.print = pausedPrint l.holder s t := by
  cases hclaim : l.claim with
  | none => simp [endClaim_of_none hl hclaim, Leg.holder, hclaim, hp, printerGone]
  | some c =>
    rw [endClaim_of_claim hl hclaim] at hst' ⊢
    simp only [Leg.holder, hclaim, Option.map_some]
    exact endReference_print (u := setLeg i { l with claim := none } u) hst hj hp hst'

end

/-! ### Prompt ports and ended references (06 R97) -/

theorem stationOf_removeEntry {a b : Nat} {e : Station} {s : State} (he : stationOf s a = some e) (hb : b ≠ a) :
    stationOf (removeEntry a s) b = stationOf s b := by
  unfold stationOf
  rw [removeEntry_stations he, List.find?_filter]
  congr 1
  funext x
  by_cases hx : x.addr = b <;> simp [hx, hb]

/-- The entry that an ended reference removes is ABSENT, so a prompt port does not turn on it. -/
theorem promptSpeaker_endReference (a : Nat) (s : State) (l : Leg) :
    promptSpeaker (endReference a s) l = promptSpeaker s l := by
  rcases endReference_cases a s with h | ⟨e, he, hpresent, -, h⟩
  · rw [h]
  · rw [h]
    unfold promptSpeaker
    cases hpanel : l.panel with
    | none => rfl
    | some b =>
      simp only [Option.bind_some]
      by_cases hb : b = a
      · rw [hb, removeEntry_gone he, he]
        simp [hpresent]
      · rw [stationOf_removeEntry he hb]

theorem promptSpeaker_congr {u s : State} (h : u.lif.stations = s.lif.stations) (l : Leg) :
    promptSpeaker u l = promptSpeaker s l := by
  have hstation : stationOf u = stationOf s := by funext a; simp [stationOf, h]
  simp [promptSpeaker, hstation]

theorem promptSpeaker_endClaim (i : Fin 4) (s : State) (l : Leg) : promptSpeaker (endClaim i s) l = promptSpeaker s l := by
  cases hl : legAt s i with
  | none => simp [endClaim, hl]
  | some k =>
    cases hc : k.claim with
    | none => rw [endClaim_of_none hl hc]
    | some c =>
      rw [endClaim_of_claim hl hc, promptSpeaker_endReference]
      exact promptSpeaker_congr rfl l

/-! ### PAY_CANCEL (06 R107, R108) -/

/-- The leg whose attempt has ended without an approval, back in HELD. -/
def declinedLeg (now : Moment) (n : Nat) (outcome : AttemptState) (l : Leg) : Leg :=
  { l with
    phase := .held
    attempts := l.attempts.map (fun x => if x.number = n then { x with state := outcome } else x)
    claim := l.claim.map (fun c => { c with deadline := some (now + 864000000) }) }

theorem cardDecline_eq (i : Fin 4) (l : Leg) (a : Attempt) (o : AttemptState) (s : State) : cardDecline i l a o s
    = offerLeg i (showLeg i (setLeg i (declinedLeg s.time a.number o l)
        (askPrompt .declined (promptSpeaker s l) s))) := by
  have htime : (askPrompt .declined (promptSpeaker s l) s).time = s.time := by simp
  unfold cardDecline
  dsimp only
  rw [htime]
  rfl

theorem cardDecline_fare (i : Fin 4) (l : Leg) (a : Attempt) (o : AttemptState) (s : State) :
    (cardDecline i l a o s).fare = { s.fare with slots := s.fare.slots.set i (some (declinedLeg s.time a.number o l)) } := by
  simp [cardDecline_eq, setLeg_fare]

theorem cardDecline_offers (i : Fin 4) (l : Leg) (a : Attempt) (o : AttemptState) (s : State) :
    (cardDecline i l a o s).nsc.offers
      = s.nsc.offers.set i (some (offerOf (declinedLeg s.time a.number o l))) := by
  rw [cardDecline_eq, offerLeg_of_set (l := declinedLeg s.time a.number o l)
    (s := askPrompt .declined (promptSpeaker s l) s) (by simp)]
  simp

theorem cardDecline_fares (i : Fin 4) (l : Leg) (a : Attempt) (o : AttemptState) (s : State) :
    (cardDecline i l a o s).nsc.fares
      = s.nsc.fares.set i (some (showOf (declinedLeg s.time a.number o l))) := by
  have := showLeg_of_set (l := declinedLeg s.time a.number o l) (s := askPrompt .declined (promptSpeaker s l) s) (i := i) rfl
  simpa [cardDecline_eq] using this

theorem cardDecline_prompts (i : Fin 4) (l : Leg) (a : Attempt) (o : AttemptState) (s : State) :
    (cardDecline i l a o s).icm.prompts = prompted s.icm.prompts .declined (promptSpeaker s l) := by
  have := askPrompt_prompts (k := .declined) (by decide) (promptSpeaker s l) s
  simpa [cardDecline_eq] using this

/-- A PAY_CANCEL of a named leg by its checks. -/
theorem payCancelBody_named {q : QFrame} {i : Fin 4} {l : Leg} {s : State} (h : LegNamed q i l s) (e : Station)
    (rest : List QFrame) : payCancelBody q e { s with lif.queue := rest }
    = if l.phase ≠ .held ∧ l.phase ≠ .paying then refuse q .state { s with lif.queue := rest }
      else if (l.claim.all (fun c => decide (c.holder ≠ q.src ∨ c.role ≠ e.role))) = true then
        refuse q .notHolder { s with lif.queue := rest }
      else accept q (le 2 l.number) (if l.phase = .held then releaseClaim i { s with lif.queue := rest }
        else match l.flying with
          | none => { s with lif.queue := rest }
          | some f => cardDecline i l f.1 .cancelled { s with lif.queue := rest }) := by
  rw [show payCancelBody q e { s with lif.queue := rest } = _ from withLeg_named h rest _, Leg.not_heldBy]
  by_cases hphase : l.phase ≠ .held ∧ l.phase ≠ .paying
  · rw [if_pos hphase, if_pos hphase]
  · rw [if_neg hphase, if_neg hphase]
    by_cases hheld : (l.claim.all (fun c => decide (c.holder ≠ q.src ∨ c.role ≠ e.role))) = true
    · rw [if_pos hheld, if_pos hheld]
    · rw [if_neg hheld, if_neg hheld]
      by_cases hp : l.phase = .held
      · rw [if_pos hp, if_pos hp]
        rfl
      · rw [if_neg hp, if_neg hp]
        cases l.flying <;> rfl

/-- What an accepted request whose effect let an ended reference go leaves of the line. -/
theorem accepted_line {q : QFrame} {v : List Byte} {rest : List QFrame} {s u : State}
    (hline : Kept.line u { s with lif.queue := rest }) (htx : Kept.tx u { s with lif.queue := rest }) :
    let t := letGo (accept q v u)
    t.lif = { s.lif with queue := rest, tx := t.lif.tx, stations := t.lif.stations } ∧ TransmitterKept s t := by
  obtain ⟨haddr, hrx, hqueue, hfree, hann⟩ := hline
  refine ⟨?_, transmitterKept_letGo (.inr ?_)⟩
  · apply Lif.ext <;> simp [haddr, hrx, hqueue, hfree, hann]
  · have := tx_eq_of_kept htx
    simpa using this

/-- An accepted request whose effect let an ended reference go: its answer, and what it leaves of the line. -/
theorem accepted_losing {q : QFrame} {v : List Byte} {rest : List QFrame} {s u : State}
    (hline : Kept.line u { s with lif.queue := rest }) (htx : Kept.tx u { s with lif.queue := rest })
    (hreplies : u.nsc.replies = s.nsc.replies) (hflt : u.flt = s.flt) :
    let t := letGo (accept q v u)
    t.lif = { s.lif with queue := rest, tx := t.lif.tx, stations := t.lif.stations } ∧ TransmitterKept s t
      ∧ FaultsKept s t ∧ Answered q (.accepted v) s t :=
  have ⟨hlif, hkept⟩ := accepted_line (q := q) (v := v) hline htx
  ⟨hlif, hkept, faultsKept_accept hreplies hflt, answered_accept hreplies⟩

/-- Of a line that is kept, no station has left. -/
theorem LineKept.losing {rest : List QFrame} {s t : State} (h : LineKept rest s t) (named : Option Nat)
    (hw : t.cab.watches = s.cab.watches) (hc : t.acc.credit = s.acc.credit) : LineLosing rest named s t := by
  obtain ⟨hlif, htx⟩ := h
  have hst : t.lif.stations = s.lif.stations := by rw [hlif]
  refine ⟨hlif.trans (by rw [hst]), htx, ?_⟩
  cases named with
  | none => exact ⟨hst, hw, hc⟩
  | some a => exact .inl ⟨hst, hw, hc⟩

theorem setLeg_self {i : Fin 4} {l : Leg} {s : State} (h : legAt s i = some l) : setLeg i l s = s := by
  have hslots : s.fare.slots.set i (some l) = s.fare.slots := by
    rw [← h, legAt]
    fin_cases i <;> rfl
  rw [setLeg, hslots]

/-- A PAY_CANCEL of a HELD leg releases its claim. -/
theorem payCancel_held {q : QFrame} {rest : List QFrame} {i : Fin 4} {l : Leg} {s : State} (hl : legAt s i = some l)
    (hheld : l.phase = .held) :
    let t := letGo (accept q (le 2 l.number) (releaseClaim i { s with lif.queue := rest }))
    LineLosing rest l.holder s t ∧ FaultsKept s t
      ∧ (Answered q (.accepted (le 2 l.number)) s t
        ∧ (l.phase = .held → let l' : Leg := { l with claim := none }
          t.fare = { s.fare with slots := s.fare.slots.set i (some l') }
            ∧ t.nsc.offers = s.nsc.offers.set i (some (offerOf l')) ∧ t.icm = s.icm)
        ∧ (l.phase = .paying → ∀ a d, l.flying = some (a, d) →
          let l' := declinedLeg s.time a.number .cancelled l
          t.fare = { s.fare with slots := s.fare.slots.set i (some l') }
            ∧ t.nsc.offers = s.nsc.offers.set i (some (offerOf l'))
            ∧ t.nsc.fares = s.nsc.fares.set i (some (showOf l'))
            ∧ t.icm.prompts = prompted s.icm.prompts .declined (promptSpeaker s l)))
      ∧ t = { s with lif := t.lif, fare := t.fare, flt := t.flt, icm := { s.icm with prompts := t.icm.prompts }
                     nsc := { s.nsc with replies := t.nsc.replies, offers := t.nsc.offers, fares := t.nsc.fares
                                         print := t.nsc.print }
                     cab := { s.cab with watches := t.cab.watches }
                     acc := { s.acc with credit := t.acc.credit, jobs := t.acc.jobs } } := by
  intro t
  obtain ⟨u, hu⟩ : ∃ u, u = { s with lif.queue := rest } := ⟨_, rfl⟩
  have hlu : legAt u i = some l := by rw [hu]; exact hl
  have hset : u.fare = (setLeg i l s).fare := by rw [setLeg_self hl, hu]
  have hfare := endClaim_fare hset
  have hoffers := offerLeg_of_set hfare
  have ht : t = letGo (accept q (le 2 l.number) (offerLeg i (endClaim i u))) := by rw [hu]; rfl
  obtain ⟨hlif, htx, hflt, hans⟩ := accepted_losing (q := q) (v := le 2 l.number) (rest := rest) (s := s)
    (u := offerLeg i (endClaim i u)) (by simp [hu]) (by simp [hu]) (by simp [hu]) (by simp [hu])
  rw [← ht] at hlif htx hflt hans
  refine ⟨lineLosing_endClaim hlu (by rw [hu]) (by simp [ht]) (by rw [hu]) (by rw [hu]) (by simp [ht]) (by simp [ht])
    (by simp [ht]) hlif htx, hflt, ⟨hans, fun _ => ⟨?_, ?_, ?_⟩, fun hp => ?_⟩, ?_⟩
  · simp [ht, hfare, setLeg_fare]
  · simpa [ht, hu] using hoffers
  · simp [ht, hu]
  · rw [hheld] at hp
    cases hp
  · apply State.ext <;> simp [ht, hu]
    · apply Nsc.ext <;> simp
    · apply Cab.ext <;> simp
    · apply Acc.ext <;> simp

/-! ### The deadline of an attempt (06 R109) -/

/-- The leg whose attempt ran out, before its claim ends. -/
def ranOut (n : Nat) (l : Leg) : Leg := { l.setAttempt n .indeterminate with phase := .held }

theorem attemptDeadlineBody_eq {i : Fin 4} {l : Leg} {a : Attempt} {due : Moment} {s : State}
    (hl : legAt s i = some l) (hphase : l.phase = .paying) (hflying : l.flying = some (a, due)) :
    attemptDeadlineBody i s
      = offerLeg i (askPrompt .timeout (promptSpeaker s l) (joinUnresolved
          ⟨l.number, a.number, a.requested, a.starter⟩
          (endClaim i (showLeg i (setLeg i (ranOut a.number l) (passTo due s)))))) := by
  have hdue : flyingAt s i = some (l, a, due) := by simp [flyingAt, hl, hphase, hflying]
  unfold attemptDeadlineBody
  rw [hdue]
  dsimp only
  have hspeaker : promptSpeaker (runOut i l a (passTo due s)) l = promptSpeaker s l := by
    unfold runOut
    dsimp only
    rw [promptSpeaker_congr (u := joinUnresolved _ _) (s := endClaim i (showLeg i (setLeg i (ranOut a.number l)
      (passTo due s)))) (by simp; rfl), promptSpeaker_endClaim]
    exact promptSpeaker_congr (by simp) l
  rw [hspeaker]
  rfl

/-- Settles O44. -/
theorem cancelAndDeadlineEndAttempt : Obligations.CancelAndDeadlineEndAttempt := by
  refine ⟨fun q e rest i l s hasks hnamed => ⟨_, takes_asks payCancelBody hasks, ?_⟩,
    fun i l a due c s hact hl hphase hflying hclaim => ?_⟩
  · rw [payCancelBody_named hnamed]
    have hl : legAt { s with lif.queue := rest } i = some l := hnamed.2
    have hrefused : ∀ c, let t := letGo (refuse q c { s with lif.queue := rest })
        LineLosing rest l.holder s t ∧ FaultsKept s t
          ∧ (Answered q (.refused c) s t ∧ t.fare = s.fare ∧ t.nsc.offers = s.nsc.offers ∧ t.icm = s.icm)
          ∧ t = { s with lif := t.lif, fare := t.fare, flt := t.flt, icm := { s.icm with prompts := t.icm.prompts }
                         nsc := { s.nsc with replies := t.nsc.replies, offers := t.nsc.offers, fares := t.nsc.fares
                                             print := t.nsc.print }
                         cab := { s.cab with watches := t.cab.watches }
                         acc := { s.acc with credit := t.acc.credit, jobs := t.acc.jobs } } := fun c => by
      obtain ⟨hans, hline, hflt, hrest⟩ := onlyRefused_letGo_refuse q c rest s
      exact ⟨hline.losing _ (by simp) (by simp), hflt, ⟨hans, by simp, by simp, by simp⟩, hrest.trans (by simp)⟩
    by_cases hphase : l.phase ≠ .held ∧ l.phase ≠ .paying
    · rw [if_pos hphase, if_pos hphase]
      exact hrefused _
    rw [if_neg hphase, if_neg hphase]
    by_cases hholder : (l.claim.all (fun c => decide (c.holder ≠ q.src ∨ c.role ≠ e.role))) = true
    · rw [if_pos hholder, if_pos hholder]
      exact hrefused _
    rw [if_neg hholder, if_neg hholder]
    by_cases hheld : l.phase = .held
    · rw [if_pos hheld]
      exact payCancel_held hl hheld
    · rw [if_neg hheld]
      cases hflying : l.flying with
      | none =>
        obtain ⟨hline, hflt, hans⟩ := accepted_leaves (q := q) (v := le 2 l.number) (rest := rest) (s := s)
          (u := { s with lif.queue := rest }) rfl rfl rfl
        refine ⟨hline.losing _ (by simp) (by simp), hflt,
          ⟨hans, fun h => absurd h hheld, fun _ a d h => absurd h (by simp)⟩, ?_⟩
        apply State.ext <;> simp
        apply Nsc.ext <;> simp
      | some f =>
        obtain ⟨hline, hflt, hans⟩ := accepted_leaves (q := q) (v := le 2 l.number) (rest := rest) (s := s)
          (u := cardDecline i l f.1 .cancelled { s with lif.queue := rest })
          (lif_eq_of_kept (s := { s with lif.queue := rest }) (by simp) (by simp) (by simp)) (by simp) (by simp)
        refine ⟨hline.losing _ (by simp) (by simp), hflt, ⟨hans, fun h => absurd h hheld, fun _ a d h => ?_⟩, ?_⟩
        · cases h
          refine ⟨?_, ?_, ?_, ?_⟩
          · simp [cardDecline_fare]; rfl
          · simp [cardDecline_offers]; rfl
          · simp [cardDecline_fares]; rfl
          · simp [cardDecline_prompts, promptSpeaker_rest]
        · apply State.ext <;> simp
          · apply Nsc.ext <;> simp
          · apply Icm.ext <;> simp
  · intro l'
    refine ⟨_, whenActive_of_active hact (fun u => letGo (attemptDeadlineBody i u)), ?_⟩
    rw [attemptDeadlineBody_eq hl hphase hflying]
    obtain ⟨u, hu⟩ : ∃ u, u = showLeg i (setLeg i (ranOut a.number l) (passTo due s)) := ⟨_, rfl⟩
    have hset : u.fare = (setLeg i (ranOut a.number l) (passTo due s)).fare := by simp [hu]
    have hlu : legAt u i = some (ranOut a.number l) :=
      (legAt_congr hset i).trans (legAt_setLeg_same i _ _)
    have hended : endClaim i u = endReference c.holder (setLeg i { ranOut a.number l with claim := none } u) :=
      endClaim_of_claim hlu hclaim
    have hfare := endClaim_fare hset
    have hshown := showLeg_of_set (i := i) (l := ranOut a.number l) (s := passTo due s) rfl
    rw [← hu]
    obtain ⟨w, hw⟩ : ∃ w, w = joinUnresolved ⟨l.number, a.number, a.requested, a.starter⟩ (endClaim i u) := ⟨_, rfl⟩
    rw [← hw]
    have hoffers := offerLeg_of_set (i := i) (l := l') (s := passTo due s)
      (u := askPrompt .timeout (promptSpeaker s l) w) (by simp [hw, hfare]; rfl)
    have hprompts := askPrompt_prompts (k := .timeout) (by decide) (promptSpeaker s l) w
    refine ⟨by simp [hw, hu, passTo], ?_, ?_, ?_, ?_, ?_, ?_, ?_, ?_⟩
    · exact endReference_ended (u := setLeg i { ranOut a.number l with claim := none } u) (by simp [hu]) (by simp [hu])
        (by simp [hu]) (by simp [hw]) (by rw [← hended]; simp [hw]) (by rw [← hended]; simp [hw])
        (by rw [← hended]; simp [hw])
    · simp [hw, hfare, setLeg_fare]
      rfl
    · simpa [hw, hu] using hoffers
    · have hsame : showOf (ranOut a.number l) = showOf l' := rfl
      rw [hsame] at hshown
      simpa [hw, hu] using hshown
    · have hacc : (endClaim i u).acc.unresolved = s.acc.unresolved ∧ (endClaim i u).acc.shift = s.acc.shift := by
        simp [hu]
      have hjoined : (letGo (offerLeg i (askPrompt .timeout (promptSpeaker s l) w))).acc = w.acc := by simp
      rw [hjoined, hw, ← hacc.1, ← hacc.2]
      unfold joinUnresolved
      by_cases hroom : (endClaim i u).acc.unresolved.length < 8
      · rw [if_pos hroom, if_pos hroom]
        exact ⟨rfl, rfl⟩
      · rw [if_neg hroom, if_neg hroom]
        exact ⟨rfl, rfl⟩
    · simpa [hw, hu] using hprompts
    · exact transmitterKept_letGo (.inr (tx_eq_of_kept (by simp [hw, hu])))
    · apply State.ext <;> simp [hw, hu]
      · apply Lif.ext <;> simp
      · apply Nsc.ext <;> simp
      · apply Cab.ext <;> simp
      · apply Icm.ext <;> simp
      · apply Acc.ext <;> simp

end Sys2Proof.Machine
end

section
/-!
SUPPORT. The close of a leg (04 R69, R70, 08 R149, R150, R156, 05 R81) and its settlement (06 R116), field by field.
-/

namespace Sys2Proof.Machine

/-! ### The receipt (08 R156) -/

theorem joinJobs_jobs (b : JobBody) (s : State) : (joinJobs b s).acc.jobs = s.acc.jobs ++ [⟨b, 0⟩] := by
  unfold joinJobs
  dsimp only
  split <;> simp

theorem joinJobs_print (b : JobBody) (s : State) : (joinJobs b s).nsc.print
    = if s.acc.jobs = [] then firstItem [⟨b, 0⟩] else s.nsc.print := by
  unfold joinJobs
  by_cases h : s.acc.jobs = []
  · simp [h, refreshPrint_print]
  · simp [h]

theorem refreshPrint_flt (s : State) : (refreshPrint s).flt = s.flt := by
  unfold refreshPrint
  cases headItem s <;> simp [placePrint, withdrawPrint]

theorem joinJobs_flt (b : JobBody) (s : State) : (joinJobs b s).flt = s.flt := by
  unfold joinJobs
  dsimp only
  split
  · exact refreshPrint_flt _
  · rfl

/-- The print job of a closed leg. -/
def receiptOf (s : State) (r : LegRecord) : Job := ⟨.receipt r (receiptZoneFare s r.kind), 0⟩

/-- What the accounts make of a closed leg's receipt. -/
def Receipted (r : LegRecord) (s t : State) : Prop :=
  if r.voided = true then t.acc.jobs = s.acc.jobs ∧ t.nsc.print = s.nsc.print ∧ t.flt = s.flt
  else if s.acc.jobs.length < 4 then t.acc.jobs = s.acc.jobs ++ [receiptOf s r] ∧ t.flt = s.flt
    ∧ t.nsc.print = (if s.acc.jobs = [] then firstItem [receiptOf s r] else s.nsc.print)
  else t.acc.jobs = s.acc.jobs ∧ t.nsc.print = s.nsc.print ∧ t.flt = (raise .printLost s).flt

theorem accountLeg_receipted (r : LegRecord) (s : State) : Receipted r s (accountLeg r s) := by
  unfold Receipted accountLeg
  dsimp only
  by_cases hvoided : r.voided = true
  · rw [if_pos hvoided, if_pos hvoided]
    exact ⟨rfl, rfl, rfl⟩
  · rw [if_neg hvoided, if_neg hvoided]
    unfold placeReceipt
    dsimp only
    by_cases hroom : s.acc.jobs.length < 4
    · rw [if_pos hroom, if_pos hroom, joinJobs_jobs, joinJobs_print, joinJobs_flt]
      exact ⟨rfl, rfl, rfl⟩
    · rw [if_neg hroom, if_neg hroom]
      exact ⟨rfl, rfl, rfl⟩

theorem accountLeg_shift (r : LegRecord) (s : State) :
    (accountLeg r s).acc.shift = { s.acc.shift with totals := closedTotals r s.acc.shift.totals } := by
  rw [← addLeg_closed]
  unfold accountLeg
  dsimp only
  split
  · rfl
  · simp

/-! ### The close, field by field -/

/-- A leg that has entered CLOSING. -/
def Leg.shut (l : Leg) : Leg := { l with phase := .closing }

section
variable (i : Fin 4) (l : Leg) (s : State)

theorem closeLeg_eq : closeLeg i l s = showLeg i (occupancyReport (occupied s) none
    (claim (.leg (closingRecord s l)) (accountLeg (closingRecord s l) (setLeg i l.shut s)))) := by
  rw [← legRecord_closing]
  rfl

theorem closeLeg_fare : (closeLeg i l s).fare = { s.fare with slots := s.fare.slots.set i (some l.shut) } := by
  simp [closeLeg_eq, setLeg_fare]

theorem closeLeg_fares : (closeLeg i l s).nsc.fares = s.nsc.fares.set i (some (showOf l.shut)) := by
  rw [closeLeg_eq, showLeg_of_set (l := l.shut) (s := s) (by simp)]
  simp

theorem closeLeg_jnl : (closeLeg i l s).jnl = (claim (.leg (closingRecord s l)) s).jnl := by
  rw [closeLeg_eq]
  simp only [showLeg_frame, occupancyReport_frame]
  exact claim_jnl_congr (by simp) (by simp) (by simp) _

theorem closeLeg_shift : (closeLeg i l s).acc.shift
    = { s.acc.shift with totals := closedTotals (closingRecord s l) s.acc.shift.totals } := by
  have := accountLeg_shift (closingRecord s l) (setLeg i l.shut s)
  simpa [closeLeg_eq] using this

theorem closeLeg_receipted : Receipted (closingRecord s l) s (closeLeg i l s) := by
  have hreceipt : receiptOf (setLeg i l.shut s) (closingRecord s l) = receiptOf s (closingRecord s l) := rfl
  have hlost : (raise .printLost (setLeg i l.shut s)).flt = (raise .printLost s).flt := rfl
  have hleaves := accountLeg_receipted (closingRecord s l) (setLeg i l.shut s)
  rw [closeLeg_eq]
  unfold Receipted at *
  rw [hreceipt, hlost] at hleaves
  simpa using hleaves

theorem occupied_closing : occupied (setLeg i l.shut s) ≤ occupied s := by
  refine List.Sublist.length_le (List.monotone_filter_right allSlots fun j hj => ?_)
  unfold slotOccupied at *
  rw [legAt_setLeg] at hj
  by_cases hji : j = i
  · simp [hji, Leg.shut, Leg.occupied] at hj
  · simpa [hji] using hj

theorem closeLeg_reported : OccupancyReported s (closeLeg i l s) := by
  obtain ⟨u, hu⟩ : ∃ u, u = claim (.leg (closingRecord s l)) (accountLeg (closingRecord s l) (setLeg i l.shut s)) :=
    ⟨_, rfl⟩
  have hfew : occupied u ≤ occupied s := by
    rw [occupied_congr (show u.fare.slots = (setLeg i l.shut s).fare.slots by simp [hu])]
    exact occupied_closing i l s
  have hreported := occupancyReport_reported hfew
  have hcab : u.cab = s.cab := by simp [hu]
  have hicm : u.icm = s.icm := by simp [hu]
  have hshown : occupied (showLeg i (occupancyReport (occupied s) none u)) = occupied (occupancyReport (occupied s) none u) :=
    occupied_congr (by simp)
  rw [closeLeg_eq, ← hu]
  unfold OccupancyReported at *
  rw [hcab, hicm] at hreported
  rw [hshown]
  simpa using hreported

end

/-! ### A leg closed with a request -/

/-- A lost receipt, and the answer that may overrun class 1. -/
theorem printLost_accept {q : QFrame} {v : List Byte} {s u : State} (hreplies : u.nsc.replies = s.nsc.replies)
    (hflt : u.flt = (raise .printLost s).flt) : PrintLost s (letGo (accept q v u)) := by
  obtain ⟨hcold, hbits, hroom⟩ := faultsKept_accept (q := q) (v := v) (s := raise .printLost s) (u := u) hreplies hflt
  have hindex : FaultName.printLost.index = 9 := rfl
  refine ⟨hcold, ?_, fun k h2 h9 => ?_, fun h => ?_⟩
  · rw [hbits 9 (by decide), raise_bit, hindex]
    simp
  · rw [hbits k h2, raise_bit, hindex]
    simp [h9]
  · rw [hroom h, raise_bit, hindex]
    simp

/-- What a close reads and writes stands as in `s`, but that the leg's slot and its show may have been written. -/
structure ClosesIn (i : Fin 4) (s u : State) : Prop where
  slots : ∀ x, u.fare.slots.set i x = s.fare.slots.set i x
  lastLeg : u.fare.lastLeg = s.fare.lastLeg
  fares : ∀ f, u.nsc.fares.set i f = s.nsc.fares.set i f
  jnl : u.jnl = s.jnl
  array : u.array = s.array
  power : u.pwr.state = s.pwr.state
  odo : u.odo = s.odo
  tar : u.tar = s.tar
  shift : u.acc.shift = s.acc.shift
  duty : u.cab.duty = s.cab.duty
  share : u.cab.share = s.cab.share
  forced : u.icm.forced = s.icm.forced
  privacy : u.icm.privacy = s.icm.privacy
  replies : u.nsc.replies = s.nsc.replies
  flt : u.flt = s.flt

theorem ClosesIn.record {i : Fin 4} {s u : State} (h : ClosesIn i s u) (l : Leg) :
    closingRecord u l = closingRecord s l := by
  unfold closingRecord tariffK
  rw [h.shift, h.odo, h.tar]

theorem ClosesIn.receipt {i : Fin 4} {s u : State} (h : ClosesIn i s u) (r : LegRecord) :
    receiptOf u r = receiptOf s r := by
  unfold receiptOf receiptZoneFare zoneFare
  rw [h.tar]

/-- The state shows all that a close wrote. -/
structure ShowsClose (c w : State) : Prop where
  fare : w.fare = c.fare
  nsc : w.nsc = c.nsc
  jnl : w.jnl = c.jnl
  acc : w.acc = c.acc
  cab : w.cab = c.cab
  forced : w.icm.forced = c.icm.forced
  privacy : w.icm.privacy = c.icm.privacy
  flt : w.flt = c.flt

/-- The close of a leg, as the answered request leaves it. -/
theorem legClosed_accept {i : Fin 4} {l : Leg} {q : QFrame} {v : List Byte} {named : Option Nat} {s u w : State}
    (h : ClosesIn i s u) (hw : ShowsClose (closeLeg i l u) w)
    (hjobs : u.acc.jobs = pausedJobs named s (letGo (accept q v w)))
    (hprint : u.nsc.print = pausedPrint named s (letGo (accept q v w))) :
    LegClosed i l named s (letGo (accept q v w)) := by
  have hreplies : w.nsc.replies = s.nsc.replies := by rw [hw.nsc, ← h.replies]; simp
  obtain ⟨t, ht⟩ : ∃ t, t = letGo (accept q v w) := ⟨_, rfl⟩
  rw [← ht] at hjobs hprint ⊢
  refine ⟨?_, ?_, ?_, ?_, ?_, ?_⟩
  · simp [ht, hw.fare, closeLeg_fare, h.slots, h.lastLeg, Leg.shut]
  · simp [ht, hw.nsc, closeLeg_fares, h.fares, Leg.shut]
  · refine rowClaimed_of_jnl ?_
    rw [claim_jnl_congr (s := s) (u := u) h.jnl.symm h.array.symm h.power.symm, ← h.record l, ← closeLeg_jnl i l u]
    simp [ht, hw.jnl]
  · simp [ht, hw.acc, closeLeg_shift, h.shift, h.record]
  · have hreported := closeLeg_reported i l u
    have hoccupied : occupied t = occupied (closeLeg i l u) := occupied_congr (by simp [ht, hw.fare])
    unfold OccupancyReported at *
    rw [hoccupied, show t.cab = (closeLeg i l u).cab by simp [ht, hw.cab],
      show t.icm.forced = (closeLeg i l u).icm.forced by simp [ht, hw.forced],
      show t.icm.privacy = (closeLeg i l u).icm.privacy by simp [ht, hw.privacy]]
    rwa [h.duty, h.share, h.forced, h.privacy] at hreported
  · have hreceipted := closeLeg_receipted i l u
    have hjobs' : t.acc.jobs = (closeLeg i l u).acc.jobs := by simp [ht, hw.acc]
    have hprint' : t.nsc.print = (closeLeg i l u).nsc.print := by simp [ht, hw.nsc]
    have hvoided : (closingRecord s l).voided = l.voided := rfl
    unfold Receipted at hreceipted
    rw [h.record, h.receipt, ← hjobs', ← hprint', ← hw.flt, h.flt, hjobs, hprint, hvoided] at hreceipted
    by_cases hv : l.voided = true
    · rw [if_pos hv] at hreceipted
      obtain ⟨hj, hp, hf⟩ := hreceipted
      rw [if_pos hv]
      exact ⟨hj, hp, ht ▸ faultsKept_accept hreplies hf⟩
    rw [if_neg hv] at hreceipted
    rw [if_neg hv]
    by_cases hroom : (pausedJobs named s t).length < 4
    · rw [if_pos hroom] at hreceipted
      obtain ⟨hj, hf, hp⟩ := hreceipted
      rw [if_pos hroom]
      exact ⟨hj, ht ▸ faultsKept_accept hreplies hf, hp⟩
    · rw [if_neg hroom] at hreceipted
      obtain ⟨hj, hp, hf⟩ := hreceipted
      have hraise : (raise .printLost u).flt = (raise .printLost s).flt := by simp [raise, h.flt]
      rw [if_neg hroom]
      exact ⟨hj, hp, ht ▸ printLost_accept hreplies (hf.trans hraise)⟩

/-! ### A leg settled with a request (06 R116) -/

/-- The part as a request of frames `rest` settles the leg of a slot: nothing is written but the slot, its show and its
offer, the unresolved list, and the mark on the transmitter. -/
structure Settling (i : Fin 4) (rest : List QFrame) (s u : State) : Prop where
  others : u = { s with
    lif := u.lif, fare := { s.fare with slots := u.fare.slots }
    nsc := { s.nsc with fares := u.nsc.fares, offers := u.nsc.offers }
    acc := { s.acc with unresolved := u.acc.unresolved } }
  line : u.lif = { s.lif with queue := rest, tx := { s.lif.tx with renewed := u.lif.tx.renewed } }
  slots : ∀ x, u.fare.slots.set i x = s.fare.slots.set i x
  fares : ∀ f, u.nsc.fares.set i f = s.nsc.fares.set i f
  offers : ∀ o, u.nsc.offers.set i o = s.nsc.offers.set i o

theorem settle_eq {i : Fin 4} {l : Leg} {s : State} (hl : legAt s i = some l) : settle i s
    = askPrompt .paid (promptSpeaker s l)
        (closeLeg i { l with claim := none } (withdrawOffer i (endClaim i s))) := by
  have hset : s.fare = (setLeg i l s).fare := by rw [setLeg_self hl]
  have hleg : legAt (withdrawOffer i (endClaim i s)) i = some { l with claim := none } := by
    rw [← legAt_setLeg_same i { l with claim := none } s]
    exact legAt_congr (by simp [endClaim_fare hset]) i
  unfold settle
  dsimp only
  rw [hleg]
  dsimp only
  have hspeaker : promptSpeaker (closeLeg i { l with claim := none } (withdrawOffer i (endClaim i s)))
      { l with claim := none } = promptSpeaker s l := by
    rw [promptSpeaker_congr (s := endClaim i s) (by simp), promptSpeaker_endClaim]
    rfl
  rw [hspeaker]

/-- A claim ends once. -/
theorem settle_endClaim {i : Fin 4} {l : Leg} {s : State} (hl : legAt s i = some l) :
    settle i (endClaim i s) = settle i s := by
  have hset : s.fare = (setLeg i l s).fare := by rw [setLeg_self hl]
  have hleg : legAt (endClaim i s) i = some { l with claim := none } := by
    rw [← legAt_setLeg_same i { l with claim := none } s]
    exact legAt_congr (by simp [endClaim_fare hset]) i
  rw [settle_eq hleg, settle_eq hl, endClaim_of_none hleg rfl, promptSpeaker_endClaim]
  rfl

theorem legSettled_accept {i : Fin 4} {l : Leg} {q : QFrame} {v : List Byte} {rest : List QFrame} {s u : State}
    (h : Settling i rest s u) (hl : legAt u i = some l) :
    let t := letGo (accept q v (settle i u))
    LegSettled i { l with claim := none } l.holder u.acc.unresolved rest s t ∧ Answered q (.accepted v) s t := by
  intro t
  obtain ⟨hothers, hline, hslots, hfares, hoffers⟩ := h
  have hset : u.fare = (setLeg i l u).fare := by rw [setLeg_self hl]
  obtain ⟨w, hw⟩ : ∃ w, w = withdrawOffer i (endClaim i u) := ⟨_, rfl⟩
  have ht : t = letGo (accept q v (askPrompt .paid (promptSpeaker u l) (closeLeg i { l with claim := none } w))) := by
    rw [hw, ← settle_eq hl]
  have hfare : w.fare = (setLeg i { l with claim := none } u).fare := by simp [hw, endClaim_fare hset]
  have hkept : w.fare = { s.fare with slots := w.fare.slots } := by
    rw [hfare, setLeg_fare, hothers]
  have hcloses : ClosesIn i s w := by
    constructor
    case slots => intro x; simp [hfare, setLeg_fare, hslots]
    case lastLeg => rw [hkept]
    case fares => intro f; simp [hw, hfares]
    all_goals simp [hw]
    all_goals rw [hothers]
  obtain ⟨c, hc⟩ : ∃ c, c = askPrompt .paid (promptSpeaker u l) (closeLeg i { l with claim := none } w) := ⟨_, rfl⟩
  rw [← hc] at ht
  have hst : u.lif.stations = s.lif.stations := by rw [hline]
  have hst' : t.lif.stations = (endClaim i u).lif.stations := by simp [ht, hc, hw]
  have hjobs : w.acc.jobs = pausedJobs l.holder s t := by
    have := endClaim_jobs hl hst hst' (by rw [hothers])
    simpa [hw] using this
  have hprint : w.nsc.print = pausedPrint l.holder s t := by
    have := endClaim_print hl hst hst' (by rw [hothers]) (by rw [hothers])
    simpa [hw] using this
  have hshows : ShowsClose (closeLeg i { l with claim := none } w) c := by
    constructor <;> simp [hc]
  have hclosed := ht ▸ legClosed_accept (named := l.holder) hcloses hshows (ht ▸ hjobs) (ht ▸ hprint)
  have hkeeps : Kept.line u { s with lif.queue := rest } ∧ Kept.tx u { s with lif.queue := rest } := by
    refine ⟨⟨?_, ?_, ?_, ?_, ?_⟩, ?_, ?_, ?_⟩ <;> rw [hline]
  obtain ⟨hlif, htx⟩ := accepted_line (q := q) (v := v) (rest := rest) (s := s) (u := c)
    (by simpa [hc, hw] using hkeeps.1) (by simpa [hc, hw] using hkeeps.2)
  have hans : Answered q (.accepted v) s t := ht ▸ answered_accept (by simp [hc, hw]; rw [hothers])
  rw [← ht] at hlif htx
  refine ⟨⟨hclosed, ?_, ?_, ?_, ?_⟩, hans⟩
  · exact lineLosing_endClaim hl hst hst' (by rw [hothers]) (by rw [hothers]) (by simp [ht, hc, hw]) (by simp [ht, hc, hw])
      (by simp [ht, hc, hw]) hlif htx
  · simp [ht, hc, hw, withdrawOffer, hoffers]
  · have := askPrompt_prompts (k := .paid) (by decide) (promptSpeaker u l) (closeLeg i { l with claim := none } w)
    have hc' : c.icm.prompts = _ := hc ▸ this
    simp [ht, hc', hw]
    rw [promptSpeaker_congr hst, hothers]
    rfl
  · apply State.ext <;> simp [ht, hc, hw]
    case nsc => apply Nsc.ext <;> simp [withdrawOffer] <;> rw [hothers]
    case cab => apply Cab.ext <;> simp <;> rw [hothers]
    case icm => apply Icm.ext <;> simp <;> rw [hothers]
    case acc => apply Acc.ext <;> simp <;> rw [hothers]
    all_goals rw [hothers]

end Sys2Proof.Machine
end

section
/-!
SETTLED OBLIGATIONS. VOID, EXTRA and FLAT (04 R59 to R61).
-/

namespace Sys2Proof.Machine

/-! ### A leg whose total has changed (04 R73, 06 R117) -/

section
variable {i : Fin 4} {l : Leg} {s : State}

theorem totalChanged_fare : (totalChanged i l s).fare = { s.fare with slots := s.fare.slots.set i (some l) } := by
  simp [totalChanged, setLeg_fare]

theorem totalChanged_fares : (totalChanged i l s).nsc.fares = s.nsc.fares.set i (some (showOf l)) := by
  have := showLeg_of_set (i := i) (l := l) (s := s) rfl
  simpa [totalChanged] using this

theorem totalChanged_offers : (totalChanged i l s).nsc.offers
    = if l.phase = .held then s.nsc.offers.set i (some (offerOf l)) else s.nsc.offers := by
  have := offerLeg_of_set (i := i) (l := l) (s := s) (u := showLeg i (setLeg i l s)) (by simp)
  unfold totalChanged
  by_cases hheld : l.phase = .held
  · simpa [hheld] using this
  · simp [hheld]

end

/-- A request that changed a leg's total, as it leaves the part. -/
theorem totalChanged_accept {q : QFrame} {v : List Byte} {rest : List QFrame} {i : Fin 4} {l l' : Leg} {s : State}
    (hphase : l'.phase = l.phase) :
    let t := letGo (accept q v (totalChanged i l' { s with lif.queue := rest }))
    LineKept rest s t ∧ FaultsKept s t
      ∧ (Answered q (.accepted v) s t
        ∧ t.fare = { s.fare with slots := s.fare.slots.set i (some l') }
        ∧ t.nsc.fares = s.nsc.fares.set i (some (showOf l'))
        ∧ t.nsc.offers = (if l.phase = .held then s.nsc.offers.set i (some (offerOf l')) else s.nsc.offers))
      ∧ t = { s with lif := t.lif, fare := t.fare, flt := t.flt
                     nsc := { s.nsc with replies := t.nsc.replies, offers := t.nsc.offers, fares := t.nsc.fares } } := by
  intro t
  obtain ⟨hline, hflt, hans⟩ := accepted_leaves (q := q) (v := v) (rest := rest) (s := s)
    (u := totalChanged i l' { s with lif.queue := rest })
    (lif_eq_of_kept (s := { s with lif.queue := rest }) (by simp) (by simp) (by simp)) (by simp) (by simp)
  refine ⟨hline, hflt, ⟨hans, ?_, ?_, ?_⟩, ?_⟩
  · simp [t, totalChanged_fare]
  · simp [t, totalChanged_fares]
  · simp [t, totalChanged_offers, hphase]
  · apply State.ext <;> simp [t]
    apply Nsc.ext <;> simp

/-- A request on a leg that is refused, as it leaves the part. -/
theorem refused_fares {q : QFrame} {c : RefusalCode} {rest : List QFrame} {s : State} :
    let t := letGo (refuse q c { s with lif.queue := rest })
    LineKept rest s t ∧ FaultsKept s t
      ∧ (Answered q (.refused c) s t ∧ t.fare = s.fare ∧ t.nsc.offers = s.nsc.offers ∧ t.nsc.fares = s.nsc.fares)
      ∧ t = { s with lif := t.lif, fare := t.fare, flt := t.flt
                     nsc := { s.nsc with replies := t.nsc.replies, offers := t.nsc.offers, fares := t.nsc.fares } } := by
  obtain ⟨hans, hline, hflt, hrest⟩ := onlyRefused_letGo_refuse q c rest s
  exact ⟨hline, hflt, ⟨hans, by simp, by simp, by simp⟩, hrest.trans (by simp)⟩

/-- A request on a leg that changes nothing is answered. -/
theorem accepted_fares {q : QFrame} {v : List Byte} {rest : List QFrame} {s : State} :
    let t := letGo (accept q v { s with lif.queue := rest })
    LineKept rest s t ∧ FaultsKept s t
      ∧ (Answered q (.accepted v) s t ∧ t.fare = s.fare ∧ t.nsc.offers = s.nsc.offers ∧ t.nsc.fares = s.nsc.fares)
      ∧ t = { s with lif := t.lif, fare := t.fare, flt := t.flt
                     nsc := { s.nsc with replies := t.nsc.replies, offers := t.nsc.offers, fares := t.nsc.fares } } := by
  obtain ⟨hline, hflt, hans⟩ := accepted_leaves (q := q) (v := v) (rest := rest) (s := s)
    (u := { s with lif.queue := rest }) rfl rfl rfl
  refine ⟨hline, hflt, ⟨hans, by simp, by simp, by simp⟩, ?_⟩
  apply State.ext <;> simp
  apply Nsc.ext <;> simp

theorem Leg.fareFixed_iff (l : Leg) : l.fareFixed = true
    ↔ l.phase = .paying ∨ l.phase = .closing ∨ (l.phase = .held ∧ l.tenders ≠ []) := by
  simp [Leg.fareFixed, or_assoc]

/-! ### VOID (04 R59) -/

/-- The leg that a VOID leaves to be closed. -/
def Leg.emptied (l : Leg) : Leg :=
  { l with farePart := 0, extrasTotal := 0, reg := 0, voided := true, tip := l.tip.map (fun _ => 0) }

/-- A VOID of a named leg by its checks. -/
theorem voidBody_named {q : QFrame} {i : Fin 4} {l : Leg} {s : State} (h : LegNamed q i l s) (e : Station)
    (rest : List QFrame) : voidBody q e { s with lif.queue := rest }
    = if l.phase ≠ .opened ∨ 0 < l.steps ∨ extrasAbove s l = true then refuse q .state { s with lif.queue := rest }
      else accept q [] (closeLeg i l.emptied { s with lif.queue := rest }) := by
  have habove : extrasAbove { s with lif.queue := rest } l = extrasAbove s l := rfl
  rw [show voidBody q e { s with lif.queue := rest } = _ from withLeg_named h rest _, habove]
  by_cases hphase : l.phase ≠ .opened
  · rw [if_pos hphase, if_pos (.inl hphase)]
  by_cases hsteps : 0 < l.steps
  · rw [if_neg hphase, if_pos hsteps, if_pos (.inr (.inl hsteps))]
  by_cases hextras : extrasAbove s l = true
  · rw [if_neg hphase, if_neg hsteps, if_pos hextras, if_pos (.inr (.inr hextras))]
  · rw [if_neg hphase, if_neg hsteps, if_neg hextras, if_neg (by tauto)]
    rfl

/-- A voided leg is counted as that, and as nothing else (08 R149, R150). -/
theorem closeLeg_voided_acc {i : Fin 4} {l : Leg} {s : State} (h : l.voided = true) :
    (closeLeg i l s).acc = { s.acc with shift := { s.acc.shift with totals := { s.acc.shift.totals with
      legsVoided := min 9999 (s.acc.shift.totals.legsVoided + 1) } } } := by
  have hreceipted := closeLeg_receipted i l s
  unfold Receipted at hreceipted
  rw [if_pos (show (closingRecord s l).voided = true from h)] at hreceipted
  have hshift := closeLeg_shift i l s
  rw [closedTotals, if_pos (show (closingRecord s l).voided = true from h)] at hshift
  apply Acc.ext <;> simp [hreceipted.1, hshift]

theorem voidEmptiesLeg {q : QFrame} {rest : List QFrame} {i : Fin 4} {l : Leg} {s : State} :
    let t := letGo (accept q [] (closeLeg i l.emptied { s with lif.queue := rest }))
    Answered q (.accepted []) s t ∧ LineKept rest s t ∧ LegClosed i l.emptied none s t
      ∧ t.acc = { s.acc with shift := { s.acc.shift with totals := { s.acc.shift.totals with
          legsVoided := min 9999 (s.acc.shift.totals.legsVoided + 1) } } }
      ∧ t = { s with lif := t.lif, fare := t.fare, acc := t.acc, flt := t.flt
                     nsc := { s.nsc with replies := t.nsc.replies, sign := t.nsc.sign, fares := t.nsc.fares }
                     cab := { s.cab with duty := t.cab.duty, share := t.cab.share, sign := t.cab.sign
                                         signDue := t.cab.signDue }
                     icm := { s.icm with forced := t.icm.forced, privacy := t.icm.privacy }
                     jnl := t.jnl } := by
  intro t
  obtain ⟨u, hu⟩ : ∃ u, u = { s with lif.queue := rest } := ⟨_, rfl⟩
  have ht : t = letGo (accept q [] (closeLeg i l.emptied u)) := by rw [hu]
  have hcloses : ClosesIn i s u := by constructor <;> simp [hu]
  have hshows : ShowsClose (closeLeg i l.emptied u) (closeLeg i l.emptied u) := by constructor <;> rfl
  have hjobs : (pausedJobs none s t) = u.acc.jobs := by simp [hu, printerGone]
  have hprint : (pausedPrint none s t) = u.nsc.print := by simp [hu, printerGone]
  have hclosed : LegClosed i l.emptied none s t := ht ▸ legClosed_accept hcloses hshows (ht ▸ hjobs.symm) (ht ▸ hprint.symm)
  have ⟨_, _, _, _, _, hpaid⟩ := hclosed
  rw [if_pos (show l.emptied.voided = true from rfl)] at hpaid
  obtain ⟨-, hslot, -⟩ := hpaid
  have hplaced : t.nsc.print = s.nsc.print := hslot.trans (hprint.trans (by rw [hu]))
  obtain ⟨hlif, htx⟩ := accepted_line (q := q) (v := []) (rest := rest) (s := s) (u := closeLeg i l.emptied u)
    (by simp [hu]) (by simp [hu])
  rw [← ht] at hlif htx
  have hstations : t.lif.stations = s.lif.stations := by simp [ht, hu]
  refine ⟨ht ▸ answered_accept (by simp [hu]), ⟨hlif.trans (by rw [hstations]), htx⟩, hclosed, ?_, ?_⟩
  · have := closeLeg_voided_acc (i := i) (l := l.emptied) (s := u) rfl
    simpa [ht, hu] using this
  · apply State.ext <;> simp [ht, hu]
    case nsc =>
      apply Nsc.ext <;> simp
      simpa [ht, hu] using hplaced
    · apply Cab.ext <;> simp
    · apply Icm.ext <;> simp

theorem ite_lt_eq_none {α : Type} {k m : Nat} {x : Option α} :
    (if k < m + 1 then x else none) = none ↔ m < k ∨ x = none := by
  by_cases h : k < m + 1
  · rw [if_pos h]
    exact ⟨.inr, fun hx => hx.resolve_left (by omega)⟩
  · rw [if_neg h]
    exact ⟨fun _ => .inl (by omega), fun _ => rfl⟩

/-! ### EXTRA and FLAT (04 R60, R61) -/

/-- The states of a leg in which EXTRA and FLAT are refused. -/
abbrev Leg.FareFixed (l : Leg) : Prop :=
  l.phase = .paying ∨ l.phase = .closing ∨ (l.phase = .held ∧ l.tenders ≠ [])

/-- An EXTRA of a named leg by its checks. -/
theorem extraBody_named {q : QFrame} {i : Fin 4} {l : Leg} {s : State} (h : LegNamed q i l s) (e : Station)
    (rest : List QFrame) : extraBody q e { s with lif.queue := rest }
    = if l.FareFixed then refuse q .state { s with lif.queue := rest }
      else match (if q.at 2 1 < 7 + 1 then extraKind s (q.at 2 1) else none) with
        | none => refuse q .range { s with lif.queue := rest }
        | some x =>
          if l.extraCounts.getD (q.at 2 1) 0 < x.max then
            accept q (le 2 l.number ++ le 1 (q.at 2 1) ++ le 1 (l.extraCounts.getD (q.at 2 1) 0 + 1))
              (totalChanged i (Leg.addExtra x.amount
                { l with extraCounts := l.extraCounts.set (q.at 2 1) (l.extraCounts.getD (q.at 2 1) 0 + 1) })
                { s with lif.queue := rest })
          else accept q (le 2 l.number ++ le 1 (q.at 2 1) ++ le 1 (l.extraCounts.getD (q.at 2 1) 0))
            { s with lif.queue := rest } := by
  rw [show extraBody q e { s with lif.queue := rest } = _ from withLeg_named h rest _]
  by_cases hfixed : l.FareFixed
  · rw [if_pos hfixed, if_pos (l.fareFixed_iff.2 hfixed)]
  · rw [if_neg hfixed, if_neg (fun h => hfixed (l.fareFixed_iff.1 h))]
    rfl

/-- A FLAT of a named leg by its checks. -/
theorem flatBody_named {q : QFrame} {i : Fin 4} {l : Leg} {s : State} (h : LegNamed q i l s) (e : Station)
    (rest : List QFrame) : flatBody q e { s with lif.queue := rest }
    = if l.FareFixed then refuse q .state { s with lif.queue := rest }
      else match (if q.at 2 1 < 5 + 1 then zoneFare s (q.at 2 1) else none) with
        | none => refuse q .range { s with lif.queue := rest }
        | some f => accept q [] (totalChanged i (l.convert (q.at 2 1) f) { s with lif.queue := rest }) := by
  rw [show flatBody q e { s with lif.queue := rest } = _ from withLeg_named h rest _]
  by_cases hfixed : l.FareFixed
  · rw [if_pos hfixed, if_pos (l.fareFixed_iff.2 hfixed)]
  · rw [if_neg hfixed, if_neg (fun h => hfixed (l.fareFixed_iff.1 h))]
    rfl

theorem ite_lt_eq_some {α : Type} {k m : Nat} {x : Option α} {a : α} :
    (if k < m + 1 then x else none) = some a ↔ ¬ m < k ∧ x = some a := by
  by_cases h : k < m + 1
  · simp [h, Nat.le_of_lt_succ h]
  · simp [h]
    omega

/-- Settles O39. -/
theorem voidExtraAndFlatActOnLeg : Obligations.VoidExtraAndFlatActOnLeg := by
  refine ⟨fun q e rest i l s hasks hnamed => ⟨_, takes_asks voidBody hasks, ?_⟩, ?_, ?_⟩
  · rw [voidBody_named hnamed]
    change if l.phase ≠ .opened ∨ 0 < l.steps ∨ extrasAbove s l = true then _ else _
    by_cases hrefused : l.phase ≠ .opened ∨ 0 < l.steps ∨ extrasAbove s l = true
    · rw [if_pos hrefused, if_pos hrefused]
      exact onlyRefused_letGo_refuse q .state rest s
    · rw [if_neg hrefused, if_neg hrefused]
      exact voidEmptiesLeg
  · intro q e rest i l s hasks hnamed k n
    refine ⟨_, takes_asks extraBody hasks, ?_⟩
    rw [extraBody_named hnamed]
    by_cases hfixed : l.FareFixed
    · rw [if_pos hfixed, if_pos hfixed]
      exact refused_fares
    rw [if_neg hfixed, if_neg hfixed]
    cases hkind : (if q.at 2 1 < 7 + 1 then extraKind s (q.at 2 1) else none) with
    | none =>
      rw [if_pos (ite_lt_eq_none.1 hkind)]
      exact refused_fares
    | some x =>
      obtain ⟨hk, hx⟩ := ite_lt_eq_some.1 hkind
      have hkept : ¬ (7 < k ∨ extraKind s k = none) := fun h => h.elim hk (by simp [k, hx])
      rw [if_neg hkept]
      by_cases hmax : n < x.max
      · dsimp only
        rw [if_pos hmax]
        obtain ⟨hline, hflt, hdone, hrest⟩ := totalChanged_accept (q := q)
          (v := le 2 l.number ++ le 1 k ++ le 1 (n + 1)) (rest := rest) (i := i) (l := l)
          (l' := Leg.addExtra x.amount { l with extraCounts := l.extraCounts.set k (n + 1) }) (s := s) rfl
        refine ⟨hline, hflt, fun y hy => ?_, hrest⟩
        obtain rfl : x = y := Option.some.inj (hx.symm.trans hy)
        rw [if_pos hmax]
        exact hdone
      · dsimp only
        rw [if_neg hmax]
        obtain ⟨hline, hflt, hdone, hrest⟩ := accepted_fares (q := q)
          (v := le 2 l.number ++ le 1 k ++ le 1 n) (rest := rest) (s := s)
        refine ⟨hline, hflt, fun y hy => ?_, hrest⟩
        obtain rfl : x = y := Option.some.inj (hx.symm.trans hy)
        rw [if_neg hmax]
        exact hdone
  · intro q e rest i l s hasks hnamed z
    refine ⟨_, takes_asks flatBody hasks, ?_⟩
    rw [flatBody_named hnamed]
    by_cases hfixed : l.FareFixed
    · rw [if_pos hfixed, if_pos hfixed]
      exact refused_fares
    rw [if_neg hfixed, if_neg hfixed]
    cases hzone : (if q.at 2 1 < 5 + 1 then zoneFare s (q.at 2 1) else none) with
    | none =>
      rw [if_pos (ite_lt_eq_none.1 hzone)]
      exact refused_fares
    | some f =>
      obtain ⟨hz, hf⟩ := ite_lt_eq_some.1 hzone
      have hkept : ¬ (5 < z ∨ zoneFare s z = none) := fun h => h.elim hz (by simp [z, hf])
      rw [if_neg hkept]
      obtain ⟨hline, hflt, hdone, hrest⟩ := totalChanged_accept (q := q) (v := []) (rest := rest) (i := i) (l := l)
        (l' := l.convert z f) (s := s) rfl
      refine ⟨hline, hflt, fun y hy => ?_, hrest⟩
      obtain rfl : f = y := Option.some.inj (hf.symm.trans hy)
      exact hdone

end Sys2Proof.Machine
end

section
/-!
SETTLED OBLIGATIONS. CASH and TIP (06 R114, R115).
-/

namespace Sys2Proof.Machine

/-! ### The part as a tender is written -/

theorem Settling.start (i : Fin 4) (rest : List QFrame) (s : State) : Settling i rest s { s with lif.queue := rest } :=
  ⟨rfl, rfl, fun _ => rfl, fun _ => rfl, fun _ => rfl⟩

section
variable {i : Fin 4} {rest : List QFrame} {s u : State} (h : Settling i rest s u)
include h

theorem Settling.setLeg (l : Leg) : Settling i rest s (setLeg i l u) := by
  obtain ⟨hothers, hline, hslots, hfares, hoffers⟩ := h
  refine ⟨?_, hline, fun x => ?_, hfares, hoffers⟩
  · rw [Machine.setLeg, hothers]
  · rw [setLeg_fare]
    simp [hslots]

theorem Settling.showLeg : Settling i rest s (showLeg i u) := by
  obtain ⟨hothers, hline, hslots, hfares, hoffers⟩ := h
  refine ⟨?_, ?_, fun x => by simp [hslots], fun f => ?_, by simpa using hoffers⟩
  · apply State.ext <;> simp
    case nsc => apply Nsc.ext <;> simp <;> rw [hothers]
    all_goals rw [hothers]
  · apply Lif.ext <;> simp
    case tx => apply Transmitter.ext <;> simp <;> rw [hline]
    all_goals rw [hline]
  · cases hl : legAt u i with
    | none => simp [Machine.showLeg, hl, hfares]
    | some l => simp [showLeg_fares hl, hfares]

theorem Settling.dropUnresolved (n a : Nat) : Settling i rest s (dropUnresolved n a u) := by
  obtain ⟨hothers, hline, hslots, hfares, hoffers⟩ := h
  refine ⟨?_, hline, hslots, hfares, hoffers⟩
  rw [Machine.dropUnresolved, hothers]

/-- The claim of a leg that stays HELD is gone with a request, and a new offer is placed. -/
theorem Settling.released {q : QFrame} {v : List Byte} {l : Leg} (hl : legAt u i = some l) :
    let t := letGo (accept q v (offerLeg i (endClaim i u)))
    t.fare = { s.fare with slots := s.fare.slots.set i (some { l with claim := none }) }
      ∧ t.nsc.offers = s.nsc.offers.set i (some (offerOf { l with claim := none }))
      ∧ t.nsc.fares = u.nsc.fares ∧ LineLosing rest l.holder s t ∧ FaultsKept s t
      ∧ t.acc.jobs = pausedJobs l.holder s t ∧ t.nsc.print = pausedPrint l.holder s t
      ∧ Answered q (.accepted v) s t
      ∧ t = { s with lif := t.lif, fare := t.fare, flt := t.flt
                     nsc := { s.nsc with replies := t.nsc.replies, offers := t.nsc.offers
                                         fares := t.nsc.fares, print := t.nsc.print }
                     cab := { s.cab with watches := t.cab.watches }
                     acc := { s.acc with unresolved := u.acc.unresolved, credit := t.acc.credit, jobs := t.acc.jobs } } := by
  intro t
  obtain ⟨hothers, hline, hslots, hfares, hoffers⟩ := h
  have hset : u.fare = (Machine.setLeg i l u).fare := by rw [setLeg_self hl]
  have hfare : (endClaim i u).fare = (Machine.setLeg i { l with claim := none } u).fare := endClaim_fare hset
  have hkeeps : Kept.line u { s with lif.queue := rest } ∧ Kept.tx u { s with lif.queue := rest } := by
    refine ⟨⟨?_, ?_, ?_, ?_, ?_⟩, ?_, ?_, ?_⟩ <;> rw [hline]
  have hst : u.lif.stations = s.lif.stations := by rw [hline]
  have hst' : t.lif.stations = (endClaim i u).lif.stations := by simp [t]
  obtain ⟨hlif, htx, hflt, hans⟩ := accepted_losing (q := q) (v := v) (rest := rest) (s := s) (u := offerLeg i (endClaim i u))
    (by simpa using hkeeps.1) (by simpa using hkeeps.2) (by simp; rw [hothers]) (by simp; rw [hothers])
  refine ⟨?_, ?_, by simp [t], ?_, hflt, ?_, ?_, hans, ?_⟩
  · simp [t, hfare, setLeg_fare, hslots]
    rw [hothers]
  · have := offerLeg_of_set hfare
    simp [t, this, hoffers]
  · exact lineLosing_endClaim hl hst hst' (by rw [hothers]) (by rw [hothers]) (by simp [t]) (by simp [t])
      (by simp [t]) hlif htx
  · have := endClaim_jobs hl hst hst' (by rw [hothers])
    simpa [t] using this
  · have := endClaim_print hl hst hst' (by rw [hothers]) (by rw [hothers])
    simpa [t] using this
  · apply State.ext <;> simp [t]
    case nsc => apply Nsc.ext <;> simp <;> rw [hothers]
    case cab => apply Cab.ext <;> simp <;> rw [hothers]
    case acc => apply Acc.ext <;> simp <;> rw [hothers]
    all_goals rw [hothers]

end

/-! ### CASH (06 R114, R115) -/

/-- The part with a CASH tender of an amount written in the leg's slot. -/
def tendered (i : Fin 4) (l : Leg) (amount : Nat) (s : State) : State :=
  if amount = 0 then setLeg i l s else showLeg i (setLeg i l s)

theorem tendered_fare (i : Fin 4) (l : Leg) (amount : Nat) (s : State) :
    (tendered i l amount s).fare = (setLeg i l s).fare := by
  unfold tendered
  split <;> simp

theorem Settling.tendered {i : Fin 4} {rest : List QFrame} {s u : State} (h : Settling i rest s u) (l : Leg)
    (amount : Nat) : Settling i rest s (tendered i l amount u) := by
  unfold Machine.tendered
  split
  · exact h.setLeg l
  · exact (h.setLeg l).showLeg

theorem Leg.cashTender_eq (amount : Nat) (l : Leg) : l.cashTender amount
    = { l with tenders := if amount = 0 then l.tenders else l.tenders ++ [⟨.cash, amount⟩] } := by
  unfold Leg.cashTender
  split <;> rfl

theorem flagByte_decide (p : Prop) [Decidable p] : flagByte (decide p) = if p then 1 else 0 := by
  by_cases h : p <;> simp [flagByte, h]

/-- A CASH that is not refused and leaves a due tenders an amount above 0. -/
theorem cashAmount_pos {received : Nat} {l : Leg} (h : cashRefusal received l = none) (hdue : 0 < l.due) :
    min received l.due ≠ 0 := by
  unfold cashRefusal at h
  have hrange : ¬ (99999999 < received ∨ (received = 0 ∧ 0 < l.due)) := fun hr => by
    rw [if_pos hr] at h
    split at h <;> cases h
  omega

/-- A CASH of a named leg by its checks. -/
theorem cashBody_named {q : QFrame} {i : Fin 4} {l : Leg} {s : State} (h : LegNamed q i l s) (e : Station)
    (rest : List QFrame) : cashBody q e { s with lif.queue := rest }
    = match cashRefusal (q.at 2 4) l with
      | some c => refuse q c { s with lif.queue := rest }
      | none =>
        let amount := min (q.at 2 4) l.due
        let l' := l.cashTender amount
        let u := tendered i l' amount { s with lif.queue := rest }
        accept q (le 2 l.number ++ le 4 amount ++ le 4 (q.at 2 4 - amount) ++ le 4 l'.due
          ++ [if l'.due = 0 then 1 else 0]) (if l'.due = 0 then settle i u else offerLeg i (endClaim i u)) := by
  rw [show cashBody q e { s with lif.queue := rest } = _ from withLeg_named h rest _]
  dsimp only
  cases cashRefusal (q.at 2 4) l with
  | some c => rfl
  | none =>
    dsimp only
    obtain ⟨u, hu⟩ : ∃ u, u = tendered i (l.cashTender (min (q.at 2 4) l.due)) (min (q.at 2 4) l.due)
      { s with lif.queue := rest } := ⟨_, rfl⟩
    have hleg : legAt u i = some (l.cashTender (min (q.at 2 4) l.due)) := by
      rw [← legAt_setLeg_same i _ { s with lif.queue := rest }]
      exact legAt_congr (by rw [hu, tendered_fare]) i
    rw [← hu, ← settle_endClaim hleg, ← flagByte_decide, hu]
    rfl

/-- Settles O45. -/
theorem cashAndTipActOnDue : Obligations.CashAndTipActOnDue := by
  refine ⟨?_, fun q e rest i l s hasks hnamed => ⟨_, takes_asks tipBody hasks, ?_⟩⟩
  · intro q e rest i l s hasks hnamed received amount l' code holder
    refine ⟨_, takes_asks cashBody hasks, ?_⟩
    have hcode : code = cashRefusal (q.at 2 4) l := rfl
    rw [cashBody_named hnamed, ← hcode]
    cases hpassed : code with
    | some c => exact onlyRefused_letGo_refuse q c rest s
    | none =>
      have hpaid : { l.cashTender amount with claim := none } = l' := by rw [Leg.cashTender_eq]
      have hholder : (l.cashTender amount).holder = holder := by rw [Leg.cashTender_eq]
      have hdue : (l.cashTender amount).due = l'.due := by rw [Leg.cashTender_eq]; rfl
      have hshow : showOf (l.cashTender amount) = showOf l' := by rw [Leg.cashTender_eq]; rfl
      obtain ⟨l₁, hl₁⟩ : ∃ l₁, l₁ = l.cashTender amount := ⟨_, rfl⟩
      obtain ⟨u, hu⟩ : ∃ u, u = tendered i l₁ amount { s with lif.queue := rest } := ⟨_, rfl⟩
      have hsettling : Settling i rest s u := hu ▸ (Settling.start i rest s).tendered l₁ amount
      have hleg : legAt u i = some l₁ := by
        rw [← legAt_setLeg_same i l₁ { s with lif.queue := rest }]
        exact legAt_congr (by rw [hu, tendered_fare]) i
      have hlist : u.acc.unresolved = s.acc.unresolved := by rw [hu]; unfold tendered; split <;> simp
      rw [← hl₁] at hpaid hholder hdue hshow
      dsimp only
      rw [← hl₁, ← hu, hdue]
      by_cases hzero : l'.due = 0
      · rw [if_pos hzero, if_pos hzero, if_pos hzero]
        obtain ⟨hsettled, hans⟩ := legSettled_accept (q := q) (v := le 2 l.number ++ le 4 amount
          ++ le 4 (received - amount) ++ le 4 l'.due ++ [1]) hsettling hleg
        rw [hpaid, hholder, hlist] at hsettled
        exact ⟨hans, hsettled⟩
      · rw [if_neg hzero, if_neg hzero, if_neg hzero]
        obtain ⟨hfare, hoffers, hfares, hline, hflt, hjobs, hprint, hans, hrest⟩ := hsettling.released (q := q)
          (v := le 2 l.number ++ le 4 amount ++ le 4 (received - amount) ++ le 4 l'.due ++ [0]) hleg
        rw [hpaid] at hfare hoffers
        rw [hholder] at hline hjobs hprint
        rw [hlist] at hrest
        refine ⟨hans, hfare, hoffers, hfares.trans ?_, hline, hflt, hjobs, hprint, hrest⟩
        have hpos : amount ≠ 0 := fun h0 => by
          have hsame : l'.due = l.due := by simp [l', h0, Leg.due, Leg.total, Leg.paid]
          exact cashAmount_pos (hcode.symm.trans hpassed) (by omega) h0
        rw [hu, tendered, if_neg hpos, showLeg_of_set (l := l₁) (s := { s with lif.queue := rest }) rfl, hshow]
        rfl
  · rw [show tipBody q e { s with lif.queue := rest } = _ from withLeg_named hnamed rest _]
    by_cases hstate : l.phase ≠ .held ∨ l.tenders ≠ []
    · rw [if_pos hstate, if_pos (by simpa using hstate)]
      exact refused_fares
    rw [if_neg hstate, if_neg (by simpa using hstate)]
    by_cases hrange : 99999 < q.at 2 4
    · rw [if_pos hrange, if_pos hrange]
      exact refused_fares
    rw [if_neg hrange, if_neg hrange]
    have hheld : l.phase = .held := by
      by_contra hp
      exact hstate (.inl hp)
    obtain ⟨hline, hflt, ⟨hans, hfare, hfares, hoffers⟩, hrest⟩ := totalChanged_accept (q := q)
      (v := le 2 l.number ++ le 4 (q.at 2 4) ++ le 4 ({ l with tip := some (q.at 2 4) } : Leg).due) (rest := rest) (i := i)
      (l := l) (l' := { l with tip := some (q.at 2 4) }) (s := s) rfl
    have hchanged : totalChanged i { l with tip := some (q.at 2 4) } { s with lif.queue := rest }
        = offerLeg i (showLeg i (setLeg i { l with tip := some (q.at 2 4) } { s with lif.queue := rest })) := by
      rw [totalChanged, if_pos hheld]
    rw [hchanged] at hline hflt hans hfare hfares hoffers hrest
    rw [if_pos hheld] at hoffers
    exact ⟨hline, hflt, ⟨hans, hfare, hoffers, hfares⟩, hrest⟩

end Sys2Proof.Machine
end

section
/-!
SETTLED OBLIGATIONS. PAY_RESULT for the attempt in flight (06 R105 to R107).
-/

namespace Sys2Proof.Machine

theorem Settling.fare {i : Fin 4} {rest : List QFrame} {s u : State} (h : Settling i rest s u) {l : Leg}
    (hl : legAt u i = some l) : u.fare = { s.fare with slots := s.fare.slots.set i (some l) } := by
  have hset : u.fare = (Machine.setLeg i l u).fare := by rw [setLeg_self hl]
  rw [hset, setLeg_fare, h.slots, h.others]

/-- A request that wrote a leg's slot is answered. -/
theorem Settling.answered {i : Fin 4} {rest : List QFrame} {s u : State} (h : Settling i rest s u) {q : QFrame}
    {v : List Byte} {l : Leg} (hl : legAt u i = some l) :
    let t := letGo (accept q v u)
    t.fare = { s.fare with slots := s.fare.slots.set i (some l) }
      ∧ t.nsc.offers = u.nsc.offers ∧ t.nsc.fares = u.nsc.fares
      ∧ Answered q (.accepted v) s t ∧ LineKept rest s t ∧ FaultsKept s t
      ∧ t = { s with lif := t.lif, fare := t.fare, flt := t.flt, acc := { s.acc with unresolved := u.acc.unresolved }
                     nsc := { s.nsc with replies := t.nsc.replies, offers := t.nsc.offers
                                         fares := t.nsc.fares } } := by
  intro t
  have hfare := h.fare hl
  obtain ⟨hothers, hline, -, -, -⟩ := h
  obtain ⟨hkept, hflt, hans⟩ := accepted_leaves (q := q) (v := v) hline (by rw [hothers]) (by rw [hothers])
  refine ⟨by simpa [t] using hfare, by simp [t], by simp [t], hans, hkept, hflt, ?_⟩
  apply State.ext <;> simp [t]
  case nsc => apply Nsc.ext <;> simp <;> rw [hothers]
  all_goals rw [hothers]

theorem Settling.offerLeg {i : Fin 4} {rest : List QFrame} {s u : State} (h : Settling i rest s u) :
    Settling i rest s (offerLeg i u) := by
  obtain ⟨hothers, hline, hslots, hfares, hoffers⟩ := h
  refine ⟨?_, ?_, fun x => by simp [hslots], by simpa using hfares, fun o => ?_⟩
  · apply State.ext <;> simp
    case nsc => apply Nsc.ext <;> simp <;> rw [hothers]
    all_goals rw [hothers]
  · apply Lif.ext <;> simp
    case tx => apply Transmitter.ext <;> simp <;> rw [hline]
    all_goals rw [hline]
  · cases hl : legAt u i with
    | none => simp [Machine.offerLeg, hl, hoffers]
    | some l => simp [offerLeg_offers hl, hoffers]

/-- A leg written in its slot, shown and offered. -/
def reshown (i : Fin 4) (l : Leg) (s : State) : State := offerLeg i (showLeg i (setLeg i l s))

theorem Settling.reshown {i : Fin 4} {rest : List QFrame} {s u : State} (h : Settling i rest s u) (l : Leg) :
    Settling i rest s (reshown i l u) := (h.setLeg l).showLeg.offerLeg

section
variable (i : Fin 4) (l : Leg) (s : State)

theorem reshown_legAt : legAt (reshown i l s) i = some l := by
  rw [← legAt_setLeg_same i l s]
  exact legAt_congr (by simp [reshown]) i

theorem reshown_unresolved : (reshown i l s).acc.unresolved = s.acc.unresolved := by simp [reshown]

theorem reshown_offers : (reshown i l s).nsc.offers = s.nsc.offers.set i (some (offerOf l)) := by
  have := offerLeg_of_set (i := i) (l := l) (s := s) (u := showLeg i (setLeg i l s)) (by simp)
  simpa [reshown] using this

theorem reshown_fares : (reshown i l s).nsc.fares = s.nsc.fares.set i (some (showOf l)) := by
  have := showLeg_of_set (i := i) (l := l) (s := s) rfl
  simpa [reshown] using this

end

/-! ### The outcome of a PAY_RESULT (06 R105) -/

/-- A PAY_RESULT that names no outcome, or an approval of 0. -/
abbrev QFrame.NoResult (q : QFrame) : Prop :=
  (q.at 3 1 ≠ 1 ∧ q.at 3 1 ≠ 2 ∧ q.at 3 1 ≠ 3) ∨ (q.at 3 1 = 1 ∧ q.at 4 4 = 0)

theorem ofCode_eq (n : Nat) : ResultOutcome.ofCode n
    = if n = 1 then some .approved else if n = 2 then some .declined else if n = 3 then some .cancelled else none := by
  match n with
  | 0 | 1 | 2 | 3 => rfl
  | n + 4 => simp [ResultOutcome.ofCode]

theorem result_eq (q : QFrame) : q.result = if q.NoResult then none
    else if q.at 3 1 = 1 then some .approved else if q.at 3 1 = 2 then some .declined else some .cancelled := by
  unfold QFrame.result
  rw [ofCode_eq]
  by_cases h1 : q.at 3 1 = 1
  · by_cases h0 : q.at 4 4 = 0 <;> simp [h1, h0, QFrame.NoResult]
  by_cases h2 : q.at 3 1 = 2
  · simp [h2, QFrame.NoResult]
  by_cases h3 : q.at 3 1 = 3 <;> simp [h1, h2, h3, QFrame.NoResult]

/-- A PAY_RESULT for an attempt of a leg in the table. -/
theorem payResultBody_named {q : QFrame} {i : Fin 4} {l : Leg} {a : Attempt} {s : State} (h : LegNamed q i l s)
    (ha : l.attempts.find? (fun x => x.number = q.at 2 1) = some a) (e : Station) (rest : List QFrame) :
    payResultBody q e { s with lif.queue := rest } = resultOnLeg q e.role i l a { s with lif.queue := rest } := by
  obtain ⟨hfind, hleg⟩ := h
  have hfind' : findLeg { s with lif.queue := rest } q.leg = some i := hfind
  have hleg' : legAt { s with lif.queue := rest } i = some l := hleg
  have ha' : l.findAttempt (q.at 2 1) = some a := ha
  simp only [payResultBody, hfind', hleg', ha']

/-! ### The attempt in flight (06 R106, R107) -/

/-- The checks of a PAY_RESULT for the attempt in flight. -/
def resultCode (q : QFrame) (e : Station) (l : Leg) (a : Attempt) : Option RefusalCode :=
  if q.NoResult then some .range
  else if (l.claim.all (fun c => decide (c.holder ≠ q.src ∨ c.role ≠ e.role))) = true then some .notHolder
  else if q.at 3 1 = 1 ∧ 3 ≤ l.tenders.length ∧ q.at 4 4 < a.requested then some .limit
  else none

/-- The leg to which the approval of an attempt has been applied. -/
def approvedLeg (q : QFrame) (l : Leg) (a : Attempt) (st : AttemptState) : Leg :=
  { l with
    tenders := l.tenders ++ [⟨.card a.number ((q.payload.drop 8).take 6), min (q.at 4 4) a.requested⟩]
    attempts := l.attempts.map (fun x => if x.number = a.number then { x with state := st } else x) }

/-- What an approval of the attempt in flight makes of the part. -/
def approved (q : QFrame) (i : Fin 4) (l : Leg) (a : Attempt) (s : State) : State :=
  let l₁ := approvedLeg q l a .approved
  let u := showLeg i (setLeg i l₁ s)
  if l₁.due = 0 then accept q (le 2 l.number ++ le 1 a.number ++ le 4 (min (q.at 4 4) a.requested) ++ le 4 0 ++ [1])
    (settle i u)
  else accept q (le 2 l.number ++ le 1 a.number ++ le 4 (min (q.at 4 4) a.requested) ++ le 4 l₁.due ++ [0])
    (offerLeg i (showLeg i (setLeg i (l₁.backToHeld u.time) u)))

/-- A PAY_RESULT for the attempt in flight by its checks. -/
theorem resultOnLeg_flying {q : QFrame} {e : Station} {i : Fin 4} {l : Leg} {a : Attempt} {d : Moment} {s : State}
    (hflying : a.state = .inFlight d) : resultOnLeg q e.role i l a s
    = match resultCode q e l a with
      | some c => refuse q c s
      | none => if q.at 3 1 = 1 then approved q i l a s
        else accept q (le 2 l.number ++ le 1 a.number ++ le 4 0 ++ le 4 l.due ++ [0])
          (cardDecline i l a (if q.at 3 1 = 2 then .declined else .cancelled) s) := by
  unfold resultOnLeg resultCode
  rw [result_eq, hflying, ← Leg.not_heldBy]
  by_cases hbad : q.NoResult
  · rw [if_pos hbad, if_pos hbad]
  rw [if_neg hbad, if_neg hbad]
  by_cases hholder : (!l.heldBy q.src e.role) = true
  · rw [if_pos hholder]
    by_cases hone : q.at 3 1 = 1
    · simp [hone, hholder]
    · by_cases htwo : q.at 3 1 = 2 <;> simp [hone, htwo, hholder]
  rw [if_neg hholder]
  by_cases hone : q.at 3 1 = 1
  · rw [if_pos hone, if_pos hone]
    dsimp only
    rw [if_neg hholder, if_pos rfl, cardApproval]
    by_cases hlimit : 3 ≤ l.tenders.length ∧ q.at 4 4 < a.requested
    · rw [if_pos hlimit, if_pos ⟨hone, hlimit⟩]
    · have hpass : ¬ (q.at 3 1 = 1 ∧ 3 ≤ l.tenders.length ∧ q.at 4 4 < a.requested) := fun h => hlimit h.2
      rw [if_neg hlimit, if_neg hpass]
      rfl
  · have hpass : ¬ (q.at 3 1 = 1 ∧ 3 ≤ l.tenders.length ∧ q.at 4 4 < a.requested) := fun h => hone h.1
    rw [if_neg hone, if_neg hone, if_neg hpass]
    by_cases htwo : q.at 3 1 = 2
    · rw [if_pos htwo, if_pos htwo]
      dsimp only
      rw [if_neg hholder]
      rfl
    · rw [if_neg htwo, if_neg htwo]
      dsimp only
      rw [if_neg hholder]
      rfl

/-- Settles O42. -/
theorem payResultEndsAttempt : Obligations.PayResultEndsAttempt := by
  intro q e rest i l a d s hasks hnamed hfind hflying outcome approved' amount mark paid code
  refine ⟨_, takes_asks payResultBody hasks, ?_⟩
  have hcode : code = resultCode q e l a := rfl
  rw [payResultBody_named hnamed hfind, resultOnLeg_flying hflying, ← hcode]
  cases code with
  | some c => exact onlyRefused_letGo_refuse q c rest s
  | none =>
    dsimp only
    by_cases hone : outcome = 1
    · rw [if_pos hone, if_pos hone]
      let l₁ := approvedLeg q l a .approved
      change if l₁.due = 0 then _ else _
      obtain ⟨u, hu⟩ : ∃ u, u = showLeg i (setLeg i l₁ { s with lif.queue := rest }) := ⟨_, rfl⟩
      have hsettling : Settling i rest s u := hu ▸ ((Settling.start i rest s).setLeg l₁).showLeg
      have hlist : u.acc.unresolved = s.acc.unresolved := by simp [hu]
      have htime : u.time = s.time := by simp [hu]
      have hleg : legAt u i = some l₁ := by
        rw [← legAt_setLeg_same i l₁ { s with lif.queue := rest }]
        exact legAt_congr (by simp [hu]) i
      have happroved : approved q i l a { s with lif.queue := rest } = if l₁.due = 0 then
          accept q (le 2 l.number ++ le 1 a.number ++ le 4 amount ++ le 4 0 ++ [1]) (settle i u)
        else accept q (le 2 l.number ++ le 1 a.number ++ le 4 amount ++ le 4 l₁.due ++ [0])
          (reshown i (l₁.backToHeld u.time) u) := by
        rw [hu]
        rfl
      rw [happroved, htime]
      by_cases hzero : l₁.due = 0
      · rw [if_pos hzero, if_pos hzero]
        obtain ⟨hsettled, hans⟩ := legSettled_accept (q := q)
          (v := le 2 l.number ++ le 1 a.number ++ le 4 amount ++ le 4 0 ++ [1]) hsettling hleg
        rw [hlist] at hsettled
        exact ⟨hans, hsettled⟩
      · rw [if_neg hzero, if_neg hzero]
        obtain ⟨hfare, hoffers, hfares, hans, hline, hflt, hrest⟩ := (hsettling.reshown (l₁.backToHeld s.time)).answered
          (q := q) (v := le 2 l.number ++ le 1 a.number ++ le 4 amount ++ le 4 l₁.due ++ [0]) (reshown_legAt i _ u)
        rw [reshown_unresolved, hlist] at hrest
        refine ⟨hfare, hoffers.trans ?_, hfares.trans ?_, hans, hline, hflt, hrest⟩
        · rw [reshown_offers]
          exact hsettling.offers _
        · rw [reshown_fares]
          exact hsettling.fares _
    · rw [if_neg hone, if_neg hone]
      obtain ⟨hline, hflt, hans⟩ := accepted_leaves (q := q)
        (v := le 2 l.number ++ le 1 a.number ++ le 4 0 ++ le 4 l.due ++ [0]) (rest := rest) (s := s)
        (u := cardDecline i l a (if outcome = 2 then .declined else .cancelled) { s with lif.queue := rest })
        (lif_eq_of_kept (s := { s with lif.queue := rest }) (by simp) (by simp) (by simp)) (by simp) (by simp)
      refine ⟨?_, ?_, ?_, hans, ?_, hline, hflt, ?_⟩
      · simp [cardDecline_fare]; rfl
      · simp [cardDecline_offers]; rfl
      · simp [cardDecline_fares]; rfl
      · simp [cardDecline_prompts, promptSpeaker_rest]
      · apply State.ext <;> simp
        · apply Nsc.ext <;> simp
        · apply Icm.ext <;> simp

end Sys2Proof.Machine
end

section
/-!
SETTLED OBLIGATIONS. Late results (06 R110 to R113).
-/

namespace Sys2Proof.Machine

/-- What a refused request that has had an effect leaves of the line interface and the faults, and its answer. -/
theorem refused_leaves {q : QFrame} {c : RefusalCode} {rest : List QFrame} {s u : State}
    (hline : u.lif = { s.lif with queue := rest, tx := { s.lif.tx with renewed := u.lif.tx.renewed } })
    (hreplies : u.nsc.replies = s.nsc.replies) (hflt : u.flt = s.flt) :
    LineKept rest s (letGo (refuse q c u)) ∧ FaultsKept s (letGo (refuse q c u))
      ∧ Answered q (.refused c) s (letGo (refuse q c u)) :=
  ⟨lineKept_letGo (by simpa using hline), faultsKept_refuse hreplies hflt, answered_refuse hreplies⟩

/-! ### A late approval is listed (06 R112, 08 R154) -/

theorem enterLate_acc (x : Late) (s : State) : (enterLate x s).acc = { s.acc with
    late := if s.acc.late.length < 8 then s.acc.late ++ [x] else s.acc.late
    shift := { s.acc.shift with totals := { s.acc.shift.totals with
      lateCount := min 65535 (s.acc.shift.totals.lateCount + 1)
      lateSum := min 999999999 (s.acc.shift.totals.lateSum + x.amount) } } } := by
  unfold enterLate
  simp only [placeItem_frame]
  rfl

/-- The part with a late approval entered in the list, its unresolved entry gone, and its row asked for. -/
def listed (x : Late) (s : State) : State :=
  claimEventIfOpen s.odo.clock (.lateApproval x.leg x.attempt x.amount) (dropUnresolved x.leg x.attempt (enterLate x s))

theorem listLate_eq (q : QFrame) (n a amount : Nat) (reference : List Byte) (s : State) :
    listLate q n a amount reference s = refuse q .tooLate (listed ⟨n, a, amount, reference⟩ s) := by
  have hodo : (dropUnresolved n a (enterLate ⟨n, a, amount, reference⟩ s)).odo = s.odo := by simp
  unfold listLate listed
  dsimp only
  rw [hodo]

section
variable (x : Late) (s : State)

theorem listed_acc : ∃ n, (listed x s).acc = { (dropUnresolved x.leg x.attempt (enterLate x s)).acc with
    shift.totals.notJournalled := n } := by
  unfold listed
  rw [claimEventIfOpen_acc]
  split
  · exact ⟨_, rfl⟩
  · exact ⟨_, rfl⟩

theorem placeItem_fleet_congr {it : FleetItem} {u s : State} (h : u.nsc = s.nsc) :
    (placeItem it u).nsc.fleet = (placeItem it s).nsc.fleet := by
  unfold placeItem
  rw [h]
  split <;> simp

theorem listed_fleet : (listed x s).nsc.fleet
    = (placeItem (.lateApproval s.acc.shift.number x.leg x.attempt x.amount x.reference) s).nsc.fleet := by
  simp only [listed, claimEventIfOpen_frame, dropUnresolved]
  exact placeItem_fleet_congr rfl

end

/-- What listing a late approval leaves of the part, after a request of frames `rest` that may have written a slot. -/
theorem listLate_leaves {q : QFrame} {n a amount : Nat} {reference : List Byte} {rest : List QFrame} {s u : State}
    (hu : u = { s with lif.queue := rest, fare := u.fare }) (hoccupied : occupied u = occupied s) :
    let t := letGo (listLate q n a amount reference u)
    t.fare = u.fare
      ∧ t.acc.unresolved = s.acc.unresolved.filter (fun x => !(x.leg == n && x.attempt == a))
      ∧ Answered q (.refused .tooLate) s t ∧ LineKept rest s t ∧ FaultsKept s t
      ∧ t.nsc.fleet.filter (fun x => decide (x.kind ≠ .lateApproval))
          = s.nsc.fleet.filter (fun x => decide (x.kind ≠ .lateApproval))
      ∧ FleetItem.lateApproval s.acc.shift.number n a amount reference ∈ t.nsc.fleet
      ∧ t = { s with lif := t.lif, fare := t.fare, flt := t.flt, jnl := t.jnl
                     acc := { s.acc with unresolved := t.acc.unresolved, late := t.acc.late, shift := t.acc.shift }
                     nsc := { s.nsc with replies := t.nsc.replies, fleet := t.nsc.fleet } }
      ∧ t.acc.late = (if s.acc.late.length < 8 then s.acc.late ++ [⟨n, a, amount, reference⟩] else s.acc.late)
      ∧ t.acc.shift.totals.lateCount = min 65535 (s.acc.shift.totals.lateCount + 1)
      ∧ t.acc.shift.totals.lateSum = min 999999999 (s.acc.shift.totals.lateSum + amount)
      ∧ EventAsked s.odo.clock (.lateApproval n a amount)
          (dropUnresolved n a (enterLate ⟨n, a, amount, reference⟩ s)) t := by
  intro t
  obtain ⟨x, hx⟩ : ∃ x : Late, x = ⟨n, a, amount, reference⟩ := ⟨_, rfl⟩
  obtain ⟨w, hw⟩ : ∃ w, w = listed x u := ⟨_, rfl⟩
  have ht : t = letGo (refuse q .tooLate w) := by rw [hw, hx, ← listLate_eq]
  have hacc : u.acc = s.acc := by rw [hu]
  have hnsc : u.nsc = s.nsc := by rw [hu]
  have hodo : u.odo = s.odo := by rw [hu]
  obtain ⟨m, hm⟩ := listed_acc x u
  rw [dropUnresolved, enterLate_acc, ← hw, hx, hacc] at hm
  have htacc : t.acc = w.acc := by simp [ht]
  have hfleet : t.nsc.fleet = (placeItem (.lateApproval s.acc.shift.number n a amount reference) s).nsc.fleet := by
    have := listed_fleet x u
    rw [← hw, hx, hacc, placeItem_fleet_congr hnsc] at this
    simpa [ht] using this
  obtain ⟨hline, hflt, hans⟩ := refused_leaves (q := q) (c := .tooLate) (rest := rest) (s := s) (u := w)
    (lif_eq_of_kept (s := { s with lif.queue := rest }) (by simp [hw, listed]; rw [hu]; simp) (by simp [hw, listed]; rw [hu]; simp)
      (by simp [hw, listed]; rw [hu])) (by simp [hw, listed]; rw [hu]) (by simp [hw, listed]; rw [hu])
  refine ⟨by simp [ht, hw, listed], ?_, ht ▸ hans, ht ▸ hline, ht ▸ hflt, ?_, ?_, ?_, ?_, ?_, ?_, ?_⟩
  · rw [htacc, hm]
    rfl
  · rw [hfleet]
    exact placeItem_fleet_otherKinds (.lateApproval s.acc.shift.number n a amount reference) s
  · rw [hfleet]
    exact (placeItem_fleet _ s).1
  · apply State.ext <;> simp [ht, hw, listed]
    case nsc => apply Nsc.ext <;> simp <;> rw [hu]
    case acc => apply Acc.ext <;> simp <;> rw [hu]
    all_goals rw [hu]
  · rw [htacc, hm]
  · rw [htacc, hm]
  · rw [htacc, hm]
  · refine eventAsked_of_alike (u := dropUnresolved n a (enterLate x u)) ⟨?_, ?_, ?_, ?_, ?_⟩ ?_ ?_
    · simp; rw [hu]
    · simp; rw [hu]
    · simp; rw [hu]
    · rw [dropUnresolved, dropUnresolved, enterLate_acc, enterLate_acc, hx, hacc]
    · rw [occupied_congr (u := dropUnresolved n a (enterLate x u)) (s := u) (by simp),
        occupied_congr (u := dropUnresolved n a (enterLate _ s)) (s := s) (by simp), hoccupied]
    · rw [← hodo]
      simp [ht, hw, listed, hx]
    · rw [← hodo]
      simp [ht, hw, listed, hx]

/-! ### PAY_RESULT for an attempt not in flight (06 R105, R110, R111, R113) -/

section
variable {q : QFrame} {r : Role} {i : Fin 4} {l : Leg} {a : Attempt} {s : State}

theorem resultOnLeg_bad (hbad : q.NoResult) : resultOnLeg q r i l a s = refuse q .range s := by
  unfold resultOnLeg
  rw [result_eq, if_pos hbad]

theorem result_of_good (hbad : ¬ q.NoResult) : q.result
    = some (if q.at 3 1 = 1 then .approved else if q.at 3 1 = 2 then .declined else .cancelled) := by
  rw [result_eq, if_neg hbad]
  by_cases hone : q.at 3 1 = 1
  · rw [if_pos hone, if_pos hone]
  rw [if_neg hone, if_neg hone]
  by_cases htwo : q.at 3 1 = 2
  · rw [if_pos htwo, if_pos htwo]
  · rw [if_neg htwo, if_neg htwo]

theorem resultOnLeg_ended (hbad : ¬ q.NoResult)
    (hended : a.state = .approved ∨ a.state = .declined ∨ a.state = .cancelled ∨ a.state = .approvedLate) :
    resultOnLeg q r i l a s = refuse q .state s := by
  unfold resultOnLeg
  rw [result_of_good hbad]
  rcases hended with h | h | h | h <;> rw [h]

/-- The outcome of a result that is no approval, as the attempt takes it. -/
abbrev QFrame.ending (q : QFrame) : AttemptState := if q.at 3 1 = 2 then .declined else .cancelled

theorem resultOnLeg_late (hbad : ¬ q.NoResult) (hlate : a.state = .indeterminate) : resultOnLeg q r i l a s
    = if a.starter ≠ q.src then refuse q .notHolder s
      else if q.at 3 1 = 1 then lateApproval q i l a (q.at 4 4) ((q.payload.drop 8).take 6) s
      else accept q (le 2 l.number ++ le 1 a.number ++ le 4 0)
        (dropUnresolved l.number a.number (setLeg i (l.setAttempt a.number q.ending) s)) := by
  unfold resultOnLeg
  rw [result_of_good hbad, hlate]
  dsimp only
  by_cases hstarter : a.starter ≠ q.src
  · rw [if_pos hstarter, if_pos hstarter]
  rw [if_neg hstarter, if_neg hstarter]
  by_cases hone : q.at 3 1 = 1
  · rw [if_pos hone, if_pos hone, if_pos rfl]
    rfl
  rw [if_neg hone, if_neg hone]
  by_cases htwo : q.at 3 1 = 2
  · rw [if_pos htwo, QFrame.ending, if_pos htwo]
    rfl
  · rw [if_neg htwo, QFrame.ending, if_neg htwo]
    rfl

/-- A late approval is applied to a HELD leg that can take it. -/
abbrev Leg.Takes (l : Leg) (amount : Nat) : Prop :=
  l.phase = .held ∧ amount ≤ l.due ∧ (l.tenders.length < 3 ∨ amount = l.due)

theorem lateApproval_eq (approved : Nat) (reference : List Byte) : lateApproval q i l a approved reference s
    = if l.phase = .paying then refuse q .busy s
      else if l.phase = .opened then refuse q .state s
      else if l.Takes (min approved a.requested) then applyLate q i l a (min approved a.requested) reference s
      else listLate q l.number a.number (min approved a.requested) reference
        (setLeg i (l.setAttempt a.number .approvedLate) s) := by
  unfold lateApproval Leg.Takes
  cases hp : l.phase <;> simp

theorem applyLate_eq (amount : Nat) (hamount : amount = min (q.at 4 4) a.requested) :
    applyLate q i l a amount ((q.payload.drop 8).take 6) s
    = let l' := approvedLeg q l a .approvedLate
      let u := showLeg i (dropUnresolved l.number a.number (setLeg i l' s))
      accept q (le 4 amount ++ le 4 l'.due ++ [if l'.due = 0 then 1 else 0])
        (if l'.due = 0 then settle i u else offerLeg i u) := by
  unfold applyLate appliedValues
  subst hamount
  have hleg : (l.cardTender a.number (min (q.at 4 4) a.requested) ((q.payload.drop 8).take 6)).setAttempt a.number
      .approvedLate = approvedLeg q l a .approvedLate := rfl
  rw [hleg]
  simp only [flagByte_decide]
  exact (apply_ite _ _ _ _).symm

end

/-- Of a leg that can take a late approval, the approval leaves no due exactly where it is the due. -/
theorem approvedLeg_due (q : QFrame) (l : Leg) (a : Attempt) (st : AttemptState) :
    (approvedLeg q l a st).due = l.due - min (q.at 4 4) a.requested := by
  simp only [approvedLeg, Leg.due, Leg.total, Leg.paid, List.map_append, List.sum_append]
  simp
  omega

/-- A late approval that a HELD leg takes. -/
theorem applyLate_leaves {q : QFrame} {rest : List QFrame} {i : Fin 4} {l : Leg} {a : Attempt} {s : State} {amount : Nat}
    (hamount : amount = min (q.at 4 4) a.requested) (hdue : amount ≤ l.due) :
    let t := letGo (applyLate q i l a amount ((q.payload.drop 8).take 6) { s with lif.queue := rest })
    let l' := approvedLeg q l a .approvedLate
    let kept := s.acc.unresolved.filter (fun u => !(u.leg == l.number && u.attempt == a.number))
    Answered q (.accepted (le 4 amount ++ le 4 l'.due ++ [if l'.due = 0 then 1 else 0])) s t
      ∧ (if amount = l.due then
          LegSettled i { l' with claim := none } (l.claim.map (fun c => c.holder)) kept rest s t
        else t.fare = { s.fare with slots := s.fare.slots.set i (some l') }
          ∧ t.nsc.offers = s.nsc.offers.set i (some (offerOf l'))
          ∧ t.nsc.fares = s.nsc.fares.set i (some (showOf l')) ∧ LineKept rest s t ∧ FaultsKept s t
          ∧ t = { s with lif := t.lif, fare := t.fare, flt := t.flt, acc := { s.acc with unresolved := kept }
                         nsc := { s.nsc with replies := t.nsc.replies, offers := t.nsc.offers
                                             fares := t.nsc.fares } }) := by
  intro t l' kept
  obtain ⟨u, hu⟩ : ∃ u, u = showLeg i (dropUnresolved l.number a.number (setLeg i l' { s with lif.queue := rest })) :=
    ⟨_, rfl⟩
  have hsettling : Settling i rest s u :=
    hu ▸ (((Settling.start i rest s).setLeg l').dropUnresolved l.number a.number).showLeg
  have hset : u.fare = (setLeg i l' { s with lif.queue := rest }).fare := by simp [hu]
  have hleg : legAt u i = some l' := (legAt_congr hset i).trans (legAt_setLeg_same i l' _)
  have hlist : u.acc.unresolved = kept := by simp [hu, dropUnresolved, sameAttempt, kept]
  have hzero : l'.due = 0 ↔ amount = l.due := by
    rw [approvedLeg_due, ← hamount]
    omega
  have ht : t = letGo (accept q (le 4 amount ++ le 4 l'.due ++ [if l'.due = 0 then 1 else 0])
      (if l'.due = 0 then settle i u else offerLeg i u)) := by
    rw [hu]
    exact congrArg letGo (applyLate_eq amount hamount)
  obtain ⟨v, hv⟩ : ∃ v, v = le 4 amount ++ le 4 l'.due ++ [if l'.due = 0 then 1 else 0] := ⟨_, rfl⟩
  rw [← hv] at ht ⊢
  by_cases hpaid : amount = l.due
  · rw [if_pos (hzero.2 hpaid)] at ht
    rw [if_pos hpaid, ht]
    obtain ⟨hsettled, hans⟩ := legSettled_accept (q := q) (v := v) hsettling hleg
    rw [hlist] at hsettled
    exact ⟨hans, hsettled⟩
  · rw [if_neg (fun h => hpaid (hzero.1 h))] at ht
    rw [if_neg hpaid, ht]
    have hoffered : legAt (offerLeg i u) i = some l' := (legAt_congr (by simp) i).trans hleg
    obtain ⟨hfare, hoffers, hfares, hans, hline, hflt, hrest⟩ := hsettling.offerLeg.answered (q := q) (v := v) hoffered
    refine ⟨hans, hfare, hoffers.trans ?_, hfares.trans ?_, hline, hflt, ?_⟩
    · rw [offerLeg_of_set hset, hsettling.offers]
    · rw [hu]
      have := showLeg_of_set (l := l') (s := s) (u := dropUnresolved l.number a.number (setLeg i l' { s with lif.queue := rest })) (i := i) rfl
      simpa using this
    · have hkept : (offerLeg i u).acc.unresolved = kept := by simpa using hlist
      rw [← hkept]
      exact hrest

/-- A late decline, as its request leaves the part (06 R113). -/
theorem lateDecline_leaves {q : QFrame} {rest : List QFrame} {i : Fin 4} {l : Leg} {a : Attempt} {st : AttemptState}
    {v : List Byte} {s : State} :
    let t := letGo (accept q v
      (dropUnresolved l.number a.number (setLeg i (l.setAttempt a.number st) { s with lif.queue := rest })))
    Answered q (.accepted v) s t
      ∧ t.fare = { s.fare with slots := s.fare.slots.set i (some (l.setAttempt a.number st)) }
      ∧ LineKept rest s t ∧ FaultsKept s t
      ∧ t = { s with
          lif := t.lif, fare := t.fare, flt := t.flt, nsc := { s.nsc with replies := t.nsc.replies }
          acc := { s.acc with
            unresolved := s.acc.unresolved.filter (fun u => !(u.leg == l.number && u.attempt == a.number)) } } := by
  intro t
  obtain ⟨u, hu⟩ : ∃ u, u = dropUnresolved l.number a.number
    (setLeg i (l.setAttempt a.number st) { s with lif.queue := rest }) := ⟨_, rfl⟩
  have ht : t = letGo (accept q v u) := by rw [hu]
  obtain ⟨hline, hflt, hans⟩ := accepted_leaves (q := q) (v := v) (rest := rest) (s := s) (u := u)
    (by simp [hu, dropUnresolved, setLeg]) (by simp [hu]) (by simp [hu])
  refine ⟨ht ▸ hans, by simp [ht, hu, setLeg_fare], ht ▸ hline, ht ▸ hflt, ?_⟩
  apply State.ext <;> simp [ht, hu]
  · apply Nsc.ext <;> simp
  · apply Acc.ext <;> simp [dropUnresolved, sameAttempt]

theorem occupied_setAttempt {i : Fin 4} {l : Leg} {s : State} (hl : legAt s i = some l) (n : Nat) (st : AttemptState) :
    occupied (setLeg i (l.setAttempt n st) s) = occupied s := by
  have : slotOccupied (setLeg i (l.setAttempt n st) s) = slotOccupied s := by
    funext j
    by_cases hj : j = i
    · simp [slotOccupied, hj, hl, Leg.setAttempt, Leg.occupied]
    · simp [slotOccupied, hj]
  unfold occupied
  rw [this]

/-- A late approval for an attempt of a leg in the table, as its request leaves the part (06 R111). -/
theorem lateResult_named {q : QFrame} {rest : List QFrame} {i : Fin 4} {l : Leg} {a : Attempt} {s : State}
    (hl : legAt s i = some l) :
    let t := letGo (lateApproval q i l a (q.at 4 4) ((q.payload.drop 8).take 6) { s with lif.queue := rest })
    let amount := min (q.at 4 4) a.requested
    let kept := s.acc.unresolved.filter (fun u => !(u.leg == l.number && u.attempt == a.number))
    if l.phase = .paying then OnlyRefused q .busy rest s t
    else if l.phase = .opened then OnlyRefused q .state rest s t
    else if l.Takes amount then
      let l' := approvedLeg q l a .approvedLate
      Answered q (.accepted (le 4 amount ++ le 4 l'.due ++ [if l'.due = 0 then 1 else 0])) s t
      ∧ (if amount = l.due then
          LegSettled i { l' with claim := none } (l.claim.map (fun c => c.holder)) kept rest s t
        else t.fare = { s.fare with slots := s.fare.slots.set i (some l') }
          ∧ t.nsc.offers = s.nsc.offers.set i (some (offerOf l'))
          ∧ t.nsc.fares = s.nsc.fares.set i (some (showOf l')) ∧ LineKept rest s t ∧ FaultsKept s t
          ∧ t = { s with lif := t.lif, fare := t.fare, flt := t.flt, acc := { s.acc with unresolved := kept }
                         nsc := { s.nsc with replies := t.nsc.replies, offers := t.nsc.offers
                                             fares := t.nsc.fares } })
    else
      t.fare = { s.fare with slots := s.fare.slots.set i (some (l.setAttempt a.number .approvedLate)) }
      ∧ t.acc.unresolved = kept
      ∧ Answered q (.refused .tooLate) s t ∧ LineKept rest s t ∧ FaultsKept s t
      ∧ t.nsc.fleet.filter (fun x => decide (x.kind ≠ .lateApproval))
          = s.nsc.fleet.filter (fun x => decide (x.kind ≠ .lateApproval))
      ∧ FleetItem.lateApproval s.acc.shift.number l.number a.number amount ((q.payload.drop 8).take 6) ∈ t.nsc.fleet
      ∧ t = { s with lif := t.lif, fare := t.fare, flt := t.flt, acc := t.acc, jnl := t.jnl
                     nsc := { s.nsc with replies := t.nsc.replies, fleet := t.nsc.fleet } }
      ∧ t.acc.late = (if s.acc.late.length < 8 then
          s.acc.late ++ [⟨l.number, a.number, amount, (q.payload.drop 8).take 6⟩] else s.acc.late)
      ∧ t.acc.shift.totals.lateCount = min 65535 (s.acc.shift.totals.lateCount + 1)
      ∧ t.acc.shift.totals.lateSum = min 999999999 (s.acc.shift.totals.lateSum + amount)
      ∧ EventAsked s.odo.clock (.lateApproval l.number a.number amount)
          (dropUnresolved l.number a.number
            (enterLate ⟨l.number, a.number, amount, (q.payload.drop 8).take 6⟩ s)) t := by
  intro t amount kept
  have ht : t = letGo _ := congrArg letGo (lateApproval_eq (q.at 4 4) ((q.payload.drop 8).take 6))
  by_cases hpaying : l.phase = .paying
  · rw [if_pos hpaying] at ht ⊢
    rw [ht]
    exact onlyRefused_letGo_refuse q .busy rest s
  rw [if_neg hpaying] at ht ⊢
  by_cases hopened : l.phase = .opened
  · rw [if_pos hopened] at ht ⊢
    rw [ht]
    exact onlyRefused_letGo_refuse q .state rest s
  rw [if_neg hopened] at ht ⊢
  by_cases htakes : l.Takes amount
  · rw [if_pos htakes] at ht ⊢
    rw [ht]
    exact applyLate_leaves rfl htakes.2.1
  · rw [if_neg htakes] at ht ⊢
    rw [ht]
    obtain ⟨hfare, hlist, hans, hline, hflt, hothers, htold, hrest, hlate⟩ := listLate_leaves (q := q) (n := l.number)
      (a := a.number) (amount := amount) (reference := (q.payload.drop 8).take 6) (rest := rest) (s := s)
      (u := setLeg i (l.setAttempt a.number .approvedLate) { s with lif.queue := rest }) rfl
      (occupied_setAttempt (s := { s with lif.queue := rest }) hl _ _)
    have hacc := congrArg State.acc hrest
    refine ⟨hfare, hlist, hans, hline, hflt, hothers, htold, hrest.trans ?_, hlate⟩
    apply State.ext
    case acc => exact hacc.symm
    all_goals rfl

/-! ### A result for a leg that no slot holds (06 R110) -/

theorem findUnresolved_rest (s : State) (rest : List QFrame) (n a : Nat) :
    findUnresolved { s with lif.queue := rest } n a = s.acc.unresolved.find? (fun u => u.leg == n && u.attempt == a) := rfl

/-- A result for the unresolved attempt of a closed leg. -/
theorem payResultBody_closed {q : QFrame} {s : State} {u : Unresolved}
    (hnone : ∀ i l, legAt s i = some l → l.number ≠ q.at 0 2)
    (hfound : s.acc.unresolved.find? (fun u => u.leg == q.at 0 2 && u.attempt == q.at 2 1) = some u) (e : Station)
    (rest : List QFrame) : payResultBody q e { s with lif.queue := rest }
    = if q.NoResult then refuse q .range { s with lif.queue := rest }
      else if u.station ≠ q.src then refuse q .notHolder { s with lif.queue := rest }
      else if q.at 3 1 = 1 then listLate q u.leg u.attempt (min (q.at 4 4) u.requested) ((q.payload.drop 8).take 6)
        { s with lif.queue := rest }
      else accept q (le 2 u.leg ++ le 1 u.attempt ++ le 4 0)
        (dropUnresolved u.leg u.attempt { s with lif.queue := rest }) := by
  have hslot : findLeg { s with lif.queue := rest } q.leg = none := findLeg_eq_none hnone
  have hlist : findUnresolved { s with lif.queue := rest } q.leg (q.at 2 1) = some u := hfound
  simp only [payResultBody, hslot, resultOnClosed, hlist]
  by_cases hbad : q.NoResult
  · rw [result_eq, if_pos hbad, if_pos hbad]
  rw [result_of_good hbad, if_neg hbad]
  by_cases hstation : u.station ≠ q.src
  · rw [if_pos hstation]
    exact if_pos hstation
  rw [if_neg hstation]
  refine (if_neg hstation).trans ?_
  by_cases hone : q.at 3 1 = 1
  · rw [if_pos hone, if_pos hone]
    rfl
  rw [if_neg hone, if_neg hone]
  by_cases htwo : q.at 3 1 = 2
  · rw [if_pos htwo]
    rfl
  · rw [if_neg htwo]
    rfl

/-- A late decline for a closed leg, as its request leaves the part. -/
theorem closedDecline_leaves {q : QFrame} {rest : List QFrame} {n a : Nat} {v : List Byte} {s : State} :
    let t := letGo (accept q v (dropUnresolved n a { s with lif.queue := rest }))
    t.acc = { s.acc with unresolved := s.acc.unresolved.filter (fun x => !(x.leg == n && x.attempt == a)) }
      ∧ t.jnl = s.jnl ∧ t.nsc.fleet = s.nsc.fleet
      ∧ Answered q (.accepted v) s t ∧ LineKept rest s t ∧ FaultsKept s t
      ∧ t = { s with lif := t.lif, flt := t.flt, jnl := t.jnl
                     acc := { s.acc with unresolved := t.acc.unresolved, late := t.acc.late, shift := t.acc.shift }
                     nsc := { s.nsc with replies := t.nsc.replies, fleet := t.nsc.fleet } } := by
  intro t
  obtain ⟨hline, hflt, hans⟩ := accepted_leaves (q := q) (v := v) (rest := rest) (s := s)
    (u := dropUnresolved n a { s with lif.queue := rest }) rfl rfl rfl
  refine ⟨by simp [t, dropUnresolved, sameAttempt], by simp [t], by simp [t, dropUnresolved], hans, hline, hflt, ?_⟩
  apply State.ext <;> simp [t]
  · apply Nsc.ext <;> simp
  · apply Acc.ext <;> simp

/-- Settles O43. -/
theorem lateResultsAreAppliedOrListed : Obligations.LateResultsAreAppliedOrListed := by
  refine ⟨?_, fun q e rest s hasks hnone => ⟨_, takes_asks payResultBody hasks, ?_⟩,
    fun q e rest i l s hasks hnamed hother => ⟨_, takes_asks payResultBody hasks, ?_⟩⟩
  · intro q e rest i l a s hasks hnamed hfind bad amount mark kept
    refine ⟨_, takes_asks payResultBody hasks, ?_⟩
    rw [payResultBody_named hnamed hfind]
    refine ⟨fun hbad => ?_, fun hgood hended => ?_, fun hgood hlate hstarter => ?_, fun hgood hlate hstarter => ?_⟩
    · rw [resultOnLeg_bad hbad]
      exact onlyRefused_letGo_refuse q .range rest s
    · rw [resultOnLeg_ended hgood hended]
      exact onlyRefused_letGo_refuse q .state rest s
    · rw [resultOnLeg_late hgood hlate, if_pos hstarter]
      exact onlyRefused_letGo_refuse q .notHolder rest s
    · have hown : ¬ a.starter ≠ q.src := fun h => h hstarter
      rw [resultOnLeg_late hgood hlate, if_neg hown]
      by_cases hone : q.at 3 1 = 1
      · have happroved : ¬ q.at 3 1 ≠ 1 := fun h => h hone
        rw [if_neg happroved, if_pos hone]
        exact lateResult_named hnamed.2
      · rw [if_pos (show q.at 3 1 ≠ 1 from hone), if_neg hone]
        exact lateDecline_leaves
  · cases hfound : s.acc.unresolved.find? (fun u => u.leg == q.at 0 2 && u.attempt == q.at 2 1) with
    | none =>
      have hbody : payResultBody q e { s with lif.queue := rest } = refuse q .unknownLeg { s with lif.queue := rest } := by
        have hslot : findLeg { s with lif.queue := rest } q.leg = none := findLeg_eq_none hnone
        have hlist : findUnresolved { s with lif.queue := rest } q.leg (q.at 2 1) = none := hfound
        simp only [payResultBody, hslot, resultOnClosed, hlist]
      rw [hbody]
      exact onlyRefused_letGo_refuse q .unknownLeg rest s
    | some u =>
      dsimp only
      rw [payResultBody_closed hnone hfound]
      by_cases hbad : q.NoResult
      · rw [if_pos hbad, if_pos hbad]
        exact onlyRefused_letGo_refuse q .range rest s
      rw [if_neg hbad, if_neg hbad]
      by_cases hstation : u.station ≠ q.src
      · rw [if_pos hstation, if_pos hstation]
        exact onlyRefused_letGo_refuse q .notHolder rest s
      rw [if_neg hstation, if_neg hstation]
      by_cases hone : q.at 3 1 = 1
      · rw [if_pos hone]
        obtain ⟨hfare, hlist, hans, hline, hflt, hothers, htold, hrest, hlate, -, -, hasked⟩ := listLate_leaves (q := q)
          (n := u.leg) (a := u.attempt) (amount := min (q.at 4 4) u.requested)
          (reference := (q.payload.drop 8).take 6) (rest := rest) (s := s) (u := { s with lif.queue := rest }) rfl rfl
        refine ⟨hlist, by rw [if_pos hone]; exact hans, hlate.trans (by simp [hone]), fun _ => ⟨hasked, htold⟩,
          fun h => absurd hone h, hothers, hline, hflt, ?_⟩
        rw [hfare] at hrest
        exact hrest
      · rw [if_neg hone]
        obtain ⟨hacc, hjnl, hfleet, hans, hline, hflt, hrest⟩ := closedDecline_leaves (q := q) (rest := rest)
          (n := u.leg) (a := u.attempt) (v := le 2 u.leg ++ le 1 u.attempt ++ le 4 0) (s := s)
        refine ⟨by rw [hacc], by rw [if_neg hone]; exact hans, by rw [hacc]; simp [hone], fun h => absurd h hone,
          fun _ => ⟨hjnl, hfleet, by rw [hacc]⟩, by rw [hfleet], hline, hflt, hrest⟩
  · have hfind : findLeg { s with lif.queue := rest } q.leg = some i := hnamed.1
    have hleg : legAt { s with lif.queue := rest } i = some l := hnamed.2
    have hattempt : l.findAttempt (q.at 2 1) = none := List.find?_eq_none.2 fun a ha => by simpa using hother a ha
    have hbody : payResultBody q e { s with lif.queue := rest } = refuse q .unknownLeg { s with lif.queue := rest } := by
      simp only [payResultBody, hfind, hleg, hattempt]
    rw [hbody]
    exact onlyRefused_letGo_refuse q .unknownLeg rest s

end Sys2Proof.Machine
end

section
/-!
SETTLED OBLIGATIONS. HIRE (04 R54 to R56).
-/

namespace Sys2Proof.Machine

/-! ### The automatic extras (04 R55) -/

/-- The count at open of an extra kind. -/
def automaticCountOf (s : State) (k : Nat) : Nat := if (extraKind s k).any (fun x => x.automatic) then 1 else 0

/-- The amount at open of an extra kind. -/
def automaticAmount (s : State) (k : Nat) : Nat :=
  match extraKind s k with
  | some x => if x.automatic then x.amount else 0
  | none => 0

/-- A leg with the automatic extras of the kinds below n. -/
def extrasTo (s : State) (n : Nat) (l : Leg) : Leg :=
  let extras := ((List.range n).map (automaticAmount s)).sum
  { l with
    extraCounts := (List.range n).map (automaticCountOf s) ++ List.replicate (8 - n) 0
    extrasTotal := min extras (9999999 - l.farePart)
    ceiling := decide (9999999 - l.farePart < extras) }

/-- What an automatic extra of a kind makes of a leg. -/
def automaticStep (s : State) (l : Leg) (k : Nat) : Leg :=
  match extraKind s k with
  | none => l
  | some x => if x.automatic then Leg.addExtra x.amount { l with extraCounts := l.extraCounts.set k 1 } else l

theorem set_at_end {k : Nat} (h : k < 8) (counts : List Nat) (hlen : counts.length = k) (c : Nat) :
    (counts ++ List.replicate (8 - k) 0).set k c = counts ++ [c] ++ List.replicate (8 - (k + 1)) 0 := by
  have hrep : List.replicate (8 - k) 0 = 0 :: List.replicate (8 - (k + 1)) 0 := by
    rw [show 8 - k = (8 - (k + 1)) + 1 by omega, List.replicate_succ]
  rw [List.set_append_right _ _ (by omega), hrep, hlen]
  simp

/-- Extras that join one by one pass the room as their sum does. -/
theorem passes_ceiling (fare sum v : Nat) :
    (decide (9999999 - fare < sum) || decide (9999999 - (fare + min sum (9999999 - fare)) < v))
      = decide (9999999 - fare < sum + v) := by
  rw [Bool.eq_iff_iff, Bool.or_eq_true, decide_eq_true_iff, decide_eq_true_iff, decide_eq_true_iff]
  omega

theorem automaticStep_extrasTo {s : State} {k : Nat} (h : k < 8) (l : Leg) :
    automaticStep s (extrasTo s k l) k = extrasTo s (k + 1) l := by
  have hkeep : (List.range k).map (automaticCountOf s) ++ List.replicate (8 - k) 0
      = (List.range k).map (automaticCountOf s) ++ [0] ++ List.replicate (8 - (k + 1)) 0 := by
    rw [show 8 - k = (8 - (k + 1)) + 1 by omega, List.replicate_succ]
    simp
  have hset := set_at_end h ((List.range k).map (automaticCountOf s)) (by simp) 1
  unfold automaticStep extrasTo
  rw [List.range_succ]
  cases hkind : extraKind s k with
  | none =>
    have hcount : automaticCountOf s k = 0 := by simp [automaticCountOf, hkind]
    have hamount : automaticAmount s k = 0 := by simp [automaticAmount, hkind]
    simp [hkeep, hcount, hamount]
  | some x =>
    by_cases hauto : x.automatic = true
    · have hcount : automaticCountOf s k = 1 := by simp [automaticCountOf, hkind, hauto]
      have hamount : automaticAmount s k = x.amount := by simp [automaticAmount, hkind, hauto]
      simp only [hauto, if_true, Leg.addExtra, Leg.room, Leg.total, ceilingTotal]
      rw [hset]
      simp only [List.map_append, List.map_cons, List.map_nil, List.sum_append, List.sum_singleton, hcount, hamount,
        Leg.mk.injEq, true_and, and_true]
      exact ⟨by omega, passes_ceiling _ _ _⟩
    · have hcount : automaticCountOf s k = 0 := by simp [automaticCountOf, hkind, hauto]
      have hamount : automaticAmount s k = 0 := by simp [automaticAmount, hkind, hauto]
      simp [hkeep, hcount, hamount, hauto]

theorem withAutomatics_eq (s : State) (l : Leg) (hcounts : l.extraCounts = List.replicate 8 0) (htotal : l.extrasTotal = 0)
    (hceiling : l.ceiling = false) : withAutomatics s l = extrasTo s 8 l := by
  have hfold : ∀ n ≤ 8, (List.range n).foldl (automaticStep s) l = extrasTo s n l := by
    intro n
    induction n with
    | zero =>
      intro _
      have hfresh : extrasTo s 0 l = { l with extraCounts := List.replicate 8 0, extrasTotal := 0, ceiling := false } := by
        simp [extrasTo]
      have hsame : l = { l with extraCounts := List.replicate 8 0, extrasTotal := 0, ceiling := false } := by
        rw [← hcounts, ← htotal, ← hceiling]
      exact hsame.trans hfresh.symm
    | succ k ih =>
      intro hk
      rw [List.range_succ, List.foldl_append, ih (by omega)]
      exact automaticStep_extrasTo hk l
  exact hfold 8 (le_refl 8)

/-! ### The checks of a HIRE (04 R54) -/

theorem lowestFree_eq_some {s : State} {i : Fin 4} (h : lowestFree s = some i) :
    legAt s i = none ∧ ∀ j, j < i → legAt s j ≠ none := by
  unfold lowestFree at h
  obtain ⟨hfree, k, hk, hki, hbelow⟩ := List.find?_eq_some_iff_getElem.1 h
  have hslot : ∀ (m : Nat) (hm : m < allSlots.length), (allSlots[m]).val = m := by decide
  refine ⟨by simpa using hfree, fun j hj => ?_⟩
  have hjk : j.val < k := by
    have := hslot k hk
    rw [hki] at this
    omega
  have hjlen : j.val < allSlots.length := by omega
  have hsame : allSlots[j.val] = j := Fin.ext (hslot j.val hjlen)
  have hheld := hbelow j.val hjk
  rw [hsame] at hheld
  intro hnone
  simp [hnone] at hheld

theorem lowestFree_isNone (s : State) : (lowestFree s).isNone = true ↔ ∀ i, legAt s i ≠ none := by
  unfold lowestFree
  rw [Option.isNone_iff_eq_none, List.find?_eq_none]
  exact ⟨fun h i => by simpa using h i (mem_allSlots i), fun h i _ => by simpa using h i⟩

/-- The checks of a HIRE in order. -/
def hireCode (q : QFrame) (s : State) : Option RefusalCode :=
  let panel := q.at 0 1
  let zone := q.at 2 1
  let n := occupied s
  if shiftIsOpen s = false then some .noShift
  else if s.cab.duty = .offDuty then some .state
  else if 1 < q.at 1 1 ∨ (q.at 1 1 = 1 ∧ sharingInForce s = false) then some .range
  else if anyOccupied s (fun l => decide (l.share = .solo)) = true
      ∨ (1 ≤ n ∧ s.cab.share = some .shared ∧ q.at 1 1 = 0) ∨ tariffCp s ≤ n then some .noSlot
  else if (∀ i, legAt s i ≠ none) then some .noSlot
  else if panel ≠ 0 ∧ (stationOf s panel).all (fun x => !x.present || decide (x.role ≠ .panel)) = true then
    some .absent
  else if panel ≠ 0 ∧ anyOccupied s (fun l => decide (l.panel = some panel)) = true then some .state
  else if zone ≠ 255 ∧ (5 < zone ∨ zoneFare s zone = none) then some .range
  else if freeRows s < n + 2 then some .journalFull
  else if 9999 ≤ s.fare.lastLeg then some .limit
  else none

theorem hireRefusal_eq (q : QFrame) (s : State) : hireRefusal q s = hireCode q s := by
  have hopen : (!shiftIsOpen s) = true ↔ shiftIsOpen s = false := by simp
  have hshared : (1 < q.at 1 1 ∨ (q.hireShared ∧ !sharingInForce s))
      ↔ 1 < q.at 1 1 ∨ (q.at 1 1 = 1 ∧ sharingInForce s = false) := by
    simp [QFrame.hireShared]
  have hpanel : q.hirePanel.any (fun a => !presentPanel s a) = true
      ↔ q.at 0 1 ≠ 0 ∧ (stationOf s (q.at 0 1)).all (fun x => !x.present || decide (x.role ≠ .panel)) = true := by
    unfold QFrame.hirePanel presentPanel
    by_cases hp : q.at 0 1 = 0
    · simp [hp]
    · cases hs : stationOf s (q.at 0 1) <;> simp [hp, hs]
  have htwice : q.hirePanel.any (fun a => anyOccupied s (fun l => decide (l.panel = some a))) = true
      ↔ q.at 0 1 ≠ 0 ∧ anyOccupied s (fun l => decide (l.panel = some (q.at 0 1))) = true := by
    unfold QFrame.hirePanel
    split <;> simp [*]
  have hzone : q.hireZone.any (fun z => decide (5 < z) || (zoneFare s z).isNone) = true
      ↔ q.at 2 1 ≠ 255 ∧ (5 < q.at 2 1 ∨ zoneFare s (q.at 2 1) = none) := by
    unfold QFrame.hireZone
    split <;> simp [*]
  unfold hireRefusal hireCode
  simp only [hopen, hshared, lowestFree_isNone, hpanel, htwice, hzone]
  by_cases hone : 1 < q.at 1 1 ∨ (q.at 1 1 = 1 ∧ sharingInForce s = false)
  · simp only [hone, if_true]
  have hforbids : occupancyForbids q.hireShared s = true
      ↔ anyOccupied s (fun l => decide (l.share = .solo)) = true
        ∨ (1 ≤ occupied s ∧ s.cab.share = some .shared ∧ q.at 1 1 = 0) ∨ tariffCp s ≤ occupied s := by
    have hsolo : q.at 1 1 ≠ 1 ↔ q.at 1 1 = 0 := by omega
    simp [occupancyForbids, QFrame.hireShared, hsolo, or_assoc, and_assoc]
  simp only [hforbids]

/-! ### The leg a HIRE opens (04 R55, R56) -/

/-- The leg that a HIRE opens. -/
def hiredLeg (q : QFrame) (s : State) : Leg :=
  let zone := q.at 2 1
  let extras := ((List.range 8).map (automaticAmount s)).sum
  let fare := min 9999999 (if zone = 255 then (bandRates s s.odo.vehicleBand).F else (zoneFare s zone).getD 0)
  { phase := .opened, number := s.fare.lastLeg + 1, panel := if q.at 0 1 = 0 then none else some (q.at 0 1)
    share := if q.at 1 1 = 1 then .shared else .solo, openTime := s.odo.clock, booking := s.cab.booking
    openBand := s.odo.vehicleBand, regBand := s.odo.vehicleBand
    kind := if zone = 255 then .metered else .flat zone, reg := 0, steps := 0, farePart := fare
    extraCounts := (List.range 8).map (automaticCountOf s), extrasTotal := min extras (9999999 - fare)
    ceiling := decide (9999999 - fare < extras), voided := false, interrupted := false
    hiredPulses := 0, hiredTicks := 0, sharedTicks := 0, tip := none, tenders := [], attempts := [], claim := none }

theorem hiredLeg_rest (q : QFrame) (s : State) (rest : List QFrame) :
    hiredLeg q { s with lif.queue := rest } = hiredLeg q s := by
  have hamount : automaticAmount { s with lif.queue := rest } = automaticAmount s := rfl
  have hcount : automaticCountOf { s with lif.queue := rest } = automaticCountOf s := rfl
  have hrates : bandRates { s with lif.queue := rest } = bandRates s := rfl
  have hzone : zoneFare { s with lif.queue := rest } = zoneFare s := rfl
  unfold hiredLeg
  rw [hamount, hcount, hrates, hzone]

theorem newLeg_eq {q : QFrame} {s : State} (hzone : ¬ (q.at 2 1 ≠ 255 ∧ (5 < q.at 2 1 ∨ zoneFare s (q.at 2 1) = none))) :
    newLeg q s = hiredLeg q s := by
  have hfare : openFare s q.hireZone
      = min 9999999 (if q.at 2 1 = 255 then (bandRates s s.odo.vehicleBand).F else (zoneFare s (q.at 2 1)).getD 0) := by
    unfold openFare QFrame.hireZone
    by_cases hz : q.at 2 1 = 255
    · rw [if_pos hz, if_pos hz]
      rfl
    · rw [if_neg hz, if_neg hz]
      cases hf : zoneFare s (q.at 2 1) with
      | none => exact absurd ⟨hz, .inr hf⟩ hzone
      | some f => simp [hf, ceilingTotal]
  have hkind : (match q.hireZone with | none => LegKind.metered | some z => .flat z)
      = if q.at 2 1 = 255 then LegKind.metered else .flat (q.at 2 1) := by
    unfold QFrame.hireZone
    by_cases hz : q.at 2 1 = 255 <;> simp [hz]
  unfold newLeg
  rw [withAutomatics_eq s _ rfl rfl rfl]
  unfold extrasTo hiredLeg
  simp [hfare, QFrame.hirePanel, QFrame.hireShared]
  exact hkind

/-- A report of a count that a new leg has raised (05 R81, 07 R137). -/
theorem occupancyReport_raised {s : State} {before : Nat} {share : Option ShareMode} (h : occupied s ≠ 0) :
    let t := occupancyReport before share s
    (if before = 0 then t.cab.duty = .hired ∧ t.cab.share = share
      else t.cab.duty = s.cab.duty ∧ t.cab.share = s.cab.share)
      ∧ t.icm.forced = decide (t.cab.duty = .hired ∧ t.cab.share = some .shared)
      ∧ t.icm.privacy = (s.icm.privacy || (t.icm.forced && !s.icm.forced)) := by
  intro t
  by_cases hb : before = 0
  · simp [t, occupancyReport, occupancyDuty, setForcing, sharedHire, h, hb]
  · simp [t, occupancyReport, occupancyDuty, setForcing, sharedHire, h, hb]

/-- What an accepted HIRE makes of the part. -/
def hired (i : Fin 4) (l : Leg) (s : State) : State :=
  showLeg i (bookingTaken l (occupancyReport (occupied s) (some l.share)
    (setLeg i l { s with fare.lastLeg := l.number, cab.booking := none })))

section
variable (i : Fin 4) (l : Leg) (s : State)

theorem hired_fare : (hired i l s).fare = ⟨s.fare.slots.set i (some l), l.number⟩ := by
  simp [hired, setLeg_fare]

theorem hired_fares : (hired i l s).nsc.fares = s.nsc.fares.set i (some (showOf l)) := by
  have := showLeg_of_set (i := i) (l := l) (s := { s with fare.lastLeg := l.number, cab.booking := none })
    (u := bookingTaken l (occupancyReport (occupied s) (some l.share)
      (setLeg i l { s with fare.lastLeg := l.number, cab.booking := none }))) (by simp)
  simpa [hired] using this

theorem hired_fleet : (∀ r, l.booking = some r → .booking r .taken l.number ∈ (hired i l s).nsc.fleet)
    ∧ (l.booking = none → (hired i l s).nsc.fleet = s.nsc.fleet) := by
  refine ⟨fun r hr => ?_, fun hnone => ?_⟩
  · simp [hired, bookingTaken, hr, bookingItem, placeItem_fleet]
  · simp [hired, bookingTaken, hnone]

theorem hired_report (hopen : l.phase = .opened) :
    let t := hired i l s
    (if occupied s = 0 then t.cab.duty = .hired ∧ t.cab.share = some l.share
      else t.cab.duty = s.cab.duty ∧ t.cab.share = s.cab.share)
      ∧ t.icm.forced = decide (t.cab.duty = .hired ∧ t.cab.share = some .shared)
      ∧ t.icm.privacy = (s.icm.privacy || (t.icm.forced && !s.icm.forced)) := by
  intro t
  have hpos : occupied (setLeg i l { s with fare.lastLeg := l.number, cab.booking := none }) ≠ 0 := by
    have hslot : legAt (setLeg i l { s with fare.lastLeg := l.number, cab.booking := none }) i = some l := by simp
    exact Nat.pos_iff_ne_zero.1 (occupied_pos hslot (by simp [Leg.occupied, hopen]))
  have hraised := occupancyReport_raised (before := occupied s) (share := some l.share) hpos
  have hcab : t.cab = (occupancyReport (occupied s) (some l.share)
      (setLeg i l { s with fare.lastLeg := l.number, cab.booking := none })).cab := by simp [t, hired]
  have hicm : t.icm = (occupancyReport (occupied s) (some l.share)
      (setLeg i l { s with fare.lastLeg := l.number, cab.booking := none })).icm := by simp [t, hired]
  rw [hcab, hicm]
  exact hraised

end

theorem hireCode_zone {q : QFrame} {s : State} (h : hireCode q s = none) :
    ¬ (q.at 2 1 ≠ 255 ∧ (5 < q.at 2 1 ∨ zoneFare s (q.at 2 1) = none)) := by
  unfold hireCode at h
  dsimp only at h
  intro hzone
  rw [if_pos hzone] at h
  repeat' split at h
  all_goals cases h

theorem hireCode_free {q : QFrame} {s : State} (h : hireCode q s = none) : ∃ i, lowestFree s = some i := by
  unfold hireCode at h
  dsimp only at h
  rw [← Option.isSome_iff_exists, ← Option.not_isNone, Bool.not_eq_true', ← Bool.not_eq_true, lowestFree_isNone]
  intro hfull
  rw [if_pos hfull] at h
  repeat' split at h
  all_goals cases h

/-- A HIRE by its checks. -/
theorem hireBody_eq (q : QFrame) (e : Station) (s : State) (rest : List QFrame) :
    hireBody q e { s with lif.queue := rest } = match hireCode q s, lowestFree s with
      | some c, _ => refuse q c { s with lif.queue := rest }
      | none, some i => accept q (le 2 (s.fare.lastLeg + 1) ++ le 1 i.val)
        (hired i (hiredLeg q s) { s with lif.queue := rest })
      | none, none => refuse q .noSlot { s with lif.queue := rest } := by
  have hrows : freeRows { s with lif.queue := rest } = freeRows s := freeRows_congr rfl rfl
  have hcode : hireRefusal q { s with lif.queue := rest } = hireCode q s := by
    rw [hireRefusal_eq]
    unfold hireCode
    dsimp only
    rw [hrows]
    rfl
  have hfree : lowestFree { s with lif.queue := rest } = lowestFree s := rfl
  unfold hireBody
  rw [hcode, hfree]
  cases hpass : hireCode q s with
  | some c => rfl
  | none => cases lowestFree s with
    | none => rfl
    | some i =>
      have hleg : newLeg q { s with lif.queue := rest } = hiredLeg q s := by
        rw [newLeg_eq (hireCode_zone (s := { s with lif.queue := rest }) ?_), hiredLeg_rest]
        rw [← hireRefusal_eq, hcode, hpass]
      simp only [openLeg, hleg]
      rfl

/-- Settles O37. -/
theorem hireOpensLeg : Obligations.HireOpensLeg := by
  intro q e rest s hasks panel zone n code
  refine ⟨_, takes_asks hireBody hasks, ?_⟩
  have hcode : code = hireCode q s := rfl
  rw [hireBody_eq, ← hcode]
  cases hpass : code with
  | some c =>
    obtain ⟨hans, hline, hflt, hrest⟩ := onlyRefused_letGo_refuse q c rest s
    exact ⟨hline, hflt, hans, hrest⟩
  | none =>
    obtain ⟨i, hi⟩ := hireCode_free (hcode.symm.trans hpass)
    obtain ⟨hfree, hbelow⟩ := lowestFree_eq_some hi
    rw [hi]
    dsimp only
    obtain ⟨l, hl⟩ : ∃ l, l = hiredLeg q s := ⟨_, rfl⟩
    obtain ⟨u, hu⟩ : ∃ u, u = { s with lif.queue := rest } := ⟨_, rfl⟩
    have hnumber : l.number = s.fare.lastLeg + 1 := by rw [hl]; rfl
    have hbooking : l.booking = s.cab.booking := by rw [hl]; rfl
    have hfare := hired_fare i l u
    have hfares := hired_fares i l u
    obtain ⟨htaken, hfleet⟩ := hired_fleet i l u
    obtain ⟨hduty, hforced, hprivacy⟩ := hired_report i l u (by rw [hl]; rfl)
    have hoccupied : occupied u = n := by rw [hu]; rfl
    rw [← hl, ← hu, ← hnumber]
    obtain ⟨hline, hflt, hans⟩ := accepted_leaves (q := q) (v := le 2 l.number ++ le 1 i.val) (rest := rest) (s := s)
      (u := hired i l u)
      (lif_eq_of_kept (s := { s with lif.queue := rest }) (by simp [hired, hu]) (by simp [hired, hu])
        (by simp [hired, hu])) (by simp [hired, hu]) (by simp [hired, hu])
    refine ⟨hline, hflt, i, l, hfree, hbelow, ?_, hans, by rw [hl]; rfl, ?_, ?_, ?_, ?_, ?_, ?_, ?_, ?_⟩
    · simpa [hu] using hfare
    · simpa [hu] using hfares
    · simp [hired]
    · intro r hr
      simpa using htaken r (hbooking.trans hr)
    · intro hnone
      simpa [hu] using hfleet (hbooking.trans hnone)
    · rw [hoccupied] at hduty
      simpa [hu] using hduty
    · simpa using hforced
    · simpa [hu] using hprivacy
    · apply State.ext <;> simp [hired, hu]
      · apply Nsc.ext <;> simp
      · apply Cab.ext <;> simp
      · apply Icm.ext <;> simp

end Sys2Proof.Machine
end

section
/-!
SETTLED OBLIGATIONS. SHIFT_OPEN and SHIFT_CLOSE (08 R145 to R148, R156).
-/

namespace Sys2Proof.Machine

/-! ### SHIFT_OPEN (08 R145, R146) -/

/-- The checks of a SHIFT_OPEN in order. -/
def shiftOpenCode (driver : Nat) (s : State) : Option RefusalCode :=
  if s.tar.committed = none then some .noTariff
  else if s.acc.shift.state = .opened then some .state
  else if driver = 0 ∨ 999999 < driver then some .range
  else if 16 ≤ s.jnl.directory.length ∨ (s.jnl.directory.any (fun d => decide (d.state = .opened))) = true
      ∨ freeRows s < 2 then some .journalFull
  else none

theorem openRefusal_eq (driver : Nat) (s : State) : openRefusal driver s = shiftOpenCode driver s := by
  have htariff : s.tar.committed.isNone = true ↔ s.tar.committed = none := by simp
  have hopen : shiftIsOpen s = true ↔ s.acc.shift.state = .opened := by simp [shiftIsOpen]
  have hrange : (!inRange 1 999999 driver) = true ↔ driver = 0 ∨ 999999 < driver := by
    rw [Bool.not_eq_true', ← Bool.not_eq_true, inRange_iff]
    omega
  have hroom : (!directoryFree s ∨ freeRows s < 2) ↔ 16 ≤ s.jnl.directory.length
      ∨ (s.jnl.directory.any (fun d => decide (d.state = .opened))) = true ∨ freeRows s < 2 := by
    simp [directoryFree, or_assoc]
  unfold openRefusal shiftOpenCode
  simp only [htariff, hopen, hrange, hroom]

/-- The shift record that a SHIFT_OPEN leaves. -/
def openedShift (driver : Nat) (s : State) : ShiftRecord :=
  { ShiftRecord.none with
    state := .opened, number := nextShift s.acc.lastShift, driver := driver
    openTime := s.odo.clock, odoOpen := s.odo.odometer }

theorem openShiftBody_acc (driver : Nat) (s : State) : (openShiftBody driver s).acc = { s.acc with
    shift := openedShift driver s, lastShift := nextShift s.acc.lastShift, unresolved := [], late := [] } := by
  simp [openShiftBody, openedShift]

theorem openShiftBody_jnl (driver : Nat) (s : State) : (openShiftBody driver s).jnl
    = (claim (.shiftOpen ⟨nextShift s.acc.lastShift, driver, s.odo.clock, s.odo.odometer⟩) s).jnl := by
  simp only [openShiftBody, moveDuty_frame]
  refine claim_jnl_congr ?_ ?_ ?_ _ <;> rfl

theorem openShiftBody_tar (driver : Nat) (s : State) : (openShiftBody driver s).tar
    = { s.tar with window := if s.tar.window = .opened then .closed else s.tar.window } := by
  simp [openShiftBody]

theorem openShiftBody_fare (driver : Nat) (s : State) : (openShiftBody driver s).fare = { s.fare with lastLeg := 0 } := by
  simp [openShiftBody]

theorem openShiftBody_duty (driver : Nat) (s : State) : (openShiftBody driver s).cab.duty = .vacant := by
  simp [openShiftBody]

/-- A SHIFT_OPEN by its checks. -/
theorem shiftOpenBody_eq (q : QFrame) (e : Station) (s : State) (rest : List QFrame) :
    shiftOpenBody q e { s with lif.queue := rest } = match shiftOpenCode (q.at 0 4) s with
      | some c => refuse q c { s with lif.queue := rest }
      | none => accept q (le 2 (nextShift s.acc.lastShift)) (openShiftBody (q.at 0 4) { s with lif.queue := rest }) := by
  have hrows : freeRows { s with lif.queue := rest } = freeRows s := freeRows_congr rfl rfl
  have hcode : openRefusal (q.at 0 4) { s with lif.queue := rest } = shiftOpenCode (q.at 0 4) s := by
    rw [openRefusal_eq]
    unfold shiftOpenCode
    rw [hrows]
  unfold shiftOpenBody
  rw [hcode]
  cases shiftOpenCode (q.at 0 4) s with
  | some c => rfl
  | none =>
    dsimp only
    rw [openShiftBody_acc]
    rfl

/-- An accepted SHIFT_OPEN, as its request leaves the part. -/
theorem shiftOpen_leaves (q : QFrame) (driver : Nat) (rest : List QFrame) (s : State) :
    let n := nextShift s.acc.lastShift
    let t := letGo (accept q (le 2 n) (openShiftBody driver { s with lif.queue := rest }))
    LineKept rest s t ∧ FaultsKept s t ∧ Answered q (.accepted (le 2 n)) s t
      ∧ t.acc = { s.acc with shift := openedShift driver s, lastShift := n, unresolved := [], late := [] }
      ∧ RowClaimed (.shiftOpen ⟨n, driver, s.odo.clock, s.odo.odometer⟩) s t
      ∧ t.tar = { s.tar with window := if s.tar.window = .opened then .closed else s.tar.window }
      ∧ t.fare = { s.fare with lastLeg := 0 } ∧ t.cab.duty = .vacant
      ∧ t = { s with lif := t.lif, nsc := { s.nsc with replies := t.nsc.replies, sign := t.nsc.sign }
                     tar := t.tar, fare := t.fare, acc := t.acc, jnl := t.jnl, flt := t.flt
                     cab := { s.cab with duty := .vacant, sign := t.cab.sign, signDue := t.cab.signDue } } := by
  intro n t
  obtain ⟨u, hu⟩ : ∃ u, u = { s with lif.queue := rest } := ⟨_, rfl⟩
  have ht : t = letGo (accept q (le 2 n) (openShiftBody driver u)) := by rw [hu]
  have hacc := openShiftBody_acc driver u
  have hjnl := openShiftBody_jnl driver u
  have htar := openShiftBody_tar driver u
  have hfare := openShiftBody_fare driver u
  have hduty := openShiftBody_duty driver u
  have hopened : openedShift driver u = openedShift driver s := by rw [hu]; rfl
  obtain ⟨hline, hflt, hans⟩ := accepted_leaves (q := q) (v := le 2 n) (rest := rest) (s := s)
    (u := openShiftBody driver u)
    (lif_eq_of_kept (s := { s with lif.queue := rest }) (by simp [hu]) (by simp [hu])
      (by simp [hu])) (by simp [hu]) (by simp [hu])
  rw [← ht] at hline hflt hans
  have hnumber : nextShift u.acc.lastShift = n := by rw [hu]
  have hclock : u.odo = s.odo := by rw [hu]
  refine ⟨hline, hflt, hans, ?_, ?_, ?_, ?_, ?_, ?_⟩
  · rw [hopened, hnumber] at hacc
    simpa [ht, hu] using hacc
  · refine rowClaimed_of_jnl ?_
    rw [hnumber, hclock, claim_jnl_congr (s := u) (u := s) (by rw [hu]) (by rw [hu]) (by rw [hu])] at hjnl
    simpa [ht] using hjnl
  · simpa [ht, hu] using htar
  · simpa [ht, hu] using hfare
  · simpa [ht] using hduty
  · apply State.ext <;> simp [ht, hu]
    · apply Nsc.ext <;> simp
    · apply Cab.ext <;> simp [openShiftBody_duty]

/-- Settles O32. -/
theorem shiftOpenOpensShift : Obligations.ShiftOpenOpensShift := by
  intro q e rest s hasks driver n code
  refine ⟨_, takes_asks shiftOpenBody hasks, ?_⟩
  have hcode : code = shiftOpenCode (q.at 0 4) s := rfl
  rw [shiftOpenBody_eq, ← hcode]
  cases code with
  | some c =>
    obtain ⟨hans, hline, hflt, hrest⟩ := onlyRefused_letGo_refuse q c rest s
    exact ⟨hline, hflt, hans, hrest⟩
  | none =>
    have hleaves := shiftOpen_leaves q (q.at 0 4) rest s
    have hn : n = nextShift s.acc.lastShift := rfl
    dsimp only at hleaves ⊢
    generalize letGo (accept q (le 2 (nextShift s.acc.lastShift)) (openShiftBody (q.at 0 4) { s with lif.queue := rest }))
      = t at hleaves ⊢
    obtain ⟨hline, hflt, hans, hacc, hrow, htar, hfare, hduty, hrest⟩ := hleaves
    have ⟨_, _, hlisted, _⟩ := hrow
    rw [hn]
    exact ⟨hline, hflt, hans, hacc, hrow, hlisted, htar, hfare, hduty, hrest⟩

/-! ### SHIFT_CLOSE (08 R147, R148) -/

/-- The totals of a closed shift. -/
def totalsAtClose (s : State) : Totals :=
  let r := s.acc.shift
  { r.totals with
    hiredMetres := min 4294967295 (r.hiredPulses * 1000 / tariffK s)
    unhiredMetres := min 4294967295 (r.unhiredPulses * 1000 / tariffK s)
    hiredSeconds := r.hiredTicks / 10, sharedSeconds := r.sharedTicks / 10
    unresolved := min 65535 (r.pushedOut + s.acc.unresolved.length) }

/-- The SHIFT_CLOSE record of the shift. -/
def closingShift (s : State) : CloseRecord :=
  let r := s.acc.shift
  ⟨r.number, false, r.driver, r.openTime, s.odo.clock, r.odoOpen, s.odo.odometer, totalsAtClose s⟩

/-- The shift record that a SHIFT_CLOSE leaves. -/
def shutShift (s : State) : ShiftRecord :=
  { s.acc.shift with
    state := .closed, closeTime := some s.odo.clock, odoClose := some s.odo.odometer, totals := totalsAtClose s }

theorem closedShift_eq (s : State) : closedShift s = shutShift s := by
  have htotals : finalTotals s = totalsAtClose s := by
    simp [finalTotals, totalsAtClose, metresOf, max32, satAdd]
  unfold closedShift shutShift
  rw [htotals]

/-- The checks of a SHIFT_CLOSE in order. -/
def shiftCloseCode (s : State) : Option RefusalCode :=
  if s.acc.shift.state ≠ .opened then some .noShift
  else if (∃ i, legAt s i ≠ none) then some .state
  else if (s.cab.duty ≠ .vacant ∧ s.cab.duty ≠ .offDuty) ∨ s.cab.latch = true then some .state
  else none

theorem closeRefusal_eq (s : State) : closeRefusal s = shiftCloseCode s := by
  have hopen : (!shiftIsOpen s) = true ↔ s.acc.shift.state ≠ .opened := by simp [shiftIsOpen]
  have hlegs : (!allFree s) = true ↔ ∃ i, legAt s i ≠ none := by
    rw [Bool.not_eq_true', ← Bool.not_eq_true, allFree, List.all_eq_true]
    constructor
    · intro h
      by_contra hnone
      exact h fun i _ => by simpa using not_exists.1 hnone i
    · rintro ⟨i, hi⟩ hall
      exact hi (by simpa using hall i (mem_allSlots i))
  have hduty : (!closePermitted s) = true ↔ (s.cab.duty ≠ .vacant ∧ s.cab.duty ≠ .offDuty) ∨ s.cab.latch = true := by
    simp [closePermitted]
  unfold closeRefusal shiftCloseCode
  simp only [hopen, hlegs, hduty]

/-- The SHIFT_CLOSED item of a shift. -/
def closedItem (s : State) : FleetItem :=
  let t := totalsAtClose s
  .shiftClosed s.acc.shift.number s.acc.shift.driver s.odo.clock t.fare t.extras t.tips t.card t.cash

/-- What an accepted SHIFT_CLOSE makes of the part. -/
theorem closeShiftBody_eq (s : State) : closeShiftBody s = moveDuty .noShift
    (let u := placeItem (closedItem s) (placeReport (.report (closingShift s) s.acc.unresolved s.acc.late)
      (claim (.shiftClose (closingShift s)) { s with acc.shift := shutShift s }))
    { u with odo.manualBand := none }) := by
  have hrecord : closeRecord (shutShift s) = closingShift s := rfl
  unfold closeShiftBody
  rw [closedShift_eq]
  simp only [hrecord, claim_frame, placeReport_frame]
  rfl

/-! ### The SHIFT_REPORT job (08 R156) -/

/-- What a new SHIFT_REPORT makes of the print jobs, the print slot and the fault set. -/
def ReportJoins (b : JobBody) (s t : State) : Prop :=
  if s.acc.jobs.length < 4 then t.acc.jobs = s.acc.jobs ++ [⟨b, 0⟩] ∧ t.flt = s.flt
    ∧ t.nsc.print = (if s.acc.jobs = [] then firstItem t.acc.jobs else s.nsc.print)
  else t.flt = (raise .printLost s).flt ∧ ∀ i, victim s.acc.jobs = some i → t.acc.jobs = s.acc.jobs.eraseIdx i ++ [⟨b, 0⟩]
    ∧ t.nsc.print = (if i = 0 then firstItem t.acc.jobs else s.nsc.print)

theorem placeReport_joins (b : JobBody) (s : State) : ReportJoins b s (placeReport b s) := by
  unfold ReportJoins placeReport
  by_cases hroom : s.acc.jobs.length < 4
  · rw [if_pos hroom, if_pos hroom, joinJobs_jobs, joinJobs_print, joinJobs_flt]
    refine ⟨rfl, rfl, ?_⟩
    by_cases hempty : s.acc.jobs = []
    · simp [hempty]
    · simp [hempty]
  · rw [if_neg hroom, if_neg hroom]
    have hjobs : (raise .printLost s).acc.jobs = s.acc.jobs := by simp
    dsimp only
    rw [hjobs]
    cases victim s.acc.jobs with
    | none => exact ⟨rfl, fun i hi => by cases hi⟩
    | some i =>
      dsimp only
      by_cases hhead : i = 0
      · subst hhead
        rw [if_pos rfl]
        refine ⟨by rw [refreshPrint_flt]; simp, fun j hj => ?_⟩
        obtain rfl : 0 = j := Option.some.inj hj
        rw [if_pos rfl, refreshPrint_print]
        simp
      · rw [if_neg hhead]
        refine ⟨rfl, fun j hj => ?_⟩
        obtain rfl : i = j := Option.some.inj hj
        rw [if_neg hhead]
        exact ⟨rfl, rfl⟩

theorem placeItem_free (it : FleetItem) {s : State} (h : s.lif.tx = Transmitter.free) :
    (placeItem it s).lif.tx = Transmitter.free := by
  unfold placeItem
  split
  · exact renew_free _ h
  · exact h

theorem moveDuty_free (d : Duty) {s : State} (h : s.lif.tx = Transmitter.free) :
    (moveDuty d s).lif.tx = Transmitter.free := by
  unfold moveDuty recomputeSign
  dsimp only
  split
  · exact h
  · exact renew_free _ (by simpa using h)

section
variable (s : State)

theorem closeShiftBody_shift : (closeShiftBody s).acc.shift = shutShift s := by
  rw [closeShiftBody_eq]
  simp

theorem closeShiftBody_jnl : (closeShiftBody s).jnl = (claim (.shiftClose (closingShift s)) s).jnl := by
  rw [closeShiftBody_eq]
  simp only [moveDuty_frame, placeItem_frame, placeReport_frame]
  refine claim_jnl_congr ?_ ?_ ?_ _ <;> rfl

theorem closeShiftBody_reported :
    ReportJoins (.report (closingShift s) s.acc.unresolved s.acc.late) s (closeShiftBody s) := by
  obtain ⟨u, hu⟩ : ∃ u, u = claim (.shiftClose (closingShift s)) { s with acc.shift := shutShift s } := ⟨_, rfl⟩
  have hjoins := placeReport_joins (.report (closingShift s) s.acc.unresolved s.acc.late) u
  have hjobs : u.acc.jobs = s.acc.jobs := by simp [hu]
  have hprint : u.nsc.print = s.nsc.print := by simp [hu]
  have hflt : u.flt = s.flt := by simp [hu]
  have hraise : (raise .printLost u).flt = (raise .printLost s).flt := by simp [raise, hflt]
  rw [closeShiftBody_eq, ← hu]
  unfold ReportJoins at *
  rw [hjobs, hprint, hraise, hflt] at hjoins
  simpa using hjoins

theorem closeShiftBody_fleet : closedItem s ∈ (closeShiftBody s).nsc.fleet
    ∧ (closeShiftBody s).nsc.fleet.filter (fun x => decide (x.kind ≠ .shiftClosed))
      = s.nsc.fleet.filter (fun x => decide (x.kind ≠ .shiftClosed)) := by
  obtain ⟨u, hu⟩ : ∃ u, u = placeReport (.report (closingShift s) s.acc.unresolved s.acc.late)
    (claim (.shiftClose (closingShift s)) { s with acc.shift := shutShift s }) := ⟨_, rfl⟩
  have hfleet : u.nsc.fleet = s.nsc.fleet := by simp [hu]
  have hothers := placeItem_fleet_otherKinds (closedItem s) u
  have hkind : (closedItem s).kind = .shiftClosed := rfl
  rw [hfleet, hkind] at hothers
  rw [closeShiftBody_eq, ← hu]
  refine ⟨?_, ?_⟩
  · simpa using (placeItem_fleet (closedItem s) u).1
  · simpa using hothers

/-- A new report may let the head job's item go, which nothing after it takes up again. -/
theorem closeShiftBody_hold : Kept.hold (closeShiftBody s) s := by
  obtain ⟨u, hu⟩ : ∃ u, u = claim (.shiftClose (closingShift s)) { s with acc.shift := shutShift s } := ⟨_, rfl⟩
  rw [closeShiftBody_eq, ← hu]
  rcases placeReport_hold (.report (closingShift s) s.acc.unresolved s.acc.late) u with hfree | hkept
  · exact .inl (moveDuty_free _ (placeItem_free _ hfree))
  · exact .inr (by simpa [hu] using hkept)

theorem closeShiftBody_odo : (closeShiftBody s).odo = { s.odo with manualBand := none } := by
  rw [closeShiftBody_eq]
  simp

theorem closeShiftBody_duty : (closeShiftBody s).cab.duty = .noShift := by
  rw [closeShiftBody_eq]
  simp

end

/-- A SHIFT_CLOSE by its checks. -/
theorem shiftCloseBody_eq (q : QFrame) (e : Station) (s : State) (rest : List QFrame) :
    shiftCloseBody q e { s with lif.queue := rest } = match shiftCloseCode s with
      | some c => refuse q c { s with lif.queue := rest }
      | none => accept q (le 2 s.acc.shift.number) (closeShiftBody { s with lif.queue := rest }) := by
  have hcode : closeRefusal { s with lif.queue := rest } = shiftCloseCode s := (closeRefusal_eq _).trans rfl
  unfold shiftCloseBody
  rw [hcode]
  cases shiftCloseCode s with
  | some c => rfl
  | none =>
    dsimp only
    rw [closeShiftBody_shift]
    rfl

theorem victim_eq (jobs : List Job) : victim jobs
    = (jobs.findIdx? (fun j => decide (j.pos = 0) && isReceipt j)).orElse
      (fun _ => jobs.findIdx? (fun j => decide (j.pos = 0))) := by
  unfold victim
  cases jobs.findIdx? (fun j => decide (j.pos = 0) && isReceipt j) <;> rfl

/-- An accepted SHIFT_CLOSE, as its request leaves the part. -/
theorem shiftClose_leaves (q : QFrame) (rest : List QFrame) (s : State) :
    let t := letGo (accept q (le 2 s.acc.shift.number) (closeShiftBody { s with lif.queue := rest }))
    LineKept rest s t ∧ Answered q (.accepted (le 2 s.acc.shift.number)) s t
      ∧ t.acc.shift = shutShift s ∧ RowClaimed (.shiftClose (closingShift s)) s t
      ∧ (let job : Job := ⟨.report (closingShift s) s.acc.unresolved s.acc.late, 0⟩
        if s.acc.jobs.length < 4 then
          t.acc.jobs = s.acc.jobs ++ [job] ∧ FaultsKept s t
            ∧ t.nsc.print = (if s.acc.jobs = [] then firstItem t.acc.jobs else s.nsc.print)
        else t.flt.latched.getLsbD 9 = true ∧ t.flt.coldFlag = s.flt.coldFlag
          ∧ (∀ k, k ≠ 2 → k ≠ 9 → t.flt.latched.getLsbD k = s.flt.latched.getLsbD k)
          ∧ ∀ i, victim s.acc.jobs = some i → t.acc.jobs = s.acc.jobs.eraseIdx i ++ [job]
            ∧ t.nsc.print = (if i = 0 then firstItem t.acc.jobs else s.nsc.print))
      ∧ closedItem s ∈ t.nsc.fleet
      ∧ t.nsc.fleet.filter (fun x => decide (x.kind ≠ .shiftClosed))
          = s.nsc.fleet.filter (fun x => decide (x.kind ≠ .shiftClosed))
      ∧ t.odo = { s.odo with manualBand := none } ∧ t.cab.duty = .noShift
      ∧ t.acc = { s.acc with shift := t.acc.shift, jobs := t.acc.jobs }
      ∧ t = { s with lif := t.lif, odo := t.odo, acc := t.acc, jnl := t.jnl, flt := t.flt
                     nsc := { s.nsc with replies := t.nsc.replies, sign := t.nsc.sign, fleet := t.nsc.fleet
                                         print := t.nsc.print }
                     cab := { s.cab with duty := .noShift, sign := t.cab.sign, signDue := t.cab.signDue } } := by
  intro t
  obtain ⟨u, hu⟩ : ∃ u, u = { s with lif.queue := rest } := ⟨_, rfl⟩
  obtain ⟨c, hc⟩ : ∃ c, c = closeShiftBody u := ⟨_, rfl⟩
  have ht : t = letGo (accept q (le 2 s.acc.shift.number) c) := by rw [hc, hu]
  have hshift : c.acc.shift = shutShift s := by rw [hc, closeShiftBody_shift, hu]; rfl
  have hjnl : c.jnl = (claim (.shiftClose (closingShift s)) s).jnl := by
    rw [hc, closeShiftBody_jnl, claim_jnl_congr (s := s) (u := u) (by rw [hu]) (by rw [hu]) (by rw [hu]), hu]
    rfl
  have hreported : ReportJoins (.report (closingShift s) s.acc.unresolved s.acc.late) s c := by
    have := closeShiftBody_reported u
    rw [← hc, hu] at this
    exact this
  obtain ⟨htold, hothers⟩ := closeShiftBody_fleet u
  have hreplies : c.nsc.replies = s.nsc.replies := by simp [hc, hu]
  have htx : c.lif.tx = Transmitter.free ∨ c.lif.tx = { s.lif.tx with renewed := c.lif.tx.renewed } := by
    have hutx : u.lif.tx = s.lif.tx := by rw [hu]
    have hold : Kept.hold c u := by rw [hc]; exact closeShiftBody_hold u
    rw [← hutx]
    exact hold.imp id tx_eq_of_kept
  have hlif : t.lif = { s.lif with queue := rest, tx := t.lif.tx } := by
    apply Lif.ext <;> simp [ht, hc, hu]
  have hkept : TransmitterKept s t := by
    rw [ht]
    exact transmitterKept_letGo (by simpa using htx)
  have hans : Answered q (.accepted (le 2 s.acc.shift.number)) s t := by
    rw [ht]
    exact answered_accept hreplies
  have hjobs : t.acc.jobs = c.acc.jobs := by simp [ht]
  have hprint : t.nsc.print = c.nsc.print := by simp [ht]
  refine ⟨⟨hlif, hkept⟩, hans, by simp [ht, hshift], rowClaimed_of_jnl (by simp [ht, hjnl]), ?_, ?_, ?_, ?_, ?_, ?_, ?_⟩
  · unfold ReportJoins at hreported
    dsimp only
    by_cases hroom : s.acc.jobs.length < 4
    · rw [if_pos hroom] at hreported ⊢
      obtain ⟨hj, hf, hp⟩ := hreported
      have hfaults : FaultsKept s t := by
        rw [ht]
        exact faultsKept_accept hreplies hf
      exact ⟨hjobs.trans hj, hfaults, by rw [hprint, hjobs]; exact hp⟩
    · rw [if_neg hroom] at hreported ⊢
      obtain ⟨hf, hleaves⟩ := hreported
      have hlost : PrintLost s t := by
        rw [ht]
        exact printLost_accept hreplies hf
      obtain ⟨hcold, hbit, hbits, -⟩ := hlost
      exact ⟨hbit, hcold, hbits, fun i hi => by rw [hjobs, hprint]; exact hleaves i hi⟩
  · have hitem : closedItem u = closedItem s := by rw [hu]; rfl
    rw [hitem] at htold
    simpa [ht, hc, hu] using htold
  · simpa [ht, hc, hu] using hothers
  · simp [ht, hc, closeShiftBody_odo, hu]
  · simp [ht, hc, closeShiftBody_duty]
  · apply Acc.ext <;> simp [ht, hc, hu]
  · apply State.ext <;> simp [ht, hc, hu]
    · apply Nsc.ext <;> simp
    · apply Cab.ext <;> simp [closeShiftBody_duty]

/-- Settles O33. -/
theorem shiftCloseClosesShift : Obligations.ShiftCloseClosesShift := by
  intro q e rest s hasks r totals record item code
  refine ⟨_, takes_asks shiftCloseBody hasks, ?_⟩
  have hcode : code = shiftCloseCode s := rfl
  rw [shiftCloseBody_eq, ← hcode]
  cases code with
  | some c =>
    obtain ⟨hans, hline, hflt, hrest⟩ := onlyRefused_letGo_refuse q c rest s
    exact ⟨hline, hans, hflt, hrest⟩
  | none =>
    have hleaves := shiftClose_leaves q rest s
    dsimp only at hleaves ⊢
    generalize letGo (accept q (le 2 s.acc.shift.number) (closeShiftBody { s with lif.queue := rest })) = t at hleaves ⊢
    obtain ⟨hline, hans, hshift, hrow, hjobs, hleft⟩ := hleaves
    refine ⟨hline, hans, hshift, hrow, ?_, hleft⟩
    rw [← victim_eq]
    exact hjobs

end Sys2Proof.Machine
end

section
/-!
SETTLED OBLIGATIONS. A sent notice (01 R15, R17, 08 R159, 09 R176, R177).
-/

namespace Sys2Proof.Machine

/-! ### The free transmitter takes nothing up -/

section
variable {s : State} (h : s.lif.tx = Transmitter.free)
include h

theorem refreshPrint_free : (refreshPrint s).lif.tx = Transmitter.free := by
  unfold refreshPrint
  split <;> exact renew_free _ h

theorem placeEnd_free (c : Cursor) : (placeEnd c s).lif.tx = Transmitter.free := renew_free _ h

theorem makeRead_free : (makeRead s).lif.tx = Transmitter.free := by
  unfold makeRead
  split
  · exact h
  · split
    · exact placeEnd_free h _
    · exact renew_free _ (by simpa using h)

theorem placeRow_free : (placeRow s).lif.tx = Transmitter.free := by
  unfold placeRow
  split
  · exact h
  · dsimp only
    split
    · split
      · exact makeRead_free (renew_free _ h)
      · exact renew_free _ h
    · exact placeEnd_free h _

theorem readFrameSent_free : (readFrameSent s).lif.tx = Transmitter.free := by
  unfold readFrameSent
  split
  · dsimp only
    split
    · exact renew_free _ h
    · unfold rowSent
      split
      · split
        · exact renew_free _ h
        · exact placeRow_free h
      · exact h
  · exact h

theorem printSent_free (stale : Bool) : (printSent stale s).lif.tx = Transmitter.free := by
  unfold printSent
  dsimp only
  split
  · exact h
  · split
    · exact h
    · exact refreshPrint_free h

theorem noticeSent_free (n : Notice) (renewed : Bool) : (noticeSent n renewed s).lif.tx = Transmitter.free := by
  cases n <;> simp only [noticeSent]
  case reply => exact h
  case print => exact printSent_free h renewed
  case journal =>
    split
    · exact h
    · exact readFrameSent_free h
  all_goals split <;> exact h

end

/-! ### What a send leaves of the accounts and the journal -/

theorem noticeSent_acc {n : Notice} (h : n ≠ .print) (renewed : Bool) (s : State) :
    (noticeSent n renewed s).acc = s.acc := by
  cases n <;> simp only [noticeSent]
  case print => exact absurd rfl h
  case journal => split <;> simp
  all_goals split <;> rfl

theorem noticeSent_jnl {n : Notice} (h : n ≠ .journal) (renewed : Bool) (s : State) :
    (noticeSent n renewed s).jnl = s.jnl ∧ (noticeSent n renewed s).flt = s.flt := by
  cases n <;> simp only [noticeSent]
  case journal => exact absurd rfl h
  case print => simp
  case reply => exact ⟨trivial, trivial⟩
  all_goals split <;> exact ⟨rfl, rfl⟩

/-! ### The next row of a read-out (09 R176, R177) -/

/-- The ring row that a cursor's index names among the rows of its shift. -/
abbrev cursorRow (s : State) (c : Cursor) : Option Nat :=
  ((dirEntry s c.shift).map (shiftRows s)).bind (fun rows => rows[c.index]?)

/-- The faults that the read of a row raises. -/
abbrev readFaults (s : State) (r : Nat) : BitVec 16 :=
  match classify (rowAt s.array r) with
  | .corrected => 128#16
  | .damaged => 256#16
  | _ => 0#16

/-- The faults that JNL raises as it comes to a cursor's row, of which it keeps `kept`. -/
abbrev cursorFaults (s : State) (c : Cursor) (kept : Option (List Byte × Bool)) : BitVec 16 :=
  match kept with
  | none => 0#16
  | some _ => match cursorRow s c with
    | none => 0#16
    | some r => readFaults s r

theorem raiseRead_latched (s : State) (r : Nat) :
    (raiseRead (classify (rowAt s.array r)) s).flt = { s.flt with latched := s.flt.latched ||| readFaults s r } := by
  unfold readFaults raiseRead
  cases classify (rowAt s.array r) <;> simp [raise, FaultName.index]

theorem placeRow_of_gone {s : State} {c : Cursor} (hc : s.jnl.cursor = some c) (hd : dirEntry s c.shift = none) :
    (placeRow s).jnl.cursor = some { c with row := none, readWaits := false }
      ∧ (placeRow s).nsc.journal = some (.fin c.shift c.sent false) ∧ (placeRow s).flt = s.flt := by
  unfold placeRow
  rw [hc]
  dsimp only
  rw [hd, if_neg (by simp)]
  simp [placeEnd, placeReadFrame, hd]

/-- JNL comes to the row of a cursor, as the part whose rows are those of `s` shows it. -/
theorem placeRow_placed {s u t : State} {c : Cursor} (hc : u.jnl.cursor = some c) (halike : RowsAlike u s)
    (hbusy : u.jnl.inFlight = s.jnl.inFlight) (hflt : u.flt = s.flt)
    (hcursor : t.jnl.cursor = (placeRow u).jnl.cursor) (hframe : t.nsc.journal = (placeRow u).nsc.journal)
    (hfaults : t.flt = (placeRow u).flt) :
    RowPlaced c s t ∧ t.flt = { s.flt with latched := s.flt.latched ||| cursorFaults s c (t.jnl.cursor.bind (fun d => d.row)) } := by
  have hentry := halike.dirEntry c.shift
  cases hd : dirEntry s c.shift with
  | none =>
    obtain ⟨h1, h2, h3⟩ := placeRow_of_gone hc (hentry.trans hd)
    rw [← hcursor] at h1
    rw [← hframe] at h2
    rw [← hfaults, hflt] at h3
    unfold RowPlaced
    simp [hd, h1, h2, h3]
  | some d =>
    have hrows := halike.shiftRows d
    have hlt : ∀ n, n < (shiftRows u d).length ↔ n < (shiftRows s d).length := fun n => by rw [hrows]
    cases hr : (shiftRows s d)[c.index]? with
    | none =>
      have hend : ¬ c.index < (shiftRows u d).length := by
        rw [hlt]
        exact fun h => by simp [h] at hr
      obtain ⟨h1, h2, h3⟩ := placeRow_of_end hc (hentry.trans hd) hend
      rw [← hcursor] at h1
      rw [← hframe] at h2
      rw [← hfaults, hflt] at h3
      unfold RowPlaced
      simp [hd, hr, h1, h2, h3]
    | some r =>
      by_cases hfree : s.jnl.inFlight = none
      · obtain ⟨h1, h2, h3⟩ := placeRow_of_row hc (hentry.trans hd) (by rw [hrows]; exact hr) (hbusy.trans hfree)
        have hkept : keptRow u r = keptRow s r := by simp [keptRow, halike.1]
        rw [← hcursor, hkept] at h1
        rw [← hframe, hkept] at h2
        rw [← hfaults, halike.1, raiseRead_flt hflt, raiseRead_latched] at h3
        unfold RowPlaced
        simp [hd, hr, h1, h2, h3, hfree, cursorFaults, cursorRow, keptRow]
      · have hlow : c.index < (shiftRows u d).length := by
          rw [hlt]
          exact (List.getElem?_eq_some_iff.1 hr).1
        obtain ⟨h1, h2, h3⟩ := placeRow_of_busy hc (hentry.trans hd) hlow (by rw [hbusy]; exact hfree)
        rw [← hcursor] at h1
        rw [← hframe] at h2
        rw [← hfaults, hflt] at h3
        unfold RowPlaced
        simp [hd, hr, h1, h2, h3, hfree]

/-! ### A sent read-out frame -/

/-- What a sent JOURNAL_ROW makes of the part. -/
theorem rowSent_leaves {s w t : State} {c : Cursor} {a b d : Nat} {x : Bool} {bytes : List Byte}
    (hc : s.jnl.cursor = some c) (hg : s.nsc.journal = some (.row a b d x bytes))
    (hw : w = freeTransmitter { s with lif.lineFree := s.time }) (ht : t = readFrameSent w) :
    t.jnl = { s.jnl with credit := s.jnl.credit - 1, cursor := t.jnl.cursor }
      ∧ t.nsc = { s.nsc with journal := t.nsc.journal }
      ∧ (match c.row with
        | none => t.jnl.cursor = some c ∧ t.nsc = s.nsc ∧ t.flt = s.flt
        | some row =>
          if c.quarter < 3 then
            t.jnl.cursor = some { c with quarter := c.quarter + 1 }
              ∧ t.nsc.journal = some (frameOfRow { c with quarter := c.quarter + 1 } row) ∧ t.flt = s.flt
          else
            let next : Cursor := { c with quarter := 0, index := c.index + 1, sent := c.sent + 1 }
            RowPlaced next s t
              ∧ t.flt = { s.flt with latched := s.flt.latched ||| cursorFaults s next (t.jnl.cursor.bind (fun d => d.row)) }) := by
  have hcw : w.jnl.cursor = some c := by rw [hw]; exact hc
  have hgw : w.nsc.journal = some (.row a b d x bytes) := by rw [hw]; exact hg
  have hsent : t = rowSent c { w with jnl.credit := w.jnl.credit - 1 } := by
    rw [ht, readFrameSent, hcw, hgw]
  cases hrow : c.row with
  | none =>
    have hstay : t = { w with jnl.credit := w.jnl.credit - 1 } := by rw [hsent, rowSent, hrow]
    rw [hstay, hw]
    exact ⟨rfl, rfl, hc, rfl, rfl⟩
  | some row =>
    by_cases hquarter : c.quarter < 3
    · have hnext : t = placeReadFrame (frameOfRow { c with quarter := c.quarter + 1 } row)
          { w with jnl.credit := w.jnl.credit - 1, jnl.cursor := some { c with quarter := c.quarter + 1 } } := by
        rw [hsent, rowSent, hrow]
        exact if_pos hquarter
      rw [hnext, hw]
      refine ⟨by simp [freeTransmitter], ?_, ?_⟩
      · apply Nsc.ext <;> simp [freeTransmitter]
      · simp [hquarter, placeReadFrame, freeTransmitter, hrow, frameOfRow]
    · have hnext : t = placeRow { w with
          jnl.credit := w.jnl.credit - 1
          jnl.cursor := some { c with quarter := 0, index := c.index + 1, sent := c.sent + 1, row := none } } := by
        rw [hsent, rowSent, hrow]
        exact if_neg hquarter
      refine ⟨?_, ?_, ?_⟩
      · apply Jnl.ext <;> simp [hnext, hw, freeTransmitter]
      · apply Nsc.ext <;> simp [hnext, hw, freeTransmitter]
      · dsimp only
        rw [if_neg hquarter]
        exact placeRow_placed (s := s) (t := t)
          (c := { c with quarter := 0, index := c.index + 1, sent := c.sent + 1, row := none })
          (u := { w with
            jnl.credit := w.jnl.credit - 1
            jnl.cursor := some { c with quarter := 0, index := c.index + 1, sent := c.sent + 1, row := none } })
          rfl ⟨by rw [hw]; rfl, by rw [hw]; rfl, by rw [hw]; rfl⟩ (by rw [hw]; rfl) (by rw [hw]; rfl) (by rw [hnext])
          (by rw [hnext]) (by rw [hnext])

/-- What a sent JOURNAL_END makes of the part. -/
theorem endSent_leaves {s w t : State} {c : Cursor} {a b : Nat} {o : Bool}
    (hc : s.jnl.cursor = some c) (hg : s.nsc.journal = some (.fin a b o))
    (hw : w = freeTransmitter { s with lif.lineFree := s.time }) (ht : t = readFrameSent w) :
    t.jnl = { s.jnl with
        credit := s.jnl.credit - 1, cursor := none
        directory := s.jnl.directory.map (fun d =>
          if d.shift = c.shift ∧ (d.state = .closed ∨ d.state = .abandoned) ∧ o = false ∧ c.fromZero = true
            then { d with state := .read } else d) }
      ∧ t.nsc = { s.nsc with journal := none } ∧ t.flt = s.flt := by
  have hcw : w.jnl.cursor = some c := by rw [hw]; exact hc
  have hgw : w.nsc.journal = some (.fin a b o) := by rw [hw]; exact hg
  have hsent : t = endSent c o { w with jnl.credit := w.jnl.credit - 1 } := by
    rw [ht, readFrameSent, hcw, hgw]
  rw [hsent, hw]
  refine ⟨?_, ?_, ?_⟩
  · apply Jnl.ext <;> simp [endSent, clearCursor, withdrawReadFrame, updateEntry, freeTransmitter]
    intro d _
    by_cases hshift : d.shift = c.shift <;> simp [hshift]
  · apply Nsc.ext <;> simp [endSent, clearCursor, withdrawReadFrame, updateEntry, freeTransmitter]
  · simp [freeTransmitter]

/-- What a sent print item makes of the part. -/
theorem printSent_leaves {s w t : State} {renewed : Bool} (hw : w = freeTransmitter { s with lif.lineFree := s.time })
    (ht : t = printSent renewed w) :
    let jobs := match s.acc.jobs with
      | [] => []
      | j :: rest =>
        if renewed then j :: rest
        else if j.pos + 1 < (jobItems j.body).length then { j with pos := j.pos + 1 } :: rest else rest
    t.acc = { s.acc with credit := s.acc.credit - 1, jobs := jobs }
      ∧ t.nsc = { s.nsc with print :=
          if renewed ∨ s.acc.jobs = [] then s.nsc.print
          else jobs.head?.bind (fun j => (jobItems j.body)[j.pos]?) } := by
  have hjobs : w.acc.jobs = s.acc.jobs := by rw [hw]; rfl
  cases renewed with
  | true =>
    have hstay : t = { w with acc.credit := w.acc.credit - 1 } := by rw [ht]; rfl
    rw [hstay, hw]
    cases hqueue : s.acc.jobs with
    | nil => simp [freeTransmitter, hqueue]
    | cons j rest => simp [freeTransmitter, hqueue]
  | false =>
    cases hqueue : s.acc.jobs with
    | nil =>
      have hstay : t = { w with acc.credit := w.acc.credit - 1 } := by
        rw [ht, printSent]
        dsimp only
        rw [hjobs, hqueue]
        rfl
      rw [hstay, hw]
      simp [freeTransmitter, hqueue]
    | cons j rest =>
      have hnext : t = refreshPrint { w with
          acc.credit := w.acc.credit - 1
          acc.jobs := if j.pos + 1 < (jobItems j.body).length then { j with pos := j.pos + 1 } :: rest else rest } := by
        rw [ht, printSent]
        dsimp only
        rw [hjobs, hqueue]
        rfl
      refine ⟨?_, ?_⟩
      · apply Acc.ext <;> simp [hnext, hw, freeTransmitter]
      · apply Nsc.ext <;> simp [hnext, hw, freeTransmitter, refreshPrint_print]

/-- Settles O10. -/
theorem sentNoticeAdvancesItsClass : Obligations.SentNoticeAdvancesItsClass := by
  intro n f s hact hheld hsending renewed
  obtain ⟨w, hw⟩ : ∃ w, w = freeTransmitter { s with lif.lineFree := s.time } := ⟨_, rfl⟩
  obtain ⟨t, ht⟩ : ∃ t, t = noticeSent n renewed w := ⟨_, rfl⟩
  have hbody : txSuccessBody s = t := by
    unfold txSuccessBody
    rw [hheld, hsending, ht, hw]
  refine ⟨t, hbody ▸ whenActive_of_active hact txSuccessBody, ?_, ?_, ?_, ?_, ?_⟩
  · have hfree : t.lif.tx = Transmitter.free := by
      rw [ht]
      exact noticeSent_free (by rw [hw]; rfl) n renewed
    apply Lif.ext <;> simp [hfree]
    all_goals simp [ht, hw, freeTransmitter]
  · intro hn
    rw [ht, noticeSent_acc hn, hw]
    rfl
  · intro hn
    obtain ⟨hjnl, hflt⟩ := noticeSent_jnl hn renewed w
    rw [ht, hjnl, hflt, hw]
    exact ⟨rfl, rfl⟩
  · cases n <;> dsimp only
    case reply =>
      rw [ht, hw]
      rfl
    case print => exact printSent_leaves hw ht
    case journal =>
      have hread : t = if renewed then w else readFrameSent w := ht
      have hcw : w.jnl.cursor = s.jnl.cursor := by rw [hw]; rfl
      have hgw : w.nsc.journal = s.nsc.journal := by rw [hw]; rfl
      have hstays : t = w → t.jnl = s.jnl ∧ t.nsc = s.nsc ∧ t.flt = s.flt := fun h => by
        rw [h, hw]
        exact ⟨rfl, rfl, rfl⟩
      cases hcursor : s.jnl.cursor with
      | none =>
        refine hstays (hread.trans ?_)
        rw [readFrameSent, hcw, hcursor]
        exact ite_self _
      | some c =>
        cases hframe : s.nsc.journal with
        | none =>
          refine hstays (hread.trans ?_)
          rw [readFrameSent, hcw, hgw, hcursor, hframe]
          exact ite_self _
        | some g =>
          dsimp only
          by_cases hrenewed : renewed = true
          · rw [if_pos hrenewed]
            exact hstays (hread.trans (if_pos hrenewed))
          · rw [if_neg hrenewed]
            have hsent : t = readFrameSent w := hread.trans (if_neg hrenewed)
            cases g with
            | fin a b o => exact endSent_leaves hcursor hframe hw hsent
            | row a b d x bytes =>
              exact rowSent_leaves hcursor hframe hw hsent
    all_goals
      rw [ht, noticeSent]
      split <;> (rw [hw]; rfl)
  · apply State.ext <;> simp [ht, hw, freeTransmitter]

end Sys2Proof.Machine
end

section
/-!
SUPPORT. What ICM does when a rear port has become unbound (07 R134): the call that ends, the notices, the queue.
-/

namespace Sys2Proof.Machine

/-! ### CALL_STATE of the ports that move up (07 R125, R127) -/

/-- A port's notice depends on its call record, the queue, and the panel that holds it. -/
theorem callNotice_congr {s u : State} (hcalls : u.icm.calls = s.icm.calls) (hqueue : u.icm.queue = s.icm.queue)
    (hst : u.lif.stations = s.lif.stations) (p : Port) : callNotice u p = callNotice s p := by
  have hpanel : panelOn u p = panelOn s p := by simp [panelOn, hst]
  unfold callNotice
  rw [callRec_congr hcalls, hpanel, hqueue]

/-- Of the ports with an entry in a queue, those whose place has changed are told theirs. -/
theorem noticeMoved_calls (before : List QEntry) (s : State) (p : Port) : (noticeMoved before s).nsc.calls.get p
    = if (∃ x ∈ s.icm.queue, x.port = p) ∧ placeIn before p ≠ placeIn s.icm.queue p then some (callNotice s p)
      else s.nsc.calls.get p := by
  have hfold : ∀ (xs : List QEntry) (v : State), v.icm = s.icm → v.lif.stations = s.lif.stations →
      (xs.foldl (fun w e => if placeIn before e.port = placeIn w.icm.queue e.port then w else noticeCall e.port w)
          v).nsc.calls.get p
        = if (∃ x ∈ xs, x.port = p) ∧ placeIn before p ≠ placeIn s.icm.queue p then some (callNotice s p)
          else v.nsc.calls.get p := by
    intro xs
    induction xs with
    | nil => intro v _ _; simp
    | cons e xs ih =>
      intro v hicm hst
      rw [List.foldl_cons, hicm]
      have htold : callNotice v e.port = callNotice s e.port := callNotice_congr (by rw [hicm]) (by rw [hicm]) hst e.port
      by_cases hsame : placeIn before e.port = placeIn s.icm.queue e.port
      · rw [if_pos hsame, ih v hicm hst]
        by_cases hp : e.port = p
        · rw [hp] at hsame
          simp [hsame]
        · simp [hp]
      · rw [if_neg hsame, ih _ (by simp [noticeCall, placeCallNotice, hicm]) (by simp [noticeCall, placeCallNotice, hst])]
        by_cases hp : e.port = p
        · have hkept : (noticeCall e.port v).nsc.calls.get p = some (callNotice s p) := by
            rw [hp] at htold
            simp [noticeCall, placeCallNotice, hp, htold]
          rw [hkept]
          rw [hp] at hsame
          simp [hsame, hp]
        · have hkept : (noticeCall e.port v).nsc.calls.get p = v.nsc.calls.get p := by
            simp [noticeCall, placeCallNotice, Ne.symm hp]
          rw [hkept]
          simp [hp]
  exact hfold s.icm.queue s rfl rfl

/-! ### A port becomes unbound (07 R134) -/

/-- LIF tells ICM that the port an entry held, if it held one, has become unbound. -/
def unbound (held : Option Port) (s : State) : State := held.elim s (fun p => portUnbound p s)

theorem unbindPort_eq (e : Station) (s : State) : unbindPort e s = unbound e.port s := by
  unfold unbindPort unbound
  cases e.port <;> rfl

/-- The call that the unbinding of a port ends. -/
abbrev CallEnds (held : Option Port) (u : State) (p : Port) : Prop :=
  held = some p ∧ callPhase u p ≠ .idle ∧ callPhase u p ≠ .releasing

theorem leaveQueue_queue (p : Port) (s : State) :
    (leaveQueue p s).icm.queue = s.icm.queue.filter (fun x => decide (x.port ≠ p)) := by
  unfold leaveQueue
  cases h : s.icm.queue.find? (fun e => e.port = p) with
  | none =>
    refine (List.filter_eq_self.2 fun x hx => ?_).symm
    simpa using List.find?_eq_none.1 h x hx
  | some e => simp

theorem leaveQueue_calls (p q : Port) (s : State) : (leaveQueue p s).nsc.calls.get q
    = if (∃ x ∈ (leaveQueue p s).icm.queue, x.port = q) ∧ placeIn s.icm.queue q ≠ placeIn (leaveQueue p s).icm.queue q then
        some (callNotice { s with icm := (leaveQueue p s).icm } q)
      else s.nsc.calls.get q := by
  rw [leaveQueue_queue]
  unfold leaveQueue
  cases h : s.icm.queue.find? (fun e => e.port = p) with
  | none =>
    have hkept : s.icm.queue.filter (fun x => decide (x.port ≠ p)) = s.icm.queue :=
      List.filter_eq_self.2 fun x hx => by simpa using List.find?_eq_none.1 h x hx
    have hsame : placeIn s.icm.queue q = placeIn (s.icm.queue.filter (fun x => decide (x.port ≠ p))) q := by rw [hkept]
    rw [if_neg (fun h => h.2 hsame)]
  | some e =>
    dsimp only
    have := noticeMoved_calls s.icm.queue { s with icm.queue := s.icm.queue.filter (fun x => decide (x.port ≠ p)) } q
    simpa using this

/-- What an unbinding writes is read off ICM's state and its notices. -/
theorem portUnbound_of {held : Option Port} {u v t : State} (h : PortUnbound held u v) (hicm : t.icm = v.icm)
    (hcalls : t.nsc.calls = v.nsc.calls) : PortUnbound held u t := by
  have hrec : ∀ p, callRec t p = callRec v p := callRec_congr (by rw [hicm])
  have hnotice : ∀ p, callNotice { t with lif := u.lif } p = callNotice { v with lif := u.lif } p :=
    callNotice_congr (by rw [hicm]) (by rw [hicm]) rfl
  unfold PortUnbound RingingLeft PlayStarts at *
  simp only [hnotice]
  simp only [hrec, hicm, hcalls]
  exact h

/-- The state in which ICM is told of an unbinding counts by its ICM, its notices and its stations. -/
theorem portUnbound_congr {held : Option Port} {u s t : State} (h : PortUnbound held u t) (hicm : u.icm = s.icm)
    (hcalls : u.nsc.calls = s.nsc.calls) (hst : u.lif.stations = s.lif.stations) : PortUnbound held s t := by
  have hrec : ∀ p, callRec u p = callRec s p := callRec_congr (by rw [hicm])
  have hphase : ∀ p, callPhase u p = callPhase s p := callPhase_congr (by rw [hicm])
  have hnotice : ∀ p, callNotice { t with lif := u.lif } p = callNotice { t with lif := s.lif } p :=
    callNotice_congr rfl rfl hst
  have hdests : ∀ d, boundDests u d = boundDests s d := boundDests_congr hst
  unfold PortUnbound RingingLeft PlayStarts at *
  simpa only [hrec, hphase, hnotice, hdests, hicm, hcalls] using h

/-- The end of a talk to a port that has become unbound keeps the rest of ICM and every notice. -/
theorem endTalkTo_icm (p : Port) (s : State) : (endTalkTo p s).icm
    = { s.icm with talk := if s.icm.talk = .down (.one p) then .up else s.icm.talk } := by
  unfold endTalkTo
  split <;> rfl

theorem endTalkTo_nsc (p : Port) (s : State) : (endTalkTo p s).nsc = s.nsc := by
  unfold endTalkTo
  split <;> rfl

/-- Nothing but the talk ends where the port has no call that ends. -/
theorem portUnbound_idle {held : Option Port} {s t : State} (h : ∀ p, ¬ CallEnds held s p)
    (hicm : t.icm = { s.icm with talk := if (∃ p, held = some p ∧ s.icm.talk = .down (.one p)) then .up else s.icm.talk })
    (hcalls : t.nsc.calls = s.nsc.calls) : PortUnbound held s t := by
  have hqueued : ∀ x ∈ s.icm.queue, (!(decide (held = some x.port) && decide (callPhase s x.port = .queued))) = true := by
    intro x _
    by_contra hx
    obtain ⟨hheld, hphase⟩ : held = some x.port ∧ callPhase s x.port = .queued := by simpa using hx
    exact h x.port ⟨hheld, by simp [hphase], by simp [hphase]⟩
  have hring : ¬ ∃ p, held = some p ∧ callPhase s p = .ringing := by
    rintro ⟨p, hheld, hphase⟩
    exact h p ⟨hheld, by simp [hphase], by simp [hphase]⟩
  refine ⟨fun p hp => absurd hp (h p), fun p _ => callRec_congr (by rw [hicm]) p, fun p => ?_, ?_, ?_, ?_⟩
  · rw [if_neg, hcalls]
    rintro (hp | ⟨-, hmoved⟩)
    · exact h p hp
    · exact hmoved (by rw [hicm])
  · rw [List.filter_eq_self.2 hqueued, hicm]
  · rw [if_neg hring, hicm]
    exact ⟨rfl, rfl, rfl, rfl⟩
  · rw [hicm]

theorem release_icm (p : Port) (r : Reason) (s : State) : (release p r s).icm.calls = (enterPhase p .releasing r s).icm.calls
    ∧ (release p r s).icm.queue = s.icm.queue ∧ (release p r s).icm.talk = s.icm.talk
    ∧ (release p r s).nsc.calls = (enterPhase p .releasing r s).nsc.calls := by
  unfold release
  dsimp only
  split <;> simp

/-- A RINGING port that is released leaves RINGING; another leaves the player and the prompts as they were. -/
theorem release_rings (p : Port) (r : Reason) {s t : State} (hicm : t.icm.ringDue = (release p r s).icm.ringDue)
    (hprompts : t.icm.prompts = (release p r s).icm.prompts) (hplayer : t.icm.player = (release p r s).icm.player)
    (hsample : t.icm.promptSample = (release p r s).icm.promptSample) :
    if callPhase s p = .ringing then RingingLeft s.icm.prompts s t
    else t.icm.ringDue = s.icm.ringDue ∧ t.icm.prompts = s.icm.prompts ∧ t.icm.player = s.icm.player
      ∧ t.icm.promptSample = s.icm.promptSample := by
  by_cases hring : callPhase s p = .ringing
  · have hleft : release p r s = leaveRinging (enterPhase p .releasing r s) := if_pos hring
    rw [if_pos hring]
    rw [hleft] at hicm hprompts hplayer hsample
    exact ringingLeft_of (u := enterPhase p .releasing r s) (by simp) (by simp) (by simp) (by simp) hicm hprompts hplayer
      hsample
  · have hkept : release p r s = enterPhase p .releasing r s := if_neg hring
    rw [if_neg hring, hicm, hprompts, hplayer, hsample, hkept]
    simp

/-- A call of a granted port ends with RELEASING. -/
theorem unbound_of_granted {p : Port} {s : State} (h : callPhase s p = .ringing ∨ callPhase s p = .linked) :
    PortUnbound (some p) s (unbound (some p) s) := by
  obtain ⟨t, ht⟩ : ∃ t, t = unbound (some p) s := ⟨_, rfl⟩
  have hends : CallEnds (some p) s p := ⟨rfl, by rcases h with h | h <;> simp [h], by rcases h with h | h <;> simp [h]⟩
  have hnot : callPhase s p ≠ .queued := by rcases h with h | h <;> simp [h]
  have hcall : unboundCall p s = release p .absent s := by rcases h with h | h <;> simp [unboundCall, h]
  have hshape : t = endTalkTo p (release p .absent s) := by
    rw [ht, ← hcall]
    rfl
  obtain ⟨hcalls, hqueue, htalk, hnotices⟩ := release_icm p .absent s
  have hq : t.icm.queue = s.icm.queue := by rw [hshape, endTalkTo_icm]; exact hqueue
  have hc : t.icm.calls = (enterPhase p .releasing .absent s).icm.calls := by rw [hshape, endTalkTo_icm]; exact hcalls
  have hn : t.nsc.calls = (enterPhase p .releasing .absent s).nsc.calls := by rw [hshape, endTalkTo_nsc]; exact hnotices
  have hothers : ∀ q, ¬ CallEnds (some p) s q → q ≠ p := fun q hq hqp => hq (hqp ▸ hends)
  rw [← ht]
  refine ⟨fun q hq' => ?_, fun q hq' => ?_, fun q => ?_, ?_, ?_, ?_⟩
  · obtain rfl : p = q := Option.some.inj hq'.1
    rw [callRec_congr hc, callRec_enterPhase, if_pos rfl, if_neg hnot]
  · rw [callRec_congr hc, callRec_enterPhase, if_neg (hothers q hq')]
  · rw [hn, enterPhase_calls, hq]
    by_cases hqp : q = p
    · rw [if_pos hqp, hqp, if_pos (.inl hends)]
      refine congrArg some (callNotice_congr (s := { t with lif := s.lif })
        (u := setCall p { callRec s p with phase := .releasing, reason := .absent } s) ?_ hq.symm rfl p)
      rw [hc]
      simp [enterPhase]
    · rw [if_neg hqp, if_neg]
      rintro (hq' | ⟨-, hmoved⟩)
      · exact hqp (Option.some.inj hq'.1).symm
      · exact hmoved rfl
  · rw [hq]
    refine (List.filter_eq_self.2 fun x _ => ?_).symm
    by_cases hx : p = x.port
    · simp [← hx, hnot]
    · simp [hx]
  · have hrings := release_rings p .absent (s := s) (t := t) (by rw [hshape, endTalkTo_icm])
      (by rw [hshape, endTalkTo_icm]) (by rw [hshape, endTalkTo_icm]) (by rw [hshape, endTalkTo_icm])
    have hex : (∃ q, some p = some q ∧ callPhase s q = .ringing) ↔ callPhase s p = .ringing := by simp
    simp only [hex]
    exact hrings
  · have hex : (∃ q, some p = some q ∧ s.icm.talk = .down (.one q)) ↔ s.icm.talk = .down (.one p) := by simp
    simp only [hex]
    rw [hshape, endTalkTo_icm, htalk]

/-- The notice of an IDLE port tells nothing of the queue. -/
theorem callNotice_idle {s u : State} {p : Port} (hidle : (callRec u p).phase = .idle) (hrec : callRec s p = callRec u p)
    (hst : u.lif.stations = s.lif.stations) : callNotice u p = callNotice s p := by
  have hpanel : panelOn u p = panelOn s p := by simp [panelOn, hst]
  unfold callNotice
  rw [hrec, hpanel]
  simp [hidle]

/-- A queued call leaves the queue. -/
theorem unbound_of_queued {p : Port} {s : State} (h : callPhase s p = .queued) :
    PortUnbound (some p) s (unbound (some p) s) := by
  obtain ⟨t, ht⟩ : ∃ t, t = unbound (some p) s := ⟨_, rfl⟩
  obtain ⟨u, hu⟩ : ∃ u, u = enterPhase p .idle .absent s := ⟨_, rfl⟩
  have hends : CallEnds (some p) s p := ⟨rfl, by simp [h], by simp [h]⟩
  have hshape : t = endTalkTo p (leaveQueue p u) := by
    rw [ht, hu]
    simp [unbound, portUnbound, unboundCall, h]
  have hq : t.icm.queue = s.icm.queue.filter (fun x => decide (x.port ≠ p)) := by
    rw [hshape, endTalkTo_icm, hu]
    simp only [leaveQueue_queue, enterPhase_frame]
  have hc : t.icm.calls = u.icm.calls := by rw [hshape, endTalkTo_icm]; simp
  have hothers : ∀ q, ¬ CallEnds (some p) s q → q ≠ p := fun q hq hqp => hq (hqp ▸ hends)
  rw [← ht]
  refine ⟨fun q hq' => ?_, fun q hq' => ?_, fun q => ?_, ?_, ?_, ?_⟩
  · obtain rfl : p = q := Option.some.inj hq'.1
    rw [callRec_congr hc, hu, callRec_enterPhase, if_pos rfl, if_pos h]
  · rw [callRec_congr hc, hu, callRec_enterPhase, if_neg (hothers q hq')]
  · have hnotice : t.nsc.calls.get q = if (∃ x ∈ t.icm.queue, x.port = q)
          ∧ placeIn s.icm.queue q ≠ placeIn t.icm.queue q then some (callNotice { t with lif := s.lif } q)
        else u.nsc.calls.get q := by
      have hmoved := leaveQueue_calls p q u
      have hqueue : (leaveQueue p u).icm.queue = t.icm.queue := by rw [hshape, endTalkTo_icm]
      have hbefore : u.icm.queue = s.icm.queue := by rw [hu]; simp
      have htold : callNotice { u with icm := (leaveQueue p u).icm } q = callNotice { t with lif := s.lif } q :=
        callNotice_congr (by rw [hshape, endTalkTo_icm]) (by rw [hshape, endTalkTo_icm]) (by rw [hu]; simp) q
      rw [hqueue, hbefore, htold] at hmoved
      rw [← hmoved, hshape, endTalkTo_nsc]
    rw [hnotice]
    by_cases hqp : q = p
    · have hgone : ¬ ∃ x ∈ t.icm.queue, x.port = p := by
        rw [hq]
        simp
      rw [hqp, if_neg (fun hx => hgone hx.1), if_pos (.inl hends), hu, enterPhase_calls, if_pos rfl]
      refine congrArg some (callNotice_idle ?_ ?_ rfl)
      · simp [callRec, setCall]
      · rw [callRec_congr (s := u) (by exact hc), hu, callRec_enterPhase, callRec_setCall]
    · have hkept : u.nsc.calls.get q = s.nsc.calls.get q := by rw [hu, enterPhase_calls, if_neg hqp]
      have hnone : ¬ CallEnds (some p) s q := fun hq' => hqp (Option.some.inj hq'.1).symm
      rw [hkept]
      by_cases hmoved : (∃ x ∈ t.icm.queue, x.port = q) ∧ placeIn s.icm.queue q ≠ placeIn t.icm.queue q
      · rw [if_pos hmoved, if_pos (.inr hmoved)]
      · rw [if_neg hmoved, if_neg (fun hx => hx.elim hnone hmoved)]
  · rw [hq]
    refine List.filter_congr fun x _ => ?_
    by_cases hx : p = x.port
    · simp [← hx, h]
    · simp [hx, Ne.symm hx]
  · have hex : ¬ ∃ q, some p = some q ∧ callPhase s q = .ringing := by simp [h]
    rw [if_neg hex, hshape, endTalkTo_icm, hu]
    simp
  · have hex : (∃ q, some p = some q ∧ s.icm.talk = .down (.one q)) ↔ s.icm.talk = .down (.one p) := by simp
    simp only [hex]
    rw [hshape, endTalkTo_icm, hu]
    simp

theorem unbound_unbound (held : Option Port) (s : State) : PortUnbound held s (unbound held s) := by
  cases held with
  | none => exact portUnbound_idle (fun p hp => by cases hp.1) (by simp [unbound]) rfl
  | some p =>
    have hstays : unboundCall p s = s → (∀ r, ¬ CallEnds (some p) s r) → PortUnbound (some p) s (unbound (some p) s) :=
      fun hcall hnone => by
        refine portUnbound_idle hnone ?_ ?_
        · simp [unbound, portUnbound, hcall, endTalkTo_icm]
        · simp [unbound, portUnbound, hcall]
    cases hphase : callPhase s p with
    | idle =>
      refine hstays (by simp [unboundCall, hphase]) fun r ⟨hr, hidle, _⟩ => ?_
      obtain rfl : p = r := Option.some.inj hr
      exact hidle hphase
    | releasing =>
      refine hstays (by simp [unboundCall, hphase]) fun r ⟨hr, _, hreleasing⟩ => ?_
      obtain rfl : p = r := Option.some.inj hr
      exact hreleasing hphase
    | queued => exact unbound_of_queued hphase
    | ringing => exact unbound_of_granted (.inl hphase)
    | linked => exact unbound_of_granted (.inr hphase)

end Sys2Proof.Machine
end

section
/-!
SUPPORT. What the absence of an entry makes the blocks do (01 R8, 06 R101, 07 R134): the station a queue entry named, and the
claims that end.
-/

namespace Sys2Proof.Machine

/-! ### The station that a queue entry named (01 R9, 07 R134) -/

/-- The queue entry of the call of the port an entry held, where that call waits. -/
abbrev queuedOn (held : Option Port) (s : State) : Option QEntry :=
  held.bind (fun p => if callPhase s p = .queued then s.icm.queue.find? (fun x => x.port = p) else none)

/-- The two states agree in all that the end of a reference looks at, but the queue. -/
@[simp] abbrev ReferredAlike (w s : State) : Prop :=
  w.lif.stations = s.lif.stations ∧ w.cab = s.cab ∧ w.acc = s.acc ∧ w.time = s.time ∧ w.fare = s.fare
    ∧ w.nsc.print = s.nsc.print

/-- The two states agree in the stations, the watches and what a printer's pause changes. -/
@[simp] abbrev StationsAlike (w s : State) : Prop :=
  w.lif.stations = s.lif.stations ∧ w.cab = s.cab ∧ w.acc = s.acc ∧ w.nsc.print = s.nsc.print

/-- An unbinding ends the reference of the queue entry that leaves, and else keeps every station. -/
theorem unbound_stations (held : Option Port) (s : State) : match queuedOn held s with
    | some x => ∃ w, ReferredAlike w s ∧ w.icm.queue = (unbound held s).icm.queue
        ∧ StationsAlike (unbound held s) (endReference x.addr w)
    | none => StationsAlike (unbound held s) s := by
  cases held with
  | none => exact ⟨rfl, rfl, rfl, rfl⟩
  | some p =>
    have hother : callPhase s p ≠ .queued → StationsAlike (unbound (some p) s) s := fun h => by
      cases hphase : callPhase s p with
      | queued => exact absurd hphase h
      | idle | ringing | linked | releasing => simp [unbound, portUnbound, unboundCall, hphase]
    by_cases hqueued : callPhase s p = .queued
    · simp only [queuedOn, Option.bind_some, if_pos hqueued]
      have hshape : unbound (some p) s = endTalkTo p (leaveQueue p (enterPhase p .idle .absent s)) := by
        simp [unbound, portUnbound, unboundCall, hqueued]
      have hqueue : (enterPhase p .idle .absent s).icm.queue = s.icm.queue := by simp
      rw [hshape]
      unfold leaveQueue
      rw [hqueue]
      cases hfound : s.icm.queue.find? (fun x => decide (x.port = p)) with
      | none => simp
      | some x =>
        dsimp only
        refine ⟨noticeMoved s.icm.queue { enterPhase p .idle .absent s with
          icm.queue := s.icm.queue.filter (fun x => decide (x.port ≠ p)) }, ?_, ?_, ?_⟩ <;> simp
    · simp only [queuedOn, Option.bind_some, if_neg hqueued]
      exact hother hqueued

theorem referenced_congr {w s : State} (hfare : w.fare = s.fare) (hqueue : w.icm.queue = s.icm.queue) (a : Nat) :
    referenced w a = referenced s a := by
  simp [referenced, legAt, hfare, hqueue]

/-- The station of a waiting call whose port has become unbound, where that call's end lets its entry leave. -/
abbrev leaverOf (held : Option Port) (s t : State) : Option Station :=
  ((queuedOn held s).bind (fun x => stationOf s x.addr)).filter (fun x => !x.present
    && decide (x.silenceFrom + 518400000 ≤ s.time) && !referenced { s with icm := t.icm } x.addr)

/-- An entry leaves in the same way for states that agree in what leaves. -/
theorem removeEntry_alike {w s : State} (h : ReferredAlike w s) (a : Nat) : StationsAlike (removeEntry a w) (removeEntry a s) := by
  obtain ⟨hst, hcab, hacc, -, -, hprint⟩ := h
  have hstation : stationOf w a = stationOf s a := by simp [stationOf, hst]
  cases he : stationOf s a with
  | none => simp [removeEntry, hstation, he, hst, hcab, hacc, hprint]
  | some e =>
    have he' := hstation.trans he
    refine ⟨?_, ?_, ?_, ?_⟩
    · rw [removeEntry_stations he, removeEntry_stations he', hst]
    · rw [removeEntry_cab he, removeEntry_cab he', hcab]
    · rw [removeEntry_acc he, removeEntry_acc he', hacc]
    · rw [removeEntry_print he, removeEntry_print he', hacc, hprint]

/-- Of the stations, an unbinding loses the one whose waiting call it ends, where nothing holds that one any more. -/
theorem unbound_loses (held : Option Port) (s : State) : StationsAlike (unbound held s)
    ((leaverOf held s (unbound held s)).elim s (fun e => removeEntry e.addr s)) := by
  have hstations := unbound_stations held s
  cases hq : queuedOn held s with
  | none =>
    rw [hq] at hstations
    simpa [leaverOf, hq] using hstations
  | some x =>
    rw [hq] at hstations
    obtain ⟨w, hw, hqueue, hst, hcab, hacc, hprint⟩ := hstations
    have halike := removeEntry_alike hw x.addr
    obtain ⟨hst', hcab', hacc', htime, hfare, hprint'⟩ := hw
    have hstation : stationOf w x.addr = stationOf s x.addr := by simp [stationOf, hst']
    have hnamed : referenced w x.addr = referenced { s with icm := (unbound held s).icm } x.addr :=
      referenced_congr (s := { s with icm := (unbound held s).icm }) hfare hqueue x.addr
    have hstays : endReference x.addr w = w → StationsAlike (unbound held s) s := fun hend => by
      rw [hend] at hst hcab hacc hprint
      exact ⟨hst.trans hst', hcab.trans hcab', hacc.trans hacc', hprint.trans hprint'⟩
    cases he : stationOf s x.addr with
    | none => simpa [leaverOf, hq, he] using hstays (by simp [endReference, hstation, he])
    | some e =>
      have haddr : e.addr = x.addr := by simpa using List.find?_some he
      have hcond : (!e.present ∧ removalMoment e ≤ w.time ∧ !referenced w x.addr)
          ↔ (!e.present && decide (e.silenceFrom + 518400000 ≤ s.time)
            && !referenced { s with icm := (unbound held s).icm } e.addr) = true := by
        rw [hnamed, htime, haddr]
        simp [removalMoment, seconds, and_assoc]
      have hend : endReference x.addr w
          = if (!e.present ∧ removalMoment e ≤ w.time ∧ !referenced w x.addr) then removeEntry x.addr w else w := by
        simp only [endReference, hstation, he]
      by_cases hgone : !e.present ∧ removalMoment e ≤ w.time ∧ !referenced w x.addr
      · have hleaver : leaverOf held s (unbound held s) = some e := by
          simp only [leaverOf, hq, Option.bind_some, he, Option.filter_some, if_pos (hcond.1 hgone)]
        rw [hleaver, Option.elim_some, haddr]
        rw [hend, if_pos hgone] at hst hcab hacc hprint
        obtain ⟨h1, h2, h3, h4⟩ := halike
        exact ⟨hst.trans h1, hcab.trans h2, hacc.trans h3, hprint.trans h4⟩
      · have hleaver : leaverOf held s (unbound held s) = none := by
          simp only [leaverOf, hq, Option.bind_some, he, Option.filter_some, if_neg (fun h => hgone (hcond.2 h))]
        rw [hleaver, Option.elim_none]
        exact hstays (by rw [hend, if_neg hgone])

/-! ### An entry that cannot leave yet -/

/-- No entry of an address is past its 36 s of silence. -/
abbrev Young (a : Nat) (s : State) : Prop :=
  ∀ e, stationOf s a = some e → e.present = true ∨ s.time < e.silenceFrom + 518400000

theorem endReference_young {a : Nat} {s : State} (h : Young a s) : endReference a s = s := by
  rcases endReference_cases a s with hkept | ⟨e, he, habsent, hdue, -⟩
  · exact hkept
  · rcases h e he with hpresent | hyoung
    · simp [habsent] at hpresent
    · exact absurd hyoung (Nat.not_lt.2 hdue)

theorem Young.congr {a : Nat} {s u : State} (h : Young a s) (hst : u.lif.stations = s.lif.stations)
    (htime : u.time = s.time) : Young a u := by
  intro e he
  rw [htime]
  exact h e (by simpa [stationOf, hst] using he)

/-! ### The claims of a holder that has become ABSENT (06 R101) -/

/-- A HELD leg whose claim a station holds. -/
abbrev Leg.ClaimedBy (a : Nat) (l : Leg) : Prop := l.phase = .held ∧ ∃ c, l.claim = some c ∧ c.holder = a

theorem claimHeldBy_iff (l : Leg) (a : Nat) : claimHeldBy l a = true ↔ ∃ c, l.claim = some c ∧ c.holder = a := by
  unfold claimHeldBy
  cases l.claim <;> simp

/-- What the absence of a holder makes of a slot. -/
abbrev SlotAfterHolder (a : Nat) (i : Fin 4) (s t : State) : Prop :=
  match legAt s i with
  | none => legAt t i = none ∧ t.nsc.offers.get i = s.nsc.offers.get i
  | some l => (l.ClaimedBy a → legAt t i = some { l with claim := none }
        ∧ t.nsc.offers.get i = some (offerOf { l with claim := none }))
      ∧ (¬ l.ClaimedBy a → legAt t i = some l ∧ t.nsc.offers.get i = s.nsc.offers.get i)

/-- A slot and its offer stand. -/
abbrev SlotKept (i : Fin 4) (s t : State) : Prop :=
  legAt t i = legAt s i ∧ t.nsc.offers.get i = s.nsc.offers.get i

theorem SlotKept.afterHolder {a : Nat} {i : Fin 4} {s t : State} (h : SlotKept i s t)
    (hnone : ∀ l, legAt s i = some l → ¬ l.ClaimedBy a) : SlotAfterHolder a i s t := by
  obtain ⟨hleg, hoffer⟩ := h
  unfold SlotAfterHolder
  cases hl : legAt s i with
  | none => exact ⟨hleg.trans hl, hoffer⟩
  | some l => exact ⟨fun hc => absurd hc (hnone l hl), fun _ => ⟨hleg.trans hl, hoffer⟩⟩

/-- One slot of the fold. -/
def holderLeaves (a : Nat) (s : State) (i : Fin 4) : State :=
  match legAt s i with
  | none => s
  | some l => if l.phase = .held ∧ claimHeldBy l a then releaseClaim i s else s

theorem holderAbsent_eq (a : Nat) (s : State) : holderAbsent a s = allSlots.foldl (holderLeaves a) s := rfl

theorem holderLeaves_slot {a : Nat} {s : State} (h : Young a s) (i : Fin 4) :
    SlotAfterHolder a i s (holderLeaves a s i) ∧ (∀ j, j ≠ i → SlotKept j s (holderLeaves a s i))
      ∧ StationsAlike (holderLeaves a s i) s ∧ (holderLeaves a s i).time = s.time := by
  have hkept : (∀ l, legAt s i = some l → ¬ l.ClaimedBy a) → holderLeaves a s i = s := fun hnone => by
    unfold holderLeaves
    cases hl : legAt s i with
    | none => rfl
    | some l =>
      have hl' := hnone l hl
      rw [Leg.ClaimedBy, ← claimHeldBy_iff] at hl'
      exact if_neg hl'
  by_cases hclaimed : ∃ l, legAt s i = some l ∧ l.ClaimedBy a
  · obtain ⟨l, hl, hphase, c, hc, hholder⟩ := hclaimed
    have hheld : claimHeldBy l a = true := (claimHeldBy_iff l a).2 ⟨c, hc, hholder⟩
    obtain ⟨u, hu⟩ : ∃ u, u = setLeg i { l with claim := none } s := ⟨_, rfl⟩
    have hstep : holderLeaves a s i = offerLeg i u := by
      have hyoung : Young a u := h.congr (by rw [hu]; simp) (by rw [hu]; simp)
      unfold holderLeaves releaseClaim
      rw [hl]
      dsimp only
      rw [if_pos ⟨hphase, hheld⟩, endClaim_of_claim hl hc, hholder, ← hu, endReference_young hyoung]
    have hlegs : ∀ j, legAt (offerLeg i u) j = if j = i then some { l with claim := none } else legAt s j := fun j => by
      rw [legAt_congr (s := u) (by simp) j, hu]
      simp
    have hoffers : (offerLeg i u).nsc.offers = s.nsc.offers.set i (some (offerOf { l with claim := none })) := by
      rw [offerLeg_of_set (l := { l with claim := none }) (s := s) (by rw [hu]), hu]
      simp
    rw [hstep]
    refine ⟨?_, fun j hj => ⟨by rw [hlegs, if_neg hj], by rw [hoffers]; simp [hj]⟩, by simp [hu], by simp [hu]⟩
    unfold SlotAfterHolder
    rw [hl]
    exact ⟨fun _ => ⟨by rw [hlegs, if_pos rfl], by rw [hoffers]; simp⟩, fun hn => absurd ⟨hphase, c, hc, hholder⟩ hn⟩
  · have hnone : ∀ l, legAt s i = some l → ¬ l.ClaimedBy a := fun l hl hc => hclaimed ⟨l, hl, hc⟩
    rw [hkept hnone]
    exact ⟨SlotKept.afterHolder ⟨rfl, rfl⟩ hnone, fun _ _ => ⟨rfl, rfl⟩, ⟨rfl, rfl, rfl, rfl⟩, rfl⟩

theorem SlotAfterHolder.of_kept {a : Nat} {i : Fin 4} {s u t : State} (h : SlotAfterHolder a i s u)
    (hkept : SlotKept i u t) : SlotAfterHolder a i s t := by
  obtain ⟨hleg, hoffer⟩ := hkept
  unfold SlotAfterHolder at *
  rw [hleg, hoffer]
  exact h

theorem SlotAfterHolder.of_before {a : Nat} {i : Fin 4} {s u t : State} (h : SlotAfterHolder a i u t)
    (hkept : SlotKept i s u) : SlotAfterHolder a i s t := by
  obtain ⟨hleg, hoffer⟩ := hkept
  unfold SlotAfterHolder at *
  rw [hleg, hoffer] at h
  exact h

theorem foldl_holderLeaves {a : Nat} : ∀ (is : List (Fin 4)), is.Nodup → ∀ {s : State}, Young a s →
    (∀ i ∈ is, SlotAfterHolder a i s (is.foldl (holderLeaves a) s))
      ∧ (∀ i, i ∉ is → SlotKept i s (is.foldl (holderLeaves a) s))
      ∧ StationsAlike (is.foldl (holderLeaves a) s) s := by
  intro is
  induction is with
  | nil => exact fun _ s _ => ⟨by simp, fun _ _ => ⟨rfl, rfl⟩, ⟨rfl, rfl, rfl, rfl⟩⟩
  | cons j js ih =>
    intro hnodup s hyoung
    obtain ⟨hj, hjs⟩ := List.nodup_cons.1 hnodup
    obtain ⟨hslot, hothers, ⟨hst, hcab, hacc, hprint⟩, htime⟩ := holderLeaves_slot hyoung j
    obtain ⟨hin, hout, hst', hcab', hacc', hprint'⟩ := ih hjs (hyoung.congr hst htime)
    rw [List.foldl_cons]
    refine ⟨fun i hi => ?_, fun i hi => ?_, hst'.trans hst, hcab'.trans hcab, hacc'.trans hacc, hprint'.trans hprint⟩
    · rcases List.mem_cons.1 hi with rfl | hi
      · exact hslot.of_kept (hout i hj)
      · exact (hin i hi).of_before (hothers i (fun h => hj (h ▸ hi)))
    · have hne := List.ne_of_not_mem_cons hi
      have hkept := hout i (List.not_mem_of_not_mem_cons hi)
      exact ⟨hkept.1.trans (hothers i hne).1, hkept.2.trans (hothers i hne).2⟩

/-- The claims of a holder that cannot leave yet end, each with an offer, and every station stays. -/
theorem holderAbsent_young {a : Nat} {s : State} (h : Young a s) :
    (∀ i, SlotAfterHolder a i s (holderAbsent a s)) ∧ StationsAlike (holderAbsent a s) s := by
  obtain ⟨hslots, -, hst⟩ := foldl_holderLeaves allSlots (by decide) h
  exact ⟨fun i => hslots i (mem_allSlots i), hst⟩

/-! ### Sign, printer and reader -/

/-- A sign record that goes to LOST: an open shift counts it and is asked for the row (05 R85, R87). -/
theorem signAbsent_leaves {s : State} (h : s.cab.sign.confirm ≠ .lost) :
    (signAbsent s).cab.sign = { s.cab.sign with confirm := .lost } ∧ (signAbsent s).cab.signDue = some (s.time + 72000000)
      ∧ ∃ u, AskedAlike u (counting (fun c => { c with signFaults := min 65535 (c.signFaults + 1) }) s)
        ∧ (signAbsent s).jnl = (claimEventIfOpen s.odo.clock (.signLost s.cab.sign.pattern s.cab.sign.seq) u).jnl
        ∧ (signAbsent s).acc = (claimEventIfOpen s.odo.clock (.signLost s.cab.sign.pattern s.cab.sign.seq) u).acc := by
  obtain ⟨v, hv⟩ : ∃ v, v = ({ s with cab.sign.confirm := .lost } : State) := ⟨_, rfl⟩
  have hshape : signAbsent s = restartSignTimer (claimEventIfOpen s.odo.clock
      (.signLost s.cab.sign.pattern s.cab.sign.seq)
      (counting (fun c => { c with signFaults := min 65535 (c.signFaults + 1) }) v)) := by
    unfold signAbsent
    rw [if_neg h, ← claimEvent_counting, hv]
    rfl
  have halike : AskedAlike v s := by
    rw [hv]
    exact ⟨rfl, rfl, rfl, rfl, rfl⟩
  refine ⟨?_, ?_, _, halike.counting _, ?_, ?_⟩
  · rw [hshape]
    simp [hv]
  · rw [hshape]
    simp [restartSignTimer, hv, signLostWait, seconds]
  · rw [hshape]
    simp
  · rw [hshape]
    simp

theorem tellCabAbsent_of_not_sign {e : Station} {s : State} (h : ¬ (e.role = .sign ∧ s.cab.sign.confirm ≠ .lost)) :
    (tellCabAbsent e s).cab = { s.cab with watches := (tellCabAbsent e s).cab.watches }
      ∧ (tellCabAbsent e s).acc = s.acc ∧ (tellCabAbsent e s).jnl = s.jnl := by
  unfold tellCabAbsent
  cases hrole : e.role with
  | sign =>
    have hlost : s.cab.sign.confirm = .lost := by simpa [hrole] using h
    simp [signAbsent, hlost]
  | panel => exact ⟨rfl, rfl, rfl⟩
  | console | calibrator | meter | printer | fleet => exact ⟨rfl, rfl, rfl⟩

theorem tellCabAbsent_watches (e : Station) (s : State) : (tellCabAbsent e s).cab.watches
    = s.cab.watches.map (fun w => if e.role = .panel ∧ w.addr = e.addr then Watch.empty e.addr else w) := by
  unfold tellCabAbsent
  cases hrole : e.role with
  | panel =>
    refine List.map_congr_left fun w _ => ?_
    by_cases hw : w.addr = e.addr <;> simp [hw]
  | sign => simp
  | console | calibrator | meter | printer | fleet => simp

theorem tellCreditAbsent_acc (e : Station) (s : State) : (tellCreditAbsent e s).acc
    = if e.role = .printer then { s.acc with credit := 0, jobs := rewoundJobs s.acc.jobs } else s.acc := by
  unfold tellCreditAbsent
  cases e.role <;> simp [printerPause_acc]

theorem tellCreditAbsent_print (e : Station) (s : State) : (tellCreditAbsent e s).nsc.print
    = if e.role = .printer ∧ s.acc.jobs ≠ [] then firstItem (rewoundJobs s.acc.jobs) else s.nsc.print := by
  unfold tellCreditAbsent
  cases e.role with
  | printer => simp [printerPause_print]
  | fleet => simp [readerAbsent, clearCursor, withdrawReadFrame]
  | console | calibrator | meter | sign | panel => simp

/-- The read-out that a station set. -/
abbrev ReadOutEnds (e : Station) (s : State) : Prop := e.role = .fleet ∧ ∃ c, s.jnl.cursor = some c ∧ c.station = e.addr

theorem tellCreditAbsent_reader (e : Station) (s : State) : if ReadOutEnds e s
    then (tellCreditAbsent e s).jnl = { s.jnl with cursor := none, credit := 0 } ∧ (tellCreditAbsent e s).nsc.journal = none
    else (tellCreditAbsent e s).jnl = s.jnl ∧ (tellCreditAbsent e s).nsc.journal = s.nsc.journal := by
  have hends : s.jnl.cursor.any (fun c => decide (c.station = e.addr)) = true
      ↔ ∃ c, s.jnl.cursor = some c ∧ c.station = e.addr := by
    cases s.jnl.cursor <;> simp
  by_cases hfleet : e.role = .fleet
  · have hshape : tellCreditAbsent e s = readerAbsent e.addr s := by simp [tellCreditAbsent, hfleet]
    rw [hshape]
    by_cases h : ∃ c, s.jnl.cursor = some c ∧ c.station = e.addr
    · rw [if_pos ⟨hfleet, h⟩, readerAbsent, if_pos (hends.2 h)]
      simp [clearCursor, withdrawReadFrame]
    · rw [if_neg (fun hr => h hr.2), readerAbsent, if_neg (mt hends.1 h)]
      exact ⟨rfl, rfl⟩
  · rw [if_neg (fun hr => hfleet hr.1)]
    by_cases hprinter : e.role = .printer
    · simp [tellCreditAbsent, hprinter]
    · have hshape : tellCreditAbsent e s = s := by
        unfold tellCreditAbsent
        split
        · exact absurd ‹_› hprinter
        · exact absurd ‹_› hfleet
        · rfl
      rw [hshape]
      exact ⟨rfl, rfl⟩

theorem rewoundJobs_twice (jobs : List Job) : rewoundJobs (rewoundJobs jobs) = rewoundJobs jobs := by
  cases jobs <;> rfl

end Sys2Proof.Machine
end

section
/-!
SETTLED OBLIGATIONS. Six seconds of silence (01 R8).
-/

namespace Sys2Proof.Machine

theorem stationOf_updateStation {a : Nat} {f : Station → Station} (hf : ∀ e, (f e).addr = e.addr) (s : State) :
    stationOf (updateStation a f s) a = (stationOf s a).map f := by
  unfold stationOf updateStation
  have hsame : (fun e => decide (e.addr = a)) ∘ (fun e => if e.addr = a then f e else e)
      = fun e => decide (e.addr = a) := by
    funext e
    by_cases h : e.addr = a <;> simp [h, hf]
  rw [List.find?_map, hsame]
  cases h : s.lif.stations.find? (fun e => decide (e.addr = a)) with
  | none => rfl
  | some e =>
    have haddr : e.addr = a := by simpa using List.find?_some h
    simp [haddr]

theorem queuedOn_congr {u s : State} (h : u.icm = s.icm) (held : Option Port) : queuedOn held u = queuedOn held s := by
  have hphase : ∀ p, callPhase u p = callPhase s p := callPhase_congr (by rw [h])
  simp only [queuedOn, hphase, h]

/-- The part in which the blocks are told that an entry has become ABSENT. -/
def heardNone (a : Nat) (e : Station) (s : State) : State :=
  updateStation a (fun x => { x with present := false }) (passTo (e.silenceFrom + 86400000) s)

theorem silenceBody_eq {a : Nat} {e : Station} {s : State} (he : stationOf s a = some e) (hp : e.present = true) :
    silenceBody a s = letGo (tellAbsent e (heardNone a e s)) := by
  simp [silenceBody, he, hp, heardNone, silenceTime, seconds]

/-- The station that the end of a waiting call lets leave. -/
theorem leaverOf_eq_some {held : Option Port} {s t : State} {e : Station} (h : leaverOf held s t = some e) :
    ∃ x, queuedOn held s = some x ∧ stationOf s x.addr = some e ∧ e.addr = x.addr ∧ e.present = false
      ∧ e.silenceFrom + 518400000 ≤ s.time := by
  obtain ⟨hnamed, hgone⟩ := Option.filter_eq_some_iff.1 h
  obtain ⟨x, hx, he⟩ := Option.bind_eq_some_iff.1 hnamed
  have haddr : e.addr = x.addr := by simpa using List.find?_some he
  simp only [Bool.and_eq_true, Bool.not_eq_true', decide_eq_true_eq] at hgone
  exact ⟨x, hx, he, haddr, hgone.1.1, hgone.1.2⟩

section
variable {e : Station} {v : State}

/-- The part when the holder of its claims has been dealt with. -/
abbrev claimsEnded (e : Station) (v : State) : State := holderAbsent e.addr (unbindPort e (tellCabAbsent e v))

/-- The part when the entry's port has become unbound. -/
abbrev portFreed (e : Station) (v : State) : State := unbound e.port (tellCabAbsent e v)

theorem portFreed_young (hst : stationOf v e.addr = some { e with present := false })
    (hyoung : v.time < e.silenceFrom + 518400000) :
    stationOf (portFreed e v) e.addr = some { e with present := false } ∧ Young e.addr (portFreed e v) := by
  have hstation : stationOf (portFreed e v) e.addr = some { e with present := false } := by
    obtain ⟨hst', -, -, -⟩ := unbound_loses e.port (tellCabAbsent e v)
    have hsame : stationOf (portFreed e v) e.addr
        = stationOf ((leaverOf e.port (tellCabAbsent e v) (portFreed e v)).elim (tellCabAbsent e v)
          (fun x => removeEntry x.addr (tellCabAbsent e v))) e.addr := by
      simp only [stationOf]
      rw [hst']
    have htold : stationOf (tellCabAbsent e v) e.addr = some { e with present := false } := by
      rw [← hst]
      simp [stationOf]
    rw [hsame]
    cases hleaver : leaverOf e.port (tellCabAbsent e v) (portFreed e v) with
    | none => exact htold
    | some x =>
      obtain ⟨y, -, hx, haddr, -, hdue⟩ := leaverOf_eq_some hleaver
      rw [← haddr] at hx
      have hne : e.addr ≠ x.addr := fun h => by
        rw [← h, htold] at hx
        obtain rfl := Option.some.inj hx
        simp only [tellCabAbsent_frame] at hdue
        exact absurd hdue (Nat.not_le.2 hyoung)
      rw [Option.elim_some, stationOf_removeEntry hx hne, htold]
  refine ⟨hstation, fun x hx => .inr ?_⟩
  obtain rfl := Option.some.inj (hstation.symm.trans hx)
  have htime : (portFreed e v).time = v.time := by
    rw [portFreed, ← unbindPort_eq]
    simp
  rw [htime]
  exact hyoung

end

/-- The part after the blocks have been told, by the stages of the telling. -/
theorem tellAbsent_eq (e : Station) (v : State) : tellAbsent e v = tellCreditAbsent e (holderAbsent e.addr (portFreed e v)) := by
  rw [tellAbsent, unbindPort_eq]

/-- The accounts when the printers that go have paused the print jobs. -/
abbrev pausedIf (c : Prop) [Decidable c] (a : Acc) : Acc :=
  if c then { a with credit := 0, jobs := rewoundJobs a.jobs } else a

theorem pausedIf_acc (c : Prop) [Decidable c] (a : Acc) {b : Acc} (h : b = pausedIf c a) :
    ∃ jobs credit, b = { a with jobs := jobs, credit := credit } := by
  by_cases hc : c
  · exact ⟨_, _, by rw [h, pausedIf, if_pos hc]⟩
  · exact ⟨a.jobs, a.credit, by rw [h, pausedIf, if_neg hc]⟩

/-- The print slot when the printers that go have paused the print jobs. -/
abbrev itemIf (c : Prop) [Decidable c] (s : State) : Option PrintItem :=
  if c ∧ s.acc.jobs ≠ [] then firstItem (rewoundJobs s.acc.jobs) else s.nsc.print

section
variable {e : Station} {v t : State} (ht : t = letGo (tellAbsent e v))
  (hst : stationOf v e.addr = some { e with present := false }) (hyoung : v.time < e.silenceFrom + 518400000)
include ht hst hyoung

/-- The claims of the entry have ended, and the stations are those that the unbinding left. -/
theorem tellAbsent_claims : (∀ i, SlotAfterHolder e.addr i v t) ∧ t.lif.stations = (portFreed e v).lif.stations
    ∧ t.cab = (portFreed e v).cab := by
  obtain ⟨hslots, hst', hcab, -, -⟩ := holderAbsent_young (portFreed_young hst hyoung).2
  have hfreed : ∀ i, SlotKept i v (portFreed e v) := fun i => by
    rw [portFreed, ← unbindPort_eq]
    exact ⟨legAt_congr (by simp) i, by simp⟩
  have hlast : ∀ i, SlotKept i (holderAbsent e.addr (portFreed e v)) t := fun i => by
    rw [ht, tellAbsent_eq]
    exact ⟨legAt_congr (by simp) i, by simp⟩
  refine ⟨fun i => ((hslots i).of_before (hfreed i)).of_kept (hlast i), ?_, ?_⟩
  · rw [← hst', ht, tellAbsent_eq]
    simp
  · rw [← hcab, ht, tellAbsent_eq]
    simp

/-- Printer credit and the print jobs. -/
theorem tellAbsent_acc : t.acc = if e.role = .printer
      then { (portFreed e v).acc with credit := 0, jobs := rewoundJobs (portFreed e v).acc.jobs } else (portFreed e v).acc := by
  obtain ⟨-, -, -, hacc, -⟩ := holderAbsent_young (portFreed_young hst hyoung).2
  rw [← hacc, ← tellCreditAbsent_acc, ht, tellAbsent_eq]
  simp

theorem tellAbsent_print : t.nsc.print = if e.role = .printer ∧ (portFreed e v).acc.jobs ≠ []
      then firstItem (rewoundJobs (portFreed e v).acc.jobs) else (portFreed e v).nsc.print := by
  obtain ⟨-, -, -, hacc, hprint⟩ := holderAbsent_young (portFreed_young hst hyoung).2
  rw [← hacc, ← hprint, ← tellCreditAbsent_print, ht, tellAbsent_eq]
  simp

/-- The stations, the watches and the print jobs: every station stays, or the one whose waiting call ends leaves. -/
theorem tellAbsent_loses :
    (t.lif.stations = v.lif.stations ∧ t.cab = (tellCabAbsent e v).cab
      ∧ t.acc = pausedIf (e.role = .printer) (tellCabAbsent e v).acc ∧ t.nsc.print = itemIf (e.role = .printer) v)
    ∨ ∃ x z, queuedOn e.port v = some x ∧ stationOf v x.addr = some z ∧ z.present = false
      ∧ z.silenceFrom + 518400000 ≤ v.time
      ∧ t.lif.stations = v.lif.stations.filter (fun y => decide (y.addr ≠ x.addr)) ∧ t.lif.stations ≠ v.lif.stations
      ∧ t.cab = { (tellCabAbsent e v).cab with
          watches := (tellCabAbsent e v).cab.watches.filter (fun y => decide (y.addr ≠ x.addr)) }
      ∧ t.acc = pausedIf (e.role = .printer ∨ z.role = .printer) (tellCabAbsent e v).acc
      ∧ t.nsc.print = itemIf (e.role = .printer ∨ z.role = .printer) v := by
  obtain ⟨-, hstations, hcab⟩ := tellAbsent_claims ht hst hyoung
  have hacc := tellAbsent_acc ht hst hyoung
  have hprint := tellAbsent_print ht hst hyoung
  obtain ⟨hst', hcab', hacc', hprint'⟩ := unbound_loses e.port (tellCabAbsent e v)
  rw [hst'] at hstations
  rw [hcab'] at hcab
  rw [hacc'] at hacc
  rw [hacc', hprint'] at hprint
  cases hleaver : leaverOf e.port (tellCabAbsent e v) (portFreed e v) with
  | none =>
    rw [hleaver, Option.elim_none] at hstations hcab hacc hprint
    exact .inl ⟨by rw [hstations]; simp, hcab, hacc, by rw [hprint]; simp [itemIf]⟩
  | some z =>
    obtain ⟨x, hx, hz, haddr, habsent, hdue⟩ := leaverOf_eq_some hleaver
    rw [hleaver, Option.elim_some, haddr] at hstations hcab hacc hprint
    have hz' : stationOf v x.addr = some z := by
      rw [← hz]
      simp [stationOf]
    refine .inr ⟨x, z, (queuedOn_congr (by simp) e.port).symm.trans hx, hz', habsent, by simpa using hdue, ?_, ?_, ?_, ?_, ?_⟩
    · rw [hstations, removeEntry_stations hz]
      simp
    · rw [hstations]
      simpa using removeEntry_stations_ne hz
    · rw [hcab, removeEntry_cab hz]
    · rw [hacc, removeEntry_acc hz]
      by_cases hp : e.role = .printer <;> by_cases hp' : z.role = .printer <;> simp [pausedIf, hp, hp', rewoundJobs_twice]
    · rw [hprint, removeEntry_acc hz, removeEntry_print hz]
      by_cases hjobs : v.acc.jobs = [] <;> by_cases hp : e.role = .printer <;> by_cases hp' : z.role = .printer <;>
        simp [itemIf, hjobs, hp, hp', rewoundJobs_twice, rewoundJobs_eq_nil]

end

/-- The read-out and the journal. -/
theorem tellAbsent_reader {e : Station} {v t : State} (ht : t = letGo (tellAbsent e v)) : if ReadOutEnds e v
    then t.jnl = { (tellCabAbsent e v).jnl with cursor := none, credit := 0 } ∧ t.nsc.journal = none
    else t.jnl = (tellCabAbsent e v).jnl ∧ t.nsc.journal = v.nsc.journal := by
  have hreader := tellCreditAbsent_reader e (holderAbsent e.addr (unbindPort e (tellCabAbsent e v)))
  have hends : ReadOutEnds e (holderAbsent e.addr (unbindPort e (tellCabAbsent e v))) ↔ ReadOutEnds e v := by
    simp
  simp only [hends] at hreader
  rw [ht]
  simpa [tellAbsent] using hreader

/-- The call of the entry's port. -/
theorem tellAbsent_call {e : Station} {v t : State} (ht : t = letGo (tellAbsent e v)) : PortUnbound e.port v t := by
  have hcalls := unbound_unbound e.port (tellCabAbsent e v)
  refine portUnbound_congr (portUnbound_of hcalls ?_ ?_) (by simp) (by simp) (by simp)
  · rw [ht, tellAbsent_eq]
    simp
  · rw [ht, tellAbsent_eq]
    simp

/-- The part with other print jobs and printer credit. -/
abbrev printing (jobs : List Job) (credit : Nat) (s : State) : State := { s with acc := { s.acc with jobs := jobs, credit := credit } }

/-- JNL does not look at the print jobs when it is asked for a row. -/
theorem claimEventIfOpen_printing (time : DateTime) (b : EventBody) (jobs : List Job) (credit : Nat) (s : State) :
    (claimEventIfOpen time b (printing jobs credit s)).jnl = (claimEventIfOpen time b s).jnl
      ∧ (claimEventIfOpen time b (printing jobs credit s)).acc
        = { (claimEventIfOpen time b s).acc with jobs := jobs, credit := credit } := by
  have hopen : shiftIsOpen (printing jobs credit s) = shiftIsOpen s := rfl
  have hgrant : eventGranted (printing jobs credit s) b = eventGranted s b := by
    unfold eventGranted eventNeeds
    rw [occupied_congr (s := s) (u := printing jobs credit s) rfl, freeRows_congr (s := printing jobs credit s) (u := s) rfl rfl]
  constructor
  · rw [claimEventIfOpen_jnl, claimEventIfOpen_jnl, hgrant, hopen,
      claim_jnl_congr (s := s) (u := printing jobs credit s) rfl rfl rfl]
  · rw [claimEventIfOpen_acc, claimEventIfOpen_acc, hgrant, hopen]
    split <;> rfl

theorem counting_printing (f : Totals → Totals) (jobs : List Job) (credit : Nat) (s : State) :
    printing jobs credit (counting f s) = counting f (printing jobs credit s) := by
  have hopen : shiftIsOpen (printing jobs credit s) = shiftIsOpen s := rfl
  unfold counting
  rw [hopen]
  split <;> rfl

theorem AskedAlike.printing {u s : State} (h : AskedAlike u s) (jobs : List Job) (credit : Nat) :
    AskedAlike (printing jobs credit u) (printing jobs credit s) := by
  obtain ⟨hj, ha, hp, hacc, hf⟩ := h
  refine ⟨hj, ha, hp, ?_, (occupied_congr rfl).trans (hf.trans (occupied_congr rfl).symm)⟩
  simp [hacc]

/-- The row of a sign that has become LOST, asked for beside a printer that pauses. -/
theorem signAbsent_asked {s v t : State} {jobs : List Job} {credit : Nat} (hlost : v.cab.sign.confirm ≠ .lost)
    (hj : t.jnl = (signAbsent v).jnl) (ha : t.acc = { (signAbsent v).acc with jobs := jobs, credit := credit })
    (halike : AskedAlike v s) (hclock : v.odo.clock = s.odo.clock) (hcab : v.cab = s.cab) :
    EventAsked s.odo.clock (.signLost s.cab.sign.pattern s.cab.sign.seq)
      (counting (fun c => { c with signFaults := min 65535 (c.signFaults + 1) }) (printing jobs credit s)) t := by
  obtain ⟨-, -, w, hw, hjnl, hacc⟩ := signAbsent_leaves hlost
  rw [hclock, hcab] at hjnl hacc
  obtain ⟨hj', ha'⟩ := claimEventIfOpen_printing s.odo.clock (.signLost s.cab.sign.pattern s.cab.sign.seq) jobs credit w
  refine eventAsked_of_alike (u := printing jobs credit w) ?_ (by rw [hj, hjnl, hj']) (by rw [ha, hacc, ha'])
  have hboth := (halike.counting (fun c => { c with signFaults := min 65535 (c.signFaults + 1) })).printing jobs credit
  have hfirst := hw.printing jobs credit
  rw [← counting_printing]
  obtain ⟨h1, h2, h3, h4, h5⟩ := hfirst
  obtain ⟨g1, g2, g3, g4, g5⟩ := hboth
  exact ⟨h1.trans g1, h2.trans g2, h3.trans g3, h4.trans g4, h5.trans g5⟩

/-- Settles O11. -/
theorem silenceMakesEntryAbsent : Obligations.SilenceMakesEntryAbsent := by
  intro a e s hact he hpresent hdue heard rests u released ended
  obtain rfl : e.addr = a := by simpa using List.find?_some he
  refine ⟨_, whenActive_of_active hact (silenceBody e.addr), ?_⟩
  rw [silenceBody_eq he hpresent]
  obtain ⟨v, hv⟩ : ∃ v, v = heardNone e.addr e s := ⟨_, rfl⟩
  obtain ⟨t, ht⟩ : ∃ t, t = letGo (tellAbsent e v) := ⟨_, rfl⟩
  rw [← hv, ← ht]
  have htime : v.time = e.silenceFrom + 86400000 := by
    rw [hv]
    simpa [heardNone, passTo] using hdue
  have hyoung : v.time < e.silenceFrom + 518400000 := by
    rw [htime]
    exact Nat.add_lt_add_left (by decide) _
  have hvst : stationOf v e.addr = some { e with present := false } := by
    have hsame : stationOf (passTo (e.silenceFrom + 86400000) s) e.addr = some e := he
    rw [hv, heardNone, stationOf_updateStation (f := fun x => { x with present := false }) (fun _ => rfl), hsame]
    rfl
  obtain ⟨hslots, hfreed, -⟩ := tellAbsent_claims ht hvst hyoung
  have hreader := tellAbsent_reader ht
  have hcall := tellAbsent_call ht
  have hloses := tellAbsent_loses ht hvst hyoung
  have hvu : v = { s with time := e.silenceFrom + 86400000, lif := { s.lif with stations := heard } } := by
    rw [hv, heardNone, passTo, Nat.max_eq_right hdue]
    rfl
  have hwatches : (tellCabAbsent e v).cab.watches = rests := by
    rw [tellCabAbsent_watches, hvu]
  have hcredit : (pausedIf (e.role = .printer) (tellCabAbsent e v).acc).credit = u.acc.credit := by
    by_cases hrole : e.role = .printer <;> simp [pausedIf, u, hrole, hvu]
  have hqueued : queuedOn e.port v = queuedOn e.port s := queuedOn_congr (by simp [hvu]) e.port
  have hclaims : ∀ i, SlotAfterHolder e.addr i s t := fun i => (hslots i).of_before (by rw [hvu]; exact ⟨rfl, rfl⟩)
  refine ⟨by rw [ht, ← htime]; simp, ?_, ?_, ?_, ?_, ?_, ?_, ?_, ?_, ?_, ?_, ?_⟩
  · rw [← (portFreed_young hvst hyoung).1]
    simp only [stationOf, hfreed]
  · change match queuedOn e.port s with
      | some x => ReferenceEnded x.addr u t
      | none => t.lif.stations = u.lif.stations ∧ t.cab.watches = u.cab.watches ∧ t.acc.credit = u.acc.credit
    rcases hloses with ⟨hst, hcab, hacc, -⟩ | ⟨x, z, hx, hz, habsent, hdue', hst, -, hcab, hacc, -⟩
    · have hkept : t.lif.stations = u.lif.stations ∧ t.cab.watches = u.cab.watches ∧ t.acc.credit = u.acc.credit :=
        ⟨by rw [hst, hvu], by rw [hcab, hwatches], by rw [hacc, hcredit]⟩
      cases queuedOn e.port s with
      | none => exact hkept
      | some x => exact .inl hkept
    · rw [hqueued] at hx
      rw [hx]
      refine .inr ⟨z, ?_, habsent, by rw [ht]; simpa using hdue', ?_, ?_, ?_⟩
      · rw [← hz, hvu]
        rfl
      · rw [hst, hvu]
      · rw [hcab, hwatches]
      · by_cases hz : z.role = .printer
        · exact .inr hz
        · simp only [hz, or_false] at hacc
          exact .inl (by rw [hacc, hcredit])
  · by_cases hrole : e.role = .printer
    · rw [if_pos hrole]
      have hpaused : t.acc.jobs = rewoundJobs s.acc.jobs ∧ t.nsc.print = itemIf True v := by
        rcases hloses with ⟨-, -, hacc, hprint⟩ | ⟨x, z, -, -, -, -, -, -, -, hacc, hprint⟩
        · simp only [hrole] at hacc hprint
          exact ⟨by rw [hacc]; simp [pausedIf, hvu], hprint⟩
        · simp only [hrole, true_or] at hacc hprint
          exact ⟨by rw [hacc]; simp [pausedIf, hvu], hprint⟩
      obtain ⟨hjobs, hprint⟩ := hpaused
      refine ⟨hjobs, ?_⟩
      rw [hprint, hjobs]
      by_cases hnone : s.acc.jobs = [] <;> simp [itemIf, hvu, hnone]
    · rw [if_neg hrole]
      intro hstays
      rcases hloses with ⟨-, -, hacc, hprint⟩ | ⟨x, z, -, -, -, -, -, hst, -⟩
      · exact ⟨by rw [hacc]; simp [pausedIf, hrole, hvu], by rw [hprint]; simp [itemIf, hrole, hvu]⟩
      · exact absurd (hstays.trans (by rw [hvu])) hst
  · by_cases hsign : e.role = .sign ∧ s.cab.sign.confirm ≠ .lost
    · rw [if_pos hsign]
      obtain ⟨hrole, hlost⟩ := hsign
      have htold : tellCabAbsent e v = signAbsent v := by simp [tellCabAbsent, hrole]
      have hvlost : v.cab.sign.confirm ≠ .lost := by rw [hvu]; exact hlost
      obtain ⟨hsign, hsignDue, -⟩ := signAbsent_leaves hvlost
      rw [htold] at hloses hreader
      have hkept : t.cab.sign = (signAbsent v).cab.sign ∧ t.cab.signDue = (signAbsent v).cab.signDue
          ∧ ∃ jobs credit, t.acc = { (signAbsent v).acc with jobs := jobs, credit := credit } := by
        rcases hloses with ⟨-, hcab, hacc, -⟩ | ⟨x, z, -, -, -, -, -, -, hcab, hacc, -⟩
        · exact ⟨by rw [hcab], by rw [hcab], pausedIf_acc _ _ hacc⟩
        · exact ⟨by rw [hcab], by rw [hcab], pausedIf_acc _ _ hacc⟩
      obtain ⟨h1, h2, jobs, credit, h3⟩ := hkept
      have hgone : ¬ ReadOutEnds e v := fun h => by
        have := h.1
        simp [hrole] at this
      rw [if_neg hgone] at hreader
      have hjobs : t.acc.jobs = jobs ∧ t.acc.credit = credit := by rw [h3]; exact ⟨rfl, rfl⟩
      refine ⟨?_, ?_, ?_⟩
      · rw [h1, hsign, hvu]
      · rw [h2, hsignDue, ht]
        simp
      · rw [hjobs.1, hjobs.2]
        refine signAbsent_asked hvlost hreader.1 h3 ?_ (by rw [hvu]) (by rw [hvu])
        rw [hvu]
        exact ⟨rfl, rfl, rfl, rfl, rfl⟩
    · refine (if_neg hsign).mpr ?_
      obtain ⟨hcab, hacc, hjnl⟩ := tellCabAbsent_of_not_sign (e := e) (s := v) (by rw [hvu]; exact hsign)
      have hstands : (tellCabAbsent e v).cab.sign = s.cab.sign ∧ (tellCabAbsent e v).cab.signDue = s.cab.signDue := by
        rw [hcab, hvu]
        exact ⟨rfl, rfl⟩
      have haccs : (tellCabAbsent e v).acc = s.acc := by rw [hacc, hvu]
      have hjnls : (tellCabAbsent e v).jnl = s.jnl := by rw [hjnl, hvu]
      rw [haccs] at hloses
      rw [hjnls] at hreader
      obtain ⟨hstandsSign, hstandsDue⟩ := hstands
      have hshift : ∀ (c : Prop) [Decidable c], t.acc = pausedIf c s.acc → t.acc.shift = s.acc.shift := fun c _ h => by
        obtain ⟨_, _, h⟩ := pausedIf_acc c s.acc h
        rw [h]
      have hkept : t.cab.sign = s.cab.sign ∧ t.cab.signDue = s.cab.signDue ∧ t.acc.shift = s.acc.shift := by
        rcases hloses with ⟨-, hcab, hacc, -⟩ | ⟨x, z, -, -, -, -, -, -, hcab, hacc, -⟩
        · exact ⟨by rw [hcab, hstandsSign], by rw [hcab, hstandsDue], hshift _ hacc⟩
        · exact ⟨by rw [hcab, ← hstandsSign], by rw [hcab, ← hstandsDue], hshift _ hacc⟩
      obtain ⟨h1, h2, h3⟩ := hkept
      refine ⟨h1, h2, h3, ?_⟩
      split at hreader
      · rw [hreader.1]
      · rw [hreader.1]
  · intro hended
    have hends : ReadOutEnds e v := by rw [hvu]; exact hended
    rw [if_pos hends] at hreader
    rw [hreader.1]
    exact ⟨rfl, rfl, hreader.2⟩
  · intro hended
    have hends : ¬ ReadOutEnds e v := by rw [hvu]; exact hended
    rw [if_neg hends] at hreader
    rw [hreader.1, hreader.2]
    simp [hvu]
  · intro i hl
    have := hclaims i
    simpa only [SlotAfterHolder, hl] using this
  · intro i l hl
    have := hclaims i
    simpa only [SlotAfterHolder, hl] using this
  · exact portUnbound_congr hcall (by simp [hvu, u]) (by simp [hvu, u]) (by simp [hvu, u])
  · rw [ht]
    refine transmitterKept_letGo (.inr (tx_eq_of_kept ?_))
    have htold := tellAbsent_tx e v
    rw [hvu] at htold ⊢
    exact htold
  · rw [ht, hvu]
    apply State.ext <;> simp
    case lif => apply Lif.ext <;> simp
    case nsc => apply Nsc.ext <;> simp
    case fare => apply Fare.ext <;> simp
    case cab => apply Cab.ext <;> simp
    case icm => apply Icm.ext <;> simp
    case acc => apply Acc.ext <;> simp

end Sys2Proof.Machine
end

section
/-!
SETTLED OBLIGATIONS. An ANNOUNCE and the station table (01 R6, R7).
-/

namespace Sys2Proof.Machine

/-! ### The binding of an announced port (01 R7) -/

/-- An entry once an ANNOUNCE from the address `a`, whose entry held `held`, has been acted on. -/
def announcedStation (s : State) (a : Nat) (held named : Option Port) (r : Role) (x : Station) : Station :=
  if x.addr = a then (if portAfter s a held named r = held then x else { x with port := portAfter s a held named r })
  else bystander s a held named r x

theorem announcedStation_kept {s : State} {a : Nat} {held named : Option Port} {r : Role}
    (h : portAfter s a held named r = held) (x : Station) : announcedStation s a held named r x = x := by
  unfold announcedStation bystander
  rw [h, if_pos rfl]
  cases held <;> simp

theorem map_announcedStation_kept {s : State} {a : Nat} {held named : Option Port} {r : Role}
    (h : portAfter s a held named r = held) (xs : List Station) : xs.map (announcedStation s a held named r) = xs := by
  have hid : announcedStation s a held named r = id := funext fun x => announcedStation_kept h x
  rw [hid, List.map_id]

/-- The fault set once an ANNOUNCE has named a port. -/
abbrev clashed (s : State) (a : Nat) (held named : Option Port) (r : Role) : Flt :=
  if portClash s a held named r then { s.flt with latched := s.flt.latched ||| 8#16 } else s.flt

theorem raise_addressClash (s : State) :
    (raise .addressClash s).flt = { s.flt with latched := s.flt.latched ||| 8#16 } := rfl

theorem announcedStation_addr {s : State} {a : Nat} {held named : Option Port} {r : Role} (x : Station) :
    (announcedStation s a held named r x).addr = x.addr := by
  unfold announcedStation bystander
  (repeat' split) <;> rfl

theorem stationOf_map {s t : State} {f : Station → Station} (hf : ∀ x, (f x).addr = x.addr)
    (h : t.lif.stations = s.lif.stations.map f) (a : Nat) : stationOf t a = (stationOf s a).map f := by
  unfold stationOf
  rw [h, List.find?_map]
  congr 1
  simp only [Function.comp_def, hf]

/-- What an ANNOUNCE makes of the table and the fault set where its sender has an entry of its role. -/
theorem bindIfPanel_leaves {q : QFrame} {e : Station} {r : Role} {s : State} (he : stationOf s q.src = some e) :
    (bindIfPanel r q s).lif.stations = s.lif.stations.map (announcedStation s q.src e.port (Port.ofNumber (q.at 1 1)) r)
      ∧ (bindIfPanel r q s).flt = clashed s q.src e.port (Port.ofNumber (q.at 1 1)) r := by
  obtain ⟨named, hnamed⟩ : ∃ named, named = Port.ofNumber (q.at 1 1) := ⟨_, rfl⟩
  rw [← hnamed]
  by_cases hr : r = .panel
  · have hshape : bindIfPanel r q s = bindPort q.src named s := by
      rw [bindIfPanel, if_pos hr, announcedPort, if_pos hr, hnamed]
    rw [hshape]
    unfold bindPort clashed portClash
    rw [he]
    dsimp only
    cases hport : e.port with
    | some held =>
      have hkept : portAfter s q.src (some held) named r = some held := by simp [portAfter, hr]
      rw [map_announcedStation_kept hkept]
      cases named with
      | none => simp
      | some p => by_cases hp : held = p <;> simp [hp, hr, raise_addressClash]
    | none =>
      cases named with
      | none =>
        have hkept : portAfter s q.src none none r = none := by simp [portAfter, hr]
        rw [map_announcedStation_kept hkept]
        simp
      | some p =>
        by_cases hheld : heldElsewhere s p q.src = true
        · have hkept : portAfter s q.src none (some p) r = none := by simp [portAfter, hr, hheld]
          rw [map_announcedStation_kept hkept]
          simp [hheld, hr, raise_addressClash]
        · have htaken : portAfter s q.src none (some p) r = some p := by simp [portAfter, hr, hheld]
          simp only [if_neg hheld]
          refine ⟨List.map_congr_left fun x _ => ?_, by simp [hheld]⟩
          simp [announcedStation, bystander, htaken]
  · have hkept : portAfter s q.src e.port named r = e.port := by simp [portAfter, hr]
    rw [bindIfPanel, if_neg hr, map_announcedStation_kept hkept]
    exact ⟨rfl, by simp [clashed, portClash, hr]⟩

/-! ### A created entry (01 R6, 05 R87, R88) -/

/-- An entry has been created in `u`, and the blocks have been told. -/
abbrev EntryCreated (q : QFrame) (r : Role) (u v : State) : Prop :=
  v.lif.stations = u.lif.stations.map (bystander u q.src none (Port.ofNumber (q.at 1 1)) r)
      ++ [⟨q.src, r, portAfter u q.src none (Port.ofNumber (q.at 1 1)) r, true, u.time⟩]
    ∧ v.cab.watches = u.cab.watches ++ (if r = .panel then [Watch.empty q.src] else [])
    ∧ v.flt = clashed u q.src none (Port.ofNumber (q.at 1 1)) r
    ∧ (if r = .sign then
        v.nsc.sign = some ⟨u.cab.sign.pattern, u.cab.sign.flag, u.cab.sign.seq⟩
        ∧ v.cab.signDue = (match u.cab.sign.confirm with
          | .confirmed => none
          | .waiting => some (u.time + 14400000)
          | .lost => some (u.time + 72000000))
      else v.nsc.sign = u.nsc.sign ∧ v.cab.signDue = u.cab.signDue)

/-- The sign block is told of a created SIGN entry. -/
def entryTold (r : Role) (u : State) : State := if r = .sign then signPresent u else u

theorem createEntry_eq (r : Role) (q : QFrame) (u : State) :
    createEntry r q u = bindIfPanel r q (entryTold r (addEntry r q.src u)) := rfl

@[simp] theorem entryTold_frame (r : Role) (u : State) : (entryTold r u).lif.stations = u.lif.stations
    ∧ (entryTold r u).cab.watches = u.cab.watches ∧ (entryTold r u).flt = u.flt := by
  unfold entryTold
  split <;> simp

theorem createEntry_leaves {q : QFrame} {r : Role} {u : State} (hnone : stationOf u q.src = none) :
    EntryCreated q r u (createEntry r q u) := by
  obtain ⟨w, hw⟩ : ∃ w, w = entryTold r (addEntry r q.src u) := ⟨_, rfl⟩
  obtain ⟨named, hnamed⟩ : ∃ named, named = Port.ofNumber (q.at 1 1) := ⟨_, rfl⟩
  have hst : w.lif.stations = u.lif.stations ++ [⟨q.src, r, none, true, u.time⟩] := by
    rw [hw]
    simp [addEntry]
  have hentry : stationOf w q.src = some ⟨q.src, r, none, true, u.time⟩ := by
    have hold : u.lif.stations.find? (fun x => decide (x.addr = q.src)) = none := hnone
    unfold stationOf
    rw [hst, List.find?_append, hold]
    simp
  have hheld : ∀ p, heldElsewhere w p q.src = heldElsewhere u p q.src := fun p => by
    simp [heldElsewhere, hst]
  have hafter : portAfter w q.src none named r = portAfter u q.src none named r := by
    cases named <;> simp [portAfter, hheld]
  obtain ⟨hstations, hflt⟩ := bindIfPanel_leaves (r := r) hentry
  unfold EntryCreated
  rw [createEntry_eq, ← hw, ← hnamed]
  rw [← hnamed] at hstations hflt
  refine ⟨?_, ?_, ?_, ?_⟩
  · rw [hstations, hst, List.map_append]
    congr 1
    · refine List.map_congr_left fun x hx => ?_
      have hne : x.addr ≠ q.src := stationOf_eq_none hnone x hx
      simp only [announcedStation, if_neg hne, bystander, hafter]
    · by_cases h : portAfter u q.src none named r = none <;> simp [announcedStation, hafter, h]
  · simp [hw, addEntry]
  · have hclash : portClash w q.src none named r = portClash u q.src none named r := by
      cases named <;> simp [portClash, hheld]
    rw [hflt, clashed, clashed, hclash, hw]
    simp
  · by_cases hr : r = .sign
    · rw [if_pos hr]
      have hshape : w = signPresent (addEntry r q.src u) := by rw [hw, entryTold, if_pos hr]
      have hsign : (bindIfPanel r q w).nsc.sign = w.nsc.sign ∧ (bindIfPanel r q w).cab = w.cab := by simp
      rw [hsign.1, hsign.2, hshape, signPresent_nsc, signPresent_cab]
      exact ⟨rfl, rfl⟩
    · rw [if_neg hr]
      have hshape : w = addEntry r q.src u := by rw [hw, entryTold, if_neg hr]
      simp [hshape]

/-- The two states agree in all that a created entry is read off before it is created. -/
abbrev CreatedAlike (u w : State) : Prop :=
  u.lif.stations = w.lif.stations ∧ u.cab.watches = w.cab.watches ∧ u.flt = w.flt ∧ u.time = w.time
    ∧ u.cab.sign = w.cab.sign ∧ u.cab.signDue = w.cab.signDue ∧ u.nsc.sign = w.nsc.sign

theorem EntryCreated.congr {q : QFrame} {r : Role} {u w v : State} (h : EntryCreated q r u v) (hu : CreatedAlike u w) :
    EntryCreated q r w v := by
  obtain ⟨hst, hwatches, hflt, htime, hsign, hdue, hslot⟩ := hu
  unfold EntryCreated clashed portClash bystander portAfter heldElsewhere at *
  rw [← hst, ← hwatches, ← hflt, ← htime, ← hsign, ← hdue, ← hslot]
  exact h

theorem EntryCreated.of_letGo {q : QFrame} {r : Role} {u v : State} (h : EntryCreated q r u v) :
    EntryCreated q r u (letGo v) := by
  unfold EntryCreated at *
  simpa using h

/-! ### The outcome of an ANNOUNCE (01 R6) -/

theorem announceBody_eq {q : QFrame} {rest : List QFrame} {r : Role} {s : State} (hq : s.lif.queue = q :: rest)
    (hkind : ReqKind.ofCode q.kind = some .announce) (hlen : q.payload.length = 2 ∨ q.payload.length = 9)
    (hrole : Role.ofCode (q.at 0 1) = some r) : announceBody s = announced r q { s with lif.queue := rest } := by
  have hallowed : (lengths .announce).contains q.payload.length = true := by
    rcases hlen with h | h <;> rw [h] <;> rfl
  simp only [announceBody, hq, hkind, hrole, hallowed]
  rfl

theorem announceBody_discards {q : QFrame} {rest : List QFrame} {s : State} (hq : s.lif.queue = q :: rest)
    (hkind : ReqKind.ofCode q.kind = some .announce)
    (hbad : (q.payload.length ≠ 2 ∧ q.payload.length ≠ 9) ∨ Role.ofCode (q.at 0 1) = none) :
    announceBody s = { s with lif.queue := rest } := by
  by_cases hlen : q.payload.length = 2 ∨ q.payload.length = 9
  · have hrole : Role.ofCode (q.at 0 1) = none := hbad.resolve_left (fun h => hlen.elim h.1 h.2)
    have hallowed : (lengths .announce).contains q.payload.length = true := by
      rcases hlen with h | h <;> rw [h] <;> rfl
    simp only [announceBody, hq, hkind, hrole, hallowed]
    rfl
  · have hrefused : (lengths .announce).contains q.payload.length = false := by
      simpa [lengths] using hlen
    simp only [announceBody, hq, hkind, hrefused]
    rfl

/-- The table without the entry of an address, and the watches without its record. -/
abbrev withoutEntry (a : Nat) (u : State) : State :=
  { u with lif := { u.lif with stations := u.lif.stations.filter (fun x => decide (x.addr ≠ a)) }
           cab := { u.cab with watches := u.cab.watches.filter (fun w => decide (w.addr ≠ a)) } }

theorem leaver_station {held : Option Port} {s t : State} {z : Station} (h : leaverOf held s t = some z) :
    stationOf s z.addr = some z := by
  obtain ⟨y, -, hz, haddr, -⟩ := leaverOf_eq_some h
  rw [haddr, hz]

/-- An entry that gives way to one of another role, by the station that may leave with it. -/
theorem replaceEntry_leaves {q : QFrame} {e : Station} {r : Role} {s t : State} (he : stationOf s q.src = some e)
    (ht : t = letGo (replaceEntry e r q s)) {leaver : Option Station}
    (hleaver : leaverOf e.port (withoutEntry q.src s) t = leaver) :
    PortUnbound e.port (withoutEntry q.src s) t
      ∧ EntryCreated q r (leaver.elim (withoutEntry q.src s) (fun x => withoutEntry x.addr (withoutEntry q.src s))) t
      ∧ t.acc = pausedIf (e.role = .printer ∨ leaver.any (fun x => decide (x.role = .printer)) = true) s.acc
      ∧ t.nsc.print = itemIf (e.role = .printer ∨ leaver.any (fun x => decide (x.role = .printer)) = true) s := by
  have haddr : e.addr = q.src := by simpa using List.find?_some he
  obtain ⟨w, hw⟩ : ∃ w, w = removeEntry q.src s := ⟨_, rfl⟩
  obtain ⟨x, hx⟩ : ∃ x, x = unbound e.port w := ⟨_, rfl⟩
  have hshape : t = letGo (createEntry r q x) := by
    rw [ht, hx, hw, replaceEntry, haddr, unbindPort_eq]
  have hwst : w.lif.stations = (withoutEntry q.src s).lif.stations := by rw [hw, removeEntry_stations he]
  have hwcab : w.cab = (withoutEntry q.src s).cab := by rw [hw, removeEntry_cab he]
  have hicm : t.icm = x.icm := by rw [hshape]; simp
  have hwicm : w.icm = s.icm := by rw [hw]; simp
  have hleaver : leaverOf e.port w x = leaver := by
    rw [← hleaver]
    have hqueued : queuedOn e.port w = queuedOn e.port (withoutEntry q.src s) := queuedOn_congr hwicm e.port
    have hstation : ∀ a, stationOf w a = stationOf (withoutEntry q.src s) a := fun a => by simp only [stationOf, hwst]
    have hnamed : ∀ a, referenced { w with icm := x.icm } a = referenced { withoutEntry q.src s with icm := t.icm } a :=
      fun a => referenced_congr (w := { w with icm := x.icm }) (s := { withoutEntry q.src s with icm := t.icm })
        (by rw [hw]; simp) (by rw [hicm]) a
    have htime : w.time = (withoutEntry q.src s).time := by rw [hw]; simp
    simp only [leaverOf, hqueued, hstation]
    congr 1
    funext y
    rw [hnamed y.addr, htime]
  obtain ⟨hst, hcab, hacc, hprint⟩ := unbound_loses e.port w
  rw [← hx, hleaver] at hst hcab hacc hprint
  have hxkept : x.flt = s.flt ∧ x.time = s.time ∧ x.nsc.sign = s.nsc.sign := by
    rw [hx, ← unbindPort_eq, hw]
    simp
  obtain ⟨hxflt, hxtime, hxsign⟩ := hxkept
  refine ⟨?_, ?_, ?_, ?_⟩
  · refine portUnbound_congr (portUnbound_of (hx ▸ unbound_unbound e.port w) hicm ?_) hwicm ?_ hwst
    · rw [hshape]; simp
    · rw [hw]; simp
  · have hgone : ∀ y ∈ w.lif.stations, y.addr ≠ q.src := stationOf_eq_none (hw ▸ removeEntry_gone he)
    cases leaver with
    | none =>
      rw [Option.elim_none] at hst hcab
      have hnone : stationOf x q.src = none := by simpa [stationOf, hst] using hgone
      rw [hshape, Option.elim_none]
      exact ((createEntry_leaves hnone).congr
        ⟨hst.trans hwst, by rw [hcab, hwcab], hxflt, hxtime, by rw [hcab, hwcab], by rw [hcab, hwcab], hxsign⟩).of_letGo
    | some z =>
      have hz := leaver_station hleaver
      rw [Option.elim_some] at hst hcab
      rw [removeEntry_stations hz] at hst
      rw [removeEntry_cab hz] at hcab
      have hnone : stationOf x q.src = none := by
        have hleft : ∀ y ∈ w.lif.stations.filter (fun y => decide (y.addr ≠ z.addr)), y.addr ≠ q.src :=
          fun y hy => hgone y (List.mem_filter.1 hy).1
        unfold stationOf
        rw [hst]
        simpa using hleft
      rw [hshape, Option.elim_some]
      exact ((createEntry_leaves hnone).congr (w := withoutEntry z.addr (withoutEntry q.src s)) ⟨by rw [hst, hwst], by rw [hcab, hwcab], hxflt, hxtime, by rw [hcab, hwcab],
        by rw [hcab, hwcab], hxsign⟩).of_letGo
  · have htacc : t.acc = x.acc := by rw [hshape]; simp
    rw [htacc, hacc]
    cases leaver with
    | none =>
      rw [Option.elim_none, hw, removeEntry_acc he]
      simp [pausedIf]
    | some z =>
      rw [Option.elim_some, removeEntry_acc (leaver_station hleaver), hw, removeEntry_acc he]
      by_cases hp : e.role = .printer <;> by_cases hz : z.role = .printer <;>
        simp [pausedIf, hp, hz, rewoundJobs_twice]
  · have htprint : t.nsc.print = x.nsc.print := by rw [hshape]; simp
    rw [htprint, hprint]
    cases leaver with
    | none =>
      rw [Option.elim_none, hw, removeEntry_print he]
      simp [itemIf]
    | some z =>
      rw [Option.elim_some, removeEntry_print (leaver_station hleaver), hw, removeEntry_print he, removeEntry_acc he]
      by_cases hjobs : s.acc.jobs = [] <;> by_cases hp : e.role = .printer <;> by_cases hz : z.role = .printer <;>
        simp [itemIf, hp, hz, hjobs, rewoundJobs_twice, rewoundJobs_eq_nil]

/-- Settles O13. -/
theorem announceActsByEntry : Obligations.AnnounceActsByEntry := by
  refine ⟨fun q rest r s hact hq hkind hlen hrole => ?_, fun q rest s hact hq hkind hbad => ?_⟩
  · intro a named clash created
    obtain ⟨t, ht⟩ : ∃ t, t = letGo (announced r q { s with lif.queue := rest }) := ⟨_, rfl⟩
    refine ⟨t, ?_, ?_, ?_, ?_⟩
    · rw [ht, ← announceBody_eq hq hkind hlen hrole]
      exact whenActive_of_active hact (fun u => letGo (announceBody u))
    · rw [ht]
      apply Lif.ext <;> simp
    · rw [ht]
      refine transmitterKept_letGo (.inr (tx_eq_of_kept ?_))
      exact announced_tx r q { s with lif.queue := rest }
    · have htflt : t.flt = (announced r q { s with lif.queue := rest }).flt := by rw [ht]; simp
      have hframe : t = { s with
          lif := t.lif, flt := t.flt, acc := t.acc
          nsc := { s.nsc with sign := t.nsc.sign, calls := t.nsc.calls, print := t.nsc.print }
          cab := { s.cab with watches := t.cab.watches, signDue := t.cab.signDue }
          icm := { s.icm with calls := t.icm.calls, queue := t.icm.queue, talk := t.icm.talk
                              prompts := t.icm.prompts, player := t.icm.player
                              promptSample := t.icm.promptSample, ringDue := t.icm.ringDue } } := by
        rw [ht]
        apply State.ext <;> simp
        case nsc => apply Nsc.ext <;> simp
        case cab => apply Cab.ext <;> simp
        case icm => apply Icm.ext <;> simp
      have hstation : stationOf ({ s with lif.queue := rest } : State) q.src = stationOf s q.src := rfl
      cases hs : stationOf s a with
      | none =>
        dsimp only
        by_cases hroom : s.lif.stations.length < 12
        · have hshape : announced r q { s with lif.queue := rest } = createEntry r q { s with lif.queue := rest } := by
            rw [announced, hstation, hs]
            exact if_pos hroom
          rw [if_pos hroom]
          rw [hshape] at ht
          refine ⟨?_, ?_⟩
          · have hcreated := (createEntry_leaves (q := q) (r := r) (u := { s with lif.queue := rest }) hs).of_letGo
            rw [← ht] at hcreated
            exact hcreated
          · rw [ht]
            apply State.ext <;> simp
            case nsc => apply Nsc.ext <;> simp
            case cab => apply Cab.ext <;> simp
        · have hshape : announced r q { s with lif.queue := rest } = raise .stationTableFull { s with lif.queue := rest } := by
            rw [announced, hstation, hs]
            exact if_neg hroom
          rw [if_neg hroom, ht, hshape]
          refine ⟨?_, by simp⟩
          apply State.ext <;> simp
          case flt => rfl
      | some e =>
        dsimp only
        by_cases hr : e.role = r
        · have hshape : announced r q { s with lif.queue := rest } = bindIfPanel r q { s with lif.queue := rest } := by
            rw [announced, hstation, hs]
            exact if_pos hr
          rw [if_pos hr]
          obtain ⟨hst, hflt⟩ := bindIfPanel_leaves (r := r) (s := { s with lif.queue := rest }) (hstation.trans hs)
          have htst : t.lif.stations = s.lif.stations.map (announcedStation s a e.port named r) := by
            have hkept : (letGo (bindIfPanel r q { s with lif.queue := rest })).lif.stations
                = (bindIfPanel r q { s with lif.queue := rest }).lif.stations := by simp
            rw [ht, hshape, hkept]
            exact hst
          refine ⟨?_, ?_, ?_, ?_⟩
          · have haddr : e.addr = a := by simpa using List.find?_some hs
            rw [stationOf_map announcedStation_addr htst, hs]
            by_cases hsame : portAfter s a e.port named r = e.port <;> simp [announcedStation, haddr, hsame]
            rw [← haddr]
          · rw [htflt, hshape, hflt]
            rfl
          · intro x hx
            rw [stationOf_map announcedStation_addr htst]
            cases hy : stationOf s x with
            | none => rfl
            | some y =>
              have haddr : y.addr = x := by simpa using List.find?_some hy
              simp [announcedStation, haddr, hx]
          · rw [ht, hshape]
            apply State.ext <;> simp
        · have haddr : e.addr = a := by simpa using List.find?_some hs
          rw [if_neg hr]
          by_cases hgone : (q.fromAbsent = true ∨ e.present = false) ∧ referenced s a = false
          · have hcond : ((q.fromAbsent || !e.present) && !referenced { s with lif.queue := rest } e.addr) = true := by
              rw [haddr, referenced_congr (w := { s with lif.queue := rest }) (s := s) rfl rfl]
              simpa using hgone
            have hshape : announced r q { s with lif.queue := rest } = replaceEntry e r q { s with lif.queue := rest } := by
              rw [announced, hstation, hs]
              exact (if_neg hr).trans (if_pos hcond)
            rw [hshape] at ht
            have hleaves := replaceEntry_leaves (s := { s with lif.queue := rest }) hs ht rfl
            rw [if_pos hgone]
            obtain ⟨hunbound, hcreated, hacc, hprint⟩ := hleaves
            refine ⟨?_, ?_, ?_, ?_, hframe⟩
            · exact hunbound
            · have hleft : ∀ leaver : Option Station, EntryCreated q r (leaver.elim (withoutEntry q.src { s with lif.queue := rest })
                    (fun x => withoutEntry x.addr (withoutEntry q.src { s with lif.queue := rest }))) t
                  → created (leaver.elim (withoutEntry q.src s) (fun x => withoutEntry x.addr (withoutEntry q.src s))) t := by
                intro leaver h
                cases leaver with
                | none => exact h
                | some z => exact h
              exact hleft _ hcreated
            · exact hacc
            · exact hprint
          · have hcond : ¬ ((q.fromAbsent || !e.present) && !referenced { s with lif.queue := rest } e.addr) = true := by
              rw [haddr, referenced_congr (w := { s with lif.queue := rest }) (s := s) rfl rfl]
              simpa using hgone
            have hshape : announced r q { s with lif.queue := rest } = raise .addressClash { s with lif.queue := rest } := by
              rw [announced, hstation, hs]
              exact (if_neg hr).trans (if_neg hcond)
            rw [if_neg hgone, ht, hshape]
            refine ⟨?_, by simp⟩
            apply State.ext <;> simp
            case flt => rfl
  · refine ⟨_, whenActive_of_active hact (fun u => letGo (announceBody u)), ?_⟩
    rw [announceBody_discards hq hkind hbad]
    exact ⟨lineKept_letGo rfl, by apply State.ext <;> simp⟩

end Sys2Proof.Machine
end

section
/-!
SETTLED OBLIGATIONS. The tariff store: TARIFF_BEGIN, TARIFF_PART, TARIFF_COMMIT and their array operations (03 R40 to R44, R47).
-/

namespace Sys2Proof.Machine

/-! ### Operations of the array (09 R162) -/

/-- An operation asked for in ACTIVE starts, or waits behind those before it. -/
theorem opAsked_requestOp {op : ArrayOp} {s u t : State} (hact : u.pwr.state = .active) (hj : u.jnl = s.jnl)
    (ht : t.jnl = (requestOp op u).jnl) : OpAsked op s t := by
  unfold OpAsked
  rw [ht, requestOp, hj]
  by_cases hfree : s.jnl.inFlight = none ∧ s.jnl.waiting = []
  · rw [if_pos ⟨hact, hfree⟩, if_pos hfree]
    unfold startOp
    dsimp only
    split <;> simp [hj]
  · rw [if_neg (fun h => hfree h.2), if_neg hfree]

theorem startOp_inFlight (op : ArrayOp) (s : State) : (startOp op s).jnl.inFlight = some op := by
  unfold startOp
  dsimp only
  split <;> simp

/-- The operation that became due first starts, in ACTIVE, with the array free. -/
theorem startNext_jnl {s : State} (hfree : s.jnl.inFlight = none) : (startNext s).jnl
    = if s.pwr.state = .active then
        { s.jnl with inFlight := s.jnl.waiting.head?, waiting := s.jnl.waiting.tail } else s.jnl := by
  unfold startNext
  by_cases hact : s.pwr.state = .active
  · rw [if_pos ⟨hact, hfree⟩, if_pos hact]
    cases h : s.jnl.waiting with
    | nil => apply Jnl.ext <;> simp [h, hfree]
    | cons op rest => apply Jnl.ext <;> simp [startOp_inFlight]
  · rw [if_neg (fun h => hact h.1), if_neg hact]

theorem startNext_of_nothing {s : State} (h : s.jnl.waiting = []) : startNext s = s := by
  unfold startNext
  rw [h]
  split <;> rfl

theorem completeOp_inFlight (s : State) : (completeOp s).jnl.inFlight = none := by simp [completeOp]

theorem completeOp_replies (s : State) : (completeOp s).nsc.replies = s.nsc.replies := by simp

theorem whenPowered_of {s : State} (h : s.pwr.state = .active ∨ s.pwr.state = .entering) (f : State → State) :
    whenPowered f s = .next (f s) := by
  rw [whenPowered, if_pos h]

/-- What the completion of an operation of the tariff store keeps. -/
@[simp] abbrev CompletionKeeps (t s : State) : Prop :=
  (t.pending = s.pending ∧ t.free = s.free ∧ t.time = s.time ∧ t.odo = s.odo ∧ t.pwr = s.pwr) ∧ Kept.shift t s
    ∧ t.icm = s.icm ∧ Kept.line t s ∧ Kept.tx t s ∧ t.lif.stations = s.lif.stations ∧ Kept.sends t s ∧ Kept.money t s
    ∧ (t.nsc.assist = s.nsc.assist ∧ t.nsc.sign = s.nsc.sign ∧ t.nsc.calls = s.nsc.calls ∧ t.nsc.fleet = s.nsc.fleet)
    ∧ Kept.ring t s ∧ t.jnl.sectors = s.jnl.sectors ∧ t.jnl.credit = s.jnl.credit

theorem frame_of_completion {s t : State} (h : CompletionKeeps t s) : t = { s with
    array := t.array, tar := t.tar, flt := t.flt
    nsc := { s.nsc with replies := t.nsc.replies, journal := t.nsc.journal }
    lif := { s.lif with tx := { s.lif.tx with renewed := t.lif.tx.renewed } }
    jnl := { s.jnl with inFlight := t.jnl.inFlight, waiting := t.jnl.waiting, cursor := t.jnl.cursor } } := by
  obtain ⟨⟨h1, h2, h3, h4, h5⟩, ⟨h6, h7, h8⟩, h9, h10, h11, h12, h13, h14, h15, h16, h17, h18⟩ := h
  obtain ⟨n1, n2, n3, n4, n5⟩ := h13
  obtain ⟨m1, m2, m3⟩ := h14
  obtain ⟨c1, c2, c3, c4⟩ := h15
  obtain ⟨r1, r2, r3, r4, r5⟩ := h16
  exact State.ext h1 h2 h3 rfl (lif_eq_of_kept h10 h11 h12)
    (Nsc.ext c1 rfl c2 m1 c3 m2 n1 c4 rfl m3 n2 n3 n4 n5) h4 rfl h6 h7 h9 h8 (Jnl.ext rfl rfl r1 r2 r3 r4 h17 r5 rfl h18) rfl h5

/-! ### The window's refusals (03 R41) -/

theorem windowRefusal_begun (s : State) : windowRefusal true s
    = if s.tar.window = .closed then some .state
      else if s.tar.window = .erasing ∨ s.tar.window = .writing then some .busy else none := by
  unfold windowRefusal
  cases s.tar.window <;> rfl

theorem windowRefusal_loads (s : State) : windowRefusal false s
    = if s.tar.window = .erasing ∨ s.tar.window = .writing then some .busy
      else if s.tar.window ≠ .loading then some .state else none := by
  unfold windowRefusal
  cases s.tar.window <;> rfl

/-! ### TARIFF_BEGIN (03 R42) -/

/-- With no tariff every watch rests (05 R90). -/
theorem handOver_none (s : State) : (handOver none s).tar = { s.tar with committed := none }
    ∧ ∀ w ∈ (handOver none s).cab.watches, w.count = 0 ∧ w.fired = false := by
  refine ⟨by simp [handOver], ?_⟩
  have hoff : watchEnabled { s with tar.committed := none } = false := rfl
  have hwatches : (handOver none s).cab.watches = s.cab.watches.map (fun w => { w with count := 0, fired := false }) := by
    simp [handOver, restWatches, hoff]
  rw [hwatches]
  intro w hw
  obtain ⟨x, -, rfl⟩ := List.mem_map.1 hw
  exact ⟨rfl, rfl⟩

/-- The erase of sector 0 is asked for: its ACCEPTED is placed with its start. -/
theorem requestErase_answers {q : QFrame} {s u : State} (hact : u.pwr.state = .active) (hj : u.jnl = s.jnl)
    (hr : u.nsc.replies = s.nsc.replies) (hflt : u.flt = s.flt) (hkind : ReqKind.tariffBegin.code = q.kind) :
    FaultsKept s (requestOp (.tariffErase 0 q.src) u)
      ∧ (if s.jnl.inFlight = none ∧ s.jnl.waiting = [] then
          Answered q (.accepted []) s (requestOp (.tariffErase 0 q.src) u)
        else (requestOp (.tariffErase 0 q.src) u).nsc.replies = s.nsc.replies) := by
  unfold requestOp
  rw [hj]
  by_cases hfree : s.jnl.inFlight = none ∧ s.jnl.waiting = []
  · rw [if_pos ⟨hact, hfree⟩, if_pos hfree]
    have hshape : startOp (.tariffErase 0 q.src) u
        = placeReply ⟨q.src, q.kind, .accepted []⟩ { u with jnl.inFlight := some (.tariffErase 0 q.src) } := by
      rw [← hkind]
      rfl
    rw [hshape]
    exact ⟨faultsKept_placeReply hr hflt, replied_placeReply hr⟩
  · rw [if_neg (fun h => hfree h.2), if_neg hfree]
    exact ⟨⟨by simp [hflt], fun i _ => by simp [hflt], fun _ => by simp [hflt]⟩, hr⟩

theorem kind_code {k : ReqKind} {c : Byte} (h : ReqKind.ofCode c = some k) : k.code = c := by
  simpa using List.find?_some h

/-- What a refused request of the load leaves. -/
theorem loadRefused {q : QFrame} {rest : List QFrame} {code : RefusalCode} {s t : State}
    (ht : t = letGo (refuse q code { s with lif.queue := rest })) :
    LineKept rest s t ∧ FaultsKept s t ∧ (Answered q (.refused code) s t ∧ t.tar = s.tar ∧ t.jnl = s.jnl)
      ∧ t.cab = s.cab ∧ t.nsc = { s.nsc with replies := t.nsc.replies }
      ∧ t = { s with lif := t.lif, nsc := t.nsc, flt := t.flt } := by
  rw [ht]
  refine ⟨lineKept_letGo (by simp), faultsKept_refuse rfl rfl, ⟨answered_refuse rfl, by simp, by simp⟩, by simp, ?_, ?_⟩
  · apply Nsc.ext <;> simp
  · apply State.ext <;> simp

/-- What an accepted TARIFF_BEGIN makes of the part before its erase is asked for. -/
def tariffDropped (s : State) : State := handOver none { s with tar.window := .erasing, tar.written := 0 }

/-- Settles O29. -/
theorem tariffBeginErasesArea : Obligations.TariffBeginErasesArea := by
  refine ⟨fun q e rest s hasks => ⟨_, takes_asks tariffBeginBody hasks, ?_⟩, fun c asker s hpow hfly => ?_⟩
  · obtain ⟨hact, -, hkind, -⟩ := id hasks
    have hwindow : windowRefusal true { s with lif.queue := rest } = windowRefusal true s := rfl
    obtain ⟨t, ht⟩ : ∃ t, t = letGo (tariffBeginBody q e { s with lif.queue := rest }) := ⟨_, rfl⟩
    rw [← ht]
    have hrefused : ∀ code, windowRefusal true s = some code → t = letGo (refuse q code { s with lif.queue := rest }) :=
      fun code h => by
        rw [ht, tariffBeginBody, hwindow, h]
    rw [windowRefusal_begun] at hrefused
    have hframe : t = { s with
        lif := t.lif, nsc := { s.nsc with replies := t.nsc.replies, sign := t.nsc.sign }, tar := t.tar
        cab := { s.cab with watches := t.cab.watches, sign := t.cab.sign, signDue := t.cab.signDue }
        jnl := t.jnl, flt := t.flt } := by
      rw [ht, tariffBeginBody]
      split
      · apply State.ext <;> simp
        case nsc => apply Nsc.ext <;> simp
      · apply State.ext <;> simp
        case nsc => apply Nsc.ext <;> simp
        case cab => apply Cab.ext <;> simp
    by_cases hclosed : s.tar.window = .closed
    · obtain ⟨hline, hflt, ⟨hans, htar, hjnl⟩, hcab, -⟩ := loadRefused (hrefused .state (if_pos hclosed))
      rw [if_pos hclosed]
      exact ⟨hline, hflt, ⟨hans, htar, hjnl, hcab⟩, hframe⟩
    · by_cases hbusy : s.tar.window = .erasing ∨ s.tar.window = .writing
      · obtain ⟨hline, hflt, ⟨hans, htar, hjnl⟩, hcab, -⟩ :=
          loadRefused (hrefused .busy ((if_neg hclosed).trans (if_pos hbusy)))
        rw [if_neg hclosed, if_pos hbusy]
        exact ⟨hline, hflt, ⟨hans, htar, hjnl, hcab⟩, hframe⟩
      · have hnone : windowRefusal true s = none := by rw [windowRefusal_begun, if_neg hclosed, if_neg hbusy]
        have hshape : t = letGo (requestOp (.tariffErase 0 q.src) (tariffDropped { s with lif.queue := rest })) := by
          rw [ht, tariffBeginBody, hwindow, hnone]
          rfl
        obtain ⟨u, hu⟩ : ∃ u, u = tariffDropped { s with lif.queue := rest } := ⟨_, rfl⟩
        obtain ⟨htar, hwatches⟩ := handOver_none
          { ({ s with lif.queue := rest } : State) with tar.window := .erasing, tar.written := 0 }
        rw [← tariffDropped, ← hu] at htar hwatches
        have hukept : u.pwr = s.pwr ∧ u.jnl = s.jnl ∧ u.nsc.replies = s.nsc.replies ∧ u.flt = s.flt := by
          rw [hu]
          simp [tariffDropped]
        obtain ⟨hpwr, hjnl, hreplies, hflt⟩ := hukept
        obtain ⟨hfaults, hans⟩ := requestErase_answers (q := q) (by rw [hpwr]; exact hact) hjnl hreplies hflt (kind_code hkind)
        rw [← hu] at hshape
        rw [if_neg hclosed, if_neg hbusy]
        refine ⟨?_, ?_, ⟨?_, ?_, ?_, ?_⟩, hframe⟩
        · rw [hshape]
          refine lineKept_letGo ?_
          have hlif := lif_eq_of_kept (s := { s with lif.queue := rest }) (u := u) (by rw [hu]; simp [tariffDropped])
            (by rw [hu]; simp [tariffDropped]) (by rw [hu]; simp [tariffDropped])
          simpa using hlif
        · rw [hshape]
          exact faultsKept_letGo hfaults
        · rw [hshape]
          simpa using htar
        · exact opAsked_requestOp (u := u) (by rw [hpwr]; exact hact) hjnl (by rw [hshape]; simp)
        · rw [hshape]
          split at hans
          · rw [if_pos ‹_›]
            exact replied_letGo hans
          · rw [if_neg ‹_›]
            simpa using hans
        · rw [hshape]
          simpa using hwatches
  · rw [show exec .tariffEraseComplete s = whenPowered tariffEraseBody s from rfl, whenPowered_of hpow]
    obtain ⟨u, hu⟩ : ∃ u, u = completeOp { s with array := eraseRows s.array c } := ⟨_, rfl⟩
    obtain ⟨t, ht⟩ : ∃ t, t = tariffEraseBody s := ⟨_, rfl⟩
    have hshape : t = if c = 0 then
        if s.pwr.state = .active then startNext (requestOp (.tariffErase 1 asker) u)
        else { u with jnl.inFlight := some (.tariffErase 1 asker) }
        else startNext { u with tar.window := .loading, tar.written := 0 } := by
      have hpwr : u.pwr = s.pwr := by rw [hu]; simp
      rw [ht, tariffEraseBody, hfly]
      dsimp only
      rw [← hu, hpwr]
    have hfree : u.jnl.inFlight = none := by rw [hu]; exact completeOp_inFlight _
    have hkept : u.pwr = s.pwr ∧ u.jnl.waiting = s.jnl.waiting ∧ u.tar = s.tar := by rw [hu]; simp
    obtain ⟨hpwr, hwait, htar⟩ := hkept
    refine ⟨t, by rw [ht], fun r => ?_, ?_, ?_⟩
    · have harray : t.array = eraseRows s.array c := by
        rw [hshape]
        (repeat' split) <;> simp [hu]
      rw [harray, rowAt_eraseRows]
    · by_cases hc : c = 0
      · rw [if_pos hc] at hshape ⊢
        by_cases hact : s.pwr.state = .active
        · rw [if_pos hact] at hshape
          refine ⟨by rw [hshape]; simp [htar], ?_⟩
          by_cases hw : s.jnl.waiting = []
          · have hstart : requestOp (.tariffErase 1 asker) u = startOp (.tariffErase 1 asker) u :=
              if_pos ⟨hpwr ▸ hact, hfree, hwait.trans hw⟩
            rw [if_neg (fun h => h.2 hw)]
            rw [hstart, startNext_of_nothing (by simpa using hwait.trans hw)] at hshape
            rw [hshape]
            exact ⟨startOp_inFlight _ _, by simpa using hwait⟩
          · have hqueue : requestOp (.tariffErase 1 asker) u
                = { u with jnl.waiting := u.jnl.waiting ++ [.tariffErase 1 asker] } :=
              if_neg (fun h => hw (hwait.symm.trans h.2.2))
            rw [if_pos ⟨hact, hw⟩, hshape, hqueue, startNext_jnl (by exact hfree), if_pos (hpwr ▸ hact)]
            obtain ⟨op, rest, hcons⟩ := List.exists_cons_of_ne_nil hw
            simp [hwait, hcons]
        · rw [if_neg hact] at hshape
          rw [if_neg (fun h => hact h.1), hshape]
          exact ⟨htar, rfl, hwait⟩
      · rw [if_neg hc] at hshape ⊢
        rw [hshape]
        simp [htar]
    · refine frame_of_completion ?_
      rw [hshape]
      (repeat' split) <;> simp [hu]

/-! ### TARIFF_PART (03 R43) -/

/-- The own checks of a TARIFF_PART (03 R36 to R38, R43, 11 R199). -/
abbrev partBad (q : QFrame) : Prop :=
  (sectionForm (q.at 0 1)).all (fun f => decide (f.1 ≤ q.at 1 1 ∨ q.payload.length ≠ f.2)) = true
    ∨ fieldsOk (q.at 0 1) q.payload 2 = false

theorem partRefusal_eq (q : QFrame) (s : State) : partRefusal q s
    = if s.tar.window = .erasing ∨ s.tar.window = .writing then some .busy
      else if s.tar.window ≠ .loading then some .state
      else if partBad q then some .range
      else if 31 ≤ s.tar.written then some .limit else none := by
  unfold partRefusal
  rw [windowRefusal_loads]
  by_cases hbusy : s.tar.window = .erasing ∨ s.tar.window = .writing
  · rw [if_pos hbusy, if_pos hbusy]
  · rw [if_neg hbusy, if_neg hbusy]
    by_cases hload : s.tar.window = .loading
    · rw [if_neg (not_not.2 hload), if_neg (not_not.2 hload)]
      unfold partBad
      cases hform : sectionForm (q.at 0 1) with
      | none => simp
      | some f =>
        obtain ⟨indices, len⟩ := f
        dsimp only
        by_cases hlen : indices ≤ q.at 1 1 ∨ q.payload.length ≠ len
        · simp [hlen]
        · cases hfields : fieldsOk (q.at 0 1) q.payload 2 <;> simp [hlen]
    · rw [if_pos hload, if_pos hload]

/-- The program or mark that follows a write is answered when nothing else waits. -/
theorem partWritten_answers {asker : Nat} {s u : State} (hr : u.nsc.replies = s.nsc.replies) :
    Replied ⟨asker, 0x51#8, .accepted []⟩ s (partWritten asker u) := replied_placeReply hr

/-- What follows the program of a part row: the mark of the row it replaces, or the answer. -/
def partFollows (row asker : Nat) (u : State) : State :=
  match replacedRow u.array row with
  | some r => requestOp (.tariffMark r asker) u
  | none => partWritten asker u

theorem partFollows_of_some {row asker r : Nat} {u : State} (h : replacedRow u.array row = some r) :
    partFollows row asker u = requestOp (.tariffMark r asker) u := by
  rw [partFollows, h]

theorem partFollows_of_none {row asker : Nat} {u : State} (h : replacedRow u.array row = none) :
    partFollows row asker u = partWritten asker u := by
  rw [partFollows, h]

/-- Settles O30. -/
theorem tariffPartIsCheckedAndWritten : Obligations.TariffPartIsCheckedAndWritten := by
  refine ⟨fun q e rest s hasks => ⟨_, takes_asks tariffPartBody hasks, ?_⟩,
    fun row asker content s hpow hfly hrow hwf => ?_, fun row asker s hpow hfly hrow hwf => ?_⟩
  · obtain ⟨hact, -⟩ := id hasks
    obtain ⟨t, ht⟩ : ∃ t, t = letGo (tariffPartBody q e { s with lif.queue := rest }) := ⟨_, rfl⟩
    rw [← ht]
    have hchecks : partRefusal q { s with lif.queue := rest } = partRefusal q s := rfl
    have hrefused : ∀ code, partRefusal q s = some code →
        LineKept rest s t ∧ FaultsKept s t ∧ (Answered q (.refused code) s t ∧ t.tar = s.tar ∧ t.jnl = s.jnl) :=
      fun code h => by
        obtain ⟨hline, hflt, hans, -⟩ := loadRefused (t := t) (by rw [ht, tariffPartBody, hchecks, h])
        exact ⟨hline, hflt, hans⟩
    have hframe : t = { s with
        lif := t.lif, nsc := { s.nsc with replies := t.nsc.replies }, tar := t.tar, jnl := t.jnl, flt := t.flt } := by
      rw [ht, tariffPartBody]
      split
      · apply State.ext <;> simp
        case nsc => apply Nsc.ext <;> simp
      · apply State.ext <;> simp
    rw [partRefusal_eq] at hrefused
    by_cases hbusy : s.tar.window = .erasing ∨ s.tar.window = .writing
    · obtain ⟨hline, hflt, hans⟩ := hrefused .busy (if_pos hbusy)
      exact ⟨hline, hflt, by rw [if_pos hbusy]; exact hans, hframe⟩
    · rw [if_neg hbusy] at hrefused
      rw [if_neg hbusy]
      by_cases hload : s.tar.window ≠ .loading
      · obtain ⟨hline, hflt, hans⟩ := hrefused .state (if_pos hload)
        exact ⟨hline, hflt, by rw [if_pos hload]; exact hans, hframe⟩
      · rw [if_neg hload] at hrefused
        rw [if_neg hload]
        by_cases hbad : partBad q
        · obtain ⟨hline, hflt, hans⟩ := hrefused .range (if_pos hbad)
          exact ⟨hline, hflt, by rw [if_pos hbad]; exact hans, hframe⟩
        · rw [if_neg hbad] at hrefused
          rw [if_neg hbad]
          by_cases hfull : 31 ≤ s.tar.written
          · obtain ⟨hline, hflt, hans⟩ := hrefused .limit (if_pos hfull)
            exact ⟨hline, hflt, by rw [if_pos hfull]; exact hans, hframe⟩
          · have hnone : partRefusal q s = none := by
              rw [partRefusal_eq, if_neg hbusy, if_neg hload, if_neg hbad, if_neg hfull]
            have hshape : t = letGo (requestOp (.tariffPart s.tar.written q.payload q.src)
                { ({ s with lif.queue := rest } : State) with tar.window := .writing }) := by
              rw [ht, tariffPartBody, hchecks, hnone]
            rw [if_neg hfull]
            refine ⟨?_, ?_, ⟨?_, ?_, ?_⟩, hframe⟩
            · rw [hshape]
              exact lineKept_letGo (by simp)
            · rw [hshape]
              exact faultsKept_letGo ⟨by simp, fun i _ => by simp, fun _ => by simp⟩
            · rw [hshape]
              simp
            · exact opAsked_requestOp (s := s)
                (u := { ({ s with lif.queue := rest } : State) with tar.window := .writing }) hact rfl (by rw [hshape]; simp)
            · rw [hshape]
              simp
  · rw [show exec .tariffPartProgramComplete s = whenPowered tariffPartProgramBody s from rfl, whenPowered_of hpow]
    obtain ⟨u, hu⟩ : ∃ u, u = completeOp { s with
      array := programRow s.array row (rowOfPart row content), tar.written := s.tar.written + 1 } := ⟨_, rfl⟩
    obtain ⟨t, ht⟩ : ∃ t, t = tariffPartProgramBody s := ⟨_, rfl⟩
    have hshape : t = startNext (partFollows row asker u) := by
      rw [ht, tariffPartProgramBody, hfly, hu]
      rfl
    have hfree : u.jnl.inFlight = none := by rw [hu]; exact completeOp_inFlight _
    have hkept : u.pwr = s.pwr ∧ u.jnl.waiting = s.jnl.waiting ∧ u.nsc.replies = s.nsc.replies
        ∧ u.tar = { s.tar with written := s.tar.written + 1 }
        ∧ u.array = programRow s.array row (rowOfPart row content) := by rw [hu]; simp
    obtain ⟨hpwr, hwait, hreplies, htar, huarray⟩ := hkept
    have harray : t.array = programRow s.array row (rowOfPart row content) := by
      rw [hshape, ← huarray]
      unfold partFollows
      split <;> simp
    refine ⟨t, by rw [ht], fun r => by rw [harray, rowAt_programRow hwf hrow], ?_, ?_⟩
    · rw [harray, ← huarray]
      cases hold : replacedRow u.array row with
      | none =>
        rw [partFollows_of_none hold] at hshape
        refine ⟨?_, fun hw => ?_⟩
        · rw [hshape]
          simp [partWritten, htar]
        · rw [startNext_of_nothing (by simpa using hwait.trans hw)] at hshape
          rw [hshape]
          exact ⟨partWritten_answers hreplies, by simpa using hfree⟩
      | some r =>
        rw [partFollows_of_some hold] at hshape
        refine ⟨?_, fun hw => ?_⟩
        · rw [hshape]
          simp [htar]
        · by_cases hact : s.pwr.state = .active
          · have hstart : requestOp (.tariffMark r asker) u = startOp (.tariffMark r asker) u :=
              if_pos ⟨hpwr ▸ hact, hfree, hwait.trans hw⟩
            rw [if_pos hact, hshape, hstart, startNext_of_nothing (by simpa using hwait.trans hw)]
            exact ⟨hreplies, rfl⟩
          · have hqueue : requestOp (.tariffMark r asker) u = { u with jnl.waiting := u.jnl.waiting ++ [.tariffMark r asker] } :=
              if_neg (fun h => hact (hpwr ▸ h.1))
            have hidle : startNext { u with jnl.waiting := u.jnl.waiting ++ [.tariffMark r asker] }
                = { u with jnl.waiting := u.jnl.waiting ++ [.tariffMark r asker] } := if_neg (fun h => hact (hpwr ▸ h.1))
            rw [if_neg hact, hshape, hqueue, hidle]
            exact ⟨hreplies, hfree, by simp [hwait, hw]⟩
    · refine frame_of_completion ?_
      rw [hshape]
      unfold partFollows
      split <;> simp [hu]
  · rw [show exec .tariffMarkProgramComplete s = whenPowered tariffMarkBody s from rfl, whenPowered_of hpow]
    obtain ⟨u, hu⟩ : ∃ u, u = completeOp { s with array := programMark s.array row } := ⟨_, rfl⟩
    obtain ⟨t, ht⟩ : ∃ t, t = tariffMarkBody s := ⟨_, rfl⟩
    have hshape : t = startNext (partWritten asker u) := by rw [ht, tariffMarkBody, hfly, hu]
    have hfree : u.jnl.inFlight = none := by rw [hu]; exact completeOp_inFlight _
    have hkept : u.jnl.waiting = s.jnl.waiting ∧ u.nsc.replies = s.nsc.replies ∧ u.tar = s.tar
        ∧ u.array = programMark s.array row := by rw [hu]; simp
    obtain ⟨hwait, hreplies, htar, huarray⟩ := hkept
    have harray : t.array = putWord s.array row 63 (.good 0) := by
      rw [hshape]
      simp [huarray, programMark, hrow]
    have hrows : ∀ r, rowAt t.array r = if r = row then (rowAt s.array r).set 63 (.good 0) else rowAt s.array r := fun r => by
      rw [harray, rowAt_putWord hwf]
      by_cases hr : r = row
      · rw [if_pos hr, if_pos hr, hr]
      · rw [if_neg hr, if_neg hr]
    refine ⟨t, by rw [ht], hrows, ?_, fun hw => ?_, ?_⟩
    · rw [hshape]
      simp [partWritten, htar]
    · rw [startNext_of_nothing (by simpa using hwait.trans hw)] at hshape
      rw [hshape]
      exact ⟨partWritten_answers hreplies, by simpa using hfree⟩
    · refine frame_of_completion ?_
      rw [hshape]
      simp [hu]

end Sys2Proof.Machine
end

section
/-!
SETTLED OBLIGATIONS. TARIFF_COMMIT (03 R44, R47).
-/

namespace Sys2Proof.Machine

/-! ### The checks of a TARIFF_COMMIT (03 R44) -/

theorem loadRows_eq (s : State) : loadRows s = s.array.filter (fun x => decide (x.1 < 32 ∧ x.1 < s.tar.written)) := by
  rw [loadRows, areaRows, List.filter_filter]
  refine List.filter_congr fun x _ => ?_
  simp [and_comm]

/-- The set of a load cannot be committed: it has no GENERAL or no band 0, a switch point names an absent band, or a band's
shares rise. -/
abbrev LoadBad (live : List (Nat × Row)) : Prop :=
  (setOf live).all (fun c => c.bands.s0.isNone
    || c.switches.any (fun p => (c.bands.get (bandOf p.band)).isNone)
    || c.bands.toList.any (fun r => r.any (fun b => decide (b.f2 < b.f3 ∨ b.f3 < b.f4)))) = true

theorem BandRates.ordered_eq (b : BandRates) : b.ordered = !decide (b.f2 < b.f3 ∨ b.f3 < b.f4) := by
  unfold BandRates.ordered
  rw [← decide_not]
  exact decide_eq_decide.2 (by omega)

theorem commitOk_iff (s : State) : commitOk s = true ↔ ¬ LoadBad (liveRows (loadRows s)) := by
  unfold commitOk LoadBad
  cases setOf (liveRows (loadRows s)) with
  | none => simp
  | some c =>
    have hbands : ∀ r : Option BandRates, r.all BandRates.ordered
        = !r.any (fun b => decide (b.f2 < b.f3 ∨ b.f3 < b.f4)) := fun r => by
      cases r with
      | none => rfl
      | some b => simp only [Option.all_some, Option.any_some, BandRates.ordered_eq]
    have hswitches : ∀ p : SwitchPoint, bandIn c p.band = !(c.bands.get (bandOf p.band)).isNone := fun p => by
      unfold bandIn
      cases c.bands.get (bandOf p.band) <;> rfl
    simp only [hbands, hswitches, ← List.not_any_eq_all_not, Option.all_some]
    cases c.bands.s0 <;> simp

/-! ### The read of the area (03 R39) -/

/-- A set is read only with a readable commit row and every row before it readable. -/
theorem commit_of_committedIn {m : Memory} (hwf : Memory.wf m = true) (h : (committedIn m).isSome = true) :
    ∃ r, r < 32 ∧ isCommit (rowAt m r) = true ∧ ∀ x, x < r → readable (rowAt m x) = true := by
  unfold committedIn at h
  dsimp only at h
  cases hfound : (areaRows m).find? (fun e => isCommit e.2) with
  | none => simp [hfound] at h
  | some c =>
    rw [hfound, Option.bind_some] at h
    have hmem := List.mem_filter.1 (List.mem_of_find?_eq_some hfound)
    obtain ⟨hlisted, harea⟩ := hmem
    have hrow : rowAt m c.1 = c.2 := ((mem_iff hwf c.1 c.2).1 hlisted).1
    refine ⟨c.1, by simpa using harea, ?_, fun x hx => ?_⟩
    · rw [hrow]
      exact List.find?_some (p := fun e : Nat × Row => isCommit e.2) hfound
    · by_cases hbefore : readableBefore m c.1 = true
      · exact List.all_eq_true.1 hbefore x (List.mem_range.2 hx)
      · simp [hbefore] at h

theorem readTariff_committed (s : State) : (readTariff s).tar.committed = committedIn s.array := by
  simp [readTariff, handOver]

/-- The area is read back, the window is CLOSED and the answer is placed. -/
def commitRead (asker : Nat) (u : State) : State :=
  placeReply ⟨asker, 0x52#8, if (readTariff u).tar.committed.isSome then .accepted [] else .refused .range⟩
    { readTariff u with tar.window := .closed }

/-- Settles O31. -/
theorem tariffCommitIsCheckedAndReadBack : Obligations.TariffCommitIsCheckedAndReadBack := by
  refine ⟨fun q e rest s hasks => ⟨_, takes_asks tariffCommitBody hasks, ?_⟩,
    fun row count sum asker us s hpow hfly hus => ?_⟩
  · obtain ⟨hact, -⟩ := id hasks
    rw [← loadRows_eq]
    obtain ⟨live, hlive⟩ : ∃ live, liveRows (loadRows s) = live := ⟨_, rfl⟩
    rw [hlive]
    obtain ⟨t, ht⟩ : ∃ t, t = letGo (tariffCommitBody q e { s with lif.queue := rest }) := ⟨_, rfl⟩
    rw [← ht]
    have hwindow : windowRefusal false { s with lif.queue := rest } = windowRefusal false s := rfl
    have hok : commitOk { s with lif.queue := rest } = commitOk s := rfl
    have hload : loadRows { s with lif.queue := rest } = loadRows s := rfl
    have hrefused : ∀ code, t = letGo (refuse q code { s with lif.queue := rest }) →
        LineKept rest s t ∧ FaultsKept s t ∧ (Answered q (.refused code) s t ∧ t.tar = s.tar ∧ t.jnl = s.jnl) :=
      fun code h => by
        obtain ⟨hline, hflt, hans, -⟩ := loadRefused h
        exact ⟨hline, hflt, hans⟩
    have hframe : t = { s with
        lif := t.lif, nsc := { s.nsc with replies := t.nsc.replies }, tar := t.tar, jnl := t.jnl, flt := t.flt } := by
      rw [ht, tariffCommitBody]
      (repeat' split) <;> apply State.ext <;> simp
      case nsc => apply Nsc.ext <;> simp
      case nsc => apply Nsc.ext <;> simp
    by_cases hbusy : s.tar.window = .erasing ∨ s.tar.window = .writing
    · have hcode : windowRefusal false s = some .busy := by rw [windowRefusal_loads, if_pos hbusy]
      obtain ⟨hline, hflt, hans⟩ := hrefused .busy (by rw [ht, tariffCommitBody, hwindow, hcode])
      exact ⟨hline, hflt, by rw [if_pos hbusy]; exact hans, hframe⟩
    · rw [if_neg hbusy]
      by_cases hstate : s.tar.window ≠ .loading
      · have hcode : windowRefusal false s = some .state := by rw [windowRefusal_loads, if_neg hbusy, if_pos hstate]
        obtain ⟨hline, hflt, hans⟩ := hrefused .state (by rw [ht, tariffCommitBody, hwindow, hcode])
        exact ⟨hline, hflt, by rw [if_pos hstate]; exact hans, hframe⟩
      · rw [if_neg hstate]
        have hcode : windowRefusal false s = none := by rw [windowRefusal_loads, if_neg hbusy, if_neg hstate]
        by_cases hbad : LoadBad live
        · have hnot : ¬ commitOk s = true := by rw [commitOk_iff, hlive]; exact not_not.2 hbad
          obtain ⟨hline, hflt, hans⟩ := hrefused .range (by rw [ht, tariffCommitBody, hwindow, hcode, hok]; exact congrArg letGo (if_neg hnot))
          exact ⟨hline, hflt, by rw [if_pos hbad]; exact hans, hframe⟩
        · have hgood : commitOk s = true := by rw [commitOk_iff, hlive]; exact hbad
          have hshape : t = letGo (requestOp (.tariffCommit s.tar.written live.length (contentSums live) q.src)
              { ({ s with lif.queue := rest } : State) with tar.window := .writing }) := by
            rw [ht, tariffCommitBody, hwindow, hcode, hok, hload, hlive]
            exact congrArg letGo (if_pos hgood)
          rw [if_neg hbad]
          refine ⟨?_, ?_, ⟨?_, ?_, ?_⟩, hframe⟩
          · rw [hshape]
            exact lineKept_letGo (by simp)
          · rw [hshape]
            exact faultsKept_letGo ⟨by simp, fun i _ => by simp, fun _ => by simp⟩
          · rw [hshape]
            simp
          · rw [hshape]
            simp
          · exact opAsked_requestOp (s := s)
              (u := { ({ s with lif.queue := rest } : State) with tar.window := .writing }) hact rfl (by rw [hshape]; simp)
  · rw [show exec (.tariffCommitProgramComplete us) s = withArray us (whenPowered (tariffCommitProgramBody us) s) from rfl,
      whenPowered_of hpow, withArray_of_inArray hus]
    obtain ⟨u, hu⟩ : ∃ u, u = completeOp { s with
      array := withUpsets (programRow s.array row (rowOfCommit row count sum)) us
      tar.written := s.tar.written + 1 } := ⟨_, rfl⟩
    obtain ⟨t, ht⟩ : ∃ t, t = tariffCommitProgramBody us s := ⟨_, rfl⟩
    have hfree : u.jnl.inFlight = none := by rw [hu]; exact completeOp_inFlight _
    have hkept : u.pwr = s.pwr ∧ u.jnl.waiting = s.jnl.waiting ∧ u.nsc.replies = s.nsc.replies
        ∧ u.tar = { s.tar with written := s.tar.written + 1 }
        ∧ u.array = withUpsets (programRow s.array row (rowOfCommit row count sum)) us
        ∧ u.flt.coldFlag = s.flt.coldFlag := by rw [hu]; simp
    obtain ⟨hpwr, hwait, hreplies, htar, huarray, hcold⟩ := hkept
    have hshape : t = if s.pwr.state = .active then startNext (commitRead asker u) else u := by
      rw [ht, tariffCommitProgramBody, hfly]
      dsimp only
      rw [← hu, hpwr]
      rfl
    have harray : t.array = u.array := by
      rw [hshape]
      split <;> simp [commitRead]
    refine ⟨t, by rw [ht], by rw [harray, huarray], ?_, ?_, ?_⟩
    · by_cases hact : s.pwr.state = .active
      · rw [if_pos hact] at hshape ⊢
        have httar : t.tar = ⟨committedIn t.array, .closed, s.tar.written + 1⟩ := by
          rw [harray, ← readTariff_committed, hshape]
          simp [commitRead, htar]
        refine ⟨httar, fun hsome hwf => ?_, fun hw => ?_⟩
        · rw [httar] at hsome
          refine commit_of_committedIn ?_ hsome
          rw [harray, huarray]
          exact withUpsets_wf (programRow_wf hwf row (rowOfCommit_length row count sum)) (rows_of_inArray hus)
        · have hcom : t.tar.committed = (readTariff u).tar.committed := by rw [httar, harray, readTariff_committed]
          rw [startNext_of_nothing (by simpa [commitRead] using hwait.trans hw)] at hshape
          rw [hcom, hshape]
          refine ⟨by simpa [commitRead] using hfree, ?_⟩
          exact replied_placeReply (by simpa using hreplies)
      · rw [if_neg hact] at hshape ⊢
        rw [hshape]
        exact ⟨htar, hreplies, hfree, hwait⟩
    · rw [hshape]
      split <;> simp [commitRead, hcold]
    · rw [hshape]
      split
      · apply State.ext <;> simp [commitRead, hu]
        case lif => exact Lif.ext (by simp) (by simp) (by simp) (by simp) (Transmitter.ext (by simp) (by simp) (by simp) rfl) (by simp) (by simp)
        case nsc => apply Nsc.ext <;> simp
        case cab => apply Cab.ext <;> simp
        case jnl => apply Jnl.ext <;> simp
      · apply State.ext <;> simp [hu]
        case lif => exact Lif.ext (by simp) (by simp) (by simp) (by simp) (Transmitter.ext (by simp) (by simp) (by simp) rfl) (by simp) (by simp)
        case nsc => apply Nsc.ext <;> simp
        case jnl => apply Jnl.ext <;> simp

end Sys2Proof.Machine
end

section
/-!
SUPPORT. The arbiter (07 R128): what a grant writes of the calls, the queue, the ringing and the notices.
-/

namespace Sys2Proof.Machine

/-! ### The end of a reference, beside other work -/

theorem referenceEnded_of {a : Nat} {w s t : State} (hw : ReferredAlike w s) (ht : StationsAlike t (endReference a w))
    (htime : t.time = s.time) : ReferenceEnded a s t := by
  obtain ⟨hst, hcab, hacc, hwtime, -, -⟩ := hw
  obtain ⟨hst', hcab', hacc', -⟩ := ht
  exact endReference_ended (u := w) hst (by rw [hcab]) (by rw [hacc]) (by rw [htime, hwtime]) hst' (by rw [hcab']) (by rw [hacc'])

/-- With no station lost, the reference of any address may have ended. -/
theorem referenceEnded_of_kept (a : Nat) {s t : State} (hst : t.lif.stations = s.lif.stations) (hcab : t.cab = s.cab)
    (hacc : t.acc = s.acc) : ReferenceEnded a s t := .inl ⟨hst, by rw [hcab], by rw [hacc]⟩

/-! ### RING -/

/-- A prompt queue once a RING has been asked for. -/
abbrev ringAsked (queue : List Prompt) : List Prompt :=
  if queue.length < 8 ∧ (queue.all (fun x => decide (x.kind ≠ .ring))) = true then queue ++ [⟨.ring, onlySpk 0⟩] else queue

theorem askPrompt_ring (s : State) : (askPrompt .ring 0 s).icm.prompts = ringAsked s.icm.prompts := by
  unfold askPrompt ringAsked
  by_cases hfull : 8 ≤ s.icm.prompts.length
  · rw [if_pos hfull, if_neg (fun h => absurd h.1 (Nat.not_lt.2 hfull))]
  · rw [if_neg hfull]
    have hsame : s.icm.prompts.all (fun x => decide (x.kind ≠ .ring)) = true
        ↔ ¬ (PromptKind.ring = .ring ∧ s.icm.prompts.any (fun e => decide (e.kind = PromptKind.ring)) = true) := by
      simp
    by_cases hring : PromptKind.ring = .ring ∧ s.icm.prompts.any (fun e => decide (e.kind = PromptKind.ring)) = true
    · rw [if_pos hring, if_neg (fun h => (hsame.1 h.2) hring)]
    · rw [if_neg hring, if_pos ⟨Nat.not_le.1 hfull, hsame.2 hring⟩]

/-! ### The arbiter (07 R128) -/

theorem arbitrate_of_granted {s : State} (h : grantedPort s ≠ none) : arbitrate s = s := by
  unfold arbitrate
  split
  · exact absurd ‹_› h
  · rfl

theorem arbitrate_of_empty {s : State} (h : s.icm.queue = []) : arbitrate s = s := by
  unfold arbitrate
  rw [h]
  split <;> simp_all

section
variable {s : State} {e : QEntry} {rest : List QEntry}

/-- The grant of the head of the queue, before LIF is told that its reference has ended. -/
def headGranted (e : QEntry) (rest : List QEntry) (s : State) : State :=
  noticeMoved s.icm.queue (enterPhase e.port (if s.icm.privacy then .ringing else .linked) .none
    (setCall e.port { callRec s e.port with grantAt := s.time, boundaries := 0 } { s with icm.queue := rest }))

/-- The head's ringing, when the grant is RINGING. -/
def headRings (privacy : Bool) (u : State) : State :=
  if privacy then askPrompt .ring 0 { u with icm.ringDue := some (u.time + 43200000) } else u

variable (hnone : grantedPort s = none) (hqueue : s.icm.queue = e :: rest)
include hnone hqueue

theorem arbitrate_eq : arbitrate s = headRings s.icm.privacy (endReference e.addr (headGranted e rest s)) := by
  unfold arbitrate
  rw [hnone, hqueue]
  dsimp only
  have hrings : ((if s.icm.privacy = true then CallPhase.ringing else .linked) = .ringing) ↔ s.icm.privacy = true := by
    cases s.icm.privacy <;> simp
  simp only [hrings, headGranted, hqueue]
  rfl

end

section
variable (s : State) (e : QEntry) (rest : List QEntry)

theorem headGranted_alike : ReferredAlike (headGranted e rest s) s := by simp [headGranted]

theorem headGranted_queue : (headGranted e rest s).icm.queue = rest := by simp [headGranted, setCall]

theorem headGranted_rec (q : Port) : callRec (headGranted e rest s) q
    = if q = e.port then ⟨if s.icm.privacy then .ringing else .linked, .none, s.time, 0⟩ else callRec s q := by
  have hcalls : callRec (headGranted e rest s) q = callRec (enterPhase e.port (if s.icm.privacy then .ringing else .linked)
      .none (setCall e.port { callRec s e.port with grantAt := s.time, boundaries := 0 } { s with icm.queue := rest })) q :=
    callRec_congr (by simp [headGranted]) q
  rw [hcalls, callRec_enterPhase, callRec_setCall, callRec_setCall]
  by_cases hq : q = e.port
  · simp [hq]
  · simp only [if_neg hq]
    rfl

theorem headGranted_calls (q : Port) : (headGranted e rest s).nsc.calls.get q
    = if q = e.port ∨ ((∃ x ∈ rest, x.port = q) ∧ placeIn s.icm.queue q ≠ placeIn rest q) then
        some (callNotice (headGranted e rest s) q)
      else s.nsc.calls.get q := by
  obtain ⟨u, hu⟩ : ∃ u, u = enterPhase e.port (if s.icm.privacy then .ringing else .linked) .none
    (setCall e.port { callRec s e.port with grantAt := s.time, boundaries := 0 } { s with icm.queue := rest }) := ⟨_, rfl⟩
  have hshape : headGranted e rest s = noticeMoved s.icm.queue u := by rw [headGranted, hu]
  have huq : u.icm.queue = rest := by rw [hu]; simp [setCall]
  have htold : callNotice (headGranted e rest s) q = callNotice u q :=
    callNotice_congr (by rw [hshape]; simp) (by rw [hshape]; simp) (by rw [hshape]; simp) q
  rw [htold, hshape, noticeMoved_calls, huq]
  by_cases hmoved : (∃ x ∈ rest, x.port = q) ∧ placeIn s.icm.queue q ≠ placeIn rest q
  · rw [if_pos hmoved, if_pos (.inr hmoved)]
  · rw [if_neg hmoved]
    by_cases hq : q = e.port
    · rw [if_pos (.inl hq), hu, enterPhase_calls, if_pos hq, hq]
      exact congrArg some (callNotice_congr (by simp [enterPhase]) (by simp) (by simp) e.port).symm
    · rw [if_neg (fun h => h.elim hq hmoved), hu, enterPhase_calls, if_neg hq]
      rfl

end

section
variable {s : State} {e : QEntry} {rest : List QEntry} (hnone : grantedPort s = none) (hqueue : s.icm.queue = e :: rest)
include hnone hqueue

theorem arbitrate_calls : (arbitrate s).icm.calls = (headGranted e rest s).icm.calls
    ∧ (arbitrate s).icm.queue = rest ∧ (arbitrate s).nsc.calls = (headGranted e rest s).nsc.calls := by
  rw [arbitrate_eq hnone hqueue]
  unfold headRings
  split <;> simp [headGranted_queue]

theorem arbitrate_rec (q : Port) : callRec (arbitrate s) q
    = if q = e.port then ⟨if s.icm.privacy then .ringing else .linked, .none, s.time, 0⟩ else callRec s q := by
  rw [callRec_congr (arbitrate_calls hnone hqueue).1, headGranted_rec]

/-- Grants tell the granted port, and the queued ports that move up. -/
theorem arbitrate_notices (q : Port) : (arbitrate s).nsc.calls.get q
    = if q = e.port ∨ ((∃ x ∈ rest, x.port = q) ∧ placeIn s.icm.queue q ≠ placeIn rest q) then
        some (callNotice { s with icm := (arbitrate s).icm } q)
      else s.nsc.calls.get q := by
  obtain ⟨hcalls, hqueue', hnotices⟩ := arbitrate_calls hnone hqueue
  rw [hnotices, headGranted_calls]
  have htold : callNotice (headGranted e rest s) q = callNotice { s with icm := (arbitrate s).icm } q :=
    callNotice_congr (s := { s with icm := (arbitrate s).icm }) hcalls.symm ((headGranted_queue s e rest).trans hqueue'.symm)
      (headGranted_alike s e rest).1 q
  rw [htold]

/-- A RINGING grant starts the ring timer and asks for a RING. -/
theorem arbitrate_rings :
    (arbitrate s).icm.ringDue = (if s.icm.privacy then some (s.time + 43200000) else s.icm.ringDue)
      ∧ (arbitrate s).icm.prompts = (if s.icm.privacy then ringAsked s.icm.prompts else s.icm.prompts) := by
  rw [arbitrate_eq hnone hqueue]
  unfold headRings
  cases s.icm.privacy
  · simp [headGranted]
  · refine ⟨by simp [headGranted], ?_⟩
    have hring := askPrompt_ring { endReference e.addr (headGranted e rest s) with
      icm.ringDue := some ((endReference e.addr (headGranted e rest s)).time + 43200000) }
    simpa [headGranted] using hring

/-- The granted entry's reference ends. -/
theorem arbitrate_stations : StationsAlike (arbitrate s) (endReference e.addr (headGranted e rest s)) := by
  rw [arbitrate_eq hnone hqueue]
  unfold headRings
  split <;> simp

theorem arbitrate_reference : ReferenceEnded e.addr s (arbitrate s) :=
  referenceEnded_of (headGranted_alike s e rest) (arbitrate_stations hnone hqueue) (by simp)

end

end Sys2Proof.Machine
end

section
/-!
SETTLED OBLIGATIONS. CALL, the ring timer and the hold boundary (07 R125 to R129, R133).
-/

namespace Sys2Proof.Machine

/-! ### The call queue (07 R127) -/

theorem mem_insertEntry {x y : QEntry} {queue : List QEntry} : y ∈ insertEntry x queue ↔ y = x ∨ y ∈ queue := by
  induction queue with
  | nil => simp [insertEntry]
  | cons z queue ih =>
    unfold insertEntry
    split
    · simp
    · rw [List.mem_cons, ih, List.mem_cons]
      tauto

/-- An entry at the end of a queue leaves the places of the other ports. -/
theorem placeIn_append {queue : List QEntry} {x : QEntry} {q : Port} (h : ∃ y ∈ queue, y.port = q) :
    placeIn (queue ++ [x]) q = placeIn queue q := by
  obtain ⟨y, hy, hq⟩ := h
  have hsome : (queue.findIdx? (fun e => decide (e.port = q))).isSome = true := by
    rw [List.findIdx?_isSome, List.any_eq_true]
    exact ⟨y, hy, by simpa using hq⟩
  obtain ⟨i, hi⟩ := Option.isSome_iff_exists.1 hsome
  unfold placeIn
  rw [List.findIdx?_append, hi]
  simp

/-- The queued ports whose place is not the one it was have been told theirs. -/
abbrev PlacesTold (before : List QEntry) (t : State) : Prop :=
  ∀ x ∈ t.icm.queue, callPhase t x.port = .queued → placeIn before x.port ≠ placeIn t.icm.queue x.port →
    (t.nsc.calls.get x.port).any (fun c => decide (c.phase = .queued ∧ c.place = placeIn t.icm.queue x.port)) = true

/-- A queued port's notice tells its place. -/
theorem callNotice_tells_place {t u : State} {q : Port} (hq : callPhase t q = .queued) (hu : u.icm = t.icm) :
    (some (callNotice u q)).any (fun c => decide (c.phase = .queued ∧ c.place = placeIn t.icm.queue q)) = true := by
  have hphase : (callRec u q).phase = .queued := by
    rw [callRec_congr (s := t) (t := u) (by rw [hu])]
    exact hq
  simp [callNotice, hphase, hu]

theorem placesTold_noticeMoved (before : List QEntry) (s : State) : PlacesTold before (noticeMoved before s) := by
  intro x hx hphase hmoved
  have hqueue : (noticeMoved before s).icm = s.icm := by simp
  rw [hqueue] at hx hmoved
  rw [noticeMoved_calls, if_pos ⟨⟨x, hx, rfl⟩, hmoved⟩]
  exact callNotice_tells_place hphase hqueue.symm

theorem placesTold_of_queue {before : List QEntry} {t : State} (h : t.icm.queue = before) : PlacesTold before t :=
  fun _ _ _ hmoved => absurd (by rw [h]) hmoved

theorem PlacesTold.congr {before : List QEntry} {t v : State} (h : PlacesTold before v) (hicm : t.icm = v.icm)
    (hcalls : t.nsc.calls = v.nsc.calls) : PlacesTold before t := by
  have hphase : ∀ p, callPhase t p = callPhase v p := callPhase_congr (by rw [hicm])
  intro x hx hq hmoved
  rw [hicm] at hx hmoved ⊢
  rw [hcalls]
  exact h x hx ((hphase x.port).symm.trans hq) hmoved

/-- A grant tells the ports that move up, and keeps what was told before. -/
theorem PlacesTold.arbitrate {before : List QEntry} {u : State} (h : PlacesTold before u) : PlacesTold before (arbitrate u) := by
  cases hnone : grantedPort u with
  | some p => rwa [arbitrate_of_granted (by rw [hnone]; simp)]
  | none =>
    cases hqueue : u.icm.queue with
    | nil => rwa [arbitrate_of_empty hqueue]
    | cons e rest =>
      obtain ⟨-, hrest, -⟩ := arbitrate_calls hnone hqueue
      intro x hx hphase hmoved
      rw [hrest] at hx hmoved
      have hne : x.port ≠ e.port := fun hsame => by
        rw [callPhase, arbitrate_rec hnone hqueue, if_pos hsame] at hphase
        cases hp : u.icm.privacy <;> simp [hp] at hphase
      rw [arbitrate_notices hnone hqueue]
      by_cases hup : placeIn u.icm.queue x.port ≠ placeIn rest x.port
      · rw [if_pos (.inr ⟨⟨x, hx, rfl⟩, hup⟩)]
        exact callNotice_tells_place hphase rfl
      · have hsame : placeIn u.icm.queue x.port = placeIn rest x.port := not_not.1 hup
        rw [if_neg (fun h => h.elim hne (fun h => h.2 hsame)), hrest, ← hsame]
        rw [callPhase, arbitrate_rec hnone hqueue, if_neg hne] at hphase
        exact h x (hqueue ▸ List.mem_cons_of_mem e hx) hphase (by rw [hsame]; exact hmoved)

/-! ### A port joins (07 R126, R127) -/

/-- A port has joined the call queue, and the arbiter has not looked yet. -/
def joined (p : Port) (a : Nat) (urgent : Bool) (s : State) : State :=
  noticeMoved (s.icm.queue ++ [⟨p, a, urgent, 0⟩]) (enterPhase p .queued .none
    { s with icm.queue := insertEntry ⟨p, a, urgent, s.icm.arrivals⟩ s.icm.queue, icm.arrivals := s.icm.arrivals + 1 })

theorem joinCalls_eq (p : Port) (a : Nat) (urgent : Bool) (s : State) :
    joinCalls p a urgent s = arbitrate (joined p a urgent s) := rfl

section
variable (p : Port) (a : Nat) (urgent : Bool) (s : State)

theorem joined_rec (q : Port) : callRec (joined p a urgent s) q
    = if q = p then { callRec s p with phase := .queued, reason := .none } else callRec s q := by
  rw [joined, callRec_congr (s := enterPhase p .queued .none { s with
    icm.queue := insertEntry ⟨p, a, urgent, s.icm.arrivals⟩ s.icm.queue, icm.arrivals := s.icm.arrivals + 1 }) (by simp),
    callRec_enterPhase]
  rfl

theorem joined_queue :
    (joined p a urgent s).icm.queue = insertEntry ⟨p, a, urgent, s.icm.arrivals⟩ s.icm.queue := by simp [joined]

theorem joined_alike : ReferredAlike (joined p a urgent s) s := by simp [joined]

theorem joined_calls (q : Port) : (joined p a urgent s).nsc.calls.get q
    = if q = p ∨ ((∃ x ∈ insertEntry ⟨p, a, urgent, s.icm.arrivals⟩ s.icm.queue, x.port = q)
          ∧ placeIn (s.icm.queue ++ [⟨p, a, urgent, 0⟩]) q
            ≠ placeIn (insertEntry ⟨p, a, urgent, s.icm.arrivals⟩ s.icm.queue) q) then
        some (callNotice (joined p a urgent s) q)
      else s.nsc.calls.get q := by
  obtain ⟨u, hu⟩ : ∃ u, u = enterPhase p .queued .none { s with
    icm.queue := insertEntry ⟨p, a, urgent, s.icm.arrivals⟩ s.icm.queue, icm.arrivals := s.icm.arrivals + 1 } := ⟨_, rfl⟩
  have hshape : joined p a urgent s = noticeMoved (s.icm.queue ++ [⟨p, a, urgent, 0⟩]) u := by rw [hu, joined]
  have huq : u.icm.queue = insertEntry ⟨p, a, urgent, s.icm.arrivals⟩ s.icm.queue := by rw [hu]; simp
  have htold : callNotice (joined p a urgent s) q = callNotice u q :=
    callNotice_congr (by rw [hshape]; simp) (by rw [hshape]; simp) (by rw [hshape]; simp) q
  rw [htold, hshape, noticeMoved_calls, huq]
  by_cases hmoved : (∃ x ∈ insertEntry ⟨p, a, urgent, s.icm.arrivals⟩ s.icm.queue, x.port = q)
      ∧ placeIn (s.icm.queue ++ [⟨p, a, urgent, 0⟩]) q
        ≠ placeIn (insertEntry ⟨p, a, urgent, s.icm.arrivals⟩ s.icm.queue) q
  · rw [if_pos hmoved, if_pos (.inr hmoved)]
  · rw [if_neg hmoved]
    by_cases hq : q = p
    · rw [if_pos (.inl hq), hu, enterPhase_calls, if_pos hq, hq]
      exact congrArg some (callNotice_congr (by simp [enterPhase]) (by simp [setCall]) (by simp) p).symm
    · rw [if_neg (fun h => h.elim hq hmoved), hu, enterPhase_calls, if_neg hq]

theorem joined_told : PlacesTold s.icm.queue (joined p a urgent s) := by
  intro x hx hphase hmoved
  have htold : (joined p a urgent s).nsc.calls.get x.port = some (callNotice (joined p a urgent s) x.port) := by
    rw [joined_calls, if_pos]
    rw [joined_queue] at hx hmoved
    by_cases hp : x.port = p
    · exact .inl hp
    · refine .inr ⟨⟨x, hx, rfl⟩, ?_⟩
      have hold : x ∈ s.icm.queue := (mem_insertEntry.1 hx).resolve_left (fun h => hp (by rw [h]))
      rwa [placeIn_append ⟨x, hold, rfl⟩]
  rw [htold]
  exact callNotice_tells_place hphase rfl

end

/-- The arbiter does not look past a granted port. -/
theorem grantedPort_joined {p : Port} {a : Nat} {urgent : Bool} {s : State} (hidle : callPhase s p = .idle)
    (h : (grantedPort s).isSome = true) : grantedPort (joined p a urgent s) ≠ none := by
  obtain ⟨g, hg⟩ := Option.isSome_iff_exists.1 h
  have hgranted := granted_of_grantedPort hg
  have hne : g ≠ p := fun h => by simp [h, granted, hidle, CallPhase.granted] at hgranted
  intro hnone
  have := grantedPort_eq_none.1 hnone g
  rw [granted, callPhase, joined_rec, if_neg hne] at this
  simp [granted, callPhase] at hgranted
  simp [this] at hgranted

theorem grantedPort_joined_none {p : Port} {a : Nat} {urgent : Bool} {s : State}
    (h : grantedPort s = none) : grantedPort (joined p a urgent s) = none := by
  refine grantedPort_eq_none.2 fun q => ?_
  rw [granted, callPhase, joined_rec]
  split
  · rfl
  · exact grantedPort_eq_none.1 h q

theorem ReferenceEnded.congr {a : Nat} {u s t : State} (h : ReferenceEnded a u t) (hst : u.lif.stations = s.lif.stations)
    (hcab : u.cab = s.cab) (hacc : u.acc = s.acc) : ReferenceEnded a s t := by
  have hstation : stationOf u a = stationOf s a := by simp [stationOf, hst]
  unfold ReferenceEnded at *
  rwa [hst, hcab, hacc, hstation] at h

section
variable {p : Port} {a : Nat} {urgent : Bool} {s : State}

/-- The head of the queue that a port has joined. -/
theorem joined_head (p : Port) (a : Nat) (urgent : Bool) (s : State) :
    ∃ e rest, (joined p a urgent s).icm.queue = e :: rest ∧ e.addr ∈ a :: s.icm.queue.map (·.addr) := by
  have hmem : ⟨p, a, urgent, s.icm.arrivals⟩ ∈ (joined p a urgent s).icm.queue := by
    rw [joined_queue]
    exact mem_insertEntry.2 (.inl rfl)
  cases hq : (joined p a urgent s).icm.queue with
  | nil => simp [hq] at hmem
  | cons e rest =>
    refine ⟨e, rest, rfl, ?_⟩
    have he : e ∈ insertEntry ⟨p, a, urgent, s.icm.arrivals⟩ s.icm.queue := by
      rw [← joined_queue, hq]
      exact List.mem_cons_self
    rcases mem_insertEntry.1 he with rfl | he
    · exact List.mem_cons_self
    · exact List.mem_cons_of_mem _ (List.mem_map_of_mem he)

theorem joinCalls_reference (p : Port) (a : Nat) (urgent : Bool) (s : State) :
    ∃ b ∈ a :: s.icm.queue.map (·.addr), ReferenceEnded b s (joinCalls p a urgent s) := by
  obtain ⟨hst, hcab, hacc, -⟩ := joined_alike p a urgent s
  obtain ⟨e, rest, hqueue, he⟩ := joined_head p a urgent s
  rw [joinCalls_eq]
  cases hnone : grantedPort (joined p a urgent s) with
  | some g =>
    rw [arbitrate_of_granted (by rw [hnone]; simp)]
    exact ⟨a, List.mem_cons_self, referenceEnded_of_kept a hst hcab hacc⟩
  | none => exact ⟨e.addr, he, (arbitrate_reference hnone hqueue).congr hst hcab hacc⟩

theorem joinCalls_told (p : Port) (a : Nat) (urgent : Bool) (s : State) : PlacesTold s.icm.queue (joinCalls p a urgent s) :=
  (joined_told p a urgent s).arbitrate

/-- The port that joins is told its call state. -/
theorem joinCalls_tells : ((joinCalls p a urgent s).nsc.calls.get p).any
    (fun c => decide (c.phase = callPhase (joinCalls p a urgent s) p ∧ c.reason = .none)) = true := by
  have hrec : callRec (joined p a urgent s) p = { callRec s p with phase := .queued, reason := .none } := by
    rw [joined_rec, if_pos rfl]
  have hnotice : (joined p a urgent s).nsc.calls.get p = some (callNotice (joined p a urgent s) p) := by
    rw [joined_calls, if_pos (.inl rfl)]
  have htold : ∀ u t : State, (callRec u p).reason = .none → callPhase t p = callPhase u p →
      (some (callNotice u p)).any (fun c => decide (c.phase = callPhase t p ∧ c.reason = .none)) = true := fun u t hr hp => by
    have hphase : (callRec t p).phase = (callRec u p).phase := hp
    simp [callNotice, hr, callPhase, hphase]
  rw [joinCalls_eq]
  cases hnone : grantedPort (joined p a urgent s) with
  | some g =>
    rw [arbitrate_of_granted (by rw [hnone]; simp), hnotice]
    exact htold _ _ (by rw [hrec]) rfl
  | none =>
    obtain ⟨e, rest, hqueue, -⟩ := joined_head p a urgent s
    rw [arbitrate_notices hnone hqueue, hnotice]
    have hreason : (callRec (arbitrate (joined p a urgent s)) p).reason = .none := by
      rw [arbitrate_rec hnone hqueue]
      split
      · rfl
      · rw [hrec]
    split
    · exact htold _ _ hreason rfl
    · refine htold _ _ (by rw [hrec]) ?_
      have hne : p ≠ e.port := fun h => by simp_all
      rw [callPhase, arbitrate_rec hnone hqueue, if_neg hne]
      rfl

/-- A port that joins with none granted and none waiting is granted at once. -/
theorem joinCalls_alone (hnone : grantedPort s = none) (hempty : s.icm.queue = []) :
    (joinCalls p a urgent s).icm.queue = []
      ∧ callRec (joinCalls p a urgent s) p = ⟨if s.icm.privacy then .ringing else .linked, .none, s.time, 0⟩
      ∧ (∀ r, r ≠ p → callRec (joinCalls p a urgent s) r = callRec s r)
      ∧ (joinCalls p a urgent s).icm.ringDue = (if s.icm.privacy then some (s.time + 43200000) else s.icm.ringDue)
      ∧ (joinCalls p a urgent s).icm.prompts = (if s.icm.privacy then ringAsked s.icm.prompts else s.icm.prompts) := by
  have hnone' := grantedPort_joined_none (p := p) (a := a) (urgent := urgent) hnone
  have hqueue : (joined p a urgent s).icm.queue = [⟨p, a, urgent, s.icm.arrivals⟩] := by
    rw [joined_queue, hempty]
    rfl
  have hkept : (joined p a urgent s).icm.privacy = s.icm.privacy ∧ (joined p a urgent s).time = s.time
      ∧ (joined p a urgent s).icm.ringDue = s.icm.ringDue ∧ (joined p a urgent s).icm.prompts = s.icm.prompts := by
    simp [joined]
  obtain ⟨hprivacy, htime, hring, hprompts⟩ := hkept
  obtain ⟨hdue, hasked⟩ := arbitrate_rings hnone' hqueue
  rw [joinCalls_eq]
  refine ⟨(arbitrate_calls hnone' hqueue).2.1, ?_, fun r hr => ?_, ?_, ?_⟩
  · rw [arbitrate_rec hnone' hqueue, if_pos rfl, hprivacy, htime]
  · rw [arbitrate_rec hnone' hqueue, if_neg hr, joined_rec, if_neg hr]
  · rw [hdue, hprivacy, htime, hring]
  · rw [hasked, hprivacy, hprompts]

/-- A port that joins while another is granted waits. -/
theorem joinCalls_waits (hidle : callPhase s p = .idle) (h : (grantedPort s).isSome = true) :
    callRec (joinCalls p a urgent s) p = { callRec s p with phase := .queued, reason := .none }
      ∧ (∀ r, r ≠ p → callRec (joinCalls p a urgent s) r = callRec s r)
      ∧ (joinCalls p a urgent s).icm.queue = insertEntry ⟨p, a, urgent, s.icm.arrivals⟩ s.icm.queue
      ∧ (joinCalls p a urgent s).icm.ringDue = s.icm.ringDue ∧ (joinCalls p a urgent s).icm.prompts = s.icm.prompts := by
  rw [joinCalls_eq, arbitrate_of_granted (grantedPort_joined hidle h)]
  refine ⟨by rw [joined_rec, if_pos rfl], fun r hr => by rw [joined_rec, if_neg hr], joined_queue p a urgent s, ?_, ?_⟩ <;>
    simp [joined]

end

/-! ### A raise to URGENT, and an ended call (07 R126) -/

theorem raiseUrgent_of_urgent {p : Port} {x : QEntry} {s : State} (hx : s.icm.queue.find? (fun x => x.port = p) = some x)
    (hu : x.urgent = true) : raiseUrgent p s = s := by
  simp [raiseUrgent, hx, hu]

theorem raiseUrgent_of_normal {p : Port} {x : QEntry} {s : State} (hx : s.icm.queue.find? (fun x => x.port = p) = some x)
    (hu : x.urgent = false) : raiseUrgent p s = noticeMoved s.icm.queue (noticeCall p { s with
      icm.queue := insertEntry { x with urgent := true } (s.icm.queue.filter (fun x => decide (x.port ≠ p))) }) := by
  simp [raiseUrgent, hx, hu]

theorem raiseUrgent_told (p : Port) (s : State) : PlacesTold s.icm.queue (raiseUrgent p s) := by
  cases hx : s.icm.queue.find? (fun x => x.port = p) with
  | none => exact placesTold_of_queue (by simp [raiseUrgent, hx])
  | some x =>
    cases hu : x.urgent with
    | true => exact placesTold_of_queue (by rw [raiseUrgent_of_urgent hx hu])
    | false =>
      rw [raiseUrgent_of_normal hx hu]
      exact placesTold_noticeMoved _ _

/-- The raised entry's port is told its new place. -/
theorem raiseUrgent_tells {p : Port} {x : QEntry} {s : State} (hphase : callPhase s p = .queued)
    (hx : s.icm.queue.find? (fun x => x.port = p) = some x) (hu : x.urgent = false) :
    ((raiseUrgent p s).nsc.calls.get p).any (fun c => decide (c.phase = .queued ∧ c.urgent = true
      ∧ c.place = placeIn (raiseUrgent p s).icm.queue p)) = true := by
  obtain ⟨queue, hqueue⟩ : ∃ queue, queue = insertEntry { x with urgent := true }
    (s.icm.queue.filter (fun x => decide (x.port ≠ p))) := ⟨_, rfl⟩
  obtain ⟨v, hv⟩ : ∃ v, v = ({ s with icm.queue := queue } : State) := ⟨_, rfl⟩
  have hport : x.port = p := by simpa using List.find?_some hx
  have hraised : v.icm.queue.any (fun e => decide (e.port = p) && e.urgent) = true := by
    rw [List.any_eq_true]
    refine ⟨{ x with urgent := true }, ?_, by simp [hport]⟩
    rw [hv, hqueue]
    exact mem_insertEntry.2 (.inl rfl)
  have hqueued : (callRec v p).phase = .queued := by
    rw [hv]
    exact hphase
  have hshape : raiseUrgent p s = noticeMoved s.icm.queue (noticeCall p v) := by
    rw [raiseUrgent_of_normal hx hu, hv, hqueue]
  have hicm : (raiseUrgent p s).icm = v.icm := by rw [hshape]; simp [noticeCall]
  have hsame : callNotice (noticeCall p v) p = callNotice v p :=
    callNotice_congr (by simp [noticeCall]) (by simp [noticeCall]) (by simp [noticeCall]) p
  have htold : (raiseUrgent p s).nsc.calls.get p = some (callNotice v p) := by
    rw [hshape, noticeMoved_calls]
    split
    · rw [hsame]
    · simp [noticeCall, placeCallNotice]
  rw [htold, hicm]
  simp [callNotice, hqueued, hraised]

/-- The queue's place of a port whose call has ended. -/
abbrev callLeft (p : Port) (s : State) : State := leaveQueue p (enterPhase p .idle .ended s)

theorem callLeft_queue (p : Port) (s : State) :
    (callLeft p s).icm.queue = s.icm.queue.filter (fun x => decide (x.port ≠ p)) := by
  rw [callLeft, leaveQueue_queue]
  simp

theorem callLeft_rec (p q : Port) (s : State) : callRec (callLeft p s) q
    = if q = p then { callRec s p with phase := .idle, reason := .ended } else callRec s q := by
  rw [callLeft, callRec_congr (s := enterPhase p .idle .ended s) (by simp), callRec_enterPhase]

theorem callLeft_told (p : Port) (s : State) : PlacesTold s.icm.queue (callLeft p s) := by
  intro x hx hphase hmoved
  have hbefore : (enterPhase p .idle .ended s).icm.queue = s.icm.queue := by simp
  rw [callLeft, leaveQueue_calls, hbefore, if_pos ⟨⟨x, hx, rfl⟩, hmoved⟩]
  exact callNotice_tells_place hphase rfl

theorem callLeft_reference (p : Port) (a : Nat) (s : State) :
    ∃ b ∈ a :: s.icm.queue.map (·.addr), ReferenceEnded b s (callLeft p s) := by
  have hqueue : (enterPhase p .idle .ended s).icm.queue = s.icm.queue := by simp
  cases hx : s.icm.queue.find? (fun e => e.port = p) with
  | none =>
    have hshape : callLeft p s = enterPhase p .idle .ended s := by
      rw [callLeft, leaveQueue, hqueue, hx]
    rw [hshape]
    exact ⟨a, List.mem_cons_self, referenceEnded_of_kept a (by simp) (by simp) (by simp)⟩
  | some x =>
    have hshape : callLeft p s = endReference x.addr (noticeMoved s.icm.queue { enterPhase p .idle .ended s with
        icm.queue := s.icm.queue.filter (fun x => decide (x.port ≠ p)) }) := by
      rw [callLeft, leaveQueue, hqueue, hx]
    rw [hshape]
    refine ⟨x.addr, List.mem_cons_of_mem _ (List.mem_map_of_mem (List.mem_of_find?_eq_some hx)),
      referenceEnded_of (w := noticeMoved s.icm.queue { enterPhase p .idle .ended s with
        icm.queue := s.icm.queue.filter (fun x => decide (x.port ≠ p)) }) ?_ ⟨rfl, rfl, rfl, rfl⟩ ?_⟩ <;> simp

/-! ### CALL (07 R126) -/

/-- What a CALL does, by the code and the port's call state. -/
inductive CallDone (q : QFrame) (e : Station) (s v : State) : Prop
  | stays (h : v = s)
  | joins (p : Port) (hport : e.port = some p) (hidle : callPhase s p = .idle)
      (h : v = joinCalls p q.src (decide (q.at 0 1 = 2)) s)
  | raised (p : Port) (hport : e.port = some p) (hqueued : callPhase s p = .queued) (h : v = raiseUrgent p s)
  | left (p : Port) (hport : e.port = some p) (hqueued : callPhase s p = .queued) (h : v = callLeft p s)
  | released (p : Port) (hport : e.port = some p) (hcall : callPhase s p = .ringing ∨ callPhase s p = .linked)
      (h : v = release p .ended s)

section
variable {q : QFrame} {e : Station} {s : State} {p : Port} (hport : e.port = some p) (hpresent : e.present = true)
include hport hpresent

theorem callBody_join (hidle : callPhase s p = .idle) (hcode : q.at 0 1 = 1 ∨ q.at 0 1 = 2) :
    callBody q e s = joinCalls p q.src (decide (q.at 0 1 = 2)) s := by
  rcases hcode with h | h <;> simp [callBody, hport, hpresent, h, hidle]

theorem callBody_raise (hqueued : callPhase s p = .queued) (hcode : q.at 0 1 = 2) : callBody q e s = raiseUrgent p s := by
  simp [callBody, hport, hpresent, hcode, hqueued]

theorem callBody_left (hqueued : callPhase s p = .queued) (hcode : q.at 0 1 = 3) : callBody q e s = callLeft p s := by
  simp [callBody, hport, hpresent, hcode, hqueued]

theorem callBody_released (hcall : callPhase s p = .ringing ∨ callPhase s p = .linked) (hcode : q.at 0 1 = 3) :
    callBody q e s = release p .ended s := by
  rcases hcall with h | h <;> simp [callBody, hport, hpresent, hcode, h]

theorem callBody_again (hcall : callPhase s p ≠ .idle) (hcode : q.at 0 1 = 1) : callBody q e s = s := by
  simp [callBody, hport, hpresent, hcode, hcall]

theorem callBody_urgentAgain (hcall : callPhase s p = .ringing ∨ callPhase s p = .linked ∨ callPhase s p = .releasing)
    (hcode : q.at 0 1 = 2) : callBody q e s = s := by
  rcases hcall with h | h | h <;> simp [callBody, hport, hpresent, hcode, h]

theorem callBody_endsNone (hcall : callPhase s p = .idle ∨ callPhase s p = .releasing) (hcode : q.at 0 1 = 3) :
    callBody q e s = s := by
  rcases hcall with h | h <;> simp [callBody, hport, hpresent, hcode, h]

end

theorem callBody_none {q : QFrame} {e : Station} {s : State}
    (h : e.port = none ∨ e.present = false ∨ (q.at 0 1 ≠ 1 ∧ q.at 0 1 ≠ 2 ∧ q.at 0 1 ≠ 3)) : callBody q e s = s := by
  unfold callBody
  split
  · rcases h with h | h | ⟨h, -⟩ <;> simp_all
  · rcases h with h | h | ⟨-, h, -⟩ <;> simp_all
  · rcases h with h | h | ⟨-, -, h⟩ <;> simp_all
  · rfl

theorem callDone (q : QFrame) (e : Station) (s : State) : CallDone q e s (callBody q e s) := by
  by_cases hnone : e.port = none ∨ e.present = false ∨ (q.at 0 1 ≠ 1 ∧ q.at 0 1 ≠ 2 ∧ q.at 0 1 ≠ 3)
  · exact .stays (callBody_none hnone)
  · simp only [not_or, not_and_or, not_not, Bool.not_eq_false] at hnone
    obtain ⟨hsome, hpresent, hcode⟩ := hnone
    obtain ⟨p, hport⟩ := Option.ne_none_iff_exists'.1 hsome
    rcases hcode with h | h | h
    · by_cases hidle : callPhase s p = .idle
      · exact .joins p hport hidle (callBody_join hport hpresent hidle (.inl h))
      · exact .stays (callBody_again hport hpresent hidle h)
    · cases hphase : callPhase s p with
      | idle => exact .joins p hport hphase (callBody_join hport hpresent hphase (.inr h))
      | queued => exact .raised p hport hphase (callBody_raise hport hpresent hphase h)
      | ringing => exact .stays (callBody_urgentAgain hport hpresent (.inl hphase) h)
      | linked => exact .stays (callBody_urgentAgain hport hpresent (.inr (.inl hphase)) h)
      | releasing => exact .stays (callBody_urgentAgain hport hpresent (.inr (.inr hphase)) h)
    · cases hphase : callPhase s p with
      | idle => exact .stays (callBody_endsNone hport hpresent (.inl hphase) h)
      | queued => exact .left p hport hphase (callBody_left hport hpresent hphase h)
      | ringing => exact .released p hport (.inl hphase) (callBody_released hport hpresent (.inl hphase) h)
      | linked => exact .released p hport (.inr hphase) (callBody_released hport hpresent (.inr hphase) h)
      | releasing => exact .stays (callBody_endsNone hport hpresent (.inr hphase) h)

theorem callDone_told {q : QFrame} {e : Station} {s v : State} (h : CallDone q e s v) : PlacesTold s.icm.queue v := by
  cases h with
  | stays h => exact placesTold_of_queue (by rw [h])
  | joins p _ _ h => exact h ▸ joinCalls_told p q.src _ s
  | raised p _ _ h => exact h ▸ raiseUrgent_told p s
  | left p _ _ h => exact h ▸ callLeft_told p s
  | released p _ _ h => exact placesTold_of_queue (by rw [h]; simp)

theorem callDone_reference {q : QFrame} {e : Station} {s v : State} (h : CallDone q e s v) :
    ∃ b ∈ q.src :: s.icm.queue.map (·.addr), ReferenceEnded b s v := by
  have hkept : v.lif.stations = s.lif.stations → v.cab = s.cab → v.acc = s.acc →
      ∃ b ∈ q.src :: s.icm.queue.map (·.addr), ReferenceEnded b s v :=
    fun hst hcab hacc => ⟨q.src, List.mem_cons_self, referenceEnded_of_kept q.src hst hcab hacc⟩
  cases h with
  | stays h => exact hkept (by rw [h]) (by rw [h]) (by rw [h])
  | joins p _ _ h => exact h ▸ joinCalls_reference p q.src _ s
  | raised p _ _ h => exact hkept (by rw [h]; simp) (by rw [h]; simp) (by rw [h]; simp)
  | left p _ _ h => exact h ▸ callLeft_reference p q.src s
  | released p _ _ h => exact hkept (by rw [h]; simp) (by rw [h]; simp) (by rw [h]; simp)

end Sys2Proof.Machine
end

section
/-!
SETTLED OBLIGATIONS. CALL, the ring timer and the hold boundary, assembled (07 R125 to R129, R133).
-/

namespace Sys2Proof.Machine

/-! ### The hold boundary (07 R133) -/

/-- A boundary counts for a port. -/
abbrev BoundaryCounts (m : Moment) (c : CallRec) : Prop := (c.phase = .ringing ∨ c.phase = .linked) ∧ c.grantAt < m

section
variable {m : Moment} {s : State} {p : Port}

theorem boundaryFor_idle (h : ¬ BoundaryCounts m (callRec s p)) : boundaryFor m s p = s := if_neg h

theorem boundaryFor_counted (h : BoundaryCounts m (callRec s p)) (hfew : (callRec s p).boundaries < 7) :
    boundaryFor m s p = setCall p { callRec s p with boundaries := (callRec s p).boundaries + 1 } s := by
  unfold boundaryFor
  dsimp only
  rw [if_pos h, if_pos (by omega)]

/-- The release of a call at its eighth boundary, before RINGING is left. -/
def timedOut (p : Port) (s : State) : State :=
  askPrompt .timeout p.index (enterPhase p .releasing .timedOut
    (setCall p { callRec s p with boundaries := (callRec s p).boundaries + 1 } s))

theorem boundaryFor_eighth (h : BoundaryCounts m (callRec s p)) (hmany : ¬ (callRec s p).boundaries < 7) :
    boundaryFor m s p = if (callRec s p).phase = .ringing then leaveRinging (timedOut p s) else timedOut p s := by
  unfold boundaryFor
  dsimp only
  rw [if_pos h, if_neg (by omega)]
  rfl

theorem boundaryFor_other (q : Port) (hq : q ≠ p) : callRec (boundaryFor m s p) q = callRec s q
    ∧ (boundaryFor m s p).nsc.calls.get q = s.nsc.calls.get q := by
  by_cases h : BoundaryCounts m (callRec s p)
  · by_cases hfew : (callRec s p).boundaries < 7
    · rw [boundaryFor_counted h hfew, callRec_setCall, if_neg hq]
      exact ⟨rfl, rfl⟩
    · obtain ⟨u, hu⟩ : ∃ u, u = setCall p { callRec s p with boundaries := (callRec s p).boundaries + 1 } s := ⟨_, rfl⟩
      obtain ⟨hrec, hnotice⟩ := enterPhase_others (p := p) (q := q) .releasing .timedOut u hq
      have hown : callRec u q = callRec s q := by rw [hu, callRec_setCall, if_neg hq]
      have hsame : u.nsc = s.nsc := by rw [hu]; rfl
      have hcalls : (boundaryFor m s p).icm.calls = (enterPhase p .releasing .timedOut u).icm.calls
          ∧ (boundaryFor m s p).nsc.calls = (enterPhase p .releasing .timedOut u).nsc.calls := by
        rw [boundaryFor_eighth h hfew, timedOut, ← hu]
        split <;> simp
      rw [callRec_congr hcalls.1, hcalls.2, hrec, hnotice, hown, hsame]
      exact ⟨rfl, rfl⟩
  · rw [boundaryFor_idle h]
    exact ⟨rfl, rfl⟩

/-- A call is released at its eighth boundary. -/
theorem boundaryFor_releases (h : BoundaryCounts m (callRec s p)) (hmany : ¬ (callRec s p).boundaries < 7) :
    callPhase (boundaryFor m s p) p = .releasing ∧ (callRec (boundaryFor m s p) p).reason = .timedOut
      ∧ ((boundaryFor m s p).nsc.calls.get p).any (fun n => decide (n.phase = .releasing ∧ n.reason = .timedOut)) = true
      ∧ (if (callRec s p).phase = .ringing then RingingLeft (prompted s.icm.prompts .timeout p.index) s (boundaryFor m s p)
        else (boundaryFor m s p).icm.prompts = prompted s.icm.prompts .timeout p.index
          ∧ (boundaryFor m s p).icm.ringDue = s.icm.ringDue ∧ (boundaryFor m s p).icm.player = s.icm.player
          ∧ (boundaryFor m s p).icm.promptSample = s.icm.promptSample) := by
  obtain ⟨u, hu⟩ : ∃ u, u = setCall p { callRec s p with boundaries := (callRec s p).boundaries + 1 } s := ⟨_, rfl⟩
  obtain ⟨v, hv⟩ : ∃ v, v = boundaryFor m s p := ⟨_, rfl⟩
  have hshape : v = if (callRec s p).phase = .ringing then leaveRinging (timedOut p s) else timedOut p s := by
    rw [hv, boundaryFor_eighth h hmany]
  have hcalls : v.icm.calls = (enterPhase p .releasing .timedOut u).icm.calls
      ∧ v.nsc.calls = (enterPhase p .releasing .timedOut u).nsc.calls := by
    rw [hshape, timedOut, ← hu]
    split <;> simp
  obtain ⟨hrec, -, htells⟩ := enterPhase_moves hcalls.1 hcalls.2
  have hprompts : (timedOut p s).icm.prompts = prompted s.icm.prompts .timeout p.index := by
    rw [timedOut, askPrompt_prompts (by decide)]
    simp
  rw [← hv]
  refine ⟨by rw [callPhase, hrec], by rw [hrec], htells, ?_⟩
  by_cases hring : (callRec s p).phase = .ringing
  · rw [if_pos hring] at hshape ⊢
    exact ringingLeft_of (s := { s with icm.prompts := prompted s.icm.prompts .timeout p.index }) (u := timedOut p s) (t := v)
      (by simp [timedOut]) hprompts (by simp [timedOut]) (by simp [timedOut]) (by rw [hshape]) (by rw [hshape])
      (by rw [hshape]) (by rw [hshape])
  · rw [if_neg hring] at hshape ⊢
    rw [hshape]
    exact ⟨hprompts, by simp [timedOut], by simp [timedOut], by simp [timedOut]⟩

end

/-- All three rear ports have met a boundary. -/
abbrev boundaryMet (m : Moment) (s : State) : State := boundaryFor m (boundaryFor m (boundaryFor m s .a1) .a2) .a3

/-- Each port meets the boundary as it was called. -/
theorem boundaryMet_port (m : Moment) (s : State) (p : Port) : ∃ u, callRec u p = callRec s p
    ∧ callRec (boundaryMet m s) p = callRec (boundaryFor m u p) p
    ∧ (boundaryMet m s).nsc.calls.get p = (boundaryFor m u p).nsc.calls.get p := by
  cases p with
  | a1 =>
    obtain ⟨h2, n2⟩ := boundaryFor_other (m := m) (s := boundaryFor m s .a1) (p := .a2) .a1 (by decide)
    obtain ⟨h3, n3⟩ := boundaryFor_other (m := m) (s := boundaryFor m (boundaryFor m s .a1) .a2) (p := .a3) .a1 (by decide)
    exact ⟨s, rfl, h3.trans h2, n3.trans n2⟩
  | a2 =>
    obtain ⟨h1, -⟩ := boundaryFor_other (m := m) (s := s) (p := .a1) .a2 (by decide)
    obtain ⟨h3, n3⟩ := boundaryFor_other (m := m) (s := boundaryFor m (boundaryFor m s .a1) .a2) (p := .a3) .a2 (by decide)
    exact ⟨_, h1, h3, n3⟩
  | a3 =>
    obtain ⟨h1, -⟩ := boundaryFor_other (m := m) (s := s) (p := .a1) .a3 (by decide)
    obtain ⟨h2, -⟩ := boundaryFor_other (m := m) (s := boundaryFor m s .a1) (p := .a2) .a3 (by decide)
    exact ⟨_, h2.trans h1, rfl, rfl⟩

/-- The boundary of the only call that stands. -/
theorem boundaryMet_alone {m : Moment} {s : State} {p : Port}
    (hone : ∀ r, r ≠ p → callPhase s r ≠ .ringing ∧ callPhase s r ≠ .linked) : boundaryMet m s = boundaryFor m s p := by
  have hidle : ∀ r, r ≠ p → boundaryFor m s r = s := fun r hr =>
    boundaryFor_idle fun h => h.1.elim (hone r hr).1 (hone r hr).2
  have hafter : ∀ r, r ≠ p → boundaryFor m (boundaryFor m s p) r = boundaryFor m s p := fun r hr =>
    boundaryFor_idle fun h => by
      rw [(boundaryFor_other r hr).1] at h
      exact h.1.elim (hone r hr).1 (hone r hr).2
  cases p with
  | a1 => rw [boundaryMet, hafter .a2 (by decide), hafter .a3 (by decide)]
  | a2 => rw [boundaryMet, hidle .a1 (by decide), hafter .a3 (by decide)]
  | a3 => rw [boundaryMet, hidle .a1 (by decide), hidle .a2 (by decide)]

/-- Of ICM, only the counts of boundaries change. -/
abbrev OnlyCounted (s t : State) : Prop := t.icm = { s.icm with calls := t.icm.calls } ∧ t.nsc = s.nsc ∧ t.lif = s.lif

theorem boundaryFor_onlyCounts {m : Moment} {s : State} {p : Port}
    (h : BoundaryCounts m (callRec s p) → (callRec s p).boundaries < 7) : OnlyCounted s (boundaryFor m s p) := by
  by_cases hcounts : BoundaryCounts m (callRec s p)
  · rw [boundaryFor_counted hcounts (h hcounts)]
    exact ⟨rfl, rfl, rfl⟩
  · rw [boundaryFor_idle hcounts]
    exact ⟨rfl, rfl, rfl⟩

theorem OnlyCounted.trans {s u t : State} (h : OnlyCounted s u) (h' : OnlyCounted u t) : OnlyCounted s t := by
  obtain ⟨hicm, hnsc, hlif⟩ := h
  obtain ⟨hicm', hnsc', hlif'⟩ := h'
  refine ⟨?_, hnsc'.trans hnsc, hlif'.trans hlif⟩
  rw [hicm', hicm]

theorem boundaryMet_onlyCounts {m : Moment} {s : State}
    (h : ∀ p, BoundaryCounts m (callRec s p) → (callRec s p).boundaries < 7) : OnlyCounted s (boundaryMet m s) := by
  have h1 := boundaryFor_onlyCounts (h .a1)
  have h2 := boundaryFor_onlyCounts (m := m) (s := boundaryFor m s .a1) (p := .a2)
    (by rw [(boundaryFor_other .a2 (by decide)).1]; exact h .a2)
  have h3 := boundaryFor_onlyCounts (m := m) (s := boundaryFor m (boundaryFor m s .a1) .a2) (p := .a3)
    (by rw [(boundaryFor_other .a3 (by decide)).1, (boundaryFor_other .a3 (by decide)).1]; exact h .a3)
  exact (h1.trans h2).trans h3

/-- What a CALL keeps. -/
@[simp] abbrev CallKeeps (v s : State) : Prop :=
  Kept.base v s ∧ Kept.outer v s ∧ Kept.deep v s ∧ Kept.line v s ∧ Kept.sends v s ∧ Kept.news v s
    ∧ Kept.assist v s ∧ Kept.hire v s ∧ Kept.audio v s ∧ Kept.lists v s
    ∧ (v.nsc.sign = s.nsc.sign ∧ v.nsc.offers = s.nsc.offers ∧ v.nsc.fares = s.nsc.fares ∧ v.nsc.journal = s.nsc.journal)
    ∧ v.fare = s.fare ∧ (v.cab.sign = s.cab.sign ∧ v.cab.signDue = s.cab.signDue)
    ∧ (v.icm.talk = s.icm.talk ∧ v.icm.privacy = s.icm.privacy ∧ v.icm.forced = s.icm.forced)
    ∧ v.acc.shift = s.acc.shift ∧ v.acc.unresolved = s.acc.unresolved

theorem callDone_keeps {q : QFrame} {e : Station} {s v : State} (h : CallDone q e s v) : CallKeeps v s := by
  cases h with
  | stays h => rw [h]; simp
  | joins p _ _ h => rw [h]; simp
  | raised p _ _ h => rw [h]; simp
  | left p _ _ h => rw [h]; simp
  | released p _ _ h => rw [h]; simp

theorem callDone_tx {q : QFrame} {e : Station} {s v : State} (h : CallDone q e s v) : Kept.tx v s := by
  cases h with
  | stays h => rw [h]; simp
  | joins p _ _ h => rw [h]; simp
  | raised p _ _ h => rw [h]; simp
  | left p _ _ h => rw [h]; simp
  | released p _ _ h => rw [h]; simp

theorem frame_of_callKeeps {s t : State} (h : CallKeeps t s) : t = { s with
    lif := t.lif, nsc := { s.nsc with calls := t.nsc.calls, print := t.nsc.print }
    icm := { s.icm with calls := t.icm.calls, queue := t.icm.queue, arrivals := t.icm.arrivals
                        ringDue := t.icm.ringDue, prompts := t.icm.prompts, player := t.icm.player
                        promptSample := t.icm.promptSample }
    cab := { s.cab with watches := t.cab.watches }
    acc := { s.acc with credit := t.acc.credit, jobs := t.acc.jobs } } := by
  obtain ⟨⟨h1, h2, h3, h4⟩, ⟨o1, o2, o3⟩, ⟨d1, d2⟩, -, ⟨s1, s2, s3, s4, s5⟩, ⟨w1, w2, w3⟩, ⟨a1, a2, a3, a4, a5, a6⟩,
    ⟨b1, b2, b3⟩, ⟨g1, g2, g3, g4⟩, ⟨l1, l2⟩, ⟨n1, n2, n3, n4⟩, f, ⟨c1, c2⟩, ⟨i1, i2, i3⟩, x1, x2⟩ := h
  exact State.ext h1 h2 h3 h4 rfl (Nsc.ext w1 w2 n1 n2 rfl n3 s1 w3 n4 rfl s2 s3 s4 s5) o1 o2 f
    (Cab.ext b1 b2 b3 a1 a2 a3 a4 a5 a6 c1 c2 rfl) (Icm.ext rfl rfl rfl i1 i2 i3 g1 g2 rfl rfl rfl rfl g3 g4)
    (Acc.ext x1 l1 x2 l2 rfl rfl) d1 d2 o3

/-- Settles O49. -/
theorem callsJoinRingAndTimeOut : Obligations.CallsJoinRingAndTimeOut := by
  refine ⟨fun q e rest s hasks => ⟨_, takes_asks callBody hasks, ?_⟩, fun p due s hact hring hdue => ?_, fun s hact => ?_⟩
  · obtain ⟨w, hw⟩ : ∃ w, w = ({ s with lif.queue := rest } : State) := ⟨_, rfl⟩
    obtain ⟨v, hv⟩ : ∃ v, v = callBody q e w := ⟨_, rfl⟩
    obtain ⟨t, ht⟩ : ∃ t, t = letGo v := ⟨_, rfl⟩
    rw [← hw, ← hv, ← ht]
    have hdone : CallDone q e w v := hv ▸ callDone q e w
    have hkeeps : CallKeeps t w := by
      have hkept := callDone_keeps hdone
      rw [ht]
      simpa using hkept
    have hicm : t.icm = v.icm := by rw [ht]; simp
    have hnsc : t.nsc = v.nsc := by rw [ht]; simp
    have hrec : ∀ r, callRec t r = callRec v r := callRec_congr (by rw [hicm])
    have hphase : ∀ r, callPhase t r = callPhase v r := callPhase_congr (by rw [hicm])
    have hwrec : ∀ r, callRec w r = callRec s r := fun r => by rw [hw]; rfl
    have hwphase : ∀ r, callPhase w r = callPhase s r := fun r => by rw [hw]; rfl
    have hwicm : w.icm = s.icm := by rw [hw]
    have hwnsc : w.nsc = s.nsc := by rw [hw]
    have hwtime : w.time = s.time := by rw [hw]
    have hwgranted : grantedPort w = grantedPort s := by rw [hw]; rfl
    have hstays : v = w → t.icm = s.icm ∧ t.nsc = s.nsc := fun h =>
      ⟨by rw [hicm, h, hwicm], by rw [hnsc, h, hwnsc]⟩
    refine ⟨?_, fun p hport hpresent => ⟨fun hidle hcode => ?_, fun hqueued hcode x hx => ?_, fun hqueued hcode => ?_,
      fun hcall hcode => ?_, fun hcall hcode => ?_, fun hcall hcode => ?_, fun hcall hcode => ?_⟩, ?_, fun hnone => ?_, ?_⟩
    · obtain ⟨b, hb, hended⟩ := callDone_reference hdone
      rw [hwicm] at hb
      refine ⟨b, hb, ?_, ?_, ?_⟩
      · obtain ⟨-, -, -, ⟨haddr, hrx, hqueue, hfree, hann⟩, -⟩ := hkeeps
        exact Lif.ext (by rw [haddr, hw]) (by rw [hrx, hw]) (by rw [hqueue, hw]) (by rw [hfree, hw]) rfl rfl (by rw [hann, hw])
      · rw [ht]
        refine transmitterKept_letGo (.inr (tx_eq_of_kept ?_))
        have htx := callDone_tx hdone
        rw [hw] at htx
        exact htx
      · have hafter : ReferenceEnded b s v := hended.congr (by rw [hw]) (by rw [hw]) (by rw [hw])
        rw [ht]
        simpa [ReferenceEnded] using hafter
    · have hshape : v = joinCalls p q.src (decide (q.at 0 1 = 2)) w := by
        rw [hv, callBody_join hport hpresent (by rw [hwphase, hidle]) hcode]
      refine ⟨by rw [hicm, hshape, ← hwicm]; simp [joinCalls_eq, joined], ?_, fun hnone hempty => ?_, fun hsome => ?_⟩
      · rw [hnsc, hphase, hshape]
        exact joinCalls_tells
      · obtain ⟨h1, h2, h3, h4, h5⟩ := joinCalls_alone (p := p) (a := q.src) (urgent := decide (q.at 0 1 = 2))
          (s := w) (by rw [hwgranted, hnone]) (by rw [hwicm, hempty])
        rw [← hshape, ← hicm] at h1 h4 h5
        rw [hwicm] at h2 h4 h5
        rw [hwtime] at h2 h4
        rw [← hshape, ← hrec] at h2
        refine ⟨h1, h2, fun r hr => ?_, ?_⟩
        · rw [hrec, hshape, h3 r hr, hwrec]
        · rw [h4, h5]
          cases s.icm.privacy with
          | false => exact ⟨rfl, rfl⟩
          | true => exact ⟨rfl, rfl⟩
      · obtain ⟨h1, h2, h3, h4, h5⟩ := joinCalls_waits (a := q.src) (urgent := decide (q.at 0 1 = 2)) (s := w)
          (p := p) (by rw [hwphase, hidle]) (by rw [hwgranted, hsome])
        rw [← hshape, ← hrec, hwrec] at h1
        rw [← hshape, ← hicm, hwicm] at h3 h4 h5
        exact ⟨h1, fun r hr => by rw [hrec, hshape, h2 r hr, hwrec], h3, h4, h5⟩
    · have hshape : v = raiseUrgent p w := by rw [hv, callBody_raise hport hpresent (by rw [hwphase, hqueued]) hcode]
      have hx' : w.icm.queue.find? (fun x => x.port = p) = some x := by rw [hwicm, hx]
      refine ⟨?_, ?_, fun hurgent => ?_, fun hnormal => ?_⟩
      · rw [hicm, hshape, ← hwicm]
        apply Icm.ext <;> simp
      · rw [hicm, hshape]
        cases hurgent : x.urgent with
        | true =>
          rw [raiseUrgent_of_urgent hx' hurgent, hwicm]
          rfl
        | false =>
          rw [raiseUrgent_of_normal hx' hurgent, hwicm]
          simp [noticeCall]
      · rw [hnsc, hshape, raiseUrgent_of_urgent hx' hurgent, hwnsc]
      · rw [hnsc, hicm, hshape]
        exact raiseUrgent_tells (by rw [hwphase, hqueued]) hx' hnormal
    · have hshape : v = callLeft p w := by rw [hv, callBody_left hport hpresent (by rw [hwphase, hqueued]) hcode]
      refine ⟨?_, ?_, fun r hr => ?_, fun _ => ?_⟩
      · rw [hphase, callPhase, hshape, callLeft_rec, if_pos rfl]
      · rw [hrec, hshape, callLeft_rec, if_pos rfl]
      · rw [hrec, hshape, callLeft_rec, if_neg hr, hwrec]
      · rw [hicm, hshape, callLeft_queue, hwicm]
    · have hcall' : callPhase w p = .ringing ∨ callPhase w p = .linked := by rw [hwphase]; exact hcall
      have hshape : v = release p .ended w := by rw [hv, callBody_released hport hpresent hcall' hcode]
      have hcalls : t.icm.calls = (enterPhase p .releasing .ended w).icm.calls
          ∧ t.nsc.calls = (enterPhase p .releasing .ended w).nsc.calls := by
        rw [hicm, hnsc, hshape]
        exact ⟨(release_icm p .ended w).1, (release_icm p .ended w).2.2.2⟩
      obtain ⟨h1, h2, h3⟩ := enterPhase_moves hcalls.1 hcalls.2
      refine ⟨by rw [h1, hwrec], by rw [hicm, hshape, ← hwicm]; simp, fun r hr => by rw [(h2 r hr).1, hwrec], h3,
        fun hring => ?_, fun hlink => ?_⟩
      · have hleft := release_rings p .ended (s := w) (t := t) (by rw [hicm, hshape]) (by rw [hicm, hshape])
          (by rw [hicm, hshape]) (by rw [hicm, hshape])
        rw [if_pos (by rw [hwphase, hring]), hw] at hleft
        exact hleft
      · have hkept : release p .ended w = enterPhase p .releasing .ended w :=
          if_neg (by rw [hwphase, hlink]; simp)
        rw [hicm, hshape, hkept, ← hwicm]
        apply Icm.ext <;> simp
    · exact hstays (by rw [hv, callBody_again hport hpresent (by rw [hwphase]; exact hcall) hcode])
    · exact hstays (by rw [hv, callBody_urgentAgain hport hpresent (by rw [hwphase]; exact hcall) hcode])
    · exact hstays (by rw [hv, callBody_endsNone hport hpresent (by rw [hwphase]; exact hcall) hcode])
    · have htold := callDone_told hdone
      rw [hwicm] at htold
      exact htold.congr hicm (by rw [hnsc])
    · exact hstays (by rw [hv, callBody_none hnone])
    · have hframe := frame_of_callKeeps hkeeps
      subst hw
      exact hframe
  · obtain ⟨r, hr⟩ : ∃ r, ringingPort s = some r := by
      cases h : ringingPort s with
      | some r => exact ⟨r, rfl⟩
      | none => exact absurd hring (by simpa using List.find?_eq_none.1 h p (by cases p <;> decide))
    have hbody : ringTimerBody s = askPrompt .ring 0
        { passTo due s with icm.ringDue := some ((passTo due s).time + 43200000) } := by
      rw [ringTimerBody, hr, hdue]
      rfl
    refine ⟨_, whenActive_of_active hact ringTimerBody, ?_⟩
    rw [hbody]
    refine ⟨by simp [passTo], by simp [passTo], askPrompt_ring _, ?_⟩
    apply State.ext <;> simp [passTo]
    case icm => apply Icm.ext <;> simp
  · obtain ⟨u, hu⟩ : ∃ u, u = passTo s.icm.holdDue { s with icm.holdDue := s.icm.holdDue + seconds 15 } := ⟨_, rfl⟩
    have hbody : holdBoundaryBody s = boundaryMet s.icm.holdDue u := by
      rw [hu]
      rfl
    have hrec : ∀ p, callRec u p = callRec s p := callRec_congr (by rw [hu]; rfl)
    refine ⟨_, whenActive_of_active hact holdBoundaryBody, ?_⟩
    rw [hbody]
    refine ⟨by simp [hu, passTo], by simp [hu, passTo, seconds], fun p => ?_, fun h => ?_, ?_⟩
    · obtain ⟨w, hw, hown, hnotice⟩ := boundaryMet_port s.icm.holdDue u p
      rw [hrec] at hw
      by_cases hcounts : BoundaryCounts s.icm.holdDue (callRec s p)
      · refine (if_pos hcounts).mpr ?_
        by_cases hfew : (callRec s p).boundaries < 7
        · refine (if_pos hfew).mpr ?_
          rw [hown, boundaryFor_counted (hw ▸ hcounts) (hw ▸ hfew), callRec_setCall, if_pos rfl, hw]
        · refine (if_neg hfew).mpr ?_
          obtain ⟨hphase, hreason, htells, -⟩ := boundaryFor_releases (s := w) (hw ▸ hcounts) (hw ▸ hfew)
          refine ⟨by rw [callPhase, hown]; exact hphase, by rw [hown, hreason], by rw [hnotice]; exact htells, fun hone => ?_⟩
          have halone : boundaryMet s.icm.holdDue u = boundaryFor s.icm.holdDue u p :=
            boundaryMet_alone fun r hr => by
              rw [callPhase, hrec]
              exact hone r hr
          obtain ⟨-, -, -, hleft⟩ := boundaryFor_releases (s := u) (p := p) (m := s.icm.holdDue)
            (by rw [hrec]; exact hcounts) (by rw [hrec]; exact hfew)
          rw [halone]
          rw [hrec] at hleft
          have hsame : u.icm.prompts = s.icm.prompts ∧ u.icm.ringDue = s.icm.ringDue ∧ u.icm.player = s.icm.player
              ∧ u.icm.promptSample = s.icm.promptSample := by rw [hu]; exact ⟨rfl, rfl, rfl, rfl⟩
          obtain ⟨h1, h2, h3, h4⟩ := hsame
          by_cases hringing : (callRec s p).phase = .ringing
          · refine (if_pos hringing).mpr ?_
            rw [if_pos hringing] at hleft
            rw [hu] at hleft ⊢
            exact hleft
          · refine (if_neg hringing).mpr ?_
            rw [if_neg hringing, h1, h2, h3, h4] at hleft
            exact hleft
      · refine (if_neg hcounts).mpr ?_
        rw [hown, boundaryFor_idle (hw ▸ hcounts), hw]
    · obtain ⟨hicm, hnsc, hlif⟩ := boundaryMet_onlyCounts (m := s.icm.holdDue) (s := u) fun p hp => by
        rw [hrec] at hp ⊢
        exact h p hp.1 hp.2
      refine ⟨?_, by rw [hnsc, hu]; rfl, by rw [hlif, hu]; rfl⟩
      rw [hicm, hu]
      rfl
    · apply State.ext <;> simp [hu, passTo]
      case lif => exact lif_eq_of_kept (s := s) (by simp) (by simp) (by simp)
      case nsc => apply Nsc.ext <;> simp
      case icm => apply Icm.ext <;> simp

end Sys2Proof.Machine
end

section
/-!
SETTLED OBLIGATIONS. A sample period (07 R121 to R124, R128, R132, R139 to R142).
-/

namespace Sys2Proof.Machine

/-! ### Mixing and ramps (07 R122 to R124) -/

theorem saturate_toInt (v : Int) : (saturate v).toInt = max (-32768) (min 32767 v) := by
  have hin : ∀ x : Int, -32768 ≤ x → x ≤ 32767 → (BitVec.ofInt 16 x).toInt = x := fun x hlow hhigh => by
    rw [BitVec.toInt_ofInt, Int.bmod_eq_of_le] <;> omega
  unfold saturate
  split
  · rw [hin _ (by omega) (by omega)]
    omega
  · split
    · rw [hin _ (by omega) (by omega)]
      omega
    · rw [hin _ (by omega) (by omega)]
      omega

/-- A rear microphone's target in the driver's speaker. -/
theorem micTarget_toDriver (s : State) (p : Port) : micTarget s p.index 0
    = (if bound s p ∧ callPhase s p = .linked then 4096 else 0) / (if playsInto s 0 then 4 else 1) := by
  have hcall : callTarget s p.index 0 = if bound s p ∧ callPhase s p = .linked then 4096 else 0 := by
    cases p <;> simp [callTarget, portOfIndex, Port.index]
  unfold micTarget
  rw [hcall]
  cases playsInto s 0 <;> simp

/-- A rear party hears the driver when it is linked or talked to. -/
abbrev hearsDriver (s : State) (p : Port) : Bool :=
  bound s p && (decide (callPhase s p = .linked) || decide (s.icm.talk = .down .all) || decide (s.icm.talk = .down (.one p)))

theorem talksTo_eq (s : State) (p : Port) :
    talksTo s p = (decide (s.icm.talk = .down .all) || decide (s.icm.talk = .down (.one p))) := by
  unfold talksTo
  cases s.icm.talk with
  | up => simp
  | down target => cases target <;> simp

theorem micTarget_toRear (s : State) (p : Port) : micTarget s 0 p.index
    = (if hearsDriver s p then 4096 else 0) / (if playsInto s p.index then 4 else 1) := by
  have hcall : callTarget s 0 p.index = if hearsDriver s p then 4096 else 0 := by
    unfold hearsDriver
    rw [Bool.or_assoc, ← talksTo_eq]
    cases p <;> simp [callTarget, portOfIndex, Port.index]
  unfold micTarget
  rw [hcall]
  cases playsInto s p.index <;> simp

theorem promptTarget_driver (s : State) : promptTarget s 0 = if playsInto s 0 then 2048 else 0 := by
  simp [promptTarget, boundIndex, portOfIndex]

theorem promptTarget_rear (s : State) (p : Port) :
    promptTarget s p.index = if playsInto s p.index && bound s p then 2048 else 0 := by
  cases p <;> simp [promptTarget, boundIndex, portOfIndex, Port.index]

/-! ### The player's step (07 R139, R141) -/

/-- A play starts at its first segment. -/
theorem startPlay_player (s : State) : ∀ queue : List Prompt, (startPlay s queue).icm.player = s.icm.player
    ∨ ∃ k d, (startPlay s queue).icm.player = .playing k d 0 (segmentAt k 0).2 0
  | [] => .inl rfl
  | y :: queue => by
    unfold startPlay
    dsimp only
    split
    · exact startPlay_player s queue
    · exact .inr ⟨_, _, rfl⟩

theorem startPlay_sample (s : State) : ∀ queue : List Prompt,
    (startPlay s queue).icm.promptSample = s.icm.promptSample
  | [] => rfl
  | y :: queue => by
    unfold startPlay
    dsimp only
    split
    · exact startPlay_sample s queue
    · rfl

/-- The first segment of every prompt has more than one sample. -/
theorem firstSegment_long (k : PromptKind) : 1 < (segmentAt k 0).2 ∧ toneIncrement (segmentAt k 0).1 < 65536 := by
  cases k <;> decide

/-- The first sample of a play. -/
theorem giveSample_first (k : PromptKind) (d : Four Bool) (s : State) :
    (giveSample k d 0 (segmentAt k 0).2 0 s).icm.player
        = .playing k d 0 ((segmentAt k 0).2 - 1) (1 * toneIncrement (segmentAt k 0).1)
      ∧ (giveSample k d 0 (segmentAt k 0).2 0 s).icm.promptSample = 0 := by
  obtain ⟨hlong, hinc⟩ := firstSegment_long k
  refine ⟨?_, ?_⟩
  · unfold giveSample
    dsimp only
    rw [if_neg (fun h => by omega), Nat.zero_add, Nat.mod_eq_of_lt hinc, Nat.one_mul]
  · unfold giveSample toneSample
    dsimp only
    split
    · rfl
    · decide

/-- The player after a play has been looked for. -/
def playedOn (u : State) : State :=
  match u.icm.player with
  | .idle => u
  | .playing k d seg left phase => giveSample k d seg left phase u

/-- A step that looks for the next play gives its first sample (log 17). -/
theorem playedOn_starts {x : State} (hidle : x.icm.player = .idle) (queue : List Prompt) :
    PlayStarts 1 queue x (playedOn (startPlay x queue))
      ∧ (playedOn (startPlay x queue)).icm.promptSample
        = if (playedOn (startPlay x queue)).icm.player = .idle then x.icm.promptSample else 0 := by
  obtain ⟨hnone, hsome⟩ := startPlay_starts x hidle queue
  have hidled : (startPlay x queue).icm.player = .idle → playedOn (startPlay x queue) = startPlay x queue := fun h => by
    unfold playedOn
    rw [h]
  have hplayed : ∀ k d, (startPlay x queue).icm.player = .playing k d 0 (segmentAt k 0).2 0 →
      playedOn (startPlay x queue) = giveSample k d 0 (segmentAt k 0).2 0 (startPlay x queue) := fun k d h => by
    unfold playedOn
    rw [h]
  refine ⟨⟨fun hall => ?_, fun before y rest heq hall hy => ?_⟩, ?_⟩
  · obtain ⟨hplayer, hprompts⟩ := hnone hall
    rw [hidled hplayer]
    exact ⟨hplayer, hprompts⟩
  · obtain ⟨hprompts, hplayer⟩ := hsome before y rest heq hall hy
    rw [Nat.sub_zero, Nat.zero_mul] at hplayer
    rw [hplayed _ _ hplayer]
    exact ⟨by simpa using hprompts, (giveSample_first _ _ _).1⟩
  · rcases startPlay_player x queue with h | ⟨k, d, h⟩
    · rw [hidled (h.trans hidle), if_pos (h.trans hidle), startPlay_sample]
    · rw [hplayed k d h, (giveSample_first k d _).2, (giveSample_first k d _).1, if_neg (by simp)]

theorem playStep_going {s : State} {k : PromptKind} {d : Four Bool} {seg left phase : Nat}
    (h : s.icm.player = .playing k d seg left phase) (hleft : left ≠ 0) : playStep s = giveSample k d seg left phase s := by
  unfold playStep
  rw [h]
  dsimp only
  rw [if_neg hleft, h]

theorem playStep_idle {s : State} (h : s.icm.player = .idle) : playStep s = playedOn (startPlay s s.icm.prompts) := by
  unfold playStep
  rw [h]
  rfl

theorem playStep_over {s : State} {k : PromptKind} {d : Four Bool} {seg phase : Nat}
    (h : s.icm.player = .playing k d seg 0 phase) :
    playStep s = playedOn (startPlay { s with icm.player := .idle, icm.promptSample := 0 } s.icm.prompts) := by
  unfold playStep playedOn
  rw [h]
  rfl

/-- The player has no play, or one that has given its last sample. -/
theorem playStep_next {s : State} (h : s.icm.player = .idle ∨ ∃ k d seg phase, s.icm.player = .playing k d seg 0 phase) :
    PlayStarts 1 s.icm.prompts s (playStep s)
      ∧ (playStep s).icm.promptSample
        = if s.icm.player = .idle ∧ (playStep s).icm.player = .idle then s.icm.promptSample else 0 := by
  rcases h with h | ⟨k, d, seg, phase, h⟩
  · obtain ⟨hstarts, hsample⟩ := playedOn_starts h s.icm.prompts
    rw [← playStep_idle h] at hstarts hsample
    exact ⟨hstarts, by simpa [h] using hsample⟩
  · obtain ⟨hstarts, hsample⟩ := playedOn_starts (x := { s with icm.player := .idle, icm.promptSample := 0 }) rfl s.icm.prompts
    rw [← playStep_over h] at hstarts hsample
    exact ⟨hstarts, by rw [if_neg (fun hn => by simp [h] at hn)]; simpa using hsample⟩

theorem PlayStarts.congr {n : Nat} {queue : List Prompt} {s s' t t' : State} (h : PlayStarts n queue s t)
    (hst : s'.lif.stations = s.lif.stations) (hplayer : t'.icm.player = t.icm.player)
    (hprompts : t'.icm.prompts = t.icm.prompts) : PlayStarts n queue s' t' := by
  have hdests : ∀ d, boundDests s' d = boundDests s d := boundDests_congr hst
  unfold PlayStarts at *
  simpa only [hplayer, hprompts, hdests] using h

/-! ### Looking for a RELEASING port that has fallen silent (07 R128, R132) -/

theorem lookReleased_none {v : State}
    (h : ∀ p, callPhase v p = .releasing → (v.icm.gains.get 0).mic.get p.index ≠ 0) : lookReleased v = v := by
  have hnone : Port.list.find? (fun p => decide (callPhase v p = .releasing)
      && decide (((v.icm.gains.get 0).mic.get p.index) = 0)) = none :=
    List.find?_eq_none.2 fun p _ => by simpa using h p
  rw [lookReleased, hnone]

section
variable {v : State} {p : Port} (hp : callPhase v p = .releasing) (hone : ∀ q, q ≠ p → (callPhase v q).granted = false)
include hone

theorem grantedPort_freed : grantedPort (enterPhase p .idle (callRec v p).reason v) = none :=
  grantedPort_eq_none.2 fun q => by
    rw [granted, callPhase_enterPhase]
    split
    · rfl
    · exact hone q ‹_›

include hp

theorem lookReleased_some (hgain : (v.icm.gains.get 0).mic.get p.index = 0) :
    lookReleased v = arbitrate (enterPhase p .idle (callRec v p).reason v) := by
  have hsome : Port.list.find? (fun p => decide (callPhase v p = .releasing)
      && decide (((v.icm.gains.get 0).mic.get p.index) = 0)) = some p := by
    cases hfind : Port.list.find? (fun p => decide (callPhase v p = .releasing)
      && decide (((v.icm.gains.get 0).mic.get p.index) = 0)) with
    | none =>
      have := List.find?_eq_none.1 hfind p (by cases p <;> simp [Port.list])
      simp [hp, hgain] at this
    | some q =>
      by_cases hq : q = p
      · rw [hq]
      · have hfound := List.find?_some hfind
        have := hone q hq
        simp_all [CallPhase.granted]
  rw [lookReleased, hsome]

/-- Of a queue without the freed port, the ports told their new places are told them as QUEUED. -/
theorem lookReleased_frees (hgain : (v.icm.gains.get 0).mic.get p.index = 0) (hout : ∀ x ∈ v.icm.queue, x.port ≠ p) :
    callRec (lookReleased v) p = { callRec v p with phase := .idle }
      ∧ ((lookReleased v).nsc.calls.get p).any (fun c => decide (c.phase = .idle ∧ c.reason = (callRec v p).reason)) = true
      ∧ (match v.icm.queue with
        | [] => (∀ q, q ≠ p → callRec (lookReleased v) q = callRec v q) ∧ (lookReleased v).icm.queue = []
            ∧ (lookReleased v).icm.ringDue = v.icm.ringDue ∧ (lookReleased v).icm.prompts = v.icm.prompts
        | x :: more =>
            (lookReleased v).icm.queue = more
            ∧ callRec (lookReleased v) x.port = ⟨if v.icm.privacy then .ringing else .linked, .none, v.time, 0⟩
            ∧ ((lookReleased v).nsc.calls.get x.port).any
                (fun c => decide (c.phase = callPhase (lookReleased v) x.port ∧ c.reason = .none)) = true
            ∧ (∀ q, q ≠ p → q ≠ x.port → callRec (lookReleased v) q = callRec v q)
            ∧ (lookReleased v).icm.ringDue = (if v.icm.privacy then some (v.time + 43200000) else v.icm.ringDue)
            ∧ (lookReleased v).icm.prompts = (if v.icm.privacy then ringAsked v.icm.prompts else v.icm.prompts)
            ∧ (∀ y ∈ more, y.port ≠ x.port → callPhase v y.port = .queued →
                placeIn v.icm.queue y.port ≠ placeIn more y.port → ((lookReleased v).nsc.calls.get y.port).any
                  (fun c => decide (c.phase = .queued ∧ c.place = placeIn more y.port)) = true)) := by
  rw [lookReleased_some hp hone hgain]
  have hnone := grantedPort_freed hone
  obtain ⟨w, hw⟩ : ∃ w, w = enterPhase p .idle (callRec v p).reason v := ⟨_, rfl⟩
  have hwrec : ∀ q, callRec w q = if q = p then { callRec v p with phase := .idle } else callRec v q := fun q => by
    rw [hw, callRec_enterPhase]
  have hwtells : (w.nsc.calls.get p).any (fun c => decide (c.phase = .idle ∧ c.reason = (callRec v p).reason)) = true := by
    rw [hw]
    exact enterPhase_tells p .idle _ v
  have hwqueue : w.icm.queue = v.icm.queue := by simp [hw]
  have hwring : w.icm.ringDue = v.icm.ringDue ∧ w.icm.prompts = v.icm.prompts ∧ w.icm.privacy = v.icm.privacy
      ∧ w.time = v.time := by simp [hw]
  obtain ⟨hring, hprompts, hprivacy, htime⟩ := hwring
  rw [← hw] at hnone ⊢
  cases hqueue : v.icm.queue with
  | nil =>
    rw [arbitrate_of_empty (hwqueue.trans hqueue)]
    exact ⟨by rw [hwrec, if_pos rfl], hwtells, fun q hq => by rw [hwrec, if_neg hq], hwqueue.trans hqueue, hring, hprompts⟩
  | cons x more =>
    have hq := hwqueue.trans hqueue
    have hx : x.port ≠ p := hout x (by simp [hqueue])
    have hmore : ∀ y ∈ more, y.port ≠ p := fun y hy => hout y (by simp [hqueue, hy])
    obtain ⟨-, hleft, -⟩ := arbitrate_calls hnone hq
    have hrec := arbitrate_rec hnone hq
    have htold := arbitrate_notices hnone hq
    obtain ⟨hringing, hasked⟩ := arbitrate_rings hnone hq
    rw [hring, hprivacy, htime] at hringing
    rw [hprivacy, hprompts] at hasked
    rw [hprivacy, htime] at hrec
    refine ⟨?_, ?_, hleft, by rw [hrec, if_pos rfl], ?_, fun q hqp hqx => ?_, hringing, hasked, fun y hy hyx hyq hmoved => ?_⟩
    · rw [hrec, if_neg hx.symm, hwrec, if_pos rfl]
    · rw [htold, if_neg]
      · exact hwtells
      · rintro (h | ⟨⟨y, hy, hyp⟩, -⟩)
        · exact hx h.symm
        · exact hmore y hy hyp
    · rw [htold, if_pos (.inl rfl)]
      have hown : callRec { w with icm := (arbitrate w).icm } x.port = callRec (arbitrate w) x.port := rfl
      simp [callNotice, hown, callPhase, hrec]
    · rw [hrec, if_neg hqx, hwrec, if_neg hqp]
    · rw [htold, if_pos (.inr ⟨⟨y, hy, rfl⟩, by rw [hq]; exact hmoved⟩)]
      have hown : (callRec { w with icm := (arbitrate w).icm } y.port).phase = .queued := by
        show (callRec (arbitrate w) y.port).phase = .queued
        rw [hrec, if_neg hyx, hwrec, if_neg (hmore y hy)]
        exact hyq
      simp [callNotice, hown, hleft]

end

/-- A RING asked for with privacy on, by one condition. -/
theorem ringAsked_if (privacy : Bool) (queue : List Prompt) : (if privacy then ringAsked queue else queue)
    = if (privacy && decide (queue.length < 8) && queue.all (fun e => decide (e.kind ≠ .ring))) then
        queue ++ [⟨.ring, onlySpk 0⟩] else queue := by
  cases privacy <;> simp [ringAsked]

/-! ### The sample period -/

/-- A sample period before the look for a silent port: the outputs are given and the gains have moved one step. -/
def sampled (m : Four Sample) (s : State) : State :=
  { passTo s.icm.sampleDue s with
    icm.sampleDue := s.icm.sampleDue + 900
    icm.out := ⟨mix (s.icm.gains.get 0) m s.icm.promptSample, mix (s.icm.gains.get 1) m s.icm.promptSample,
      mix (s.icm.gains.get 2) m s.icm.promptSample, mix (s.icm.gains.get 3) m s.icm.promptSample⟩
    icm.gains := ramped s }

theorem samplePeriodBody_eq (m : Four Sample) (s : State) :
    samplePeriodBody m s = playStep (lookReleased (sampled m s)) := rfl

/-- An output is the saturated mix by the gains as they stood. -/
theorem sampled_out (m : Four Sample) (s : State) (d : Fin 4) :
    (sampled m s).icm.out.get d = mix (s.icm.gains.get d) m s.icm.promptSample := by
  fin_cases d <;> rfl

theorem sampled_mic (m : Four Sample) (s : State) (spk mic : Fin 4) : ((sampled m s).icm.gains.get spk).mic.get mic
    = rampStep ((s.icm.gains.get spk).mic.get mic) (micTarget s mic spk) := by
  rw [← rampGains_mic, ← ramped_get]
  rfl

theorem sampled_prompt (m : Four Sample) (s : State) (spk : Fin 4) : ((sampled m s).icm.gains.get spk).prompt
    = rampStep (s.icm.gains.get spk).prompt (promptTarget s spk) := by
  show ((ramped s).get spk).prompt = _
  rw [ramped_get]
  rfl

/-- Settles O48: the gains as the ramp steps of R121, the queue as the arbiter leaves it, the player as its step. -/
theorem samplePeriodMixesAndRamps : Obligations.SamplePeriodMixesAndRamps := by
  intro m0 m1 m2 m3 s hact
  obtain ⟨v, hv⟩ : ∃ v, v = sampled ⟨m0, m1, m2, m3⟩ s := ⟨_, rfl⟩
  obtain ⟨x, hx⟩ : ∃ x, x = lookReleased v := ⟨_, rfl⟩
  have hbody : letGo (samplePeriodBody ⟨m0, m1, m2, m3⟩ s) = letGo (playStep x) := by rw [samplePeriodBody_eq, hx, hv]
  have hgains : (letGo (playStep x)).icm.gains = v.icm.gains := by simp [hx]
  have hvrec : ∀ p, callRec v p = callRec s p := callRec_congr (by rw [hv]; rfl)
  have hvphase : ∀ p, callPhase v p = callPhase s p := fun p => by rw [callPhase, hvrec, callPhase]
  have hplayer : x.icm.player = s.icm.player := by rw [hx]; simp [hv, sampled]
  have hsample : x.icm.promptSample = s.icm.promptSample := by rw [hx]; simp [hv, sampled]
  have hmic : ∀ spk mic : Fin 4, ((letGo (playStep x)).icm.gains.get spk).mic.get mic
      = rampStep ((s.icm.gains.get spk).mic.get mic) (micTarget s mic spk) := fun spk mic => by
    rw [hgains, hv, sampled_mic]
  have htrec : ∀ q, callRec (letGo (playStep x)) q = callRec (lookReleased v) q := callRec_congr (by simp [hx])
  have htcalls : (letGo (playStep x)).nsc.calls = (lookReleased v).nsc.calls := by simp [hx]
  have hexec : exec (.samplePeriod m0 m1 m2 m3) s = .next (letGo (playStep x)) :=
    (whenActive_of_active hact (fun s => letGo (samplePeriodBody ⟨m0, m1, m2, m3⟩ s))).trans (by rw [hbody])
  refine ⟨_, x.icm.prompts, hexec, ?_, ?_, ?_, fun d => ?_,
    fun p => ?_, fun p => ?_, fun p q => ?_, ?_, ?_, fun p => ?_, fun hloud => ?_, fun p hp hone hout hgain => ?_,
    fun k d seg left phase hplay hleft => ?_, fun hnext => ?_, ?_⟩
  · exact transmitterKept_letGo (.inr (tx_eq_of_kept (by simp [hx, hv, sampled])))
  · simp [hx, hv, sampled]
  · simp [hx, hv, sampled]
  · have hout : (letGo (playStep x)).icm.out = v.icm.out := by simp [hx]
    rw [hout, hv, sampled_out]
    exact saturate_toInt _
  · rw [hmic, micTarget_toDriver]
    rfl
  · rw [hmic, micTarget_toRear]
    rfl
  · rw [hmic, micTarget_rear]
    rfl
  · rw [hmic, micTarget_driver]
    rfl
  · rw [hgains, hv, sampled_prompt, promptTarget_driver]
    rfl
  · rw [hgains, hv, sampled_prompt, promptTarget_rear]
    rfl
  · have hsilent : x = v := hx.trans (lookReleased_none fun p hp => by
      rw [← hgains]
      exact hloud p ((hvphase p).symm.trans hp))
    rw [hsilent]
    simp [hv, sampled]
  · have hfrees := lookReleased_frees (v := v) (p := p) ((hvphase p).trans hp)
      (fun q hq => by rw [hvphase]; exact hone q hq) (by rw [← hgains]; exact hgain) (by rw [hv]; exact hout)
    obtain ⟨hown, htells, hothers⟩ := hfrees
    refine ⟨by rw [htrec, hown, hvrec], by rw [htcalls, ← hvrec]; exact htells, ?_⟩
    have hvcalls : v.icm.queue = s.icm.queue ∧ v.icm.privacy = s.icm.privacy ∧ v.icm.ringDue = s.icm.ringDue
        ∧ v.icm.prompts = s.icm.prompts ∧ v.time = (letGo (playStep x)).time := by rw [hx]; simp [hv, sampled]
    have htstands : (letGo (playStep x)).icm.queue = (lookReleased v).icm.queue
        ∧ (letGo (playStep x)).icm.ringDue = (lookReleased v).icm.ringDue := by simp [hx]
    obtain ⟨hvqueue, hvprivacy, hvring, hvprompts, htime⟩ := hvcalls
    obtain ⟨htqueue, htring⟩ := htstands
    simp only [hvqueue, hvprivacy, hvring, hvprompts, htime, hvrec, hvphase] at hothers
    cases hqueue : s.icm.queue with
    | nil =>
      rw [hqueue] at hothers
      obtain ⟨hrest, hleft, hring, hasked⟩ := hothers
      exact ⟨fun q hq => (htrec q).trans (hrest q hq), htqueue.trans hleft, htring.trans hring, by rw [hx]; exact hasked⟩
    | cons y more =>
      rw [hqueue] at hothers
      obtain ⟨hleft, hgranted, hnoticed, hrest, hring, hasked, hplaces⟩ := hothers
      refine ⟨htqueue.trans hleft, (htrec _).trans hgranted, ?_, fun q hqp hqy => (htrec q).trans (hrest q hqp hqy),
        htring.trans hring, ?_, fun z hz hzy hzq hmoved => ?_⟩
      · rw [htcalls, callPhase, htrec]
        exact hnoticed
      · rw [hx, hasked]
        exact ringAsked_if _ _
      · rw [htcalls]
        exact hplaces z hz hzy hzq hmoved
  · have hgoing := playStep_going (s := x) (hplayer.trans hplay) hleft
    have ht : (letGo (playStep x)).icm = (giveSample k d seg left phase x).icm := by rw [← hgoing]; simp
    rw [ht]
    have hlast : left - 1 = 0 ↔ left = 1 := by omega
    exact ⟨by simp, rfl, by simp only [giveSample, hlast]⟩
  · obtain ⟨hstarts, hsampled⟩ := playStep_next (s := x) (by rw [hplayer]; exact hnext)
    refine ⟨hstarts.congr (by simp) (by simp) (by simp), ?_⟩
    rw [hplayer, hsample] at hsampled
    simpa using hsampled
  · apply State.ext <;> simp [hx, hv, sampled]
    case lif => apply Lif.ext <;> simp
    case nsc => apply Nsc.ext <;> simp
    case cab => apply Cab.ext <;> simp
    case acc => apply Acc.ext <;> simp
    case icm => apply Icm.ext <;> simp

end Sys2Proof.Machine
end

section
/-!
SUPPORT. The ring (09 R165 to R167, R171): what is counted ahead of the write position, and where the look ends.
-/

namespace Sys2Proof.Machine

/-! ### The sectors in ring order (09 R165) -/

/-- The sector k places after a sector of the ring. -/
abbrev sectorAfter (c k : Nat) : Nat := (c - 2 + k) % 126 + 2

theorem nextSector_after (c k : Nat) :
    nextSector (sectorAfter c k) = sectorAfter c (k + 1) := by
  unfold nextSector sectorAfter
  split <;> omega

theorem nextSector_eq {c : Nat} (hlow : 2 ≤ c) (hhigh : c < 128) : nextSector c = sectorAfter c 1 := by
  unfold nextSector sectorAfter
  split <;> omega

section
variable (c : Nat)

/-- The rows counted while a test holds of the sectors after one. -/
theorem runRows_after (s : State) (test : Nat → Bool) : ∀ n k : Nat,
    ∃ m, m ≤ n ∧ (∀ j, k ≤ j → j < k + m → test (sectorAfter c j) = true)
      ∧ (m < n → test (sectorAfter c (k + m)) = false) ∧ runRows s test n (sectorAfter c k) = 16 * m
  | 0, k => ⟨0, le_rfl, fun j h1 h2 => by omega, fun h => absurd h (lt_irrefl 0), rfl⟩
  | n + 1, k => by
    cases htest : test (sectorAfter c k) with
    | false => exact ⟨0, Nat.zero_le _, fun j h1 h2 => by omega, fun _ => htest, by simp [runRows, htest]⟩
    | true =>
      obtain ⟨m, hm, hall, hend, hrows⟩ := runRows_after s test n (k + 1)
      refine ⟨m + 1, by omega, fun j h1 h2 => ?_, fun h => ?_, ?_⟩
      · rcases Nat.eq_or_lt_of_le h1 with rfl | h1
        · exact htest
        · exact hall j h1 (by omega)
      · rw [← Nat.add_assoc, Nat.add_right_comm]
        exact hend (by omega)
      · rw [runRows, if_pos htest, nextSector_after, hrows]
        omega

/-- The rows of the ERASED sectors in unbroken order, and the sector after them. -/
theorem erasedRun_after (s : State) : ∀ n k : Nat,
    ∃ m, m ≤ n ∧ (∀ j, k ≤ j → j < k + m → sectorErased s (sectorAfter c j) = true)
      ∧ (m < n → sectorErased s (sectorAfter c (k + m)) = false)
      ∧ erasedRun s n (sectorAfter c k) = (16 * m, sectorAfter c (k + m))
  | 0, k => ⟨0, le_rfl, fun j h1 h2 => by omega, fun h => absurd h (lt_irrefl 0), rfl⟩
  | n + 1, k => by
    cases htest : sectorErased s (sectorAfter c k) with
    | false => exact ⟨0, Nat.zero_le _, fun j h1 h2 => by omega, fun _ => htest, by simp [erasedRun, htest]⟩
    | true =>
      obtain ⟨m, hm, hall, hend, hrun⟩ := erasedRun_after s n (k + 1)
      refine ⟨m + 1, by omega, fun j h1 h2 => ?_, fun h => ?_, ?_⟩
      · rcases Nat.eq_or_lt_of_le h1 with rfl | h1
        · exact htest
        · exact hall j h1 (by omega)
      · rw [← Nat.add_assoc, Nat.add_right_comm]
        exact hend (by omega)
      · rw [erasedRun, if_pos htest, nextSector_after, hrun, Nat.add_right_comm k 1 m, Nat.add_assoc k m 1]
        exact congrArg (·, sectorAfter c (k + (m + 1))) (by omega)

end

/-! ### What JNL counts ahead (09 R167, R171) -/

/-- The erased rows ahead and the next sector of erase-ahead. -/
theorem erasedAhead_counts {s : State} (hlow : 32 ≤ s.jnl.writePos) (hhigh : s.jnl.writePos < 2048) :
    ∃ n, n ≤ 125 ∧ (∀ k, 1 ≤ k → k ≤ n → sectorErased s (sectorAfter (s.jnl.writePos / 16) k) = true)
      ∧ (n < 125 → sectorErased s (sectorAfter (s.jnl.writePos / 16) (n + 1)) = false)
      ∧ erasedRowsAhead s = freeHere s + 16 * n - s.jnl.append.length
      ∧ aheadSector s = (if s.jnl.writePos % 16 = 0 ∧ sectorErased s (s.jnl.writePos / 16) = false then s.jnl.writePos / 16
        else sectorAfter (s.jnl.writePos / 16) (n + 1)) := by
  have hl : 2 ≤ s.jnl.writePos / 16 := by omega
  have hh : s.jnl.writePos / 16 < 128 := by omega
  obtain ⟨n, hn, hall, hend, hrun⟩ := erasedRun_after (s.jnl.writePos / 16) s 125 1
  rw [← nextSector_eq hl hh] at hrun
  refine ⟨n, hn, fun k h1 h2 => hall k h1 (by omega), fun h => ?_, ?_, ?_⟩
  · rw [Nat.add_comm]
    exact hend h
  · rw [erasedRowsAhead, hrun]
  · unfold aheadSector
    dsimp only
    rw [hrun, Nat.add_comm n 1]
    cases sectorErased s (s.jnl.writePos / 16) <;> simp

/-- The free rows. -/
theorem freeRows_counts {s : State} (hlow : 32 ≤ s.jnl.writePos) (hhigh : s.jnl.writePos < 2048) :
    let usable := fun c => sectorErased s c || reclaimable s c
    ∃ n, n ≤ 125 ∧ (∀ k, 1 ≤ k → k ≤ n → usable (sectorAfter (s.jnl.writePos / 16) k) = true)
      ∧ (n < 125 → usable (sectorAfter (s.jnl.writePos / 16) (n + 1)) = false)
      ∧ freeRows s = (if s.jnl.writePos % 16 = 0 ∧ usable (s.jnl.writePos / 16) = false then freeHere s
        else if s.jnl.writePos % 16 = 0 ∧ sectorErased s (s.jnl.writePos / 16) = false then 16 * (n + 1)
        else freeHere s + 16 * n) - s.jnl.append.length := by
  intro usable
  have hl : 2 ≤ s.jnl.writePos / 16 := by omega
  have hh : s.jnl.writePos / 16 < 128 := by omega
  obtain ⟨n, hn, hall, hend, hrows⟩ := runRows_after (s.jnl.writePos / 16) s usable 125 1
  rw [← nextSector_eq hl hh] at hrows
  refine ⟨n, hn, fun k h1 h2 => hall k h1 (by omega), fun h => ?_, ?_⟩
  · rw [Nat.add_comm]
    exact hend h
  · have hgross : grossFreeRows s = if s.jnl.writePos % 16 = 0 && !usable (s.jnl.writePos / 16) then freeHere s
        else if s.jnl.writePos % 16 = 0 && !sectorErased s (s.jnl.writePos / 16) then 16 + 16 * n
        else freeHere s + 16 * n := by
      rw [← hrows]
      rfl
    rw [freeRows, hgross, Nat.mul_add, Nat.add_comm (16 * n)]
    simp only [Bool.and_eq_true, decide_eq_true_eq, Bool.not_eq_true']

/-! ### Where the look ends (09 R165) -/

/-- What JNL finds at a row where its look ends. -/
def verdict (s : State) (w : Nat) : Found :=
  if w % 16 = 0 ∧ sectorErased s (w / 16) = false ∧ reclaimable s (w / 16) = false then .held
  else if rowFree s w = true then .due else .waits

/-- JNL's look at a row ends there. -/
abbrev Halts (s : State) (w : Nat) : Prop := rowFree s w = true ∨ (w % 16 = 0 ∧ sectorErased s (w / 16) = false)

theorem look_halts {s : State} {w : Nat} (h : Halts s w) (n : Nat) : look s (n + 1) w = (w, verdict s w) :=
  look_decides s n w h

theorem look_on {s : State} {w : Nat} (h : ¬ Halts s w) (n : Nat) : look s (n + 1) w = match nextFreeInSector s w with
    | some r => look s n r
    | none => look s n (nextSector (w / 16) * 16) := by
  rw [not_or, not_and] at h
  obtain ⟨hfree, hfirst⟩ := h
  have hfirst' : (w % 16 = 0 && !sectorErased s (w / 16)) = false := by
    by_cases hw : w % 16 = 0
    · simpa [hw] using hfirst hw
    · simp [hw]
  rw [look]
  simp [hfirst', hfree] <;> rfl

/-- The rows of a sector are searched in order. -/
theorem nextFree_some {s : State} {w r : Nat} (hr : w < r) (hsector : r / 16 = w / 16) (hfree : rowFree s r = true)
    (hfirst : ∀ k, w < k → k < r → rowFree s k = false) : nextFreeInSector s w = some r := by
  unfold nextFreeInSector
  rw [List.find?_eq_some_iff_getElem]
  refine ⟨by simp [hr, hfree], r % 16, by simp [Nat.mod_lt], ?_, fun j hj => ?_⟩
  · simp only [List.getElem_map, List.getElem_range]
    omega
  · simp only [List.getElem_map, List.getElem_range, Bool.not_and, Bool.or_eq_true, Bool.not_eq_true', decide_eq_false_iff_not]
    by_cases hlt : w < w / 16 * 16 + j
    · exact .inr (hfirst _ hlt (by omega))
    · exact .inl hlt

theorem nextFree_none {s : State} {w : Nat} (h : ∀ r, w < r → r / 16 = w / 16 → rowFree s r = false) :
    nextFreeInSector s w = none := by
  unfold nextFreeInSector
  rw [List.find?_eq_none]
  intro r hr
  obtain ⟨i, hi, rfl⟩ := List.mem_map.1 hr
  have hi16 : i < 16 := List.mem_range.1 hi
  by_cases hlt : w < w / 16 * 16 + i
  · simp [h _ hlt (by omega)]
  · simp [hlt]

/-! ### The program of the append queue's head (09 R170) -/

/-- Of the array's work, all that a look decides agrees in two states. -/
structure LookKept (u t : State) : Prop where
  rows : t.array = u.array
  stands : t.jnl.writePos = u.jnl.writePos ∧ t.jnl.waitsErase = u.jnl.waitsErase
  erased : ∀ c, sectorErased t c = sectorErased u c
  reclaims : ∀ c, reclaimable t c = reclaimable u c
  programs : opPending isJournalProgram t = opPending isJournalProgram u
  flies : ∀ r, u.jnl.inFlight = some (.journalProgram r) → t.jnl.inFlight = some (.journalProgram r)

theorem LookKept.trans {s u t : State} (h : LookKept s u) (h' : LookKept u t) : LookKept s t where
  rows := h'.rows.trans h.rows
  stands := ⟨h'.stands.1.trans h.stands.1, h'.stands.2.trans h.stands.2⟩
  erased c := (h'.erased c).trans (h.erased c)
  reclaims c := (h'.reclaims c).trans (h.reclaims c)
  programs := h'.programs.trans h.programs
  flies r hr := h'.flies r (h.flies r hr)

theorem lookKept_of_jnl {u t : State} (hj : t.jnl = u.jnl) (ha : t.array = u.array) : LookKept u t where
  rows := ha
  stands := ⟨by rw [hj], by rw [hj]⟩
  erased := sectorErased_congr hj
  reclaims := reclaimable_congr hj
  programs := by simp [opPending, hj]
  flies r hr := by rw [hj, hr]

section
variable {s : State} (hact : s.pwr.state = .active) (hfree : s.jnl.inFlight = none) (hwait : s.jnl.waiting = [])
  (hhead : s.jnl.append ≠ []) (hnone : s.jnl.waitsErase = false)
include hact hfree hwait hhead hnone

/-- The look decides: the head's program starts, or waits. -/
theorem programDue_looks {w : Nat} {f : Found} (hlook : look s 260 s.jnl.writePos = (w, f)) :
    (programDue s).jnl = { s.jnl with
      writePos := w, waitsErase := decide (f = .held), inFlight := if f = .due then some (.journalProgram w) else none } := by
  have hgoes : (s.jnl.append.isEmpty || opPending isJournalProgram s || s.jnl.waitsErase) = false := by
    simp [hhead, opPending, hfree, hwait, hnone]
  unfold programDue
  rw [hgoes, hlook]
  cases f
  · simp [requestOp, hact, hfree, hwait, startOp]
  · simp [hfree]
  · simp [hfree]

/-- JNL has decided at the row where its look ends. -/
theorem decidedAt_of_look {w : Nat} (hlook : look s 260 s.jnl.writePos = (w, verdict s w)) {t : State}
    (ht : LookKept (programDue s) t) : DecidedAt w t := by
  have hjnl := programDue_looks hact hfree hwait hhead hnone hlook
  have hentry : ∀ c, sectorEntry (programDue s) c = sectorEntry s c := fun c => by simp [sectorEntry]
  have herased : ∀ c, sectorErased t c = sectorErased s c := fun c => by
    rw [ht.erased, sectorErased, hentry, sectorErased]
  have hreclaim : ∀ c, reclaimable t c = reclaimable s c := fun c => by
    rw [ht.reclaims, reclaimable, reclaimable, sectorErased, sectorErased, hentry]
    simp
  have hrow : rowFree t w = rowFree s w := by simp [rowFree, ht.rows]
  have hpos := ht.stands
  have hprograms := ht.programs
  have hflies := ht.flies w
  rw [hjnl] at hpos hflies
  rw [opPending.eq_1 _ (programDue s), hjnl, hwait] at hprograms
  obtain ⟨hpos, hwaits⟩ := hpos
  refine ⟨hpos, ?_⟩
  rw [herased, hreclaim, hrow, hwaits]
  unfold verdict at hwaits hprograms hflies ⊢
  by_cases hheld : w % 16 = 0 ∧ sectorErased s (w / 16) = false ∧ reclaimable s (w / 16) = false
  · rw [if_pos hheld]
    simp only [if_pos hheld] at hprograms ⊢
    exact ⟨by simpa using hprograms, rfl⟩
  · rw [if_neg hheld]
    simp only [if_neg hheld] at hprograms hflies ⊢
    cases hf : rowFree s w
    · exact ⟨by simpa [hf] using hprograms, rfl⟩
    · exact ⟨hflies (by rw [hf]; rfl), rfl⟩

/-- JNL looks on from the write position (R165). -/
theorem writesOn_of_look {t : State} (ht : LookKept (programDue s) t) : WritesOn s.jnl.writePos t := by
  have hentry : ∀ c, sectorEntry (programDue s) c = sectorEntry s c := fun c => by simp [sectorEntry]
  have herased : ∀ c, sectorErased t c = sectorErased s c := fun c => by
    rw [ht.erased, sectorErased, hentry, sectorErased]
  have hrow : ∀ r, rowFree t r = rowFree s r := fun r => by simp [rowFree, ht.rows]
  have hhalts : ∀ r, (rowFree t r = true ∨ (r % 16 = 0 ∧ sectorErased t (r / 16) = false)) ↔ Halts s r := fun r => by
    rw [hrow, herased]
  have hdecided := fun w hlook => decidedAt_of_look hact hfree hwait hhead hnone (w := w) hlook ht
  have hnot : ∀ {r}, ¬ (rowFree t r = true ∨ (r % 16 = 0 ∧ sectorErased t (r / 16) = false)) → ¬ Halts s r :=
    fun h h' => h ((hhalts _).2 h')
  refine ⟨fun h => hdecided _ (look_halts ((hhalts _).1 h) 259), fun h r hr hsector hr' hfirst => hdecided _ ?_,
    fun h hno hnext => hdecided _ ?_⟩
  · rw [look_on (hnot h), nextFree_some hr hsector ((hrow r).symm.trans hr') fun k h1 h2 => (hrow k).symm.trans (hfirst k h1 h2)]
    exact look_halts (.inl ((hrow r).symm.trans hr')) 258
  · rw [look_on (hnot h), nextFree_none fun r h1 h2 => (hrow r).symm.trans (hno r h1 h2)]
    exact look_halts ((hhalts _).1 hnext) 258

end

end Sys2Proof.Machine
end

section
/-!
SETTLED OBLIGATIONS. The completions of the journal's program and erase (09 R165 to R167, R170, R171, 04 R71, 02 R29).
-/

namespace Sys2Proof.Machine

/-! ### Erase-ahead keeps what a look decides by (09 R171) -/

/-- Of each sector's entry, all but the erase flag agrees. -/
abbrev EntriesKept (s t : State) : Prop :=
  ∀ c, (sectorEntry t c).erased = (sectorEntry s c).erased ∧ (sectorEntry t c).range = (sectorEntry s c).range

theorem EntriesKept.trans {s t u : State} (h : EntriesKept s t) (h' : EntriesKept t u) : EntriesKept s u :=
  fun c => ⟨(h' c).1.trans (h c).1, (h' c).2.trans (h c).2⟩

theorem entriesKept_of_sectors {s t : State} (h : t.jnl.sectors = s.jnl.sectors) : EntriesKept s t :=
  fun c => by simp [sectorEntry, h]

theorem sectorEntry_setSector (c c' : Nat) (e : SectorEntry) (s : State) : sectorEntry (setSector c e s) c'
    = if c - 2 = c' - 2 ∧ c - 2 < s.jnl.sectors.length then e else sectorEntry s c' := by
  unfold sectorEntry setSector
  rw [List.getD_eq_getElem?_getD, List.getD_eq_getElem?_getD, List.getElem?_set]
  by_cases hc : c - 2 = c' - 2
  · rw [← hc]
    by_cases hlen : c - 2 < s.jnl.sectors.length
    · simp [hlen]
    · simp [hlen]
  · simp [hc]

/-- Erase-ahead flags at most a sector that is not ERASED. -/
theorem eraseAhead_entry (s : State) (c : Nat) : sectorEntry (eraseAhead s) c = sectorEntry s c
    ∨ (sectorErased s c = false ∧ sectorEntry (eraseAhead s) c = { sectorEntry s c with eraseFlag := true }) := by
  unfold eraseAhead
  dsimp only
  split
  · next h =>
    obtain ⟨-, hreclaim, -⟩ := h
    have hsectors : sectorEntry (requestOp (.journalErase (aheadSector s))
        (setSector (aheadSector s) { sectorEntry s (aheadSector s) with eraseFlag := true } s)) c
        = sectorEntry (setSector (aheadSector s) { sectorEntry s (aheadSector s) with eraseFlag := true } s) c := by
      simp [sectorEntry]
    rw [hsectors, sectorEntry_setSector]
    by_cases hc : aheadSector s - 2 = c - 2 ∧ aheadSector s - 2 < s.jnl.sectors.length
    · have hsame : sectorEntry s c = sectorEntry s (aheadSector s) := by rw [sectorEntry, sectorEntry, hc.1]
      refine .inr ⟨?_, by rw [if_pos hc, hsame]⟩
      rw [sectorErased, hsame]
      simp only [reclaimable, sectorErased, Bool.and_eq_true, Bool.not_eq_true'] at hreclaim
      exact hreclaim.1
    · exact .inl (if_neg hc)
  · exact .inl rfl

theorem eraseAhead_entries (s : State) : EntriesKept s (eraseAhead s) := fun c => by
  rcases eraseAhead_entry s c with h | ⟨-, h⟩ <;> rw [h] <;> exact ⟨rfl, rfl⟩

theorem reclaimable_of_entries {s t : State} (h : EntriesKept s t) (hd : t.jnl.directory = s.jnl.directory) (c : Nat) :
    sectorErased t c = sectorErased s c ∧ reclaimable t c = reclaimable s c := by
  obtain ⟨herased, hrange⟩ := h c
  exact ⟨herased, by simp [reclaimable, sectorErased, herased, hrange, hd]⟩

theorem lookKept_eraseAhead {u : State} (hact : u.pwr.state = .active) : LookKept u (eraseAhead u) where
  rows := by simp
  stands := by simp
  erased c := (reclaimable_of_entries (eraseAhead_entries u) (by simp) c).1
  reclaims c := (reclaimable_of_entries (eraseAhead_entries u) (by simp) c).2
  programs := by
    have hnone : (aheadErase u).any isJournalProgram = false := by
      unfold aheadErase
      split <;> rfl
    rw [opPending, opPending, eraseAhead_jnl hact]
    by_cases hfree : u.jnl.inFlight = none ∧ u.jnl.waiting = []
    · simp [hfree, hnone]
    · have hlist : (aheadErase u).toList.any isJournalProgram = false := by
        cases h : aheadErase u <;> simp_all
      simp only [if_neg hfree, List.any_append, hlist, Bool.or_false]
  flies r hr := by
    rw [eraseAhead_jnl hact]
    simp [hr]

/-- Behind an operation in flight, or with nothing waiting, nothing more starts. -/
theorem startNext_eraseAhead {u : State} (hact : u.pwr.state = .active) (h : u.jnl.inFlight ≠ none ∨ u.jnl.waiting = []) :
    startNext (eraseAhead u) = eraseAhead u := by
  have hjnl := eraseAhead_jnl hact
  by_cases hfree : u.jnl.inFlight = none
  · have hwait := h.resolve_left (fun hn => hn hfree)
    exact startNext_of_nothing (by rw [hjnl]; simp [hfree, hwait])
  · unfold startNext
    rw [if_neg]
    rw [hjnl]
    simp [hfree]

/-! ### What an applied time set adds to the append queue (02 R29) -/

/-- The journal but for new rows at the end of the append queue and the work they start. -/
def RowsAdded (s t : State) : Prop :=
  EntriesKept s t ∧ t.jnl.directory = s.jnl.directory ∧ ∃ claimed, t.jnl.append = s.jnl.append ++ claimed

theorem rowsAdded_of_jnl {s t : State} (h : t.jnl = s.jnl) : RowsAdded s t :=
  ⟨entriesKept_of_sectors (by rw [h]), by rw [h], [], by simp [h]⟩

theorem RowsAdded.congr {s t t' : State} (h : RowsAdded s t) (hj : t'.jnl = t.jnl) : RowsAdded s t' := by
  obtain ⟨hentries, hdir, claimed, happend⟩ := h
  exact ⟨hentries.trans (entriesKept_of_sectors (by rw [hj])), by rw [hj, hdir], claimed, by rw [hj, happend]⟩

theorem claim_event_adds (e : EventRecord) (s : State) : RowsAdded s (claim (.event e) s) := by
  refine ⟨?_, by simp [claim, enqueueRecord, newEntries], [⟨s.jnl.nextSeq, .event e⟩], by simp [claim, enqueueRecord]⟩
  unfold claim
  exact (entriesKept_of_sectors (t := programDue (enqueueRecord (.event e) s)) (by simp)).trans (eraseAhead_entries _)

theorem claimEventIfOpen_adds (time : DateTime) (b : EventBody) (s : State) : RowsAdded s (claimEventIfOpen time b s) := by
  have hjnl := claimEventIfOpen_jnl time b s
  split at hjnl
  · exact (claim_event_adds _ s).congr hjnl
  · exact rowsAdded_of_jnl hjnl

theorem applyPending_none {s : State} (h : s.odo.pendingTime = none) : applyPending s = s := by
  unfold applyPending
  rw [h]

/-- A pending time set with all slots FREE is applied and told to the fleet. -/
theorem applyPending_applies {s : State} {w : DateTime} (hw : s.odo.pendingTime = some w) (hfree : allFree s = true) :
    applyPending s = placeItem (.clockApplied w) (applyTime w s) := by
  unfold applyPending
  rw [hw]
  exact if_pos hfree

theorem applyTime_adds (w : DateTime) (s : State) : RowsAdded s (applyTime w s) :=
  claimEventIfOpen_adds w (.clockSet s.odo.clock w)
    { s with odo.clock := w, odo.secondDue := s.time + seconds 1, odo.clockSet := true, odo.pendingTime := none }

theorem applyPending_adds (s : State) : RowsAdded s (applyPending s) := by
  unfold applyPending
  split
  · split
    · exact (applyTime_adds _ s).congr (placeItem_frame _ _).2.2.2.1.1
    · exact rowsAdded_of_jnl rfl
  · exact rowsAdded_of_jnl rfl

/-! ### A CLOSING slot becomes FREE (04 R71) -/

/-- A slot FREE again, with the references its leg held at their end. -/
def slotLeft (i : Fin 4) (l : Leg) (s : State) : State := endClaimReference l (endPanelReference l (clearLeg i s))

theorem slotLeft_fare (i : Fin 4) (l : Leg) (s : State) : (slotLeft i l s).fare = (clearLeg i s).fare := by
  unfold slotLeft endClaimReference endPanelReference
  (repeat' split) <;> simp

theorem slotLeft_keeps (i : Fin 4) (l : Leg) (s : State) : (slotLeft i l s).jnl = s.jnl ∧ (slotLeft i l s).odo = s.odo
    ∧ (slotLeft i l s).time = s.time := by
  unfold slotLeft endClaimReference endPanelReference
  (repeat' split) <;> simp

theorem freeSlot_eq (i : Fin 4) (l : Leg) (s : State) :
    freeSlot i l s = placeFareShow i (showFree l) (applyPending (slotLeft i l s)) := rfl

theorem legProgrammed_closing {n : Nat} {i : Fin 4} {l : Leg} {s : State} (hi : findLeg s n = some i)
    (hl : legAt s i = some l) (hclosing : l.phase = .closing) : legProgrammed n s = freeSlot i l s := by
  unfold legProgrammed
  rw [hi]
  dsimp only
  rw [hl]
  exact if_pos hclosing

/-- A leg's row programmed frees its CLOSING slot, and does nothing else. -/
theorem legProgrammed_or (n : Nat) (s : State) :
    legProgrammed n s = s ∨ ∃ i l, legAt s i = some l ∧ findLeg s n = some i ∧ legProgrammed n s = freeSlot i l s := by
  cases hi : findLeg s n with
  | none => exact .inl (by rw [legProgrammed, hi])
  | some i =>
    cases hl : legAt s i with
    | none => exact .inl (by rw [legProgrammed, hi]; dsimp only; rw [hl])
    | some l =>
      by_cases hclosing : l.phase = .closing
      · exact .inr ⟨i, l, hl, rfl, legProgrammed_closing hi hl hclosing⟩
      · refine .inl ?_
        rw [legProgrammed, hi]
        dsimp only
        rw [hl]
        exact if_neg hclosing

theorem legProgrammed_adds (n : Nat) (s : State) : RowsAdded s (legProgrammed n s)
    ∧ (s.odo.pendingTime = none → (legProgrammed n s).jnl = s.jnl ∧ (legProgrammed n s).odo = s.odo) := by
  rcases legProgrammed_or n s with h | ⟨i, l, -, -, h⟩ <;> rw [h]
  · exact ⟨rowsAdded_of_jnl rfl, fun _ => ⟨rfl, rfl⟩⟩
  · obtain ⟨hjnl, hodo, -⟩ := slotLeft_keeps i l s
    rw [freeSlot_eq]
    refine ⟨?_, fun hnone => ?_⟩
    · obtain ⟨hentries, hdir, claimed, happend⟩ := (applyPending_adds (slotLeft i l s)).congr
        (t' := placeFareShow i (showFree l) (applyPending (slotLeft i l s))) (by simp)
      exact ⟨(entriesKept_of_sectors (by rw [hjnl])).trans hentries, by rw [hdir, hjnl], claimed, by rw [happend, hjnl]⟩
    · rw [applyPending_none (by rw [hodo, hnone])]
      simp [hjnl, hodo]

/-- The slots once a CLOSING slot is FREE. -/
theorem freeSlot_slots (i j : Fin 4) (l : Leg) (s : State) :
    legAt (freeSlot i l s) j = if j = i then none else legAt s j := by
  have hfare : (freeSlot i l s).fare = (clearLeg i s).fare := by
    rw [freeSlot_eq, ← slotLeft_fare i l s]
    simp
  rw [← legAt_clearLeg i j s, legAt, hfare, legAt]

/-- The last slot to become FREE applies a pending time set (02 R29). -/
theorem freeSlot_applies {i : Fin 4} {l : Leg} {s : State} {w : DateTime} (hw : s.odo.pendingTime = some w)
    (hrest : ∀ j, j ≠ i → legAt s j = none) : FleetItem.clockApplied w ∈ (freeSlot i l s).nsc.fleet
      ∧ (freeSlot i l s).odo
        = { s.odo with clock := w, secondDue := s.time + 14400000, clockSet := true, pendingTime := none } := by
  obtain ⟨-, hodo, htime⟩ := slotLeft_keeps i l s
  have hall : allFree (slotLeft i l s) = true := by
    unfold allFree
    rw [List.all_eq_true]
    intro j _
    rw [legAt, slotLeft_fare, ← legAt, legAt_clearLeg]
    by_cases hj : j = i
    · simp [hj]
    · simp [hj, hrest j hj]
  rw [freeSlot_eq, applyPending_applies (by rw [hodo, hw]) hall]
  refine ⟨?_, ?_⟩
  · have := (placeItem_fleet (.clockApplied w) (applyTime w (slotLeft i l s))).1
    simpa using this
  · simp [applyTime_odo, hodo, htime]

/-! ### The completion of the head's program (09 R170) -/

/-- The row is programmed, and the write position stands after it. -/
def rowProgrammed (row : Nat) (x : Queued) (more : List Queued) (s : State) : State :=
  setSector (row / 16) { sectorEntry s (row / 16) with erased := false, range := widen (sectorEntry s (row / 16)).range x.seq }
    { s with array := programRow s.array row (rowOfRecord x), jnl.append := more, jnl.writePos := nextRow row }

theorem journalProgramBody_eq {row : Nat} {x : Queued} {more : List Queued} {s : State}
    (hfly : s.jnl.inFlight = some (.journalProgram row)) (hhead : s.jnl.append = x :: more) :
    journalProgramBody s = startNext (eraseAhead (programmed x (programDue (completeOp (rowProgrammed row x more s))))) := by
  unfold journalProgramBody
  rw [hfly, hhead]
  rfl

theorem widen_eq (range : Option (Nat × Nat)) (n : Nat) : widen range n = some (match range with
    | none => (n, n)
    | some (lo, hi) => (min lo n, max hi n)) := by
  cases range <;> rfl

/-- What JNL does by the kind of the record. -/
theorem programmed_leg {x : Queued} {r : LegRecord} (h : x.record = .leg r) (s : State) :
    programmed x s = legProgrammed r.number s := by
  unfold programmed
  rw [h]

theorem programmed_close {x : Queued} {c : CloseRecord} (h : x.record = .shiftClose c) (s : State) :
    programmed x s = updateEntry c.shift (fun d => if d.state = .opened then
      { d with last := some x.seq, state := if c.abandoned then .abandoned else .closed } else d) s := by
  unfold programmed
  rw [h]

theorem programmed_other {x : Queued} (hleg : ∀ r, x.record ≠ .leg r) (hclose : ∀ c, x.record ≠ .shiftClose c) (s : State) :
    programmed x s = s := by
  unfold programmed
  split
  · exact absurd ‹_› (hleg _)
  · exact absurd ‹_› (hclose _)
  · rfl

/-- Of the journal, the work by the record's kind adds rows, or writes the directory. -/
theorem programmed_adds {x : Queued} (hclose : ∀ c, x.record ≠ .shiftClose c) (s : State) : RowsAdded s (programmed x s)
    ∧ (s.odo.pendingTime = none → (programmed x s).jnl = s.jnl ∧ (programmed x s).odo = s.odo) := by
  by_cases hleg : ∃ r, x.record = .leg r
  · obtain ⟨r, hr⟩ := hleg
    rw [programmed_leg hr]
    exact legProgrammed_adds _ s
  · rw [programmed_other (fun r hr => hleg ⟨r, hr⟩) hclose]
    exact ⟨rowsAdded_of_jnl rfl, fun _ => ⟨rfl, rfl⟩⟩

theorem programmed_grows (x : Queued) (s : State) : EntriesKept s (programmed x s)
    ∧ (∃ claimed, (programmed x s).jnl.append = s.jnl.append ++ claimed)
    ∧ (s.odo.pendingTime = none → (programmed x s).jnl = { s.jnl with directory := (programmed x s).jnl.directory }
        ∧ (programmed x s).odo = s.odo) := by
  by_cases hclose : ∃ c, x.record = .shiftClose c
  · obtain ⟨c, hc⟩ := hclose
    rw [programmed_close hc]
    exact ⟨entriesKept_of_sectors rfl, ⟨[], by simp [updateEntry]⟩, fun _ => ⟨rfl, rfl⟩⟩
  · obtain ⟨⟨hentries, -, happend⟩, hnone⟩ := programmed_adds (x := x) (fun c hc => hclose ⟨c, hc⟩) s
    refine ⟨hentries, happend, fun h => ?_⟩
    obtain ⟨hjnl, hodo⟩ := hnone h
    exact ⟨by rw [hjnl], hodo⟩

theorem programmed_fare {x : Queued} (hleg : ∀ r, x.record ≠ .leg r) (s : State) : (programmed x s).fare = s.fare := by
  unfold programmed
  split
  · exact absurd ‹_› (hleg _)
  · rfl
  · rfl

theorem programDue_of_nothing {s : State} (h : s.jnl.append = []) : programDue s = s := by simp [programDue, h]

section
variable {row : Nat} {x : Queued} {more : List Queued} {s : State}

/-- The part when JNL has looked from the next row. -/
theorem programDue_programmed (hlen : s.jnl.sectors.length = 126) (hlow : 32 ≤ row) (hhigh : row < 2048) :
    let v := programDue (completeOp (rowProgrammed row x more s))
    (sectorEntry v (row / 16)).erased = false
      ∧ (sectorEntry v (row / 16)).range = widen (sectorEntry s (row / 16)).range x.seq
      ∧ v.jnl.append = more ∧ v.jnl.directory = s.jnl.directory ∧ v.jnl.nextSeq = s.jnl.nextSeq ∧ v.fare = s.fare
      ∧ v.odo = s.odo ∧ v.time = s.time ∧ v.array = programRow s.array row (rowOfRecord x) := by
  intro v
  have hentry : sectorEntry v (row / 16) = sectorEntry (rowProgrammed row x more s) (row / 16) := by simp [sectorEntry, v]
  rw [hentry, rowProgrammed, sectorEntry_setSector, if_pos ⟨rfl, by show row / 16 - 2 < s.jnl.sectors.length; omega⟩]
  refine ⟨rfl, rfl, ?_⟩
  simp [v, rowProgrammed, setSector]

end

/-- What the completion of a journal program leaves as it was. -/
theorem journalProgram_frame {row : Nat} {x : Queued} {more : List Queued} {s t : State}
    (ht : t = letGo (startNext (eraseAhead (programmed x (programDue (completeOp (rowProgrammed row x more s))))))) :
    TransmitterKept s t
      ∧ t = { s with array := t.array, jnl := { t.jnl with credit := s.jnl.credit }, fare := t.fare, flt := t.flt
                     odo := { s.odo with clock := t.odo.clock, secondDue := t.odo.secondDue
                                         clockSet := t.odo.clockSet, pendingTime := t.odo.pendingTime }
                     nsc := { s.nsc with replies := t.nsc.replies, fares := t.nsc.fares, fleet := t.nsc.fleet
                                         journal := t.nsc.journal, print := t.nsc.print }
                     lif := { s.lif with stations := t.lif.stations, tx := t.lif.tx }
                     cab := { s.cab with watches := t.cab.watches }
                     acc := { s.acc with credit := t.acc.credit, jobs := t.acc.jobs, shift := t.acc.shift } } := by
  rw [ht]
  refine ⟨transmitterKept_letGo (.inr (tx_eq_of_kept (by simp [rowProgrammed, setSector]))), ?_⟩
  apply State.ext <;> simp [rowProgrammed, setSector]
  case odo => apply Odo.ext <;> simp
  case lif => apply Lif.ext <;> simp
  case nsc => apply Nsc.ext <;> simp
  case cab => apply Cab.ext <;> simp
  case acc => apply Acc.ext <;> simp
  case jnl => apply Jnl.ext <;> simp

theorem programDue_waiting {s : State} (hact : s.pwr.state = .active) (hfree : s.jnl.inFlight = none)
    (hwait : s.jnl.waiting = []) : (programDue s).jnl.waiting = [] := by
  unfold programDue
  dsimp only
  split
  · exact hwait
  · split
    · simp [requestOp, hact, hfree, hwait, startOp]
    · exact hwait

/-- After the program of the head, JNL looks on from the next row. -/
theorem journalProgram_writesOn {row : Nat} {x : Queued} {more : List Queued} {s : State} (hact : s.pwr.state = .active)
    (hwait : s.jnl.waiting = []) (hmore : more ≠ []) (hnone : s.jnl.waitsErase = false) (hpending : s.odo.pendingTime = none)
    (hclose : ∀ c, x.record ≠ .shiftClose c) : WritesOn (nextRow row)
      (letGo (startNext (eraseAhead (programmed x (programDue (completeOp (rowProgrammed row x more s))))))) := by
  obtain ⟨u, hu⟩ : ∃ u, u = completeOp (rowProgrammed row x more s) := ⟨_, rfl⟩
  have hustands : u.pwr.state = .active ∧ u.jnl.inFlight = none ∧ u.jnl.waiting = [] ∧ u.jnl.append = more
      ∧ u.jnl.waitsErase = false ∧ u.jnl.writePos = nextRow row ∧ u.odo.pendingTime = none := by
    rw [hu]
    simp [completeOp_inFlight, rowProgrammed, setSector, hact, hwait, hnone, hpending]
  obtain ⟨huact, hufree, huwait, huappend, hunone, hupos, hupending⟩ := hustands
  rw [← hu, ← hupos]
  obtain ⟨-, hprogrammed⟩ := programmed_adds hclose (programDue u)
  obtain ⟨hjnl, -⟩ := hprogrammed (by simpa using hupending)
  have hzact : (programmed x (programDue u)).pwr.state = .active := by simpa using huact
  have hstarted : (programmed x (programDue u)).jnl.inFlight ≠ none ∨ (programmed x (programDue u)).jnl.waiting = [] := by
    rw [hjnl]
    exact .inr (programDue_waiting huact hufree huwait)
  rw [startNext_eraseAhead hzact hstarted]
  refine writesOn_of_look huact hufree huwait (by rw [huappend]; exact hmore) hunone ?_
  exact (lookKept_of_jnl hjnl (by simp)).trans ((lookKept_eraseAhead hzact).trans (lookKept_of_jnl (by simp) (by simp)))

/-- The completion of the program of the append queue's head. -/
theorem journalProgram_completes {row : Nat} {x : Queued} {more : List Queued} {s : State}
    (hpow : s.pwr.state = .active ∨ s.pwr.state = .entering) (hfly : s.jnl.inFlight = some (.journalProgram row))
    (hhead : s.jnl.append = x :: more) (hlow : 32 ≤ row) (hhigh : row < 2048) (hwf : Memory.wf s.array = true)
    (hlen : s.jnl.sectors.length = 126) : ∃ t, exec .journalProgramComplete s = .next t ∧ TransmitterKept s t
      ∧ (∀ r, rowAt t.array r = if r = row then rowOfRecord x else rowAt s.array r)
      ∧ (∃ claimed, t.jnl.append = more ++ claimed ∧ (s.odo.pendingTime = none → claimed = []))
      ∧ (sectorEntry t (row / 16)).erased = false
      ∧ (sectorEntry t (row / 16)).range = widen (sectorEntry s (row / 16)).range x.seq
      ∧ (∀ r, x.record = .leg r → ∀ i, findLeg s r.number = some i →
          (∀ l, legAt s i = some l → l.phase = .closing → legAt t i = none) ∧ (∀ j, j ≠ i → legAt t j = legAt s j)
            ∧ (∀ l w, legAt s i = some l → l.phase = .closing → (∀ j, j ≠ i → legAt s j = none) →
                s.odo.pendingTime = some w → FleetItem.clockApplied w ∈ t.nsc.fleet
                  ∧ t.odo = { s.odo with clock := w, secondDue := s.time + 14400000, clockSet := true
                                         pendingTime := none }))
      ∧ ((∀ r, x.record ≠ .leg r) → t.fare = s.fare)
      ∧ (∀ c, x.record = .shiftClose c → t.jnl.directory = s.jnl.directory.map (fun d =>
          if d.shift = c.shift ∧ d.state = .opened then
            { d with last := some x.seq, state := if c.abandoned then .abandoned else .closed } else d))
      ∧ ((∀ c, x.record ≠ .shiftClose c) → t.jnl.directory = s.jnl.directory)
      ∧ (s.odo.pendingTime = none → t.odo = s.odo ∧ t.jnl.nextSeq = s.jnl.nextSeq
          ∧ (more = [] → t.jnl.writePos = nextRow row ∧ t.jnl.waitsErase = s.jnl.waitsErase)
          ∧ (more ≠ [] → s.pwr.state = .active → s.jnl.waiting = [] → s.jnl.waitsErase = false →
              (∀ c, x.record ≠ .shiftClose c) → WritesOn (nextRow row) t))
      ∧ t = { s with array := t.array, jnl := { t.jnl with credit := s.jnl.credit }, fare := t.fare, flt := t.flt
                     odo := { s.odo with clock := t.odo.clock, secondDue := t.odo.secondDue
                                         clockSet := t.odo.clockSet, pendingTime := t.odo.pendingTime }
                     nsc := { s.nsc with replies := t.nsc.replies, fares := t.nsc.fares, fleet := t.nsc.fleet
                                         journal := t.nsc.journal, print := t.nsc.print }
                     lif := { s.lif with stations := t.lif.stations, tx := t.lif.tx }
                     cab := { s.cab with watches := t.cab.watches }
                     acc := { s.acc with credit := t.acc.credit, jobs := t.acc.jobs, shift := t.acc.shift } } := by
  obtain ⟨v, hv⟩ : ∃ v, v = programDue (completeOp (rowProgrammed row x more s)) := ⟨_, rfl⟩
  obtain ⟨t, ht⟩ : ∃ t, t = letGo (startNext (eraseAhead (programmed x v))) := ⟨_, rfl⟩
  have hexec : exec .journalProgramComplete s = .next t :=
    (whenPowered_of hpow (fun s => letGo (journalProgramBody s))).trans (by rw [journalProgramBody_eq hfly hhead, ht, hv])
  have hvstands := programDue_programmed (more := more) (x := x) hlen hlow hhigh
  rw [← hv] at hvstands
  obtain ⟨herased, hrange, happend, hdir, hseq, hfare, hodo, htime, harray⟩ := hvstands
  obtain ⟨htx, hframe⟩ := journalProgram_frame (s := s) (t := t) (by rw [ht, hv])
  obtain ⟨hentries, ⟨claimed, hclaimed⟩, hnone⟩ := programmed_grows x v
  have htentries : EntriesKept v t := hentries.trans ((eraseAhead_entries _).trans (entriesKept_of_sectors (by rw [ht]; simp)))
  have htstands : t.array = v.array ∧ t.jnl.append = (programmed x v).jnl.append
      ∧ t.jnl.directory = (programmed x v).jnl.directory ∧ t.jnl.nextSeq = (programmed x v).jnl.nextSeq
      ∧ t.jnl.writePos = (programmed x v).jnl.writePos ∧ t.jnl.waitsErase = (programmed x v).jnl.waitsErase
      ∧ t.fare = (programmed x v).fare ∧ t.odo = (programmed x v).odo
      ∧ t.nsc.fleet = (programmed x v).nsc.fleet := by
    rw [ht]
    simp
  obtain ⟨htarray, htappend, htdir, htseq, htpos, htwaits, htfare, htodo, htfleet⟩ := htstands
  have hvleg : ∀ i, legAt v i = legAt s i := legAt_congr hfare
  have htleg : ∀ i, legAt t i = legAt (programmed x v) i := legAt_congr htfare
  refine ⟨t, hexec, htx, fun r => ?_, ⟨claimed, by rw [htappend, hclaimed, happend], fun hp => ?_⟩, ?_, ?_,
    fun r hr i hi => ?_, fun hleg => ?_, fun c hc => ?_, fun hclose => ?_, fun hp => ?_, hframe⟩
  · rw [htarray, harray, rowAt_programRow hwf hhigh]
  · obtain ⟨hjnl, -⟩ := hnone (by rw [hodo, hp])
    rw [hjnl] at hclaimed
    simpa using hclaimed
  · rw [(htentries _).1, herased]
  · rw [(htentries _).2, hrange]
  · have hvfind : findLeg v r.number = some i := by
      rw [← hi]
      simp only [findLeg, hvleg]
    have hshape : programmed x v = legProgrammed r.number v := programmed_leg hr v
    refine ⟨fun l hl hclosing => ?_, fun j hj => ?_, fun l w hl hclosing hrest hw => ?_⟩
    · rw [htleg, hshape, legProgrammed_closing hvfind ((hvleg i).trans hl) hclosing, freeSlot_slots, if_pos rfl]
    · rw [htleg, hshape]
      rcases legProgrammed_or r.number v with h | ⟨i', l, -, hi', h⟩
      · rw [h, hvleg]
      · have hsame : i' = i := Option.some.inj (hi'.symm.trans hvfind)
        rw [h, freeSlot_slots, if_neg (by rw [hsame]; exact hj), hvleg]
    · obtain ⟨hfleet, hset⟩ := freeSlot_applies (i := i) (l := l) (s := v) (by rw [hodo, hw]) fun j hj =>
        (hvleg j).trans (hrest j hj)
      rw [htfleet, htodo, hshape, legProgrammed_closing hvfind ((hvleg i).trans hl) hclosing]
      rw [hodo, htime] at hset
      exact ⟨hfleet, hset⟩
  · rw [htfare, ← hfare]
    exact programmed_fare hleg v
  · rw [htdir, programmed_close hc, updateEntry, hdir]
    refine List.map_congr_left fun d _ => ?_
    by_cases hshift : d.shift = c.shift <;> simp [hshift]
  · obtain ⟨⟨-, hd, -⟩, -⟩ := programmed_adds hclose v
    rw [htdir, hd, hdir]
  · obtain ⟨hjnl, hodo'⟩ := hnone (by rw [hodo, hp])
    refine ⟨by rw [htodo, hodo', hodo], by rw [htseq, hjnl, hseq], fun hmore => ?_, fun hmore hact hwait hwaits hclose => ?_⟩
    · have hidle : v = completeOp (rowProgrammed row x more s) := by
        rw [hv]
        exact programDue_of_nothing (by simp [rowProgrammed, setSector, hmore])
      rw [htpos, htwaits, hjnl, hidle]
      simp [rowProgrammed, setSector]
    · rw [ht, hv]
      exact journalProgram_writesOn hact hwait hmore hwaits hp hclose

/-! ### The completion of an erase (09 R171, R173) -/

/-- The sector is erased, and a program that waited for this erase waits no longer. -/
def sectorCleared (c : Nat) (s : State) : State :=
  setSector c SectorEntry.free { s with
    array := eraseRows s.array c, jnl.waitsErase := s.jnl.waitsErase && !decide (c = s.jnl.writePos / 16) }

theorem journalEraseBody_eq {c : Nat} {s : State} (hfly : s.jnl.inFlight = some (.journalErase c)) :
    journalEraseBody s = startNext (freeEntries (eraseAhead (programDue (completeOp (sectorCleared c s))))) := by
  unfold journalEraseBody
  rw [hfly]
  rfl

/-- A program whose sector has just been erased starts at its row 0. -/
theorem programDue_cleared {c : Nat} {s : State} (hact : s.pwr.state = .active) (hhead : s.jnl.append ≠ [])
    (hwait : s.jnl.waiting = []) (hpos : s.jnl.writePos = c * 16) (hlen : s.jnl.sectors.length = 126) (hlow : 2 ≤ c)
    (hhigh : c < 128) : let u := completeOp (sectorCleared c s)
    (programDue u).jnl = { u.jnl with waitsErase := false, inFlight := some (.journalProgram (c * 16)) } := by
  intro u
  have hustands : u.pwr.state = .active ∧ u.jnl.inFlight = none ∧ u.jnl.waiting = [] ∧ u.jnl.append ≠ []
      ∧ u.jnl.waitsErase = false ∧ u.jnl.writePos = c * 16 := by
    simp [u, completeOp_inFlight, sectorCleared, setSector, hact, hwait, hhead, hpos]
  obtain ⟨huact, hufree, huwait, huhead, hunone, hupos⟩ := hustands
  have herased : sectorErased u c = true := by
    have hentry : sectorEntry u c = sectorEntry (sectorCleared c s) c := by simp [sectorEntry, u]
    rw [sectorErased, hentry, sectorCleared, sectorEntry_setSector,
      if_pos ⟨rfl, by show c - 2 < s.jnl.sectors.length; omega⟩]
    rfl
  have hrow : rowFree u (c * 16) = true := by
    have harray : u.array = eraseRows s.array c := by simp [u, sectorCleared, setSector]
    rw [rowFree, harray, rowAt_eraseRows, if_pos (by omega), classify_erasedRow]
    rfl
  have hverdict : verdict u (c * 16) = .due := by
    have hc : c * 16 / 16 = c := by omega
    simp [verdict, hrow, hc, herased]
  have hlook := look_halts (s := u) (w := c * 16) (.inl hrow) 259
  rw [hverdict] at hlook
  have hjnl := programDue_looks huact hufree huwait huhead hunone (w := c * 16) (f := .due) (by rw [hupos]; exact hlook)
  rw [hjnl]
  apply Jnl.ext <;> simp [hupos]

/-- The completion of an erase. -/
theorem journalErase_completes {c : Nat} {s : State} (hpow : s.pwr.state = .active ∨ s.pwr.state = .entering)
    (hfly : s.jnl.inFlight = some (.journalErase c)) : ∃ t, exec .journalEraseComplete s = .next t
      ∧ (∀ r, rowAt t.array r = if r / 16 = c then erasedRow else rowAt s.array r)
      ∧ (2 ≤ c → c < 128 → s.jnl.sectors.length = 126 → sectorEntry t c = ⟨true, none, false⟩
          ∧ (s.pwr.state = .active → s.jnl.append ≠ [] → s.jnl.waiting = [] → s.jnl.writePos = c * 16 →
              t.jnl.inFlight = some (.journalProgram (c * 16)) ∧ t.jnl.writePos = c * 16 ∧ t.jnl.waitsErase = false))
      ∧ (s.jnl.append = [] → t.jnl.writePos = s.jnl.writePos)
      ∧ t.jnl.append = s.jnl.append
      ∧ t.jnl.directory = s.jnl.directory.filter (fun d => decide (d.state ≠ .released)
          || t.jnl.sectors.any (fun e => !e.erased && e.range.any (meets d)))
      ∧ t = { s with array := t.array, flt := t.flt
                     nsc := { s.nsc with journal := t.nsc.journal, replies := t.nsc.replies }
                     lif := { s.lif with tx := { s.lif.tx with renewed := t.lif.tx.renewed } }
                     jnl := { s.jnl with inFlight := t.jnl.inFlight, waiting := t.jnl.waiting, cursor := t.jnl.cursor
                                         writePos := t.jnl.writePos, waitsErase := t.jnl.waitsErase
                                         sectors := t.jnl.sectors, directory := t.jnl.directory } } := by
  obtain ⟨u, hu⟩ : ∃ u, u = completeOp (sectorCleared c s) := ⟨_, rfl⟩
  obtain ⟨t, ht⟩ : ∃ t, t = startNext (freeEntries (eraseAhead (programDue u))) := ⟨_, rfl⟩
  have hexec : exec .journalEraseComplete s = .next t :=
    (whenPowered_of hpow journalEraseBody).trans (by rw [journalEraseBody_eq hfly, ht, hu])
  refine ⟨t, hexec, fun r => ?_, fun hlow hhigh hlen => ⟨?_, fun hact hhead hwait hpos => ?_⟩, fun hhead => ?_, ?_, ?_, ?_⟩
  · have harray : t.array = eraseRows s.array c := by rw [ht, hu]; simp [sectorCleared, setSector]
    rw [harray, rowAt_eraseRows]
  · have hentry : sectorEntry u c = SectorEntry.free := by
      have hsectors : sectorEntry u c = sectorEntry (sectorCleared c s) c := by rw [hu]; simp [sectorEntry]
      rw [hsectors, sectorCleared, sectorEntry_setSector, if_pos ⟨rfl, by show c - 2 < s.jnl.sectors.length; omega⟩]
    have hdue : sectorEntry (programDue u) c = SectorEntry.free := by
      rw [← hentry]
      simp [sectorEntry]
    have htentry : sectorEntry t c = sectorEntry (eraseAhead (programDue u)) c := by
      rw [ht]
      simp [sectorEntry, freeEntries]
    rw [htentry]
    rcases eraseAhead_entry (programDue u) c with h | ⟨h, -⟩
    · rw [h, hdue]
      rfl
    · rw [sectorErased, hdue] at h
      exact absurd h (by decide)
  · have hjnl := programDue_cleared hact hhead hwait hpos hlen hlow hhigh
    rw [← hu] at hjnl
    have hact' : (programDue u).pwr.state = .active := by rw [hu]; simpa [sectorCleared, setSector] using hact
    have hfly' : (programDue u).jnl.inFlight = some (.journalProgram (c * 16)) := by rw [hjnl]
    have hahead := lookKept_eraseAhead hact'
    have hflies := hahead.flies _ hfly'
    obtain ⟨hstands, hwaits⟩ := hahead.stands
    have hnext : t = freeEntries (eraseAhead (programDue u)) := by
      rw [ht, startNext, if_neg]
      rintro ⟨-, h⟩
      exact absurd (hflies.symm.trans h) (by simp)
    have hupos : u.jnl.writePos = c * 16 := by rw [hu]; simpa [sectorCleared, setSector] using hpos
    rw [hnext]
    refine ⟨hflies, hstands.trans ?_, hwaits.trans (by rw [hjnl])⟩
    rw [hjnl]
    exact hupos
  · have hidle : programDue u = u := programDue_of_nothing (by rw [hu]; simpa [sectorCleared, setSector] using hhead)
    rw [ht, hidle, hu]
    simp [freeEntries, sectorCleared, setSector]
  · rw [ht, hu]
    simp [freeEntries, sectorCleared, setSector]
  · have hdir : t.jnl.directory = (freeEntries (eraseAhead (programDue u))).jnl.directory := by rw [ht]; simp
    have hsectors : t.jnl.sectors = (eraseAhead (programDue u)).jnl.sectors := by rw [ht]; simp [freeEntries]
    have hkept : (eraseAhead (programDue u)).jnl.directory = s.jnl.directory := by
      rw [hu]
      simp [sectorCleared, setSector]
    rw [hdir, freeEntries_directory, hkept, hsectors]
  · rw [ht, hu]
    apply State.ext <;> simp [freeEntries, sectorCleared, setSector]
    case lif => exact lif_eq_of_kept (s := s) (by simp) (by simp) (by simp)
    case nsc => apply Nsc.ext <;> simp
    case jnl => apply Jnl.ext <;> simp

/-- Settles O53: the completions by the look that follows them, the counts by the sectors in ring order. -/
theorem journalWorkCompletes : Obligations.JournalWorkCompletes := by
  refine ⟨fun row x more s hpow hfly hhead hlow hhigh hwf hlen => ?_, fun c s hpow hfly => journalErase_completes hpow hfly,
    fun s hlow hhigh => ⟨erasedAhead_counts hlow hhigh, freeRows_counts hlow hhigh⟩⟩
  have h := journalProgram_completes hpow hfly hhead hlow hhigh hwf hlen
  rw [widen_eq] at h
  exact h

end Sys2Proof.Machine
end

section
/-!
SETTLED OBLIGATIONS. A spoiled wake and the cold start (10 R190, R193 to R196).
-/

namespace Sys2Proof.Machine

/-! ### The faults that reads raise (09 R164) -/

/-- The faults raised by the reads of some rows, by their classes. -/
theorem raiseReads_bit (rows : List (Nat × Row)) (s : State) (k : Nat) : (raiseReads rows s).flt.latched.getLsbD k
    = (s.flt.latched.getLsbD k || (decide (k = 7) && rows.any (fun e => decide (classify e.2 = .corrected)))
      || (decide (k = 8) && rows.any (fun e => decide (classify e.2 = .damaged)))) := by
  have hcorrected : FaultName.journalCorrected.index = 7 := rfl
  have hdamaged : FaultName.journalDamaged.index = 8 := rfl
  have hread : ∀ c (u : State), (raiseRead c u).flt.latched.getLsbD k
      = (u.flt.latched.getLsbD k || (decide (k = 7) && decide (c = .corrected)) || (decide (k = 8) && decide (c = .damaged))) := by
    intro c u
    unfold raiseRead
    cases c with
    | corrected => rw [raise_bit, hcorrected]; simp
    | damaged => rw [raise_bit, hdamaged]; simp
    | _ => simp
  unfold raiseReads
  induction rows generalizing s with
  | nil => simp
  | cons e rows ih =>
    rw [List.foldl_cons, ih, hread, List.any_cons, List.any_cons]
    cases s.flt.latched.getLsbD k <;> cases decide (k = 7) <;> cases decide (k = 8) <;>
      cases decide (classify e.2 = .corrected) <;> cases decide (classify e.2 = .damaged) <;> simp

/-- A class other than FREE is that of a listed row. -/
theorem any_listed_iff {m : Memory} (h : Memory.wf m = true) (test : Nat → Bool) {c : RowClass} (hc : c ≠ .free) :
    (m.filter (fun e => test e.1)).any (fun e => decide (classify e.2 = c)) = true
      ↔ ∃ r, test r = true ∧ classify (rowAt m r) = c := by
  rw [List.any_eq_true]
  constructor
  · rintro ⟨⟨r, x⟩, hmem, hx⟩
    obtain ⟨hm, htest⟩ := List.mem_filter.1 hmem
    obtain ⟨hrow, -⟩ := (mem_iff h r x).1 hm
    exact ⟨r, htest, by rw [hrow]; simpa using hx⟩
  · rintro ⟨r, htest, hr⟩
    refine ⟨(r, rowAt m r), List.mem_filter.2 ⟨(mem_iff h r _).2 ⟨rfl, fun hfree => ?_⟩, htest⟩, by simpa using hr⟩
    rw [hfree, classify_erasedRow] at hr
    exact hc hr.symm

theorem any_range_iff (n : Nat) (m : Memory) (c : RowClass) : (List.range n).any (fun r => decide (classify (rowAt m r) = c)) = true
    ↔ ∃ r, r < n ∧ classify (rowAt m r) = c := by
  simp [List.any_eq_true]

theorem areaRows_any {m : Memory} (h : Memory.wf m = true) {c : RowClass} (hc : c ≠ .free) :
    (areaRows m).any (fun e => decide (classify e.2 = c)) = (List.range 32).any (fun r => decide (classify (rowAt m r) = c)) := by
  rw [Bool.eq_iff_iff, any_range_iff]
  simpa [areaRows] using any_listed_iff h (fun r => decide (r < 32)) hc

/-- The area and the ring are the array. -/
theorem allRows_any {m : Memory} (h : Memory.wf m = true) {c : RowClass} (hc : c ≠ .free) :
    ((areaRows m).any (fun e => decide (classify e.2 = c)) || (ringRows m).any (fun e => decide (classify e.2 = c)))
      = (List.range 2048).any (fun r => decide (classify (rowAt m r) = c)) := by
  have hring := any_listed_iff h ringRow hc
  rw [← ringRows] at hring
  rw [Bool.eq_iff_iff, Bool.or_eq_true, hring, areaRows_any h hc, any_range_iff, any_range_iff]
  simp only [ringRow, decide_eq_true_eq]
  constructor
  · rintro (⟨r, hr, hclass⟩ | ⟨r, hr, hclass⟩)
    · exact ⟨r, by omega, hclass⟩
    · exact ⟨r, by omega, hclass⟩
  · rintro ⟨r, hr, hclass⟩
    by_cases harea : r < 32
    · exact .inl ⟨r, harea, hclass⟩
    · exact .inr ⟨r, by omega, hclass⟩

/-! ### The write position (10 R193, step 4) -/

theorem scannedPosition_spec {m : Memory} (h : Memory.wf m = true) :
    (∀ r, ringRow r = true → readable (rowAt m r) = true → rowSeq (rowAt m r) < (scannedPosition m).2)
      ∧ ((∃ r, ringRow r = true ∧ readable (rowAt m r) = true ∧ (scannedPosition m).1 = nextRow r
          ∧ (scannedPosition m).2 = rowSeq (rowAt m r) + 1)
        ∨ ((∀ r, ringRow r = true → readable (rowAt m r) = false) ∧ scannedPosition m = (32, 1))) := by
  have hmem : ∀ r, ringRow r = true → readable (rowAt m r) = true → (r, rowSeq (rowAt m r)) ∈ readableSeqs m :=
    fun r hr hx => (mem_readableSeqs h r _).2 ⟨⟨hr, hx⟩, rfl⟩
  obtain ⟨hnone, hsome⟩ := highest_spec (readableSeqs m)
  unfold scannedPosition
  cases hfound : highest (readableSeqs m) with
  | none =>
    have hempty : ∀ r, ringRow r = true → readable (rowAt m r) = false := fun r hr => by
      by_contra hx
      have := hmem r hr (by simpa using hx)
      simp [hnone.1 hfound] at this
    exact ⟨fun r hr hx => by simp [hempty r hr] at hx, .inr ⟨hempty, rfl⟩⟩
  | some e =>
    obtain ⟨q, n⟩ := e
    obtain ⟨hin, htop⟩ := hsome _ hfound
    obtain ⟨⟨hq, hread⟩, hseq⟩ := (mem_readableSeqs h q n).1 hin
    exact ⟨fun r hr hx => Nat.lt_succ_of_le (htop _ (hmem r hr hx)),
      .inl ⟨q, hq, hread, rfl, congrArg (· + 1) hseq.symm⟩⟩

/-! ### The cold start (10 R193 to R196) -/

/-- A cold start from OFF begins 100 ms after the main power has come back. -/
def startMoment (s : State) : State :=
  if s.pwr.state = .off then { passTo (s.odo.powerFrom + wakeTime) s with
    odo.powerFrom := (passTo (s.odo.powerFrom + wakeTime) s).time } else s

theorem exec_coldStart (straps : Straps) (extent : StartExtent) {us : List Upset} {s : State}
    (hs : s.pwr.state = .starting ∨ (s.pwr.state = .off ∧ s.odo.powerGood = true)) (hus : us.all Upset.inArray = true) :
    exec (.coldStart straps extent us) s = .next (match extent with
      | .whole => coldProcedure (startInputs straps us (startMoment s))
      | .cut => startInputs straps us (startMoment s)) := by
  rw [show exec (.coldStart straps extent us) s = withArray us (.next
    (if (s.pwr.state = .off ∧ s.odo.powerGood = true) ∨ s.pwr.state = .starting then
      coldStartBody straps extent us s else s)) from rfl, withArray_of_inArray hus, if_pos hs.symm]
  rfl

theorem startMoment_time (s : State) : (startMoment s).time
    = if s.pwr.state = .off then max s.time (s.odo.powerFrom + 1440000) else s.time := by
  unfold startMoment
  split <;> simp [passTo, wakeTime, milliseconds]

theorem startMoment_powerFrom (s : State) : (startMoment s).odo.powerFrom
    = if s.pwr.state = .off then (startMoment s).time else s.odo.powerFrom := by
  unfold startMoment
  split <;> simp

/-- The start's moment apart, nothing of the part has changed. -/
theorem startMoment_eq (s : State) : startMoment s
    = { s with time := (startMoment s).time, odo.powerFrom := (startMoment s).odo.powerFrom } := by
  unfold startMoment
  split <;> simp [passTo]

/-- A start that is cut short has done its first step (R193, log 8). -/
theorem startInputs_eq (straps : Straps) (us : List Upset) (s : State) : startInputs straps us (startMoment s) = { s with
    time := (startMoment s).time, array := withUpsets s.array us, flt := ⟨0#16, true⟩, pwr := { s.pwr with state := .starting }
    lif := { s.lif with address := straps.addr.toNat + 1 }
    odo := { s.odo with addrStrap := straps.addr, calStrap := straps.cal
                        detector := if s.odo.assistLevel then .armed else .down
                        powerFrom := (startMoment s).odo.powerFrom } } := by
  rw [startMoment_eq s]
  rfl

/-- The part at the end of a cold start but for JNL's work: the cold-start values with the faults of the reads. -/
def coldBegun (s : State) : State :=
  coldValues (raise .retentionLost (raiseReads (ringRows s.array) (raiseReads (areaRows s.array) s)))

theorem coldBegun_eq (s : State) : coldBegun s = { coldValues s with flt := (coldBegun s).flt } := by
  obtain ⟨f, hf⟩ : ∃ f, f = raise .retentionLost (raiseReads (ringRows s.array) (raiseReads (areaRows s.array) s)) := ⟨_, rfl⟩
  have hkept : f.pending = s.pending ∧ f.free = s.free ∧ f.time = s.time ∧ f.array = s.array ∧ f.lif = s.lif
      ∧ f.odo = s.odo := by
    rw [hf]
    simp
  obtain ⟨h1, h2, h3, h4, h5, h6⟩ := hkept
  rw [coldBegun, ← hf]
  simp only [coldValues, h1, h2, h3, h4, h5, h6]

/-- The fault set of a cold start. -/
theorem coldBegun_faults {s : State} (hflt : s.flt.latched = 0#16) (k : Nat) : (coldBegun s).flt.latched.getLsbD k
    = ((decide (k = 7) && ((areaRows s.array).any (fun e => decide (classify e.2 = .corrected))
          || (ringRows s.array).any (fun e => decide (classify e.2 = .corrected))))
        || (decide (k = 8) && ((areaRows s.array).any (fun e => decide (classify e.2 = .damaged))
          || (ringRows s.array).any (fun e => decide (classify e.2 = .damaged))))
        || decide (k = 10)) := by
  have hindex : FaultName.retentionLost.index = 10 := rfl
  have hshape : (coldBegun s).flt = (raise .retentionLost (raiseReads (ringRows s.array) (raiseReads (areaRows s.array) s))).flt :=
    rfl
  rw [hshape, raise_bit, raiseReads_bit, raiseReads_bit, hflt, hindex, BitVec.getLsbD_zero]
  cases decide (k = 7) <;> cases decide (k = 8) <;> simp [Bool.or_assoc, Bool.or_left_comm]

/-- JNL's work once the part is ACTIVE touches the journal alone. -/
theorem jnlWork_frame (s : State) : eraseAhead (programDue s)
    = { s with jnl := (eraseAhead (programDue s)).jnl } := by
  apply State.ext <;> simp

/-- JNL's part in a cold start (R193 to R195): what the scan and the rebuild give, and the work that then falls due. -/
theorem coldStart_journal {c t : State} (hc : c.jnl = scannedJnl c.array) (ht : t = eraseAhead (programDue c)) :
    let found := scannedPosition t.array
    let u := { t with jnl := { State.reset.jnl with
      append := t.jnl.append, writePos := found.1, nextSeq := t.jnl.nextSeq, sectors := scannedSectors t.array
      directory := scannedDirectory t.array } }
    (match (scannedDirectory t.array).find? (fun d => decide (d.state = .opened)) with
      | none => t.jnl.append = [] ∧ t.jnl.nextSeq = found.2 ∧ t.jnl.writePos = found.1
      | some d => t.jnl.nextSeq = found.2 + 1
        ∧ t.jnl.append = [⟨found.2, .shiftClose (abandonedClose t.array d found.1 (scannedOdometer t.array))⟩])
      ∧ t.jnl = (eraseAhead (programDue u)).jnl := by
  intro found u
  have hstands : t.array = c.array ∧ t.jnl.append = c.jnl.append ∧ t.jnl.nextSeq = c.jnl.nextSeq ∧ t.pwr = c.pwr := by
    rw [ht]
    simp
  obtain ⟨harray, happend, hseq, hpwr⟩ := hstands
  have hu : u.jnl = c.jnl := by
    simp only [u, found, happend, hseq, harray, hc]
    rfl
  refine ⟨?_, ?_⟩
  · simp only [found, happend, hseq, harray, hc, scannedJnl, abandonedAppend]
    cases hopen : (scannedDirectory c.array).find? (fun d => decide (d.state = .opened)) with
    | none =>
      refine ⟨rfl, rfl, ?_⟩
      have hidle : programDue c = c := programDue_of_nothing (by
        rw [hc]
        simp only [scannedJnl, abandonedAppend]
        rw [hopen])
      rw [ht, hidle]
      simp [hc, scannedJnl]
    | some d => exact ⟨rfl, rfl⟩
  · rw [ht]
    have hdue : (programDue u).jnl = (programDue c).jnl :=
      programDue_jnl_congr hu harray (by rw [show u.pwr = t.pwr from rfl, hpwr])
    exact (eraseAhead_jnl_congr hdue (by simp [u, harray]) (by simp [u, hpwr])).symm

/-! ### The wake (10 R190) -/

/-- The part at the moment of a wake, 100 ms after the main power has come back, with the check word amended. -/
def wakeMoment (s : State) : State := amending (passTo (s.odo.powerFrom + wakeTime)) s

/-- The check compares the sum of retention memory before the wake. -/
theorem checkPasses_wakeMoment {s : State} (hret : s.pwr.state = .retain) (lost : DataWord) :
    checkPasses lost (wakeMoment s) = decide (retentionSum s + lost = s.pwr.check) := by
  obtain ⟨u, hu⟩ : ∃ u, u = passTo (s.odo.powerFrom + wakeTime) s := ⟨_, rfl⟩
  have hpwr : u.pwr = s.pwr := by rw [hu]; rfl
  have hshape : wakeMoment s = { u with pwr.check := u.pwr.check + (retentionSum u - retentionSum s) } := by
    rw [wakeMoment, amending, if_pos hret, ← hu]
  have hsum : retentionSum (wakeMoment s) = retentionSum u := by rw [hshape]; rfl
  have hcheck : (wakeMoment s).pwr.check = s.pwr.check + (retentionSum u - retentionSum s) := by rw [hshape, hpwr]
  rw [checkPasses, hsum, hcheck]
  have hmoved : retentionSum u + lost = s.pwr.check + (retentionSum u - retentionSum s) ↔ retentionSum s + lost = s.pwr.check := by
    bv_omega
  simp [hmoved]

theorem wakeBody_of_spoiled {straps : Straps} {lost : DataWord} {us : List Upset} {s : State} (hret : s.pwr.state = .retain)
    (hsum : retentionSum s + lost ≠ s.pwr.check) : wakeBody straps lost us s =
      { sampleInputs straps { wakeMoment s with array := withUpsets (wakeMoment s).array us } with
        pwr.state := .starting, odo.powerFrom := (wakeMoment s).time } := by
  have hcheck := checkPasses_wakeMoment hret lost
  rw [decide_eq_false hsum] at hcheck
  unfold wakeBody
  dsimp only
  rw [← wakeMoment, hcheck]
  rfl

theorem wakeMoment_stands (s : State) : (wakeMoment s).time = max s.time (s.odo.powerFrom + 1440000)
    ∧ (wakeMoment s).array = s.array := by
  unfold wakeMoment amending
  split <;> exact ⟨rfl, rfl⟩

/-- Settles O28: a spoiled wake by its check, a cold start by its values, the rebuild by what it makes of each row. -/
theorem spoiledWakeAndColdStart : Obligations.SpoiledWakeAndColdStart := by
  refine ⟨fun straps lost us s hret hpow hus hsum => ?_, fun straps us s hs hus => ?_, fun straps us s hs hus => ?_,
    fun m h => ⟨scannedOdometer_spec h, scannedDirectory_spec h, scannedSectors_spec h⟩,
    fun m d first last odometer h hf hv hone hlast => abandonedClose_spec h hf hv hone hlast⟩
  · rw [show exec (.wake straps lost us) s = withArray us (.next
      (if s.pwr.state = .retain ∧ s.odo.powerGood = true then wakeBody straps lost us s else s)) from rfl,
      withArray_of_inArray hus, if_pos ⟨hret, hpow⟩, wakeBody_of_spoiled hret hsum]
    obtain ⟨htime, harray⟩ := wakeMoment_stands s
    exact ⟨_, rfl, rfl, by rw [harray]; rfl, rfl, htime⟩
  · obtain ⟨b, hb⟩ : ∃ b, b = startInputs straps us (startMoment s) := ⟨_, rfl⟩
    obtain ⟨c, hc⟩ : ∃ c, c = coldBegun b := ⟨_, rfl⟩
    obtain ⟨t, ht⟩ : ∃ t, t = eraseAhead (programDue c) := ⟨_, rfl⟩
    have hbeq := startInputs_eq straps us s
    rw [← hb] at hbeq
    have hceq := coldBegun_eq b
    rw [← hc] at hceq
    have hexec : exec (.coldStart straps .whole us) s = .next t := by
      rw [exec_coldStart straps .whole hs hus, ht, hc, hb]
      rfl
    have hjnl := coldStart_journal (c := c) (t := t) (by rw [hceq]; rfl) ht
    obtain ⟨hdecided, hwork⟩ := hjnl
    have hteq : t = { coldValues b with flt := c.flt, jnl := t.jnl } := by
      rw [ht, jnlWork_frame c]
      rw [hceq]
    have htime : b.time = if s.pwr.state = .off then max s.time (s.odo.powerFrom + 1440000) else s.time := by
      rw [← startMoment_time, hbeq]
    have hbits := coldBegun_faults (s := b) (by rw [hbeq])
    rw [← hc] at hbits
    have hbarray : b.array = withUpsets s.array us := by rw [hbeq]
    have htarray : t.array = withUpsets s.array us := by
      rw [hteq]
      exact hbarray
    have htflt : t.flt = c.flt := by rw [hteq]
    have httime : t.time = b.time := by rw [hteq]; rfl
    have hbaddr : b.lif.address = straps.addr.toNat + 1 := by rw [hbeq]
    refine ⟨t, hexec, ?_, ?_, htarray, ?_, ?_, ?_, ?_, ?_, ?_, ?_, fun k h7 h8 h10 => ?_, fun hwf => ?_, ?_, ?_, ?_, ?_, ?_,
      hdecided, hwork, fun hwf => ?_⟩
    · rw [hteq]
      rfl
    · rw [httime, htime]
    · rw [hteq]
      show b.free = s.free
      rw [hbeq]
    · rw [hteq]
      show b.pending = s.pending
      rw [hbeq]
    · rw [hteq]
      show (⟨committedIn b.array, if b.odo.calStrap then .opened else .closed, 0⟩ : Tar) = _
      rw [hbeq]
      rfl
    · rw [hteq]
      show (⟨b.lif.address, .skip, [], b.time + 33000, Transmitter.free, [], b.time + 28800000⟩ : Lif) = _
      rw [hbaddr]
      rfl
    · rw [hteq]
      rfl
    · rw [htflt, hc]
      show (raise .retentionLost (raiseReads (ringRows b.array) (raiseReads (areaRows b.array) b))).flt.coldFlag = true
      simp only [raise_frame, raiseReads_frame]
      rw [hbeq]
    · rw [htflt, hbits]
      rfl
    · rw [htflt, hbits]
      simp [h7, h8, h10]
    · have hwf' : Memory.wf b.array = true := by
        rw [hbarray]
        exact withUpsets_wf hwf (rows_of_inArray hus)
      rw [htflt, hbits, hbits, allRows_any hwf' (by decide), allRows_any hwf' (by decide), htarray, ← hbarray]
      simp
    · have htodo : t.odo = (coldValues b).odo := by rw [hteq]
      rw [htodo, htarray, ← hbarray, httime, hbeq]
      rfl
    · rw [hteq]
      rfl
    · rw [hteq]
      rfl
    · rw [hteq]
      rfl
    · rw [hteq]
      rfl
    · exact scannedPosition_spec (m := t.array) (by
        rw [htarray]
        exact withUpsets_wf hwf (rows_of_inArray hus))
  · refine ⟨_, exec_coldStart straps .cut hs hus, startMoment_time s, ?_⟩
    have hcut := startInputs_eq straps us s
    rw [startMoment_powerFrom] at hcut
    exact hcut

end Sys2Proof.Machine
end

section
/-!
SUPPORT. The legs at a wake (06 R118, 04 R76): claims end, attempts that ran out in RETAIN are INDETERMINATE.
-/

namespace Sys2Proof.Machine

/-! ### The unresolved list (06 R109) -/

/-- The accounts with an entry more, the oldest pushed out of a full list. -/
def accJoined (a : Acc) (u : Unresolved) : Acc :=
  if a.unresolved.length < 8 then { a with unresolved := a.unresolved ++ [u] }
  else { a with unresolved := a.unresolved.tail ++ [u], shift := { a.shift with pushedOut := min 65535 (a.shift.pushedOut + 1) } }

theorem joinUnresolved_acc (u : Unresolved) (s : State) : (joinUnresolved u s).acc = accJoined s.acc u := by
  unfold joinUnresolved accJoined
  split <;> simp [satAdd]

/-- How many entries leave a list that some join. -/
abbrev pushedBy (entries : List Unresolved) (a : Acc) : Nat :=
  min entries.length (a.unresolved.length + entries.length - 8)

/-- The accounts with some entries more. -/
def accGrown (entries : List Unresolved) (a : Acc) : Acc :=
  { a with
    unresolved := (a.unresolved ++ entries).drop (pushedBy entries a)
    shift := { a.shift with
      pushedOut := if pushedBy entries a = 0 then a.shift.pushedOut else min 65535 (a.shift.pushedOut + pushedBy entries a) } }

theorem foldl_accJoined (entries : List Unresolved) : ∀ a : Acc, entries.foldl accJoined a = accGrown entries a := by
  induction entries with
  | nil => intro a; simp [accGrown]
  | cons e es ih =>
    intro a
    rw [List.foldl_cons, ih]
    by_cases hroom : a.unresolved.length < 8
    · have hpushed : pushedBy (e :: es) a = pushedBy es (accJoined a e) := by
        simp [pushedBy, accJoined, hroom]
        omega
      unfold accGrown
      rw [hpushed]
      simp [accJoined, hroom]
    · have hpushed : pushedBy (e :: es) a = es.length + 1 ∧ pushedBy es (accJoined a e) = es.length := by
        simp [pushedBy, accJoined, hroom]
        omega
      obtain ⟨h1, h2⟩ := hpushed
      obtain ⟨x, xs, hx⟩ : ∃ x xs, a.unresolved = x :: xs := by
        cases h : a.unresolved with
        | nil => simp [h] at hroom
        | cons x xs => exact ⟨x, xs, rfl⟩
      have hcount : (if es.length = 0 then min 65535 (a.shift.pushedOut + 1)
          else min 65535 (min 65535 (a.shift.pushedOut + 1) + es.length)) = min 65535 (a.shift.pushedOut + (es.length + 1)) := by
        split <;> omega
      have hlist : (a.unresolved.tail ++ [e] ++ es).drop es.length = (a.unresolved ++ e :: es).drop (es.length + 1) := by
        rw [hx]
        simp
      unfold accGrown
      rw [h1, h2, if_neg (Nat.succ_ne_zero _), ← hcount, ← hlist]
      have hfull : accJoined a e = { a with
        unresolved := a.unresolved.tail ++ [e], shift := { a.shift with pushedOut := min 65535 (a.shift.pushedOut + 1) } } :=
        if_neg hroom
      rw [hfull]

/-! ### One leg -/

/-- The attempt of a leg whose deadline has passed. -/
def overdue (now : Moment) (l : Leg) : Option Attempt :=
  if l.phase = .paying then (l.flying.filter (fun f => decide (f.2 ≤ now))).map (fun f => f.1) else none

/-- The entry of a leg's attempt that ran out. -/
def overdueEntry (now : Moment) (l : Leg) : Option Unresolved :=
  (overdue now l).map (fun a => ⟨l.number, a.number, a.requested, a.starter⟩)

/-- A leg with its claim and its attempt as a wake leaves them. -/
def overslept (now : Moment) (l : Leg) : Leg :=
  { l with
    phase := if (overdue now l).isSome then .held else l.phase
    attempts := l.attempts.map (fun x => if (overdue now l).any (fun a => decide (x.number = a.number)) then
      { x with state := .indeterminate } else x)
    claim := if l.phase = .held ∨ (overdue now l).isSome then none else l.claim }

theorem overslept_of_none {now : Moment} {l : Leg} (h : overdue now l = none) (hheld : l.phase ≠ .held) :
    overslept now l = l := by
  simp [overslept, h, hheld]

theorem overslept_of_held {now : Moment} {l : Leg} (h : l.phase = .held) : overslept now l = { l with claim := none } := by
  have hnone : overdue now l = none := by simp [overdue, h]
  simp [overslept, hnone, h]

theorem overslept_of_overdue {now : Moment} {l : Leg} {a : Attempt} (h : overdue now l = some a) :
    overslept now l = { l.setAttempt a.number .indeterminate with phase := .held, claim := none } := by
  simp [overslept, h, Leg.setAttempt]

/-! ### One slot (10 R191, step 5) -/

/-- With no station in the table, the end of a reference removes none. -/
theorem endReference_alone {s : State} (hst : s.lif.stations = []) (a : Nat) : endReference a s = s := by
  unfold endReference
  simp [stationOf, hst]

theorem endClaim_alone {i : Fin 4} {l : Leg} {s : State} (hst : s.lif.stations = []) (hl : legAt s i = some l) :
    endClaim i s = setLeg i { l with claim := none } s := by
  unfold endClaim
  rw [hl]
  dsimp only
  split
  · next hc =>
    have hsame : ({ l with claim := none } : Leg) = l := by rw [← hc]
    rw [hsame]
    have hslots : s.fare.slots.set i (some l) = s.fare.slots := by
      rw [← hl, legAt, Four.set_get]
    rw [setLeg, hslots]
  · exact endReference_alone (by simpa using hst) _

theorem renew_of_free {n : Notice} {s : State} (h : s.lif.tx = Transmitter.free) : renew n s = s := by
  rw [renew, h]
  exact if_neg (by simp [Transmitter.free])

theorem showLeg_lif (i : Fin 4) {s : State} (htx : s.lif.tx = Transmitter.free) : (showLeg i s).lif = s.lif := by
  unfold showLeg
  split
  · rfl
  · rw [placeFareShow, renew_of_free (by exact htx)]

/-- The attempt of a leg that is not HELD runs out, where its deadline has passed. -/
theorem resumeSlot_overdue {s : State} {i : Fin 4} {l : Leg} (hl : legAt s i = some l) (hheld : l.phase ≠ .held) :
    resumeSlot s i = (overdue s.time l).elim s (fun a => runOut i l a s) := by
  unfold resumeSlot overdue
  rw [hl]
  dsimp only
  rw [if_neg hheld, flyingAt, hl, Option.bind_some]
  by_cases hpaying : l.phase = .paying
  · rw [if_pos hpaying, if_pos hpaying]
    cases l.flying with
    | none => rfl
    | some f =>
      obtain ⟨a, due⟩ := f
      by_cases hdue : due ≤ s.time <;> simp [Option.filter, hdue]
  · rw [if_neg hpaying, if_neg hpaying]
    rfl

section
variable {s : State} (hst : s.lif.stations = []) (htx : s.lif.tx = Transmitter.free)
include hst htx

theorem runOut_slot (i : Fin 4) (l : Leg) (a : Attempt) :
    (runOut i l a s).fare = (setLeg i { l.setAttempt a.number .indeterminate with phase := .held, claim := none } s).fare
      ∧ (runOut i l a s).acc = accJoined s.acc ⟨l.number, a.number, a.requested, a.starter⟩
      ∧ (runOut i l a s).cab = s.cab ∧ (runOut i l a s).lif = s.lif := by
  obtain ⟨l', hl'⟩ : ∃ l', l' = { l.setAttempt a.number .indeterminate with phase := .held } := ⟨_, rfl⟩
  obtain ⟨w, hw⟩ : ∃ w, w = showLeg i (setLeg i l' s) := ⟨_, rfl⟩
  have hfare : w.fare = (setLeg i l' s).fare := by rw [hw]; simp
  have hlif : w.lif = s.lif := by
    rw [hw, showLeg_lif i (by simpa using htx)]
    simp
  have hleg : legAt w i = some l' := by rw [legAt_congr hfare]; simp
  have hshape : runOut i l a s
      = joinUnresolved ⟨l.number, a.number, a.requested, a.starter⟩ (setLeg i { l' with claim := none } w) := by
    rw [← endClaim_alone (by rw [hlif, hst]) hleg, hw, hl']
    rfl
  have hrest : w.acc = s.acc ∧ w.cab = s.cab := by rw [hw]; simp
  rw [hshape]
  refine ⟨?_, ?_, ?_, ?_⟩
  · simp only [joinUnresolved_frame, setLeg, hfare, hl']
    simp
  · rw [joinUnresolved_acc]
    simp [hrest]
  · simp [hrest]
  · simp [hlif]

/-- What a slot makes of the rest of the part. -/
theorem resumeSlot_slot (i : Fin 4) :
    (resumeSlot s i).fare = { s.fare with slots := s.fare.slots.set i ((legAt s i).map (overslept s.time)) }
      ∧ (resumeSlot s i).acc = (((legAt s i).bind (overdueEntry s.time)).toList).foldl accJoined s.acc
      ∧ (resumeSlot s i).cab = s.cab ∧ (resumeSlot s i).lif = s.lif := by
  have hkept : ∀ o, legAt s i = o → { s.fare with slots := s.fare.slots.set i o } = s.fare := fun o ho => by
    rw [← ho, legAt, Four.set_get]
  cases hl : legAt s i with
  | none =>
    have hsame : resumeSlot s i = s := by rw [resumeSlot, hl]
    rw [hsame]
    exact ⟨(hkept none hl).symm, rfl, rfl, rfl⟩
  | some l =>
    by_cases hheld : l.phase = .held
    · have hset : resumeSlot s i = setLeg i { l with claim := none } s := by
        rw [resumeSlot, hl]
        exact if_pos hheld
      have hnone : overdue s.time l = none := by simp [overdue, hheld]
      rw [hset]
      simp [overslept_of_held hheld, overdueEntry, hnone, setLeg]
    · rw [resumeSlot_overdue hl hheld]
      cases hdue : overdue s.time l with
      | none => simp [overslept_of_none hdue hheld, overdueEntry, hdue, hkept _ hl]
      | some a =>
        obtain ⟨hfare, hacc, hcab, hlif⟩ := runOut_slot hst htx i l a
        rw [Option.elim_some]
        refine ⟨?_, ?_, hcab, hlif⟩
        · rw [hfare, Option.map_some, overslept_of_overdue hdue]
          rfl
        · rw [hacc]
          simp [overdueEntry, hdue]

end

/-! ### The four slots (10 R191, steps 5 and 6) -/

/-- A leg as a wake leaves it. -/
def woken (now : Moment) (l : Leg) : Leg := { overslept now l with interrupted := l.interrupted || l.occupied }

theorem interrupt_overslept (now : Moment) (l : Leg) : (overslept now l).interrupt = woken now l := by
  have hoccupied : (overslept now l).occupied = l.occupied := by
    cases hdue : overdue now l with
    | none => simp [overslept, Leg.occupied, hdue]
    | some a =>
      have hpaying : l.phase = .paying := by
        by_contra hnot
        simp [overdue, hnot] at hdue
      simp [overslept, Leg.occupied, hdue, hpaying]
      decide
  unfold Leg.interrupt woken
  rw [hoccupied]
  cases l.occupied <;> simp [overslept]

/-- The entries of the attempts that ran out, in slot order (log 23). -/
def wakeEntries (now : Moment) (slots : Four (Option Leg)) : List Unresolved :=
  slots.toList.filterMap (fun o => o.bind (overdueEntry now))

theorem toList_filterMap {α β : Type} (f : α → Option β) (x : Four α) : x.toList.filterMap f
    = (f x.s0).toList ++ (f x.s1).toList ++ (f x.s2).toList ++ (f x.s3).toList := by
  simp only [Four.toList, List.filterMap_cons, List.filterMap_nil]
  cases f x.s0 <;> cases f x.s1 <;> cases f x.s2 <;> cases f x.s3 <;> rfl

theorem resumeLegs_legs {s : State} (hst : s.lif.stations = []) (htx : s.lif.tx = Transmitter.free) :
    (resumeLegs s).fare = { s.fare with slots := s.fare.slots.map (Option.map (woken s.time)) }
      ∧ (resumeLegs s).acc = accGrown (wakeEntries s.time s.fare.slots) s.acc
      ∧ (resumeLegs s).cab = s.cab ∧ (resumeLegs s).lif = s.lif := by
  obtain ⟨f0, a0, c0, l0⟩ := resumeSlot_slot hst htx 0
  obtain ⟨f1, a1, c1, l1⟩ := resumeSlot_slot (s := resumeSlot s 0) (by rw [l0, hst]) (by rw [l0, htx]) 1
  obtain ⟨f2, a2, c2, l2⟩ := resumeSlot_slot (s := resumeSlot (resumeSlot s 0) 1) (by rw [l1, l0, hst]) (by rw [l1, l0, htx]) 2
  obtain ⟨f3, a3, c3, l3⟩ := resumeSlot_slot (s := resumeSlot (resumeSlot (resumeSlot s 0) 1) 2)
    (by rw [l2, l1, l0, hst]) (by rw [l2, l1, l0, htx]) 3
  obtain ⟨w, hw⟩ : ∃ w, w = resumeSlot (resumeSlot (resumeSlot (resumeSlot s 0) 1) 2) 3 := ⟨_, rfl⟩
  have hshape : resumeLegs s = { w with fare.slots := w.fare.slots.map (Option.map Leg.interrupt) } := by
    rw [hw]
    rfl
  rw [← hw] at f3 a3 c3 l3
  have htimes : (resumeSlot s 0).time = s.time ∧ (resumeSlot (resumeSlot s 0) 1).time = s.time
      ∧ (resumeSlot (resumeSlot (resumeSlot s 0) 1) 2).time = s.time := by simp
  obtain ⟨t0, t1, t2⟩ := htimes
  rw [t0] at f1 a1
  rw [t1] at f2 a2
  rw [t2] at f3 a3
  simp only [legAt, f0, f1, f2] at f1 f2 f3 a0 a1 a2 a3
  rw [hshape]
  refine ⟨?_, ?_, ?_, ?_⟩
  · show ({ w.fare with slots := w.fare.slots.map (Option.map Leg.interrupt) } : Fare) = _
    rw [f3]
    simp only [Four.map, Four.set, Four.get, Option.map_map]
    have hcomp : Leg.interrupt ∘ overslept s.time = woken s.time := funext fun l => interrupt_overslept s.time l
    rw [hcomp]
  · show w.acc = _
    rw [a3, a2, a1, a0, ← foldl_accJoined, wakeEntries, toList_filterMap]
    simp only [← List.foldl_append]
    rfl
  · show w.cab = _
    rw [c3, c2, c1, c0]
  · show w.lif = _
    rw [l3, l2, l1, l0]

end Sys2Proof.Machine
end

section
/-!
SUPPORT. The resume procedure: the classes it fills, and what each block resumes with (10 R191, R192).
-/

namespace Sys2Proof.Machine

/-! ### Notices placed with a free transmitter -/

section
variable {s : State} (htx : s.lif.tx = Transmitter.free)
include htx

theorem placeOffer_free (i : Fin 4) (o : Offer) :
    placeOffer i o s = { s with nsc.offers := s.nsc.offers.set i (some o) } := renew_of_free htx

theorem placeFareShow_free (i : Fin 4) (f : FareShow) :
    placeFareShow i f s = { s with nsc.fares := s.nsc.fares.set i (some f) } := renew_of_free htx

theorem noticeAssist_free : noticeAssist s
    = { s with nsc.assist := some ⟨s.cab.latch, s.cab.presses, s.cab.pressTime⟩ } := renew_of_free htx

theorem placeSign_free : placeSign s
    = { s with nsc.sign := some ⟨s.cab.sign.pattern, s.cab.sign.flag, s.cab.sign.seq⟩ } := renew_of_free htx

theorem placeAnnounce_free : placeAnnounce s = { s with nsc.announce := true } := renew_of_free htx

theorem refreshPrint_placed : refreshPrint s = { s with nsc.print := firstItem s.acc.jobs } := by
  unfold refreshPrint headItem
  cases hjobs : s.acc.jobs with
  | nil => exact renew_of_free htx
  | cons j rest =>
    dsimp only
    have hfirst : firstItem (j :: rest) = (jobItems j.body)[j.pos]? := rfl
    rw [hfirst]
    cases (jobItems j.body)[j.pos]? with
    | none => exact renew_of_free htx
    | some it => exact renew_of_free htx

end

/-- The offer of a HELD leg. -/
def heldOffer (l : Leg) : Option Offer := if l.phase = .held then some (offerOf l) else none

/-- The show of an occupied leg. -/
def occupiedShow (l : Leg) : Option FareShow := if l.occupied then some (showOf l) else none

/-- One slot's offer at a wake. -/
def offerStep (s : State) (i : Fin 4) : State :=
  match legAt s i with
  | none => s
  | some l => if l.phase = .held then offerLeg i s else s

/-- One slot's show at a wake. -/
def showStep (s : State) (i : Fin 4) : State := if slotOccupied s i then showLeg i s else s

section
variable {s : State} (htx : s.lif.tx = Transmitter.free)
include htx

theorem offerStep_eq (i : Fin 4) : offerStep s i
    = { s with nsc.offers := s.nsc.offers.set i (((legAt s i).bind heldOffer).or (s.nsc.offers.get i)) } := by
  unfold offerStep offerLeg
  cases legAt s i with
  | none =>
    rw [Option.bind_none, Option.none_or, Four.set_get]
  | some l =>
    rw [Option.bind_some, heldOffer]
    dsimp only
    by_cases hheld : l.phase = .held
    · rw [if_pos hheld, if_pos hheld]
      exact placeOffer_free htx i _
    · rw [if_neg hheld, if_neg hheld, Option.none_or, Four.set_get]

theorem showStep_eq (i : Fin 4) : showStep s i
    = { s with nsc.fares := s.nsc.fares.set i (((legAt s i).bind occupiedShow).or (s.nsc.fares.get i)) } := by
  unfold showStep slotOccupied showLeg
  cases legAt s i with
  | none =>
    rw [Option.bind_none, Option.none_or, Four.set_get]
    rfl
  | some l =>
    rw [Option.bind_some, occupiedShow]
    dsimp only
    by_cases hocc : l.occupied = true
    · rw [if_pos hocc, if_pos hocc]
      exact placeFareShow_free htx i _
    · rw [if_neg hocc, if_neg hocc, Option.none_or, Four.set_get]

/-- The offers placed at a wake, in empty slots of class 3. -/
theorem placeOffers_free (hnone : s.nsc.offers = Four.all none) :
    placeOffers s = { s with nsc.offers := s.fare.slots.map (fun o => o.bind heldOffer) } := by
  have hsteps : placeOffers s = offerStep (offerStep (offerStep (offerStep s 0) 1) 2) 3 := rfl
  rw [hsteps, offerStep_eq htx 0, offerStep_eq (by exact htx) 1, offerStep_eq (by exact htx) 2, offerStep_eq (by exact htx) 3, hnone]
  simp [Four.set, Four.get, Four.all, Four.map, legAt]

/-- The shows placed at a wake, in empty slots of class 5. -/
theorem placeShows_free (hnone : s.nsc.fares = Four.all none) :
    placeShows s = { s with nsc.fares := s.fare.slots.map (fun o => o.bind occupiedShow) } := by
  have hsteps : placeShows s = showStep (showStep (showStep (showStep s 0) 1) 2) 3 := rfl
  rw [hsteps, showStep_eq htx 0, showStep_eq (by exact htx) 1, showStep_eq (by exact htx) 2, showStep_eq (by exact htx) 3, hnone]
  simp [Four.set, Four.get, Four.all, Four.map, legAt]

/-- The classes emptied, then filled (R191, step 10). -/
theorem resumeNotices_eq : resumeNotices s = { s with nsc := { Nsc.empty with
    assist := if s.cab.latch then some ⟨s.cab.latch, s.cab.presses, s.cab.pressTime⟩ else none
    sign := some ⟨s.cab.sign.pattern, s.cab.sign.flag, s.cab.sign.seq⟩
    offers := s.fare.slots.map (fun o => o.bind heldOffer)
    fares := s.fare.slots.map (fun o => o.bind occupiedShow)
    print := firstItem s.acc.jobs, announce := true } } := by
  unfold resumeNotices
  rw [placeAnnounce_free (by exact htx), placeSign_free (by exact htx), placeOffers_free (by exact htx) rfl,
    placeShows_free (by exact htx) rfl]
  dsimp only
  cases hlatch : s.cab.latch
  · rw [if_neg (by decide), refreshPrint_placed (by exact htx)]
    rfl
  · rw [if_pos rfl, noticeAssist_free (by exact htx), refreshPrint_placed (by exact htx)]
    simp [hlatch]

end

/-! ### The journal at a wake (10 R191, step 7) -/

/-- JNL resumes by the journal, the array and the power state alone. -/
theorem resumeJournal_jnl_congr {s u : State} (hj : s.jnl = u.jnl) (ha : s.array = u.array) (hp : s.pwr.state = u.pwr.state) :
    (resumeJournal s).jnl = (resumeJournal u).jnl := by
  obtain ⟨s', hs'⟩ : ∃ s', s' = programDue { s with jnl.cursor := none, jnl.credit := 0 } := ⟨_, rfl⟩
  obtain ⟨u', hu'⟩ : ∃ u', u' = programDue { u with jnl.cursor := none, jnl.credit := 0 } := ⟨_, rfl⟩
  have hdue : s'.jnl = u'.jnl := by
    rw [hs', hu']
    exact programDue_jnl_congr (by simp [hj]) ha hp
  have hp' : s'.pwr.state = u'.pwr.state := by rw [hs', hu']; simpa using hp
  have hflag : flaggedSector s' = flaggedSector u' := by rw [flaggedSector, flaggedSector, hdue]
  have hpending : ∀ c, opPending (programsInto c) s' = opPending (programsInto c) u' := fun c => by simp [opPending, hdue]
  unfold resumeJournal
  rw [← hs', ← hu']
  dsimp only
  rw [hflag]
  cases flaggedSector u' with
  | none => exact hdue
  | some c =>
    dsimp only
    rw [hpending]
    split
    · simp [setSector, sectorEntry, hdue]
    · exact requestOp_jnl_congr hdue hp' _

/-- What a sector map says but for the erase flags. -/
abbrev mapped (sectors : List SectorEntry) : List (Bool × Option (Nat × Nat)) := sectors.map (fun e => (e.erased, e.range))

/-- Setting an erase flag changes nothing else of the sector map. -/
theorem mapped_setFlag (sectors : List SectorEntry) (i : Nat) (flag : Bool) :
    mapped (sectors.set i { sectors.getD i SectorEntry.free with eraseFlag := flag }) = mapped sectors := by
  induction sectors generalizing i with
  | nil => rfl
  | cons e es ih =>
    cases i with
    | zero => rfl
    | succ i => exact congrArg (List.cons (e.erased, e.range)) (ih i)

theorem mapped_setSector (c : Nat) (flag : Bool) (s : State) :
    mapped (setSector c { sectorEntry s c with eraseFlag := flag } s).jnl.sectors = mapped s.jnl.sectors :=
  mapped_setFlag s.jnl.sectors (c - 2) flag

theorem mapped_eraseAhead (s : State) : mapped (eraseAhead s).jnl.sectors = mapped s.jnl.sectors := by
  unfold eraseAhead
  dsimp only
  split
  · have hsectors : ∀ op u, (requestOp op u).jnl.sectors = u.jnl.sectors := fun op u => by simp
    rw [hsectors]
    exact mapped_setSector _ true s
  · rfl

theorem mapped_resumeJournal (s : State) : mapped (resumeJournal s).jnl.sectors = mapped s.jnl.sectors := by
  have hdue : (programDue { s with jnl.cursor := none, jnl.credit := 0 }).jnl.sectors = s.jnl.sectors := by simp
  unfold resumeJournal
  dsimp only
  split
  · split
    · exact (mapped_setSector _ false _).trans (by rw [hdue])
    · simp [mapped]
  · rw [hdue]

/-- Asking for an EVENT row adds at most rows at the end of the append queue, each with the next sequence number. -/
theorem claimEventIfOpen_rows (time : DateTime) (b : EventBody) (s : State) :
    (∃ claimed, (claimEventIfOpen time b s).jnl.append = s.jnl.append ++ claimed
        ∧ (claimEventIfOpen time b s).jnl.nextSeq = s.jnl.nextSeq + claimed.length)
      ∧ (claimEventIfOpen time b s).jnl.directory = s.jnl.directory
      ∧ mapped (claimEventIfOpen time b s).jnl.sectors = mapped s.jnl.sectors := by
  rw [claimEventIfOpen_jnl]
  split
  · refine ⟨⟨[⟨s.jnl.nextSeq, _⟩], by simp [claim, enqueueRecord]; rfl, by simp [claim, enqueueRecord]⟩,
      by simp [claim, enqueueRecord, newEntries], ?_⟩
    unfold claim
    rw [mapped_eraseAhead]
    simp [enqueueRecord]
  · exact ⟨⟨[], by simp, by simp⟩, rfl, rfl⟩

end Sys2Proof.Machine
end

section
/-!
SUPPORT. Every block at the end of the resume procedure's first eleven steps (10 R191).
-/

namespace Sys2Proof.Machine

/-! ### Steps 1 to 4 -/

/-- The part with its tariff read, its line and its intercom afresh. -/
def lineAfresh (b : State) : State :=
  resumeIntercom (resumeLine (resumeTariff { b with pwr.state := .active, pwr.abandoned := false }))

theorem lineAfresh_eq (b : State) : lineAfresh b = { b with
    pwr := { b.pwr with state := .active, abandoned := false }, flt := (lineAfresh b).flt
    tar := ⟨committedIn b.array, if b.odo.calStrap && !shiftIsOpen b then .opened else .closed, 0⟩
    lif := ⟨b.lif.address, .skip, [], b.time, Transmitter.free, [], b.lif.announceDue⟩
    cab := { b.cab with watches := [] }
    icm := { b.icm with
      calls := ⟨CallRec.idle, CallRec.idle, CallRec.idle⟩, queue := [], talk := .up, gains := Four.all Gains.zero
      prompts := [], player := .idle, promptSample := 0, ringDue := none } } := by
  unfold lineAfresh
  apply State.ext <;> simp [resumeLine, resumeIntercom, resumeTariff, startWindow, shiftIsOpen]

theorem lineAfresh_faults (b : State) : (lineAfresh b).flt.coldFlag = b.flt.coldFlag
    ∧ ∀ k, (lineAfresh b).flt.latched.getLsbD k
      = (b.flt.latched.getLsbD k || (decide (k = 7) && (areaRows b.array).any (fun e => decide (classify e.2 = .corrected)))
        || (decide (k = 8) && (areaRows b.array).any (fun e => decide (classify e.2 = .damaged)))) := by
  obtain ⟨p, hp⟩ : ∃ p, p = { b with pwr.state := .active, pwr.abandoned := false } := ⟨_, rfl⟩
  have hflt : (lineAfresh b).flt = (raiseReads (areaRows b.array) p).flt := by
    rw [hp]
    rfl
  refine ⟨by simp [lineAfresh], fun k => ?_⟩
  rw [hflt, raiseReads_bit, hp]

/-! ### Steps 5 to 9 -/

/-- The part with its legs, journal, accounts and sign resumed. -/
def blocksResumed (b : State) : State := resumeSign (resumeAccounts (resumeJournal (resumeLegs (lineAfresh b))))

theorem resumed_eq (b : State) : resumed b = resumeTimers (resumeNotices (blocksResumed b)) := rfl

theorem resumeAccounts_acc (s : State) : (resumeAccounts s).acc = { s.acc with jobs := rewoundJobs s.acc.jobs, credit := 0 } := by
  unfold resumeAccounts rewindHead
  dsimp only
  cases hjobs : s.acc.jobs with
  | nil => simp
  | cons j rest => rfl

theorem commandedPattern_congr {s u : State} (hduty : s.cab.duty = u.cab.duty) (hshare : s.cab.share = u.cab.share)
    (hslots : s.fare.slots = u.fare.slots) (htar : s.tar = u.tar) : commandedPattern s = commandedPattern u := by
  simp only [commandedPattern, hduty, hshare, occupied_congr hslots, tariffCp, htar]

theorem blocksResumed_eq (b : State) : blocksResumed b = { lineAfresh b with
    fare := { b.fare with slots := b.fare.slots.map (Option.map (woken b.time)) }
    acc := { accGrown (wakeEntries b.time b.fare.slots) b.acc with jobs := rewoundJobs b.acc.jobs, credit := 0 }
    cab := { b.cab with
      watches := []
      sign := { b.cab.sign with
        pattern := commandedPattern (blocksResumed b), flag := b.cab.latch, seq := (b.cab.sign.seq + 1) % 256
        confirm := .waiting, resends := 0 }
      ack := if b.cab.latch then some .unacked else none }
    nsc := (blocksResumed b).nsc, jnl := (blocksResumed b).jnl } := by
  obtain ⟨c, hc⟩ : ∃ c, c = lineAfresh b := ⟨_, rfl⟩
  have hceq := lineAfresh_eq b
  rw [← hc] at hceq
  obtain ⟨hfare, hacc, hcab, hlif⟩ := resumeLegs_legs (s := c) (by rw [hceq]) (by rw [hceq])
  have hcstands : c.fare = b.fare ∧ c.time = b.time ∧ c.acc = b.acc ∧ c.cab = { b.cab with watches := [] } := by
    rw [hceq]
    exact ⟨rfl, rfl, rfl, rfl⟩
  obtain ⟨hcfare, hctime, hcacc, hccab⟩ := hcstands
  rw [hcfare, hctime] at hfare
  rw [hcfare, hctime, hcacc] at hacc
  rw [hccab] at hcab
  have hpattern : commandedPattern (resumeAccounts (resumeJournal (resumeLegs c))) = commandedPattern (blocksResumed b) :=
    commandedPattern_congr (by simp [blocksResumed, hc]) (by simp [blocksResumed, hc]) (by simp [blocksResumed, hc])
      (by simp [blocksResumed, hc])
  have hsigned : (blocksResumed b).cab = { b.cab with
      watches := []
      sign := { b.cab.sign with
        pattern := commandedPattern (blocksResumed b), flag := b.cab.latch, seq := (b.cab.sign.seq + 1) % 256
        confirm := .waiting, resends := 0 }
      ack := if b.cab.latch then some .unacked else none } := by
    obtain ⟨v, hv⟩ : ∃ v, v = resumeAccounts (resumeJournal (resumeLegs c)) := ⟨_, rfl⟩
    have hvcab : v.cab = { b.cab with watches := [] } := by
      rw [hv, ← hcab]
      simp
    have hshape : (blocksResumed b).cab = { v.cab with
        sign := { v.cab.sign with
          pattern := commandedPattern v, flag := v.cab.latch, seq := (v.cab.sign.seq + 1) % 256
          confirm := .waiting, resends := 0 }
        ack := if v.cab.latch then some .unacked else none } := by
      rw [hv, hc]
      rfl
    rw [hshape, hv, hpattern, ← hv, hvcab]
  have haccounts : (blocksResumed b).acc
      = { accGrown (wakeEntries b.time b.fare.slots) b.acc with jobs := rewoundJobs b.acc.jobs, credit := 0 } := by
    have hshape : (blocksResumed b).acc = (resumeAccounts (resumeJournal (resumeLegs c))).acc := by simp [blocksResumed, hc]
    rw [hshape, resumeAccounts_acc, (resumeJournal_frame _).2.2.1.2.2, hacc]
    rfl
  rw [← hc]
  refine State.ext ?_ ?_ ?_ ?_ ?_ rfl ?_ ?_ ?_ hsigned ?_ haccounts rfl ?_ ?_
  all_goals simp [blocksResumed, ← hc]
  · exact hlif
  · exact hfare

/-! ### Steps 10 to 12 -/

section
variable (b : State)

theorem blocksResumed_tx : (blocksResumed b).lif = ⟨b.lif.address, .skip, [], b.time, Transmitter.free, [], b.lif.announceDue⟩ := by
  rw [blocksResumed_eq, lineAfresh_eq]

theorem blocksResumed_time : (blocksResumed b).time = b.time := by rw [blocksResumed_eq, lineAfresh_eq]

/-- Steps 10 and 11: the classes, the timers and the band. -/
theorem resumed_shape : resumed b = { blocksResumed b with
    nsc := { Nsc.empty with
      assist := if (blocksResumed b).cab.latch then
        some ⟨(blocksResumed b).cab.latch, (blocksResumed b).cab.presses, (blocksResumed b).cab.pressTime⟩ else none
      sign := some ⟨(blocksResumed b).cab.sign.pattern, (blocksResumed b).cab.sign.flag, (blocksResumed b).cab.sign.seq⟩
      offers := (blocksResumed b).fare.slots.map (fun o => o.bind heldOffer)
      fares := (blocksResumed b).fare.slots.map (fun o => o.bind occupiedShow)
      print := firstItem (blocksResumed b).acc.jobs, announce := true }
    odo := { (blocksResumed b).odo with
      pulseQualified := (blocksResumed b).odo.pulseLevel, pulseFrom := none, pulseCount := 0
      tickDue := (blocksResumed b).time + 1440000, window := List.replicate 10 0, moving := false
      vehicleBand := (blocksResumed b).odo.manualBand.getD (automaticBand (blocksResumed b))
      powerFrom := (blocksResumed b).time }
    lif := { (blocksResumed b).lif with announceDue := (blocksResumed b).time + 28800000 }
    cab := { (blocksResumed b).cab with
      signDue := some ((blocksResumed b).time + 14400000)
      repeatDue := if (blocksResumed b).cab.latch then some ((blocksResumed b).time + 144000000) else none }
    icm := { (blocksResumed b).icm with
      holdDue := (blocksResumed b).time + 216000000, sampleDue := (blocksResumed b).time + 900 }
    jnl := (resumed b).jnl } := by
  have hnotices := resumeNotices_eq (s := blocksResumed b) (by rw [blocksResumed_tx])
  rw [resumed_eq, hnotices]
  unfold resumeTimers
  apply State.ext <;> simp [evaluateBand, automaticBand, announceTime, seconds, tickTime, milliseconds, signWait,
    assistRepeat, samplePeriod]

theorem resumed_frames : (resumed b).free = b.free ∧ (resumed b).pending = b.pending ∧ (resumed b).array = b.array
    ∧ (resumed b).time = b.time ∧ (resumed b).pwr = { b.pwr with state := .active, abandoned := false }
    ∧ (resumed b).flt = (lineAfresh b).flt
    ∧ (resumed b).tar = ⟨committedIn b.array, if b.odo.calStrap && !shiftIsOpen b then .opened else .closed, 0⟩
    ∧ (resumed b).fare = { b.fare with slots := b.fare.slots.map (Option.map (woken b.time)) }
    ∧ (resumed b).acc
      = { accGrown (wakeEntries b.time b.fare.slots) b.acc with jobs := rewoundJobs b.acc.jobs, credit := 0 } := by
  rw [resumed_eq, resumeNotices_eq (by rw [blocksResumed_tx])]
  simp only [resumeTimers_frame]
  rw [blocksResumed_eq, lineAfresh_eq]
  exact ⟨rfl, rfl, rfl, rfl, rfl, rfl, rfl, rfl, rfl⟩

theorem resumed_lif : (resumed b).lif
    = ⟨b.lif.address, .skip, [], b.time, Transmitter.free, [], b.time + 28800000⟩ := by
  rw [resumed_shape]
  simp only [blocksResumed_tx, blocksResumed_time]

theorem resumed_odo : (resumed b).odo = { b.odo with
    pulseQualified := b.odo.pulseLevel, pulseFrom := none, pulseCount := 0, tickDue := b.time + 1440000
    window := List.replicate 10 0, moving := false
    vehicleBand := b.odo.manualBand.getD (automaticBand (resumed b)), powerFrom := b.time } := by
  have hodo : (blocksResumed b).odo = b.odo := by rw [blocksResumed_eq, lineAfresh_eq]
  have hband : automaticBand (resumed b) = automaticBand (blocksResumed b) := by
    rw [resumed_shape]
    rfl
  rw [hband, resumed_shape]
  simp only [hodo, blocksResumed_time]

theorem resumed_icm : (resumed b).icm = { b.icm with
    calls := ⟨CallRec.idle, CallRec.idle, CallRec.idle⟩, queue := [], talk := .up, gains := Four.all Gains.zero
    prompts := [], player := .idle, promptSample := 0, ringDue := none, holdDue := b.time + 216000000
    sampleDue := b.time + 900 } := by
  have hicm : (blocksResumed b).icm = (lineAfresh b).icm := by rw [blocksResumed_eq]
  rw [resumed_shape]
  simp only [hicm, blocksResumed_time]
  rw [lineAfresh_eq]

theorem commandedPattern_resumed : commandedPattern (blocksResumed b) = commandedPattern (resumed b) := by
  rw [resumed_shape]
  rfl

theorem resumed_cab : (resumed b).cab = { b.cab with
    watches := []
    sign := { b.cab.sign with
      pattern := commandedPattern (resumed b), flag := b.cab.latch, seq := (b.cab.sign.seq + 1) % 256
      confirm := .waiting, resends := 0 }
    ack := if b.cab.latch then some .unacked else none
    signDue := some (b.time + 14400000), repeatDue := if b.cab.latch then some (b.time + 144000000) else none } := by
  have hcab := congrArg State.cab (blocksResumed_eq b)
  rw [← commandedPattern_resumed, resumed_shape]
  simp only [blocksResumed_time]
  rw [hcab]

theorem resumed_nsc : (resumed b).nsc = { Nsc.empty with
    assist := if b.cab.latch then some ⟨b.cab.latch, b.cab.presses, b.cab.pressTime⟩ else none
    sign := some ⟨(resumed b).cab.sign.pattern, (resumed b).cab.sign.flag, (resumed b).cab.sign.seq⟩
    offers := (resumed b).fare.slots.map (fun o => o.bind heldOffer)
    fares := (resumed b).fare.slots.map (fun o => o.bind occupiedShow)
    print := firstItem (resumed b).acc.jobs, announce := true } := by
  have hcab := congrArg State.cab (blocksResumed_eq b)
  have hstands : (resumed b).cab.sign = (blocksResumed b).cab.sign ∧ (resumed b).fare = (blocksResumed b).fare
      ∧ (resumed b).acc = (blocksResumed b).acc := by
    rw [resumed_shape]
    exact ⟨rfl, rfl, rfl⟩
  obtain ⟨hsign, hfare, hacc⟩ := hstands
  rw [hsign, hfare, hacc, resumed_shape]
  simp only [hcab]

/-- JNL has resumed, and looked at erase-ahead. -/
theorem resumed_jnl {u : State} (hj : u.jnl = b.jnl) (ha : u.array = b.array) (hp : u.pwr.state = .active) :
    (resumed b).jnl = (eraseAhead (resumeJournal u)).jnl := by
  obtain ⟨q, hq⟩ : ∃ q, q = resumeLegs (lineAfresh b) := ⟨_, rfl⟩
  have hqstands : q.jnl = b.jnl ∧ q.array = b.array ∧ q.pwr.state = .active := by
    rw [hq]
    simp [lineAfresh]
  obtain ⟨hqj, hqa, hqp⟩ := hqstands
  have hblocks : (blocksResumed b).jnl = (resumeJournal u).jnl := by
    have hjnl : (blocksResumed b).jnl = (resumeJournal q).jnl := by simp [blocksResumed, hq]
    rw [hjnl]
    exact resumeJournal_jnl_congr (hqj.trans hj.symm) (hqa.trans ha.symm) (hqp.trans hp.symm)
  have hrest : (blocksResumed b).array = b.array ∧ (blocksResumed b).pwr.state = .active := by
    rw [blocksResumed_eq, lineAfresh_eq]
    exact ⟨rfl, rfl⟩
  obtain ⟨hba, hbp⟩ := hrest
  rw [resumed_eq]
  refine eraseAhead_jnl_congr ?_ ?_ ?_
  · rw [← hblocks]
    simp [evaluateBand]
  · simpa [evaluateBand, ha] using hba
  · simpa [evaluateBand, hp] using hbp

end

end Sys2Proof.Machine
end

section
/-!
SETTLED OBLIGATIONS. A wake whose sum agrees with the check word (10 R190 to R192).
-/

namespace Sys2Proof.Machine

/-! ### The interruption and a press taken in RETAIN (10 R192) -/

/-- The shift's count of interruptions with one more. -/
def countInterruption (c : Totals) : Totals := { c with interruptions := min 65535 (c.interruptions + 1) }

/-- The body of the POWER_INTERRUPTION row. -/
def cutBody (s : State) : EventBody := .powerInterruption (min 4294967295 ((s.time - s.pwr.retainAt) / 14400000))

/-- The part with the interruption counted, and its row asked for. -/
def interruptionAsked (s : State) : State := claimEventIfOpen s.odo.clock (cutBody s) (counting countInterruption s)

/-- A press taken in RETAIN is noticed. -/
def calledAgain (s : State) : State := { s with
  cab.wakeMark := false, cab.ack := some .unacked, cab.repeatDue := some (s.time + 144000000)
  nsc.assist := some ⟨s.cab.latch, s.cab.presses, s.cab.pressTime⟩ }

theorem counting_kept (f : Totals → Totals) (s : State) :
    counting f s = { s with acc := (counting f s).acc } := by
  unfold counting
  split <;> rfl

theorem interruption_eq {s : State} (htx : s.lif.tx = Transmitter.free) (hpattern : s.cab.sign.pattern = commandedPattern s)
    (hflag : s.cab.sign.flag = s.cab.latch) : interruption s = if s.cab.wakeMark then
      claimEventIfOpen s.odo.clock (.assist s.cab.presses) (counting countAssist (calledAgain (interruptionAsked s)))
    else interruptionAsked s := by
  obtain ⟨w, hw⟩ : ∃ w, w = interruptionAsked s := ⟨_, rfl⟩
  have hwstands : w.cab = s.cab ∧ w.lif = s.lif ∧ w.fare = s.fare ∧ w.tar = s.tar ∧ w.odo = s.odo := by
    rw [hw]
    simp [interruptionAsked]
  obtain ⟨hcab, hlif, hfare, htar, hodo⟩ := hwstands
  have hshape : interruption s = if w.cab.wakeMark then pressEffects { w with cab.wakeMark := false } else w := by
    have hcounted : countShift (fun t => { t with interruptions := satAdd 65535 t.interruptions 1 }) s
        = counting countInterruption s := rfl
    have hseconds : ∀ a, retainSeconds { s with acc := a } = min 4294967295 ((s.time - s.pwr.retainAt) / 14400000) :=
      fun _ => rfl
    rw [hw, interruptionAsked, cutBody, interruption]
    dsimp only
    rw [hcounted, counting_kept, hseconds]
  rw [hshape]
  split
  · next hmark =>
    rw [hcab] at hmark
    rw [if_pos hmark]
    obtain ⟨v, hv⟩ : ∃ v : State, v = { w with cab.wakeMark := false } := ⟨_, rfl⟩
    have hvcab : v.cab = { s.cab with wakeMark := false } := by rw [hv, ← hcab]
    have hsame : commandedPattern v = s.cab.sign.pattern := by
      rw [hpattern]
      exact commandedPattern_congr (by rw [hvcab]) (by rw [hvcab]) (by rw [hv, ← hfare]) (by rw [hv, ← htar])
    have hsign : recomputeSign v = v := by
      unfold recomputeSign
      dsimp only
      rw [hsame]
      exact if_pos (by rw [hvcab]; exact ⟨rfl, hflag.symm⟩)
    have hcalled : noticeAssist (unack v) = calledAgain w := by
      rw [noticeAssist_free (by rw [hv]; exact (congrArg Lif.tx hlif).trans htx), hv]
      rfl
    rw [← hv, pressEffects_eq, hsign, hcalled, hvcab, hv, hodo, hw]
  · next hmark =>
    rw [hcab] at hmark
    rw [if_neg hmark, hw]

theorem claimEventIfOpen_grows (time : DateTime) (b : EventBody) (s : State) : (claimEventIfOpen time b s).acc
    = { s.acc with shift := { s.acc.shift with totals := { s.acc.shift.totals with
      notJournalled := (claimEventIfOpen time b s).acc.shift.totals.notJournalled } } } := by
  rw [claimEventIfOpen_acc]
  split <;> rfl

section
variable {r : State} (htx : r.lif.tx = Transmitter.free) (hpattern : r.cab.sign.pattern = commandedPattern r)
  (hflag : r.cab.sign.flag = r.cab.latch)
include htx hpattern hflag

theorem interruption_keeps : (interruption r).pending = r.pending ∧ (interruption r).free = r.free
    ∧ (interruption r).time = r.time ∧ (interruption r).array = r.array ∧ (interruption r).lif = r.lif
    ∧ (interruption r).odo = r.odo ∧ (interruption r).tar = r.tar ∧ (interruption r).fare = r.fare
    ∧ (interruption r).icm = r.icm ∧ (interruption r).flt = r.flt ∧ (interruption r).pwr = r.pwr := by
  rw [interruption_eq htx hpattern hflag]
  split <;> simp [calledAgain, interruptionAsked]

theorem interruption_cab : (interruption r).cab = if r.cab.wakeMark then
      { r.cab with wakeMark := false, ack := some .unacked, repeatDue := some (r.time + 144000000) } else r.cab := by
  rw [interruption_eq htx hpattern hflag]
  split <;> simp [calledAgain, interruptionAsked]

theorem interruption_nsc : (interruption r).nsc = if r.cab.wakeMark then
      { r.nsc with assist := some ⟨r.cab.latch, r.cab.presses, r.cab.pressTime⟩ } else r.nsc := by
  rw [interruption_eq htx hpattern hflag]
  split <;> simp [calledAgain, interruptionAsked]

/-- Of the accounts, the totals alone count what the wake tells. -/
theorem interruption_acc : (interruption r).acc = { r.acc with shift := { r.acc.shift with totals := { r.acc.shift.totals with
    interruptions := if shiftIsOpen r then min 65535 (r.acc.shift.totals.interruptions + 1)
      else r.acc.shift.totals.interruptions
    assists := if shiftIsOpen r && r.cab.wakeMark then min 65535 (r.acc.shift.totals.assists + 1)
      else r.acc.shift.totals.assists
    notJournalled := (interruption r).acc.shift.totals.notJournalled } } } := by
  have hasked : (interruptionAsked r).acc = { r.acc with shift := { r.acc.shift with totals := { r.acc.shift.totals with
      interruptions := if shiftIsOpen r then min 65535 (r.acc.shift.totals.interruptions + 1)
        else r.acc.shift.totals.interruptions
      notJournalled := (interruptionAsked r).acc.shift.totals.notJournalled } } } := by
    unfold interruptionAsked
    rw [claimEventIfOpen_grows, counting_acc]
    cases shiftIsOpen r <;> rfl
  have hopen : shiftIsOpen (calledAgain (interruptionAsked r)) = shiftIsOpen r := by
    show decide ((interruptionAsked r).acc.shift.state = .opened) = _
    rw [hasked]
    rfl
  rw [interruption_eq htx hpattern hflag]
  cases hmark : r.cab.wakeMark
  · rw [if_neg (by decide), Bool.and_false]
    exact hasked
  · rw [if_pos rfl, claimEventIfOpen_grows, counting_acc, hopen, Bool.and_true]
    have hcalled : (calledAgain (interruptionAsked r)).acc = (interruptionAsked r).acc := rfl
    rw [hcalled, hasked]
    cases shiftIsOpen r <;> rfl

theorem interruption_rows : (∃ claimed, (interruption r).jnl.append = r.jnl.append ++ claimed
      ∧ (interruption r).jnl.nextSeq = r.jnl.nextSeq + claimed.length)
    ∧ (interruption r).jnl.directory = r.jnl.directory
    ∧ mapped (interruption r).jnl.sectors = mapped r.jnl.sectors := by
  have hcounted : (counting countInterruption r).jnl = r.jnl := by rw [counting_kept]
  have hasked := claimEventIfOpen_rows r.odo.clock (cutBody r) (counting countInterruption r)
  rw [hcounted, ← interruptionAsked] at hasked
  obtain ⟨⟨first, happend, hseq⟩, hdir, hmapped⟩ := hasked
  rw [interruption_eq htx hpattern hflag]
  split
  · have hcalled : (counting countAssist (calledAgain (interruptionAsked r))).jnl = (interruptionAsked r).jnl := by
      rw [counting_kept]
      rfl
    have hagain := claimEventIfOpen_rows r.odo.clock (.assist r.cab.presses) (counting countAssist (calledAgain (interruptionAsked r)))
    rw [hcalled] at hagain
    obtain ⟨⟨second, happend', hseq'⟩, hdir', hmapped'⟩ := hagain
    exact ⟨⟨first ++ second, by rw [happend', happend, List.append_assoc], by rw [hseq', hseq, List.length_append, Nat.add_assoc]⟩,
      hdir'.trans hdir, hmapped'.trans hmapped⟩
  · exact ⟨⟨first, happend, hseq⟩, hdir, hmapped⟩

/-- The rows asked for, of a part of which JNL is asked alike. -/
theorem interruption_asks {u : State} (hu : AskedAlike (counting countInterruption r) u) :
    if r.cab.wakeMark = false then EventAsked r.odo.clock (cutBody r) u (interruption r)
    else ∃ w, EventAsked r.odo.clock (cutBody r) u w ∧ w = { u with jnl := w.jnl, acc := w.acc }
      ∧ EventAsked r.odo.clock (.assist r.cab.presses) (counting countAssist w) (interruption r) := by
  rw [interruption_eq htx hpattern hflag]
  cases hmark : r.cab.wakeMark
  · exact eventAsked_of_alike hu rfl rfl
  · obtain ⟨-, harray, hpwr, -, hoccupied⟩ := id hu
    have hcounted : (counting countInterruption r).array = r.array ∧ (counting countInterruption r).pwr = r.pwr
        ∧ (counting countInterruption r).fare = r.fare := by
      rw [counting_kept]
      exact ⟨rfl, rfl, rfl⟩
    obtain ⟨h1, h2, h3⟩ := hcounted
    have hkept : (interruptionAsked r).array = r.array ∧ (interruptionAsked r).pwr = r.pwr ∧ (interruptionAsked r).fare = r.fare := by
      simp [interruptionAsked]
    obtain ⟨h1', h2', h3'⟩ := hkept
    refine ⟨{ u with jnl := (interruptionAsked r).jnl, acc := (interruptionAsked r).acc },
      eventAsked_of_alike hu rfl rfl, rfl, eventAsked_of_alike (AskedAlike.counting ?_ countAssist) rfl rfl⟩
    refine ⟨rfl, ?_, ?_, rfl, ?_⟩
    · exact h1'.trans (h1.symm.trans harray)
    · rw [← h2] at h2'
      exact (congrArg Pwr.state h2').trans hpwr
    · refine (occupied_congr ?_).trans hoccupied
      exact congrArg Fare.slots (h3'.trans h3.symm)

end

theorem resumeJournal_reader (s : State) : (resumeJournal s).jnl.cursor = none ∧ (resumeJournal s).jnl.credit = 0 := by
  unfold resumeJournal
  dsimp only
  (repeat' split) <;> simp

/-- What the resume procedure keeps of the journal. -/
theorem resumed_rows (b : State) : ((resumed b).jnl.cursor = none ∧ (resumed b).jnl.credit = 0)
    ∧ (resumed b).jnl.directory = b.jnl.directory ∧ (resumed b).jnl.append = b.jnl.append
    ∧ (resumed b).jnl.nextSeq = b.jnl.nextSeq ∧ mapped (resumed b).jnl.sectors = mapped b.jnl.sectors := by
  obtain ⟨u, hu⟩ : ∃ u : State, u = { b with pwr.state := .active } := ⟨_, rfl⟩
  have hjnl := resumed_jnl b (u := u) (by rw [hu]) (by rw [hu]) (by rw [hu])
  have huj : u.jnl = b.jnl := by rw [hu]
  obtain ⟨hcursor, hcredit⟩ := resumeJournal_reader u
  rw [hjnl, mapped_eraseAhead, mapped_resumeJournal]
  simp [hcursor, hcredit, huj]

/-! ### The wake -/

theorem wakeMoment_eq {s : State} (hret : s.pwr.state = .retain) : wakeMoment s = { s with
    time := (wakeMoment s).time
    pwr.check := s.pwr.check + (retentionSum { s with time := (wakeMoment s).time } - retentionSum s) } := by
  unfold wakeMoment amending
  rw [if_pos hret]
  rfl

/-- The part at a wake, its inputs sampled and its array as it then reads. -/
def wokenPart (straps : Straps) (us : List Upset) (s : State) : State :=
  sampleInputs straps { wakeMoment s with array := withUpsets (wakeMoment s).array us }

theorem wokenPart_eq {straps : Straps} {us : List Upset} {s : State} (hret : s.pwr.state = .retain) :
    wokenPart straps us s = { s with
      time := (wakeMoment s).time, array := withUpsets s.array us
      pwr.check := s.pwr.check + (retentionSum { s with time := (wakeMoment s).time } - retentionSum s)
      lif := { s.lif with address := straps.addr.toNat + 1 }
      odo := { s.odo with addrStrap := straps.addr, calStrap := straps.cal
                          detector := if s.odo.assistLevel then .armed else .down } } := by
  rw [wokenPart, wakeMoment_eq hret]
  rfl

theorem exec_wake_intact {straps : Straps} {lost : DataWord} {us : List Upset} {s : State} (hret : s.pwr.state = .retain)
    (hpow : s.odo.powerGood = true) (hus : us.all Upset.inArray = true) (hsum : retentionSum s + lost = s.pwr.check) :
    exec (.wake straps lost us) s = .next (interruption (resumed (wokenPart straps us s))) := by
  have hcheck := checkPasses_wakeMoment hret lost
  rw [decide_eq_true hsum] at hcheck
  rw [show exec (.wake straps lost us) s = withArray us (.next
    (if s.pwr.state = .retain ∧ s.odo.powerGood = true then wakeBody straps lost us s else s)) from rfl,
    withArray_of_inArray hus, if_pos ⟨hret, hpow⟩]
  unfold wakeBody
  dsimp only
  rw [← wakeMoment, hcheck, if_pos rfl, resumeProcedure, ← wokenPart]

/-- Settles O27: the part is woken, its blocks are resumed one by one, and the interruption is then told. -/
theorem intactWakeResumes : Obligations.IntactWakeResumes := by
  intro straps lost us s hret hpow hus hsum
  obtain ⟨b, hb⟩ : ∃ b, b = wokenPart straps us s := ⟨_, rfl⟩
  obtain ⟨r, hr⟩ : ∃ r, r = resumed b := ⟨_, rfl⟩
  obtain ⟨t, ht⟩ : ∃ t, t = interruption r := ⟨_, rfl⟩
  have hexec : exec (.wake straps lost us) s = .next t := by
    rw [exec_wake_intact hret hpow hus hsum, ht, hr, hb]
  have hbeq := wokenPart_eq (straps := straps) (us := us) hret
  rw [← hb] at hbeq
  obtain ⟨hrfree, hrpending, hrarray, hrtime, hrpwr, hrflt, hrtar, hrfare, hracc⟩ := resumed_frames b
  have hrlif := resumed_lif b
  have hrodo := resumed_odo b
  have hricm := resumed_icm b
  have hrcab := resumed_cab b
  have hrnsc := resumed_nsc b
  rw [← hr] at hrfree hrpending hrarray hrtime hrpwr hrflt hrtar hrfare hracc hrlif hrodo hricm hrcab hrnsc
  have htx : r.lif.tx = Transmitter.free := by rw [hrlif]
  have hpattern : r.cab.sign.pattern = commandedPattern r := by
    conv_lhs => rw [hrcab]
  have hflag : r.cab.sign.flag = r.cab.latch := by rw [hrcab]
  obtain ⟨kpending, kfree, ktime, karray, klif, kodo, ktar, kfare, kicm, kflt, kpwr⟩ := interruption_keeps htx hpattern hflag
  have kcab := interruption_cab htx hpattern hflag
  have knsc := interruption_nsc htx hpattern hflag
  have kacc := interruption_acc htx hpattern hflag
  have krows := interruption_rows htx hpattern hflag
  rw [← ht] at kpending kfree ktime karray klif kodo ktar kfare kicm kflt kpwr kcab knsc kacc krows
  have hbstands : b.fare = s.fare ∧ b.acc = s.acc ∧ b.cab = s.cab ∧ b.icm = s.icm ∧ b.jnl = s.jnl ∧ b.flt = s.flt
      ∧ b.free = s.free ∧ b.pending = s.pending ∧ b.array = withUpsets s.array us
      ∧ b.lif.address = straps.addr.toNat + 1 := by
    rw [hbeq]
    exact ⟨rfl, rfl, rfl, rfl, rfl, rfl, rfl, rfl, rfl, rfl⟩
  obtain ⟨bfare, bacc, bcab, bicm, bjnl, bflt, bfree, bpending, barray, baddress⟩ := hbstands
  have htime : t.time = b.time := ktime.trans hrtime
  have htarray : t.array = withUpsets s.array us := karray.trans (hrarray.trans barray)
  have hbmoment : b.time = (wakeMoment s).time := by rw [hbeq]
  have hbopen : shiftIsOpen b = shiftIsOpen s := by rw [shiftIsOpen, bacc, shiftIsOpen]
  have hropen : shiftIsOpen r = shiftIsOpen s := by
    rw [shiftIsOpen, hracc, bacc]
    rfl
  have hrmark : r.cab.wakeMark = s.cab.wakeMark := by rw [hrcab, bcab]
  have bpwr : b.pwr = { s.pwr with
      check := s.pwr.check + (retentionSum { s with time := (wakeMoment s).time } - retentionSum s) } := by rw [hbeq]
  have bodo : b.odo = { s.odo with addrStrap := straps.addr, calStrap := straps.cal
                                   detector := if s.odo.assistLevel then .armed else .down } := by rw [hbeq]
  have hcommanded : commandedPattern r = commandedPattern t :=
    commandedPattern_congr (by rw [kcab]; split <;> rfl) (by rw [kcab]; split <;> rfl) (by rw [kfare]) (by rw [ktar])
  obtain ⟨⟨claimed, tappend, tseq⟩, tdir, tmapped⟩ := krows
  have tstands : t.jnl.cursor = r.jnl.cursor ∧ t.jnl.credit = r.jnl.credit := by rw [ht]; simp
  obtain ⟨tcursor, tcredit⟩ := tstands
  obtain ⟨⟨rcursor, rcredit⟩, rdir, rappend, rseq, rmapped⟩ := resumed_rows b
  rw [← hr] at rcursor rcredit rdir rappend rseq rmapped
  obtain ⟨hcold, hbits⟩ := lineAfresh_faults b
  rw [← hrflt, ← kflt] at hcold hbits
  rw [bflt] at hcold hbits
  obtain ⟨hmoment, -⟩ := wakeMoment_stands s
  rw [← hbmoment, ← htime] at hmoment
  refine ⟨t, hexec, hmoment, htarray, kfree.trans (hrfree.trans bfree), kpending.trans (hrpending.trans bpending),
    ?_, ⟨?_, ?_⟩, ?_, ?_, ?_, ?_, ⟨?_, ?_⟩, hcold, fun k h7 h8 => ?_, fun hwf => ?_, ?_, ?_, ?_, ?_, ?_, ?_, ?_⟩
  · rw [kpwr, hrpwr, bpwr, htime, hbmoment]
  · rw [kfare, hrfare, bfare, ← htime]
    rfl
  · refine kacc.trans ?_
    rw [hropen, hrmark, hracc, bacc, bfare, ← htime]
    rfl
  · rw [ktar, hrtar, bodo, hbopen, htarray, barray]
  · rw [klif, hrlif, baddress, htime]
  · have hband : automaticBand r = automaticBand t := by
      rw [automaticBand, automaticBand, ktar, kodo]
    rw [kodo, hrodo, hband, bodo, htime]
  · rw [kicm, hricm, bicm, htime]
  · rw [hcommanded] at hrcab
    rw [kcab, hrmark, hrtime, ← htime, hrcab, bcab, ← htime]
    cases hmark : s.cab.wakeMark <;> cases s.cab.latch <;> apply Cab.ext <;> simp [hmark]
  · have hsign : r.cab.sign = t.cab.sign := by
      rw [kcab]
      split <;> rfl
    have hshown : r.cab.latch = s.cab.latch ∧ r.cab.presses = s.cab.presses ∧ r.cab.pressTime = s.cab.pressTime := by
      rw [hrcab, bcab]
      exact ⟨rfl, rfl, rfl⟩
    obtain ⟨hlatch, hpresses, hpressTime⟩ := hshown
    have hjobs : r.acc.jobs = t.acc.jobs := by rw [kacc]
    rw [knsc, hrmark, hlatch, hpresses, hpressTime, hrnsc, hsign, ← kfare, hjobs, bcab]
    cases s.cab.wakeMark <;> cases s.cab.latch <;> rfl
  · rw [hbits]
    simp [h7, h8]
  · have hwf' : Memory.wf b.array = true := by
      rw [barray]
      exact withUpsets_wf hwf (rows_of_inArray hus)
    rw [hbits, hbits, areaRows_any hwf' (by decide), areaRows_any hwf' (by decide), htarray, ← barray]
    simp
  · rw [tcursor, rcursor]
  · rw [tcredit, rcredit]
  · rw [tdir, rdir, bjnl]
  · rw [tappend, rappend, bjnl]
    simp
  · rw [tappend, tseq, rappend, rseq, bjnl, List.length_append]
    omega
  · exact tmapped.trans (rmapped.trans (by rw [bjnl]))
  · intro counted u cut
    have hcjnl : counted.jnl = b.jnl := bjnl.symm
    have hcarray : counted.array = b.array := karray.trans hrarray
    have hcpwr : counted.pwr.state = .active := by
      show t.pwr.state = .active
      rw [kpwr, hrpwr]
    have hcacc : counted.acc = (counting countInterruption r).acc := by
      have hcounted : counted.acc = { t.acc with shift := { t.acc.shift with totals := { s.acc.shift.totals with
        interruptions := t.acc.shift.totals.interruptions } } } := rfl
      rw [hcounted, kacc, counting_acc, hropen, hracc, bacc]
      cases shiftIsOpen s <;> rfl
    have halike : AskedAlike (counting countInterruption r) u := by
      have hrcounted : (counting countInterruption r).jnl = r.jnl ∧ (counting countInterruption r).array = r.array
          ∧ (counting countInterruption r).pwr = r.pwr ∧ (counting countInterruption r).fare = r.fare := by
        rw [counting_kept]
        exact ⟨rfl, rfl, rfl, rfl⟩
      obtain ⟨cjnl, carray, cpwr, cfare⟩ := hrcounted
      have hu : u.array = counted.array ∧ u.pwr = counted.pwr ∧ u.acc = counted.acc ∧ u.fare = counted.fare := by
        simp [u]
      obtain ⟨uarray, upwr, uacc, ufare⟩ := hu
      refine ⟨?_, ?_, ?_, ?_, occupied_congr ?_⟩
      · rw [cjnl, hr]
        exact resumed_jnl b hcjnl hcarray hcpwr
      · rw [carray, uarray]
        exact karray.symm
      · rw [cpwr, upwr]
        exact congrArg Pwr.state kpwr.symm
      · rw [uacc, hcacc]
      · rw [cfare, ufare]
        exact congrArg Fare.slots kfare.symm
    have hasks := interruption_asks htx hpattern hflag halike
    have hcut : cutBody r = cut := by
      show EventBody.powerInterruption (min 4294967295 ((r.time - r.pwr.retainAt) / 14400000)) = _
      rw [← ktime, ← kpwr, kpwr, hrpwr, bpwr]
    have hclock : r.odo.clock = s.odo.clock := by rw [hrodo, bodo]
    have hpresses : r.cab.presses = s.cab.presses := by rw [hrcab, bcab]
    rw [hrmark, hcut, hclock, hpresses, ← ht] at hasks
    exact hasks

end Sys2Proof.Machine
end
